-- ==== Sys2Proof/Word.lean ====
section
/-! DEFINITION. The word of the exchange memory, sheet values, move tags, and the numbers of units, lines and zones. -/

namespace Sys2Proof

/-- One word of the exchange memory, of a register or of a frame: 32 bits (0.4, 0.5). -/
abbrev Word := BitVec 32

/-- A sheet value: a 32-bit count that wraps (0.7). -/
abbrev Sheet := BitVec 32

/-- A move tag, 0 to 15; a line's tag counter advances modulo 16 (0.6). -/
abbrev Tag := BitVec 4

/-- An inking unit 1 to 16, held as its number less one (0.6). -/
abbrev UnitNo := Fin 16

/-- A key line 1 to 16, held as its number less one; line n serves unit n (0.6). -/
abbrev LineNo := Fin 16

/-- A zone 1 to 64 of a unit, held as its number less one (0.6). -/
abbrev ZoneNo := Fin 64

/-- One word of the exchange memory with its word address. -/
abbrev Cell := Nat × Word

/-- The exchange memory: the words that differ from what an unlisted address reads as, by rising address. -/
abbrev Memory := List Cell

/-- The number a unit or line goes by in the manual, 1 to 16. -/
def UnitNo.number (u : UnitNo) : Nat := u.val + 1

/-- The number a zone goes by in the manual, 1 to 64. -/
def ZoneNo.number (z : ZoneNo) : Nat := z.val + 1

end Sys2Proof
end

