-- ==== Sys2Proof/Config.lean ====
section
/-! DEFINITION. What an implementation fixes and what the manual leaves open: opaque constants, and the sizes the manual gives. -/

namespace Sys2Proof.Config

/-- The design revision shown by IDENT (R155, 11.2). The manual gives no value: a free value (log entry 3). -/
opaque designRevision : BitVec 16

/-- Bits 15:0 of status word 2 while no scan number is present (11.4, R187): free, fresh at each write (log entry 4). -/
opaque absentScanNumber : Nat → BitVec 16

/-- The hit zone field of a density watch entry with no last hit (11.4, R187): free, fresh at each write (log entry 4). -/
opaque absentHitZone : Nat → BitVec 7

/-- The hit density field of a density watch entry with no last hit (11.4, R187): free, fresh at each write (log entry 4). -/
opaque absentHitDensity : Nat → BitVec 12

/-- The hit scan number of a density watch entry with no last hit (11.4, R187): free, fresh at each write (log entry 4). -/
opaque absentHitScan : Nat → BitVec 16

/-- How many of the last words that the part wrote a reset finds not yet written (R161): free, fresh at each reset (log entry 24). -/
opaque abandonedWords : Nat → Nat

/-- Words of the exchange memory (0.2). -/
def memoryWords : Nat := 65536

/-- Words of the anchor (R154). -/
def anchorWords : Nat := 16

/-- Words of one order slot (9.5). -/
def slotWords : Nat := 16

/-- Words of the zone mirror (R154, R165). -/
def mirrorWords : Nat := 2080

/-- Words of one unit's mirror block (R165). -/
def blockWords : Nat := 130

/-- Words of the status area (R166). -/
def statusWords : Nat := 64

end Sys2Proof.Config
end

