-- ==== Sys2Proof/Syntax.lean ====
section
/-! DEFINITION. The commands and events the block takes: one constructor for each row of spec/opcode_table.json. -/

namespace Sys2Proof

/-- One word written to the exchange memory, by the host or by a write that a reset abandoned: every address of 16 bits exists
(0.2). -/
structure HostWrite where
  /-- Word address, 0 to 65,535. -/
  address : BitVec 16
  /-- The word written. -/
  word : Word
  deriving DecidableEq, Repr

/-- The two registers a write to which is ignored (R155). -/
inductive ReadOnlyRegister where
  | ident
  | state
  deriving DecidableEq, Repr

/-- What a reply slot's window held (R85): no reply began, or a reply began. `late` says that it was not complete when the
window closed. -/
inductive Reception where
  | silent
  | reply (word : Word) (late : Bool)
  deriving DecidableEq, Repr

/-- One entry of a UNIT BLOCK (R108). -/
inductive Entry where
  /-- A density of 0 to 4,095 mD. -/
  | density (value : BitVec 12)
  | patchAbsent
  | outOfRange
  deriving DecidableEq, Repr

/-- The block's commands. `host` is what the host has written to the exchange memory since the part last read it; those words
land before the part reads (log entry 1). The rows of an order are the take of the slot at T when that slot holds the order
(log entry 5). -/
inductive Instr where
  /-- The host writes ATTACH to COMMAND (R157). -/
  | attach
  /-- The anchor passes every test (R158). -/
  | attachSuccess (host : List HostWrite)
  /-- The anchor fails a test (R157). -/
  | attachFailure (host : List HostWrite)
  /-- The host writes DETACH to COMMAND (R160). -/
  | detach
  /-- The host writes RESET to COMMAND (R161). -/
  | reset
  /-- The host writes another value to COMMAND (R155). -/
  | commandInvalidValue (value : Word)
  /-- The host writes NOTICE (R156). -/
  | noticeWrite (value : Word)
  /-- The host writes IDENT or STATE (R155). -/
  | registerWriteIgnored (register : ReadOnlyRegister) (value : Word)
  /-- The reset pin, with the level of the impression input (R161, R152). -/
  | resetPin (impression : Bool)
  /-- Power-on, with the level of the impression input (R161, R152). -/
  | powerOn (impression : Bool)
  /-- A sheet mark (R141). -/
  | sheetMark
  /-- The expiry of an interval count that stands at 0 (R149). A mark that brings the count to 0 performs its expiry itself (log
  entry 7). -/
  | intervalExpiry
  /-- 2,000 ms without a sheet mark (R142). -/
  | runTimerExpiry
  /-- The impression input changes to this level (R143). -/
  | impressionChange (on : Bool)
  /-- An order scan: the order-scan timer expires or a sheet mark is handed on (R162). -/
  | orderScan (host : List HostWrite)
  /-- A slot whose kind names no order is taken (R169). -/
  | unknownKind (host : List HostWrite)
  | defineUnit (host : List HostWrite)
  | loadCurve (host : List HostWrite)
  | setLoop (host : List HostWrite)
  | setTiming (host : List HostWrite)
  | setWatch (host : List HostWrite)
  | setNotices (host : List HostWrite)
  | snapshot (host : List HostWrite)
  /-- An INTAKE order whose setting is not OFF is taken (R120, R122). -/
  | intakeOn (host : List HostWrite)
  /-- An INTAKE order whose setting is not ON is taken (R120, R121). -/
  | intakeOff (host : List HostWrite)
  | hold (host : List HostWrite)
  | release (host : List HostWrite)
  | clearFault (host : List HostWrite)
  | abort (host : List HostWrite)
  | preset (host : List HostWrite)
  | trim (host : List HostWrite)
  | sweep (host : List HostWrite)
  | zero (host : List HostWrite)
  /-- A LINE POWER order whose setting is not OFF is taken (R73, R74). -/
  | linePowerOn (host : List HostWrite)
  /-- A LINE POWER order whose setting is not ON is taken (R73, R76). -/
  | linePowerOff (host : List HostWrite)
  | checkLines (host : List HostWrite)
  /-- A waiting order that a sheet mark or counter load has released starts (R174). -/
  | waitingOrderStart (unit : UnitNo)
  /-- A line's start timer expires (R75, R77). -/
  | startTimerExpiry (line : LineNo)
  /-- A line cycle begins (R80). -/
  | lineCycle (line : LineNo)
  /-- The window of the next reply slot of the line's cycle closes (R85). -/
  | replySlot (line : LineNo) (input : Reception)
  /-- A zone's move timer expires (R64). -/
  | moveTimeout (unit : UnitNo) (zone : ZoneNo)
  /-- The timer of a fountain's sweep move expires (R94). -/
  | sweepTimeout (line : LineNo)
  /-- The overcurrent sense of a line is asserted (R78, R102). -/
  | overcurrentSense (line : LineNo)
  /-- The check's phase timer expires; the operands say whether the undervoltage senses of line a and line b are asserted
  at that moment (R99 to R101). -/
  | checkPhaseExpiry (senseA senseB : Bool)
  /-- A SCAN OPEN frame arrives (R110). -/
  | scanOpen (host : List HostWrite) (number : BitVec 16) (sheet : Sheet)
  /-- A UNIT BLOCK frame arrives: its unit as sent, and its entries (R111). -/
  | unitBlock (unit : BitVec 8) (entries : List Entry)
  /-- A SCAN CLOSE frame arrives (R113). -/
  | scanClose (host : List HostWrite) (checkWord : Word)
  /-- A frame arrives that cannot be read (R108, R112). -/
  | unreadableFrame (host : List HostWrite)
  /-- The scan timer expires (R114). -/
  | scanTimeout (host : List HostWrite)
  deriving DecidableEq, Repr

end Sys2Proof
end

