-- ==== Sys2Proof/WellFormed.lean ====
section
/-! DEFINITION. Which commands are well formed: the operand values that make a command the row it is named for. -/

namespace Sys2Proof

/-- The register commands of COMMAND (11.2): 1 ATTACH, 2 DETACH, 3 RESET. -/
def isRegisterCommand (value : Word) : Bool := value == 1 || value == 2 || value == 3

/-- A UNIT BLOCK is readable when its reading count lies within 1 to 64 (R108). -/
def readableBlock (entries : List Entry) : Bool := !entries.isEmpty && decide (entries.length ≤ 64)

/-- A command is well formed when its operands are ones its row can have: a COMMAND value that names no register command
(R155), a UNIT BLOCK that is not an unreadable frame (R108). Every other operand is bounded by its type. -/
def Instr.wellFormed : Instr → Bool
  | .commandInvalidValue value => !isRegisterCommand value
  | .unitBlock _ entries => readableBlock entries
  | .attach | .detach | .reset | .sheetMark | .intervalExpiry | .runTimerExpiry => true
  | .attachSuccess _ | .attachFailure _ | .orderScan _ | .unknownKind _ | .defineUnit _ | .loadCurve _ => true
  | .setLoop _ | .setTiming _ | .setWatch _ | .setNotices _ | .snapshot _ | .intakeOn _ | .intakeOff _ => true
  | .hold _ | .release _ | .clearFault _ | .abort _ | .preset _ | .trim _ | .sweep _ | .zero _ => true
  | .linePowerOn _ | .linePowerOff _ | .checkLines _ | .scanTimeout _ | .unreadableFrame _ => true
  | .noticeWrite _ | .registerWriteIgnored _ _ | .resetPin _ | .powerOn _ | .impressionChange _ => true
  | .waitingOrderStart _ | .startTimerExpiry _ | .lineCycle _ | .replySlot _ _ | .moveTimeout _ _ => true
  | .sweepTimeout _ | .overcurrentSense _ | .checkPhaseExpiry _ _ | .scanOpen _ _ _ | .scanClose _ _ => true

end Sys2Proof
end

