-- ==== Sys2Proof/Machine/State.lean ====
section
/-! DEFINITION. The state of the IK-1664 and of the exchange memory beside it, as plain data, and the state after reset. -/

namespace Sys2Proof.Machine

/-- A timer: `none` when it does not run; while it runs, the milliseconds it was last started for. -/
abbrev Timer := Option Nat

/-! ### Zone table (chapter 1) -/

/-- The six zone states (R9). -/
inductive ZoneState where
  | off | rest | pending | moving | held | faulted
  deriving DecidableEq, Repr

/-- The two kinds of key move (R45). -/
inductive MoveKind where
  | position | zero
  deriving DecidableEq, Repr

/-- The four fault causes of a zone (R3). -/
inductive FaultCause where
  | stalled | blocked | missed | noFeedback
  deriving DecidableEq, Repr

/-- A zone record (R3), with the zone's move timer (R63). -/
structure Zone where
  state : ZoneState
  coverage : Option Nat
  base : Option Nat
  plan : Option Nat
  offset : Int
  target : Option Nat
  position : Option Nat
  commanded : Option Nat
  moveKind : Option MoveKind
  moveTag : Option Tag
  attempts : Nat
  faultCause : Option FaultCause
  settleSheet : Option Sheet
  samples : List Nat
  moveTimer : Timer
  deriving DecidableEq, Repr

/-- The two sweep modes (R1). -/
inductive SweepMode where
  | auto | fixed
  deriving DecidableEq, Repr

/-- The configuration fields of a unit record, which DEFINE UNIT writes together (R1). -/
structure UnitConfig where
  zoneCount : Nat
  pitch : Nat
  curve : Nat
  spread : Nat
  sweepMode : SweepMode
  fixedSweep : Nat
  sMin : Nat
  oCap : Nat
  oMin : Nat
  oMax : Nat
  idleThreshold : Nat
  idleOpening : Nat
  tolerance : Nat
  lineBudget : Nat
  moveTimeout : Nat
  deriving DecidableEq, Repr

/-- The six loop parameters of a unit (R127). -/
structure LoopParams where
  targetDensity : Nat
  deadband : Nat
  gain : Nat
  stepMax : Nat
  samplesA : Nat
  settleW : Nat
  deriving DecidableEq, Repr

/-! ### Order processor (chapter 10) -/

/-- The offset policy of a PRESET (R25). -/
inductive OffsetPolicy where
  | clear | keep
  deriving DecidableEq, Repr

/-- The kinds of tracked order with the arguments their start or end needs (R172). -/
inductive TrackedKind where
  | preset (policy : OffsetPolicy)
  | trim (pairs : List (ZoneNo × Int))
  | sweep (value : Nat)
  | zero (first last : Nat)
  | linePower (on : Bool)
  | checkLines (lineA lineB : LineNo)
  deriving DecidableEq, Repr

/-- The counts an order gathers for its detail (R171). -/
structure Counts where
  bandsClamped : Nat
  raised : Nat
  lowered : Nat
  saturated : Nat
  deriving DecidableEq, Repr

/-- The order record of a tracked or waiting order: its ring slot and notify flag, its kind, the zones concerned, the
fountain wait and the counts (chapter 10, head table; R176). -/
structure OrderRecord where
  slot : Nat
  notify : Bool
  kind : TrackedKind
  zones : List ZoneNo
  fountainWait : Bool
  counts : Counts
  deriving DecidableEq, Repr

/-- A waiting order with its at-sheet value (R174). `released` is the model's: a sheet mark or counter load has reached the
at-sheet value, and the start is due; a counter load judges it afresh (R147, log entry 7). -/
structure WaitingOrder where
  order : OrderRecord
  atSheet : Sheet
  released : Bool
  deriving DecidableEq, Repr

/-- A unit record (R1) with the unit's 64 zone records. The unit is defined exactly when its configuration is present. -/
structure UnitRec where
  config : Option UnitConfig
  currentSweep : Option Nat
  loopOn : Bool
  loopParams : Option LoopParams
  tracked : Option OrderRecord
  waiting : Option WaitingOrder
  staged : Option (Vector Nat 64)
  sweepFault : Bool
  zones : Vector Zone 64
  deriving DecidableEq, Repr

/-! ### Move scheduler and key line controllers (chapters 3 and 4) -/

/-- An entry of a pending list (R45). -/
structure PendingEntry where
  zone : ZoneNo
  kind : MoveKind
  deriving DecidableEq, Repr

/-- The power states of a line (R72). -/
inductive PowerState where
  | off | starting | on | tripped | check
  deriving DecidableEq, Repr

/-- A frame of the third band of a command queue (R82). The key is named by its zone (0.6). -/
inductive MotionFrame where
  | move (zone : ZoneNo) (position : Nat) (tag : Tag)
  | zero (zone : ZoneNo) (tag : Tag)
  | sweep (value : Nat) (tag : Tag)
  deriving DecidableEq, Repr

/-- A line's command queue in its three bands, front to back (R82). -/
structure CommandQueue where
  haltAll : Bool
  halts : List ZoneNo
  motion : List MotionFrame
  deriving DecidableEq, Repr

/-- The standings of a module (R88). -/
inductive ModuleState where
  | notExpected | present | missing
  deriving DecidableEq, Repr

/-- The slot outcomes (R86). -/
inductive SlotOutcome where
  | valid | noReply | late | checkError | wrongModule | lineNotOn | lineTripped
  deriving DecidableEq, Repr

/-- A module record (R88). -/
structure ModuleRec where
  state : ModuleState
  lastOutcome : SlotOutcome
  missed : Nat
  deriving DecidableEq, Repr

/-- The reported tag and the sent tag of a key or of the fountain drive (R54). -/
structure TagPair where
  reported : Tag
  sent : Tag
  deriving DecidableEq, Repr

/-- A fountain sweep move in flight (R92). -/
structure SweepMove where
  value : Nat
  tag : Tag
  deriving DecidableEq, Repr

/-- The fountain record of a line (R92). -/
structure Fountain where
  wanted : Option Nat
  reached : Option Nat
  move : Option SweepMove
  moveTimer : Timer
  pursuit : Bool
  deriving DecidableEq, Repr

/-- A line cycle in progress (R80): the reply slot whose window closes next, and whether it is the last cycle of R77. -/
structure Cycle where
  slot : Fin 9
  last : Bool
  deriving DecidableEq, Repr

/-- The check results of a line (R96). -/
inductive CheckResult where
  | notChecked | passed | shortToSupply | shortToGround | crossCoupled | incomplete
  deriving DecidableEq, Repr

/-- What the part holds for one key line: the line controller's state (chapter 4), the move scheduler's pending list, grants
held and tag counter (chapter 3), and the line's check result (R96). `sentFrame` is the model's view of the line's output: the
frame its last cycle sent. -/
structure Line where
  power : PowerState
  stopTaken : Bool
  startTimer : Timer
  queue : CommandQueue
  modules : Vector ModuleRec 9
  keyTags : Vector TagPair 64
  fountainTags : TagPair
  fountain : Fountain
  cycle : Option Cycle
  sentFrame : Option Word
  pendingList : List PendingEntry
  grants : Nat
  tagCounter : Tag
  checkResult : CheckResult
  deriving DecidableEq, Repr

/-! ### Line check unit (chapter 5) -/

/-- The phases of a check (R99, R104). -/
inductive CheckPhase where
  | drain | energizeA | drainA | energizeB | drainB | abortDrain
  deriving DecidableEq, Repr

/-- A running check (chapter 5, head table). A finding is absent, a failure result, or in ABORT DRAIN the mark PASSED or
INCOMPLETE of R104. -/
structure CheckRun where
  lineA : LineNo
  lineB : LineNo
  phase : CheckPhase
  timer : Timer
  findingA : Option CheckResult
  findingB : Option CheckResult
  orderSlot : Option Nat
  deriving DecidableEq, Repr

/-! ### Reading intake (chapter 6) -/

/-- The intake settings (R120 to R122). -/
inductive IntakeSetting where
  | on | armed | off
  deriving DecidableEq, Repr

/-- The open-scan buffer; the scan state is OPEN exactly when it is present (R110). -/
structure OpenScan where
  number : BitVec 16
  sheet : Sheet
  sum : Word
  blocks : Vector (Option (List Entry)) 16
  deriving DecidableEq, Repr

/-- The last hit of a density watch entry (R123). -/
structure LastHit where
  unit : UnitNo
  zone : ZoneNo
  density : Nat
  scan : BitVec 16
  deriving DecidableEq, Repr

/-- A density watch entry (R123). -/
structure Watch where
  enabled : Bool
  unit : Option UnitNo
  low : Option Nat
  high : Option Nat
  lastHit : Option LastHit
  deriving DecidableEq, Repr

/-- The reading intake (chapter 6, head table). -/
structure Intake where
  setting : IntakeSetting
  scan : Option OpenScan
  scanTimer : Timer
  linkFaults : Nat
  lastScan : Option (BitVec 16)
  watches : Vector Watch 4
  deriving DecidableEq, Repr

/-! ### Press timing unit (chapter 8) -/

/-- The run states (R142). -/
inductive RunState where
  | running | stopped
  deriving DecidableEq, Repr

/-- The press timing unit (chapter 8, head table). -/
structure Timing where
  counter : Sheet
  run : RunState
  runTimer : Timer
  impression : Bool
  watchEnabled : Bool
  watchValue : Sheet
  watchMask : Sheet
  period : Nat
  count : Nat
  actSnapshot : Bool
  actScanRequest : Bool
  deriving DecidableEq, Repr

/-! ### Exchange port (chapter 9) -/

/-- The part states (R157). -/
inductive PartState where
  | detached | attaching | attached
  deriving DecidableEq, Repr

/-- The anchor copy: words 1 to 10 of the anchor (R154). -/
structure Anchor where
  ringBase : Nat
  ringLength : Nat
  mirrorBase : Nat
  statusBase : Nat
  storeBase : Nat
  segments : Nat
  segmentSize : Nat
  scanInterval : Nat
  driveBudget : Nat
  noticeMask : BitVec 10
  deriving DecidableEq, Repr

/-- The attach failure reasons, in the order they are judged (R157). -/
inductive AttachFailure where
  | badSignature | badRingLength | badStore | badSetting | regionOutsideMemory | regionsOverlap
  deriving DecidableEq, Repr

/-- The outcomes of a register command (R155). -/
inductive CommandOutcome where
  | none | taken | deferred | refused
  deriving DecidableEq, Repr

/-- The port fault codes (R162). -/
inductive PortFault where
  | none | putOutOfRange | putBehindTake
  deriving DecidableEq, Repr

/-- An open segment: its fill point (R167), and the record count and fill sequence its header is written with. -/
structure OpenSegment where
  fillPoint : Nat
  records : Nat
  sequence : BitVec 16
  deriving DecidableEq, Repr

/-- The exchange port (chapter 9, head table). `putValid` is the put offset read by the last scan that found it valid (R164):
the slots from `take` up to it are the scan's, not yet taken. `handedMarks` counts the sheet marks handed to the port whose order
scans it has still to make (R141, log entry 31). `commandWord` is what a read of COMMAND returns (R155). -/
structure Port where
  state : PartState
  anchor : Option Anchor
  detachDeferred : Bool
  take : Nat
  retire : Nat
  putValid : Nat
  handedMarks : Nat
  noticeOffset : Option Word
  finished : List Nat
  scanTimer : Timer
  fault : PortFault
  notices : BitVec 10
  mask : BitVec 10
  lastFailure : Option AttachFailure
  lastOutcome : CommandOutcome
  commandWord : Word
  updateCounts : Vector Word 16
  segment : Nat
  openSegment : Option OpenSegment
  fillSequence : BitVec 16
  lostScans : Nat
  snapshotSheet : Sheet
  deriving DecidableEq, Repr

/-- The whole state: the ten blocks of 0.3, the exchange memory, and four fields of the model's own: `unfinished` holds what stood
in each word that the last event of the part wrote, the last one written first, from which a reset abandons a write in progress (R161,
log entry 24); `scanPulses` counts the pulses given on the scan-request output (R151), `freeDraws` counts the free values drawn (log
entry 4), and `pending` is the queue of commands that wait. -/
structure State where
  units : Vector UnitRec 16
  curves : Vector (Vector Nat 11) 8
  lines : Vector Line 16
  partGrants : Nat
  pointer : LineNo
  check : Option CheckRun
  intake : Intake
  timing : Timing
  port : Port
  mem : Memory
  unfinished : List Cell
  scanPulses : Nat
  freeDraws : Nat
  pending : List Instr
  deriving DecidableEq, Repr

/-- What stops the machine. No run from reset raises one. -/
inductive Fault where
  /-- Raised by every command that may touch the exchange memory, when the part is ATTACHED and its anchor copy is absent or
  places a region outside words 0 to 65,535, where no memory exists. R157 lets no such anchor in, so only a state no run
  reaches has one. Safe: the part has no behaviour there to differ from. -/
  | regionOutsideMemory
  deriving DecidableEq, Repr

/-- What the model refuses. -/
inductive Refusal where
  /-- A row of the table without a meaning yet; raised by `exec` alone. Safe. No row is left in this state. -/
  | notModelled (mnemonic : String)
  deriving DecidableEq, Repr

/-! ### Reset values -/

/-- A zone record after reset (R6). -/
def Zone.reset : Zone where
  state := .off
  coverage := none
  base := none
  plan := none
  offset := 0
  target := none
  position := none
  commanded := none
  moveKind := none
  moveTag := none
  attempts := 0
  faultCause := none
  settleSheet := none
  samples := []
  moveTimer := none

/-- A unit record after reset (R2, R6). -/
def UnitRec.reset : UnitRec where
  config := none
  currentSweep := none
  loopOn := false
  loopParams := none
  tracked := none
  waiting := none
  staged := none
  sweepFault := false
  zones := Vector.replicate 64 Zone.reset

/-- A curve after reset: yi = 100·i (R7). -/
def resetCurve : Vector Nat 11 := #v[0, 100, 200, 300, 400, 500, 600, 700, 800, 900, 1000]

/-- An empty command queue (R82). -/
def CommandQueue.empty : CommandQueue where
  haltAll := false
  halts := []
  motion := []

/-- A module record after reset (R88). -/
def ModuleRec.reset : ModuleRec where
  state := .notExpected
  lastOutcome := .lineNotOn
  missed := 0

/-- The tags of a key or fountain drive after reset, and when its line enters STARTING (R54). -/
def TagPair.reset : TagPair where
  reported := 0
  sent := 0

/-- A fountain record after reset (R92). -/
def Fountain.reset : Fountain where
  wanted := none
  reached := none
  move := none
  moveTimer := none
  pursuit := false

/-- A line after reset (R54, R71, R72, R82, R88, R92, R96). -/
def Line.reset : Line where
  power := .off
  stopTaken := false
  startTimer := none
  queue := CommandQueue.empty
  modules := Vector.replicate 9 ModuleRec.reset
  keyTags := Vector.replicate 64 TagPair.reset
  fountainTags := TagPair.reset
  fountain := Fountain.reset
  cycle := none
  sentFrame := none
  pendingList := []
  grants := 0
  tagCounter := 0
  checkResult := .notChecked

/-- A density watch entry after reset (R123). -/
def Watch.reset : Watch where
  enabled := false
  unit := none
  low := none
  high := none
  lastHit := none

/-- The reading intake after reset (R109). -/
def Intake.reset : Intake where
  setting := .on
  scan := none
  scanTimer := none
  linkFaults := 0
  lastScan := none
  watches := Vector.replicate 4 Watch.reset

/-- The press timing unit after the reset pin and power-on, at this level of the impression input (R152). -/
def Timing.reset (impression : Bool) : Timing where
  counter := 0
  run := .stopped
  runTimer := none
  impression := impression
  watchEnabled := false
  watchValue := 0
  watchMask := BitVec.allOnes 32
  period := 0
  count := 0
  actSnapshot := false
  actScanRequest := false

/-- The exchange port after the reset pin and power-on (R161). What COMMAND then reads as is the model's (log entry 11). -/
def Port.reset : Port where
  state := .detached
  anchor := none
  detachDeferred := false
  take := 0
  retire := 0
  putValid := 0
  handedMarks := 0
  noticeOffset := none
  finished := []
  scanTimer := none
  fault := .none
  notices := 0
  mask := 0
  lastFailure := none
  lastOutcome := .none
  commandWord := 0
  updateCounts := Vector.replicate 16 0
  segment := 0
  openSegment := none
  fillSequence := 0
  lostScans := 0
  snapshotSheet := 0

/-- The machine right after power-on: every block at its reset values (R161), the impression input off (log entry 11), and an
exchange memory in which every word reads as 0 (log entry 2). -/
def State.reset : State where
  units := Vector.replicate 16 UnitRec.reset
  curves := Vector.replicate 8 resetCurve
  lines := Vector.replicate 16 Line.reset
  partGrants := 0
  pointer := 15
  check := none
  intake := Intake.reset
  timing := Timing.reset false
  port := Port.reset
  mem := []
  unfinished := []
  scanPulses := 0
  freeDraws := 0
  pending := []

end Sys2Proof.Machine
end

