-- ==== Sys2Proof/Decode.lean ====
section
/-! DEFINITION. Reading words: the fields of a word, order slots and their kinds, scan-link frames, and replies (11.3, 11.6).
The opcode table gives its rows no bits, so no word spells a command. -/

namespace Sys2Proof

/-- The command a word spells by the table's bits: the table gives no row any (log entry 6). -/
def decodeTableWord (_nbits _w : Nat) : Option Instr := none

namespace Decode

/-- `width` bits of a word from bit `low` up, as a number. -/
def bits (w : Word) (low width : Nat) : Nat := (w.toNat >>> low) % 2 ^ width

/-- Bits 15:0 (chapter 11). -/
def lowHalf (w : Word) : Nat := bits w 0 16

/-- Bits 31:16 (chapter 11). -/
def highHalf (w : Word) : Nat := bits w 16 16

/-- Bits 31:16 read as a signed number (11.3, TRIM). -/
def signedHighHalf (w : Word) : Int := (BitVec.ofNat 16 (highHalf w)).toInt

/-! ### Order slots (11.3) -/

/-- The 16 words of an order slot as the part reads them (R163). -/
structure Slot where
  words : List Word
  deriving DecidableEq, Repr

/-- Word k of a slot. -/
def Slot.word (s : Slot) (k : Nat) : Word := s.words.getD k 0

/-- The kind field. -/
def Slot.kindCode (s : Slot) : Nat := bits (s.word 0) 0 8

/-- The unit field. -/
def Slot.unitField (s : Slot) : Nat := bits (s.word 0) 8 8

/-- The notify flag. -/
def Slot.notify (s : Slot) : Bool := (s.word 0).getLsbD 16

/-- The at-sheet flag. -/
def Slot.atSheetFlag (s : Slot) : Bool := (s.word 0).getLsbD 17

/-- The at-sheet value. -/
def Slot.atSheet (s : Slot) : Sheet := s.word 2

/-- The unit named by the slot, when its number lies within 1 to 16 (R2). -/
def Slot.unit? (s : Slot) : Option UnitNo :=
  if h : 1 ≤ s.unitField ∧ s.unitField ≤ 16 then some ⟨s.unitField - 1, by omega⟩ else none

/-- The order kinds (11.3). -/
inductive OrderKind where
  | defineUnit | loadCurve | setLoop | setTiming | setWatch | setNotices | intake | hold | release | clearFault | snapshot
  | abort | preset | trim | sweep | zero | linePower | checkLines
  deriving DecidableEq, Repr

/-- The kind a code names; any other code is UNKNOWN KIND (11.3). -/
def kindOfCode : Nat → Option OrderKind
  | 1 => some .defineUnit
  | 2 => some .loadCurve
  | 3 => some .setLoop
  | 4 => some .setTiming
  | 5 => some .setWatch
  | 6 => some .setNotices
  | 7 => some .intake
  | 8 => some .hold
  | 9 => some .release
  | 10 => some .clearFault
  | 11 => some .snapshot
  | 12 => some .abort
  | 13 => some .preset
  | 14 => some .trim
  | 15 => some .sweep
  | 16 => some .zero
  | 17 => some .linePower
  | 18 => some .checkLines
  | _ => none

/-- The kind of a slot. -/
def Slot.kind (s : Slot) : Option OrderKind := kindOfCode s.kindCode

/-- The number a field names, when it lies within 1 to 16: a line of CHECK LINES, a unit. -/
def unitOfNumber (n : Nat) : Option UnitNo :=
  if h : 1 ≤ n ∧ n ≤ 16 then some ⟨n - 1, by omega⟩ else none

/-- The zone a number names, when it lies within 1 to 64. -/
def zoneOfNumber (n : Nat) : Option ZoneNo :=
  if h : 1 ≤ n ∧ n ≤ 64 then some ⟨n - 1, by omega⟩ else none

/-! ### Scan-link frames (11.6) -/

/-- The entry of an entry word, when its entry kind names one (R108). The density field of a bar code is not looked at (log entry
10). -/
def entryOfWord (w : Word) : Option Entry :=
  match bits w 12 2 with
  | 0 => some (.density (BitVec.ofNat 12 (bits w 0 12)))
  | 1 => some .patchAbsent
  | 2 => some .outOfRange
  | _ => none

/-- The entries of a run of entry words, when every one can be read. -/
def entriesOfWords : List Word → Option (List Entry)
  | [] => some []
  | w :: ws =>
    match entryOfWord w, entriesOfWords ws with
    | some e, some es => some (e :: es)
    | _, _ => none

/-- The command a scan-link frame is (R108): SCAN OPEN, UNIT BLOCK or SCAN CLOSE, or an unreadable frame: another kind, a
frame cut short, a reading count of 0 or above 64 or one that does not match the length, or an entry of no kind; a SCAN OPEN or SCAN CLOSE with more
words than its layout too (log entry 37). -/
def scanFrame (host : List HostWrite) (frame : List Word) : Instr :=
  match frame with
  | [] => .unreadableFrame host
  | w :: rest =>
    match bits w 24 8, rest with
    | 1, [sheet] => .scanOpen host (BitVec.ofNat 16 (bits w 0 16)) sheet
    | 2, ws =>
      match entriesOfWords ws with
      | some es =>
        if bits w 8 8 = ws.length && readableBlock es then .unitBlock (BitVec.ofNat 8 (bits w 0 8)) es
        else .unreadableFrame host
      | none => .unreadableFrame host
    | 3, [checkWord] => .scanClose host checkWord
    | _, _ => .unreadableFrame host

/-! ### Replies (11.6) -/

/-- The motions a reply can report (R81). -/
inductive Motion where
  | atRest | moving | blocked
  deriving DecidableEq, Repr

/-- The motion a code names (11.6). -/
def motionOfCode : Nat → Option Motion
  | 0 => some .atRest
  | 1 => some .moving
  | 2 => some .blocked
  | _ => none

/-- The fields of a reply (4.4, 11.6). -/
structure Reply where
  address : Nat
  key : Nat
  position : Nat
  motion : Option Motion
  tag : Tag
  deriving DecidableEq, Repr

/-- The fields of a reply word (11.6). -/
def replyOfWord (w : Word) : Reply where
  address := bits w 0 4
  key := bits w 4 4
  position := bits w 8 11
  motion := motionOfCode (bits w 19 2)
  tag := BitVec.ofNat 4 (bits w 21 4)

/-- The number of ones among the lowest `n` bits of a word (R188). -/
def onesBelow (w : Word) (n : Nat) : Nat := (List.range n).countP fun i => w.getLsbD i

/-- A reply's check bits agree with its other fields (R188). -/
def replyCheckAgrees (w : Word) : Bool := bits w 25 7 == onesBelow w 25

end Decode

end Sys2Proof
end

