-- ==== Sys2Proof/Machine/Access.lean ====
section
/-! DEFINITION. How the state is read: one accessor for each thing the rules ask of it. -/

namespace Sys2Proof.Machine

/-- Line n's record. -/
def State.line (s : State) (n : LineNo) : Line := s.lines[n]

/-- Unit u's record. -/
def State.unit (s : State) (u : UnitNo) : UnitRec := s.units[u]

/-- Zone z of unit u. -/
def State.zone (s : State) (u : UnitNo) (z : ZoneNo) : Zone := (s.units[u]).zones[z]

/-- A unit is defined when its configuration is present (R1, R2). -/
def UnitRec.defined (r : UnitRec) : Bool := r.config.isSome

/-- The unit's zone count Z, 0 when it is undefined (R1). -/
def UnitRec.zoneCount (r : UnitRec) : Nat := (r.config.map (·.zoneCount)).getD 0

/-- The unit's tolerance (R1). -/
def UnitRec.tolerance (r : UnitRec) : Nat := (r.config.map (·.tolerance)).getD 0

/-- The unit's line budget, 0 when it is undefined (R51). -/
def UnitRec.lineBudget (r : UnitRec) : Nat := (r.config.map (·.lineBudget)).getD 0

/-- The unit's move timeout (R63). -/
def UnitRec.moveTimeout (r : UnitRec) : Nat := (r.config.map (·.moveTimeout)).getD 0

/-- The part is ATTACHED (R157). -/
def State.attached (s : State) : Bool := s.port.state == .attached

/-- The part drive budget (R49). -/
def State.driveBudget (s : State) : Nat := (s.port.anchor.map (·.driveBudget)).getD 0

/-- A line in service: ON, and no LINE POWER OFF taken for it (R51, R177). -/
def Line.inService (l : Line) : Bool := l.power == .on && !l.stopTaken

/-- The press is printing when it is RUNNING with impression ON (R144). -/
def Timing.printing (t : Timing) : Bool := t.run == .running && t.impression

/-- A line is energized in STARTING and ON, and in CHECK by its own ENERGIZE phase alone (R72, R99). -/
def State.energized (s : State) (n : LineNo) : Bool :=
  match (s.line n).power, s.check with
  | .starting, _ => true
  | .on, _ => true
  | .check, some c => (c.phase == .energizeA && c.lineA == n) || (c.phase == .energizeB && c.lineB == n)
  | _, _ => false

end Sys2Proof.Machine
end

