-- ==== Sys2Proof/Machine/Flags.lean ====
section
/-! DEFINITION. The notice flags: the ten causes, their bits, and the interrupt line (R156, 11.2). -/

namespace Sys2Proof.Machine

/-- The ten notice causes (R156). -/
inductive Notice where
  | retireMark | flaggedOrder | segmentFull | storeOverrun | zoneFault | lineEvent | sheetWatch | scanFault | densityWatch
  | portFault
  deriving DecidableEq, Repr

/-- The bit of a cause in NOTICE, in anchor word 10 and in the SET NOTICES mask (11.2). -/
def Notice.bit : Notice → Nat
  | .retireMark => 0
  | .flaggedOrder => 1
  | .segmentFull => 2
  | .storeOverrun => 3
  | .zoneFault => 4
  | .lineEvent => 5
  | .sheetWatch => 6
  | .scanFault => 7
  | .densityWatch => 8
  | .portFault => 9

/-- The set that holds one cause. -/
def Notice.mask (n : Notice) : BitVec 10 := BitVec.twoPow 10 n.bit

/-- A cause is pending. -/
def State.noticePending (s : State) (n : Notice) : Bool := s.port.notices.getLsbD n.bit

/-- A raise adds the cause to the pending set; a cause already pending stays pending (R156). -/
def Port.raise (p : Port) (n : Notice) : Port := { p with notices := p.notices ||| n.mask }

/-- A write to NOTICE removes every cause written as one (R156); bits that name no cause are ignored (R186). -/
def Port.clearNotices (p : Port) (value : Word) : Port := { p with notices := p.notices &&& ~~~(value.setWidth 10) }

/-- The interrupt line is asserted while at least one pending cause is enabled in the mask (R156). -/
def State.interruptLine (s : State) : Bool := s.port.notices &&& s.port.mask != 0

end Sys2Proof.Machine
end

