-- ==== Sys2Proof/Machine/Arith.lean ====
section
/-! DEFINITION. The arithmetic of 0.7 and 0.8: sheet comparison, the three roundings, clamping, and saturating counts. -/

namespace Sys2Proof.Machine

/-- Sheet a is at or after sheet b: a − b, read as a signed 32-bit number, is zero or positive (0.7). -/
def atOrAfter (a b : Sheet) : Bool := decide (0 ≤ (a - b).toInt)

/-- Sheet a is more than k sheets before b (0.7). -/
def moreThanBefore (k : Nat) (a b : Sheet) : Bool := decide ((k : Int) < (b - a).toInt)

/-- "Sheet counter + W", modulo 2^32 (0.7). -/
def sheetPlus (a : Sheet) (w : Nat) : Sheet := a + BitVec.ofNat 32 w

/-- Round half up, for a quotient that cannot be negative (0.8). -/
def roundHalfUp (num den : Nat) : Nat := (2 * num + den) / (2 * den)

/-- Round half away, for a quotient that may be negative (0.8). -/
def roundHalfAway (num : Int) (den : Nat) : Int :=
  if num < 0 then -((roundHalfUp num.natAbs den : Nat) : Int) else ((roundHalfUp num.natAbs den : Nat) : Int)

/-- The smallest integer not less than the quotient (0.8). -/
def ceilDiv (num den : Nat) : Nat := (num + (den - 1)) / den

/-- Clamp to a range: the lower end below it, the upper end above it (0.8). -/
def clampInt (lo hi x : Int) : Int := if x < lo then lo else if hi < x then hi else x

/-- Limit to ±m (0.8). -/
def limit (m : Nat) (x : Int) : Int := clampInt (-(m : Int)) (m : Int) x

/-- An offset saturates to −300 to +300 (R129). -/
def saturateOffset (x : Int) : Int := clampInt (-300) 300 x

/-- The distance between two key positions. -/
def distance (a b : Nat) : Nat := if a ≤ b then b - a else a - b

/-- A 16-bit count that stays at 65,535 once there (R126, R166). -/
def countUp (n : Nat) : Nat := if n < 65535 then n + 1 else n

/-- The slots from ring offset a to ring offset b, counted modulo L (R162). -/
def ringDistance (length a b : Nat) : Nat := if a ≤ b then b - a else b + length - a

/-- The ring offset after a: from L − 1 to 0 (0.6). -/
def ringNext (length a : Nat) : Nat := if a + 1 < length then a + 1 else 0

/-- Every index below n, in ascending order. -/
def ascending (n : Nat) : List (Fin n) := List.finRange n

end Sys2Proof.Machine
end

