-- ==== Sys2Proof/Machine/Memory.lean ====
section
/-! DEFINITION. The exchange memory: reading a word, writing consecutive words, and the canonical form of the list. -/

namespace Sys2Proof.Machine

/-- What a word reads as that the list does not hold: 0 (log entry 2). -/
def unlistedWord : Word := 0

/-- The word at an address (0.4). The list rises by address, so a larger address ends the search. -/
def Memory.read : Memory → Nat → Word
  | [], _ => unlistedWord
  | (b, w) :: m, a => if a < b then unlistedWord else if a = b then w else Memory.read m a

/-- The words from an address on, in order. -/
def Memory.readWords (m : Memory) (base : Nat) : Nat → List Word
  | 0 => []
  | n + 1 => Memory.read m base :: Memory.readWords m (base + 1) n

/-- The cells that consecutive words from an address on make in canonical form: no cell that reads as an unlisted word does,
and none past word 65,535. -/
def cellsFrom (base : Nat) : List Word → List Cell
  | [] => []
  | w :: ws =>
    if base < Config.memoryWords then
      if w = unlistedWord then cellsFrom (base + 1) ws else (base, w) :: cellsFrom (base + 1) ws
    else []

/-- The memory with consecutive words written from an address on. -/
def Memory.write (m : Memory) (base : Nat) (ws : List Word) : Memory :=
  m.takeWhile (fun c => c.1 < base) ++ cellsFrom base ws ++ m.dropWhile (fun c => c.1 < base + ws.length)

/-- The memory with the host's writes made, the first first (log entry 1). -/
def Memory.hostWrites (m : Memory) (host : List HostWrite) : Memory :=
  host.foldl (fun m h => Memory.write m h.address.toNat [h.word]) m

/-- What stands in the n words from an address on, the last word first. -/
def Memory.standing (m : Memory) (base n : Nat) : List Cell := ((List.range n).map fun i => (base + i, Memory.read m (base + i))).reverse

/-- The memory with the first k of these cells put back, up to the first of them that does not lie inside (R161). -/
def Memory.putBack (inside : Nat → Bool) : List Cell → Nat → Memory → Memory
  | [], _, m => m
  | _ :: _, 0, m => m
  | c :: cs, k + 1, m => if inside c.1 then Memory.putBack inside cs k (Memory.write m c.1 [c.2]) else m

/-- Addresses strictly rise. -/
def risingCells : List Cell → Bool
  | [] => true
  | [_] => true
  | a :: b :: m => decide (a.1 < b.1) && risingCells (b :: m)

/-- The canonical form: addresses strictly rise and exist, and no cell reads as an unlisted word does. -/
def Memory.wf (m : Memory) : Bool :=
  risingCells m && m.all fun c => decide (c.1 < Config.memoryWords) && decide (c.2 ≠ unlistedWord)

end Sys2Proof.Machine
end

