-- ==== Sys2Proof/Machine/Operands.lean ====
section
/-! DEFINITION. The operands of every order: where they stand in the slot (11.3), and the ranges and codes they are held to. -/

namespace Sys2Proof.Machine

open Decode

/-- The refusal reasons of an order (R171). -/
inductive Reason where
  | unknownKind | badUnit | unitUndefined | badArgument | curveInvalid | busy | lineNotOff | lineInCheck | profileRegion
  deriving DecidableEq, Repr

/-- x lies within lo to hi, both ends included (0.5). -/
def within (lo hi x : Nat) : Bool := decide (lo ≤ x) && decide (x ≤ hi)

/-- The value of an ON/OFF or yes/no field: 1 or 0, any other value being a bad code (R187). -/
def flagOfCode : Nat → Option Bool
  | 0 => some false
  | 1 => some true
  | _ => none

/-- A field that stands alone in its word is the whole word (11.3; log entry 8). -/
def wholeWord (s : Slot) (k : Nat) : Nat := (s.word k).toNat

/-- The fields of a DEFINE UNIT (11.3). -/
def defineFields (s : Slot) (mode : SweepMode) : UnitConfig where
  zoneCount := lowHalf (s.word 3)
  pitch := highHalf (s.word 3)
  curve := lowHalf (s.word 4)
  spread := highHalf (s.word 4)
  sweepMode := mode
  fixedSweep := highHalf (s.word 5)
  sMin := lowHalf (s.word 6)
  oCap := highHalf (s.word 6)
  oMin := lowHalf (s.word 7)
  oMax := highHalf (s.word 7)
  idleThreshold := lowHalf (s.word 8)
  idleOpening := highHalf (s.word 8)
  tolerance := lowHalf (s.word 9)
  lineBudget := highHalf (s.word 9)
  moveTimeout := wholeWord s 10

/-- Every field of a unit's configuration lies in its range, and o_min is less than o_max (R1). -/
def UnitConfig.inRange (c : UnitConfig) : Bool :=
  within 4 64 c.zoneCount && within 200 600 c.pitch && within 0 7 c.curve && within 0 250 c.spread
    && within 100 1000 c.fixedSweep && within 100 1000 c.sMin && within 500 1000 c.oCap
    && within 0 500 c.oMin && within 500 1000 c.oMax && within 0 500 c.idleThreshold && within 0 200 c.idleOpening
    && within 1 20 c.tolerance && within 500 30000 c.moveTimeout && within 1 8 c.lineBudget && decide (c.oMin < c.oMax)

/-- The configuration a DEFINE UNIT carries, or none for BAD ARGUMENT (R1, R187, R169). -/
def defineOperands (s : Slot) : Option UnitConfig :=
  match flagOfCode (lowHalf (s.word 5)) with
  | some fixed =>
    let c := defineFields s (if fixed then .fixed else .auto)
    if c.inRange && !s.atSheetFlag then some c else none
  | none => none

/-- The eleven ordinates of a LOAD CURVE (11.3). -/
def curveOrdinates (s : Slot) : Vector Nat 11 :=
  #v[lowHalf (s.word 4), highHalf (s.word 4), lowHalf (s.word 5), highHalf (s.word 5), lowHalf (s.word 6),
    highHalf (s.word 6), lowHalf (s.word 7), highHalf (s.word 7), lowHalf (s.word 8), highHalf (s.word 8), wholeWord s 9]

/-- No ordinate is less than the one before it. -/
def nonDecreasing : List Nat → Bool
  | [] => true
  | [_] => true
  | a :: b :: l => decide (a ≤ b) && nonDecreasing (b :: l)

/-- A curve is valid: no ordinate exceeds 1,000 and none is less than the one before it (R7). -/
def curveValid (c : Vector Nat 11) : Bool := c.toList.all (fun y => decide (y ≤ 1000)) && nonDecreasing c.toList

/-- The six loop parameters lie in their ranges (R127). -/
def LoopParams.inRange (p : LoopParams) : Bool :=
  within 300 2500 p.targetDensity && within 0 200 p.deadband && within 1 200 p.gain && within 1 100 p.stepMax
    && within 1 8 p.samplesA && within 10 500 p.settleW

/-- The setting and parameters of a SET LOOP, or none for BAD ARGUMENT (R128). -/
def loopOperands (s : Slot) : Option (Bool × LoopParams) :=
  let p : LoopParams :=
    { targetDensity := lowHalf (s.word 4), deadband := highHalf (s.word 4), gain := lowHalf (s.word 5),
      stepMax := highHalf (s.word 5), samplesA := lowHalf (s.word 6), settleW := highHalf (s.word 6) }
  match flagOfCode (wholeWord s 3) with
  | some on => if p.inRange && !s.atSheetFlag then some (on, p) else none
  | none => none

/-- The parts of a SET TIMING, each present or absent (R146). -/
structure TimingOperands where
  interval : Option (Nat × Bool × Bool)
  watch : Option (Bool × Sheet × Sheet)
  load : Option Sheet
  deriving DecidableEq, Repr

/-- The interval part of a SET TIMING: the outer none is BAD ARGUMENT, an action other than SNAPSHOT and SCAN REQUEST. -/
def intervalPart (s : Slot) : Option (Option (Nat × Bool × Bool)) :=
  if (s.word 3).getLsbD 0 then
    if bits (s.word 4) 18 14 = 0 then some (some (lowHalf (s.word 4), (s.word 4).getLsbD 16, (s.word 4).getLsbD 17)) else none
  else some none

/-- The watch part of a SET TIMING: the outer none is BAD ARGUMENT, an enabled field of neither yes nor no (R187). -/
def watchPart (s : Slot) : Option (Option (Bool × Sheet × Sheet)) :=
  if (s.word 3).getLsbD 1 then
    match flagOfCode (wholeWord s 5) with
    | some on => some (some (on, s.word 6, s.word 7))
    | none => none
  else some none

/-- The parts of a SET TIMING, or none for BAD ARGUMENT (R146). -/
def timingOperands (s : Slot) : Option TimingOperands :=
  match s.atSheetFlag, intervalPart s, watchPart s with
  | false, some i, some w => some { interval := i, watch := w, load := if (s.word 3).getLsbD 2 then some (s.word 8) else none }
  | _, _, _ => none

/-- The entry, enabled flag, low and high bounds of a SET WATCH, or none for BAD ARGUMENT (R123). -/
def watchOperands (s : Slot) : Option (Fin 4 × Bool × Nat × Nat) :=
  let entry := lowHalf (s.word 3)
  let low := lowHalf (s.word 4)
  let high := highHalf (s.word 4)
  match flagOfCode (highHalf (s.word 3)) with
  | some on =>
    if h : 1 ≤ entry ∧ entry ≤ 4 then
      if decide (low ≤ 3000) && decide (high ≤ 3000) && decide (low ≤ high) && !s.atSheetFlag then
        some (⟨entry - 1, by omega⟩, on, low, high)
      else none
    else none
  | none => none

/-- The setting of an INTAKE or LINE POWER, or none for BAD ARGUMENT (R120, R73, R169). -/
def settingOperand (s : Slot) : Option Bool := if s.atSheetFlag then none else flagOfCode (wholeWord s 3)

/-- The first and last zone of a HOLD, RELEASE, CLEAR FAULT or ZERO on a unit of Z zones, or none for BAD ARGUMENT (R17,
R184). -/
def rangeOperands (s : Slot) (zoneCount : Nat) : Option (Nat × Nat) :=
  let first := lowHalf (s.word 3)
  let last := highHalf (s.word 3)
  if decide (1 ≤ first) && decide (last ≤ zoneCount) && decide (first ≤ last) && !s.atSheetFlag then some (first, last) else none

/-- The zones first to last, in ascending order. -/
def zoneRange (first last : Nat) : List ZoneNo :=
  (ascending 64).filter fun z => decide (first ≤ z.val + 1) && decide (z.val + 1 ≤ last)

/-- The arguments of a PRESET beside its unit and at-sheet value (R25). -/
structure PresetOperands where
  base : Nat
  bandCount : Nat
  bandWidth : Nat
  origin : Int
  policy : OffsetPolicy
  deriving DecidableEq, Repr

/-- The arguments of a PRESET, or none for BAD ARGUMENT: n, w or g outside its range, or no offset policy (R25). -/
def presetOperands (s : Slot) : Option PresetOperands :=
  let n := lowHalf (s.word 4)
  let w := highHalf (s.word 4)
  let g := (s.word 5).toInt
  match flagOfCode (wholeWord s 6) with
  | some keep =>
    if within 1 1024 n && within 5 100 w && decide (-5000 ≤ g) && decide (g ≤ 5000) then
      some { base := wholeWord s 3, bandCount := n, bandWidth := w, origin := g, policy := if keep then .keep else .clear }
    else none
  | none => none

/-- The words of a profile block (R25). -/
def PresetOperands.words (o : PresetOperands) : Nat := ceilDiv o.bandCount 2

/-- A TRIM's pairs as its words 3 to 13 give them: the list ends before the first word whose zone field is 0 (R187). -/
def trimWords (s : Slot) : List Word :=
  ((List.range 11).map fun k => s.word (3 + k)).takeWhile fun w => lowHalf w != 0

/-- One pair of a TRIM on a unit of Z zones, when its zone and delta lie in their ranges (R137). -/
def trimPair (zoneCount : Nat) (w : Word) : Option (ZoneNo × Int) :=
  match zoneOfNumber (lowHalf w) with
  | some z =>
    if decide (z.val < zoneCount) && decide (-300 ≤ signedHighHalf w) && decide (signedHighHalf w ≤ 300) then
      some (z, signedHighHalf w)
    else none
  | none => none

/-- Every pair of a run of words, when each is in range. -/
def trimPairs (zoneCount : Nat) : List Word → Option (List (ZoneNo × Int))
  | [] => some []
  | w :: ws =>
    match trimPair zoneCount w, trimPairs zoneCount ws with
    | some p, some ps => some (p :: ps)
    | _, _ => none

/-- The pairs of a TRIM, or none for BAD ARGUMENT: no pair, or a pair out of range (R137). -/
def trimOperands (s : Slot) (zoneCount : Nat) : Option (List (ZoneNo × Int)) :=
  match trimPairs zoneCount (trimWords s) with
  | some [] => none
  | r => r

/-- The value of a SWEEP, or none for BAD ARGUMENT (R41). -/
def sweepOperand (s : Slot) : Option Nat := if within 100 1000 (wholeWord s 3) then some (wholeWord s 3) else none

/-! ### Regions of the exchange memory (R157, R25) -/

/-- A run of words: its first word and its length. -/
structure Region where
  base : Nat
  words : Nat
  deriving DecidableEq, Repr

/-- Two runs share a word. -/
def Region.shares (a b : Region) : Bool := decide (a.base < b.base + b.words) && decide (b.base < a.base + a.words)

/-- A run ends at or before word 65,535. -/
def Region.inMemory (a : Region) : Bool := decide (a.base + a.words ≤ Config.memoryWords)

/-- The anchor's own words (R154). -/
def anchorRegion : Region := { base := 0, words := Config.anchorWords }

/-- The four regions an anchor places (R154). -/
def Anchor.regions (a : Anchor) : List Region :=
  [{ base := a.ringBase, words := Config.slotWords * a.ringLength }, { base := a.mirrorBase, words := Config.mirrorWords },
    { base := a.statusBase, words := Config.statusWords }, { base := a.storeBase, words := a.segments * a.segmentSize }]

/-- No two of a list of runs share a word. -/
def disjointRegions : List Region → Bool
  | [] => true
  | r :: rs => rs.all (fun q => !r.shares q) && disjointRegions rs

/-- The ring, mirror, status area and store of the anchor copy lie in the exchange memory whenever the part is ATTACHED. -/
def State.regionsInMemory (s : State) : Bool :=
  !s.attached || match s.port.anchor with
    | some a => a.regions.all Region.inMemory
    | none => false

/-- Words 1 to 10 of the anchor in memory (R154); bits of word 10 that name no cause are ignored (R186). -/
def anchorOfMemory (m : Memory) : Anchor where
  ringBase := (Memory.read m 1).toNat
  ringLength := (Memory.read m 2).toNat
  mirrorBase := (Memory.read m 3).toNat
  statusBase := (Memory.read m 4).toNat
  storeBase := (Memory.read m 5).toNat
  segments := (Memory.read m 6).toNat
  segmentSize := (Memory.read m 7).toNat
  scanInterval := (Memory.read m 8).toNat
  driveBudget := (Memory.read m 9).toNat
  noticeMask := (Memory.read m 10).setWidth 10

/-- The signature of a valid anchor (R154). -/
def anchorSignature : Word := 0x16640001

/-- The first reason of R157 that applies to the anchor in memory, or none. -/
def judgeAnchor (m : Memory) : Option AttachFailure :=
  let a := anchorOfMemory m
  if Memory.read m 0 ≠ anchorSignature then some .badSignature
  else if !within 4 1024 a.ringLength then some .badRingLength
  else if !(within 1 8 a.segments && within 1100 16384 a.segmentSize) then some .badStore
  else if !(within 1 100 a.scanInterval && within 1 64 a.driveBudget) then some .badSetting
  else if !a.regions.all Region.inMemory then some .regionOutsideMemory
  else if !disjointRegions (anchorRegion :: a.regions) then some .regionsOverlap
  else none

/-- A PRESET's profile block lies in memory and shares no word with the anchor or a region it places (R25). -/
def profileAllowed (o : PresetOperands) (a : Anchor) : Bool :=
  let r : Region := { base := o.base, words := o.words }
  r.inMemory && (anchorRegion :: a.regions).all fun q => !r.shares q

/-- The n band values of a profile block: band b in word base + floor(b/2), even bands in the low half (11.3, R26). -/
def readBands (m : Memory) (base n : Nat) : List Nat :=
  (List.range n).map fun b =>
    let w := Memory.read m (base + b / 2)
    if b % 2 = 0 then lowHalf w else highHalf w

end Sys2Proof.Machine
end

