-- ==== Sys2Proof/Machine/Layout.lean ====
section
/-! DEFINITION. The words the part writes: slot status and detail, mirror blocks, status area, reading store, frames and
registers (chapter 11). Bits assigned to no field are 0 (R186). -/

namespace Sys2Proof.Machine

open Decode

/-- A number in the `width` bits from bit `low` up. -/
def field (low width value : Nat) : Nat := (value % 2 ^ width) * 2 ^ low

/-- The word whose fields add up to this number. -/
def wordOf (n : Nat) : Word := BitVec.ofNat 32 n

/-- A flag as a number. -/
def flag (b : Bool) : Nat := if b then 1 else 0

/-- An optional field of a width: every bit set when it is absent (R187). -/
def orAllOnes (width : Nat) (x : Option Nat) : Nat := x.getD (2 ^ width - 1)

/-! ### Codes -/

/-- Zone state codes (11.4). -/
def ZoneState.code : ZoneState → Nat
  | .off => 0
  | .rest => 1
  | .pending => 2
  | .moving => 3
  | .held => 4
  | .faulted => 5

/-- Fault cause codes (11.4). -/
def faultCode : Option FaultCause → Nat
  | none => 0
  | some .stalled => 1
  | some .blocked => 2
  | some .missed => 3
  | some .noFeedback => 4

/-- Power state codes (11.4). -/
def PowerState.code : PowerState → Nat
  | .off => 0
  | .starting => 1
  | .on => 2
  | .tripped => 3
  | .check => 4

/-- Check result codes (11.4). -/
def CheckResult.code : CheckResult → Nat
  | .notChecked => 0
  | .passed => 1
  | .shortToSupply => 2
  | .shortToGround => 3
  | .crossCoupled => 4
  | .incomplete => 5

/-- Module state codes (11.4). -/
def ModuleState.code : ModuleState → Nat
  | .notExpected => 0
  | .present => 1
  | .missing => 2

/-- Slot outcome codes (11.4). -/
def SlotOutcome.code : SlotOutcome → Nat
  | .valid => 0
  | .noReply => 1
  | .late => 2
  | .checkError => 3
  | .wrongModule => 4
  | .lineNotOn => 5
  | .lineTripped => 6

/-- Intake setting codes (11.4). -/
def IntakeSetting.code : IntakeSetting → Nat
  | .off => 0
  | .armed => 1
  | .on => 2

/-- Port fault codes (11.4). -/
def PortFault.code : PortFault → Nat
  | .none => 0
  | .putOutOfRange => 1
  | .putBehindTake => 2

/-- Refusal reason codes (11.3). -/
def Reason.code : Reason → Nat
  | .unknownKind => 1
  | .badUnit => 2
  | .unitUndefined => 3
  | .badArgument => 4
  | .curveInvalid => 5
  | .busy => 6
  | .lineNotOff => 7
  | .lineInCheck => 8
  | .profileRegion => 9

/-- The causes a detail can carry (R171). -/
inductive Cause where
  | none | movesDeferred | lineTripped | lineOff | nothingRunning | byHost | detached
  deriving DecidableEq, Repr

/-- Cause codes (11.3). -/
def Cause.code : Cause → Nat
  | .none => 0
  | .movesDeferred => 1
  | .lineTripped => 2
  | .lineOff => 3
  | .nothingRunning => 4
  | .byHost => 5
  | .detached => 6

/-- The statuses the part writes (R170). -/
inductive Status where
  | accepted | waiting | running | done | doneWithFaults | refused | superseded | aborted
  deriving DecidableEq, Repr

/-- Status codes (11.3); 0 is the host's FRESH. -/
def Status.code : Status → Nat
  | .accepted => 1
  | .waiting => 2
  | .running => 3
  | .done => 4
  | .doneWithFaults => 5
  | .refused => 6
  | .superseded => 7
  | .aborted => 8

/-- The final statuses (R170). -/
def Status.final : Status → Bool
  | .accepted | .waiting | .running => false
  | .done | .doneWithFaults | .refused | .superseded | .aborted => true

/-! ### Order slots -/

/-- The detail of a status (R171): `code` is the refusal reason of REFUSED and the cause of every other status. -/
structure Detail where
  code : Nat
  bandsClamped : Nat
  sweepFault : Bool
  zonesFaulted : Nat
  raised : Nat
  lowered : Nat
  saturated : Nat
  linesFailed : Nat
  deriving DecidableEq, Repr

/-- A detail that carries a cause or reason and nothing else. -/
def Detail.only (code : Nat) : Detail where
  code := code
  bandsClamped := 0
  sweepFault := false
  zonesFaulted := 0
  raised := 0
  lowered := 0
  saturated := 0
  linesFailed := 0

/-- Word 14 of a slot (11.3). -/
def statusWord (st : Status) (d : Detail) : Word := wordOf (field 0 4 st.code + field 16 11 d.bandsClamped)

/-- Word 15 of a slot (11.3). -/
def detailWord (d : Detail) : Word :=
  wordOf (field 0 4 d.code + field 4 1 (flag d.sweepFault) + field 5 7 d.zonesFaulted + field 12 7 d.raised
    + field 19 7 d.lowered + field 26 4 d.saturated + field 30 2 d.linesFailed)

/-! ### Zone mirror (R165, 11.4) -/

/-- The unit summary word. The zone count has the zero code; the sweep mode of an undefined unit is an absent field (log
entry 9). -/
def summaryWord (r : UnitRec) : Word :=
  wordOf (field 0 7 r.zoneCount + field 7 1 (flag r.defined)
    + field 8 1 (orAllOnes 1 (r.config.map fun c => flag (c.sweepMode == .fixed)))
    + field 9 1 (flag r.sweepFault) + field 10 1 (flag r.loopOn) + field 16 11 (orAllOnes 11 r.currentSweep))

/-- A zone entry's first word. -/
def zoneWord1 (z : Zone) : Word :=
  wordOf (field 0 3 z.state.code + field 3 3 (faultCode z.faultCause) + field 6 14 (orAllOnes 14 z.coverage)
    + field 20 11 (orAllOnes 11 z.plan))

/-- A zone entry's second word. -/
def zoneWord2 (z : Zone) : Word :=
  wordOf (field 0 10 (BitVec.ofInt 10 z.offset).toNat + field 10 11 (orAllOnes 11 z.target)
    + field 21 11 (orAllOnes 11 z.position))

/-- The 64 zone entries of a block. -/
def zoneEntries (r : UnitRec) : List Word := r.zones.toList.flatMap fun z => [zoneWord1 z, zoneWord2 z]

/-- A mirror block but for its update count. -/
def blockWords (r : UnitRec) : List Word := summaryWord r :: zoneEntries r

/-- A mirror block of 130 words, as it stands when its update count is even again. -/
def mirrorBlock (count : Word) (r : UnitRec) : List Word := count :: blockWords r

/-! ### Status area (R166, 11.4) -/

/-- Status word 1: the lost-scan count and the link fault count. -/
def statusWord1 (s : State) : Word := wordOf (field 0 16 s.port.lostScans + field 16 16 s.intake.linkFaults)

/-- Status word 2; while no scan number is present its field is free (log entry 4). -/
def statusWord2 (s : State) : Word :=
  wordOf (field 0 16 (s.intake.lastScan.getD (Config.absentScanNumber s.freeDraws)).toNat
    + field 16 1 (flag s.intake.lastScan.isSome) + field 17 2 s.intake.setting.code + field 20 2 s.port.fault.code)

/-- Status word 3: the sweep fault of unit u in bit u − 1. -/
def statusWord3 (s : State) : Word :=
  wordOf ((ascending 16).foldl (fun n u => n + field u.val 1 (flag (s.unit u).sweepFault)) 0)

/-- A number in one field for each of the nine module addresses, `width` bits each, from bit `low` up. -/
def perAddress (low width : Nat) (l : Line) (f : ModuleRec → Nat) : Nat :=
  (ascending 9).foldl (fun n a => n + field (low + width * a.val) width (f l.modules[a])) 0

/-- The two words of a line entry (R95). -/
def lineEntry (l : Line) : List Word :=
  [wordOf (field 0 3 l.power.code + field 4 3 l.checkResult.code + perAddress 8 2 l fun m => m.state.code),
    wordOf (perAddress 0 3 l fun m => m.lastOutcome.code)]

/-- A watch entry's first word. -/
def watchWord1 (w : Watch) : Word :=
  wordOf (field 0 1 (flag w.enabled) + field 1 5 ((w.unit.map UnitNo.number).getD 0) + field 6 12 (orAllOnes 12 w.low)
    + field 18 12 (orAllOnes 12 w.high))

/-- A watch entry's second word; with no last hit its zone and density fields are free (log entry 4). -/
def watchWord2 (w : Watch) (draw : Nat) : Word :=
  match w.lastHit with
  | some h => wordOf (field 0 5 (UnitNo.number h.unit) + field 5 7 (ZoneNo.number h.zone) + field 12 12 h.density)
  | none => wordOf (field 5 7 (Config.absentHitZone draw).toNat + field 12 12 (Config.absentHitDensity draw).toNat)

/-- A watch entry's third word; with no last hit its field is free (log entry 4). -/
def watchWord3 (w : Watch) (draw : Nat) : Word :=
  wordOf (field 0 16 ((w.lastHit.map (·.scan)).getD (Config.absentHitScan draw)).toNat)

/-- A watch entry's three words. -/
def watchEntry (w : Watch) (draw : Nat) : List Word := [watchWord1 w, watchWord2 w draw, watchWord3 w draw]

/-- The whole status area: words 48 to 63 are reserved and written as 0 (R186). -/
def statusArea (s : State) : List Word :=
  [s.port.snapshotSheet, statusWord1 s, statusWord2 s, statusWord3 s] ++ s.lines.toList.flatMap lineEntry
    ++ s.intake.watches.toList.flatMap (fun w => watchEntry w s.freeDraws) ++ List.replicate 16 0

/-! ### Reading store (11.5) -/

/-- A segment header. -/
def segmentHeader (full : Bool) (records : Nat) (sequence : BitVec 16) : Word :=
  wordOf (field 0 4 (flag full) + field 4 12 records + field 16 16 sequence.toNat)

/-- A header shows EMPTY; any other state is treated as not EMPTY (R168). -/
def headerEmpty (w : Word) : Bool := bits w 0 4 == 0

/-- The reading codes (R116). -/
inductive ReadingCode where
  | linkFault | stale | notPrinting | outOfRange | patchAbsent | zoneNotMetering | settling | validDensity
  deriving DecidableEq, Repr

/-- Reading code codes (11.5). -/
def ReadingCode.code : ReadingCode → Nat
  | .linkFault => 1
  | .stale => 2
  | .notPrinting => 3
  | .outOfRange => 4
  | .patchAbsent => 5
  | .zoneNotMetering => 6
  | .settling => 7
  | .validDensity => 8

/-- The outcomes of a scan (R125). -/
inductive ScanOutcome where
  | complete | secondOpen | badFrame | badCheck | timeout
  deriving DecidableEq, Repr

/-- Scan outcome codes (11.5). -/
def ScanOutcome.code : ScanOutcome → Nat
  | .complete => 0
  | .secondOpen => 1
  | .badFrame => 2
  | .badCheck => 3
  | .timeout => 4

/-- Bits 13:0 of a reading word: the density field holds 0 for a bar code (11.5). -/
def entryBits : Entry → Nat
  | .density v => field 0 12 v.toNat
  | .patchAbsent => field 12 2 1
  | .outOfRange => field 12 2 2

/-- A reading word. -/
def readingWord (e : Entry) (c : ReadingCode) : Word := wordOf (entryBits e + field 16 4 c.code)

/-- A unit group: its header and its readings (R125). -/
def unitGroup (u : UnitNo) (readings : List (Entry × ReadingCode)) : List Word :=
  wordOf (field 0 8 (UnitNo.number u) + field 8 8 readings.length) :: readings.map fun r => readingWord r.1 r.2

/-- A scan record (R125). -/
def scanRecord (scan : OpenScan) (counter : Sheet) (outcome : ScanOutcome) (groups : List (UnitNo × List (Entry × ReadingCode))) :
    List Word :=
  [wordOf (field 0 16 scan.number.toNat), scan.sheet, counter, wordOf (field 0 4 outcome.code + field 8 5 groups.length)]
    ++ groups.flatMap fun g => unitGroup g.1 g.2

/-! ### Frames (11.6) -/

/-- The words of a SCAN OPEN frame, as laid out (R113, log entry 10). -/
def scanOpenWords (number : BitVec 16) (sheet : Sheet) : List Word :=
  [wordOf (field 24 8 1 + field 0 16 number.toNat), sheet]

/-- The words of a UNIT BLOCK frame, as laid out, the density field of a bar code being 0 (R113, log entry 10). -/
def unitBlockWords (unit : BitVec 8) (entries : List Entry) : List Word :=
  wordOf (field 24 8 2 + field 8 8 entries.length + field 0 8 unit.toNat) :: entries.map fun e => wordOf (entryBits e)

/-- The check sum of words, modulo 2^32 (R113). -/
def checkSum (ws : List Word) : Word := ws.foldl (· + ·) 0

/-- The module a zone's key stands in: module m serves zones 8m − 7 to 8m (0.6). -/
def moduleOf (z : ZoneNo) : Fin 9 := ⟨z.val / 8 + 1, by omega⟩

/-- A zone's key within its module, 1 to 8 (0.6). -/
def keyOf (z : ZoneNo) : Nat := z.val % 8 + 1

/-- A downstream frame with its check bits: the number of ones among bits 25:0 (R188). -/
def downstream (kind module key value tag : Nat) : Word :=
  let w := wordOf (field 0 3 kind + field 3 4 module + field 7 4 key + field 11 11 value + field 22 4 tag)
  wordOf (w.toNat + field 26 6 (onesBelow w 26))

/-- The IDLE frame (R81). -/
def idleFrame : Word := downstream 0 0 0 0 0

/-- The HALT ALL frame (R81). -/
def haltAllFrame : Word := downstream 4 0 0 0 0

/-- The HALT frame of a zone's key (R81). -/
def haltFrame (z : ZoneNo) : Word := downstream 3 (moduleOf z).val (keyOf z) 0 0

/-- A MOVE, ZERO or SWEEP frame (R81). -/
def motionWord : MotionFrame → Word
  | .move z p t => downstream 1 (moduleOf z).val (keyOf z) p t.toNat
  | .zero z t => downstream 2 (moduleOf z).val (keyOf z) 0 t.toNat
  | .sweep v t => downstream 5 0 0 v t.toNat

/-! ### Registers (11.2) -/

/-- What a read of IDENT gives (R155). -/
def identRegister : Word := wordOf (field 16 16 0x1664 + field 0 16 Config.designRevision.toNat)

/-- Part state codes (11.2). -/
def PartState.code : PartState → Nat
  | .detached => 0
  | .attaching => 1
  | .attached => 2

/-- Attach failure codes (11.2). -/
def attachFailureCode : Option AttachFailure → Nat
  | none => 0
  | some .badSignature => 1
  | some .badRingLength => 2
  | some .badStore => 3
  | some .badSetting => 4
  | some .regionOutsideMemory => 5
  | some .regionsOverlap => 6

/-- Command outcome codes (11.2). -/
def CommandOutcome.code : CommandOutcome → Nat
  | .none => 0
  | .taken => 1
  | .deferred => 2
  | .refused => 3

/-- What a read of STATE gives (R155). -/
def State.stateRegister (s : State) : Word :=
  wordOf (field 0 2 s.port.state.code + field 4 3 (attachFailureCode s.port.lastFailure) + field 8 2 s.port.lastOutcome.code)

/-- What a read of COMMAND gives: the value last written (R155). -/
def State.commandRegister (s : State) : Word := s.port.commandWord

/-- What a read of NOTICE gives: the pending set (R156). -/
def State.noticeRegister (s : State) : Word := s.port.notices.setWidth 32

end Sys2Proof.Machine
end

