-- ==== Sys2Proof/Machine/Ops.lean ====
section
/-! DEFINITION. The shared operations: the event in progress, updates of one record, notices, order slots and the retire
offset, the zone mirror, and a zone's change of state. -/

namespace Sys2Proof.Machine

/-- An event in progress: the state as the event has left it so far, the state it began from, and what the event owes at its
end (R12, R46, R95): blocks of the mirror, completion tests, line entries of the status area, a run of the arbiter. `raised`,
`lowered` and `saturated` count for the order that caused a pass (R39, R138). -/
structure Ev extends State where
  start : State
  mirrorDue : List UnitNo
  testDue : List UnitNo
  lineDue : List LineNo
  arbiterDue : Bool
  raised : Nat
  lowered : Nat
  saturated : Nat

/-- The event that begins at a state. -/
def Ev.ofState (s : State) : Ev where
  toState := s
  start := s
  mirrorDue := []
  testDue := []
  lineDue := []
  arbiterDue := false
  raised := 0
  lowered := 0
  saturated := 0

/-! ### Updates of one record -/

/-- Update unit u's record. -/
def Ev.updUnit (e : Ev) (u : UnitNo) (f : UnitRec → UnitRec) : Ev := { e with units := e.units.set u (f e.units[u]) }

/-- Update zone z of unit u. -/
def Ev.updZone (e : Ev) (u : UnitNo) (z : ZoneNo) (f : Zone → Zone) : Ev :=
  e.updUnit u fun r => { r with zones := r.zones.set z (f r.zones[z]) }

/-- Update every zone of unit u. -/
def Ev.updZones (e : Ev) (u : UnitNo) (f : ZoneNo → Zone → Zone) : Ev :=
  e.updUnit u fun r => { r with zones := Vector.ofFn fun z : ZoneNo => f z r.zones[z] }

/-- Update line n's record. -/
def Ev.updLine (e : Ev) (n : LineNo) (f : Line → Line) : Ev := { e with lines := e.lines.set n (f e.lines[n]) }

/-- Update the exchange port. -/
def Ev.updPort (e : Ev) (f : Port → Port) : Ev := { e with port := f e.port }

/-- Update the reading intake. -/
def Ev.updIntake (e : Ev) (f : Intake → Intake) : Ev := { e with intake := f e.intake }

/-- Update the press timing unit. -/
def Ev.updTiming (e : Ev) (f : Timing → Timing) : Ev := { e with timing := f e.timing }

/-- Put a check run, or none, in the line check unit. -/
def Ev.setCheck (e : Ev) (c : Option CheckRun) : Ev := { e with check := c }

/-- Update the command queue of line n. -/
def Ev.updQueue (e : Ev) (n : LineNo) (f : CommandQueue → CommandQueue) : Ev :=
  e.updLine n fun l => { l with queue := f l.queue }

/-- Update the fountain record of line n. -/
def Ev.updFountain (e : Ev) (n : LineNo) (f : Fountain → Fountain) : Ev :=
  e.updLine n fun l => { l with fountain := f l.fountain }

/-- Update every module record of line n. -/
def Ev.updModules (e : Ev) (n : LineNo) (f : ModuleRec → ModuleRec) : Ev :=
  e.updLine n fun l => { l with modules := Vector.ofFn fun a : Fin 9 => f l.modules[a] }

/-- Write consecutive words of the exchange memory, one after another; what stood in them is kept until the next event (R161). -/
def Ev.writeWords (e : Ev) (base : Nat) (ws : List Word) : Ev :=
  { e with mem := Memory.write e.mem base ws, unfinished := Memory.standing e.mem base ws.length ++ e.unfinished }

/-- The host's writes land (log entry 1). -/
def Ev.hostWrites (e : Ev) (host : List HostWrite) : Ev := { e with mem := Memory.hostWrites e.mem host }

/-- Raise a notice (R156). -/
def Ev.raise (e : Ev) (n : Notice) : Ev := e.updPort fun p => p.raise n

/-- The mirror block of unit u is to be written at the end of the event (R165). -/
def Ev.oweMirror (e : Ev) (u : UnitNo) : Ev := { e with mirrorDue := u :: e.mirrorDue }

/-- The tracked order of unit u is to be tested for completion at the end of the event (R12, R176). -/
def Ev.oweTest (e : Ev) (u : UnitNo) : Ev := { e with testDue := u :: e.testDue }

/-- The status entry of line n is to be written at the end of the event (R95). -/
def Ev.oweLine (e : Ev) (n : LineNo) : Ev := { e with lineDue := n :: e.lineDue }

/-- The arbiter is to run (R50). -/
def Ev.oweArbiter (e : Ev) : Ev := { e with arbiterDue := true }

/-! ### Order slots (R163, R164) -/

/-- The address of word k of a ring slot (R163). -/
def Anchor.slotWord (a : Anchor) (slot k : Nat) : Nat := a.ringBase + Config.slotWords * slot + k

/-- Write a slot's detail and then its status, while the part is ATTACHED (R163, R170). -/
def Ev.writeStatus (e : Ev) (slot : Nat) (st : Status) (d : Detail) : Ev :=
  match e.attached, e.port.anchor with
  | true, some a => (e.writeWords (a.slotWord slot 15) [detailWord d]).writeWords (a.slotWord slot 14) [statusWord st d]
  | _, _ => e

/-- The walk of R over the finished set (R164): the new R, the slots left in the set, and whether a value R took equals the
notice offset last read. -/
def retireWalk (length : Nat) (notice : Option Word) : Nat → Nat → List Nat → Bool → Nat × List Nat × Bool
  | 0, r, finished, hit => (r, finished, hit)
  | fuel + 1, r, finished, hit =>
    if finished.contains r then
      let r' := ringNext length r
      retireWalk length notice fuel r' (finished.erase r) (hit || notice == some (wordOf r'))
    else (r, finished, hit)

/-- R advances over the finished slots at its front, and word 15 follows (R164). -/
def Ev.advanceRetire (e : Ev) (a : Anchor) : Ev :=
  let w := retireWalk a.ringLength e.port.noticeOffset e.port.finished.length e.port.retire e.port.finished false
  if e.port.finished.contains e.port.retire then
    let e' := (e.updPort fun p => { p with retire := w.1, finished := w.2.1 }).writeWords 15 [wordOf w.1]
    if w.2.2 then e'.raise .retireMark else e'
  else e

/-- A slot becomes final (R164). -/
def Ev.slotFinal (e : Ev) (slot : Nat) (notify : Bool) : Ev :=
  match e.attached, e.port.anchor with
  | true, some a =>
    let e1 := e.updPort fun p => { p with finished := if p.finished.contains slot then p.finished else p.finished ++ [slot] }
    let e2 := if notify then e1.raise .flaggedOrder else e1
    e2.advanceRetire a
  | _, _ => e

/-- T advances by one, and word 14 follows (R163). -/
def Ev.advanceTake (e : Ev) : Ev :=
  match e.port.anchor with
  | some a =>
    let t := ringNext a.ringLength e.port.take
    (e.updPort fun p => { p with take := t }).writeWords 14 [wordOf t]
  | none => e

/-- End the take of a slot with a status: detail and status are written, T advances, and a final slot is retired (R163). -/
def Ev.finishTake (e : Ev) (slot : Nat) (notify : Bool) (st : Status) (d : Detail) : Ev :=
  let e1 := (e.writeStatus slot st d).advanceTake
  if st.final then e1.slotFinal slot notify else e1

/-! ### Zone mirror (R165) -/

/-- The address of unit u's block. -/
def Anchor.blockBase (a : Anchor) (u : UnitNo) : Nat := a.mirrorBase + Config.blockWords * u.val

/-- Write unit u's mirror block: its update count is raised by one, the other words are written, and the count is raised by one
again (R165). -/
def Ev.writeMirror (e : Ev) (a : Anchor) (u : UnitNo) : Ev :=
  let count := e.port.updateCounts[u]
  let e1 := (e.updPort fun p => { p with updateCounts := p.updateCounts.set u (count + 2) }).writeWords (a.blockBase u) [count + 1]
  (e1.writeWords (a.blockBase u + 1) (blockWords (e.unit u))).writeWords (a.blockBase u) [count + 2]

/-! ### Zone state (R10 to R12) -/

/-- The grant of a MOVING zone is released: both counts fall by one, the timer is cancelled, and commanded, move kind and
move tag become absent (R10, R48). -/
def Ev.releaseGrant (e : Ev) (u : UnitNo) (z : ZoneNo) : Ev :=
  let e1 := e.updZone u z fun r => { r with commanded := none, moveKind := none, moveTag := none, moveTimer := none }
  let e2 := e1.updLine u fun l => { l with grants := l.grants - 1 }
  { e2 with partGrants := e2.partGrants - 1, arbiterDue := true }

/-- A zone's entry leaves the pending list, and the entries behind it close up (R45). -/
def Ev.dropEntry (e : Ev) (u : UnitNo) (z : ZoneNo) : Ev :=
  e.updLine u fun l => { l with pendingList := l.pendingList.filter fun p => p.zone != z }

/-- A zone changes its state. Leaving MOVING releases the grant (R10), leaving PENDING leaves the list (R45), leaving REST
empties the samples, and every change owes a mirror write and a completion test (R12). The fault cause is absent in every
state but FAULTED (R3). -/
def Ev.changeState (e : Ev) (u : UnitNo) (z : ZoneNo) (new : ZoneState) : Ev :=
  let old := (e.zone u z).state
  if old = new then e
  else
    let e1 := if old = .moving then e.releaseGrant u z else e
    let e2 := if old = .pending then e1.dropEntry u z else e1
    let e3 := e2.updZone u z fun r =>
      { r with state := new, faultCause := none, samples := if old = .rest then [] else r.samples }
    (e3.oweMirror u).oweTest u

/-- A zone enters PENDING at the tail of its line's list; one that is PENDING keeps its entry and its place (R11, R45). -/
def Ev.enterPending (e : Ev) (u : UnitNo) (z : ZoneNo) (kind : MoveKind) : Ev :=
  if (e.zone u z).state = .pending then e
  else ((e.changeState u z .pending).updLine u fun l => { l with pendingList := l.pendingList ++ [⟨z, kind⟩] }).oweArbiter

/-- A zone that is not FAULTED enters FAULTED with this cause, and ZONE FAULT is raised (R12). -/
def Ev.enterFaulted (e : Ev) (u : UnitNo) (z : ZoneNo) (cause : FaultCause) : Ev :=
  ((e.changeState u z .faulted).updZone u z fun r => { r with faultCause := some cause }).raise .zoneFault

/-! ### Placement test (R11) -/

/-- The key module of zone z on its unit's line. -/
def State.moduleState (s : State) (u : UnitNo) (z : ZoneNo) : ModuleState := ((s.line u).modules[moduleOf z]).state

/-- The zone's entry in its line's pending list is of kind ZERO (R47). -/
def State.zeroEntry (s : State) (u : UnitNo) (z : ZoneNo) : Bool :=
  (s.line u).pendingList.any fun p => p.zone == z && p.kind == .zero

/-- The outcomes of the placement test (R11). -/
inductive Placement where
  | faulted | pending | rest
  deriving DecidableEq, Repr

/-- The placement test (R11). The module is looked at first; then the outcome for a PENDING zone whose entry is of kind ZERO is PENDING
whatever its target and position (R47; log entry 27). -/
def State.placement (s : State) (u : UnitNo) (z : ZoneNo) : Placement :=
  if s.moduleState u z = .missing then .faulted
  else if (s.zone u z).state = .pending ∧ s.zeroEntry u z then .pending
  else match (s.zone u z).target, (s.zone u z).position with
    | none, _ => .rest
    | some _, none => .pending
    | some t, some p => if (s.unit u).tolerance < distance t p then .pending else .rest

/-- A zone takes the outcome of the placement test (R11). A FAULTED zone whose module is MISSING stays FAULTED with cause
NO FEEDBACK, which is no change of state (R20). -/
def Ev.place (e : Ev) (u : UnitNo) (z : ZoneNo) : Ev :=
  match e.placement u z with
  | .pending => e.enterPending u z .position
  | .rest => e.changeState u z .rest
  | .faulted =>
    if (e.zone u z).state = .faulted then e.updZone u z fun r => { r with faultCause := some .noFeedback }
    else e.enterFaulted u z .noFeedback

end Sys2Proof.Machine
end

