-- ==== Sys2Proof/Machine/Moves.lean ====
section
/-! DEFINITION. The move scheduler: the command queue, tags, grants and the arbiter, retargeting, halts, and the return of
moves that a line or a detach cuts short (chapter 3). -/

namespace Sys2Proof.Machine

/-! ### The command queue (R82 to R84) -/

/-- A MOVE or ZERO frame for this zone's key. -/
def MotionFrame.forKey (z : ZoneNo) : MotionFrame → Bool
  | .move y _ _ => y == z
  | .zero y _ => y == z
  | .sweep _ _ => false

/-- A SWEEP frame. -/
def MotionFrame.isSweep : MotionFrame → Bool
  | .sweep _ _ => true
  | _ => false

/-- The zone's MOVE or ZERO frame is still in its line's queue (R58, R67). -/
def State.frameQueued (s : State) (n : LineNo) (z : ZoneNo) : Bool := (s.line n).queue.motion.any (MotionFrame.forKey z)

/-- A SWEEP frame is still in the line's queue (R92, R93). -/
def State.sweepQueued (s : State) (n : LineNo) : Bool := (s.line n).queue.motion.any MotionFrame.isSweep

/-- A MOVE or ZERO for a key joins at the back of the third band, and a HALT waiting for the key is removed (R67, R82). -/
def Ev.queueKeyFrame (e : Ev) (n : LineNo) (z : ZoneNo) (f : MotionFrame) : Ev :=
  e.updQueue n fun q => { q with halts := q.halts.filter (· != z), motion := q.motion ++ [f] }

/-- A SWEEP joins at the back of the third band (R82). -/
def Ev.queueSweep (e : Ev) (n : LineNo) (value : Nat) (tag : Tag) : Ev :=
  e.updQueue n fun q => { q with motion := q.motion ++ [.sweep value tag] }

/-- A queued MOVE for the zone's key is given a new position in its place, keeping its tag (R55). -/
def rewriteMove (z : ZoneNo) (position : Nat) : MotionFrame → MotionFrame
  | .move y p t => if y = z then .move y position t else .move y p t
  | f => f

/-- A queued MOVE for the zone's key becomes a ZERO in its place, with the same tag (R66). -/
def moveToZero (z : ZoneNo) : MotionFrame → MotionFrame
  | .move y p t => if y = z then .zero y t else .move y p t
  | f => f

/-- A queued SWEEP is given a new value in its place, keeping its tag (R92). -/
def rewriteSweep (value : Nat) : MotionFrame → MotionFrame
  | .sweep _ t => .sweep value t
  | f => f

/-- The halt rule (R67): a still-queued MOVE or ZERO frame of the key is removed; otherwise a HALT joins the second band. -/
def Ev.haltKey (e : Ev) (n : LineNo) (z : ZoneNo) : Ev :=
  if e.frameQueued n z then e.updQueue n fun q => { q with motion := q.motion.filter fun f => !f.forKey z }
  else e.updQueue n fun q => { q with halts := q.halts ++ [z] }

/-- A HALT ALL removes every other frame and takes the front; a second one is not queued (R83). -/
def Ev.queueHaltAll (e : Ev) (n : LineNo) : Ev := e.updQueue n fun _ => { haltAll := true, halts := [], motion := [] }

/-! ### Tags (R54) -/

/-- The tag that a frame for a key takes: the counter, advanced past the key's reported tag and sent tag (R54). -/
def nextTag (counter : Tag) (p : TagPair) : Tag :=
  let skip (c : Tag) : Tag := if c = p.reported ∨ c = p.sent then c + 1 else c
  skip (skip counter)

/-- The tag the next frame for the zone's key takes. -/
def State.nextKeyTag (s : State) (n : LineNo) (z : ZoneNo) : Tag := nextTag (s.line n).tagCounter (s.line n).keyTags[z]

/-- The tag the next SWEEP frame takes. -/
def State.nextSweepTag (s : State) (n : LineNo) : Tag := nextTag (s.line n).tagCounter (s.line n).fountainTags

/-- The counter passes the tag just taken (R54). -/
def Ev.tagTaken (e : Ev) (n : LineNo) (tag : Tag) : Ev := e.updLine n fun l => { l with tagCounter := tag + 1 }

/-! ### Sending a move (R53, R55, R60, R66) -/

/-- A MOVE with the next tag is queued for a MOVING zone, and its timer runs afresh for the unit's move timeout. -/
def Ev.sendMove (e : Ev) (u : UnitNo) (z : ZoneNo) (position attempts : Nat) : Ev :=
  let tag := e.nextKeyTag u z
  ((e.tagTaken u tag).queueKeyFrame u z (.move z position tag)).updZone u z fun r =>
    { r with moveKind := some .position, commanded := some position, moveTag := some tag, attempts := attempts,
             moveTimer := some (e.unit u).moveTimeout }

/-- A ZERO with the next tag is queued for a MOVING zone, and its timer runs afresh. -/
def Ev.sendZero (e : Ev) (u : UnitNo) (z : ZoneNo) : Ev :=
  let tag := e.nextKeyTag u z
  ((e.tagTaken u tag).queueKeyFrame u z (.zero z tag)).updZone u z fun r =>
    { r with moveKind := some .zero, commanded := some 0, moveTag := some tag, attempts := 0,
             moveTimer := some (e.unit u).moveTimeout }

/-! ### The arbiter (R50 to R53) -/

/-- Line n is eligible for a grant (R51). -/
def State.eligible (s : State) (n : LineNo) : Bool :=
  s.attached && (s.line n).inService && !(s.line n).pendingList.isEmpty
    && decide ((s.line n).grants < (s.unit n).lineBudget) && decide (s.partGrants < s.driveBudget)

/-- The first eligible line after the round-robin pointer, wrapping from line 16 to line 1 (R52). -/
def State.firstEligible (s : State) : Option LineNo :=
  ((ascending 16).map fun i => s.pointer + 1 + i).find? fun n => s.eligible n

/-- A grant to the head of line n's pending list (R53). -/
def Ev.grant (e : Ev) (n : LineNo) : Ev :=
  match (e.line n).pendingList with
  | [] => e
  | p :: _ =>
    let e1 := (e.changeState n p.zone .moving).updLine n fun l => { l with grants := l.grants + 1 }
    let e2 : Ev := { e1 with partGrants := e1.partGrants + 1, pointer := n }
    match p.kind with
    | .position => e2.sendMove n p.zone ((e.zone n p.zone).target.getD 0) 0
    | .zero => e2.sendZero n p.zone

/-- Grants until an examination of the sixteen lines finds none eligible (R52). -/
def Ev.grantRounds : Nat → Ev → Ev
  | 0, e => e
  | fuel + 1, e =>
    match e.firstEligible with
    | some n => Ev.grantRounds fuel (e.grant n)
    | none => e

/-- The entries of all pending lists: a run gives no more grants than these. -/
def State.waitingZones (s : State) : Nat := (ascending 16).foldl (fun k n => k + (s.line n).pendingList.length) 0

/-- A run of the arbiter (R52). -/
def Ev.runArbiter (e : Ev) : Ev := { Ev.grantRounds e.waitingZones e with arbiterDue := false }

/-- A run of the arbiter, when the event has joined an entry or released a grant (R50). -/
def Ev.settleArbiter (e : Ev) : Ev := if e.arbiterDue then e.runArbiter else e

/-! ### Retargeting (R55, R56) -/

/-- A MOVING zone is given a new target (R55, R56). -/
def Ev.retarget (e : Ev) (u : UnitNo) (z : ZoneNo) (target : Nat) : Ev :=
  let r := e.zone u z
  if r.moveKind = some .zero then e
  else if distance target (r.commanded.getD 0) ≤ (e.unit u).tolerance then e
  else if e.frameQueued u z then
    (e.updQueue u fun q => { q with motion := q.motion.map (rewriteMove z target) }).updZone u z fun r =>
      { r with commanded := some target, attempts := 0, moveTimer := some (e.unit u).moveTimeout }
  else e.sendMove u z target 0

/-- The zone table acts on a target just written by stage 7 (R13). -/
def Ev.actOnTarget (e : Ev) (u : UnitNo) (z : ZoneNo) (target : Nat) : Ev :=
  match (e.zone u z).state with
  | .rest | .pending => e.place u z
  | .moving => e.retarget u z target
  | .held | .faulted | .off => e

/-- The zone's target becomes this value, and the zone acts on it (R4, R13). -/
def Ev.newTarget (e : Ev) (u : UnitNo) (z : ZoneNo) (target : Nat) : Ev :=
  (e.updZone u z fun r => { r with target := some target }).actOnTarget u z target

/-! ### Moves cut short (R68 to R70) -/

/-- A MOVING zone returns to PENDING with an entry of the kind of its lost move, its attempts 0 (R68). -/
def Ev.returnZone (e : Ev) (u : UnitNo) (z : ZoneNo) : Ev :=
  if (e.zone u z).state = .moving then
    (e.enterPending u z ((e.zone u z).moveKind.getD .position)).updZone u z fun r => { r with attempts := 0 }
  else e

/-- Every MOVING zone of unit u returns to PENDING, in ascending zone order (R68). -/
def Ev.returnMoving (e : Ev) (u : UnitNo) : Ev := (ascending 64).foldl (fun e z => e.returnZone u z) e

/-! ### Arrivals and failures (R58 to R65) -/

/-- The settle sheet of an arrival: the sheet counter plus settle W, W being 0 while the loop parameters are absent (R62). -/
def State.arrivalSettle (s : State) (u : UnitNo) : Sheet :=
  sheetPlus s.timing.counter (((s.unit u).loopParams.map (·.settleW)).getD 0)

/-- The zone's settle sheet is set at an arrival (R62). -/
def Ev.setSettle (e : Ev) (u : UnitNo) (z : ZoneNo) : Ev :=
  let sheet := e.arrivalSettle u
  e.updZone u z fun r => { r with settleSheet := some sheet }

/-- A matching AT REST reply ends a POSITION move by arrival within tolerance of the commanded position, or it has missed and
is re-sent twice at most (R59, R60). -/
def Ev.positionAtRest (e : Ev) (u : UnitNo) (z : ZoneNo) (position : Nat) : Ev :=
  let r := e.zone u z
  let commanded := r.commanded.getD 0
  if distance position commanded ≤ (e.unit u).tolerance then (e.setSettle u z).changeState u z .rest
  else if r.attempts < 2 then e.sendMove u z commanded (r.attempts + 1)
  else e.enterFaulted u z .missed

/-- A matching AT REST reply ends a ZERO move: at position 0 by arrival and the placement test, elsewhere as a miss (R65). -/
def Ev.zeroAtRest (e : Ev) (u : UnitNo) (z : ZoneNo) (position : Nat) : Ev :=
  if position = 0 then (e.setSettle u z).place u z else e.enterFaulted u z .missed

/-- A reply matches the zone's move (R58). -/
def State.replyMatches (s : State) (u : UnitNo) (z : ZoneNo) (tag : Tag) : Bool :=
  (s.zone u z).state == .moving && !s.frameQueued u z && (s.zone u z).moveTag == some tag

/-- A VALID reply of a key module reaches the move scheduler (R58, R59, R61, R65). -/
def Ev.keyReply (e : Ev) (u : UnitNo) (z : ZoneNo) (position : Nat) (motion : Decode.Motion) (tag : Tag) : Ev :=
  if e.replyMatches u z tag then
    match motion with
    | .moving => e
    | .blocked => e.enterFaulted u z .blocked
    | .atRest => if (e.zone u z).moveKind = some .zero then e.zeroAtRest u z position else e.positionAtRest u z position
  else e

/-- A zone's move timer expires (R64). -/
def Ev.stallZone (e : Ev) (u : UnitNo) (z : ZoneNo) : Ev := (e.haltKey u z).enterFaulted u z .stalled

/-- A zone of a key module that has gone MISSING (R21). -/
def Ev.loseZone (e : Ev) (u : UnitNo) (z : ZoneNo) : Ev :=
  match (e.zone u z).state with
  | .moving => (e.haltKey u z).enterFaulted u z .noFeedback
  | .pending | .rest => e.enterFaulted u z .noFeedback
  | .held | .faulted | .off => e

end Sys2Proof.Machine
end

