-- ==== Sys2Proof/Machine/Fountain.lean ====
section
/-! DEFINITION. The fountain drive: pursuit of the wanted sweep, the hand-over, and the ends of a sweep move (R35, R92 to
R94). -/

namespace Sys2Proof.Machine

/-- The fountain drive's standing: module 0 of the line (0.6). -/
def State.fountainModule (s : State) (n : LineNo) : ModuleState := ((s.line n).modules[(0 : Fin 9)]).state

/-- A sweep move to this value is in flight (R35, R92). -/
def State.sweepInFlight (s : State) (n : LineNo) (value : Nat) : Bool := (s.line n).fountain.move.any fun m => m.value == value

/-- The unit's sweep fault is set; the mirror summary is written when it changes (R93, R165). -/
def Ev.setSweepFault (e : Ev) (u : UnitNo) (on : Bool) : Ev :=
  if (e.unit u).sweepFault = on then e else (e.updUnit u fun r => { r with sweepFault := on }).oweMirror u

/-- The fountain wait of the unit's tracked order ends, and the order is tested for completion (R176). -/
def Ev.endFountainWait (e : Ev) (u : UnitNo) : Ev :=
  (e.updUnit u fun r => { r with tracked := r.tracked.map fun o => { o with fountainWait := false } }).oweTest u

/-- A SWEEP with the next tag is queued, and the sweep move takes its value and tag with its timer running afresh (R92). -/
def Ev.sendSweep (e : Ev) (n : LineNo) (value : Nat) : Ev :=
  let tag := e.nextSweepTag n
  ((e.tagTaken n tag).queueSweep n value tag).updFountain n fun f =>
    { f with move := some { value := value, tag := tag }, moveTimer := some (e.unit n).moveTimeout }

/-- A hand-over to a MISSING fountain drive ends at once as a fault, with no further notice (R92; log entry 12). -/
def Ev.faultHandOver (e : Ev) (n : LineNo) : Ev := (e.updFountain n fun f => { f with pursuit := false }).setSweepFault n true

/-- Pursue the wanted sweep `value` on a line that can be driven (R92). With no move in flight, a reached sweep equal to the wanted one
is looked at before the drive's standing: nothing is queued, and a MISSING drive makes no fault of it (log entry 12). -/
def Ev.pursueTo (e : Ev) (n : LineNo) (value : Nat) : Ev :=
  match (e.line n).fountain.move with
  | none =>
    if (e.line n).fountain.reached = some value then e
    else match e.fountainModule n with
      | .present => e.sendSweep n value
      | .missing => e.faultHandOver n
      | .notExpected => e
  | some m =>
    if m.value = value then e
    else if e.sweepQueued n then
      (e.updQueue n fun q => { q with motion := q.motion.map (rewriteSweep value) }).updFountain n fun f =>
        { f with move := some { value := value, tag := m.tag }, moveTimer := some (e.unit n).moveTimeout }
    else e.sendSweep n value

/-- The fountain is pursued: only while the part is ATTACHED, the line is ON with stop taken no, pursuit is yes and a wanted
sweep is present (R92). -/
def Ev.pursue (e : Ev) (n : LineNo) : Ev :=
  if e.attached && (e.line n).inService && (e.line n).fountain.pursuit then
    match (e.line n).fountain.wanted with
    | some value => e.pursueTo n value
    | none => e
  else e

/-- The fountain is pursued with pursuit set to yes (R75, R91, R158). -/
def Ev.pursueAfresh (e : Ev) (n : LineNo) : Ev := (e.updFountain n fun f => { f with pursuit := true }).pursue n

/-- The sweep chosen by stage 4 becomes the current sweep and is handed to the line controller as the wanted sweep (R35). -/
def Ev.handOver (e : Ev) (u : UnitNo) (s : Nat) : Ev :=
  ((e.updUnit u fun r => { r with currentSweep := some s }).updFountain u fun f => { f with wanted := some s }).pursueAfresh u

/-- A sweep move ends with a fault (R94). -/
def Ev.endSweepFault (e : Ev) (n : LineNo) : Ev :=
  let e1 := e.updFountain n fun f => { f with move := none, moveTimer := none, reached := none, pursuit := false }
  let e2 := e1.updQueue n fun q => { q with motion := q.motion.filter fun f => !f.isSweep }
  (((e2.setSweepFault n true).oweMirror n).raise .lineEvent).endFountainWait n

/-- A sweep move in flight ends without a fault, when its line stops or is halted (R94). -/
def Ev.endSweepQuietly (e : Ev) (n : LineNo) : Ev :=
  if (e.line n).fountain.move.isSome then
    e.updFountain n fun f => { f with move := none, moveTimer := none, reached := none }
  else e

/-- A sweep move arrives (R93). -/
def Ev.sweepArrives (e : Ev) (n : LineNo) (value : Nat) : Ev :=
  ((e.updFountain n fun f => { f with reached := some value, move := none, moveTimer := none }).setSweepFault n false).endFountainWait n

/-- A VALID reply of the fountain drive is judged against the sweep move in flight (R93). -/
def Ev.fountainReply (e : Ev) (n : LineNo) (position : Nat) (motion : Decode.Motion) (tag : Tag) : Ev :=
  match (e.line n).fountain.move with
  | none => e
  | some m =>
    if e.sweepQueued n || m.tag != tag then e
    else match motion with
      | .moving => e
      | .blocked => e.endSweepFault n
      | .atRest => if distance position m.value ≤ 5 then e.sweepArrives n m.value else e.endSweepFault n

end Sys2Proof.Machine
end

