-- ==== Sys2Proof/Machine/Tracking.lean ====
section
/-! DEFINITION. Following the long orders: their details and ends, supersession, and the completion test (10.2 to 10.5). -/

namespace Sys2Proof.Machine

/-- A PRESET, TRIM, SWEEP or ZERO (R171, R176). -/
def TrackedKind.isWork : TrackedKind → Bool
  | .preset _ | .trim _ | .sweep _ | .zero _ _ => true
  | .linePower _ | .checkLines _ _ => false

/-- A PRESET, TRIM or SWEEP, which a newer one supersedes (R173). -/
def TrackedKind.superseded : TrackedKind → Bool
  | .preset _ | .trim _ | .sweep _ => true
  | .zero _ _ | .linePower _ | .checkLines _ _ => false

/-- No counts yet. -/
def Counts.zero : Counts where
  bandsClamped := 0
  raised := 0
  lowered := 0
  saturated := 0

/-- How many of the zones concerned are FAULTED (R171). -/
def UnitRec.faultedAmong (r : UnitRec) (zones : List ZoneNo) : Nat := zones.countP fun z => (r.zones[z]).state == .faulted

/-- The detail of a status that is not final: the counts gathered so far (R171). -/
def OrderRecord.openDetail (o : OrderRecord) : Detail :=
  { Detail.only 0 with bandsClamped := o.counts.bandsClamped, raised := o.counts.raised, lowered := o.counts.lowered,
                       saturated := o.counts.saturated }

/-- The detail an order ends with (R171): a work order reports its counts, its faulted zones and the unit's sweep fault. -/
def OrderRecord.finalDetail (o : OrderRecord) (r : UnitRec) (cause : Cause) : Detail :=
  if o.kind.isWork then
    { o.openDetail with code := cause.code, zonesFaulted := r.faultedAmong o.zones, sweepFault := r.sweepFault }
  else Detail.only cause.code

/-- The unit's tracked order leaves its field (R172). -/
def Ev.clearTracked (e : Ev) (u : UnitNo) : Ev := e.updUnit u fun r => { r with tracked := none }

/-- The unit's waiting order leaves its field; a PRESET's staged coverage becomes absent (R29, R172). -/
def Ev.clearWaiting (e : Ev) (u : UnitNo) : Ev := e.updUnit u fun r => { r with waiting := none, staged := none }

/-- Write a slot's final status and retire it (R163, R164). -/
def Ev.endSlot (e : Ev) (o : OrderRecord) (st : Status) (d : Detail) : Ev := (e.writeStatus o.slot st d).slotFinal o.slot o.notify

/-- End the unit's RUNNING order with a status and cause; a CHECK LINES is ended by its own rules. -/
def Ev.endTracked (e : Ev) (u : UnitNo) (st : Status) (cause : Cause) : Ev :=
  match (e.unit u).tracked with
  | some o => (e.clearTracked u).endSlot o st (o.finalDetail (e.unit u) cause)
  | none => e

/-- End the unit's WAITING order, which never starts, with a status and cause (R174). -/
def Ev.endWaiting (e : Ev) (u : UnitNo) (st : Status) (cause : Cause) : Ev :=
  match (e.unit u).waiting with
  | some w => (e.clearWaiting u).endSlot w.order st (w.order.finalDetail (e.unit u) cause)
  | none => e

/-- A newer PRESET, TRIM or SWEEP supersedes the unit's older one, RUNNING or WAITING (R173). -/
def Ev.supersede (e : Ev) (u : UnitNo) : Ev := (e.endTracked u .superseded .none).endWaiting u .superseded .none

/-- End a RUNNING CHECK LINES: its slot is written once, with the lines failed, and it leaves both units' fields (R98, R103,
R104). -/
def Ev.endCheckOrder (e : Ev) (a b : LineNo) (st : Status) (cause : Cause) (failed : Nat) : Ev :=
  match (e.unit a).tracked with
  | some o => ((e.clearTracked a).clearTracked b).endSlot o st { Detail.only cause.code with linesFailed := failed }
  | none => e

/-- A zone that holds no order open: REST, HELD or FAULTED (R176). -/
def ZoneState.settled : ZoneState → Bool
  | .rest | .held | .faulted => true
  | .off | .pending | .moving => false

/-- The order is complete: every zone concerned is settled and no fountain wait remains (R176). -/
def OrderRecord.complete (o : OrderRecord) (r : UnitRec) : Bool :=
  o.kind.isWork && o.zones.all (fun z => (r.zones[z]).state.settled) && !o.fountainWait

/-- The status an order completes with (R176). -/
def OrderRecord.doneStatus (o : OrderRecord) (r : UnitRec) : Status :=
  if 0 < r.faultedAmong o.zones ∨ r.sweepFault then .doneWithFaults else .done

/-- The completion test of the unit's RUNNING work order (R176). -/
def Ev.testOrder (e : Ev) (u : UnitNo) : Ev :=
  match (e.unit u).tracked with
  | some o => if o.complete (e.unit u) then e.endTracked u (o.doneStatus (e.unit u)) .none else e
  | none => e

/-- The cause of a work order that completes with its line not ON (R177). -/
def OrderRecord.deferredCause (o : OrderRecord) (r : UnitRec) : Cause :=
  if o.zones.any fun z => (r.zones[z]).state == .pending then .movesDeferred else .none

/-- The status and detail of the unit's tracked work order at the end of its start pass: on a line not ON it completes (R177),
else it is tested (R176), and an order not complete shows `open` (R170). -/
def State.startOutcome (s : State) (u : UnitNo) (o : OrderRecord) (openStatus : Status) : Status × Detail :=
  let r := s.unit u
  if !(s.line u).inService then (o.doneStatus r, o.finalDetail r (o.deferredCause r))
  else if o.complete r then (o.doneStatus r, o.finalDetail r .none)
  else (openStatus, o.openDetail)

/-- A running work order is ended by its line (R76, R78, R177). -/
def Ev.endByLine (e : Ev) (u : UnitNo) (cause : Cause) : Ev := e.endTracked u .doneWithFaults cause

end Sys2Proof.Machine
end

