-- ==== Sys2Proof/Machine/Event.lean ====
section
/-! DEFINITION. The end of an event: the arbiter, the completion tests, the mirror blocks and the status area it owes; and an
event as a command's outcome. -/

namespace Sys2Proof.Machine

/-- The units or lines owed something, in ascending order, each once. -/
def inOrder (l : List (Fin 16)) : List (Fin 16) := (ascending 16).filter fun u => l.contains u

/-- Write a word of the status area when a field in it has changed (R166). -/
def Ev.writeIf (e : Ev) (changed : Bool) (address : Nat) (w : Word) : Ev := if changed then e.writeWords address [w] else e

/-- The parts of a watch entry that its second word shows. -/
def Watch.hitFields (w : Watch) : Option (UnitNo × ZoneNo × Nat) := w.lastHit.map fun h => (h.unit, h.zone, h.density)

/-- The words of density watch entry k, each written when a field in it has changed (R166). -/
def Ev.writeWatch (e : Ev) (base : Nat) (k : Fin 4) : Ev :=
  let old := e.start.intake.watches[k]
  let new := e.intake.watches[k]
  let at0 := base + 36 + 3 * k.val
  ((e.writeIf (decide (¬(old.enabled = new.enabled ∧ old.unit = new.unit ∧ old.low = new.low ∧ old.high = new.high))) at0
        (watchWord1 new)).writeIf (decide (old.hitFields ≠ new.hitFields)) (at0 + 1) (watchWord2 new e.freeDraws)).writeIf
    (decide (old.lastHit.map (·.scan) ≠ new.lastHit.map (·.scan))) (at0 + 2) (watchWord3 new e.freeDraws)

/-- Status words 1 to 3 and the watch entries, each word written when a field in it has changed (R166). -/
def Ev.writeChangedStatus (e : Ev) (a : Anchor) : Ev :=
  let b := a.statusBase
  let s := e.start
  let e1 := e.writeIf (statusWord1 s != statusWord1 e.toState) (b + 1) (statusWord1 e.toState)
  let e2 := e1.writeIf (decide (¬(s.intake.lastScan = e.intake.lastScan ∧ s.intake.setting = e.intake.setting
    ∧ s.port.fault = e.port.fault))) (b + 2) (statusWord2 e.toState)
  let e3 := e2.writeIf (statusWord3 s != statusWord3 e.toState) (b + 3) (statusWord3 e.toState)
  let e4 := (ascending 4).foldl (fun e k => e.writeWatch b k) e3
  { e4 with freeDraws := e4.freeDraws + 1 }

/-- The status entry of line n (R95, R166). -/
def Ev.writeLine (e : Ev) (a : Anchor) (n : LineNo) : Ev := e.writeWords (a.statusBase + 4 + 2 * n.val) (lineEntry (e.line n))

/-- What the event owes the exchange memory is written, while the part is ATTACHED (R72, R95, R165, R166). -/
def Ev.flush (e : Ev) : Ev :=
  let e' : Ev := match e.attached, e.port.anchor with
    | true, some a =>
      let e1 := (inOrder e.mirrorDue).foldl (fun e u => e.writeMirror a u) e
      (inOrder e.lineDue).foldl (fun e n => e.writeLine a n) (e1.writeChangedStatus a)
    | _, _ => e
  { e' with mirrorDue := [], lineDue := [], start := e'.toState }

/-- The completion tests the event owes (R12, R176). -/
def Ev.runTests (e : Ev) : Ev := { (inOrder e.testDue).foldl (fun e u => e.testOrder u) e with testDue := [] }

/-- The end of an event: the arbiter runs if it is due, orders are tested, and what is owed is written (R12, R46, R50). -/
def Ev.settle (e : Ev) : Ev := e.settleArbiter.runTests.flush

/-- A state as an event finds it, the writes of the event before being finished (log entry 24). -/
def State.writesDone (s : State) : State := { s with unfinished := [] }

/-- The outcome of a command that is an event of the part. A part ATTACHED to regions where no memory exists faults. -/
def act (s : State) (f : Ev → Ev) : Host.Outcome State Fault Refusal :=
  if s.regionsInMemory then .next (f (Ev.ofState s.writesDone)).settle.toState else .fault .regionOutsideMemory

end Sys2Proof.Machine
end

