-- ==== Sys2Proof/Machine/Opening.lean ====
section
/-! DEFINITION. The opening computation: the seven stages, and the passes of a PRESET, SWEEP, TRIM and ZERO (chapters 2, 3.7
and 7.5). -/

namespace Sys2Proof.Machine

/-! ### Stage 1: band integration (R26 to R28) -/

/-- The length of the intersection of two intervals, 0 when they do not meet (R27). -/
def overlap (left1 right1 left2 right2 : Int) : Nat := (min right1 right2 - max left1 left2).toNat

/-- A band value above 10,000 is replaced by 10,000 (R26). -/
def clampBand (v : Nat) : Nat := if 10000 < v then 10000 else v

/-- How many band values lie above 10,000 (R26). -/
def bandsClamped (bands : List Nat) : Nat := bands.countP fun v => decide (10000 < v)

/-- The sum over the bands of value times overlap with the interval `left` to `right`, the first band starting at `start`
(R27). -/
def bandSum (width : Nat) (left right : Int) : Int → List Nat → Nat
  | _, [] => 0
  | start, v :: vs => clampBand v * overlap start (start + width) left right + bandSum width left right (start + width) vs

/-- Stage 1: the coverage of zone z (R27, R28). -/
def zoneCoverage (pitch width : Nat) (origin : Int) (bands : List Nat) (z : ZoneNo) : Nat :=
  roundHalfUp (bandSum width (pitch * z.val : Nat) (pitch * (z.val + 1) : Nat) origin bands) pitch

/-- The staged coverage of a unit of Z zones: 0 above Z (R27). -/
def stagedCoverage (c : UnitConfig) (o : PresetOperands) (bands : List Nat) : Vector Nat 64 :=
  Vector.ofFn fun z : ZoneNo => if z.val < c.zoneCount then zoneCoverage c.pitch o.bandWidth o.origin bands z else 0

/-! ### Stages 2 to 6 (R31 to R37) -/

/-- Ordinate yi of a curve. -/
def ordinate (curve : Vector Nat 11) (i : Nat) : Nat := curve.toList.getD i 0

/-- Stage 2: the opening of a coverage at the reference sweep (R31). -/
def curveValue (curve : Vector Nat 11) (c : Nat) : Nat :=
  if 10000 ≤ c then ordinate curve 10
  else
    let i := c / 1000
    roundHalfUp (1000 * ordinate curve i + (ordinate curve (i + 1) - ordinate curve i) * (c - 1000 * i)) 1000

/-- Stage 3: a zone's base from its stage-2 value and its neighbours' (R32). -/
def spreadValue (k value left right : Nat) : Nat :=
  (clampInt 0 1000 (value + roundHalfAway (k * (2 * value - left - right : Int)) 1000)).toNat

/-- The bases of zones 1 to Z: an edge zone stands for its own missing neighbour (R32). -/
def zoneBase (c : UnitConfig) (values : Vector Nat 64) (z : ZoneNo) : Nat :=
  let v := values[z]
  let left := if z.val = 0 then v else values.toList.getD (z.val - 1) 0
  let right := if z.val + 1 < c.zoneCount then values.toList.getD (z.val + 1) 0 else v
  spreadValue c.spread v left right

/-- The zones 1 to Z, in ascending order. -/
def zonesBelow (zoneCount : Nat) : List ZoneNo := (ascending 64).filter fun z => decide (z.val < zoneCount)

/-- The largest base among the zones 1 to Z whose coverage is at or above the idle threshold, or none (R34). -/
def demandingBase (c : UnitConfig) (coverage bases : Vector Nat 64) : Option Nat :=
  (zonesBelow c.zoneCount).foldl (fun m z => if c.idleThreshold ≤ coverage[z] then some (max (m.getD 0) bases[z]) else m) none

/-- Stage 4 in AUTO mode (R34). -/
def autoSweep (c : UnitConfig) (coverage bases : Vector Nat 64) : Nat :=
  match demandingBase c coverage bases with
  | some m => max c.sMin (ceilDiv (m * 500) c.oCap)
  | none => c.sMin

/-- Stage 4 at a PRESET start (R33, R34). -/
def chooseSweep (c : UnitConfig) (coverage bases : Vector Nat 64) : Nat :=
  match c.sweepMode with
  | .fixed => c.fixedSweep
  | .auto => autoSweep c coverage bases

/-- Stage 5: sweep scaling (R36). -/
def scaledValue (base s : Nat) : Nat := min 1000 (roundHalfUp (base * 500) s)

/-- Stage 6: the idle floor (R37). -/
def planValue (c : UnitConfig) (coverage base s : Nat) : Nat :=
  if coverage < c.idleThreshold then c.idleOpening else scaledValue base s

/-! ### Stage 7 (R38, R39) -/

/-- The target of a plan and offset: their sum clamped to o_min to o_max (R38). -/
def targetValue (c : UnitConfig) (plan : Nat) (offset : Int) : Nat := (clampInt c.oMin c.oMax (plan + offset)).toNat

/-- Stage 7 for one zone: its target is written and acted on, and a raised or lowered sum is counted; a zone whose plan is
absent is not treated (R38, R39). -/
def Ev.stage7 (e : Ev) (u : UnitNo) (z : ZoneNo) : Ev :=
  match (e.zone u z).plan, (e.unit u).config with
  | some plan, some c =>
    let sum : Int := plan + (e.zone u z).offset
    let counted : Ev := { e with raised := e.raised + flag (decide (sum < c.oMin)), lowered := e.lowered + flag (decide ((c.oMax : Int) < sum)) }
    counted.newTarget u z (targetValue c plan (e.zone u z).offset)
  | _, _ => e

/-- Stage 7 for several zones, in order. -/
def Ev.stage7All (e : Ev) (u : UnitNo) (zones : List ZoneNo) : Ev := zones.foldl (fun e z => e.stage7 u z) e

/-! ### The passes (R40, R41, R138, R66) -/

/-- The curve named by a unit's curve index (R31). -/
def State.curveOf (s : State) (c : UnitConfig) : Vector Nat 11 := s.curves.toList.getD c.curve resetCurve

/-- The stage-3 values of a unit's zones from a coverage (R31, R32). -/
def State.basesOf (s : State) (c : UnitConfig) (coverage : Vector Nat 64) : Vector Nat 64 :=
  let values : Vector Nat 64 := Vector.ofFn fun z : ZoneNo => curveValue (s.curveOf c) coverage[z]
  Vector.ofFn fun z : ZoneNo => zoneBase c values z

/-- The offset policy of a PRESET for one zone (R139). -/
def applyPolicy (policy : OffsetPolicy) (r : Zone) : Zone :=
  match policy with
  | .clear => { r with offset := 0, samples := [] }
  | .keep => r

/-- The pass of a PRESET start (R40). -/
def Ev.presetPass (e : Ev) (u : UnitNo) (policy : OffsetPolicy) : Ev :=
  match (e.unit u).config, (e.unit u).staged with
  | some c, some coverage =>
    let bases := e.basesOf c coverage
    let s := chooseSweep c coverage bases
    let e1 := (e.updUnit u fun r => { r with staged := none }).updZones u fun z r =>
      if z.val < c.zoneCount then { r with coverage := some coverage[z], base := some bases[z] } else r
    let e2 := e1.handOver u s
    let e3 := e2.updZones u fun z r =>
      if z.val < c.zoneCount then applyPolicy policy { r with plan := some (planValue c coverage[z] bases[z] s) } else r
    (e3.stage7All u (zonesBelow c.zoneCount)).oweMirror u
  | _, _ => e

/-- Stages 5 and 6 of a SWEEP for one zone, from its stored base and coverage (R41). -/
def replan (c : UnitConfig) (s : Nat) (r : Zone) : Zone :=
  match r.base with
  | some b => { r with plan := some (planValue c (r.coverage.getD 0) b s) }
  | none => r

/-- The zones 1 to Z of a unit whose base is present. -/
def UnitRec.basedZones (r : UnitRec) : List ZoneNo := (zonesBelow r.zoneCount).filter fun z => (r.zones[z]).base.isSome

/-- The pass of a SWEEP (R41). -/
def Ev.sweepPass (e : Ev) (u : UnitNo) (value : Nat) : Ev :=
  match (e.unit u).config with
  | some c =>
    let e1 := e.updUnit u fun r => { r with config := some { c with sweepMode := .fixed, fixedSweep := value } }
    let e2 := e1.handOver u value
    let e3 := e2.updZones u fun z r => if z.val < c.zoneCount then replan c value r else r
    (e3.stage7All u (e3.unit u).basedZones).oweMirror u
  | none => e

/-- One pair of a TRIM: the offset moves and saturates, a pair whose saturation moves the sum is counted unless the offset
already stood at that bound, and stage 7 reruns (R138). -/
def Ev.trimPair (e : Ev) (u : UnitNo) (p : ZoneNo × Int) : Ev :=
  let old := (e.zone u p.1).offset
  let new := saturateOffset (old + p.2)
  let e1 : Ev := { e with saturated := e.saturated + flag (decide (new ≠ old + p.2 ∧ new ≠ old)) }
  (e1.updZone u p.1 fun r => { r with offset := new }).stage7 u p.1

/-- The pass of a TRIM: its pairs in order (R138). -/
def Ev.trimPass (e : Ev) (u : UnitNo) (pairs : List (ZoneNo × Int)) : Ev :=
  (pairs.foldl (fun e p => e.trimPair u p) e).oweMirror u

/-- A MOVING zone's POSITION move is redirected to the zero stop (R66). -/
def Ev.redirectToZero (e : Ev) (u : UnitNo) (z : ZoneNo) : Ev :=
  if e.frameQueued u z then
    (e.updQueue u fun q => { q with motion := q.motion.map (moveToZero z) }).updZone u z fun r =>
      { r with moveKind := some .zero, commanded := some 0, attempts := 0, moveTimer := some (e.unit u).moveTimeout }
  else e.sendZero u z

/-- A ZERO order treats one zone by its state (R66). -/
def Ev.zeroZone (e : Ev) (u : UnitNo) (z : ZoneNo) : Ev :=
  match (e.zone u z).state with
  | .rest => e.enterPending u z .zero
  | .pending =>
    e.updLine u fun l => { l with pendingList := l.pendingList.map fun p => if p.zone = z then { p with kind := .zero } else p }
  | .moving => if (e.zone u z).moveKind = some .zero then e else e.redirectToZero u z
  | .held | .faulted | .off => e

/-- The pass of a ZERO: the zones of its range in ascending order (R66). -/
def Ev.zeroPass (e : Ev) (u : UnitNo) (first last : Nat) : Ev := (zoneRange first last).foldl (fun e z => e.zeroZone u z) e

/-! ### The start of a work order (R174, R176, R177) -/

/-- The start pass of an order, by its kind. -/
def Ev.startPass (e : Ev) (u : UnitNo) : TrackedKind → Ev
  | .preset policy => e.presetPass u policy
  | .trim pairs => e.trimPass u pairs
  | .sweep value => e.sweepPass u value
  | .zero first last => e.zeroPass u first last
  | .linePower _ | .checkLines _ _ => e

/-- A PRESET or SWEEP waits for the fountain when a sweep move to the current sweep is in flight after the hand-over (R35,
R176). -/
def State.fountainWaits (s : State) (u : UnitNo) : TrackedKind → Bool
  | .preset _ | .sweep _ => ((s.unit u).currentSweep.map fun v => s.sweepInFlight u v).getD false
  | .trim _ | .zero _ _ | .linePower _ | .checkLines _ _ => false

/-- An order with what its pass has counted added (R39, R138). -/
def OrderRecord.counted (o : OrderRecord) (e : Ev) : OrderRecord :=
  { o with counts := { o.counts with raised := o.counts.raised + e.raised, lowered := o.counts.lowered + e.lowered,
                                     saturated := o.counts.saturated + e.saturated } }

/-- An order starts: its pass runs and it becomes the unit's tracked order (R172, R174). -/
def Ev.startOrder (e : Ev) (u : UnitNo) (o : OrderRecord) : Ev :=
  let e1 : Ev := { e with raised := 0, lowered := 0, saturated := 0 }
  let e2 := (e1.updUnit u fun r => { r with waiting := none }).startPass u o.kind
  let o' := { o.counted e2 with fountainWait := e2.fountainWaits u o.kind }
  e2.updUnit u fun r => { r with tracked := some o' }

/-- The order just started leaves its field when its start has completed it (R176, R177). -/
def Ev.closeStart (e : Ev) (u : UnitNo) (st : Status) : Ev := if st.final then e.clearTracked u else e

/-- A waiting order starts at the sheet mark or counter load that released it: its status becomes RUNNING, or final when it
completes in the pass of its start (R170, R174). -/
def Ev.startWaiting (e : Ev) (u : UnitNo) (o : OrderRecord) : Ev :=
  let e1 := e.startOrder u o
  match (e1.unit u).tracked with
  | some o' =>
    let r := e1.startOutcome u o' .running
    let e2 := (e1.closeStart u r.1).writeStatus o'.slot r.1 r.2
    if r.1.final then e2.slotFinal o'.slot o'.notify else e2
  | none => e1

/-- The order processor examines every waiting order: one whose at-sheet value the counter has reached is released (R141, R146, R174). At a
sheet mark, which keeps `released`, an order released before stays so; at a counter load every order is judged afresh, and one whose value
lies after the loaded counter keeps waiting (R147, log entry 7). -/
def Ev.releaseWaiting (e : Ev) (keep : Bool) : Ev :=
  let counter := e.timing.counter
  { e with units := Vector.ofFn fun u : UnitNo =>
      { e.units[u] with waiting := (e.units[u]).waiting.map fun w =>
          { w with released := (keep && w.released) || atOrAfter counter w.atSheet } } }

end Sys2Proof.Machine
end

