-- ==== Sys2Proof/Machine/Intake.lean ====
section
/-! DEFINITION. The reading intake, the correction loop and the reading store: frames of the scan link, the coding and sampling
of readings, correction steps, density watch, and scan records (chapters 6, 7 and 9.8). -/

namespace Sys2Proof.Machine

/-! ### The reading store (R167, R168) -/

/-- The first word of the current segment: its header. -/
def State.segmentBase (s : State) (a : Anchor) : Nat := a.storeBase + s.port.segment * a.segmentSize

/-- A record is written from the fill point on, and the header then counts it (R167). -/
def Ev.appendRecord (e : Ev) (a : Anchor) (o : OpenSegment) (record : List Word) : Ev :=
  let base := e.segmentBase a
  let o' : OpenSegment := { o with fillPoint := o.fillPoint + record.length, records := o.records + 1 }
  ((e.writeWords (base + o.fillPoint) record).writeWords base [segmentHeader false o'.records o.sequence]).updPort fun p =>
    { p with openSegment := some o' }

/-- The record is lost (R168). -/
def Ev.loseRecord (e : Ev) : Ev := (e.updPort fun p => { p with lostScans := countUp p.lostScans }).raise .storeOverrun

/-- A segment is opened: its header is written EMPTY with no record and the fill sequence counter's value, and the counter rises
(R167). -/
def Ev.openSegment (e : Ev) (a : Anchor) : Ev :=
  let o : OpenSegment := { fillPoint := 1, records := 0, sequence := e.port.fillSequence }
  (e.writeWords (e.segmentBase a) [segmentHeader false o.records o.sequence]).updPort fun p =>
    { p with openSegment := some o, fillSequence := p.fillSequence + 1 }

/-- Step 1 of R167: the current segment is opened when its header reads EMPTY, and takes the record; otherwise R168. -/
def Ev.openAndPlace (e : Ev) (a : Anchor) (record : List Word) : Ev :=
  if headerEmpty (Memory.read e.mem (e.segmentBase a)) then
    (e.openSegment a).appendRecord a { fillPoint := 1, records := 0, sequence := e.port.fillSequence } record
  else e.loseRecord

/-- The open segment is closed: its header is written FULL, and the next segment in cyclic order becomes the current one, not
open (R167). -/
def Ev.closeSegment (e : Ev) (a : Anchor) (o : OpenSegment) : Ev :=
  ((e.writeWords (e.segmentBase a) [segmentHeader true o.records o.sequence]).raise .segmentFull).updPort fun p =>
    { p with segment := ringNext a.segments p.segment, openSegment := none }

/-- A scan record is placed in the store while the part is ATTACHED, and dropped otherwise (R167). -/
def Ev.storeRecord (e : Ev) (record : List Word) : Ev :=
  match e.attached, e.port.anchor with
  | true, some a =>
    match e.port.openSegment with
    | none => e.openAndPlace a record
    | some o =>
      if a.segmentSize < o.fillPoint + record.length then (e.closeSegment a o).openAndPlace a record
      else e.appendRecord a o record
  | _, _ => e

/-! ### Reading codes (R115, R116) -/

/-- The two conditions of a whole COMPLETE scan (R115). -/
structure ScanJudgement where
  stale : Bool
  notPrinting : Bool
  deriving DecidableEq, Repr

/-- A scan is judged at its close (R115): stale when the counter is not at or after its measured sheet, the sheet 2^31 away included
(log entry 38), or when that sheet lies more than 1,000 before the counter. -/
def State.judgeScan (s : State) (measured : Sheet) : ScanJudgement where
  stale := !atOrAfter s.timing.counter measured || moreThanBefore 1000 measured s.timing.counter
  notPrinting := !s.timing.printing

/-- The entry codes and zone codes of R116, from OUT OF RANGE down; `measured` is the scan's measured sheet. -/
def zoneCode (r : Zone) (measured : Sheet) : Entry → ReadingCode
  | .outOfRange => .outOfRange
  | .patchAbsent => .patchAbsent
  | .density d =>
    if 3000 < d.toNat then .outOfRange
    else match r.state with
      | .held | .faulted | .off => .zoneNotMetering
      | .pending | .moving => .settling
      | .rest => if r.settleSheet.any fun b => !atOrAfter measured b then .settling else .validDensity

/-- The code of a reading of a COMPLETE scan: the first of R116's list whose condition holds. -/
def readingCode (j : ScanJudgement) (r : Zone) (measured : Sheet) (entry : Entry) : ReadingCode :=
  if j.stale then .stale else if j.notPrinting then .notPrinting else zoneCode r measured entry

/-! ### Sampling and the correction step (R118, R130 to R133) -/

/-- A density joins the front of the sample list, which holds at most eight (R118). -/
def addSample (d : Nat) (samples : List Nat) : List Nat := (d :: samples).take 8

/-- The mean of the newest A densities, rounded half up (R131). -/
def sampleMean (a : Nat) (samples : List Nat) : Nat := roundHalfUp ((samples.take a).foldl (· + ·) 0) a

/-- The error of a mean (R131). -/
def densityError (p : LoopParams) (mean : Nat) : Int := (p.targetDensity : Int) - mean

/-- The step size of an error, rounded half away and limited (R132). -/
def stepSize (p : LoopParams) (err : Int) : Int := limit p.stepMax (roundHalfAway (err * p.gain) 100)

/-- A step of size d is applied to a zone (R133). -/
def Ev.applyStep (e : Ev) (u : UnitNo) (z : ZoneNo) (p : LoopParams) (d : Int) : Ev :=
  let sheet := sheetPlus e.timing.counter p.settleW
  (e.updZone u z fun r =>
    { r with offset := saturateOffset (r.offset + d), samples := [], settleSheet := some sheet }).stage7 u z

/-- The correction loop examines a zone (R130, R131). -/
def Ev.examine (e : Ev) (u : UnitNo) (z : ZoneNo) : Ev :=
  let r := e.zone u z
  match (e.unit u).loopOn, (e.unit u).loopParams with
  | true, some p =>
    if r.state = .rest ∧ p.samplesA ≤ r.samples.length then
      let err := densityError p (sampleMean p.samplesA r.samples)
      if err.natAbs ≤ p.deadband then e.updZone u z fun r => { r with samples := [] }
      else e.applyStep u z p (stepSize p err)
    else e
  | _, _ => e

/-! ### Density watch (R124) -/

/-- A density of a unit is a hit for a watch entry (R124). -/
def Watch.hit (w : Watch) (u : UnitNo) (d : Nat) : Bool :=
  w.enabled && w.unit == some u && (w.low.any (fun b => decide (d < b)) || w.high.any fun b => decide (b < d))

/-- A watch entry after a density has been tested against it: a hit replaces its last hit (R124). -/
def Watch.tested (w : Watch) (u : UnitNo) (z : ZoneNo) (d : Nat) (scan : BitVec 16) : Watch :=
  if w.hit u d then { w with lastHit := some { unit := u, zone := z, density := d, scan := scan } } else w

/-- A VALID DENSITY is tested against every watch entry (R124). -/
def Ev.testWatches (e : Ev) (u : UnitNo) (z : ZoneNo) (d : Nat) (scan : BitVec 16) : Ev :=
  e.updIntake fun i => { i with watches := Vector.ofFn fun k : Fin 4 => (i.watches[k]).tested u z d scan }

/-- Some watch entry is hit by a density of a unit. -/
def Intake.anyHit (i : Intake) (u : UnitNo) (d : Nat) : Bool := (ascending 4).any fun k => (i.watches[k]).hit u d

/-! ### The treatment of a scan (R117) -/

/-- A treatment in progress: the event, the readings of the unit in hand with their codes, the last first, the groups of the
units treated, the last first, and whether any reading was a hit. -/
structure Treatment where
  ev : Ev
  readings : List (Entry × ReadingCode)
  groups : List (UnitNo × List (Entry × ReadingCode))
  hit : Bool

/-- A VALID DENSITY: it is sampled, offered to the correction loop and tested against the watch entries (R117). -/
def Ev.takeDensity (e : Ev) (u : UnitNo) (z : ZoneNo) (d : Nat) (scan : BitVec 16) : Ev :=
  ((e.updZone u z fun r => { r with samples := addSample d r.samples }).examine u z).testWatches u z d scan

/-- The treatment of one zone, whole (R117). -/
def Treatment.zone (t : Treatment) (j : ScanJudgement) (scan : OpenScan) (u : UnitNo) (z : ZoneNo) (entry : Entry) : Treatment :=
  let code := readingCode j (t.ev.zone u z) scan.sheet entry
  let t1 := { t with readings := (entry, code) :: t.readings }
  match code, entry with
  | .validDensity, .density d =>
    { t1 with ev := t.ev.takeDensity u z d.toNat scan.number, hit := t.hit || t.ev.intake.anyHit u d.toNat }
  | _, _ => t1

/-- The entries of a block that become readings, each with its zone: entry i belongs to zone i, up to the unit's Z (R116). -/
def zonedEntries (zoneCount : Nat) (entries : List Entry) : List (ZoneNo × Entry) := (zonesBelow zoneCount).zip entries

/-- The treatment of one unit's readings: zone by zone, and then the arbiter if a zone joined the list (R117, R133). -/
def Treatment.unit (t : Treatment) (j : ScanJudgement) (scan : OpenScan) (u : UnitNo) : Treatment :=
  match scan.blocks[u] with
  | none => t
  | some entries =>
    let t1 := (zonedEntries (t.ev.unit u).zoneCount entries).foldl (fun t p => t.zone j scan u p.1 p.2) { t with readings := [] }
    { t1 with ev := t1.ev.settleArbiter, groups := (u, t1.readings.reverse) :: t1.groups, readings := [] }

/-- The groups of a scan that ended as LINK FAULT: every reading is coded LINK FAULT (R114, R116). -/
def State.faultGroups (s : State) (scan : OpenScan) : List (UnitNo × List (Entry × ReadingCode)) :=
  (ascending 16).filterMap fun u => (scan.blocks[u]).map fun entries =>
    (u, (zonedEntries (s.unit u).zoneCount entries).map fun p => (p.2, ReadingCode.linkFault))

/-- A scan has ended: its record is handed to the port, the last scan number becomes its number, the timer is cancelled and the
scan state becomes IDLE (R114, R125, R126). -/
def Ev.closeScan (e : Ev) (scan : OpenScan) (outcome : ScanOutcome) (groups : List (UnitNo × List (Entry × ReadingCode))) : Ev :=
  (e.storeRecord (scanRecord scan e.timing.counter outcome groups)).updIntake fun i =>
    { i with scan := none, scanTimer := none, lastScan := some scan.number }

/-- A scan closes COMPLETE: it is judged, its units are treated in ascending order, and DENSITY WATCH is raised once if a
reading was a hit (R113, R115, R117, R124). -/
def Ev.completeScan (e : Ev) (scan : OpenScan) : Ev :=
  let j := e.judgeScan scan.sheet
  let t := (ascending 16).foldl (fun t u => Treatment.unit t j scan u) { ev := e, readings := [], groups := [], hit := false }
  let e1 := if t.hit then t.ev.raise .densityWatch else t.ev
  e1.closeScan scan .complete t.groups.reverse

/-- The link fault count rises by one, and stays at 65,535 once there (R126). -/
def Ev.countLinkFault (e : Ev) : Ev := e.updIntake fun i => { i with linkFaults := countUp i.linkFaults }

/-- A scan ends as LINK FAULT (R114). -/
def Ev.faultScan (e : Ev) (scan : OpenScan) (cause : ScanOutcome) : Ev :=
  ((e.closeScan scan cause (e.faultGroups scan)).countLinkFault).raise .scanFault

/-! ### Frames (R110 to R114, R121, R122) -/

/-- A scan opens: the buffer takes the frame's number and sheet, and the timer runs for 500 ms (R110). -/
def Ev.openScan (e : Ev) (number : BitVec 16) (sheet : Sheet) : Ev :=
  e.updIntake fun i =>
    { i with setting := .on, scanTimer := some 500,
             scan := some { number := number, sheet := sheet, sum := checkSum (scanOpenWords number sheet),
                            blocks := Vector.replicate 16 none } }

/-- A SCAN OPEN arrives (R110, R121, R122). -/
def Ev.scanOpen (e : Ev) (number : BitVec 16) (sheet : Sheet) : Ev :=
  match e.intake.setting with
  | .off => e
  | .armed => e.openScan number sheet
  | .on => match e.intake.scan with
    | some scan => (e.faultScan scan .secondOpen).openScan number sheet
    | none => e.openScan number sheet

/-- An unreadable frame arrives (R112, R121, R122). -/
def Ev.unreadable (e : Ev) : Ev :=
  match e.intake.setting with
  | .off | .armed => e
  | .on => match e.intake.scan with
    | some scan => e.faultScan scan .badFrame
    | none => e.countLinkFault

/-- A block joins an open scan: its words join the check sum, and it is stored for a defined unit (R111). -/
def State.addBlock (s : State) (scan : OpenScan) (unit : BitVec 8) (entries : List Entry) : OpenScan :=
  let summed := { scan with sum := scan.sum + checkSum (unitBlockWords unit entries) }
  match Decode.unitOfNumber unit.toNat with
  | some u => if (s.unit u).defined then { summed with blocks := summed.blocks.set u (some entries) } else summed
  | none => summed

/-- A UNIT BLOCK arrives; one whose reading count is 0 or above 64 is an unreadable frame (R108, R111, R112, R121, R122). -/
def Ev.unitBlock (e : Ev) (unit : BitVec 8) (entries : List Entry) : Ev :=
  if !readableBlock entries then e.unreadable
  else match e.intake.setting with
    | .off | .armed => e
    | .on => match e.intake.scan with
      | some scan => e.updIntake fun i => { i with scan := some (e.addBlock scan unit entries) }
      | none => e.countLinkFault

/-- A SCAN CLOSE arrives (R112, R113, R121, R122). -/
def Ev.scanClose (e : Ev) (checkWord : Word) : Ev :=
  match e.intake.setting with
  | .off | .armed => e
  | .on => match e.intake.scan with
    | some scan => if checkWord = scan.sum then e.completeScan scan else e.faultScan scan .badCheck
    | none => e.countLinkFault

/-- SCAN_OPEN. -/
def execScanOpen (host : List HostWrite) (number : BitVec 16) (sheet : Sheet) (s : State) : Host.Outcome State Fault Refusal :=
  act s fun e => (e.hostWrites host).scanOpen number sheet

/-- UNIT_BLOCK. -/
def execUnitBlock (unit : BitVec 8) (entries : List Entry) (s : State) : Host.Outcome State Fault Refusal :=
  act s fun e => e.unitBlock unit entries

/-- SCAN_CLOSE. -/
def execScanClose (host : List HostWrite) (checkWord : Word) (s : State) : Host.Outcome State Fault Refusal :=
  act s fun e => (e.hostWrites host).scanClose checkWord

/-- UNREADABLE_FRAME. -/
def execUnreadableFrame (host : List HostWrite) (s : State) : Host.Outcome State Fault Refusal :=
  act s fun e => (e.hostWrites host).unreadable

/-- SCAN_TIMEOUT. With no scan OPEN the scan timer does not run (R114, log entry 5). -/
def execScanTimeout (host : List HostWrite) (s : State) : Host.Outcome State Fault Refusal :=
  act s fun e =>
    let e1 := e.hostWrites host
    match e1.intake.scan with
    | some scan => if e1.intake.scanTimer.isSome then e1.faultScan scan .timeout else e1
    | none => e1

end Sys2Proof.Machine
end

