-- ==== Sys2Proof/Machine/CheckUnit.lean ====
section
/-! DEFINITION. The line check unit: phases, findings, the end of a check and its abort; the check phase expiry event (chapter
5). -/

namespace Sys2Proof.Machine

/-- The failure results (R96). -/
def CheckResult.failure : CheckResult → Bool
  | .shortToSupply | .shortToGround | .crossCoupled => true
  | .notChecked | .passed | .incomplete => false

/-- How long a phase lasts, in ms (R99, R104). -/
def CheckPhase.duration : CheckPhase → Nat
  | .drain | .energizeA | .energizeB => 50
  | .drainA | .drainB | .abortDrain => 20

/-- A check begins a phase, its timer running for the phase's duration (R99). -/
def CheckRun.enter (c : CheckRun) (p : CheckPhase) : CheckRun := { c with phase := p, timer := some p.duration }

/-- A finding, once made, is not replaced (R101). -/
def orFinding (old : Option CheckResult) (new : CheckResult) : Option CheckResult := some (old.getD new)

/-- The tests at the end of DRAIN (R100): a line whose undervoltage sense is not asserted is SHORT TO SUPPLY. -/
def CheckRun.drainTests (c : CheckRun) (senseA senseB : Bool) : CheckRun :=
  { c with findingA := if senseA then c.findingA else orFinding c.findingA .shortToSupply,
           findingB := if senseB then c.findingB else orFinding c.findingB .shortToSupply }

/-- The tests at the end of an ENERGIZE phase (R101), for the finding of the energized line and of the other, in this order:
`own` and `other` are their undervoltage senses. -/
def energizeTests (own other : Bool) (mine theirs : Option CheckResult) : Option CheckResult × Option CheckResult :=
  let mine1 := if own then orFinding mine .shortToGround else mine
  if theirs ≠ some .shortToSupply ∧ ¬other then (orFinding mine1 .crossCoupled, orFinding theirs .crossCoupled)
  else (mine1, theirs)

/-- The tests at the end of ENERGIZE A (R101). -/
def CheckRun.testsA (c : CheckRun) (senseA senseB : Bool) : CheckRun :=
  let f := energizeTests senseA senseB c.findingA c.findingB
  { c with findingA := f.1, findingB := f.2 }

/-- The tests at the end of ENERGIZE B, the roles swapped (R101). -/
def CheckRun.testsB (c : CheckRun) (senseA senseB : Bool) : CheckRun :=
  let f := energizeTests senseB senseA c.findingB c.findingA
  { c with findingB := f.1, findingA := f.2 }

/-- ENERGIZE B is to be skipped: line b is SHORT TO SUPPLY (R99). -/
def CheckRun.skipsB (c : CheckRun) : Bool := c.findingB == some .shortToSupply

/-- The check after line a's phases: ENERGIZE B, or none when the check ends (R99). -/
def CheckRun.afterA (c : CheckRun) : Option CheckRun := if c.skipsB then none else some (c.enter .energizeB)

/-- What follows the expiry of a phase, its tests made: the next phase, or none when the check ends (R99). -/
def CheckRun.next (c : CheckRun) (senseA senseB : Bool) : CheckRun × Option CheckRun :=
  match c.phase with
  | .drain =>
    let c1 := c.drainTests senseA senseB
    (c1, if c1.findingA = some .shortToSupply then c1.afterA else some (c1.enter .energizeA))
  | .energizeA => let c1 := c.testsA senseA senseB; (c1, some (c1.enter .drainA))
  | .drainA => (c, c.afterA)
  | .energizeB => let c1 := c.testsB senseA senseB; (c1, some (c1.enter .drainB))
  | .drainB => (c, none)
  | .abortDrain => (c, none)

/-- The result a line takes from its finding at the end of a check: PASSED when there is none (R103). -/
def resultOf (finding : Option CheckResult) : CheckResult := finding.getD .passed

/-- How many of two results are failure results (R103). -/
def linesFailed (a b : CheckResult) : Nat := flag a.failure + flag b.failure

/-- A line of the pair leaves CHECK for OFF with its result (R103). -/
def Ev.leaveCheck (e : Ev) (n : LineNo) (r : CheckResult) : Ev :=
  (e.updLine n fun l => { l with power := .off, stopTaken := false, checkResult := r }).oweLine n

/-- A check ends, by its last phase or its ABORT DRAIN: both lines take their results and enter OFF, the unit becomes IDLE, and
LINE EVENT is raised (R103, R104). -/
def Ev.endCheck (e : Ev) (c : CheckRun) : Ev :=
  ((((e.leaveCheck c.lineA (resultOf c.findingA)).leaveCheck c.lineB (resultOf c.findingB)).setCheck none)).raise .lineEvent

/-- The CHECK LINES order completes with the check (R103); in ABORT DRAIN it has ended before (R104). -/
def Ev.completeCheck (e : Ev) (c : CheckRun) : Ev :=
  let failed := linesFailed (resultOf c.findingA) (resultOf c.findingB)
  if c.phase = .abortDrain then e
  else e.endCheckOrder c.lineA c.lineB (if failed = 0 then .done else .doneWithFaults) .none failed

/-- Every test that applies to the lines has been made: in DRAIN B, or in DRAIN A when ENERGIZE B is to be skipped (R104). -/
def CheckRun.testsComplete (c : CheckRun) : Bool := c.phase == .drainB || (c.phase == .drainA && c.skipsB)

/-- A line without a finding is marked PASSED or INCOMPLETE at an abort (R104). -/
def CheckRun.mark (c : CheckRun) (finding : Option CheckResult) : Option CheckResult :=
  orFinding finding (if c.testsComplete then .passed else .incomplete)

/-- The check is aborted: both lines are pulled down, marked, and ABORT DRAIN begins (R104). The order slot becomes absent here, with
the order's end (log entry 36). -/
def CheckRun.abort (c : CheckRun) : CheckRun :=
  { c with findingA := c.mark c.findingA, findingB := c.mark c.findingB, orderSlot := none,
           phase := .abortDrain, timer := some CheckPhase.abortDrain.duration }

/-- A running check is aborted and its order is written ABORTED with this cause (R104, R105). -/
def Ev.abortCheck (e : Ev) (cause : Cause) : Ev :=
  match e.check with
  | some c =>
    if c.phase = .abortDrain then e
    else (e.setCheck (some c.abort)).endCheckOrder c.lineA c.lineB .aborted cause
      (linesFailed (resultOf c.abort.findingA) (resultOf c.abort.findingB))
  | none => e

/-- The check's phase timer expires (R99 to R101, R103, R104). -/
def Ev.checkPhaseExpiry (e : Ev) (senseA senseB : Bool) : Ev :=
  match e.check with
  | some c =>
    match c.next senseA senseB with
    | (_, some c2) => e.setCheck (some c2)
    | (c1, none) => (e.completeCheck c1).endCheck c1
  | none => e

/-- CHECK_PHASE_EXPIRY. With no check running no phase timer runs, and nothing changes (log entry 5). -/
def execCheckPhaseExpiry (senseA senseB : Bool) (s : State) : Host.Outcome State Fault Refusal :=
  act s fun e => e.checkPhaseExpiry senseA senseB

/-- The overcurrent sense of a line in CHECK: asserted on the line energized in an ENERGIZE phase, it ends the phase at once
with SHORT TO GROUND and no coupling test; elsewhere it is ignored (R102). -/
def CheckRun.overcurrent (c : CheckRun) (n : LineNo) : CheckRun :=
  match c.phase with
  | .energizeA => if c.lineA = n then { c with findingA := orFinding c.findingA .shortToGround }.enter .drainA else c
  | .energizeB => if c.lineB = n then { c with findingB := orFinding c.findingB .shortToGround }.enter .drainB else c
  | .drain | .drainA | .drainB | .abortDrain => c

end Sys2Proof.Machine
end

