-- ==== Sys2Proof/Machine/Lines.lean ====
section
/-! DEFINITION. Events of the key lines: the start timer, line cycles, reply slots, modules, timeouts and trips (chapter 4,
3.6). -/

namespace Sys2Proof.Machine

open Decode

/-! ### Line cycles and the start of service (R75, R77, R80) -/

/-- A line cycle is due: the line is ON, and no cycle of it is in progress (R80; log entry 16). -/
def Line.cycleDue (l : Line) : Bool := l.power == .on && l.cycle.isNone

/-- The front of a command queue: the word sent, and the queue without it; IDLE when the queue is empty (R80, R82). -/
def CommandQueue.front (q : CommandQueue) : Word × CommandQueue :=
  if q.haltAll then (haltAllFrame, { q with haltAll := false })
  else match q.halts, q.motion with
    | z :: hs, _ => (haltFrame z, { q with halts := hs })
    | [], f :: fs => (motionWord f, { q with motion := fs })
    | [], [] => (idleFrame, q)

/-- The frame of the third band that a cycle sends, if it sends one. -/
def CommandQueue.motionSent (q : CommandQueue) : Option MotionFrame := if q.haltAll || !q.halts.isEmpty then none else q.motion.head?

/-- A MOVE, ZERO or SWEEP that is sent sets the sent tag of its key or of the fountain drive (R54). -/
def Line.noteSent (l : Line) : Option MotionFrame → Line
  | some (.move z _ t) => { l with keyTags := l.keyTags.set z { l.keyTags[z] with sent := t } }
  | some (.zero z t) => { l with keyTags := l.keyTags.set z { l.keyTags[z] with sent := t } }
  | some (.sweep _ t) => { l with fountainTags := { l.fountainTags with sent := t } }
  | none => l

/-- A line cycle begins: the front frame is sent, and the nine reply slots follow. With stop taken it is the last (R77, R80). -/
def Line.beginCycle (l : Line) : Line :=
  let l1 := l.noteSent l.queue.motionSent
  { l1 with queue := l.queue.front.2, sentFrame := some l.queue.front.1, cycle := some { slot := 0, last := l.stopTaken } }

/-- A RUNNING LINE POWER of unit n to this setting completes DONE (R75, R77). -/
def Ev.endLinePower (e : Ev) (n : LineNo) (on : Bool) : Ev :=
  match (e.unit n).tracked with
  | some o => if o.kind = .linePower on then e.endTracked n .done .none else e
  | none => e

/-- A line enters ON (R75): its missed cycles are 0; while the part is ATTACHED the fountain is pursued and then the arbiter runs; the
line's first cycle begins; a LINE POWER ON is DONE. -/
def Ev.bringIntoService (e : Ev) (n : LineNo) : Ev :=
  let e1 := (e.updLine n fun l => { l with startTimer := none, power := .on }).updModules n fun m => { m with missed := 0 }
  let e2 := if e1.attached then (e1.pursueAfresh n).runArbiter else e1
  ((e2.updLine n Line.beginCycle).endLinePower n true).oweLine n

/-- A line's start timer expires: with stop taken no the line is brought into service (R75), with stop taken yes its last cycle
begins (R77). -/
def Ev.startTimerExpiry (e : Ev) (n : LineNo) : Ev :=
  if (e.line n).stopTaken then e.updLine n fun l => Line.beginCycle { l with startTimer := none } else e.bringIntoService n

/-- START_TIMER_EXPIRY. A line whose start timer does not run has no expiry (log entry 5). -/
def execStartTimerExpiry (n : LineNo) (s : State) : Host.Outcome State Fault Refusal :=
  act s fun e => if (e.line n).startTimer.isSome then e.startTimerExpiry n else e

/-- LINE_CYCLE. When no cycle is due nothing changes (log entry 5). -/
def execLineCycle (n : LineNo) (s : State) : Host.Outcome State Fault Refusal :=
  act s fun e => if (e.line n).cycleDue then e.updLine n Line.beginCycle else e

/-! ### Reply slots (R85 to R91) -/

/-- A field of a reply lies outside the values a reply at the slot's address may carry (R85). -/
def replyMalformed (slot : Fin 9) (r : Reply) : Bool :=
  (if slot = 0 then r.key != 0 else !within 1 8 r.key) || decide (1000 < r.position) || r.motion.isNone

/-- The judgement of a slot at the close of its window, the outcome highest in the order of R86 (R85). -/
def judgeSlot (slot : Fin 9) : Reception → SlotOutcome
  | .silent => .noReply
  | .reply w late =>
    let r := replyOfWord w
    if r.address ≠ slot.val then .wrongModule
    else if !replyCheckAgrees w || replyMalformed slot r then .checkError
    else if late then .late
    else .valid

/-- The zone a reply of key j of module m names: 8·(m − 1) + j (R5). -/
def zoneOfReply (slot : Fin 9) (key : Nat) : Option ZoneNo :=
  if slot = 0 then none else zoneOfNumber (8 * (slot.val - 1) + key)

/-- The reported tag of the key or fountain drive becomes the reply's (R54). -/
def Ev.noteReported (e : Ev) (n : LineNo) (slot : Fin 9) (r : Reply) : Ev :=
  if slot = 0 then e.updLine n fun l => { l with fountainTags := { l.fountainTags with reported := r.tag } }
  else match zoneOfReply slot r.key with
    | some z => e.updLine n fun l => { l with keyTags := l.keyTags.set z { l.keyTags[z] with reported := r.tag } }
    | none => e

/-- A VALID reply of a key module: its position is written and it is matched against the zone's move (R5, R87). -/
def Ev.handOnKey (e : Ev) (n : LineNo) (slot : Fin 9) (r : Reply) (motion : Motion) : Ev :=
  match zoneOfReply slot r.key with
  | some z =>
    if z.val < (e.unit n).zoneCount then
      (e.updZone n z fun q => { q with position := some r.position }).keyReply n z r.position motion r.tag
    else e
  | none => e

/-- A VALID reply is handed on according to its address (R87). -/
def Ev.handOn (e : Ev) (n : LineNo) (slot : Fin 9) (r : Reply) : Ev :=
  match r.motion with
  | some motion =>
    if slot = 0 then (if (e.unit n).defined then e.fountainReply n r.position motion r.tag else e)
    else e.handOnKey n slot r motion
  | none => e

/-- The zones of key module m (0.6). -/
def zonesOfModule (slot : Fin 9) : List ZoneNo := (ascending 64).filter fun z => moduleOf z = slot

/-- A key module goes MISSING: its zones are taken out of metering, in ascending order (R21). -/
def Ev.loseModule (e : Ev) (n : LineNo) (slot : Fin 9) : Ev := (zonesOfModule slot).foldl (fun e z => e.loseZone n z) e

/-- The fountain drive goes MISSING: the sweep fault is set, and a sweep move in flight ends with a fault (R22, R90, R94). -/
def Ev.loseFountain (e : Ev) (n : LineNo) : Ev :=
  if (e.line n).fountain.move.isSome then e.endSweepFault n else e.setSweepFault n true

/-- A module becomes MISSING (R90). -/
def Ev.moduleMissing (e : Ev) (n : LineNo) (slot : Fin 9) : Ev :=
  ((if slot = 0 then e.loseFountain n else e.loseModule n slot).raise .lineEvent).oweLine n

/-- Update one module record. -/
def Ev.updModule (e : Ev) (n : LineNo) (slot : Fin 9) (f : ModuleRec → ModuleRec) : Ev :=
  e.updLine n fun l => { l with modules := l.modules.set slot (f l.modules[slot]) }

/-- A slot that is not VALID: a PRESENT module misses a cycle, and at sixteen becomes MISSING (R90). -/
def Ev.slotMissed (e : Ev) (n : LineNo) (slot : Fin 9) : Ev :=
  let m := (e.line n).modules[slot]
  if m.state = .present then
    if 16 ≤ m.missed + 1 then (e.updModule n slot fun m => { m with missed := 16, state := .missing }).moduleMissing n slot
    else e.updModule n slot fun m => { m with missed := m.missed + 1 }
  else e

/-- A VALID slot: a PRESENT module's missed cycles become 0 and its reply is handed on (R87, R90); a MISSING module becomes
PRESENT as well, with LINE EVENT, and a returned fountain is pursued (R91). -/
def Ev.slotValid (e : Ev) (n : LineNo) (slot : Fin 9) (r : Reply) : Ev :=
  match ((e.line n).modules[slot]).state with
  | .present => ((e.updModule n slot fun m => { m with missed := 0 }).noteReported n slot r).handOn n slot r
  | .notExpected => (e.noteReported n slot r).handOn n slot r
  | .missing =>
    let e1 := ((e.updModule n slot fun m => { m with missed := 0, state := .present }).noteReported n slot r).handOn n slot r
    let e2 := (e1.raise .lineEvent).oweLine n
    if slot = 0 then e2.pursueAfresh n else e2

/-- After its last cycle a line is de-energized and enters OFF, its queue emptied and its outcomes LINE NOT ON, and a running
LINE POWER OFF completes (R77). -/
def Ev.lastCycleEnd (e : Ev) (n : LineNo) : Ev :=
  let e1 := (e.updLine n fun l => { l with power := .off, stopTaken := false, queue := CommandQueue.empty, cycle := none }).updModules n
    fun m => { m with lastOutcome := .lineNotOn }
  (e1.endLinePower n false).oweLine n

/-- The cycle moves on to its next slot, or ends after the slot of address 8 (R77, R80). -/
def Ev.advanceCycle (e : Ev) (n : LineNo) (c : Cycle) : Ev :=
  if h : c.slot.val < 8 then e.updLine n fun l => { l with cycle := some { c with slot := ⟨c.slot.val + 1, by omega⟩ } }
  else if c.last then e.lastCycleEnd n
  else e.updLine n fun l => { l with cycle := none }

/-- The window of a cycle's next slot closes: the slot is judged, recorded and handed on whole, and the cycle moves on (R85,
R87). -/
def Ev.judge (e : Ev) (n : LineNo) (c : Cycle) (input : Reception) : Ev :=
  let outcome := judgeSlot c.slot input
  let e1 := e.updModule n c.slot fun m => { m with lastOutcome := outcome }
  let e2 := match outcome, input with
    | .valid, .reply w _ => e1.slotValid n c.slot (replyOfWord w)
    | _, _ => e1.slotMissed n c.slot
  e2.advanceCycle n c

/-- REPLY_SLOT. Traffic outside every slot window is ignored (R85). -/
def execReplySlot (n : LineNo) (input : Reception) (s : State) : Host.Outcome State Fault Refusal :=
  act s fun e => match (e.line n).cycle with
    | some c => e.judge n c input
    | none => e

/-! ### Timeouts (R64, R94) -/

/-- MOVE_TIMEOUT. A zone whose move timer does not run has no expiry (R63, log entry 5). -/
def execMoveTimeout (u : UnitNo) (z : ZoneNo) (s : State) : Host.Outcome State Fault Refusal :=
  act s fun e => if (e.zone u z).state = .moving ∧ (e.zone u z).moveTimer.isSome then e.stallZone u z else e

/-- SWEEP_TIMEOUT. A fountain with no sweep move in flight has no expiry (R92, log entry 5). -/
def execSweepTimeout (n : LineNo) (s : State) : Host.Outcome State Fault Refusal :=
  act s fun e => if (e.line n).fountain.move.isSome ∧ (e.line n).fountain.moveTimer.isSome then e.endSweepFault n else e

/-! ### Overcurrent (R78, R79, R102) -/

/-- The misses counted in a line's cycle in progress are taken back (R78, R90): at each slot judged in it, not VALID, whose module is
PRESENT. A module that the cycle made MISSING stays so, its missed cycles at 16 (log entry 35). -/
def Line.takeBackMisses (l : Line) : Line :=
  match l.cycle with
  | some c =>
    { l with modules := Vector.ofFn fun a : Fin 9 =>
        let m := l.modules[a]
        if a < c.slot ∧ m.state = .present ∧ m.lastOutcome ≠ .valid then { m with missed := m.missed - 1 } else m }
  | none => l

/-- Line n trips (R78). -/
def Ev.trip (e : Ev) (n : LineNo) : Ev :=
  let e1 := ((e.updLine n Line.takeBackMisses).updLine n fun l =>
    { l with power := .tripped, startTimer := none, stopTaken := false, cycle := none, queue := CommandQueue.empty }).updModules n
      fun m => { m with lastOutcome := .lineTripped }
  let e2 := ((e1.returnMoving n).endSweepQuietly n).raise .lineEvent
  (e2.endByLine n .lineTripped).oweLine n

/-- The overcurrent sense acts by the line's power state: a trip in STARTING and ON, the check's in CHECK, and nothing in OFF
and TRIPPED (R78, R79, R102). -/
def Ev.overcurrent (e : Ev) (n : LineNo) : Ev :=
  match (e.line n).power with
  | .starting | .on => e.trip n
  | .check => e.setCheck (e.check.map fun c => c.overcurrent n)
  | .off | .tripped => e

/-- OVERCURRENT_SENSE. -/
def execOvercurrentSense (n : LineNo) (s : State) : Host.Outcome State Fault Refusal := act s fun e => e.overcurrent n

end Sys2Proof.Machine
end

