-- ==== Sys2Proof/Machine/Press.lean ====
section
/-! DEFINITION. The press timing unit: sheet marks, the run state, impression, the sheet watch, the interval timer, and the
start of the waiting orders it releases (chapter 8, R174). -/

namespace Sys2Proof.Machine

/-- A snapshot: while the part is ATTACHED the mirror block of every defined unit is written, the snapshot sheet becomes the sheet
counter, and word 0 and every line entry of the status area are written (R150, R166). The writes are made at once, so they stand before the
status of a SNAPSHOT order (R180). -/
def Ev.snapshot (e : Ev) : Ev :=
  match e.attached, e.port.anchor with
  | true, some a =>
    let counter := e.timing.counter
    let e1 := e.updPort fun p => { p with snapshotSheet := counter }
    let e2 := ((ascending 16).filter fun u => (e.unit u).defined).foldl (fun e u => e.writeMirror a u) e1
    (ascending 16).foldl (fun e n => e.writeLine a n) (e2.writeWords a.statusBase [counter])
  | _, _ => e

/-- The interval timer is on and its count stands at 0: its expiry is due (R149). -/
def Timing.intervalDue (t : Timing) : Bool := t.period != 0 && t.count == 0

/-- The interval timer performs its action set and reloads its count (R149 to R151). -/
def Ev.intervalExpiry (e : Ev) : Ev :=
  let e1 := if e.timing.actSnapshot then e.snapshot else e
  let e2 : Ev := if e1.timing.actScanRequest then { e1 with scanPulses := e1.scanPulses + 1 } else e1
  e2.updTiming fun t => { t with count := t.period }

/-- The counter agrees with V in every bit that is zero in the mask (R148). -/
def Timing.watchMatches (t : Timing) : Bool := t.watchEnabled && ((t.counter ^^^ t.watchValue) &&& ~~~t.watchMask == 0)

/-- The counter rises, the press is RUNNING, the run timer is started afresh, and the interval count falls (R141, R149). -/
def Timing.mark (t : Timing) : Timing :=
  { t with counter := t.counter + 1, run := .running, runTimer := some 2000,
           count := if t.period = 0 then t.count else t.count - 1 }

/-- A sheet mark is handed to the exchange port: while the part is ATTACHED, an order scan is due (R141, R162, log entry 31). -/
def Ev.handMark (e : Ev) : Ev := if e.attached then e.updPort fun p => { p with handedMarks := p.handedMarks + 1 } else e

/-- A sheet mark (R141): the counter, the run state and the interval count, the sheet watch, the expiry of an interval count that the
mark has brought to 0 (R149), and the mark handed to the order processor and the exchange port. -/
def Ev.sheetMark (e : Ev) : Ev :=
  let e1 := e.updTiming Timing.mark
  let e2 := if e1.timing.watchMatches then e1.raise .sheetWatch else e1
  let e3 := if e2.timing.intervalDue then e2.intervalExpiry else e2
  (e3.releaseWaiting true).handMark

/-- SHEET_MARK. -/
def execSheetMark (s : State) : Host.Outcome State Fault Refusal := act s fun e => e.sheetMark

/-- INTERVAL_EXPIRY. A mark that brings the count to 0 performs the expiry itself (R149), so one is left only for a count that
stands at 0 (log entry 7); with a count above 0, or the timer off, there is none (log entry 5). -/
def execIntervalExpiry (s : State) : Host.Outcome State Fault Refusal :=
  act s fun e => if e.timing.intervalDue then e.intervalExpiry else e

/-- RUN_TIMER_EXPIRY: the run state becomes STOPPED (R142). With the run timer not running there is no expiry. -/
def execRunTimerExpiry (s : State) : Host.Outcome State Fault Refusal :=
  act s fun e =>
    if e.timing.runTimer.isSome then e.updTiming fun t => { t with run := .stopped, runTimer := none } else e

/-- IMPRESSION_CHANGE: the impression state follows the input (R143). -/
def execImpressionChange (on : Bool) (s : State) : Host.Outcome State Fault Refusal :=
  act s fun e => e.updTiming fun t => { t with impression := on }

/-- WAITING_ORDER_START. A unit with no released waiting order has no start due (R174, log entry 5). -/
def execWaitingOrderStart (u : UnitNo) (s : State) : Host.Outcome State Fault Refusal :=
  act s fun e => match (e.unit u).waiting with
    | some w => if w.released then e.startWaiting u w.order else e
    | none => e

end Sys2Proof.Machine
end

