-- ==== Sys2Proof/Machine/Port.lean ====
section
/-! DEFINITION. The exchange port: the registers, the attach, the detach and the resets, order scans, and the take of a slot
(chapter 9). -/

namespace Sys2Proof.Machine

open Decode

/-! ### Registers (R155 to R157, R159) -/

/-- A register command's word and outcome (R155). -/
def Port.answer (p : Port) (word : Word) (outcome : CommandOutcome) : Port :=
  { p with commandWord := word, lastOutcome := outcome }

/-- ATTACH: taken in DETACHED, refused otherwise (R157, R159). -/
def execAttach (s : State) : Host.Outcome State Fault Refusal :=
  match s.port.state with
  | .detached => .next { s with port := { s.port.answer 1 .taken with state := .attaching } }
  | .attaching | .attached => .next { s with port := s.port.answer 1 .refused }

/-- NOTICE_WRITE: every cause written as one leaves the pending set (R156). -/
def execNoticeWrite (value : Word) (s : State) : Host.Outcome State Fault Refusal :=
  .next { s with port := s.port.clearNotices value }

/-- REGISTER_WRITE_IGNORED: a write to a read-only register changes nothing (R155). -/
def execRegisterWriteIgnored (_register : ReadOnlyRegister) (_value : Word) (s : State) : Host.Outcome State Fault Refusal :=
  .next s

/-! ### Resets (R161, R152, R153) -/

/-- A word of the zone mirror, the status area or the reading store: the words whose write a reset may abandon. No order slot is
written at a reset (R161). -/
def Anchor.blockWord (a : Anchor) (x : Nat) : Bool :=
  decide (a.mirrorBase ≤ x ∧ x < a.mirrorBase + Config.mirrorWords)
    || decide (a.statusBase ≤ x ∧ x < a.statusBase + Config.statusWords)
    || decide (a.storeBase ≤ x ∧ x < a.storeBase + a.segments * a.segmentSize)

/-- The exchange memory as a reset leaves it: no reset clears it, and a write in progress is abandoned (R161). The write is the last
event's, and how many of its words were still to come is free, but for those up to its last write of a slot or a ring offset, which are
there (log entry 24); the others hold what stood in them before. A part that is not ATTACHED has none in progress. -/
def State.tornMemory (s : State) : Memory :=
  match s.port.state, s.port.anchor with
  | .attached, some a => Memory.putBack a.blockWord s.unfinished (Config.abandonedWords s.freeDraws) s.mem
  | _, _ => s.mem

/-- Every block at its reset values but the press timing unit and the exchange port, which are given (R161). -/
def State.cleared (s : State) (timing : Timing) (port : Port) : State :=
  { State.reset with timing := timing, port := port, mem := s.tornMemory, scanPulses := s.scanPulses, freeDraws := s.freeDraws + 1,
                     pending := s.pending }

/-- The press timing unit after the RESET command: counter, run state, run timer and impression are kept (R153). -/
def Timing.resetCommand (t : Timing) : Timing :=
  { Timing.reset t.impression with counter := t.counter, run := t.run, runTimer := t.runTimer }

/-- RESET, the register command (R161, R153, R159). -/
def execReset (s : State) : Host.Outcome State Fault Refusal :=
  .next (s.cleared s.timing.resetCommand (Port.reset.answer 3 .taken))

/-- RESET_PIN (R161, R152). -/
def execResetPin (impression : Bool) (s : State) : Host.Outcome State Fault Refusal :=
  .next (s.cleared (Timing.reset impression) Port.reset)

/-- POWER_ON (R161, R152). -/
def execPowerOn (impression : Bool) (s : State) : Host.Outcome State Fault Refusal :=
  .next (s.cleared (Timing.reset impression) Port.reset)

/-! ### Detaching (R160, R179, R70) -/

/-- The ring slots of the taken orders that are not final, each with its unit, in ring order from R (R160). -/
def State.openOrders (s : State) (length : Nat) : List (Nat × UnitNo) :=
  ((ascending 16).filterMap fun u =>
    match (s.unit u).tracked, (s.unit u).waiting with
    | some o, _ => some (o.slot, u)
    | none, some w => some (w.order.slot, u)
    | none, none => none).insertionSort fun a b =>
      ringDistance length s.port.retire a.1 ≤ ringDistance length s.port.retire b.1

/-- A unit's order, RUNNING or WAITING, is ended by DETACH (R179). -/
def Ev.detachOrder (e : Ev) (u : UnitNo) : Ev := (e.endTracked u .aborted .detached).endWaiting u .aborted .detached

/-- The units whose mirror blocks a DETACH writes for their orders (R160). -/
def State.unitsWithOrders (s : State) : List UnitNo :=
  (ascending 16).filter fun u => (s.unit u).tracked.isSome || (s.unit u).waiting.isSome

/-- HALT ALL is queued on every line that is ON (R83), and every sweep move in flight ends (R94). -/
def Ev.haltLines (e : Ev) : Ev :=
  (ascending 16).foldl (fun e n => (if (e.line n).power = .on then e.queueHaltAll n else e).endSweepQuietly n) e

/-- An ATTACHED part detaches (R160). What it owes is written before it becomes DETACHED. No arbiter run follows: it would
grant nothing (R70). -/
def Ev.detach (e : Ev) : Ev :=
  match e.port.anchor with
  | some a =>
    let owed := e.unitsWithOrders
    let e1 := (e.updPort fun p => { p with scanTimer := none, handedMarks := 0 }).abortCheck .detached
    let e2 := (e1.openOrders a.ringLength).foldl (fun e o => e.detachOrder o.2) e1
    let e3 := (ascending 16).foldl (fun e u => e.returnMoving u) e2.haltLines
    let e4 : Ev := { e3 with arbiterDue := false, mirrorDue := owed ++ e3.mirrorDue }
    e4.flush.updPort fun p => { p with state := .detached, detachDeferred := false, lastOutcome := .taken }
  | none => e

/-- DETACH acts by the part state (R159, R160). -/
def Ev.detachCommand (e : Ev) (word : Word) : Ev :=
  let e1 := e.updPort fun p => { p with commandWord := word }
  match e1.port.state with
  | .detached => e1.updPort fun p => { p with lastOutcome := .taken }
  | .attaching => e1.updPort fun p => { p with detachDeferred := true, lastOutcome := .deferred }
  | .attached => e1.detach

/-- DETACH, the register command. -/
def execDetach (s : State) : Host.Outcome State Fault Refusal := act s fun e => e.detachCommand 2

/-- COMMAND_INVALID_VALUE: a value that names no command is refused (R155). The three values that name one are taken as it. -/
def execCommandInvalidValue (value : Word) (s : State) : Host.Outcome State Fault Refusal :=
  if value = 1 then
    match s.port.state with
    | .detached => .next { s with port := { s.port.answer value .taken with state := .attaching } }
    | .attaching | .attached => .next { s with port := s.port.answer value .refused }
  else if value = 2 then act s fun e => e.detachCommand value
  else if value = 3 then .next (s.cleared s.timing.resetCommand (Port.reset.answer value .taken))
  else .next { s with port := s.port.answer value .refused }

/-! ### Attaching (R157 to R159) -/

/-- Steps 1 to 3 and 7 of R158: the anchor copy, the offsets, the store position and the order-scan timer; words 14 and 15. -/
def Ev.adoptAnchor (e : Ev) (a : Anchor) : Ev :=
  (e.updPort fun p =>
    { p with anchor := some a, mask := a.noticeMask, take := 0, retire := 0, putValid := 0, handedMarks := 0, finished := [],
             fault := .none,
             noticeOffset := none, segment := 0, openSegment := none, lastFailure := none, state := .attached,
             scanTimer := some a.scanInterval }).writeWords 14 [0, 0]

/-- Step 4 of R158: the mirror block of every unit, then the whole status area. -/
def Ev.writeEverything (e : Ev) (a : Anchor) : Ev :=
  let e1 := (ascending 16).foldl (fun e u => e.writeMirror a u) e
  let e2 := e1.writeWords a.statusBase (statusArea e1.toState)
  { e2 with freeDraws := e2.freeDraws + 1, start := { e2.toState with freeDraws := e2.freeDraws + 1 } }

/-- Step 6 of R158: the arbiter runs, and the fountain of every line that is ON is pursued afresh. -/
def Ev.resumeMoves (e : Ev) : Ev :=
  (ascending 16).foldl (fun e n => if (e.line n).power = .on then e.pursueAfresh n else e) e.runArbiter

/-- An attach succeeds (R158); a deferred DETACH then acts at once (R159). -/
def Ev.attachSuccess (e : Ev) : Ev :=
  let a := anchorOfMemory e.mem
  let e1 := ((e.adoptAnchor a).writeEverything a).resumeMoves.settle
  if e1.port.detachDeferred then e1.detach else e1

/-- ATTACH_SUCCESS. It is due in ATTACHING, with an anchor that passes every test (log entry 5). -/
def execAttachSuccess (host : List HostWrite) (s : State) : Host.Outcome State Fault Refusal :=
  act s fun e =>
    let e1 := e.hostWrites host
    if e1.port.state = .attaching ∧ judgeAnchor e1.mem = none then e1.attachSuccess else e1

/-- A failed attach: DETACHED with the reason; a deferred DETACH has nothing to do and its outcome becomes TAKEN (R157,
R159). -/
def Port.attachFailed (p : Port) (reason : AttachFailure) : Port :=
  { p with state := .detached, lastFailure := some reason, detachDeferred := false,
           lastOutcome := if p.detachDeferred then .taken else p.lastOutcome }

/-- ATTACH_FAILURE. It is due in ATTACHING, with an anchor that fails a test (log entry 5). -/
def execAttachFailure (host : List HostWrite) (s : State) : Host.Outcome State Fault Refusal :=
  act s fun e =>
    let e1 := e.hostWrites host
    match e1.port.state, judgeAnchor e1.mem with
    | .attaching, some reason => e1.updPort fun p => p.attachFailed reason
    | _, _ => e1

/-! ### Order scans and takes (R162, R163) -/

/-- A slot is due to be taken: the last valid scan reached past T (R162). -/
def State.takeDue (s : State) : Bool := s.attached && s.port.take != s.port.putValid

/-- The fault of a put offset, NONE when it is valid (R162). -/
def judgePut (length take retire put : Nat) : PortFault :=
  if length ≤ put then .putOutOfRange
  else if ringDistance length retire put < ringDistance length retire take then .putBehindTake
  else .none

/-- A scan has judged P (R162). -/
def Ev.putJudged (e : Ev) (put : Nat) (fault : PortFault) : Ev :=
  if fault = .none then e.updPort fun p => { p with fault := .none, putValid := put }
  else if e.port.fault = fault then e
  else (e.updPort fun p => { p with fault := fault }).raise .portFault

/-- An order scan reads words 12 and 13 and judges P (R162). It is the scan of a mark handed to the port while one is still to be
made, and otherwise that of the order-scan timer, which runs on or restarts for its interval (log entry 31). -/
def Ev.orderScan (e : Ev) (a : Anchor) : Ev :=
  let put := (Memory.read e.mem 12).toNat
  let notice := Memory.read e.mem 13
  let e1 := e.updPort fun p =>
    { p with noticeOffset := some notice, scanTimer := some a.scanInterval, handedMarks := p.handedMarks - 1 }
  e1.putJudged put (judgePut a.ringLength e1.port.take e1.port.retire put)

/-- ORDER_SCAN. A part not ATTACHED makes none, and one whose last scan has slots left to take makes the next after them (log
entry 5). -/
def execOrderScan (host : List HostWrite) (s : State) : Host.Outcome State Fault Refusal :=
  act s fun e =>
    let e1 := e.hostWrites host
    match e1.attached && !e1.takeDue, e1.port.anchor with
    | true, some a => e1.orderScan a
    | _, _ => e1

/-- The slot at T, as the part reads it (R163). -/
def State.slotAtTake (s : State) (a : Anchor) : Slot := { words := Memory.readWords s.mem (a.slotWord s.port.take 0) Config.slotWords }

/-- The take of the slot at T by the row of an order: it is due, and the slot holds the order (R163, log entry 5). -/
def takeOrder (host : List HostWrite) (applies : Slot → Bool) (f : Anchor → Slot → Ev → Ev) (s : State) :
    Host.Outcome State Fault Refusal :=
  act s fun e =>
    let e1 := e.hostWrites host
    match e1.port.anchor with
    | some a =>
      let slot := e1.slotAtTake a
      if e1.takeDue && applies slot then f a slot e1 else e1
    | none => e1

/-- The take ends with a final status. -/
def Ev.finish (e : Ev) (slot : Slot) (st : Status) (d : Detail) : Ev := e.finishTake e.port.take slot.notify st d

/-- The zones that a work order's slot concerns, as it names them, on a unit of Z zones; none for an order of another kind (R176). -/
def workZones (slot : Slot) (zoneCount : Nat) : Option (List ZoneNo) :=
  match slot.kind with
  | some .preset | some .sweep => some ((ascending 64).filter fun z => decide (z.val < zoneCount))
  | some .trim => some ((ascending 64).filter fun z => (trimWords slot).any fun w => lowHalf w == ZoneNo.number z)
  | some .zero => some (zoneRange (lowHalf (slot.word 3)) (highHalf (slot.word 3)))
  | _ => none

/-- The detail of a refused order (R171): its reason; and for a PRESET, TRIM, SWEEP or ZERO that names a unit, REFUSED being a final
status, the zones concerned that are FAULTED and the unit's sweep fault (log entry 19). The lines failed of a REFUSED CHECK LINES, which
R171 gives a final status and R103 a check's end alone, are 0 (log entry 20). -/
def State.refusalDetail (s : State) (slot : Slot) (r : Reason) : Detail :=
  match slot.unit? with
  | some u =>
    match workZones slot (s.unit u).zoneCount with
    | some zones => { Detail.only r.code with zonesFaulted := (s.unit u).faultedAmong zones, sweepFault := (s.unit u).sweepFault }
    | none => Detail.only r.code
  | none => Detail.only r.code

/-- The order is refused (R169, R171). -/
def Ev.refuse (e : Ev) (slot : Slot) (r : Reason) : Ev := e.finish slot .refused (e.refusalDetail slot r)

/-- An immediate order is DONE with cause NONE. -/
def Ev.done (e : Ev) (slot : Slot) : Ev := e.finish slot .done (Detail.only 0)

/-- The slot's kind is this one. -/
def ofKind (k : OrderKind) (slot : Slot) : Bool := slot.kind == some k

end Sys2Proof.Machine
end

