-- ==== Sys2Proof/Machine/Orders.lean ====
section
/-! DEFINITION. The immediate orders (10.6): each acts at its take and is final there. -/

namespace Sys2Proof.Machine

open Decode

/-- An order of a unit, refused with BAD UNIT when its number lies outside 1 to 16 (R2, R169). -/
def Ev.onUnit (e : Ev) (slot : Slot) (f : UnitNo → Ev) : Ev :=
  match slot.unit? with
  | some u => f u
  | none => e.refuse slot .badUnit

/-- An order of a defined unit, refused with UNIT UNDEFINED otherwise (R2). -/
def Ev.onDefined (e : Ev) (slot : Slot) (f : UnitNo → UnitConfig → Ev) : Ev :=
  e.onUnit slot fun u =>
    match (e.unit u).config with
    | some c => f u c
    | none => e.refuse slot .unitUndefined

/-- UNKNOWN_KIND (R169). -/
def execUnknownKind (host : List HostWrite) (s : State) : Host.Outcome State Fault Refusal :=
  takeOrder host (fun slot => slot.kind == none) (fun _ slot e => e.refuse slot .unknownKind) s

/-! ### DEFINE UNIT (R15, R16, R89, R92) -/

/-- The unit has a tracked order, RUNNING or WAITING. -/
def UnitRec.hasOrder (r : UnitRec) : Bool := r.tracked.isSome || r.waiting.isSome

/-- Some zone of the unit is MOVING. -/
def UnitRec.anyMoving (r : UnitRec) : Bool := (ascending 64).any fun z => (r.zones[z]).state == .moving

/-- A DEFINE UNIT is refused BUSY (R15). -/
def State.defineBusy (s : State) (u : UnitNo) : Bool :=
  (s.unit u).hasOrder || (s.unit u).anyMoving || (s.line u).power == .check

/-- A unit record after DEFINE UNIT (R16, R128): the loop parameters are kept. -/
def UnitRec.redefined (r : UnitRec) (c : UnitConfig) : UnitRec :=
  { r with config := some c, currentSweep := none, staged := none, sweepFault := false, loopOn := false,
           zones := Vector.ofFn fun z : ZoneNo =>
             { Zone.reset with state := if z.val < c.zoneCount then .rest else .off } }

/-- An address is expected on the line of a unit of Z zones: the fountain drive and key modules 1 to ceil(Z/8) (R88). -/
def addressExpected (zoneCount : Nat) (a : Fin 9) : Bool := decide (a.val ≤ ceilDiv zoneCount 8)

/-- A module record after DEFINE UNIT (R89). -/
def ModuleRec.expect (m : ModuleRec) (expected lineOn : Bool) : ModuleRec :=
  if expected then
    if m.state = .notExpected then
      { state := .present, missed := 0, lastOutcome := if lineOn then m.lastOutcome else .lineNotOn }
    else m
  else { m with state := .notExpected, missed := 0 }

/-- The line of a unit after DEFINE UNIT: an empty pending list, the wanted sweep absent, the modules expected set (R16, R89,
R92). -/
def Line.redefined (l : Line) (zoneCount : Nat) : Line :=
  { l with pendingList := [], fountain := { l.fountain with wanted := none },
           modules := Vector.ofFn fun a : Fin 9 => (l.modules[a]).expect (addressExpected zoneCount a) (l.power == .on) }

/-- A module state of line n differs from what it was at the start of the event. -/
def Ev.modulesChanged (e : Ev) (n : LineNo) : Bool :=
  (ascending 9).any fun a => ((e.line n).modules[a]).state != ((e.start.line n).modules[a]).state

/-- DEFINE UNIT acts (R16). -/
def Ev.defineUnit (e : Ev) (u : UnitNo) (c : UnitConfig) : Ev :=
  let e1 := ((e.updUnit u fun r => r.redefined c).updLine u fun l => l.redefined c.zoneCount).oweMirror u
  if e1.modulesChanged u then e1.oweLine u else e1

/-- DEFINE_UNIT. -/
def execDefineUnit (host : List HostWrite) (s : State) : Host.Outcome State Fault Refusal :=
  takeOrder host (ofKind .defineUnit) (fun _ slot e =>
    e.onUnit slot fun u =>
      if e.defineBusy u then e.refuse slot .busy
      else match defineOperands slot with
        | some c => (e.defineUnit u c).done slot
        | none => e.refuse slot .badArgument) s

/-! ### Orders that name no unit (R8, R146, R123, R180, R120 to R122) -/

/-- LOAD_CURVE (R8). -/
def execLoadCurve (host : List HostWrite) (s : State) : Host.Outcome State Fault Refusal :=
  takeOrder host (ofKind .loadCurve) (fun _ slot e =>
    if h : wholeWord slot 3 < 8 then
      if slot.atSheetFlag then e.refuse slot .badArgument
      else if curveValid (curveOrdinates slot) then
        ({ e with curves := e.curves.set (wholeWord slot 3) (curveOrdinates slot) } : Ev).done slot
      else e.refuse slot .curveInvalid
    else e.refuse slot .badArgument) s

/-- The interval part of a SET TIMING (R146): the count restarts. -/
def Timing.setInterval (t : Timing) : Option (Nat × Bool × Bool) → Timing
  | some (n, snapshot, scanRequest) => { t with period := n, count := n, actSnapshot := snapshot, actScanRequest := scanRequest }
  | none => t

/-- The watch part of a SET TIMING (R146). -/
def Timing.setWatch (t : Timing) : Option (Bool × Sheet × Sheet) → Timing
  | some (on, value, mask) => { t with watchEnabled := on, watchValue := value, watchMask := mask }
  | none => t

/-- The counter load of a SET TIMING, handed to the order processor (R146, R147). -/
def Ev.loadCounter (e : Ev) : Option Sheet → Ev
  | some v => (e.updTiming fun t => { t with counter := v }).releaseWaiting false
  | none => e

/-- SET_TIMING (R146): its parts in the order interval, watch, counter load. -/
def execSetTiming (host : List HostWrite) (s : State) : Host.Outcome State Fault Refusal :=
  takeOrder host (ofKind .setTiming) (fun _ slot e =>
    match timingOperands slot with
    | some o => ((e.updTiming fun t => (t.setInterval o.interval).setWatch o.watch).loadCounter o.load).done slot
    | none => e.refuse slot .badArgument) s

/-- SET_NOTICES (R180). -/
def execSetNotices (host : List HostWrite) (s : State) : Host.Outcome State Fault Refusal :=
  takeOrder host (ofKind .setNotices) (fun _ slot e =>
    if slot.atSheetFlag then e.refuse slot .badArgument
    else (e.updPort fun p => { p with mask := (slot.word 3).setWidth 10 }).done slot) s

/-- SNAPSHOT, the order (R180). -/
def execSnapshot (host : List HostWrite) (s : State) : Host.Outcome State Fault Refusal :=
  takeOrder host (ofKind .snapshot) (fun _ slot e =>
    if slot.atSheetFlag then e.refuse slot .badArgument else e.snapshot.done slot) s

/-- The intake setting after INTAKE ON (R122). -/
def Intake.switchOn (i : Intake) : Intake :=
  match i.setting with
  | .off => { i with setting := .armed }
  | .armed | .on => i

/-- The intake after INTAKE OFF: an open scan is discarded (R121). -/
def Intake.switchOff (i : Intake) : Intake := { i with setting := .off, scan := none, scanTimer := none }

/-- An INTAKE order acts by its setting; one that is neither ON nor OFF is refused (R120 to R122). -/
def Ev.intakeOrder (e : Ev) (slot : Slot) : Ev :=
  match settingOperand slot with
  | some true => (e.updIntake Intake.switchOn).done slot
  | some false => (e.updIntake Intake.switchOff).done slot
  | none => e.refuse slot .badArgument

/-- INTAKE_ON: a slot of kind INTAKE whose setting is not OFF. -/
def execIntakeOn (host : List HostWrite) (s : State) : Host.Outcome State Fault Refusal :=
  takeOrder host (fun slot => ofKind .intake slot && wholeWord slot 3 != 0) (fun _ slot e => e.intakeOrder slot) s

/-- INTAKE_OFF: a slot of kind INTAKE whose setting is not ON. -/
def execIntakeOff (host : List HostWrite) (s : State) : Host.Outcome State Fault Refusal :=
  takeOrder host (fun slot => ofKind .intake slot && wholeWord slot 3 != 1) (fun _ slot e => e.intakeOrder slot) s

/-! ### SET LOOP and SET WATCH (R128, R123) -/

/-- SET_LOOP (R128). -/
def execSetLoop (host : List HostWrite) (s : State) : Host.Outcome State Fault Refusal :=
  takeOrder host (ofKind .setLoop) (fun _ slot e =>
    e.onDefined slot fun u _ =>
      match loopOperands slot with
      | some (on, params) =>
        ((e.updUnit u fun r => { r with loopOn := on, loopParams := some params }).oweMirror u).done slot
      | none => e.refuse slot .badArgument) s

/-- A density watch entry as SET WATCH writes it: its last hit becomes absent (R123). -/
def Watch.written (on : Bool) (u : UnitNo) (low high : Nat) : Watch where
  enabled := on
  unit := some u
  low := some low
  high := some high
  lastHit := none

/-- SET_WATCH (R123). -/
def execSetWatch (host : List HostWrite) (s : State) : Host.Outcome State Fault Refusal :=
  takeOrder host (ofKind .setWatch) (fun _ slot e =>
    e.onUnit slot fun u =>
      match watchOperands slot with
      | some (k, on, low, high) =>
        (e.updIntake fun i => { i with watches := i.watches.set k (Watch.written on u low high) }).done slot
      | none => e.refuse slot .badArgument) s

/-! ### HOLD, RELEASE and CLEAR FAULT (R17 to R20) -/

/-- HOLD treats one zone (R18). -/
def Ev.holdZone (e : Ev) (u : UnitNo) (z : ZoneNo) : Ev :=
  match (e.zone u z).state with
  | .rest | .pending => e.changeState u z .held
  | .moving => (e.haltKey u z).changeState u z .held
  | .held | .faulted | .off => e

/-- RELEASE treats one zone (R19). -/
def Ev.releaseZone (e : Ev) (u : UnitNo) (z : ZoneNo) : Ev := if (e.zone u z).state = .held then e.place u z else e

/-- CLEAR FAULT treats one zone (R20). -/
def Ev.clearZone (e : Ev) (u : UnitNo) (z : ZoneNo) : Ev :=
  if (e.zone u z).state = .faulted then
    ((e.updZone u z fun r => { r with faultCause := none, attempts := 0 }).place u z).oweMirror u
  else e

/-- A range is treated zone by zone in ascending order, the arbiter running after each zone that makes it due (R17). -/
def Ev.treatRange (e : Ev) (zones : List ZoneNo) (f : Ev → ZoneNo → Ev) : Ev :=
  zones.foldl (fun e z => (f e z).settleArbiter) e

/-- The take of a HOLD, RELEASE or CLEAR FAULT (R17). -/
def takeRange (k : OrderKind) (f : UnitNo → Ev → ZoneNo → Ev) (host : List HostWrite) (s : State) :
    Host.Outcome State Fault Refusal :=
  takeOrder host (ofKind k) (fun _ slot e =>
    e.onDefined slot fun u c =>
      match rangeOperands slot c.zoneCount with
      | some (first, last) => (e.treatRange (zoneRange first last) (f u)).done slot
      | none => e.refuse slot .badArgument) s

/-- HOLD. -/
def execHold (host : List HostWrite) (s : State) : Host.Outcome State Fault Refusal :=
  takeRange .hold (fun u e z => e.holdZone u z) host s

/-- RELEASE. -/
def execRelease (host : List HostWrite) (s : State) : Host.Outcome State Fault Refusal :=
  takeRange .release (fun u e z => e.releaseZone u z) host s

/-- CLEAR_FAULT. -/
def execClearFault (host : List HostWrite) (s : State) : Host.Outcome State Fault Refusal :=
  takeRange .clearFault (fun u e z => e.clearZone u z) host s

/-! ### ABORT (R178, R104) -/

/-- An ABORT ends the unit's order, by what it is (R178), and owes the mirror block of each unit whose record that changes (10.6): a
CHECK LINES leaves the records of both. -/
def Ev.abortUnit (e : Ev) (u : UnitNo) : Ev :=
  match (e.unit u).tracked, (e.unit u).waiting with
  | some o, _ =>
    match o.kind with
    | .checkLines a b => ((e.abortCheck .byHost).oweMirror a).oweMirror b
    | _ => (e.endTracked u .aborted .byHost).oweMirror u
  | none, some _ => (e.endWaiting u .aborted .byHost).oweMirror u
  | none, none => e

/-- The cause of an ABORT: NOTHING RUNNING when it finds no order of the unit (R178). -/
def UnitRec.abortCause (r : UnitRec) : Cause := if r.hasOrder then .none else .nothingRunning

/-- ABORT (R178). -/
def execAbort (host : List HostWrite) (s : State) : Host.Outcome State Fault Refusal :=
  takeOrder host (ofKind .abort) (fun _ slot e =>
    e.onUnit slot fun u =>
      if slot.atSheetFlag then e.refuse slot .badArgument
      else (e.abortUnit u).finish slot .done (Detail.only (e.unit u).abortCause.code)) s

end Sys2Proof.Machine
end

