-- ==== Sys2Proof/Machine/WorkOrders.lean ====
section
/-! DEFINITION. The orders that take time: PRESET, TRIM, SWEEP, ZERO, LINE POWER and CHECK LINES (10.7, R73 to R76, R97,
R98). -/

namespace Sys2Proof.Machine

open Decode

/-- The order record of the slot being taken (chapter 10, head table). -/
def Ev.newRecord (e : Ev) (slot : Slot) (kind : TrackedKind) (zones : List ZoneNo) (bandsClamped : Nat) : OrderRecord where
  slot := e.port.take
  notify := slot.notify
  kind := kind
  zones := zones
  fountainWait := false
  counts := { Counts.zero with bandsClamped := bandsClamped }

/-- A work order that is not refused becomes the unit's waiting order (R174). -/
def Ev.holdBack (e : Ev) (u : UnitNo) (slot : Slot) (o : OrderRecord) : Ev :=
  (e.updUnit u fun r => { r with waiting := some { order := o, atSheet := slot.atSheet, released := false } }).finish slot
    .waiting o.openDetail

/-- A work order that is not refused starts at its take: it is written ACCEPTED, or final when its start completes it (R170,
R176, R177). -/
def Ev.startNow (e : Ev) (u : UnitNo) (slot : Slot) (o : OrderRecord) : Ev :=
  let e1 := e.startOrder u o
  match (e1.unit u).tracked with
  | some o' =>
    let r := e1.startOutcome u o' .accepted
    (e1.closeStart u r.1).finish slot r.1 r.2
  | none => e1

/-- A PRESET, TRIM or SWEEP starts at its take or waits, by the sheet counter (R174). -/
def Ev.startOrWait (e : Ev) (u : UnitNo) (slot : Slot) (o : OrderRecord) : Ev :=
  if slot.atSheetFlag && !atOrAfter e.timing.counter slot.atSheet then e.holdBack u slot o else e.startNow u slot o

/-- A PRESET, TRIM or SWEEP is refused BUSY: the unit's tracked order is one that is not superseded, or its line is in CHECK
(R173, R181). -/
def State.workBusy (s : State) (u : UnitNo) : Bool :=
  (s.unit u).tracked.any (fun o => !o.kind.superseded) || (s.line u).power == .check

/-- Stage 1 writes the unit's staged coverage (R29). -/
def Ev.stage (e : Ev) (u : UnitNo) (v : Vector Nat 64) : Ev := e.updUnit u fun r => { r with staged := some v }

/-- A PRESET that is not refused (R181): the profile is read, the older order is superseded, and the PRESET starts or waits. -/
def Ev.takePreset (e : Ev) (u : UnitNo) (c : UnitConfig) (slot : Slot) (o : PresetOperands) : Ev :=
  let bands := readBands e.mem o.base o.bandCount
  ((e.supersede u).stage u (stagedCoverage c o bands)).startOrWait u slot
    (e.newRecord slot (.preset o.policy) (zonesBelow c.zoneCount) (bandsClamped bands))

/-- PRESET (R181). -/
def execPreset (host : List HostWrite) (s : State) : Host.Outcome State Fault Refusal :=
  takeOrder host (ofKind .preset) (fun a slot e =>
    e.onDefined slot fun u c =>
      match presetOperands slot with
      | none => e.refuse slot .badArgument
      | some o =>
        if !profileAllowed o a then e.refuse slot .profileRegion
        else if e.workBusy u then e.refuse slot .busy
        else e.takePreset u c slot o) s

/-- The zones a TRIM's pairs name, each once (R182). -/
def namedZones (pairs : List (ZoneNo × Int)) : List ZoneNo := (ascending 64).filter fun z => pairs.any fun p => p.1 == z

/-- TRIM (R182). -/
def execTrim (host : List HostWrite) (s : State) : Host.Outcome State Fault Refusal :=
  takeOrder host (ofKind .trim) (fun _ slot e =>
    e.onDefined slot fun u c =>
      match trimOperands slot c.zoneCount with
      | none => e.refuse slot .badArgument
      | some pairs =>
        if e.workBusy u then e.refuse slot .busy
        else (e.supersede u).startOrWait u slot (e.newRecord slot (.trim pairs) (namedZones pairs) 0)) s

/-- SWEEP (R183). -/
def execSweep (host : List HostWrite) (s : State) : Host.Outcome State Fault Refusal :=
  takeOrder host (ofKind .sweep) (fun _ slot e =>
    e.onDefined slot fun u c =>
      match sweepOperand slot with
      | none => e.refuse slot .badArgument
      | some value =>
        if e.workBusy u then e.refuse slot .busy
        else (e.supersede u).startOrWait u slot (e.newRecord slot (.sweep value) (zonesBelow c.zoneCount) 0)) s

/-- ZERO (R184). -/
def execZero (host : List HostWrite) (s : State) : Host.Outcome State Fault Refusal :=
  takeOrder host (ofKind .zero) (fun _ slot e =>
    e.onDefined slot fun u c =>
      match rangeOperands slot c.zoneCount with
      | none => e.refuse slot .badArgument
      | some (first, last) =>
        if (e.unit u).hasOrder || (e.line u).power == .check then e.refuse slot .busy
        else e.startNow u slot (e.newRecord slot (.zero first last) (zoneRange first last) 0)) s

/-! ### LINE POWER (R73 to R76) -/

/-- The first reason of R73 that applies to a LINE POWER of line n. -/
def State.linePowerRefusal (s : State) (n : LineNo) (on : Bool) : Option Reason :=
  if (s.line n).power = .check then some .lineInCheck
  else if (s.unit n).waiting.isSome || (s.unit n).tracked.any (fun o => !o.kind.isWork) then some .busy
  else if on && ((s.line n).stopTaken || (s.unit n).tracked.isSome) then some .busy
  else none

/-- The order becomes the unit's tracked order, written ACCEPTED (R172, R185). -/
def Ev.track (e : Ev) (u : UnitNo) (slot : Slot) (o : OrderRecord) : Ev :=
  (e.updUnit u fun r => { r with tracked := some o }).finish slot .accepted o.openDetail

/-- A line is energized: it enters STARTING with its tags at 0 and its start timer running for 50 ms (R74, R54). -/
def Line.energize (l : Line) : Line :=
  { l with power := .starting, startTimer := some 50, keyTags := Vector.replicate 64 TagPair.reset,
           fountainTags := TagPair.reset }

/-- A LINE POWER ON that is taken acts by the line's power state (R74). -/
def Ev.powerOn (e : Ev) (n : LineNo) (slot : Slot) : Ev :=
  let o := e.newRecord slot (.linePower true) [] 0
  match (e.line n).power with
  | .off | .tripped => ((e.updLine n Line.energize).oweLine n).track n slot o
  | .starting => e.track n slot o
  | .on | .check => e.done slot

/-- A TRIPPED line enters OFF, its outcomes LINE NOT ON (R76). -/
def Ev.clearTrip (e : Ev) (n : LineNo) : Ev :=
  ((e.updLine n fun l => { l with power := .off }).updModules n fun m => { m with lastOutcome := .lineNotOn }).oweLine n

/-- A line that is ON stops: stop taken, HALT ALL, its MOVING zones and its sweep move returned, and a running work order
ended LINE OFF (R76, R69). -/
def Ev.stopLine (e : Ev) (n : LineNo) : Ev :=
  let e1 := (e.updLine n fun l => { l with stopTaken := true }).queueHaltAll n
  ((e1.returnMoving n).endSweepQuietly n).endByLine n .lineOff

/-- A LINE POWER OFF that is taken acts by the line's power state (R76). -/
def Ev.powerOff (e : Ev) (n : LineNo) (slot : Slot) : Ev :=
  let o := e.newRecord slot (.linePower false) [] 0
  match (e.line n).power with
  | .off | .check => e.done slot
  | .tripped => (e.clearTrip n).done slot
  | .on => (e.stopLine n).track n slot o
  | .starting => ((e.updLine n fun l => { l with stopTaken := true }).queueHaltAll n).track n slot o

/-- The take of a LINE POWER (R73, R185). -/
def Ev.linePower (e : Ev) (slot : Slot) : Ev :=
  e.onUnit slot fun n =>
    match settingOperand slot with
    | none => e.refuse slot .badArgument
    | some on =>
      match e.linePowerRefusal n on with
      | some r => e.refuse slot r
      | none => if on then e.powerOn n slot else e.powerOff n slot

/-- LINE_POWER_ON: a slot of kind LINE POWER whose setting is not OFF. -/
def execLinePowerOn (host : List HostWrite) (s : State) : Host.Outcome State Fault Refusal :=
  takeOrder host (fun slot => ofKind .linePower slot && wholeWord slot 3 != 0) (fun _ slot e => e.linePower slot) s

/-- LINE_POWER_OFF: a slot of kind LINE POWER whose setting is not ON. -/
def execLinePowerOff (host : List HostWrite) (s : State) : Host.Outcome State Fault Refusal :=
  takeOrder host (fun slot => ofKind .linePower slot && wholeWord slot 3 != 1) (fun _ slot e => e.linePower slot) s

/-! ### CHECK LINES (R97, R98) -/

/-- A line is STARTING or ON (R97). -/
def Line.notOff (l : Line) : Bool := l.power == .starting || l.power == .on

/-- The first reason of R97 that applies to a CHECK LINES of lines a and b, its arguments being good. -/
def State.checkRefusal (s : State) (a b : LineNo) : Option Reason :=
  if (s.line a).power = .check ∨ (s.line b).power = .check then some .lineInCheck
  else if s.check.isSome then some .busy
  else if (s.unit a).hasOrder || (s.unit b).hasOrder then some .busy
  else if (s.line a).notOff || (s.line b).notOff then some .lineNotOff
  else none

/-- The check results of both lines become NOT CHECKED, and both status entries are owed (R97, R98). -/
def Ev.clearResults (e : Ev) (a b : LineNo) : Ev :=
  let clear (e : Ev) (n : LineNo) : Ev := (e.updLine n fun l => { l with checkResult := .notChecked }).oweLine n
  clear (clear e a) b

/-- A line enters CHECK, every last slot outcome LINE NOT ON (R98). -/
def Ev.enterCheck (e : Ev) (n : LineNo) : Ev :=
  (e.updLine n fun l => { l with power := .check }).updModules n fun m => { m with lastOutcome := .lineNotOn }

/-- A check begins in DRAIN (R98). -/
def newCheck (a b : LineNo) (slot : Nat) : CheckRun where
  lineA := a
  lineB := b
  phase := .drain
  timer := some CheckPhase.drain.duration
  findingA := none
  findingB := none
  orderSlot := some slot

/-- A CHECK LINES that is taken (R98). -/
def Ev.startCheck (e : Ev) (slot : Slot) (a b : LineNo) : Ev :=
  let o := e.newRecord slot (.checkLines a b) [] 0
  let e1 := (((e.clearResults a b).enterCheck a).enterCheck b).setCheck (some (newCheck a b e.port.take))
  (e1.updUnit a fun r => { r with tracked := some o }).track b slot o

/-- CHECK_LINES (R97, R98). -/
def execCheckLines (host : List HostWrite) (s : State) : Host.Outcome State Fault Refusal :=
  takeOrder host (ofKind .checkLines) (fun _ slot e =>
    match slot.unit?, unitOfNumber (wholeWord slot 3) with
    | some a, some b =>
      if a = b ∨ slot.atSheetFlag then e.refuse slot .badArgument
      else match e.checkRefusal a b with
        | some .lineNotOff => (e.clearResults a b).refuse slot .lineNotOff
        | some r => e.refuse slot r
        | none => e.startCheck slot a b
    | _, _ => e.refuse slot .badUnit) s

end Sys2Proof.Machine
end

