-- ==== Sys2Proof/Machine/Dispatch.lean ====
section
/-! DEFINITION. The meaning of every command: one arm for each row of the opcode table. -/

namespace Sys2Proof.Machine

def exec (i : Instr) (s : State) : Host.Outcome State Fault Refusal :=
  match i with
  | .attach => Sys2Proof.Machine.execAttach s
  | .attachSuccess host => Sys2Proof.Machine.execAttachSuccess host s
  | .attachFailure host => Sys2Proof.Machine.execAttachFailure host s
  | .detach => Sys2Proof.Machine.execDetach s
  | .reset => Sys2Proof.Machine.execReset s
  | .commandInvalidValue value => Sys2Proof.Machine.execCommandInvalidValue value s
  | .noticeWrite value => Sys2Proof.Machine.execNoticeWrite value s
  | .registerWriteIgnored register value => Sys2Proof.Machine.execRegisterWriteIgnored register value s
  | .resetPin impression => Sys2Proof.Machine.execResetPin impression s
  | .powerOn impression => Sys2Proof.Machine.execPowerOn impression s
  | .sheetMark => Sys2Proof.Machine.execSheetMark s
  | .intervalExpiry => Sys2Proof.Machine.execIntervalExpiry s
  | .runTimerExpiry => Sys2Proof.Machine.execRunTimerExpiry s
  | .impressionChange on => Sys2Proof.Machine.execImpressionChange on s
  | .orderScan host => Sys2Proof.Machine.execOrderScan host s
  | .unknownKind host => Sys2Proof.Machine.execUnknownKind host s
  | .defineUnit host => Sys2Proof.Machine.execDefineUnit host s
  | .loadCurve host => Sys2Proof.Machine.execLoadCurve host s
  | .setLoop host => Sys2Proof.Machine.execSetLoop host s
  | .setTiming host => Sys2Proof.Machine.execSetTiming host s
  | .setWatch host => Sys2Proof.Machine.execSetWatch host s
  | .setNotices host => Sys2Proof.Machine.execSetNotices host s
  | .snapshot host => Sys2Proof.Machine.execSnapshot host s
  | .intakeOn host => Sys2Proof.Machine.execIntakeOn host s
  | .intakeOff host => Sys2Proof.Machine.execIntakeOff host s
  | .hold host => Sys2Proof.Machine.execHold host s
  | .release host => Sys2Proof.Machine.execRelease host s
  | .clearFault host => Sys2Proof.Machine.execClearFault host s
  | .abort host => Sys2Proof.Machine.execAbort host s
  | .preset host => Sys2Proof.Machine.execPreset host s
  | .trim host => Sys2Proof.Machine.execTrim host s
  | .sweep host => Sys2Proof.Machine.execSweep host s
  | .zero host => Sys2Proof.Machine.execZero host s
  | .linePowerOn host => Sys2Proof.Machine.execLinePowerOn host s
  | .linePowerOff host => Sys2Proof.Machine.execLinePowerOff host s
  | .checkLines host => Sys2Proof.Machine.execCheckLines host s
  | .waitingOrderStart unit => Sys2Proof.Machine.execWaitingOrderStart unit s
  | .startTimerExpiry line => Sys2Proof.Machine.execStartTimerExpiry line s
  | .lineCycle line => Sys2Proof.Machine.execLineCycle line s
  | .replySlot line input => Sys2Proof.Machine.execReplySlot line input s
  | .moveTimeout unit zone => Sys2Proof.Machine.execMoveTimeout unit zone s
  | .sweepTimeout line => Sys2Proof.Machine.execSweepTimeout line s
  | .overcurrentSense line => Sys2Proof.Machine.execOvercurrentSense line s
  | .checkPhaseExpiry senseA senseB => Sys2Proof.Machine.execCheckPhaseExpiry senseA senseB s
  | .scanOpen host number sheet => Sys2Proof.Machine.execScanOpen host number sheet s
  | .unitBlock unit entries => Sys2Proof.Machine.execUnitBlock unit entries s
  | .scanClose host checkWord => Sys2Proof.Machine.execScanClose host checkWord s
  | .unreadableFrame host => Sys2Proof.Machine.execUnreadableFrame host s
  | .scanTimeout host => Sys2Proof.Machine.execScanTimeout host s

end Sys2Proof.Machine
end

