-- ==== Sys2Proof/Safety.lean ====
section
/-! DEFINITION. What a sound state is, in the manual's own laws, and when an order is due to be taken. -/

namespace Sys2Proof


/-- What the host has written since the part last read, landing with a command (log entry 1). -/
def Instr.host : Instr → List HostWrite
  | .attachSuccess host | .attachFailure host | .orderScan host | .unknownKind host | .defineUnit host | .loadCurve host => host
  | .setLoop host | .setTiming host | .setWatch host | .setNotices host | .snapshot host | .intakeOn host => host
  | .intakeOff host | .hold host | .release host | .clearFault host | .abort host | .preset host | .trim host => host
  | .sweep host | .zero host | .linePowerOn host | .linePowerOff host | .checkLines host | .scanOpen host _ _ => host
  | .scanClose host _ | .unreadableFrame host | .scanTimeout host => host
  | .attach | .detach | .reset | .commandInvalidValue _ | .noticeWrite _ | .registerWriteIgnored _ _ | .resetPin _ => []
  | .powerOn _ | .sheetMark | .intervalExpiry | .runTimerExpiry | .impressionChange _ | .waitingOrderStart _ => []
  | .startTimerExpiry _ | .lineCycle _ | .replySlot _ _ | .moveTimeout _ _ | .sweepTimeout _ | .overcurrentSense _ => []
  | .checkPhaseExpiry _ _ | .unitBlock _ _ => []

/-- The commands that set the part state, clear the machine, or load a curve. -/
def Instr.setsPart : Instr → Bool
  | .attach | .attachSuccess _ | .attachFailure _ | .detach | .reset | .commandInvalidValue _ | .resetPin _ | .powerOn _
  | .loadCurve _ => true
  | .noticeWrite _ | .registerWriteIgnored _ _ | .sheetMark | .intervalExpiry | .runTimerExpiry | .impressionChange _ => false
  | .orderScan _ | .unknownKind _ | .defineUnit _ | .setLoop _ | .setTiming _ | .setWatch _ | .setNotices _ | .snapshot _ => false
  | .intakeOn _ | .intakeOff _ | .hold _ | .release _ | .clearFault _ | .abort _ | .preset _ | .trim _ | .sweep _ | .zero _ => false
  | .linePowerOn _ | .linePowerOff _ | .checkLines _ | .waitingOrderStart _ | .startTimerExpiry _ | .lineCycle _ => false
  | .replySlot _ _ | .moveTimeout _ _ | .sweepTimeout _ | .overcurrentSense _ | .checkPhaseExpiry _ _ => false
  | .scanOpen _ _ _ | .unitBlock _ _ | .scanClose _ _ | .unreadableFrame _ | .scanTimeout _ => false

/-- The commands that may change the press timing unit: marks, its timers and input, SET TIMING, and the resets. -/
def Instr.setsTiming : Instr → Bool
  | .reset | .commandInvalidValue _ | .resetPin _ | .powerOn _ | .sheetMark | .intervalExpiry | .runTimerExpiry
  | .impressionChange _ | .setTiming _ => true
  | .attach | .attachSuccess _ | .attachFailure _ | .detach | .noticeWrite _ | .registerWriteIgnored _ _
  | .orderScan _ | .unknownKind _ | .defineUnit _ | .loadCurve _ | .setLoop _ | .setWatch _ | .setNotices _
  | .snapshot _ | .intakeOn _ | .intakeOff _ | .hold _ | .release _ | .clearFault _ | .abort _ | .preset _
  | .trim _ | .sweep _ | .zero _ | .linePowerOn _ | .linePowerOff _ | .checkLines _ | .waitingOrderStart _
  | .startTimerExpiry _ | .lineCycle _ | .replySlot _ _ | .moveTimeout _ _ | .sweepTimeout _ | .overcurrentSense _
  | .checkPhaseExpiry _ _ | .scanOpen _ _ _ | .unitBlock _ _ | .scanClose _ _ | .unreadableFrame _ | .scanTimeout _ => false

/-- The commands that may change the reading intake: INTAKE, SET WATCH, the scan link, and the resets. -/
def Instr.setsIntake : Instr → Bool
  | .reset | .commandInvalidValue _ | .resetPin _ | .powerOn _ | .setWatch _ | .intakeOn _ | .intakeOff _
  | .scanOpen _ _ _ | .unitBlock _ _ | .scanClose _ _ | .unreadableFrame _ | .scanTimeout _ => true
  | .attach | .attachSuccess _ | .attachFailure _ | .detach | .noticeWrite _ | .registerWriteIgnored _ _
  | .sheetMark | .intervalExpiry | .runTimerExpiry | .impressionChange _ | .orderScan _ | .unknownKind _
  | .defineUnit _ | .loadCurve _ | .setLoop _ | .setTiming _ | .setNotices _ | .snapshot _ | .hold _ | .release _
  | .clearFault _ | .abort _ | .preset _ | .trim _ | .sweep _ | .zero _ | .linePowerOn _ | .linePowerOff _
  | .checkLines _ | .waitingOrderStart _ | .startTimerExpiry _ | .lineCycle _ | .replySlot _ _ | .moveTimeout _ _
  | .sweepTimeout _ | .overcurrentSense _ | .checkPhaseExpiry _ _ => false

/-- The commands that may change the check unit: CHECK LINES, ABORT, its timer, overcurrent, a detach, and the resets. -/
def Instr.setsCheck : Instr → Bool
  | .attachSuccess _ | .detach | .reset | .commandInvalidValue _ | .resetPin _ | .powerOn _ | .abort _
  | .checkLines _ | .overcurrentSense _ | .checkPhaseExpiry _ _ => true
  | .attach | .attachFailure _ | .noticeWrite _ | .registerWriteIgnored _ _ | .sheetMark | .intervalExpiry
  | .runTimerExpiry | .impressionChange _ | .orderScan _ | .unknownKind _ | .defineUnit _ | .loadCurve _
  | .setLoop _ | .setTiming _ | .setWatch _ | .setNotices _ | .snapshot _ | .intakeOn _ | .intakeOff _ | .hold _
  | .release _ | .clearFault _ | .preset _ | .trim _ | .sweep _ | .zero _ | .linePowerOn _ | .linePowerOff _
  | .waitingOrderStart _ | .startTimerExpiry _ | .lineCycle _ | .replySlot _ _ | .moveTimeout _ _ | .sweepTimeout _
  | .scanOpen _ _ _ | .unitBlock _ _ | .scanClose _ _ | .unreadableFrame _ | .scanTimeout _ => false

/-- The commands that may change a unit's configuration or loop. -/
def Instr.setsConfig : Instr → Bool
  | .reset | .commandInvalidValue _ | .resetPin _ | .powerOn _ | .defineUnit _ | .setLoop _ | .sweep _
  | .waitingOrderStart _ => true
  | .attach | .attachSuccess _ | .attachFailure _ | .detach | .noticeWrite _ | .registerWriteIgnored _ _
  | .sheetMark | .intervalExpiry | .runTimerExpiry | .impressionChange _ | .orderScan _ | .unknownKind _
  | .loadCurve _ | .setTiming _ | .setWatch _ | .setNotices _ | .snapshot _ | .intakeOn _ | .intakeOff _ | .hold _
  | .release _ | .clearFault _ | .abort _ | .preset _ | .trim _ | .zero _ | .linePowerOn _ | .linePowerOff _
  | .checkLines _ | .startTimerExpiry _ | .lineCycle _ | .replySlot _ _ | .moveTimeout _ _ | .sweepTimeout _
  | .overcurrentSense _ | .checkPhaseExpiry _ _ | .scanOpen _ _ _ | .unitBlock _ _ | .scanClose _ _
  | .unreadableFrame _ | .scanTimeout _ => false

/-- The commands that may change a zone record. -/
def Instr.setsZones : Instr → Bool
  | .attachSuccess _ | .detach | .reset | .commandInvalidValue _ | .resetPin _ | .powerOn _ | .defineUnit _
  | .hold _ | .release _ | .clearFault _ | .preset _ | .trim _ | .sweep _ | .zero _ | .linePowerOff _
  | .waitingOrderStart _ | .startTimerExpiry _ | .replySlot _ _ | .moveTimeout _ _ | .overcurrentSense _
  | .scanClose _ _ => true
  | .attach | .attachFailure _ | .noticeWrite _ | .registerWriteIgnored _ _ | .sheetMark | .intervalExpiry
  | .runTimerExpiry | .impressionChange _ | .orderScan _ | .unknownKind _ | .loadCurve _ | .setLoop _
  | .setTiming _ | .setWatch _ | .setNotices _ | .snapshot _ | .intakeOn _ | .intakeOff _ | .abort _
  | .linePowerOn _ | .checkLines _ | .lineCycle _ | .sweepTimeout _ | .checkPhaseExpiry _ _ | .scanOpen _ _ _
  | .unitBlock _ _ | .unreadableFrame _ | .scanTimeout _ => false

/-- The commands that may change a line's power state. -/
def Instr.setsPower : Instr → Bool
  | .reset | .commandInvalidValue _ | .resetPin _ | .powerOn _ | .linePowerOn _ | .linePowerOff _ | .checkLines _
  | .startTimerExpiry _ | .replySlot _ _ | .overcurrentSense _ | .checkPhaseExpiry _ _ => true
  | .attach | .attachSuccess _ | .attachFailure _ | .detach | .noticeWrite _ | .registerWriteIgnored _ _
  | .sheetMark | .intervalExpiry | .runTimerExpiry | .impressionChange _ | .orderScan _ | .unknownKind _
  | .defineUnit _ | .loadCurve _ | .setLoop _ | .setTiming _ | .setWatch _ | .setNotices _ | .snapshot _
  | .intakeOn _ | .intakeOff _ | .hold _ | .release _ | .clearFault _ | .abort _ | .preset _ | .trim _ | .sweep _
  | .zero _ | .waitingOrderStart _ | .lineCycle _ | .moveTimeout _ _ | .sweepTimeout _ | .scanOpen _ _ _
  | .unitBlock _ _ | .scanClose _ _ | .unreadableFrame _ | .scanTimeout _ => false

end Sys2Proof

namespace Sys2Proof.Machine

/-! ### Laws of the zone table, the curves and the orders -/

/-- Every zone's offset lies within −300 to +300 (the law of R129). -/
def State.offsetsInRange (s : State) : Prop := ∀ u z, -300 ≤ (s.zone u z).offset ∧ (s.zone u z).offset ≤ 300

/-- A stored curve is always valid (R7). -/
def State.curvesValid (s : State) : Prop := ∀ c : Fin 8, curveValid s.curves[c] = true

/-- A zone's sample list holds at most 8 densities, and it is empty whenever the zone is not in REST (of the law of R118). -/
def State.samplesLawful (s : State) : Prop :=
  ∀ u z, (s.zone u z).samples.length ≤ 8 ∧ ((s.zone u z).state ≠ .rest → (s.zone u z).samples = [])

/-- A defined unit's o_min lies below its o_max (R1). -/
def State.boundsLawful (s : State) : Prop := ∀ u c, (s.unit u).config = some c → c.oMin < c.oMax

/-- The target of every zone, when present, lies within its unit's o_min to o_max (the law of R4). -/
def State.targetsInRange (s : State) : Prop :=
  ∀ u z t, (s.zone u z).target = some t → ∃ c, (s.unit u).config = some c ∧ c.oMin ≤ t ∧ t ≤ c.oMax

/-- Commanded, move kind and move tag hold a value exactly when the zone is MOVING, and the fault cause exactly when it is
FAULTED (R3). -/
def State.zoneFieldsLawful (s : State) : Prop :=
  ∀ u z, ((s.zone u z).commanded.isSome ↔ (s.zone u z).state = .moving)
    ∧ ((s.zone u z).moveKind.isSome ↔ (s.zone u z).state = .moving)
    ∧ ((s.zone u z).moveTag.isSome ↔ (s.zone u z).state = .moving)
    ∧ ((s.zone u z).faultCause.isSome ↔ (s.zone u z).state = .faulted)

/-- How many entries of line n's pending list are zone z's. -/
def Line.entriesOf (l : Line) (z : ZoneNo) : Nat := l.pendingList.countP fun p => p.zone == z

/-- A zone appears in its line's pending list exactly when its state is PENDING, and never more than once (the law of R45). -/
def State.pendingLawful (s : State) : Prop :=
  ∀ u z, (s.line u).entriesOf z = if (s.zone u z).state = .pending then 1 else 0

/-- How many zones of unit u are MOVING. -/
def UnitRec.movingZones (r : UnitRec) : Nat := (ascending 64).countP fun z => (r.zones[z]).state == .moving

/-- The grants held: a zone holds one exactly when it is MOVING, and the counts say so (the law of R10, R48). -/
def State.grantsLawful (s : State) : Prop :=
  (∀ n, (s.line n).grants = (s.unit n).movingZones) ∧ s.partGrants = ((ascending 16).map fun n => (s.line n).grants).sum

/-- The zones holding drive grants never number more than the line budget on a line, nor more than the part drive budget across
the part; none is held while the part is not ATTACHED (the law of R48, R70). -/
def State.budgetsLawful (s : State) : Prop :=
  (∀ n, (s.line n).grants ≤ (s.unit n).lineBudget) ∧ (if s.attached then s.partGrants ≤ s.driveBudget else s.partGrants = 0)

/-- A unit never has more than one tracked order that is WAITING or RUNNING (the law of R172). -/
def State.oneOrderEach (s : State) : Prop := ∀ u, ¬((s.unit u).tracked.isSome ∧ (s.unit u).waiting.isSome)

/-! ### Orders due to be taken -/

/-- The ring slots of the orders that units hold, RUNNING or WAITING. -/
def State.heldSlots (s : State) : List Nat :=
  (ascending 16).flatMap fun u => ((s.unit u).tracked.map (·.slot)).toList ++ ((s.unit u).waiting.map (·.order.slot)).toList

/-- The ring offsets of an ATTACHED part and the slots of the orders that units hold lie in its ring; a part that is not ATTACHED holds no
order (9.4, R163). -/
def State.slotsInRing (s : State) : Prop :=
  match s.port.state, s.port.anchor with
  | .attached, some a => s.port.take < a.ringLength ∧ s.port.putValid < a.ringLength ∧ ∀ k ∈ s.heldSlots, k < a.ringLength
  | .attached, none => True
  | .detached, _ | .attaching, _ => s.heldSlots = []

/-- The words that the end of an event may write (R12, R164 to R166): word 15, the status and detail of a tracked order's slot,
the zone mirror and the status area. -/
def State.eventWord (s : State) (x : Nat) : Prop :=
  ∃ a, s.port.anchor = some a ∧
    (x = 15 ∨ (∃ u o, (s.unit u).tracked = some o ∧ a.slotWord o.slot 14 ≤ x ∧ x ≤ a.slotWord o.slot 15)
      ∨ (a.mirrorBase ≤ x ∧ x < a.mirrorBase + Config.mirrorWords) ∨ (a.statusBase ≤ x ∧ x < a.statusBase + Config.statusWords))

/-- A word of unit u's mirror block (R165). -/
def Anchor.inBlock (a : Anchor) (u : UnitNo) (x : Nat) : Prop := a.blockBase u ≤ x ∧ x < a.blockBase u + Config.blockWords

/-- A word of the zone mirror (R165). -/
def Anchor.inMirror (a : Anchor) (x : Nat) : Prop := a.mirrorBase ≤ x ∧ x < a.mirrorBase + Config.mirrorWords

/-- A word of the status area (R166). -/
def Anchor.inStatus (a : Anchor) (x : Nat) : Prop := a.statusBase ≤ x ∧ x < a.statusBase + Config.statusWords

/-- A word of the reading store (R154, R167). -/
def Anchor.inStore (a : Anchor) (x : Nat) : Prop := a.storeBase ≤ x ∧ x < a.storeBase + a.segments * a.segmentSize

/-- The status or detail word of a slot whose order a unit holds (R163). -/
def State.heldWord (s : State) (a : Anchor) (x : Nat) : Prop :=
  ∃ k, k ∈ s.heldSlots ∧ (x = a.slotWord k 14 ∨ x = a.slotWord k 15)

/-- The words the part writes for the orders that units hold, in the mirror and in the status area. -/
def State.reportWord (s : State) (a : Anchor) (x : Nat) : Prop := s.heldWord a x ∨ a.inMirror x ∨ a.inStatus x

/-- The part is ATTACHED, and `a` is its anchor copy: its regions lie in the exchange memory and share no word, as R157 asks of every
anchor it lets in. -/
structure State.Linked (s : State) (a : Anchor) : Prop where
  attached : s.port.state = .attached
  anchor : s.port.anchor = some a
  inMemory : a.regions.all Region.inMemory = true
  disjoint : disjointRegions (anchorRegion :: a.regions) = true
  wf : Memory.wf s.mem = true

/-- The slot at T with the host's writes landed, as a take reads it (R163). -/
def State.dueSlot (s : State) (host : List HostWrite) (a : Anchor) : Decode.Slot :=
  { words := Memory.readWords (Memory.hostWrites s.mem host) (a.slotWord s.port.take 0) Config.slotWords }

/-- With the host's writes landed, the slot at T is due to be taken and holds `slot`: T lies in the ring and in no slot that a
unit's order holds. Every run of the part leaves it so (R157, R162, R164). -/
structure State.Due (s : State) (host : List HostWrite) (a : Anchor) (slot : Decode.Slot) : Prop extends s.Linked a where
  inRing : s.port.take < a.ringLength
  free : s.port.take ∉ s.heldSlots
  due : s.port.take ≠ s.port.putValid
  holds : slot = s.dueSlot host a

/-- The words a take itself may write: the offsets T and R, and the status and detail of the slot at T (R163, R164). -/
def State.takeWord (s : State) (a : Anchor) (x : Nat) : Prop :=
  x = 14 ∨ x = 15 ∨ x = a.slotWord s.port.take 14 ∨ x = a.slotWord s.port.take 15

/-- The slot at T of `before` shows a status and detail in `after`, and T has advanced past it, in the port and in word 14
(R163). Beside the host's writes and the words of the take, only the words `written` names may have changed. -/
structure TakenWith (before after : State) (host : List HostWrite) (a : Anchor) (st : Status) (d : Detail)
    (written : Nat → Prop) : Prop where
  status : Memory.read after.mem (a.slotWord before.port.take 14) = statusWord st d
  detail : Memory.read after.mem (a.slotWord before.port.take 15) = detailWord d
  take : after.port.take = ringNext a.ringLength before.port.take
  word14 : Memory.read after.mem 14 = wordOf (ringNext a.ringLength before.port.take)
  others : ∀ x, ¬before.takeWord a x → ¬written x → Memory.read after.mem x = Memory.read (Memory.hostWrites before.mem host) x

/-! ### What the part writes -/

/-- Unit u's mirror block has been written once, and shows the unit as it now stands (R165). -/
structure State.MirrorWritten (s t : State) (a : Anchor) (u : UnitNo) : Prop where
  count : t.port.updateCounts[u] = s.port.updateCounts[u] + 2
  block : Memory.readWords t.mem (a.blockBase u) Config.blockWords = mirrorBlock t.port.updateCounts[u] (t.unit u)

/-- The mirror block of every unit of which a zone has changed its state has been written (R12, R165). -/
def State.MirrorsChanges (s t : State) (a : Anchor) : Prop :=
  ∀ u, (∃ z, (t.zone u z).state ≠ (s.zone u z).state) → s.MirrorWritten t a u

/-- Ring slot k shows a status and its detail (R163, R170, R171). -/
structure State.SlotShows (t : State) (a : Anchor) (k : Nat) (st : Status) (d : Detail) : Prop where
  status : Memory.read t.mem (a.slotWord k 14) = statusWord st d
  detail : Memory.read t.mem (a.slotWord k 15) = detailWord d

/-- A slot has become final, and no other one (R164): it joins the finished set, and R passes slots of the set one at a time, each
leaving it, to the first that is not in it. Word 15 then holds R, RETIRE MARK is raised when a value R took equals the notice offset
last read, and FLAGGED ORDER when the slot's notify flag is set. -/
def State.Retires (s t : State) (a : Anchor) (slot : Nat) (notify : Bool) : Prop :=
  let r (i : Nat) : Nat := (ringNext a.ringLength)^[i] s.port.retire
  ∃ k, t.port.retire = r k ∧ r k ∉ t.port.finished
    ∧ ((List.range k).map r ++ t.port.finished).Perm
      (if slot ∈ s.port.finished then s.port.finished else s.port.finished ++ [slot])
    ∧ (0 < k → Memory.read t.mem 15 = wordOf (r k))
    ∧ (t.noticePending .retireMark = true ↔ s.noticePending .retireMark = true
      ∨ ∃ i < k, s.port.noticeOffset = some (wordOf (r (i + 1))))
    ∧ t.noticePending .flaggedOrder = (s.noticePending .flaggedOrder || notify)

/-- Every slot from R up to T is final or held by a unit, the slot at R and the slot at T not final, and the units of a running check
share its order, as every run of the part leaves it (R98, R163, R164). -/
structure State.RingAccounted (s : State) (a : Anchor) : Prop where
  retire : s.port.retire < a.ringLength
  take : s.port.take < a.ringLength
  accounted : ∀ i < ringDistance a.ringLength s.port.retire s.port.take,
    let k := (ringNext a.ringLength)^[i] s.port.retire
    k ∈ s.port.finished ∨ k ∈ s.heldSlots
  retireOpen : s.port.retire ∉ s.port.finished
  takeOpen : s.port.take ∉ s.port.finished ∧ s.port.take ∉ s.heldSlots
  shared : ∀ c, s.check = some c → (s.unit c.lineA).tracked = (s.unit c.lineB).tracked

/-- Unit u's older order, RUNNING or WAITING, shows SUPERSEDED with its detail (R171, R173; for a WAITING one log entry 19), where its
slot lies in the ring and no other order shares it. -/
def State.Superseded (s t : State) (u : UnitNo) (a : Anchor) : Prop :=
  ∀ o, ((s.unit u).tracked = some o ∨ ((s.unit u).tracked = none ∧ (s.unit u).waiting.map (·.order) = some o)) →
    o.slot < a.ringLength → s.heldSlots.count o.slot = 1 →
    t.SlotShows a o.slot .superseded (o.finalDetail (s.unit u) .none)

/-! ### What stays -/

/-- The exchange port but for the ring offsets, the finished set and the update counts; a pending notice stays pending. -/
structure Port.Kept (p p' : Port) : Prop where
  state : p'.state = p.state
  anchor : p'.anchor = p.anchor
  detachDeferred : p'.detachDeferred = p.detachDeferred
  putValid : p'.putValid = p.putValid
  noticeOffset : p'.noticeOffset = p.noticeOffset
  scanTimer : p'.scanTimer = p.scanTimer
  fault : p'.fault = p.fault
  notices : p.notices &&& p'.notices = p.notices
  mask : p'.mask = p.mask
  lastFailure : p'.lastFailure = p.lastFailure
  lastOutcome : p'.lastOutcome = p.lastOutcome
  commandWord : p'.commandWord = p.commandWord
  segment : p'.segment = p.segment
  openSegment : p'.openSegment = p.openSegment
  fillSequence : p'.fillSequence = p.fillSequence
  lostScans : p'.lostScans = p.lostScans
  snapshotSheet : p'.snapshotSheet = p.snapshotSheet
  handedMarks : p'.handedMarks = p.handedMarks

/-- Every block but the unit records and the exchange port: the curves, the lines and the scheduler, the check unit, the
reading intake, the press timing unit, the scan-request output, and the queue. -/
structure State.SameMachine (s t : State) : Prop where
  curves : t.curves = s.curves
  lines : t.lines = s.lines
  partGrants : t.partGrants = s.partGrants
  pointer : t.pointer = s.pointer
  check : t.check = s.check
  intake : t.intake = s.intake
  timing : t.timing = s.timing
  scanPulses : t.scanPulses = s.scanPulses
  pending : t.pending = s.pending

/-- Every block but the exchange port. -/
structure State.SameBlocks (s t : State) : Prop extends s.SameMachine t where
  units : t.units = s.units

/-- The fields of a zone record that no move touches: its computed opening, offset, target, position and settle sheet. -/
structure Zone.SameAims (z z' : Zone) : Prop where
  coverage : z'.coverage = z.coverage
  base : z'.base = z.base
  plan : z'.plan = z.plan
  offset : z'.offset = z.offset
  target : z'.target = z.target
  position : z'.position = z.position
  settleSheet : z'.settleSheet = z.settleSheet

/-- The fields of a unit record beside its zones and the tracked order. -/
structure UnitRec.SameSettings (r r' : UnitRec) : Prop where
  config : r'.config = r.config
  currentSweep : r'.currentSweep = r.currentSweep
  loopOn : r'.loopOn = r.loopOn
  loopParams : r'.loopParams = r.loopParams
  waiting : r'.waiting = r.waiting
  staged : r'.staged = r.staged
  sweepFault : r'.sweepFault = r.sweepFault

/-- The fields of a line that neither grants nor queued frames touch. -/
structure Line.SameService (l l' : Line) : Prop where
  power : l'.power = l.power
  stopTaken : l'.stopTaken = l.stopTaken
  startTimer : l'.startTimer = l.startTimer
  modules : l'.modules = l.modules
  keyTags : l'.keyTags = l.keyTags
  fountainTags : l'.fountainTags = l.fountainTags
  fountain : l'.fountain = l.fountain
  cycle : l'.cycle = l.cycle
  sentFrame : l'.sentFrame = l.sentFrame
  checkResult : l'.checkResult = l.checkResult

/-! ### The rows that take an order -/

/-- The rows whose orders name a unit, each with the slots it takes (R2, log entry 5). -/
def unitRows (host : List HostWrite) : List (Instr × (Decode.Slot → Bool)) :=
  [(.defineUnit host, ofKind .defineUnit), (.setLoop host, ofKind .setLoop), (.setWatch host, ofKind .setWatch),
    (.hold host, ofKind .hold), (.release host, ofKind .release), (.clearFault host, ofKind .clearFault),
    (.abort host, ofKind .abort), (.preset host, ofKind .preset), (.trim host, ofKind .trim), (.sweep host, ofKind .sweep),
    (.zero host, ofKind .zero), (.linePowerOn host, fun slot => ofKind .linePower slot && wholeWord slot 3 != 0),
    (.linePowerOff host, fun slot => ofKind .linePower slot && wholeWord slot 3 != 1), (.checkLines host, ofKind .checkLines)]

/-- The rows whose orders name a defined unit (R2). -/
def definedUnitRows (host : List HostWrite) : List (Instr × (Decode.Slot → Bool)) :=
  [(.setLoop host, ofKind .setLoop), (.hold host, ofKind .hold), (.release host, ofKind .release),
    (.clearFault host, ofKind .clearFault), (.preset host, ofKind .preset), (.trim host, ofKind .trim),
    (.sweep host, ofKind .sweep), (.zero host, ofKind .zero)]

/-- A slot's order is refused with a reason: its slot shows it (R171; log entry 19) and is retired, and nothing else of the part
changes. -/
def RefusedWith (s : State) (c : Instr) (host : List HostWrite) (a : Anchor) (r : Reason) : Prop :=
  ∃ t, exec c s = .next t ∧ TakenWith s t host a .refused (s.refusalDetail (s.dueSlot host a) r) (fun _ => False) ∧ s.SameBlocks t
    ∧ s.port.Kept t.port ∧ s.Retires t a s.port.take (s.dueSlot host a).notify

/-! ### Zones and their moves -/

/-- A zone that has to be driven to x is PENDING, or MOVING to x once it has been granted (R11, R53). -/
def State.Driven (t : State) (u : UnitNo) (z : ZoneNo) (x : Nat) : Prop :=
  (t.zone u z).state = .pending
    ∨ ((t.zone u z).state = .moving ∧ (t.zone u z).moveKind = some .position ∧ (t.zone u z).commanded = some x)

/-- A zone has taken the outcome of the placement test for the target x (R11). -/
def State.PlacedFor (s t : State) (u : UnitNo) (z : ZoneNo) (tolerance x : Nat) : Prop :=
  if s.moduleState u z = .missing then (t.zone u z).state = .faulted ∧ (t.zone u z).faultCause = some .noFeedback
  else match (s.zone u z).position with
    | none => t.Driven u z x
    | some p => if tolerance < distance x p then t.Driven u z x else (t.zone u z).state = .rest

/-- A MOVING zone has been given the new target x (R55, R56). -/
def State.Redirected (s t : State) (u : UnitNo) (z : ZoneNo) (c : UnitConfig) (x : Nat) : Prop :=
  (t.zone u z).state = .moving ∧ match (s.zone u z).moveKind, (s.zone u z).commanded with
    | some .position, some y =>
      if distance x y ≤ c.tolerance then
        (t.zone u z).commanded = some y ∧ (t.zone u z).moveTag = (s.zone u z).moveTag
          ∧ (t.zone u z).attempts = (s.zone u z).attempts ∧ (t.zone u z).moveTimer = (s.zone u z).moveTimer
      else
        (t.zone u z).commanded = some x ∧ (t.zone u z).attempts = 0 ∧ (t.zone u z).moveTimer = some c.moveTimeout
          ∧ if s.frameQueued u z then
              (t.zone u z).moveTag = (s.zone u z).moveTag
                ∧ ∀ f ∈ (t.line u).queue.motion, ∀ y g, f = .move z y g → y = x
            else ∃ g, (t.zone u z).moveTag = some g ∧ .move z x g ∈ (t.line u).queue.motion
              ∧ g ≠ (s.line u).keyTags[z].reported ∧ g ≠ (s.line u).keyTags[z].sent
    | some .zero, _ => (t.zone u z).moveKind = some .zero ∧ (t.zone u z).commanded = (s.zone u z).commanded
        ∧ (t.zone u z).moveTag = (s.zone u z).moveTag ∧ (t.zone u z).attempts = (s.zone u z).attempts
        ∧ (t.zone u z).moveTimer = (s.zone u z).moveTimer
    | _, _ => True

/-- A zone has acted on the new target x, by its state (R13). One that waits for a zero move keeps it (R47), but on a module that is
MISSING, which R11 looks at first (log entry 27). -/
def State.Reacted (s t : State) (u : UnitNo) (z : ZoneNo) (c : UnitConfig) (x : Nat) : Prop :=
  match (s.zone u z).state with
  | .rest => s.PlacedFor t u z c.tolerance x
  | .pending =>
    if s.zeroEntry u z then
      if s.moduleState u z = .missing then
        (t.zone u z).state = .faulted ∧ (t.zone u z).faultCause = some .noFeedback
      else
        ((t.zone u z).state = .pending ∧ t.zeroEntry u z = true)
          ∨ ((t.zone u z).state = .moving ∧ (t.zone u z).moveKind = some .zero)
    else s.PlacedFor t u z c.tolerance x
  | .moving => s.Redirected t u z c x
  | .held => (t.zone u z).state = .held
  | .faulted => (t.zone u z).state = .faulted ∧ (t.zone u z).faultCause = (s.zone u z).faultCause
  | .off => (t.zone u z).state = .off

/-- The arbiter could grant to line m, after a run that began at `s` has granted to the lines `given`, one grant each (R51). -/
def State.Grantable (s t : State) (given : List LineNo) (m : LineNo) : Prop :=
  s.port.state = .attached ∧ (t.line m).inService = true ∧ given.count m < (s.line m).pendingList.length
    ∧ (s.line m).grants + given.count m < (s.unit m).lineBudget ∧ s.partGrants + given.length < s.driveBudget

/-- A line's tag counter once the first i entries of its pending list have drawn their tags, from `start` on (R54). -/
def Line.tagAfter (l : Line) (start : Tag) (i : Nat) : Tag :=
  (l.pendingList.take i).foldl (fun c p => nextTag c l.keyTags[p.zone] + 1) start

/-- An entry of line m's pending list has been granted, with the tag g (R53, R54). -/
structure State.Granted (s t : State) (m : LineNo) (p : PendingEntry) (g : Tag) : Prop where
  state : (t.zone m p.zone).state = .moving
  kind : (t.zone m p.zone).moveKind = some p.kind
  attempts : (t.zone m p.zone).attempts = 0
  timer : (t.zone m p.zone).moveTimer = some (s.unit m).moveTimeout
  halt : p.zone ∉ (t.line m).queue.halts
  tag : (t.zone m p.zone).moveTag = some g
  fresh : g ≠ (s.line m).keyTags[p.zone].reported ∧ g ≠ (s.line m).keyTags[p.zone].sent
  frame : match p.kind with
    | .position => (t.zone m p.zone).commanded = some ((s.zone m p.zone).target.getD 0)
      ∧ .move p.zone ((s.zone m p.zone).target.getD 0) g ∈ (t.line m).queue.motion
    | .zero => (t.zone m p.zone).commanded = some 0 ∧ .zero p.zone g ∈ (t.line m).queue.motion

/-- One run of the arbiter has granted to the lines `given`, in this order (R52, R53): each grant to the first line after the pointer
that can take one, the pointer following; the run ends when none can. On each line the entries granted are those at its front, and they draw
their tags in order from `start` on, which is where the line's tag counter stood when the run began (R54). -/
structure State.ArbiterRan (s t : State) (given : List LineNo) (start : LineNo → Tag) : Prop where
  each : ∀ i n, given[i]? = some n → s.Grantable t (given.take i) n
    ∧ ∀ m, s.Grantable t (given.take i) m →
      (n - ((given.take i).getLastD s.pointer + 1)).val ≤ (m - ((given.take i).getLastD s.pointer + 1)).val
  whole : ∀ m, ¬s.Grantable t given m
  pointer : t.pointer = given.getLastD s.pointer
  partGrants : t.partGrants = s.partGrants + given.length
  grants : ∀ m, (t.line m).grants = (s.line m).grants + given.count m
  lists : ∀ m, (t.line m).pendingList = (s.line m).pendingList.drop (given.count m)
  granted : ∀ m i p, i < given.count m → (s.line m).pendingList[i]? = some p →
    s.Granted t m p (nextTag ((s.line m).tagAfter (start m) i) (s.line m).keyTags[p.zone])
  counters : ∀ m, (t.line m).tagCounter = (s.line m).tagAfter (start m) (given.count m)

/-! ### Line cycles -/

/-- A line cycle has begun (R54, R77, R80, R82): the line has sent the frame at the front of its queue, IDLE when it is empty, and the nine
reply slots follow; with stop taken the cycle is the last. Nothing else of the line has changed. -/
structure Line.CycleBegan (l l' : Line) : Prop where
  cycle : l'.cycle = some { slot := 0, last := l.stopTaken }
  sent : if l.queue.haltAll then
      l'.sentFrame = some haltAllFrame ∧ l'.queue = { l.queue with haltAll := false } ∧ l'.keyTags = l.keyTags
        ∧ l'.fountainTags = l.fountainTags
    else match l.queue.halts, l.queue.motion with
      | z :: hs, ms => l'.sentFrame = some (haltFrame z) ∧ l'.queue = { haltAll := false, halts := hs, motion := ms }
        ∧ l'.keyTags = l.keyTags ∧ l'.fountainTags = l.fountainTags
      | [], f :: fs => l'.sentFrame = some (motionWord f) ∧ l'.queue = { haltAll := false, halts := [], motion := fs }
        ∧ (∀ z : ZoneNo, (l'.keyTags[z]).reported = (l.keyTags[z]).reported ∧ (l'.keyTags[z]).sent = (match f with
          | .move y _ g => if y = z then g else (l.keyTags[z]).sent
          | .zero y g => if y = z then g else (l.keyTags[z]).sent
          | .sweep _ _ => (l.keyTags[z]).sent))
        ∧ l'.fountainTags.reported = l.fountainTags.reported
        ∧ l'.fountainTags.sent = (match f with
          | .sweep _ g => g
          | .move _ _ _ | .zero _ _ => l.fountainTags.sent)
      | [], [] => l'.sentFrame = some idleFrame ∧ l'.queue = l.queue ∧ l'.keyTags = l.keyTags ∧ l'.fountainTags = l.fountainTags
  power : l'.power = l.power
  stopTaken : l'.stopTaken = l.stopTaken
  startTimer : l'.startTimer = l.startTimer
  checkResult : l'.checkResult = l.checkResult
  pendingList : l'.pendingList = l.pendingList
  tagCounter : l'.tagCounter = l.tagCounter
  modules : l'.modules = l.modules
  fountain : l'.fountain = l.fountain
  grants : l'.grants = l.grants

/-! ### What an order leaves -/

/-- A zone after the pass of a PRESET start on a unit with this configuration, coverage, bases and sweep (R40). -/
structure Zone.Preset (z z' : Zone) (c : UnitConfig) (cov opening sweep : Nat) (policy : OffsetPolicy) : Prop where
  coverage : z'.coverage = some cov
  base : z'.base = some opening
  plan : z'.plan = some (planValue c cov opening sweep)
  offset : z'.offset = match policy with | .clear => 0 | .keep => z.offset
  target : z'.target = some (targetValue c (planValue c cov opening sweep) z'.offset)
  position : z'.position = z.position
  settleSheet : z'.settleSheet = z.settleSheet
  samples : policy = .clear → z'.samples = []

/-- Unit u has made the pass of a PRESET start from a staged coverage (R30, R35, R40): from `s` to `t`. Its zones 1 to Z have acted on
their new targets (R13). -/
def PresetMade (s t : State) (u : UnitNo) (c : UnitConfig) (coverage : Vector Nat 64) (policy : OffsetPolicy) : Prop :=
  let bases := s.basesOf c coverage
  let sweep := chooseSweep c coverage bases
  (t.unit u).currentSweep = some sweep ∧ (t.line u).fountain.wanted = some sweep ∧ (t.unit u).staged = none
    ∧ (t.unit u).config = some c
    ∧ (∀ z : ZoneNo, z.val < c.zoneCount → (s.zone u z).Preset (t.zone u z) c coverage[z] bases[z] sweep policy)
    ∧ (∀ z : ZoneNo, ¬z.val < c.zoneCount → (s.zone u z).SameAims (t.zone u z))
    ∧ (s.pendingLawful → ∀ z : ZoneNo, z.val < c.zoneCount → s.Reacted t u z c
        (targetValue c (planValue c coverage[z] bases[z] sweep) (t.zone u z).offset))

/-- The offset of a zone after the pairs of a TRIM that name it, in order (R138). -/
def trimmedOffset (z : ZoneNo) (old : Int) (pairs : List (ZoneNo × Int)) : Int :=
  (pairs.filter fun p => p.1 == z).foldl (fun x p => saturateOffset (x + p.2)) old

/-- Unit u has made the pass of a TRIM (R138): from `s` to `t`. A zone named that has a plan has acted on its new target (R13); one
that is MOVING and named by several pairs acts on each, and ends with its move within tolerance of the last. -/
def TrimMade (s t : State) (u : UnitNo) (c : UnitConfig) (pairs : List (ZoneNo × Int)) : Prop :=
  (∀ z : ZoneNo, (t.zone u z).offset = trimmedOffset z (s.zone u z).offset pairs
    ∧ (t.zone u z).plan = (s.zone u z).plan ∧ (t.zone u z).coverage = (s.zone u z).coverage ∧ (t.zone u z).base = (s.zone u z).base
    ∧ (t.zone u z).position = (s.zone u z).position ∧ (t.zone u z).settleSheet = (s.zone u z).settleSheet
    ∧ (t.zone u z).target = (if pairs.any (fun p => p.1 == z) then
        ((s.zone u z).plan.map fun p => targetValue c p (t.zone u z).offset).or (s.zone u z).target
      else (s.zone u z).target))
    ∧ (t.unit u).config = (s.unit u).config ∧ (t.unit u).currentSweep = (s.unit u).currentSweep
    ∧ (s.pendingLawful → ∀ z : ZoneNo, 0 < pairs.countP (fun p => p.1 == z) → ∀ x, (s.zone u z).plan = some x →
        let target := targetValue c x (t.zone u z).offset
        ((s.zone u z).state ≠ .moving ∨ pairs.countP (fun p => p.1 == z) = 1 → s.Reacted t u z c target)
        ∧ ((s.zone u z).state = .moving → (t.zone u z).state = .moving
          ∧ ((s.zone u z).moveKind = some .position → distance target ((t.zone u z).commanded.getD 0) ≤ c.tolerance)))

/-- Unit u has made the pass of a SWEEP (R41): from `s` to `t`. Its zones that have a base have acted on their new targets (R13). -/
def SweepMade (s t : State) (u : UnitNo) (c : UnitConfig) (value : Nat) : Prop :=
  (t.unit u).config = some { c with sweepMode := .fixed, fixedSweep := value } ∧ (t.unit u).currentSweep = some value
    ∧ (t.line u).fountain.wanted = some value
    ∧ ∀ z : ZoneNo, (t.zone u z).offset = (s.zone u z).offset ∧ (t.zone u z).coverage = (s.zone u z).coverage
      ∧ (t.zone u z).base = (s.zone u z).base ∧ (t.zone u z).position = (s.zone u z).position
      ∧ (t.zone u z).settleSheet = (s.zone u z).settleSheet
      ∧ match (s.zone u z).base with
        | some b =>
          if z.val < c.zoneCount then
            (t.zone u z).plan = some (planValue c ((s.zone u z).coverage.getD 0) b value)
              ∧ (t.zone u z).target = some (targetValue c (planValue c ((s.zone u z).coverage.getD 0) b value) (s.zone u z).offset)
              ∧ (s.pendingLawful → s.Reacted t u z c
                  (targetValue c (planValue c ((s.zone u z).coverage.getD 0) b value) (s.zone u z).offset))
          else (t.zone u z).plan = (s.zone u z).plan ∧ (t.zone u z).target = (s.zone u z).target
        | none => (t.zone u z).plan = (s.zone u z).plan ∧ (t.zone u z).target = (s.zone u z).target

/-- Units other than u keep their settings and orders, and their zones keep their openings, offsets, targets and positions. -/
def State.OtherUnits (s t : State) (u : UnitNo) : Prop :=
  ∀ v, v ≠ u → (s.unit v).SameSettings (t.unit v)
    ∧ ((t.unit v).tracked = (s.unit v).tracked ∨ (t.unit v).tracked = none)
    ∧ (∀ z, (s.zone v z).SameAims (t.zone v z)) ∧ (s.line v).SameService (t.line v)

/-- The blocks that a work order leaves alone. -/
structure State.SameOutside (s t : State) : Prop where
  curves : t.curves = s.curves
  check : t.check = s.check
  intake : t.intake = s.intake
  timing : t.timing = s.timing
  scanPulses : t.scanPulses = s.scanPulses
  pending : t.pending = s.pending

/-- The order of the slot being taken waits for its sheet: it has superseded the unit's older order, whose slot shows it, and no zone
has changed (R173, R174). -/
def State.OrderWaits (s t : State) (u : UnitNo) (host : List HostWrite) (a : Anchor) (slot : Decode.Slot) (kind : TrackedKind)
    (d : Detail) : Prop :=
  TakenWith s t host a .waiting d (s.heldWord a) ∧ s.Superseded t u a ∧ (t.unit u).tracked = none
    ∧ (∃ w, (t.unit u).waiting = some w ∧ w.order.slot = s.port.take ∧ w.order.kind = kind ∧ w.order.notify = slot.notify
      ∧ w.atSheet = slot.atSheet ∧ w.released = false)
    ∧ (∀ v z, t.zone v z = s.zone v z) ∧ (∀ v, v ≠ u → t.unit v = s.unit v) ∧ s.SameMachine t

/-- A fountain sweep move to the unit's current sweep is in flight, for which an order that hands it over waits (R35, R176). -/
def State.fountainMoves (t : State) (u : UnitNo) : Bool := (t.line u).fountain.move.any fun m => (t.unit u).currentSweep == some m.value

/-- The status and detail that a work order of unit u shows after its start, with these zones concerned, fountain wait and counts (R170,
R171). On a line that is not in service it completes, with cause MOVES DEFERRED while a zone concerned is PENDING (R177). On one that is, it
completes when every zone concerned is REST, HELD or FAULTED and it waits for no fountain (R176), and else it is tracked, with the status
`openStatus`. It completes DONE WITH FAULTS when a zone concerned is FAULTED or the unit has a sweep fault, and DONE otherwise. -/
def State.StartShows (t : State) (u : UnitNo) (slot : Nat) (zones : List ZoneNo) (waits : Bool) (counts : Counts) (openStatus st : Status)
    (d : Detail) : Prop :=
  let counted : Detail := { Detail.only 0 with bandsClamped := counts.bandsClamped, raised := counts.raised, lowered := counts.lowered,
                                               saturated := counts.saturated }
  let completes (cause : Cause) : Prop :=
    st = (if (∃ z ∈ zones, (t.zone u z).state = .faulted) ∨ (t.unit u).sweepFault = true then .doneWithFaults else .done)
      ∧ d = { counted with code := cause.code, zonesFaulted := zones.countP fun z => (t.zone u z).state == .faulted,
                           sweepFault := (t.unit u).sweepFault }
      ∧ (t.unit u).tracked = none
  if (t.line u).inService = false then
    completes (if ∃ z ∈ zones, (t.zone u z).state = .pending then .movesDeferred else .none)
  else if (∀ z ∈ zones, (t.zone u z).state = .rest ∨ (t.zone u z).state = .held ∨ (t.zone u z).state = .faulted) ∧ waits = false then
    completes .none
  else st = openStatus ∧ d = counted ∧ ∃ o, (t.unit u).tracked = some o ∧ o.slot = slot

/-- How many of the zones, each with a sum of plan and offset, stage 7 has raised to o_min, and how many it has lowered to o_max (R39). -/
def clampCounts (c : UnitConfig) (sums : List Int) : Counts :=
  { Counts.zero with raised := sums.countP fun x => decide (x < (c.oMin : Int)), lowered := sums.countP fun x => decide ((c.oMax : Int) < x) }

/-- The counts of a PRESET that clamped `clamped` bands, or of a SWEEP: stage 7 treated zones 1 to Z that have a base (R26, R39, R41). -/
def State.planCounts (t : State) (u : UnitNo) (c : UnitConfig) (clamped : Nat) : Counts :=
  { clampCounts c ((zonesBelow c.zoneCount).filterMap fun z => if (t.zone u z).base.isSome then
      (t.zone u z).plan.map fun p => (p : Int) + (t.zone u z).offset else none) with bandsClamped := clamped }

/-- The counts of a TRIM, pair by pair (R39, R138): a pair reruns stage 7 for a zone that has a plan, and counts as saturated when the
bound stops its sum and the offset did not stand there already. -/
def State.trimCounts (s : State) (u : UnitNo) (c : UnitConfig) (pairs : List (ZoneNo × Int)) : Counts :=
  let before (i : Nat) (z : ZoneNo) : Int := trimmedOffset z (s.zone u z).offset (pairs.take i)
  { clampCounts c (pairs.zipIdx.filterMap fun q => (s.zone u q.1.1).plan.map fun p => (p : Int) + before (q.2 + 1) q.1.1) with
    saturated := pairs.zipIdx.countP fun q =>
      before (q.2 + 1) q.1.1 ≠ before q.2 q.1.1 + q.1.2 ∧ before (q.2 + 1) q.1.1 ≠ before q.2 q.1.1 }

/-- The order of the slot being taken has started: its slot shows it, and it is final and gone, or tracked and ACCEPTED (R170 to R172,
R176, R177). It has superseded the unit's older order, whose slot shows that (R173). -/
def State.StartedOrder (s t : State) (u : UnitNo) (host : List HostWrite) (a : Anchor) (zones : List ZoneNo) (waits : Bool)
    (counts : Counts) : Prop :=
  ∃ st d, TakenWith s t host a st d (s.reportWord a) ∧ t.StartShows u s.port.take zones waits counts .accepted st d
    ∧ s.Superseded t u a

/-- A waiting order has started: its slot shows it RUNNING or final, with what its pass has counted added to its counts (R170, R171, R174,
R176, R177). -/
def State.StartedWaiting (s t : State) (u : UnitNo) (o : OrderRecord) (waits : Bool) (counts : Counts) : Prop :=
  ∀ a, s.Linked a → o.slot < a.ringLength → s.heldSlots.count o.slot = 1 →
    ∃ st d, t.SlotShows a o.slot st d ∧ t.StartShows u o.slot o.zones waits
      { bandsClamped := o.counts.bandsClamped + counts.bandsClamped, raised := o.counts.raised + counts.raised,
        lowered := o.counts.lowered + counts.lowered, saturated := o.counts.saturated + counts.saturated } .running st d

/-- The counts of grants with the one that a zone of unit u held released (R10, R48). -/
def State.withGrantReleased (s : State) (u : UnitNo) : State :=
  { s with lines := s.lines.set u { s.line u with grants := (s.line u).grants - 1 }, partGrants := s.partGrants - 1 }

/-! ### Scans and their records -/

/-- The code of a reading of a COMPLETE scan by the list of R116, the zone being as it stands in `s`: STALE when the measured sheet is
not one of the last 1,000 or the counter's own (R115). -/
def State.codeOf (s : State) (u : UnitNo) (z : ZoneNo) (measured : Sheet) (entry : Entry) : ReadingCode :=
  if 1000 < (s.timing.counter - measured).toNat then .stale
  else if ¬(s.timing.run = .running ∧ s.timing.impression = true) then .notPrinting
  else match entry with
    | .outOfRange => .outOfRange
    | .patchAbsent => .patchAbsent
    | .density d =>
      if 3000 < d.toNat then .outOfRange
      else match (s.zone u z).state, (s.zone u z).settleSheet with
        | .held, _ | .faulted, _ | .off, _ => .zoneNotMetering
        | .pending, _ | .moving, _ => .settling
        | .rest, some b => if (measured - b).toInt < 0 then .settling else .validDensity
        | .rest, none => .validDensity

/-- The readings of a COMPLETE scan with their codes, unit by unit (R116, R117, R125). -/
def State.codedGroups (s : State) (scan : OpenScan) : List (UnitNo × List (Entry × ReadingCode)) :=
  (ascending 16).filterMap fun u => (scan.blocks[u]).map fun entries =>
    (u, (zonedEntries (s.unit u).zoneCount entries).map fun p => (p.2, s.codeOf u p.1 scan.sheet p.2))

/-- The VALID DENSITY readings of a COMPLETE scan, in the order they are treated (R117). -/
def State.validReadings (s : State) (scan : OpenScan) : List (UnitNo × ZoneNo × Nat) :=
  (ascending 16).flatMap fun u => match scan.blocks[u] with
    | none => []
    | some entries => (zonedEntries (s.unit u).zoneCount entries).filterMap fun p => match p.2 with
      | .density d => if s.codeOf u p.1 scan.sheet p.2 = .validDensity then some (u, p.1, d.toNat) else none
      | .patchAbsent | .outOfRange => none

/-- A correction step of size d has been applied to zone z (R133). -/
def State.Stepped (s t : State) (u : UnitNo) (z : ZoneNo) (p : LoopParams) (d : Int) : Prop :=
  (t.zone u z).offset = max (-300) (min 300 ((s.zone u z).offset + d)) ∧ (t.zone u z).samples = []
    ∧ (t.zone u z).settleSheet = some (s.timing.counter + BitVec.ofNat 32 p.settleW)
    ∧ match (s.zone u z).plan, (s.unit u).config with
      | some x, some c => (t.zone u z).target = some (targetValue c x (t.zone u z).offset)
        ∧ s.PlacedFor t u z c.tolerance (targetValue c x (t.zone u z).offset)
      | _, _ => (t.zone u z).target = (s.zone u z).target ∧ (t.zone u z).state = .rest

/-- A valid density d has been sampled by zone z, and the correction loop has examined the zone (R118, R130, R131, R132). -/
def State.Sampled (s t : State) (u : UnitNo) (z : ZoneNo) (d : Nat) : Prop :=
  let samples := (d :: (s.zone u z).samples).take 8
  match (s.unit u).loopOn, (s.unit u).loopParams with
  | true, some p =>
    let err : Int := p.targetDensity - sampleMean p.samplesA samples
    if samples.length < p.samplesA then t.zone u z = { s.zone u z with samples := samples }
    else if err.natAbs ≤ p.deadband then t.zone u z = { s.zone u z with samples := [] }
    else s.Stepped t u z p (stepSize p err)
  | _, _ => t.zone u z = { s.zone u z with samples := samples }

/-- The readings of a scan that are hits for a density watch entry, in order (R124). -/
def Watch.hits (w : Watch) (readings : List (UnitNo × ZoneNo × Nat)) : List (UnitNo × ZoneNo × Nat) :=
  readings.filter fun r => w.enabled && w.unit == some r.1 && (w.low.any (fun b => decide (r.2.2 < b)) || w.high.any fun b => decide (b < r.2.2))

/-- A record stands in segment `g` from word `fill` on, after `records` others, and the segment is open (R167). -/
structure State.RecordAt (t : State) (a : Anchor) (g fill records : Nat) (sequence : BitVec 16) (record : List Word) : Prop where
  position : t.port.segment = g
  opened : t.port.openSegment = some { fillPoint := fill + record.length, records := records + 1, sequence := sequence }
  words : Memory.readWords t.mem (a.storeBase + g * a.segmentSize + fill) record.length = record
  header : Memory.read t.mem (a.storeBase + g * a.segmentSize) = segmentHeader false (records + 1) sequence

/-- A record has been lost with STORE OVERRUN, segment `g` being the current one and not open (R168). -/
structure State.RecordLost (s t : State) (g : Nat) : Prop where
  position : t.port.segment = g
  opened : t.port.openSegment = none
  sequence : t.port.fillSequence = s.port.fillSequence
  lost : t.port.lostScans = countUp s.port.lostScans
  raised : t.noticePending .storeOverrun = true

/-- A record has been placed from segment `g`, which is not open and whose header is `header` (R167 step 1, R168). The segment is opened with a
header of no record, which the header that counts the record has followed: the model's field `unfinished` holds it (log entry 24). -/
def State.PlacedFrom (s t : State) (a : Anchor) (g : Nat) (header : Word) (record : List Word) : Prop :=
  if Decode.bits header 0 4 = 0 then
    t.RecordAt a g 1 0 s.port.fillSequence record ∧ t.port.fillSequence = s.port.fillSequence + 1
      ∧ t.port.lostScans = s.port.lostScans
      ∧ (a.storeBase + g * a.segmentSize, segmentHeader false 0 s.port.fillSequence) ∈ t.unfinished
  else s.RecordLost t g

/-- A scan record has been stored by an ATTACHED part (R167, R168): opening a segment, in the open one, or after closing it FULL. With
one segment the segment closed is the next one too, and the record is lost. -/
def State.Stores (s t : State) (host : List HostWrite) (a : Anchor) (record : List Word) : Prop :=
  let header (g : Nat) : Word := Memory.read (Memory.hostWrites s.mem host) (a.storeBase + g * a.segmentSize)
  match s.port.openSegment with
  | none => s.PlacedFrom t a s.port.segment (header s.port.segment) record
  | some o =>
    if o.fillPoint + record.length ≤ a.segmentSize then
      t.RecordAt a s.port.segment o.fillPoint o.records o.sequence record ∧ t.port.fillSequence = s.port.fillSequence
        ∧ t.port.lostScans = s.port.lostScans
    else
      Memory.read t.mem (a.storeBase + s.port.segment * a.segmentSize) = segmentHeader true o.records o.sequence
        ∧ t.noticePending .segmentFull = true
        ∧ if a.segments = 1 then s.RecordLost t 0
          else s.PlacedFrom t a (ringNext a.segments s.port.segment) (header (ringNext a.segments s.port.segment)) record

/-- The store position lies in the store of an anchor that R157 lets in, and an open segment has its header behind it (R167). -/
def State.StoreLawful (s : State) (a : Anchor) : Prop :=
  s.port.segment < a.segments ∧ 1100 ≤ a.segmentSize ∧ ∀ o, s.port.openSegment = some o → 1 ≤ o.fillPoint

end Sys2Proof.Machine
end

