-- ==== Sys2Proof/Certificates/Slice0/Obligations.lean ====
section
/-! DEFINITION. The statements for the provers. A premise `s.Due host a slot` says that the slot at T is due, holds `slot`, and that
the anchor copy is one an attach lets in; `s.pendingLawful` is the law of R45, an invariant stated below as
`PendingListsStayLawful`. -/

open Sys2Proof Sys2Proof.Machine Sys2Proof.Decode

/-! ### The queue -/

/-- A step runs the command at the front of the queue with the queue's rest; the queue is the model's (log entry 13). -/
def Obligations.StepRunsFrontCommand : Prop :=
  ∀ (c : Instr) (q : List Instr) (s : State), step (s.withPending (c :: q)) = exec c (s.withPending q)

/-! ### Reset (2.12, 3.8, 8.6, 9.4) -/

/-- The state after reset meets every law that the statements of tier 3 keep; that its memory lists no word is the model's choice (log
entry 2). -/
def Obligations.ResetMeetsEveryLaw : Prop :=
  Memory.wf State.reset.mem = true ∧ State.reset.offsetsInRange ∧ State.reset.curvesValid ∧ State.reset.samplesLawful
    ∧ State.reset.zoneFieldsLawful ∧ State.reset.boundsLawful ∧ State.reset.targetsInRange ∧ State.reset.pendingLawful
    ∧ State.reset.grantsLawful ∧ State.reset.budgetsLawful ∧ State.reset.oneOrderEach ∧ State.reset.slotsInRing

/-- R152: the press timing unit after the reset pin and power-on, whatever was counted before, and the first mark after it. -/
def Obligations.ResetPinSetsPressTiming : Prop :=
  ∀ (s : State) (b : Bool), ∀ c ∈ [Instr.resetPin b, Instr.powerOn b], ∃ t, exec c s = .next t
    ∧ t.timing.counter = 0 ∧ t.timing.run = .stopped ∧ t.timing.runTimer = none ∧ t.timing.impression = b
    ∧ t.timing.watchEnabled = false ∧ t.timing.watchValue = 0 ∧ t.timing.watchMask = BitVec.allOnes 32
    ∧ t.timing.period = 0 ∧ t.timing.count = 0 ∧ t.timing.actSnapshot = false ∧ t.timing.actScanRequest = false
    ∧ ∃ t', exec .sheetMark t = .next t' ∧ t'.timing.counter = 1 ∧ t'.timing.run = .running

/-- The three resets set every block to its reset values (1.2, 1.3, 3.8, 4, 5.1, 6.1, 9.4) but the press timing unit, and the last
command outcome is TAKEN after the RESET command alone. The exchange memory is not cleared; that power-on does not clear it either is
the model's choice (log entry 2). No order slot is written. A write that an ATTACHED part has in progress is abandoned: a word of the
mirror, the status area or the store may hold again what it held before the last event wrote it, and which do is free (log entry 24). -/
def Obligations.ResetsClearTheMachine : Prop :=
  ∀ (s : State) (b : Bool), ∀ r ∈ [(Instr.reset, CommandOutcome.taken), (.resetPin b, .none), (.powerOn b, .none)],
    ∃ t, exec r.1 s = .next t
    ∧ (∀ u, (t.unit u).config = none ∧ (t.unit u).currentSweep = none ∧ (t.unit u).loopOn = false
      ∧ (t.unit u).loopParams = none ∧ (t.unit u).tracked = none ∧ (t.unit u).waiting = none ∧ (t.unit u).staged = none
      ∧ (t.unit u).sweepFault = false)
    ∧ (∀ u z, (t.zone u z).state = .off ∧ (t.zone u z).coverage = none ∧ (t.zone u z).base = none ∧ (t.zone u z).plan = none
      ∧ (t.zone u z).target = none ∧ (t.zone u z).position = none ∧ (t.zone u z).commanded = none
      ∧ (t.zone u z).moveKind = none ∧ (t.zone u z).moveTag = none ∧ (t.zone u z).faultCause = none
      ∧ (t.zone u z).settleSheet = none ∧ (t.zone u z).offset = 0 ∧ (t.zone u z).attempts = 0 ∧ (t.zone u z).samples = []
      ∧ (t.zone u z).moveTimer = none)
    ∧ (∀ (c : Fin 8) (i : Fin 11), (t.curves[c])[i] = 100 * i.val)
    ∧ (∀ n, (t.line n).power = .off ∧ (t.line n).stopTaken = false ∧ (t.line n).startTimer = none
      ∧ (t.line n).queue = CommandQueue.empty ∧ (t.line n).cycle = none ∧ (t.line n).sentFrame = none
      ∧ (t.line n).pendingList = [] ∧ (t.line n).grants = 0 ∧ (t.line n).tagCounter = 0 ∧ (t.line n).checkResult = .notChecked
      ∧ (t.line n).fountain = { wanted := none, reached := none, move := none, moveTimer := none, pursuit := false }
      ∧ (t.line n).fountainTags = { reported := 0, sent := 0 }
      ∧ (∀ z : ZoneNo, (t.line n).keyTags[z] = { reported := 0, sent := 0 })
      ∧ ∀ m : Fin 9, (t.line n).modules[m] = { state := .notExpected, lastOutcome := .lineNotOn, missed := 0 })
    ∧ t.partGrants = 0 ∧ t.pointer = 15 ∧ t.check = none
    ∧ t.intake.setting = .on ∧ t.intake.scan = none ∧ t.intake.scanTimer = none ∧ t.intake.linkFaults = 0 ∧ t.intake.lastScan = none
    ∧ (∀ k : Fin 4, t.intake.watches[k] = { enabled := false, unit := none, low := none, high := none, lastHit := none })
    ∧ t.port.state = .detached ∧ t.port.anchor = none ∧ t.port.detachDeferred = false ∧ t.port.take = 0 ∧ t.port.retire = 0
    ∧ t.port.putValid = 0 ∧ t.port.handedMarks = 0 ∧ t.port.noticeOffset = none ∧ t.port.finished = [] ∧ t.port.scanTimer = none
    ∧ t.port.fault = .none ∧ t.port.notices = 0 ∧ t.port.mask = 0 ∧ t.interruptLine = false ∧ t.port.lastFailure = none
    ∧ t.port.lastOutcome = r.2 ∧ (∀ u : UnitNo, t.port.updateCounts[u] = 0) ∧ t.port.segment = 0 ∧ t.port.openSegment = none
    ∧ t.port.fillSequence = 0 ∧ t.port.lostScans = 0 ∧ t.port.snapshotSheet = 0
    ∧ (s.port.state ≠ .attached → t.mem = s.mem)
    ∧ (Memory.wf s.mem = true → Memory.wf t.mem = true
      ∧ ∀ x, Memory.read t.mem x = Memory.read s.mem x ∨ (x, Memory.read t.mem x) ∈ s.unfinished)
    ∧ (∀ a, s.Linked a →
      (∀ x, ¬a.inMirror x → ¬a.inStatus x → ¬a.inStore x → Memory.read t.mem x = Memory.read s.mem x)
      ∧ ∀ k < a.ringLength, Memory.readWords t.mem (a.slotWord k 0) 16 = Memory.readWords s.mem (a.slotWord k 0) 16)
    ∧ t.unfinished = [] ∧ t.pending = s.pending

/-- The RESET register command keeps the sheet count, the run state with its timer and the impression (8.6), and is TAKEN. -/
def Obligations.ResetCommandKeepsTheSheetCount : Prop :=
  ∀ s : State, ∃ t, exec .reset s = .next t ∧ t.port.lastOutcome = .taken
    ∧ t.timing = { s.timing with watchEnabled := false, watchValue := 0, watchMask := BitVec.allOnes 32, period := 0, count := 0,
                                 actSnapshot := false, actScanRequest := false }

/-! ### Registers (9.2) -/

/-- ATTACH is TAKEN in DETACHED and refused otherwise, a value that names no command is refused, and a write to IDENT or STATE
changes nothing. -/
def Obligations.RegisterWrites : Prop :=
  ∀ s : State,
    (s.port.state = .detached → exec .attach s
      = .next { s with port := { s.port with state := .attaching, commandWord := 1, lastOutcome := .taken } })
    ∧ (s.port.state ≠ .detached → exec .attach s = .next { s with port := { s.port with commandWord := 1, lastOutcome := .refused } })
    ∧ (∀ v : Word, v ≠ 1 → v ≠ 2 → v ≠ 3 → exec (.commandInvalidValue v) s
      = .next { s with port := { s.port with commandWord := v, lastOutcome := .refused } })
    ∧ ∀ r v, exec (.registerWriteIgnored r v) s = .next s

/-- A write to NOTICE removes every cause written as one and leaves the others; the interrupt line is asserted exactly while a
pending cause is enabled in the mask. -/
def Obligations.NoticesAndInterruptLine : Prop :=
  (∀ (v : Word) (s : State), ∃ p, exec (.noticeWrite v) s = .next { s with port := { s.port with notices := p } }
      ∧ ∀ n : Notice, p.getLsbD n.bit = (s.noticePending n && !v.getLsbD n.bit))
    ∧ ∀ s : State, s.interruptLine = true ↔ ∃ n : Notice, s.noticePending n = true ∧ s.port.mask.getLsbD n.bit = true

/-! ### Attaching and detaching (9.3, 9.4) -/

/-- A failed attach returns the part to DETACHED with its reason, leaves every other field as it stood but a deferred DETACH, which
is TAKEN, and writes nothing; the model's field `unfinished` is empty after an event that writes nothing (log entry 24). -/
def Obligations.AttachFailureReports : Prop :=
  ∀ (host : List HostWrite) (s : State) (r : AttachFailure), s.port.state = .attaching →
    judgeAnchor (Memory.hostWrites s.mem host) = some r →
    exec (.attachFailure host) s
      = .next { s with mem := Memory.hostWrites s.mem host, unfinished := [],
                       port := { s.port with state := .detached, lastFailure := some r, detachDeferred := false,
                                             lastOutcome := if s.port.detachDeferred then .taken else s.port.lastOutcome } }

/-- A successful attach adopts the anchor, sets the offsets to 0 with words 14 and 15, adopts the mask, and leaves the settings of every
unit and the openings of every zone as they stand. Beside words 14 and 15 it writes the mirror and the status area alone, which then show
every unit and the part as they stand (9.3). A DETACH deferred by it acts at once, and the part is DETACHED: MOVING zones PENDING, no grant
held, HALT ALL on every line that is ON (9.3, 9.4). A part that is not ATTACHED has no order (9.4). A field of the status area that has no
value shows the same free value throughout (log entry 4). -/
def Obligations.AttachSuccessAdoptsTheAnchor : Prop :=
  ∀ (host : List HostWrite) (s : State) (a : Anchor), s.port.state = .attaching →
    judgeAnchor (Memory.hostWrites s.mem host) = none → a = anchorOfMemory (Memory.hostWrites s.mem host) →
    s.heldSlots = [] → Memory.wf s.mem = true →
    ∃ t, exec (.attachSuccess host) s = .next t
      ∧ (if s.port.detachDeferred then
          t.port.state = .detached ∧ t.port.lastOutcome = .taken ∧ t.port.scanTimer = none
          ∧ (∀ n, (t.line n).fountain.move = none
            ∧ ((s.line n).power = .on → (t.line n).queue = { haltAll := true, halts := [], motion := [] }))
          ∧ (s.pendingLawful →
            ∀ u z, (t.zone u z).state = (if (s.zone u z).state = .moving then .pending else (s.zone u z).state))
          ∧ (s.pendingLawful → s.grantsLawful → t.partGrants = 0)
          ∧ t.check = s.check.map fun c => if c.phase = .abortDrain then c else c.abort
        else
          t.port.state = .attached ∧ t.port.lastOutcome = s.port.lastOutcome ∧ t.port.scanTimer = some a.scanInterval
          ∧ (∀ u, (∀ z, (t.zone u z).state = (s.zone u z).state) → (t.unit u).sweepFault = (s.unit u).sweepFault →
            t.port.updateCounts[u] = s.port.updateCounts[u] + 2)
          ∧ t.check = s.check)
      ∧ t.port.anchor = some a ∧ t.port.mask = a.noticeMask ∧ t.port.take = 0 ∧ t.port.retire = 0 ∧ t.port.detachDeferred = false
      ∧ t.port.finished = [] ∧ t.port.fault = .none ∧ t.port.noticeOffset = none ∧ t.port.segment = 0
      ∧ t.port.openSegment = none ∧ t.port.lastFailure = none
      ∧ t.port.fillSequence = s.port.fillSequence ∧ t.port.lostScans = s.port.lostScans
      ∧ Memory.read t.mem 14 = 0 ∧ Memory.read t.mem 15 = 0
      ∧ (∀ u : UnitNo, Memory.readWords t.mem (a.blockBase u) Config.blockWords = mirrorBlock t.port.updateCounts[u] (t.unit u))
      ∧ Memory.readWords t.mem a.statusBase Config.statusWords = statusArea { t with freeDraws := s.freeDraws }
      ∧ (∀ x, x ≠ 14 → x ≠ 15 → ¬a.inMirror x → ¬a.inStatus x →
        Memory.read t.mem x = Memory.read (Memory.hostWrites s.mem host) x)
      ∧ (∀ u, (t.unit u).config = (s.unit u).config ∧ (t.unit u).currentSweep = (s.unit u).currentSweep
        ∧ (t.unit u).loopOn = (s.unit u).loopOn ∧ (t.unit u).loopParams = (s.unit u).loopParams)
      ∧ (∀ u z, (s.zone u z).SameAims (t.zone u z))
      ∧ t.curves = s.curves ∧ t.intake = s.intake ∧ t.timing = s.timing ∧ t.scanPulses = s.scanPulses ∧ t.pending = s.pending

/-- DETACH. In DETACHED it is TAKEN and changes nothing else; in ATTACHING it is deferred; in ATTACHED it ends every order, its slot
ABORTED with cause DETACHED and R advanced to T, returns every MOVING zone to PENDING, halts every line that is ON, ends every sweep
move, writes the mirror blocks of units whose zones or orders changed, and leaves the part DETACHED (9.4, 10.5, 3.8). The zones faulted
and sweep fault of a WAITING order and the lines failed of an aborted check rest on log entries 19 and 20. An event that writes nothing
leaves the model's field `unfinished` empty (log entry 24). -/
def Obligations.DetachActsByPartState : Prop :=
  ∀ s : State,
    (s.port.state = .detached → exec .detach s
      = .next { s with unfinished := [], port := { s.port with commandWord := 2, lastOutcome := .taken } })
    ∧ (s.port.state = .attaching → exec .detach s
      = .next { s with unfinished := [],
                       port := { s.port with commandWord := 2, detachDeferred := true, lastOutcome := .deferred } })
    ∧ (s.port.state = .attached → s.regionsInMemory = true → ∃ t, exec .detach s = .next t
      ∧ t.port.state = .detached ∧ t.port.lastOutcome = .taken ∧ t.port.commandWord = 2 ∧ t.port.detachDeferred = false
      ∧ t.port.scanTimer = none ∧ t.port.handedMarks = 0 ∧ t.port.mask = s.port.mask ∧ s.port.notices &&& t.port.notices = s.port.notices
      ∧ t.port.segment = s.port.segment ∧ t.port.openSegment = s.port.openSegment
      ∧ (∀ u, (t.unit u).tracked = none ∧ (t.unit u).waiting = none ∧ (t.unit u).config = (s.unit u).config
        ∧ (t.unit u).loopOn = (s.unit u).loopOn ∧ (t.unit u).sweepFault = (s.unit u).sweepFault)
      ∧ (∀ u z, (t.zone u z).state = (if (s.zone u z).state = .moving then .pending else (s.zone u z).state)
        ∧ (s.zone u z).SameAims (t.zone u z))
      ∧ (∀ n, (t.line n).power = (s.line n).power ∧ (t.line n).fountain.move = none
        ∧ (t.line n).fountain.wanted = (s.line n).fountain.wanted
        ∧ ((s.line n).power = .on → (t.line n).queue = { haltAll := true, halts := [], motion := [] }))
      ∧ (∀ c, s.check = some c → c.phase ≠ .abortDrain → t.check = some c.abort)
      ∧ (s.grantsLawful → t.partGrants = 0)
      ∧ (∀ u, (s.unit u).waiting.isSome = true → (t.unit u).staged = none)
      ∧ (∀ a, s.Linked a →
        (∀ u o, ((s.unit u).tracked = some o ∨ (s.unit u).waiting.map (·.order) = some o) →
          (∀ c, s.check = some c → c.phase ≠ .abortDrain → u ≠ c.lineA ∧ u ≠ c.lineB) →
          (∀ l m, o.kind ≠ .checkLines l m) → o.slot < a.ringLength → s.heldSlots.count o.slot = 1 →
          t.SlotShows a o.slot .aborted (o.finalDetail (s.unit u) .detached))
        ∧ (∀ c o, s.check = some c → c.phase ≠ .abortDrain → c.lineA ≠ c.lineB → (s.unit c.lineA).tracked = some o →
          (s.unit c.lineB).tracked = some o → o.slot < a.ringLength → s.heldSlots.count o.slot = 2 →
          t.SlotShows a o.slot .aborted { Detail.only Cause.detached.code with
            linesFailed := linesFailed (resultOf c.abort.findingA) (resultOf c.abort.findingB) })
        ∧ (∀ u, (s.unit u).tracked.isSome = true ∨ (s.unit u).waiting.isSome = true ∨ (∃ z, (s.zone u z).state = .moving) →
          s.MirrorWritten t a u)
        ∧ (s.RingAccounted a → t.port.retire = s.port.take
          ∧ (s.port.retire ≠ s.port.take → Memory.read t.mem 15 = wordOf s.port.take)))
      ∧ t.curves = s.curves ∧ t.intake = s.intake ∧ t.timing = s.timing)

/-! ### The order ring (9.5, 10.1) -/

/-- An order scan of an ATTACHED part with no slot left to take reads words 12 and 13, leaves its timer running for the interval (log
entry 25), makes good one handed mark if one is left (log entry 31), and judges P: an offset outside the ring, one behind T counted
from R, and a valid one. -/
def Obligations.OrderScanJudgesThePutOffset : Prop :=
  ∀ (host : List HostWrite) (s : State) (a : Anchor), s.port.state = .attached → s.port.anchor = some a →
    s.regionsInMemory = true → s.port.take = s.port.putValid →
    ∃ t, exec (.orderScan host) s = .next t
      ∧ t.port.noticeOffset = some (Memory.read (Memory.hostWrites s.mem host) 13)
      ∧ t.port.scanTimer = some a.scanInterval ∧ t.port.take = s.port.take ∧ t.port.retire = s.port.retire
      ∧ t.port.handedMarks = s.port.handedMarks - 1
      ∧ s.SameBlocks t
      ∧ let put := (Memory.read (Memory.hostWrites s.mem host) 12).toNat
        if a.ringLength ≤ put then
          t.port.fault = .putOutOfRange ∧ t.port.putValid = s.port.putValid
            ∧ (s.port.fault ≠ .putOutOfRange → t.noticePending .portFault = true)
        else if ringDistance a.ringLength s.port.retire put < ringDistance a.ringLength s.port.retire s.port.take then
          t.port.fault = .putBehindTake ∧ t.port.putValid = s.port.putValid
            ∧ (s.port.fault ≠ .putBehindTake → t.noticePending .portFault = true)
        else t.port.fault = .none ∧ t.port.putValid = put

/-- A slot of no kind is refused UNKNOWN KIND, an order whose unit lies outside 1 to 16 BAD UNIT (a CHECK LINES with either line there),
and one that needs a defined unit and names another UNIT UNDEFINED; a refused order changes nothing but its slot and the ring, over
which R advances (9.5). What its detail holds beside the reason rests on log entry 19, and for a CHECK LINES, whose lines failed are 0, on
log entry 20. That line b is the whole word rests on log entry 8, and that either row of LINE POWER takes a bad setting on log entry 29. -/
def Obligations.RefusedOrdersChangeNothing : Prop :=
  ∀ (host : List HostWrite) (s : State) (a : Anchor) (slot : Slot), s.Due host a slot →
    (slot.kind = none → RefusedWith s (.unknownKind host) host a .unknownKind)
    ∧ (slot.kind = some .checkLines → unitOfNumber (wholeWord slot 3) = none → RefusedWith s (.checkLines host) host a .badUnit)
    ∧ (∀ r ∈ unitRows host, r.2 slot = true → slot.unit? = none → RefusedWith s r.1 host a .badUnit)
    ∧ (∀ r ∈ definedUnitRows host, r.2 slot = true → ∀ u, slot.unit? = some u → (s.unit u).config = none →
      RefusedWith s r.1 host a .unitUndefined)

/-! ### Immediate orders (10.6) -/

/-- DEFINE UNIT: busy before its arguments, refused with nothing changed, or the unit's whole record, zones, pending list and
modules as defined, with the unit's mirror block written (1.6, 4.5, 10.6). -/
def Obligations.DefineUnitDefines : Prop :=
  ∀ (host : List HostWrite) (s : State) (a : Anchor) (slot : Slot) (u : UnitNo), s.Due host a slot →
    slot.kind = some .defineUnit → slot.unit? = some u →
    (s.defineBusy u = true → RefusedWith s (.defineUnit host) host a .busy)
    ∧ (s.defineBusy u = false → defineOperands slot = none → RefusedWith s (.defineUnit host) host a .badArgument)
    ∧ ∀ c, s.defineBusy u = false → defineOperands slot = some c →
      ∃ t, exec (.defineUnit host) s = .next t
        ∧ TakenWith s t host a .done (Detail.only 0) (fun x => a.inBlock u x ∨ a.inStatus x) ∧ s.port.Kept t.port
        ∧ s.MirrorWritten t a u
        ∧ (t.unit u).config = some c ∧ (t.unit u).currentSweep = none ∧ (t.unit u).staged = none
        ∧ (t.unit u).sweepFault = false ∧ (t.unit u).loopOn = false ∧ (t.unit u).loopParams = (s.unit u).loopParams
        ∧ (∀ z : ZoneNo, t.zone u z = { Zone.reset with state := if z.val < c.zoneCount then .rest else .off })
        ∧ (t.line u).pendingList = [] ∧ (t.line u).fountain.wanted = none ∧ (t.line u).fountain.move = (s.line u).fountain.move
        ∧ (t.line u).power = (s.line u).power ∧ (t.line u).queue = (s.line u).queue ∧ (t.line u).grants = (s.line u).grants
        ∧ (∀ m : Fin 9, ((t.line u).modules[m]).state
          = if 8 * m.val < c.zoneCount + 8 then
              (if ((s.line u).modules[m]).state = .notExpected then .present else ((s.line u).modules[m]).state)
            else .notExpected)
        ∧ (∀ v, v ≠ u → t.unit v = s.unit v ∧ t.line v = s.line v)
        ∧ t.partGrants = s.partGrants ∧ t.pointer = s.pointer ∧ s.SameOutside t

/-- LOAD CURVE: BAD ARGUMENT for a curve outside 0 to 7 or an at-sheet flag, CURVE INVALID for ordinates that fall or exceed 1,000,
and otherwise the curve replaced and nothing else (1.3). That the curve number and the last ordinate are whole words rests on log entry
8. -/
def Obligations.LoadCurveReplacesOneCurve : Prop :=
  ∀ (host : List HostWrite) (s : State) (a : Anchor) (slot : Slot), s.Due host a slot → slot.kind = some .loadCurve →
    (8 ≤ wholeWord slot 3 ∨ slot.atSheetFlag = true → RefusedWith s (.loadCurve host) host a .badArgument)
    ∧ ∀ n : Fin 8, wholeWord slot 3 = n.val → slot.atSheetFlag = false →
      ((∃ i : Fin 11, 1000 < (curveOrdinates slot)[i] ∨ ∃ j : Fin 11, i < j ∧ (curveOrdinates slot)[j] < (curveOrdinates slot)[i]) →
        RefusedWith s (.loadCurve host) host a .curveInvalid)
      ∧ ((∀ i : Fin 11, (curveOrdinates slot)[i] ≤ 1000 ∧ ∀ j : Fin 11, i < j → (curveOrdinates slot)[i] ≤ (curveOrdinates slot)[j]) →
        ∃ t, exec (.loadCurve host) s = .next t ∧ TakenWith s t host a .done (Detail.only 0) (fun _ => False)
          ∧ t.curves = s.curves.set n.val (curveOrdinates slot) ∧ t.units = s.units ∧ t.lines = s.lines
          ∧ t.partGrants = s.partGrants ∧ t.pointer = s.pointer ∧ t.check = s.check ∧ t.intake = s.intake
          ∧ t.timing = s.timing ∧ t.scanPulses = s.scanPulses ∧ t.pending = s.pending ∧ s.port.Kept t.port)

/-- SET LOOP replaces the unit's setting and six parameters together and writes its mirror block; refused, it changes nothing (7.1,
10.6). Its slot, final at its take, is retired: R advances over the final slots in front of it (9.5). -/
def Obligations.SetLoopReplacesTheParameters : Prop :=
  ∀ (host : List HostWrite) (s : State) (a : Anchor) (slot : Slot) (u : UnitNo) (c : UnitConfig), s.Due host a slot →
    slot.kind = some .setLoop → slot.unit? = some u → (s.unit u).config = some c →
    (loopOperands slot = none → RefusedWith s (.setLoop host) host a .badArgument)
    ∧ ∀ on params, loopOperands slot = some (on, params) →
      ∃ t, exec (.setLoop host) s = .next t ∧ TakenWith s t host a .done (Detail.only 0) (a.inBlock u)
        ∧ t.units = s.units.set u { s.unit u with loopOn := on, loopParams := some params } ∧ s.SameMachine t
        ∧ s.port.Kept t.port ∧ s.MirrorWritten t a u ∧ s.Retires t a s.port.take slot.notify

/-- SET TIMING applies its parts in the order interval, watch, counter load (8.3). A counter load releases the waiting orders whose
sheet it has reached (10.3), and every other one keeps waiting, one that was about to start too (8.3): that the flag `released` says so, and
each released order starts by a command of its own, is the model's choice (log entry 7). -/
def Obligations.SetTimingAppliesItsParts : Prop :=
  ∀ (host : List HostWrite) (s : State) (a : Anchor) (slot : Slot), s.Due host a slot → slot.kind = some .setTiming →
    (timingOperands slot = none → RefusedWith s (.setTiming host) host a .badArgument)
    ∧ ∀ o, timingOperands slot = some o →
      ∃ t, exec (.setTiming host) s = .next t ∧ TakenWith s t host a .done (Detail.only 0) (fun _ => False)
        ∧ (match o.interval with
          | some (n, snapshot, scanRequest) => t.timing.period = n ∧ t.timing.count = n ∧ t.timing.actSnapshot = snapshot
            ∧ t.timing.actScanRequest = scanRequest
          | none => t.timing.period = s.timing.period ∧ t.timing.count = s.timing.count
            ∧ t.timing.actSnapshot = s.timing.actSnapshot ∧ t.timing.actScanRequest = s.timing.actScanRequest)
        ∧ (match o.watch with
          | some (on, value, mask) => t.timing.watchEnabled = on ∧ t.timing.watchValue = value ∧ t.timing.watchMask = mask
          | none => t.timing.watchEnabled = s.timing.watchEnabled ∧ t.timing.watchValue = s.timing.watchValue
            ∧ t.timing.watchMask = s.timing.watchMask)
        ∧ t.timing.counter = o.load.getD s.timing.counter
        ∧ t.timing.run = s.timing.run ∧ t.timing.runTimer = s.timing.runTimer ∧ t.timing.impression = s.timing.impression
        ∧ (∀ u, t.unit u = { s.unit u with waiting := match o.load with
            | some v => (s.unit u).waiting.map fun w => { w with released := decide (0 ≤ (v - w.atSheet).toInt) }
            | none => (s.unit u).waiting })
        ∧ t.curves = s.curves ∧ t.lines = s.lines ∧ t.partGrants = s.partGrants ∧ t.pointer = s.pointer ∧ t.check = s.check
        ∧ t.intake = s.intake ∧ t.scanPulses = s.scanPulses ∧ t.pending = s.pending ∧ s.port.Kept t.port

/-- SET WATCH writes one density watch entry with its last hit absent; refused, it changes nothing (6.7). -/
def Obligations.SetWatchWritesOneEntry : Prop :=
  ∀ (host : List HostWrite) (s : State) (a : Anchor) (slot : Slot) (u : UnitNo), s.Due host a slot →
    slot.kind = some .setWatch → slot.unit? = some u →
    (watchOperands slot = none → RefusedWith s (.setWatch host) host a .badArgument)
    ∧ ∀ k on low high, watchOperands slot = some (k, on, low, high) →
      ∃ t, exec (.setWatch host) s = .next t ∧ TakenWith s t host a .done (Detail.only 0) a.inStatus
        ∧ t.intake = { s.intake with watches := t.intake.watches }
        ∧ t.intake.watches[k] = { enabled := on, unit := some u, low := some low, high := some high, lastHit := none }
        ∧ (∀ j : Fin 4, j ≠ k → t.intake.watches[j] = s.intake.watches[j])
        ∧ t.units = s.units ∧ t.curves = s.curves ∧ t.lines = s.lines ∧ t.partGrants = s.partGrants ∧ t.pointer = s.pointer
        ∧ t.check = s.check ∧ t.timing = s.timing ∧ t.scanPulses = s.scanPulses ∧ t.pending = s.pending ∧ s.port.Kept t.port

/-- SET NOTICES replaces the mask and leaves the pending set's causes pending (10.6); with an at-sheet flag it is refused. -/
def Obligations.SetNoticesReplacesTheMask : Prop :=
  ∀ (host : List HostWrite) (s : State) (a : Anchor) (slot : Slot), s.Due host a slot → slot.kind = some .setNotices →
    (slot.atSheetFlag = true → RefusedWith s (.setNotices host) host a .badArgument)
    ∧ (slot.atSheetFlag = false → ∃ t, exec (.setNotices host) s = .next t
      ∧ TakenWith s t host a .done (Detail.only 0) (fun _ => False) ∧ s.SameBlocks t
      ∧ (∀ n : Notice, t.port.mask.getLsbD n.bit = (slot.word 3).getLsbD n.bit) ∧ Port.Kept { s.port with mask := t.port.mask } t.port)

/-- SNAPSHOT writes the mirror block of every defined unit, each showing the unit's zones with its update count raised by two, and
the status area with the sheet counter and every line's entry (8.5, 10.6). Those writes are made before its status is written (10.6): a reset
that finds the status DONE leaves every word of them (what a reset abandons is the model's choice, log entry 24). -/
def Obligations.SnapshotShowsTheMachine : Prop :=
  ∀ (host : List HostWrite) (s : State) (a : Anchor) (slot : Slot), s.Due host a slot → slot.kind = some .snapshot →
    (slot.atSheetFlag = true → RefusedWith s (.snapshot host) host a .badArgument)
    ∧ (slot.atSheetFlag = false → ∃ t, exec (.snapshot host) s = .next t
      ∧ TakenWith s t host a .done (Detail.only 0) (fun x => a.inMirror x ∨ a.inStatus x) ∧ s.SameBlocks t
      ∧ Port.Kept { s.port with snapshotSheet := s.timing.counter } t.port
      ∧ (∀ u, (s.unit u).config.isSome = true → t.port.updateCounts[u] = s.port.updateCounts[u] + 2
        ∧ Memory.readWords t.mem (a.blockBase u) Config.blockWords = mirrorBlock t.port.updateCounts[u] (s.unit u))
      ∧ Memory.read t.mem a.statusBase = s.timing.counter
      ∧ (∀ n : LineNo, Memory.readWords t.mem (a.statusBase + 4 + 2 * n.val) 2 = lineEntry (s.line n))
      ∧ ∀ b, ∀ r ∈ [Instr.reset, .resetPin b, .powerOn b], ∃ t', exec r t = .next t' ∧ t'.mem = t.mem)

/-- INTAKE ON arms an intake that is OFF and leaves one that is ON or ARMED; INTAKE OFF turns it OFF and discards an open scan (6.6).
That either row takes a slot whose setting is neither, and refuses it, is the model's choice (log entry 29); the setting is the whole
word (log entry 8). -/
def Obligations.IntakeOrderSwitches : Prop :=
  ∀ (host : List HostWrite) (s : State) (a : Anchor) (slot : Slot), s.Due host a slot → slot.kind = some .intake →
    (settingOperand slot = some true → ∃ t, exec (.intakeOn host) s = .next t
      ∧ TakenWith s t host a .done (Detail.only 0) a.inStatus
      ∧ t.intake = { s.intake with setting := if s.intake.setting = .off then .armed else s.intake.setting }
      ∧ t.units = s.units ∧ t.curves = s.curves ∧ t.lines = s.lines ∧ t.partGrants = s.partGrants ∧ t.pointer = s.pointer
      ∧ t.check = s.check ∧ t.timing = s.timing ∧ t.scanPulses = s.scanPulses ∧ t.pending = s.pending ∧ s.port.Kept t.port)
    ∧ (settingOperand slot = some false → ∃ t, exec (.intakeOff host) s = .next t
      ∧ TakenWith s t host a .done (Detail.only 0) a.inStatus
      ∧ t.intake = { s.intake with setting := .off, scan := none, scanTimer := none }
      ∧ t.units = s.units ∧ t.curves = s.curves ∧ t.lines = s.lines ∧ t.partGrants = s.partGrants ∧ t.pointer = s.pointer
      ∧ t.check = s.check ∧ t.timing = s.timing ∧ t.scanPulses = s.scanPulses ∧ t.pending = s.pending ∧ s.port.Kept t.port)
    ∧ (settingOperand slot = none → (wholeWord slot 3 ≠ 0 → RefusedWith s (.intakeOn host) host a .badArgument)
      ∧ (wholeWord slot 3 ≠ 1 → RefusedWith s (.intakeOff host) host a .badArgument))

/-- HOLD takes every zone of its range that is REST, PENDING or MOVING to HELD, emptying the samples of one at REST and the move
fields of one MOVING, and leaves HELD, FAULTED and OFF zones; every zone keeps its target, position, offset and settle sheet (1.7). The
mirror block of a unit whose zones changed is written (R12). -/
def Obligations.HoldTakesZonesOutOfMetering : Prop :=
  ∀ (host : List HostWrite) (s : State) (a : Anchor) (slot : Slot) (u : UnitNo) (c : UnitConfig), s.Due host a slot →
    slot.kind = some .hold → slot.unit? = some u → (s.unit u).config = some c →
    (rangeOperands slot c.zoneCount = none → RefusedWith s (.hold host) host a .badArgument)
    ∧ ∀ first last, s.pendingLawful → rangeOperands slot c.zoneCount = some (first, last) →
      ∃ t, exec (.hold host) s = .next t ∧ TakenWith s t host a .done (Detail.only 0) (s.reportWord a)
        ∧ (∀ z : ZoneNo, first ≤ z.number → z.number ≤ last → (t.zone u z).state = (match (s.zone u z).state with
            | .rest | .pending | .moving | .held => .held
            | .faulted => .faulted
            | .off => .off)
          ∧ ((s.zone u z).state = .rest → (t.zone u z).samples = [])
          ∧ ((s.zone u z).state = .moving → (t.zone u z).commanded = none ∧ (t.zone u z).moveKind = none
            ∧ (t.zone u z).moveTag = none ∧ (t.zone u z).moveTimer = none))
        ∧ s.MirrorsChanges t a
        ∧ (∀ v z, (s.zone v z).SameAims (t.zone v z)) ∧ (∀ v, (s.unit v).SameSettings (t.unit v))
        ∧ (∀ n, (s.line n).SameService (t.line n)) ∧ s.SameOutside t

/-- RELEASE and CLEAR FAULT place the zones of their range that are HELD, or FAULTED, afresh: FAULTED with NO FEEDBACK on a MISSING
module, REST with no target or within tolerance of it, and otherwise PENDING, or MOVING once granted (1.4, 1.7). The mirror block of a
unit whose zones changed is written (R12). -/
def Obligations.ReleaseAndClearFaultPlaceZones : Prop :=
  ∀ (host : List HostWrite) (s : State) (a : Anchor) (slot : Slot) (u : UnitNo) (c : UnitConfig), s.Due host a slot →
    slot.unit? = some u → (s.unit u).config = some c →
    ∀ r ∈ [(Instr.release host, OrderKind.release, ZoneState.held), (Instr.clearFault host, OrderKind.clearFault, ZoneState.faulted)],
      slot.kind = some r.2.1 →
      (rangeOperands slot c.zoneCount = none → RefusedWith s r.1 host a .badArgument)
      ∧ ∀ first last, s.pendingLawful → rangeOperands slot c.zoneCount = some (first, last) →
        ∃ t, exec r.1 s = .next t ∧ TakenWith s t host a .done (Detail.only 0) (s.reportWord a)
          ∧ (∀ z : ZoneNo, first ≤ z.number → z.number ≤ last → (s.zone u z).state = r.2.2 →
            if s.moduleState u z = .missing then (t.zone u z).state = .faulted ∧ (t.zone u z).faultCause = some .noFeedback
            else match (s.zone u z).target, (s.zone u z).position with
              | none, _ => (t.zone u z).state = .rest
              | some _, none => (t.zone u z).state = .pending ∨ (t.zone u z).state = .moving
              | some x, some p =>
                if c.tolerance < distance x p then (t.zone u z).state = .pending ∨ (t.zone u z).state = .moving
                else (t.zone u z).state = .rest)
          ∧ (∀ z : ZoneNo, ¬(first ≤ z.number ∧ z.number ≤ last ∧ (s.zone u z).state = r.2.2) → (s.zone u z).state ≠ .pending →
            (t.zone u z).state = (s.zone u z).state)
          ∧ s.MirrorsChanges t a
          ∧ (∀ v z, (s.zone v z).SameAims (t.zone v z)) ∧ (∀ v, (s.unit v).SameSettings (t.unit v))
          ∧ (∀ n, (s.line n).SameService (t.line n)) ∧ s.SameOutside t

/-- ABORT ends the unit's order, its slot ABORTED with cause BY HOST: a WAITING order with its staged coverage, a RUNNING one but for
its moves, a CHECK LINES with its check and for both its units; it writes the mirror block of each unit whose record changes (log entry
18). With no order it changes nothing and says NOTHING RUNNING (10.5, 5.6). The zones faulted and sweep fault of a WAITING order rest
on log entry 19, the lines failed of an aborted check on log entry 20. -/
def Obligations.AbortEndsTheUnitsOrder : Prop :=
  ∀ (host : List HostWrite) (s : State) (a : Anchor) (slot : Slot) (u : UnitNo), s.Due host a slot → slot.kind = some .abort →
    slot.unit? = some u →
    (slot.atSheetFlag = true → RefusedWith s (.abort host) host a .badArgument)
    ∧ (slot.atSheetFlag = false →
      ((s.unit u).tracked = none → (s.unit u).waiting = none → ∃ t, exec (.abort host) s = .next t
        ∧ TakenWith s t host a .done (Detail.only Cause.nothingRunning.code) (fun _ => False) ∧ s.SameBlocks t
        ∧ s.port.Kept t.port)
      ∧ (∀ w, (s.unit u).tracked = none → (s.unit u).waiting = some w → w.order.slot < a.ringLength →
        ∃ t, exec (.abort host) s = .next t
          ∧ TakenWith s t host a .done (Detail.only 0) (fun x => s.heldWord a x ∨ a.inBlock u x)
          ∧ t.SlotShows a w.order.slot .aborted (w.order.finalDetail (s.unit u) .byHost) ∧ s.MirrorWritten t a u
          ∧ t.units = s.units.set u { s.unit u with waiting := none, staged := none } ∧ s.SameMachine t ∧ s.port.Kept t.port)
      ∧ (∀ o, (s.unit u).tracked = some o → (∀ b c, o.kind ≠ .checkLines b c) → o.slot < a.ringLength →
        ∃ t, exec (.abort host) s = .next t
          ∧ TakenWith s t host a .done (Detail.only 0) (fun x => s.heldWord a x ∨ a.inBlock u x)
          ∧ t.SlotShows a o.slot .aborted (o.finalDetail (s.unit u) .byHost) ∧ s.MirrorWritten t a u
          ∧ t.units = s.units.set u { s.unit u with tracked := none } ∧ s.SameMachine t ∧ s.port.Kept t.port)
      ∧ (∀ o b c run, (s.unit u).tracked = some o → o.kind = .checkLines b c → s.check = some run → run.phase ≠ .abortDrain →
        run.lineA = b → run.lineB = c → (s.unit b).tracked = some o → (s.unit c).tracked = some o → o.slot < a.ringLength →
        ∃ t, exec (.abort host) s = .next t
          ∧ TakenWith s t host a .done (Detail.only 0) (fun x => s.heldWord a x ∨ a.inBlock b x ∨ a.inBlock c x)
          ∧ t.SlotShows a o.slot .aborted { Detail.only Cause.byHost.code with
              linesFailed := linesFailed (resultOf run.abort.findingA) (resultOf run.abort.findingB) }
          ∧ s.MirrorWritten t a b ∧ s.MirrorWritten t a c
          ∧ (∀ v, t.unit v = if v = b ∨ v = c then { s.unit v with tracked := none } else s.unit v)
          ∧ t.check = some run.abort ∧ t.lines = s.lines ∧ t.partGrants = s.partGrants ∧ t.pointer = s.pointer
          ∧ t.curves = s.curves ∧ t.intake = s.intake ∧ t.timing = s.timing ∧ t.scanPulses = s.scanPulses ∧ t.pending = s.pending
          ∧ s.port.Kept t.port))

/-! ### Work orders (10.3, 10.4, 10.7) -/

/-- A PRESET that is not refused and whose sheet has not come stages the coverage of its profile as read at the take, supersedes the
unit's older order, whose slot shows SUPERSEDED with its detail, and waits; no zone changes (2.3, 2.4, 10.2, 10.3). The zones faulted
and sweep fault of an older WAITING order rest on log entry 19. -/
def Obligations.PresetWaitsForItsSheet : Prop :=
  ∀ (host : List HostWrite) (s : State) (a : Anchor) (slot : Slot) (u : UnitNo) (c : UnitConfig) (o : PresetOperands),
    s.Due host a slot → slot.kind = some .preset → slot.unit? = some u → (s.unit u).config = some c →
    presetOperands slot = some o → profileAllowed o a = true → s.workBusy u = false → slot.atSheetFlag = true →
    ¬0 ≤ (s.timing.counter - slot.atSheet).toInt →
    let bands := readBands (Memory.hostWrites s.mem host) o.base o.bandCount
    ∃ t, exec (.preset host) s = .next t
      ∧ s.OrderWaits t u host a slot (.preset o.policy) { Detail.only 0 with bandsClamped := bandsClamped bands }
      ∧ (t.unit u).staged = some (stagedCoverage c o bands)

/-- A PRESET that is not refused and need not wait makes its pass at its take, from the coverage of its profile as then read: the
opening of every zone 1 to Z, which acts on its target by its state (1.5, 3.4), the unit's sweep, and the fountain's wanted sweep (2.11,
10.7). It supersedes the unit's older order, its slot shows how it stands after its start (10.4), and the unit's mirror block is
written. -/
def Obligations.PresetSetsEveryZone : Prop :=
  ∀ (host : List HostWrite) (s : State) (a : Anchor) (slot : Slot) (u : UnitNo) (c : UnitConfig),
    s.Due host a slot → slot.kind = some .preset → slot.unit? = some u → (s.unit u).config = some c →
    (presetOperands slot = none → RefusedWith s (.preset host) host a .badArgument)
    ∧ ∀ o : PresetOperands, presetOperands slot = some o →
      (profileAllowed o a = false → RefusedWith s (.preset host) host a .profileRegion)
      ∧ (profileAllowed o a = true → s.workBusy u = true → RefusedWith s (.preset host) host a .busy)
      ∧ (profileAllowed o a = true → s.workBusy u = false →
        (slot.atSheetFlag = true → 0 ≤ (s.timing.counter - slot.atSheet).toInt) →
        ∃ t, exec (.preset host) s = .next t
          ∧ PresetMade s t u c (stagedCoverage c o (readBands (Memory.hostWrites s.mem host) o.base o.bandCount)) o.policy
          ∧ s.StartedOrder t u host a (zonesBelow c.zoneCount) (t.fountainMoves u)
              (t.planCounts u c (bandsClamped (readBands (Memory.hostWrites s.mem host) o.base o.bandCount)))
          ∧ s.MirrorWritten t a u ∧ (t.unit u).waiting = none ∧ s.OtherUnits t u ∧ s.SameOutside t)

/-- A TRIM that is not refused supersedes the unit's older order and waits for its sheet, or moves the offset of each zone its pairs
name, pair by pair and saturating, and reruns stage 7 for it, on which the zone acts by its state (7.5, 10.7, 1.5, 3.4). Its slot shows how
it stands after its start (10.4), and the unit's mirror block is written. -/
def Obligations.TrimMovesTheOffsets : Prop :=
  ∀ (host : List HostWrite) (s : State) (a : Anchor) (slot : Slot) (u : UnitNo) (c : UnitConfig),
    s.Due host a slot → slot.kind = some .trim → slot.unit? = some u → (s.unit u).config = some c →
    (trimOperands slot c.zoneCount = none → RefusedWith s (.trim host) host a .badArgument)
    ∧ ∀ pairs, trimOperands slot c.zoneCount = some pairs →
      (s.workBusy u = true → RefusedWith s (.trim host) host a .busy)
      ∧ (s.workBusy u = false → slot.atSheetFlag = true → ¬0 ≤ (s.timing.counter - slot.atSheet).toInt →
        ∃ t, exec (.trim host) s = .next t ∧ s.OrderWaits t u host a slot (.trim pairs) (Detail.only 0))
      ∧ (s.workBusy u = false → (slot.atSheetFlag = true → 0 ≤ (s.timing.counter - slot.atSheet).toInt) →
        ∃ t, exec (.trim host) s = .next t ∧ TrimMade s t u c pairs
          ∧ s.StartedOrder t u host a (namedZones pairs) false (s.trimCounts u c pairs) ∧ s.MirrorWritten t a u
          ∧ (t.unit u).waiting = none ∧ s.OtherUnits t u ∧ s.SameOutside t)

/-- A SWEEP that is not refused supersedes the unit's older order and waits for its sheet, or fixes the unit's sweep at its value, hands
it to the fountain, and plans every zone that has a base afresh from it, on which the zone acts by its state (2.11, 10.7, 1.5, 3.4). Its
slot shows how it stands after its start (10.4), and the unit's mirror block is written. That its value is the whole word rests on log entry
8. -/
def Obligations.SweepRescalesTheUnit : Prop :=
  ∀ (host : List HostWrite) (s : State) (a : Anchor) (slot : Slot) (u : UnitNo) (c : UnitConfig),
    s.Due host a slot → slot.kind = some .sweep → slot.unit? = some u → (s.unit u).config = some c →
    (¬(100 ≤ wholeWord slot 3 ∧ wholeWord slot 3 ≤ 1000) → RefusedWith s (.sweep host) host a .badArgument)
    ∧ (100 ≤ wholeWord slot 3 → wholeWord slot 3 ≤ 1000 → s.workBusy u = true → RefusedWith s (.sweep host) host a .busy)
    ∧ (100 ≤ wholeWord slot 3 → wholeWord slot 3 ≤ 1000 → s.workBusy u = false → slot.atSheetFlag = true →
      ¬0 ≤ (s.timing.counter - slot.atSheet).toInt →
      ∃ t, exec (.sweep host) s = .next t ∧ s.OrderWaits t u host a slot (.sweep (wholeWord slot 3)) (Detail.only 0))
    ∧ (100 ≤ wholeWord slot 3 → wholeWord slot 3 ≤ 1000 → s.workBusy u = false →
      (slot.atSheetFlag = true → 0 ≤ (s.timing.counter - slot.atSheet).toInt) →
      ∃ t, exec (.sweep host) s = .next t ∧ SweepMade s t u c (wholeWord slot 3)
        ∧ s.StartedOrder t u host a (zonesBelow c.zoneCount) (t.fountainMoves u) (t.planCounts u c 0) ∧ s.MirrorWritten t a u
        ∧ (t.unit u).waiting = none ∧ s.OtherUnits t u ∧ s.SameOutside t)

/-- ZERO asks a zero move of every zone of its range that is REST, PENDING or MOVING, and leaves HELD, FAULTED and OFF zones; targets
and positions stay (3.7, 10.7). Its slot shows how it stands after its start (10.4), and the mirror block of a unit whose zones changed is
written (R12). The zones faulted and sweep fault of a refused ZERO rest on log entry 19. -/
def Obligations.ZeroAsksForZeroMoves : Prop :=
  ∀ (host : List HostWrite) (s : State) (a : Anchor) (slot : Slot) (u : UnitNo) (c : UnitConfig),
    s.Due host a slot → slot.kind = some .zero → slot.unit? = some u → (s.unit u).config = some c → s.pendingLawful →
    (rangeOperands slot c.zoneCount = none → RefusedWith s (.zero host) host a .badArgument)
    ∧ ∀ first last, rangeOperands slot c.zoneCount = some (first, last) →
      (((s.unit u).tracked.isSome = true ∨ (s.unit u).waiting.isSome = true ∨ (s.line u).power = .check) →
        RefusedWith s (.zero host) host a .busy)
      ∧ ((s.unit u).tracked = none → (s.unit u).waiting = none → (s.line u).power ≠ .check →
        ∃ t, exec (.zero host) s = .next t ∧ s.StartedOrder t u host a (zoneRange first last) false Counts.zero
          ∧ s.MirrorsChanges t a
          ∧ (∀ z : ZoneNo, first ≤ z.number → z.number ≤ last → match (s.zone u z).state with
            | .rest | .pending =>
              ((t.zone u z).state = .pending ∧ t.zeroEntry u z = true)
                ∨ ((t.zone u z).state = .moving ∧ (t.zone u z).moveKind = some .zero)
            | .moving => (t.zone u z).state = .moving ∧ (t.zone u z).moveKind = some .zero
            | .held => (t.zone u z).state = .held
            | .faulted => (t.zone u z).state = .faulted
            | .off => (t.zone u z).state = .off)
          ∧ (∀ v z, (s.zone v z).SameAims (t.zone v z)) ∧ (∀ v, (s.unit v).SameSettings (t.unit v))
          ∧ (∀ n, (s.line n).SameService (t.line n)) ∧ s.SameOutside t)

/-- LINE POWER ON energizes a line that is OFF or TRIPPED: STARTING with its tags at 0 and a start timer of 50 ms, the order
ACCEPTED; one that is STARTING is followed, one that is ON is DONE (4.1). -/
def Obligations.LinePowerOnEnergizes : Prop :=
  ∀ (host : List HostWrite) (s : State) (a : Anchor) (slot : Slot) (n : LineNo), s.Due host a slot →
    slot.kind = some .linePower → slot.unit? = some n → settingOperand slot = some true →
    (∀ r, s.linePowerRefusal n true = some r → RefusedWith s (.linePowerOn host) host a r)
    ∧ (s.linePowerRefusal n true = none → ∃ t, exec (.linePowerOn host) s = .next t
      ∧ (match (s.line n).power with
        | .off | .tripped => TakenWith s t host a .accepted (Detail.only 0) a.inStatus
          ∧ (t.line n).power = .starting ∧ (t.line n).startTimer = some 50 ∧ (t.line n).queue = (s.line n).queue
          ∧ (t.line n).modules = (s.line n).modules ∧ (t.line n).pendingList = (s.line n).pendingList
          ∧ (∀ z : ZoneNo, (t.line n).keyTags[z] = { reported := 0, sent := 0 })
          ∧ (t.line n).fountainTags = { reported := 0, sent := 0 }
          ∧ ∃ o, (t.unit n).tracked = some o ∧ o.slot = s.port.take ∧ o.kind = .linePower true
        | .starting => TakenWith s t host a .accepted (Detail.only 0) (fun _ => False) ∧ t.lines = s.lines
          ∧ ∃ o, (t.unit n).tracked = some o ∧ o.slot = s.port.take ∧ o.kind = .linePower true
        | .on | .check => TakenWith s t host a .done (Detail.only 0) (fun _ => False) ∧ s.SameBlocks t)
      ∧ (∀ m, m ≠ n → t.line m = s.line m ∧ t.unit m = s.unit m) ∧ (∀ v z, t.zone v z = s.zone v z)
      ∧ (∀ v, (s.unit v).SameSettings (t.unit v)) ∧ s.SameOutside t ∧ s.port.Kept t.port)

/-- LINE POWER OFF stops a line that is ON: stop taken, HALT ALL alone in its queue, its MOVING zones PENDING, its sweep move ended, its
unit's RUNNING work order DONE WITH FAULTS with cause LINE OFF, the order ACCEPTED; a STARTING line waits with HALT ALL; a TRIPPED line enters OFF, and an OFF line is DONE (4.1, 3.8). -/
def Obligations.LinePowerOffStops : Prop :=
  ∀ (host : List HostWrite) (s : State) (a : Anchor) (slot : Slot) (n : LineNo), s.Due host a slot →
    slot.kind = some .linePower → slot.unit? = some n → settingOperand slot = some false →
    (∀ r, s.linePowerRefusal n false = some r → RefusedWith s (.linePowerOff host) host a r)
    ∧ (s.linePowerRefusal n false = none → ∃ t, exec (.linePowerOff host) s = .next t
      ∧ (match (s.line n).power with
        | .on => TakenWith s t host a .accepted (Detail.only 0) (s.reportWord a)
          ∧ (t.line n).power = .on ∧ (t.line n).stopTaken = true
          ∧ (t.line n).queue = { haltAll := true, halts := [], motion := [] } ∧ (t.line n).fountain.move = none
          ∧ (∀ z, (t.zone n z).state = if (s.zone n z).state = .moving then .pending else (s.zone n z).state)
          ∧ (∀ o, (s.unit n).tracked = some o → o.slot < a.ringLength → s.heldSlots.count o.slot = 1 →
            t.SlotShows a o.slot .doneWithFaults (o.finalDetail (s.unit n) .lineOff))
          ∧ ∃ o, (t.unit n).tracked = some o ∧ o.slot = s.port.take ∧ o.kind = .linePower false
        | .starting => TakenWith s t host a .accepted (Detail.only 0) (fun _ => False)
          ∧ (t.line n).power = .starting ∧ (t.line n).stopTaken = true
          ∧ (t.line n).queue = { haltAll := true, halts := [], motion := [] } ∧ (∀ z, t.zone n z = s.zone n z)
          ∧ ∃ o, (t.unit n).tracked = some o ∧ o.slot = s.port.take ∧ o.kind = .linePower false
        | .tripped => TakenWith s t host a .done (Detail.only 0) a.inStatus ∧ (t.line n).power = .off
          ∧ (∀ m : Fin 9, ((t.line n).modules[m]).lastOutcome = .lineNotOn
            ∧ ((t.line n).modules[m]).state = ((s.line n).modules[m]).state) ∧ t.units = s.units
        | .off | .check => TakenWith s t host a .done (Detail.only 0) (fun _ => False) ∧ s.SameBlocks t)
      ∧ s.MirrorsChanges t a
      ∧ (∀ v z, (s.zone v z).SameAims (t.zone v z)) ∧ (∀ v, (s.unit v).SameSettings (t.unit v))
      ∧ (∀ m, m ≠ n → (s.line m).SameService (t.line m)) ∧ s.SameOutside t)

/-- CHECK LINES of two good lines that are OFF or TRIPPED puts both in CHECK with NOT CHECKED results, starts the check in DRAIN, and
is tracked by both units; a line that is STARTING or ON refuses it, with both results cleared (5.2). That the lines failed of a refused
check are 0 rests on log entry 20, and that line b is the whole word on log entry 8. -/
def Obligations.CheckLinesStartsInDrain : Prop :=
  ∀ (host : List HostWrite) (s : State) (a : Anchor) (slot : Slot) (m n : LineNo), s.Due host a slot →
    slot.kind = some .checkLines → slot.unit? = some m → unitOfNumber (wholeWord slot 3) = some n →
    (m = n ∨ slot.atSheetFlag = true → RefusedWith s (.checkLines host) host a .badArgument)
    ∧ (m ≠ n → slot.atSheetFlag = false →
      (∀ r, s.checkRefusal m n = some r → r ≠ .lineNotOff → RefusedWith s (.checkLines host) host a r)
      ∧ (s.checkRefusal m n = some .lineNotOff → ∃ t, exec (.checkLines host) s = .next t
        ∧ TakenWith s t host a .refused (Detail.only Reason.lineNotOff.code) a.inStatus
        ∧ (∀ l, t.line l = if l = m ∨ l = n then { s.line l with checkResult := .notChecked } else s.line l)
        ∧ t.units = s.units ∧ s.SameOutside t)
      ∧ (s.checkRefusal m n = none → ∃ t, exec (.checkLines host) s = .next t
        ∧ TakenWith s t host a .accepted (Detail.only 0) a.inStatus
        ∧ t.check = some { lineA := m, lineB := n, phase := .drain, timer := some 50, findingA := none, findingB := none,
                           orderSlot := some s.port.take }
        ∧ (∀ l, l = m ∨ l = n → (t.line l).power = .check ∧ (t.line l).checkResult = .notChecked
          ∧ (t.line l).pendingList = (s.line l).pendingList ∧ (t.line l).tagCounter = (s.line l).tagCounter
          ∧ (∀ k : Fin 9, ((t.line l).modules[k]).lastOutcome = .lineNotOn
            ∧ ((t.line l).modules[k]).state = ((s.line l).modules[k]).state)
          ∧ ∃ o, (t.unit l).tracked = some o ∧ o.slot = s.port.take ∧ o.kind = .checkLines m n)
        ∧ (∀ l, l ≠ m → l ≠ n → t.line l = s.line l ∧ t.unit l = s.unit l) ∧ (∀ v z, t.zone v z = s.zone v z)
        ∧ t.curves = s.curves ∧ t.intake = s.intake ∧ t.timing = s.timing ∧ t.scanPulses = s.scanPulses ∧ t.pending = s.pending))

/-- A waiting order that a mark or counter load has released (the flag is the model's, log entry 7) starts and makes its pass: a PRESET
from its staged coverage, a TRIM with its pairs, a SWEEP with its value, on whose targets the zones act by their states (1.5, 3.4); it
leaves the waiting field, its slot shows how it stands after its start, RUNNING or final (10.3, 10.4), and the unit's mirror block is
written. -/
def Obligations.WaitingOrderStarts : Prop :=
  ∀ (s : State) (u : UnitNo) (w : WaitingOrder) (c : UnitConfig), s.regionsInMemory = true → (s.unit u).waiting = some w →
    w.released = true → (s.unit u).config = some c →
    ∃ t, exec (.waitingOrderStart u) s = .next t ∧ (t.unit u).waiting = none
      ∧ (∀ policy coverage, w.order.kind = .preset policy → (s.unit u).staged = some coverage →
        PresetMade s t u c coverage policy ∧ s.StartedWaiting t u w.order (t.fountainMoves u) (t.planCounts u c 0))
      ∧ (∀ pairs, w.order.kind = .trim pairs → TrimMade s t u c pairs
        ∧ s.StartedWaiting t u w.order false (s.trimCounts u c pairs))
      ∧ (∀ value, w.order.kind = .sweep value → SweepMade s t u c value
        ∧ s.StartedWaiting t u w.order (t.fountainMoves u) (t.planCounts u c 0))
      ∧ ((t.unit u).tracked = none ∨ ∃ o, (t.unit u).tracked = some o ∧ o.slot = w.order.slot ∧ o.kind = w.order.kind)
      ∧ (∀ a, s.Linked a → w.order.kind.superseded = true →
        (∀ policy, w.order.kind = .preset policy → (s.unit u).staged.isSome = true) → s.MirrorWritten t a u)
      ∧ s.OtherUnits t u ∧ s.SameOutside t

/-! ### Line events (chapters 3 and 4) -/

/-- The start timer's expiry brings a line whose stop taken is no into service: ON, every missed-cycle count 0, and a LINE POWER ON that
waited for it DONE (4.1). While the part is ATTACHED the fountain is pursued and the arbiter then runs: it grants in round-robin order from
the line after the pointer, to the zones at the front of each list, with tags drawn in order from each line's counter that differ from the
reported tag and the sent tag of the key, until no line can take a grant (3.3); a SWEEP of the fountain's pursuit draws its tag before
them (4.6) and joins the queue before their frames. Then the line's first cycle begins (4.1, 4.2). A line with stop taken yes begins its
last cycle at once (4.1). The frame sent stands in the model's field `sentFrame` (log entry 28). -/
def Obligations.StartTimerBringsALineOn : Prop :=
  ∀ (s : State) (n : LineNo), s.regionsInMemory = true → (s.line n).startTimer.isSome = true →
    ∃ t, exec (.startTimerExpiry n) s = .next t ∧ (t.line n).startTimer = none
      ∧ (if (s.line n).stopTaken then Line.CycleBegan { s.line n with startTimer := none } (t.line n)
          ∧ (∀ m, m ≠ n → t.line m = s.line m) ∧ t.units = s.units ∧ t.partGrants = s.partGrants ∧ t.pointer = s.pointer
          ∧ t.mem = s.mem
        else (t.line n).power = .on
          ∧ (∀ m : Fin 9, ((t.line n).modules[m]).missed = 0 ∧ ((t.line n).modules[m]).state = ((s.line n).modules[m]).state)
          ∧ (∀ o, (s.unit n).tracked = some o → o.kind = .linePower true → (t.unit n).tracked = none
            ∧ ∀ a, s.Linked a → o.slot < a.ringLength → s.heldSlots.count o.slot = 1 → t.SlotShows a o.slot .done (Detail.only 0))
          ∧ ∃ mid : State, (mid.line n).CycleBegan (t.line n) ∧ (mid.line n).power = .on ∧ (mid.line n).stopTaken = false
            ∧ (∀ m, m ≠ n → mid.line m = t.line m) ∧ (∀ v z, mid.zone v z = t.zone v z) ∧ mid.pointer = t.pointer
            ∧ mid.partGrants = t.partGrants
            ∧ (s.port.state ≠ .attached → (mid.line n).queue = (s.line n).queue ∧ (∀ v z, t.zone v z = s.zone v z)
              ∧ (∀ m, m ≠ n → t.line m = s.line m) ∧ t.partGrants = s.partGrants)
            ∧ (s.port.state = .attached → s.pendingLawful → ∃ given start, s.ArbiterRan mid given start
              ∧ (∀ m, m ≠ n → start m = (s.line m).tagCounter)
              ∧ ((s.line n).fountain.move = none → match (mid.line n).fountain.move with
                | none => start n = (s.line n).tagCounter ∧ (s.line n).queue.motion <+: (mid.line n).queue.motion
                | some f => start n = f.tag + 1 ∧ f.tag = nextTag (s.line n).tagCounter (s.line n).fountainTags
                  ∧ (s.line n).queue.motion ++ [.sweep f.value f.tag] <+: (mid.line n).queue.motion)))
      ∧ (∀ a, s.Linked a → s.MirrorsChanges t a)
      ∧ (∀ v z, (s.zone v z).SameAims (t.zone v z))
      ∧ (∀ m, m ≠ n → (s.line m).SameService (t.line m) ∧ (s.unit m).SameSettings (t.unit m)) ∧ s.SameOutside t

/-- A line cycle that is due, the line being ON and no cycle in progress (log entry 16), sends the frame at the front of the queue, HALT
ALL before the HALTs before the rest, IDLE when it is empty, and opens the nine reply slots; a MOVE, ZERO or SWEEP sets the sent tag of its
key or of the fountain drive (R54), and nothing else changes (4.2, 4.3). The frame stands in the model's field `sentFrame`, and a last cycle
is marked in `cycle` (log entry 28). -/
def Obligations.LineCycleSendsTheFrontFrame : Prop :=
  ∀ (s : State) (n : LineNo), s.regionsInMemory = true → (s.line n).cycleDue = true →
    ∃ t, exec (.lineCycle n) s = .next t ∧ (s.line n).CycleBegan (t.line n)
      ∧ (∀ m, m ≠ n → t.line m = s.line m) ∧ t.units = s.units ∧ t.partGrants = s.partGrants ∧ t.pointer = s.pointer
      ∧ t.port = s.port ∧ t.mem = s.mem ∧ s.SameOutside t

/-- A VALID reply of a key (3.5, 3.7, 4.5) sets the zone's position, and ends or continues the move it matches. AT REST within
tolerance of its commanded position a POSITION move arrives: REST, the move fields absent, and the settle sheet set; beyond it the
move is re-sent with another tag, and after two re-sends it is FAULTED with MISSED. A ZERO move arrives at 0 and is placed, and is
MISSED elsewhere. BLOCKED faults, MOVING and a reply that does not match change nothing further. A MISSING module becomes PRESENT with
LINE EVENT (R91). The mirror block of a unit whose zones changed is written (R12). -/
def Obligations.ReplyWithinToleranceArrives : Prop :=
  ∀ (s : State) (n : LineNo) (k : Cycle) (w : Word) (z : ZoneNo) (c : UnitConfig), s.regionsInMemory = true →
    s.pendingLawful → (s.line n).cycle = some k → judgeSlot k.slot (.reply w false) = .valid →
    zoneOfReply k.slot (replyOfWord w).key = some z → (s.unit n).config = some c → z.val < c.zoneCount →
    let matched := (s.zone n z).state = .moving ∧ s.frameQueued n z = false ∧ (s.zone n z).moveTag = some (replyOfWord w).tag
    let settled := s.timing.counter + BitVec.ofNat 32 (((s.unit n).loopParams.map (·.settleW)).getD 0)
    let p := (replyOfWord w).position
    ∃ t, exec (.replySlot n (.reply w false)) s = .next t
      ∧ (∀ x, matched → (replyOfWord w).motion = some .atRest → (s.zone n z).moveKind = some .position →
          (s.zone n z).commanded = some x → distance p x ≤ c.tolerance →
        (t.zone n z).state = .rest ∧ (t.zone n z).position = some p
        ∧ (t.zone n z).commanded = none ∧ (t.zone n z).moveKind = none ∧ (t.zone n z).moveTag = none
        ∧ (t.zone n z).moveTimer = none ∧ (t.zone n z).target = (s.zone n z).target ∧ (t.zone n z).offset = (s.zone n z).offset
        ∧ (t.zone n z).settleSheet = some settled)
      ∧ (∀ x, matched → (replyOfWord w).motion = some .atRest → (s.zone n z).moveKind = some .position →
          (s.zone n z).commanded = some x → c.tolerance < distance p x → k.last = false →
        if (s.zone n z).attempts < 2 then
          ∃ g, t.zone n z = { s.zone n z with position := some p, attempts := (s.zone n z).attempts + 1, moveTag := some g,
                                              moveTimer := some c.moveTimeout }
            ∧ g ≠ (replyOfWord w).tag ∧ g ≠ ((s.line n).keyTags[z]).sent ∧ (t.line n).tagCounter = g + 1
            ∧ (t.line n).queue.motion = (s.line n).queue.motion ++ [.move z x g]
        else (t.zone n z).state = .faulted ∧ (t.zone n z).faultCause = some .missed ∧ (t.zone n z).position = some p)
      ∧ (matched → (replyOfWord w).motion = some .atRest → (s.zone n z).moveKind = some .zero → p ≠ 0 →
        (t.zone n z).state = .faulted ∧ (t.zone n z).faultCause = some .missed ∧ (t.zone n z).position = some p)
      ∧ (matched → (replyOfWord w).motion = some .atRest → (s.zone n z).moveKind = some .zero → p = 0 →
        (t.zone n z).position = some 0 ∧ (t.zone n z).settleSheet = some settled
        ∧ match (s.zone n z).target with
          | none => (t.zone n z).state = .rest
          | some x => if c.tolerance < x then t.Driven n z x else (t.zone n z).state = .rest)
      ∧ (matched → (replyOfWord w).motion = some .blocked →
        (t.zone n z).state = .faulted ∧ (t.zone n z).faultCause = some .blocked ∧ (t.zone n z).position = some p)
      ∧ (matched → (t.zone n z).state = .faulted → t.noticePending .zoneFault = true ∧ (t.zone n z).commanded = none
        ∧ (t.zone n z).moveKind = none ∧ (t.zone n z).moveTag = none ∧ (t.zone n z).moveTimer = none
        ∧ (t.zone n z).target = (s.zone n z).target ∧ (t.zone n z).settleSheet = (s.zone n z).settleSheet)
      ∧ (¬matched ∨ (replyOfWord w).motion = some .moving → t.zone n z = { s.zone n z with position := some p })
      ∧ (((s.line n).modules[k.slot]).state ≠ .notExpected → ((t.line n).modules[k.slot]).state = .present)
      ∧ (((s.line n).modules[k.slot]).state ≠ .notExpected → ((t.line n).modules[k.slot]).missed = 0)
      ∧ (((s.line n).modules[k.slot]).state = .missing → t.noticePending .lineEvent = true)
      ∧ ((t.line n).keyTags[z]).reported = (replyOfWord w).tag
      ∧ (∀ a, s.Linked a → s.MirrorsChanges t a)
      ∧ (∀ v y, ¬(v = n ∧ y = z) → (s.zone v y).SameAims (t.zone v y)) ∧ s.SameOutside t

/-- A reply slot that is not VALID (4.4): the outcome is the first of R86 that applies, and it is recorded. A PRESENT module misses a
cycle, and at sixteen goes MISSING with LINE EVENT, which faults the REST, PENDING and MOVING zones of a key module and sets the sweep
fault for the fountain drive; another module is left as it was (4.5, 1.8). The slot of address 8 ends the cycle, and after a last cycle
the line is OFF and its LINE POWER OFF ended (4.1). -/
def Obligations.SilentSlotCountsAMissedCycle : Prop :=
  ∀ (s : State) (n : LineNo) (k : Cycle) (input : Reception), s.regionsInMemory = true → s.pendingLawful →
    (s.line n).cycle = some k → judgeSlot k.slot input ≠ .valid →
    let m := (s.line n).modules[k.slot]
    ∃ t, exec (.replySlot n input) s = .next t
      ∧ judgeSlot k.slot .silent = .noReply
      ∧ (∀ w late, judgeSlot k.slot (.reply w late)
        = if (replyOfWord w).address ≠ k.slot.val then .wrongModule
          else if replyCheckAgrees w = false ∨ (k.slot = 0 ∧ (replyOfWord w).key ≠ 0)
              ∨ (k.slot ≠ 0 ∧ ¬(1 ≤ (replyOfWord w).key ∧ (replyOfWord w).key ≤ 8)) ∨ 1000 < (replyOfWord w).position
              ∨ (replyOfWord w).motion = none then .checkError
          else if late then .late else .valid)
      ∧ (m.state ≠ .present → ((t.line n).modules[k.slot]).state = m.state ∧ ((t.line n).modules[k.slot]).missed = m.missed)
      ∧ (m.state = .present → m.missed < 15 → ((t.line n).modules[k.slot]).state = .present
        ∧ ((t.line n).modules[k.slot]).missed = m.missed + 1)
      ∧ (m.state = .present → 15 ≤ m.missed → ((t.line n).modules[k.slot]).state = .missing
        ∧ ((t.line n).modules[k.slot]).missed = 16 ∧ t.noticePending .lineEvent = true
        ∧ (k.slot = 0 → (t.unit n).sweepFault = true)
        ∧ ∀ z, k.slot ≠ 0 → moduleOf z = k.slot → match (s.zone n z).state with
          | .rest | .pending | .moving => (t.zone n z).state = .faulted ∧ (t.zone n z).faultCause = some .noFeedback
          | .held => (t.zone n z).state = .held
          | .faulted => (t.zone n z).state = .faulted ∧ (t.zone n z).faultCause = (s.zone n z).faultCause
          | .off => (t.zone n z).state = .off)
      ∧ (∀ h : k.slot.val < 8, (t.line n).cycle = some { k with slot := ⟨k.slot.val + 1, by omega⟩ }
        ∧ ((t.line n).modules[k.slot]).lastOutcome = judgeSlot k.slot input ∧ (t.line n).power = (s.line n).power)
      ∧ (k.slot = 8 → (t.line n).cycle = none
        ∧ (k.last = false → ((t.line n).modules[k.slot]).lastOutcome = judgeSlot k.slot input
          ∧ (t.line n).power = (s.line n).power)
        ∧ (k.last = true → (t.line n).power = .off ∧ (t.line n).stopTaken = false ∧ (t.line n).queue = CommandQueue.empty
          ∧ (∀ a : Fin 9, ((t.line n).modules[a]).lastOutcome = .lineNotOn)
          ∧ (∀ o, (s.unit n).tracked = some o → o.kind = .linePower false → (t.unit n).tracked = none
            ∧ ∀ a, s.Linked a → o.slot < a.ringLength → s.heldSlots.count o.slot = 1 →
              t.SlotShows a o.slot .done (Detail.only 0))))
      ∧ (∀ a, s.Linked a → s.MirrorsChanges t a)
      ∧ (∀ v z, (s.zone v z).SameAims (t.zone v z)) ∧ s.SameOutside t

/-- The expiry of a MOVING zone's move timer faults it STALLED with ZONE FAULT, releases its grant, and halts its key: a frame still
queued leaves the queue, and otherwise a HALT is queued (3.6, 3.7). While the part is ATTACHED the arbiter then runs on the grants left
(3.2, 3.3), and the mirror block of every unit whose zones changed is written (R12). -/
def Obligations.MoveTimeoutStallsTheZone : Prop :=
  ∀ (s : State) (u : UnitNo) (z : ZoneNo), s.regionsInMemory = true → s.pendingLawful → (s.zone u z).state = .moving →
    (s.zone u z).moveTimer.isSome = true →
    ∃ t, exec (.moveTimeout u z) s = .next t
      ∧ (t.zone u z).state = .faulted ∧ (t.zone u z).faultCause = some .stalled ∧ (t.zone u z).commanded = none
      ∧ (t.zone u z).moveKind = none ∧ (t.zone u z).moveTag = none ∧ (t.zone u z).moveTimer = none
      ∧ t.noticePending .zoneFault = true ∧ t.frameQueued u z = false
      ∧ (s.frameQueued u z = false → z ∈ (t.line u).queue.halts)
      ∧ (s.port.state ≠ .attached → t.partGrants = s.partGrants - 1
        ∧ ∀ n, (t.line n).grants = if n = u then (s.line u).grants - 1 else (s.line n).grants)
      ∧ (s.port.state = .attached → ∃ given, (s.withGrantReleased u).ArbiterRan t given fun n => (s.line n).tagCounter)
      ∧ (∀ a, s.Linked a → s.MirrorsChanges t a)
      ∧ (∀ v y, (s.zone v y).SameAims (t.zone v y)) ∧ (∀ v, (s.unit v).SameSettings (t.unit v))
      ∧ (∀ n, (s.line n).SameService (t.line n)) ∧ s.SameOutside t

/-- The ends of a sweep move (4.6). The expiry of its timer ends it with a fault: the sweep fault set, LINE EVENT raised, its frame off
the queue, the reached sweep absent, and no further pursuit; no zone changes. A VALID reply of the fountain drive with the move's tag,
its frame sent, ends it by arrival AT REST within 5 of its value, and with that fault elsewhere or BLOCKED; MOVING leaves it. A MISSING
drive that replies becomes PRESENT with LINE EVENT, and is pursued (R91, R92, R93). -/
def Obligations.SweepTimeoutFaultsTheFountain : Prop :=
  ∀ (s : State) (n : LineNo), s.regionsInMemory = true →
    ((s.line n).fountain.move.isSome = true → (s.line n).fountain.moveTimer.isSome = true →
      ∃ t, exec (.sweepTimeout n) s = .next t
      ∧ (t.line n).fountain.move = none ∧ (t.line n).fountain.moveTimer = none ∧ (t.line n).fountain.reached = none
      ∧ (t.line n).fountain.pursuit = false ∧ (t.line n).fountain.wanted = (s.line n).fountain.wanted
      ∧ t.sweepQueued n = false ∧ (t.unit n).sweepFault = true ∧ t.noticePending .lineEvent = true
      ∧ (∀ o, (t.unit n).tracked = some o → o.fountainWait = false)
      ∧ (∀ a, s.Linked a → s.MirrorWritten t a n)
      ∧ (∀ v z, t.zone v z = s.zone v z) ∧ (∀ m, m ≠ n → t.line m = s.line m) ∧ s.SameOutside t)
    ∧ ∀ (k : Cycle) (w : Word), (s.line n).cycle = some k → k.slot = 0 → judgeSlot 0 (.reply w false) = .valid →
      (s.unit n).config.isSome = true →
      ∃ t, exec (.replySlot n (.reply w false)) s = .next t
      ∧ (∀ m, s.fountainModule n ≠ .missing → (s.line n).fountain.move = some m → s.sweepQueued n = false →
          m.tag = (replyOfWord w).tag →
        ((replyOfWord w).motion = some .moving → (t.line n).fountain = (s.line n).fountain
          ∧ (t.unit n).sweepFault = (s.unit n).sweepFault)
        ∧ ((replyOfWord w).motion = some .atRest → distance (replyOfWord w).position m.value ≤ 5 →
          (t.line n).fountain = { (s.line n).fountain with reached := some m.value, move := none, moveTimer := none }
          ∧ (t.unit n).sweepFault = false ∧ (∀ o, (t.unit n).tracked = some o → o.fountainWait = false))
        ∧ ((replyOfWord w).motion = some .blocked
            ∨ ((replyOfWord w).motion = some .atRest ∧ 5 < distance (replyOfWord w).position m.value) →
          (t.line n).fountain = { (s.line n).fountain with reached := none, move := none, moveTimer := none, pursuit := false }
          ∧ (t.unit n).sweepFault = true ∧ t.noticePending .lineEvent = true
          ∧ (∀ o, (t.unit n).tracked = some o → o.fountainWait = false)))
      ∧ (s.fountainModule n ≠ .missing → ((s.line n).fountain.move = none ∨ s.sweepQueued n = true
          ∨ ∃ m, (s.line n).fountain.move = some m ∧ m.tag ≠ (replyOfWord w).tag) →
        (t.line n).fountain = (s.line n).fountain ∧ t.units = s.units)
      ∧ (s.fountainModule n = .missing → (s.line n).fountain.move = none →
        t.fountainModule n = .present ∧ t.noticePending .lineEvent = true ∧ (t.line n).fountain.pursuit = true
        ∧ (t.unit n).sweepFault = (s.unit n).sweepFault
        ∧ ∀ v, (s.line n).fountain.wanted = some v →
          if s.port.state = .attached ∧ (s.line n).inService = true ∧ (s.line n).fountain.reached ≠ some v then
            ∃ g, (t.line n).fountain.move = some { value := v, tag := g }
              ∧ (t.line n).fountain.moveTimer = some (s.unit n).moveTimeout ∧ .sweep v g ∈ (t.line n).queue.motion
              ∧ g ≠ (replyOfWord w).tag ∧ g ≠ (s.line n).fountainTags.sent
          else (t.line n).fountain.move = none)
      ∧ (t.line n).fountainTags = { (s.line n).fountainTags with reported := (replyOfWord w).tag }
      ∧ (t.line n).cycle = some { k with slot := 1 }
      ∧ (∀ a, s.Linked a → (t.unit n).sweepFault ≠ (s.unit n).sweepFault → s.MirrorWritten t a n)
      ∧ (∀ v z, t.zone v z = s.zone v z) ∧ (∀ m, m ≠ n → t.line m = s.line m) ∧ s.SameOutside t

/-- The overcurrent sense trips a line that is STARTING or ON: TRIPPED, its queue empty, its outcomes LINE TRIPPED, its MOVING zones
PENDING, its sweep move ended, its unit's RUNNING order DONE WITH FAULTS with cause LINE TRIPPED, LINE EVENT raised, and no missed cycle
counted for the cycle cut; a module that the cycle made MISSING stays so, its count at 16 (log entry 35). On an OFF or TRIPPED line it is
ignored (4.1, 3.8). -/
def Obligations.OvercurrentTripsTheLine : Prop :=
  ∀ (s : State) (n : LineNo), s.regionsInMemory = true →
    ∃ t, exec (.overcurrentSense n) s = .next t
      ∧ ((s.line n).power = .starting ∨ (s.line n).power = .on →
        (t.line n).power = .tripped ∧ (t.line n).stopTaken = false ∧ (t.line n).startTimer = none ∧ (t.line n).cycle = none
        ∧ (t.line n).queue = CommandQueue.empty ∧ (t.line n).fountain.move = none
        ∧ (∀ m : Fin 9, ((t.line n).modules[m]).lastOutcome = .lineTripped
          ∧ ((t.line n).modules[m]).state = ((s.line n).modules[m]).state
          ∧ ((t.line n).modules[m]).missed = (match (s.line n).cycle with
            | some k =>
              if m < k.slot ∧ ((s.line n).modules[m]).state = .present ∧ ((s.line n).modules[m]).lastOutcome ≠ .valid then
                ((s.line n).modules[m]).missed - 1
              else ((s.line n).modules[m]).missed
            | none => ((s.line n).modules[m]).missed))
        ∧ (t.unit n).tracked = none
        ∧ (∀ a, s.Linked a → s.MirrorsChanges t a ∧ ∀ o, (s.unit n).tracked = some o → o.slot < a.ringLength →
          s.heldSlots.count o.slot = 1 → t.SlotShows a o.slot .doneWithFaults (o.finalDetail (s.unit n) .lineTripped))
        ∧ (∀ z, (t.zone n z).state = if (s.zone n z).state = .moving then .pending else (s.zone n z).state)
        ∧ t.noticePending .lineEvent = true ∧ t.check = s.check)
      ∧ ((s.line n).power = .off ∨ (s.line n).power = .tripped → s.SameBlocks t ∧ t.mem = s.mem)
      ∧ ((s.line n).power = .check → t.check = s.check.map (fun c => c.overcurrent n) ∧ t.lines = s.lines ∧ t.units = s.units)
      ∧ (∀ v z, (s.zone v z).SameAims (t.zone v z)) ∧ (∀ v, (s.unit v).SameSettings (t.unit v))
      ∧ t.curves = s.curves ∧ t.intake = s.intake ∧ t.timing = s.timing ∧ t.pending = s.pending

/-- The check's phases (5.3, 5.5, 5.6). At the end of DRAIN a line still high is SHORT TO SUPPLY and its ENERGIZE phase is skipped; at
the end of an ENERGIZE phase an asserted sense of the line energized is SHORT TO GROUND, and the other line risen with it, if it is not
SHORT TO SUPPLY, makes each line without a finding CROSS-COUPLED; a finding made is not replaced. DRAIN A leads to ENERGIZE B or the
end, and DRAIN B and ABORT DRAIN to the end. A check ends with the findings as the lines' results, PASSED where there is none, both
lines OFF, LINE EVENT raised, and its order DONE or DONE WITH FAULTS for both units. -/
def Obligations.CheckPhasesTestTheLines : Prop :=
  ∀ (s : State) (c : CheckRun) (senseA senseB : Bool), s.regionsInMemory = true → s.check = some c → c.lineA ≠ c.lineB →
    let made (old : Option CheckResult) (new : CheckResult) : Option CheckResult := some (old.getD new)
    ∃ t, exec (.checkPhaseExpiry senseA senseB) s = .next t
      ∧ (c.phase = .drain → c.findingA = none → c.findingB = none → senseA = true → t.lines = s.lines
        ∧ t.check = some { c with phase := .energizeA, timer := some 50, findingB := if senseB then none else some .shortToSupply })
      ∧ (c.phase = .drain → c.findingA = none → c.findingB = none → senseA = false → senseB = true → t.lines = s.lines
        ∧ t.check = some { c with phase := .energizeB, timer := some 50, findingA := some .shortToSupply })
      ∧ (c.phase = .drain → c.findingA = none → c.findingB = none → senseA = false → senseB = false → t.check = none
        ∧ (t.line c.lineA).checkResult = .shortToSupply ∧ (t.line c.lineB).checkResult = .shortToSupply
        ∧ t.noticePending .lineEvent = true ∧ (t.line c.lineA).power = .off ∧ (t.line c.lineB).power = .off
        ∧ ∀ o, (s.unit c.lineA).tracked = some o → (t.unit c.lineA).tracked = none ∧ (t.unit c.lineB).tracked = none
          ∧ ∀ a, s.Linked a → o.slot < a.ringLength →
            t.SlotShows a o.slot .doneWithFaults { Detail.only 0 with linesFailed := 2 })
      ∧ (c.phase = .energizeA → t.lines = s.lines
        ∧ let groundA := if senseA then made c.findingA .shortToGround else c.findingA
          t.check = some (if c.findingB ≠ some .shortToSupply ∧ senseB = false then
              { c with phase := .drainA, timer := some 20, findingA := made groundA .crossCoupled,
                       findingB := made c.findingB .crossCoupled }
            else { c with phase := .drainA, timer := some 20, findingA := groundA }))
      ∧ (c.phase = .drainA → c.findingB ≠ some .shortToSupply → t.lines = s.lines
        ∧ t.check = some { c with phase := .energizeB, timer := some 50 })
      ∧ (c.phase = .energizeB → t.lines = s.lines
        ∧ let groundB := if senseB then made c.findingB .shortToGround else c.findingB
          t.check = some (if c.findingA ≠ some .shortToSupply ∧ senseA = false then
              { c with phase := .drainB, timer := some 20, findingA := made c.findingA .crossCoupled,
                       findingB := made groundB .crossCoupled }
            else { c with phase := .drainB, timer := some 20, findingB := groundB }))
      ∧ (c.phase = .drainB ∨ c.phase = .abortDrain ∨ (c.phase = .drainA ∧ c.findingB = some .shortToSupply) → t.check = none
        ∧ t.noticePending .lineEvent = true ∧ (t.line c.lineA).power = .off ∧ (t.line c.lineB).power = .off
        ∧ (t.line c.lineA).stopTaken = false ∧ (t.line c.lineB).stopTaken = false
        ∧ (t.line c.lineA).checkResult = c.findingA.getD .passed ∧ (t.line c.lineB).checkResult = c.findingB.getD .passed)
      ∧ (c.phase = .drainB ∨ (c.phase = .drainA ∧ c.findingB = some .shortToSupply) → ∀ o, (s.unit c.lineA).tracked = some o →
        (t.unit c.lineA).tracked = none ∧ (t.unit c.lineB).tracked = none
        ∧ ∀ a, s.Linked a → o.slot < a.ringLength →
          let failed := linesFailed (c.findingA.getD .passed) (c.findingB.getD .passed)
          t.SlotShows a o.slot (if failed = 0 then .done else .doneWithFaults) { Detail.only 0 with linesFailed := failed })
      ∧ (t.check.isSome = true → t.units = s.units ∧ t.mem = s.mem)
      ∧ (∀ l, l ≠ c.lineA → l ≠ c.lineB → t.line l = s.line l) ∧ (∀ v z, t.zone v z = s.zone v z)
      ∧ (∀ v, (s.unit v).SameSettings (t.unit v))
      ∧ t.curves = s.curves ∧ t.intake = s.intake ∧ t.timing = s.timing ∧ t.pending = s.pending

/-! ### The scan link (chapter 6, 9.8) -/

/-- A SCAN OPEN and a UNIT BLOCK (6.2, 6.6): OFF ignores both; ARMED takes a SCAN OPEN, turns ON, and ignores a block; ON opens a
scan from IDLE, adds a readable block to an open scan and stores it for a defined unit, and counts one in IDLE as a link fault. -/
def Obligations.ScanFramesAssemble : Prop :=
  ∀ (host : List HostWrite) (s : State) (number : BitVec 16) (sheet : Sheet) (unit : BitVec 8) (entries : List Entry),
    s.regionsInMemory = true → 1 ≤ entries.length → entries.length ≤ 64 →
    ∃ t t', exec (.scanOpen host number sheet) s = .next t ∧ exec (.unitBlock unit entries) s = .next t'
      ∧ (s.intake.setting = .off → t.intake = s.intake ∧ t'.intake = s.intake)
      ∧ (s.intake.setting = .armed → t'.intake = s.intake)
      ∧ (s.intake.setting = .armed ∨ (s.intake.setting = .on ∧ s.intake.scan = none) →
        t.intake.setting = .on ∧ t.intake.scanTimer = some 500 ∧ t.intake.linkFaults = s.intake.linkFaults
        ∧ t.intake.lastScan = s.intake.lastScan ∧ t.intake.watches = s.intake.watches
        ∧ ∃ scan, t.intake.scan = some scan ∧ scan.number = number ∧ scan.sheet = sheet
          ∧ scan.sum = BitVec.ofNat 32 (2 ^ 24 + number.toNat) + sheet ∧ ∀ u : UnitNo, scan.blocks[u] = none)
      ∧ (s.intake.setting = .on → s.intake.scan = none → t'.intake = { s.intake with linkFaults := countUp s.intake.linkFaults })
      ∧ (∀ scan, s.intake.setting = .on → s.intake.scan = some scan →
        (∃ scan', t'.intake = { s.intake with scan := some scan' } ∧ scan'.number = scan.number ∧ scan'.sheet = scan.sheet
          ∧ scan'.sum = scan.sum + checkSum (unitBlockWords unit entries)
          ∧ ∀ u : UnitNo, scan'.blocks[u] = if unit.toNat = u.number ∧ (s.unit u).config.isSome = true then some entries
              else scan.blocks[u])
        ∧ t.intake.lastScan = some scan.number ∧ t.intake.linkFaults = countUp s.intake.linkFaults
        ∧ t.noticePending .scanFault = true ∧ ∃ scan', t.intake.scan = some scan' ∧ scan'.number = number)
      ∧ t.units = s.units ∧ t.lines = s.lines ∧ t.curves = s.curves ∧ t.timing = s.timing ∧ t.check = s.check
      ∧ t'.units = s.units ∧ t'.lines = s.lines ∧ t'.curves = s.curves ∧ t'.timing = s.timing ∧ t'.check = s.check

/-- A SCAN CLOSE with the intake ON ends an open scan: COMPLETE when its check word is the check sum, which counts no link fault, and
otherwise as BAD CHECK with SCAN FAULT; the last scan number becomes the scan's, and the intake is IDLE. With no scan open it counts
a link fault (6.2, 6.8). A COMPLETE scan samples the densities its codes let through and steps the zones the correction loop finds out
of tolerance (6.3 to 6.5, 7.3), writes the last hits of density watch entries, raising DENSITY WATCH (6.7), and leaves every zone of no
valid density that is not PENDING alone. An ATTACHED part stores the record of either end (6.8, 9.8); for a COMPLETE scan, whose steps may
complete an order, the slots that units hold lie in the ring, as `OneOrderForEachUnit` keeps them. A segment's opening header stands in the
model's field `unfinished` (log entry 24). That a sheet 2^31 away is stale is the model's choice (log entry 38). -/
def Obligations.ScanCloseEndsTheScan : Prop :=
  ∀ (host : List HostWrite) (s : State) (w : Word), s.regionsInMemory = true →
    ∃ t, exec (.scanClose host w) s = .next t
      ∧ (s.intake.setting ≠ .on → t.intake = s.intake)
      ∧ (s.intake.setting = .on → s.intake.scan = none → t.intake = { s.intake with linkFaults := countUp s.intake.linkFaults })
      ∧ (∀ scan, s.intake.setting = .on → s.intake.scan = some scan → t.intake.scan = none ∧ t.intake.scanTimer = none
        ∧ t.intake.lastScan = some scan.number ∧ t.intake.setting = .on
        ∧ (w = scan.sum → t.intake.linkFaults = s.intake.linkFaults)
        ∧ (w ≠ scan.sum → t.intake.linkFaults = countUp s.intake.linkFaults ∧ t.noticePending .scanFault = true
          ∧ t.units = s.units ∧ t.lines = s.lines ∧ t.intake.watches = s.intake.watches
          ∧ ∀ a, s.Linked a → s.StoreLawful a →
            s.Stores t host a (scanRecord scan s.timing.counter .badCheck (s.faultGroups scan)))
        ∧ (w = scan.sum → s.pendingLawful →
          (∀ r ∈ s.validReadings scan, s.Sampled t r.1 r.2.1 r.2.2)
          ∧ (∀ u z, (∀ d, (u, z, d) ∉ s.validReadings scan) → (s.zone u z).state ≠ .pending → t.zone u z = s.zone u z)
          ∧ (∀ k : Fin 4, t.intake.watches[k] = match ((s.intake.watches[k]).hits (s.validReadings scan)).getLast? with
            | some r => { s.intake.watches[k] with
                lastHit := some { unit := r.1, zone := r.2.1, density := r.2.2, scan := scan.number } }
            | none => s.intake.watches[k])
          ∧ (t.noticePending .densityWatch = true ↔ s.noticePending .densityWatch = true
            ∨ ∃ k : Fin 4, (s.intake.watches[k]).hits (s.validReadings scan) ≠ [])
          ∧ (∀ a, s.Linked a → s.MirrorsChanges t a ∧ (s.StoreLawful a → (∀ k ∈ s.heldSlots, k < a.ringLength) →
            s.Stores t host a (scanRecord scan s.timing.counter .complete (s.codedGroups scan))))))
      ∧ (∀ u, (s.unit u).SameSettings (t.unit u)) ∧ (∀ n, (s.line n).SameService (t.line n))
      ∧ (∀ u z, (t.zone u z).coverage = (s.zone u z).coverage ∧ (t.zone u z).plan = (s.zone u z).plan
        ∧ (t.zone u z).position = (s.zone u z).position)
      ∧ t.curves = s.curves ∧ t.timing = s.timing ∧ t.check = s.check ∧ t.pending = s.pending

/-- An open scan ends as LINK FAULT by an unreadable frame or its timeout: no density is sampled, the link faults rise by one to
65,535 at most, SCAN FAULT is raised, and the last scan number becomes the scan's (6.2). An ATTACHED part stores its record, every
reading coded LINK FAULT; where no segment is open and the current one's header does not read EMPTY, it is lost with STORE OVERRUN
(9.8). A segment's opening header stands in the model's field `unfinished` (log entry 24). -/
def Obligations.LinkFaultsEndTheScan : Prop :=
  ∀ (host : List HostWrite) (s : State) (scan : OpenScan), s.regionsInMemory = true → s.intake.scan = some scan →
    s.intake.setting = .on → s.intake.scanTimer.isSome = true →
    ∀ c ∈ [(Instr.unreadableFrame host, ScanOutcome.badFrame), (Instr.scanTimeout host, ScanOutcome.timeout)],
      ∃ t, exec c.1 s = .next t
      ∧ t.intake = { s.intake with scan := none, scanTimer := none, lastScan := some scan.number,
                                   linkFaults := if s.intake.linkFaults < 65535 then s.intake.linkFaults + 1 else s.intake.linkFaults }
      ∧ t.noticePending .scanFault = true
      ∧ (∀ a, s.port.state = .attached → s.port.anchor = some a → s.port.openSegment = none →
        bits (Memory.read (Memory.hostWrites s.mem host) (a.storeBase + s.port.segment * a.segmentSize)) 0 4 ≠ 0 →
        t.noticePending .storeOverrun = true ∧ t.port.lostScans = countUp s.port.lostScans ∧ t.port.segment = s.port.segment
        ∧ t.port.openSegment = none)
      ∧ (∀ a, s.Linked a → s.StoreLawful a → s.Stores t host a (scanRecord scan s.timing.counter c.2 (s.faultGroups scan)))
      ∧ t.units = s.units ∧ t.lines = s.lines ∧ t.partGrants = s.partGrants ∧ t.pointer = s.pointer ∧ t.curves = s.curves
      ∧ t.timing = s.timing ∧ t.check = s.check ∧ t.pending = s.pending

/-! ### Press timing (chapter 8) -/

/-- A sheet mark raises the counter by one, makes the press RUNNING with its run timer afresh, raises SHEET WATCH on a match, and counts
the interval down; at the mark that brings it to 0 it is reloaded and its actions are performed, with the new counter (8.1, 8.4, 8.5).
The mark releases the waiting orders whose sheet has come, whose start is a command of its own (the model's choice, log entry 7), and is
handed to an ATTACHED port, in the model's field `handedMarks` (log entry 31); no zone changes. -/
def Obligations.SheetMarkCounts : Prop :=
  ∀ s : State, s.regionsInMemory = true → ∃ t, exec .sheetMark s = .next t
    ∧ t.timing = { s.timing with counter := s.timing.counter + 1, run := .running, runTimer := some 2000,
                                 count := if s.timing.period = 0 then s.timing.count
                                   else if s.timing.count ≤ 1 then s.timing.period else s.timing.count - 1 }
    ∧ (t.noticePending .sheetWatch = true ↔ s.noticePending .sheetWatch = true ∨ (s.timing.watchEnabled = true
        ∧ ∀ i < 32, s.timing.watchMask.getLsbD i = false →
          (s.timing.counter + 1).getLsbD i = s.timing.watchValue.getLsbD i))
    ∧ (let expired := s.timing.period ≠ 0 ∧ s.timing.count ≤ 1
      (expired → s.timing.actScanRequest = true → t.scanPulses = s.scanPulses + 1)
      ∧ (¬expired ∨ s.timing.actScanRequest = false → t.scanPulses = s.scanPulses)
      ∧ (expired → s.timing.actSnapshot = true → ∀ a, s.Linked a → t.port.snapshotSheet = s.timing.counter + 1
        ∧ Memory.read t.mem a.statusBase = s.timing.counter + 1
        ∧ (∀ u, (s.unit u).config.isSome = true → s.MirrorWritten t a u)
        ∧ ∀ n : LineNo, Memory.readWords t.mem (a.statusBase + 4 + 2 * n.val) 2 = lineEntry (s.line n))
      ∧ (¬expired ∨ s.timing.actSnapshot = false ∨ s.port.state ≠ .attached → t.mem = s.mem
        ∧ t.port.snapshotSheet = s.port.snapshotSheet ∧ t.port.updateCounts = s.port.updateCounts))
    ∧ (∀ u, t.unit u = { s.unit u with waiting := (s.unit u).waiting.map fun w =>
        { w with released := w.released || decide (0 ≤ (s.timing.counter + 1 - w.atSheet).toInt) } })
    ∧ t.port.handedMarks = (if s.port.state = .attached then s.port.handedMarks + 1 else s.port.handedMarks)
    ∧ Port.Kept { s.port with handedMarks := t.port.handedMarks, snapshotSheet := t.port.snapshotSheet } t.port
    ∧ t.lines = s.lines ∧ t.partGrants = s.partGrants ∧ t.pointer = s.pointer ∧ t.curves = s.curves ∧ t.check = s.check
    ∧ t.intake = s.intake ∧ t.pending = s.pending

/-- The interval timer's expiry reloads the count, pulses the scan request and takes a snapshot as its action set says (8.5). As a
command of its own it is left for a count that stands at 0 with a period, which no mark leaves (log entry 7). The run timer's expiry
makes the press STOPPED (8.1). -/
def Obligations.TimersExpire : Prop :=
  ∀ s : State, s.regionsInMemory = true →
    (s.timing.period ≠ 0 → s.timing.count = 0 → ∃ t, exec .intervalExpiry s = .next t
      ∧ t.timing = { s.timing with count := s.timing.period }
      ∧ t.scanPulses = s.scanPulses + (if s.timing.actScanRequest then 1 else 0)
      ∧ (s.timing.actSnapshot = true → s.port.state = .attached → t.port.snapshotSheet = s.timing.counter
        ∧ ∀ u, (s.unit u).config.isSome = true → t.port.updateCounts[u] = s.port.updateCounts[u] + 2)
      ∧ (s.timing.actSnapshot = false → t.mem = s.mem ∧ t.port.snapshotSheet = s.port.snapshotSheet)
      ∧ t.units = s.units ∧ t.lines = s.lines ∧ t.partGrants = s.partGrants ∧ t.curves = s.curves ∧ t.check = s.check
      ∧ t.intake = s.intake ∧ t.pending = s.pending)
    ∧ (s.timing.runTimer.isSome = true → ∃ t, exec .runTimerExpiry s = .next t
      ∧ t.timing = { s.timing with run := .stopped, runTimer := none } ∧ s.SameBlocks { t with timing := s.timing }
      ∧ t.port = s.port ∧ t.mem = s.mem)

/-- R143: the impression state follows its input and touches nothing else of the press timing unit, and after the reset pin and
power-on it takes the input's level. -/
def Obligations.ImpressionFollowsItsInput : Prop :=
  ∀ (s : State) (b : Bool), (s.regionsInMemory = true → ∃ t, exec (.impressionChange b) s = .next t
      ∧ t.timing = { s.timing with impression := b } ∧ s.SameBlocks { t with timing := s.timing } ∧ t.port = s.port
      ∧ t.mem = s.mem)
    ∧ ∀ c ∈ [Instr.resetPin b, Instr.powerOn b], ∃ t, exec c s = .next t ∧ t.timing.impression = b

/-! ### The opening computation and the correction step (chapters 2 and 7) -/

/-- R33 and R34, the sweep choice: in FIXED mode the fixed sweep, whatever coverages and bases; in AUTO mode the least s with
M · 500 ≤ s · o_cap, raised to s_min, M being the largest base of the zones at or above the idle threshold, and s_min when there is
none. With bases to 1,000 and a configuration in range s lies within s_min to 1,000; a threshold of 0 leaves no zone out. -/
def Obligations.SweepChoice : Prop :=
  ∀ (c : UnitConfig) (coverage bases : Vector Nat 64),
    (c.sweepMode = .fixed → chooseSweep c coverage bases = c.fixedSweep)
    ∧ (c.sweepMode = .auto →
      ((∀ z : ZoneNo, z.val < c.zoneCount → coverage[z] < c.idleThreshold) → chooseSweep c coverage bases = c.sMin)
      ∧ (∀ z : ZoneNo, z.val < c.zoneCount → c.idleThreshold ≤ coverage[z] →
        (∀ y : ZoneNo, y.val < c.zoneCount → c.idleThreshold ≤ coverage[y] → bases[y] ≤ bases[z]) → 0 < c.oCap →
        ∃ n, bases[z] * 500 ≤ n * c.oCap ∧ (∀ k, bases[z] * 500 ≤ k * c.oCap → n ≤ k)
          ∧ chooseSweep c coverage bases = max c.sMin n)
      ∧ (c.inRange = true → (∀ z : ZoneNo, bases[z] ≤ 1000) →
        c.sMin ≤ chooseSweep c coverage bases ∧ chooseSweep c coverage bases ≤ 1000))
    ∧ (c.idleThreshold = 0 → ∀ z : ZoneNo, c.idleThreshold ≤ coverage[z])

/-- The step size of an error (7.3): within step max, of the error's sign or 0, and within step max the nearest integer to
e · gain / 100, a half going away from zero. -/
def Obligations.StepSizeRoundsAndLimits : Prop :=
  ∀ (p : LoopParams) (e : Int),
    (stepSize p e).natAbs ≤ p.stepMax ∧ (0 ≤ e → 0 ≤ stepSize p e) ∧ (e ≤ 0 → stepSize p e ≤ 0) ∧ stepSize p (-e) = -stepSize p e
    ∧ (0 ≤ e → stepSize p e < p.stepMax → 100 * stepSize p e - 50 ≤ e * p.gain ∧ e * p.gain < 100 * stepSize p e + 50)
    ∧ (0 ≤ e → (stepSize p e = p.stepMax → 100 * (p.stepMax : Int) - 50 ≤ e * p.gain))

/-! ### Laws that every step keeps -/

/-- The exchange memory keeps its canonical form. -/
def Obligations.MemoryStaysCanonical : Prop :=
  ∀ s t : State, Memory.wf s.mem = true → step s = .next t → Memory.wf t.mem = true

/-- The law of 7.2: every offset lies within −300 to +300. -/
def Obligations.OffsetsStayInRange : Prop := ∀ s t : State, s.offsetsInRange → step s = .next t → t.offsetsInRange

/-- A stored curve is always valid (1.3). -/
def Obligations.CurvesStayValid : Prop := ∀ s t : State, s.curvesValid → step s = .next t → t.curvesValid

/-- The law of 1.2: a target lies within its unit's o_min to o_max. -/
def Obligations.TargetsStayWithinBounds : Prop :=
  ∀ s t : State, s.boundsLawful → s.targetsInRange → step s = .next t → t.boundsLawful ∧ t.targetsInRange

/-- The law of 3.1: a zone is in its line's pending list exactly while it is PENDING, and once. -/
def Obligations.PendingListsStayLawful : Prop := ∀ s t : State, s.pendingLawful → step s = .next t → t.pendingLawful

/-- The laws of 1.4 and 3.2: a grant is held by exactly the MOVING zones, and grants stay within the line budget and the part drive
budget, none being held while the part is not ATTACHED. -/
def Obligations.GrantsStayWithinBudgets : Prop :=
  ∀ s t : State, s.pendingLawful → s.grantsLawful → s.budgetsLawful → step s = .next t → t.grantsLawful ∧ t.budgetsLawful

/-- The laws of 1.2 and 6.5 on zone records: the move fields are present exactly in MOVING and a cause exactly in FAULTED, and a
sample list holds at most 8 densities, none outside REST. -/
def Obligations.ZoneRecordsStayLawful : Prop :=
  ∀ s t : State, s.zoneFieldsLawful → s.samplesLawful → step s = .next t → t.zoneFieldsLawful ∧ t.samplesLawful

/-- The law of 10.3: a unit never has a RUNNING and a WAITING order at once. And the orders that units hold stand in slots of the ring of an
ATTACHED part, a part that is not ATTACHED holding none (9.4, 9.5). -/
def Obligations.OneOrderForEachUnit : Prop :=
  ∀ s t : State, step s = .next t → (s.oneOrderEach → t.oneOrderEach) ∧ (s.slotsInRing → t.slotsInRing)

/-! ### What a command cannot touch -/

/-- While the part is not ATTACHED, no command but the success of an attach changes the exchange memory beyond what the host writes
(9.3, 9.4). That a reset then finds no write in progress is the model's choice (log entry 24). -/
def Obligations.UnattachedPartWritesNothing : Prop :=
  ∀ (c : Instr) (s t : State), s.port.state ≠ .attached → (∀ host, c ≠ .attachSuccess host) → exec c s = .next t →
    t.mem = Memory.hostWrites s.mem c.host

/-- The blocks change at their own commands alone: the press timing unit, the reading intake, the check unit, the curves, and the part
state with its anchor copy (chapters 5, 6, 8 and 9). -/
def Obligations.BlocksChangeAtTheirOwnCommands : Prop :=
  ∀ (c : Instr) (s t : State), exec c s = .next t → t.pending = s.pending
    ∧ (c.setsPart = false → t.curves = s.curves ∧ t.port.state = s.port.state ∧ t.port.anchor = s.port.anchor)
    ∧ (c.setsTiming = false → t.timing = s.timing) ∧ (c.setsIntake = false → t.intake = s.intake)
    ∧ (c.setsCheck = false → t.check = s.check)

/-- A unit's configuration and loop change at DEFINE UNIT, SET LOOP, SWEEP and a waiting order's start, and at the resets, alone; and
no zone changes at all at the commands that move no key (1.1, 1.4, 7.1). -/
def Obligations.UnitsChangeAtTheirOwnCommands : Prop :=
  ∀ (c : Instr) (s t : State), exec c s = .next t →
    (c.setsConfig = false → ∀ u, (t.unit u).config = (s.unit u).config ∧ (t.unit u).loopOn = (s.unit u).loopOn
      ∧ (t.unit u).loopParams = (s.unit u).loopParams)
    ∧ (c.setsZones = false → ∀ u z, t.zone u z = s.zone u z)

/-- A line's power state changes at LINE POWER, CHECK LINES, its start timer, its last cycle, a trip and a check's end, and at the
resets, alone (4.1, 5.5). -/
def Obligations.LinePowerChangesAtItsOwnCommands : Prop :=
  ∀ (c : Instr) (s t : State), c.setsPower = false → exec c s = .next t → ∀ n, (t.line n).power = (s.line n).power
end

