-- ==== Sys2Proof/Laws/Memory.lean ====
section
/-! SUPPORT. The exchange memory: a write keeps the canonical form, and what is read after it. -/

namespace Sys2Proof.Machine

/-- Addresses strictly rise, pair by pair. -/
theorem risingCells_iff (m : List Cell) : risingCells m = true ↔ m.Pairwise fun a b => a.1 < b.1 := by
  induction m with
  | nil => simp [risingCells]
  | cons a m ih =>
    cases m with
    | nil => simp [risingCells]
    | cons b m =>
      rw [List.pairwise_cons, ← ih]
      simp only [risingCells, Bool.and_eq_true, decide_eq_true_eq, List.mem_cons, forall_eq_or_imp]
      constructor
      · rintro ⟨h, h2⟩
        refine ⟨⟨h, fun c hc => ?_⟩, h2⟩
        have := (List.pairwise_cons.1 (ih.1 h2)).1 c hc
        omega
      · rintro ⟨⟨h, _⟩, h2⟩
        exact ⟨h, h2⟩

/-- The canonical form, cell by cell. -/
theorem Memory.wf_iff (m : Memory) : Memory.wf m = true ↔
    m.Pairwise (fun a b => a.1 < b.1) ∧ ∀ c ∈ m, c.1 < Config.memoryWords ∧ c.2 ≠ unlistedWord := by
  simp [Memory.wf, risingCells_iff]

theorem Memory.wf_nil : Memory.wf [] = true := rfl

/-- An address below every listed one reads as an unlisted word. -/
theorem Memory.read_below (m : Memory) (a : Nat) (h : ∀ c ∈ m, a < c.1) : Memory.read m a = unlistedWord := by
  cases m with
  | nil => rfl
  | cons c m => obtain ⟨b, w⟩ := c; simp [Memory.read, h (b, w) (by simp)]

/-- An address that is not listed reads as an unlisted word. -/
theorem Memory.read_unlisted (m : Memory) (a : Nat) (h : ∀ c ∈ m, c.1 ≠ a) : Memory.read m a = unlistedWord := by
  induction m with
  | nil => rfl
  | cons c m ih =>
    obtain ⟨b, w⟩ := c
    have hb : b ≠ a := h (b, w) (by simp)
    simp only [Memory.read, if_neg hb.symm]
    split
    · rfl
    · exact ih fun c hc => h c (by simp [hc])

/-- Two runs of cells, the first below b and the second from b on. -/
theorem Memory.read_append (m1 m2 : Memory) (a b : Nat) (h1 : ∀ c ∈ m1, c.1 < b) (h2 : ∀ c ∈ m2, b ≤ c.1) :
    Memory.read (m1 ++ m2) a = if a < b then Memory.read m1 a else Memory.read m2 a := by
  induction m1 with
  | nil =>
    by_cases h : a < b
    · simp only [List.nil_append, if_pos h]
      exact Memory.read_below m2 a fun c hc => lt_of_lt_of_le h (h2 c hc)
    · simp [h]
  | cons c m1 ih =>
    obtain ⟨x, w⟩ := c
    have hx : x < b := h1 (x, w) (by simp)
    have ih := ih fun c hc => h1 c (by simp [hc])
    simp only [List.cons_append, Memory.read]
    by_cases h : a < b
    · simp only [if_pos h] at ih ⊢
      rw [ih]
    · have hn : ¬a < x := by omega
      have hne : a ≠ x := by omega
      simp only [if_neg h, if_neg hn, if_neg hne] at ih ⊢
      exact ih

theorem cellsFrom_bounds (base : Nat) (ws : List Word) :
    ∀ c ∈ cellsFrom base ws, base ≤ c.1 ∧ c.1 < base + ws.length ∧ c.1 < Config.memoryWords ∧ c.2 ≠ unlistedWord := by
  induction ws generalizing base with
  | nil => simp [cellsFrom]
  | cons w ws ih =>
    intro c hc
    simp only [cellsFrom] at hc
    split at hc
    · next hb =>
      split at hc
      · obtain ⟨h1, h2, h3, h4⟩ := ih (base + 1) c hc
        exact ⟨by omega, by simp only [List.length_cons]; omega, h3, h4⟩
      · next hw =>
        rcases List.mem_cons.1 hc with rfl | hc
        · simp only [List.length_cons]
          exact ⟨le_refl _, by omega, hb, hw⟩
        · obtain ⟨h1, h2, h3, h4⟩ := ih (base + 1) c hc
          exact ⟨by omega, by simp only [List.length_cons]; omega, h3, h4⟩
    · simp at hc

theorem cellsFrom_rising (base : Nat) (ws : List Word) : (cellsFrom base ws).Pairwise fun a b => a.1 < b.1 := by
  induction ws generalizing base with
  | nil => simp [cellsFrom]
  | cons w ws ih =>
    simp only [cellsFrom]
    split
    · split
      · exact ih _
      · refine List.pairwise_cons.2 ⟨fun c hc => ?_, ih _⟩
        exact Nat.lt_of_succ_le (cellsFrom_bounds _ _ c hc).1
    · exact List.Pairwise.nil

theorem read_cellsFrom (base : Nat) (ws : List Word) (a : Nat) :
    Memory.read (cellsFrom base ws) a
      = if base ≤ a ∧ a < base + ws.length ∧ a < Config.memoryWords then ws.getD (a - base) unlistedWord else unlistedWord := by
  induction ws generalizing base with
  | nil => simp [cellsFrom, Memory.read]
  | cons w ws ih =>
    have key := ih (base + 1)
    have below : a ≤ base → Memory.read (cellsFrom (base + 1) ws) a = unlistedWord := fun h =>
      Memory.read_below _ _ fun c hc => lt_of_le_of_lt h (Nat.lt_of_succ_le (cellsFrom_bounds _ _ c hc).1)
    simp only [cellsFrom]
    by_cases hb : base < Config.memoryWords
    · rw [if_pos hb]
      rcases lt_trichotomy a base with h | rfl | h
      · have hn : ¬(base ≤ a ∧ a < base + (w :: ws).length ∧ a < Config.memoryWords) := by omega
        rw [if_neg hn]
        split
        · exact below (by omega)
        · simp [Memory.read, h]
      · have hp : a ≤ a ∧ a < a + (w :: ws).length ∧ a < Config.memoryWords := by simp [hb]
        rw [if_pos hp]
        split
        · next hw => rw [below (le_refl _)]; simp [hw]
        · simp [Memory.read]
      · have e1 : a - base = (a - (base + 1)) + 1 := by omega
        have e2 : (w :: ws).getD (a - base) unlistedWord = ws.getD (a - (base + 1)) unlistedWord := by
          rw [e1]; simp
        rw [e2]
        have e3 : (base ≤ a ∧ a < base + (w :: ws).length ∧ a < Config.memoryWords)
            ↔ (base + 1 ≤ a ∧ a < base + 1 + ws.length ∧ a < Config.memoryWords) := by
          simp only [List.length_cons]; omega
        simp only [e3]
        split
        · exact key
        · have h1 : ¬a < base := by omega
          have h2 : a ≠ base := by omega
          simp only [Memory.read, if_neg h1, if_neg h2]
          exact key
    · rw [if_neg hb, if_neg (by omega)]
      rfl

theorem mem_takeWhile_below (m : Memory) (b : Nat) : ∀ c ∈ m.takeWhile (fun c => decide (c.1 < b)), c.1 < b := by
  intro c hc
  simpa using List.mem_takeWhile_imp hc

theorem mem_dropWhile_above (m : Memory) (b : Nat) (h : m.Pairwise fun a b => a.1 < b.1) :
    ∀ c ∈ m.dropWhile (fun c => decide (c.1 < b)), b ≤ c.1 := by
  induction m with
  | nil => simp
  | cons d m ih =>
    intro c hc
    rw [List.dropWhile_cons] at hc
    split at hc
    · exact ih (List.pairwise_cons.1 h).2 c hc
    · next hd =>
      simp only [decide_eq_true_eq, not_lt] at hd
      rcases List.mem_cons.1 hc with rfl | hc
      · exact hd
      · exact le_trans hd (le_of_lt ((List.pairwise_cons.1 h).1 c hc))

/-- A write keeps the canonical form. -/
theorem Memory.write_wf (m : Memory) (base : Nat) (ws : List Word) (h : Memory.wf m = true) :
    Memory.wf (Memory.write m base ws) = true := by
  rw [Memory.wf_iff] at h ⊢
  obtain ⟨hr, hc⟩ := h
  have b1 := mem_takeWhile_below m base
  have b2 := cellsFrom_bounds base ws
  have b3 := mem_dropWhile_above m (base + ws.length) hr
  refine ⟨?_, ?_⟩
  · simp only [Memory.write, List.pairwise_append]
    refine ⟨⟨hr.sublist (List.takeWhile_sublist _), cellsFrom_rising _ _, ?_⟩, hr.sublist (List.dropWhile_sublist _), ?_⟩
    · intro a ha b hb
      exact lt_of_lt_of_le (b1 a ha) (b2 b hb).1
    · intro a ha b hb
      have hb := b3 b hb
      rcases List.mem_append.1 ha with ha | ha
      · have := b1 a ha; omega
      · have := b2 a ha; omega
  · intro c hmem
    simp only [Memory.write, List.mem_append] at hmem
    rcases hmem with (hmem | hmem) | hmem
    · exact hc c ((List.takeWhile_sublist _).subset hmem)
    · exact ⟨(b2 c hmem).2.2.1, (b2 c hmem).2.2.2⟩
    · exact hc c ((List.dropWhile_sublist _).subset hmem)

/-- The host's writes keep the canonical form. -/
theorem Memory.hostWrites_wf (m : Memory) (host : List HostWrite) (h : Memory.wf m = true) :
    Memory.wf (Memory.hostWrites m host) = true := by
  induction host generalizing m with
  | nil => exact h
  | cons w host ih => exact ih _ (Memory.write_wf _ _ _ h)

/-- No cell lies past word 65,535. -/
theorem Memory.read_past (m : Memory) (a : Nat) (h : Memory.wf m = true) (ha : Config.memoryWords ≤ a) :
    Memory.read m a = unlistedWord := by
  apply Memory.read_unlisted
  intro c hc
  have := ((Memory.wf_iff m).1 h).2 c hc
  omega

/-- What is read after a write: the written word inside the run, what was read before outside it. -/
theorem Memory.read_write (m : Memory) (base : Nat) (ws : List Word) (a : Nat) (h : Memory.wf m = true) :
    Memory.read (Memory.write m base ws) a
      = if base ≤ a ∧ a < base + ws.length ∧ a < Config.memoryWords then ws.getD (a - base) unlistedWord else Memory.read m a := by
  have hr := ((Memory.wf_iff m).1 h).1
  have b1 := mem_takeWhile_below m base
  have b2 := cellsFrom_bounds base ws
  have b3 := mem_dropWhile_above m (base + ws.length) hr
  have split1 : Memory.read m a = if a < base then Memory.read (m.takeWhile fun c => decide (c.1 < base)) a
      else Memory.read (m.dropWhile fun c => decide (c.1 < base)) a := by
    conv_lhs => rw [← List.takeWhile_append_dropWhile (p := fun c : Cell => decide (c.1 < base)) (l := m)]
    exact Memory.read_append _ _ _ _ b1 (mem_dropWhile_above m base hr)
  have split2 : Memory.read m a = if a < base + ws.length then Memory.read (m.takeWhile fun c => decide (c.1 < base + ws.length)) a
      else Memory.read (m.dropWhile fun c => decide (c.1 < base + ws.length)) a := by
    conv_lhs => rw [← List.takeWhile_append_dropWhile (p := fun c : Cell => decide (c.1 < base + ws.length)) (l := m)]
    exact Memory.read_append _ _ _ _ (mem_takeWhile_below m _) b3
  have b12 : ∀ c ∈ (m.takeWhile fun c => decide (c.1 < base)) ++ cellsFrom base ws, c.1 < base + ws.length := by
    intro c hc
    rcases List.mem_append.1 hc with hc | hc
    · have := b1 c hc; omega
    · exact (b2 c hc).2.1
  rw [Memory.write, Memory.read_append _ _ a (base + ws.length) b12 b3,
    Memory.read_append _ _ a base b1 (fun c hc => (b2 c hc).1), read_cellsFrom]
  by_cases h1 : a < base
  · rw [if_pos (by omega), if_pos h1, if_neg (by omega), split1, if_pos h1]
  · by_cases h2 : a < base + ws.length
    · rw [if_pos h2, if_neg h1]
      by_cases h3 : a < Config.memoryWords
      · rw [if_pos ⟨by omega, h2, h3⟩, if_pos ⟨by omega, h2, h3⟩]
      · rw [if_neg (by omega), if_neg (by omega)]
        exact (Memory.read_past m a h (by omega)).symm
    · rw [if_neg h2, if_neg (by omega), split2, if_neg h2]

/-- A write leaves every word outside its run as it was. -/
theorem Memory.read_write_outside (m : Memory) (base : Nat) (ws : List Word) (a : Nat) (h : Memory.wf m = true)
    (ha : a < base ∨ base + ws.length ≤ a) : Memory.read (Memory.write m base ws) a = Memory.read m a := by
  rw [Memory.read_write m base ws a h, if_neg (by omega)]

/-- Cells put back keep the canonical form. -/
theorem Memory.putBack_wf (inside : Nat → Bool) (cs : List Cell) (k : Nat) (m : Memory) (h : Memory.wf m = true) :
    Memory.wf (Memory.putBack inside cs k m) = true := by
  induction cs generalizing k m with
  | nil => exact h
  | cons c cs ih =>
    cases k with
    | zero => exact h
    | succ k =>
      simp only [Memory.putBack]
      split
      · exact ih k _ (Memory.write_wf _ _ _ h)
      · exact h

/-- What a word reads as after cells are put back: an inside word what it read or what some cell holds, any other what it read. -/
theorem Memory.read_putBack (inside : Nat → Bool) (cs : List Cell) (k : Nat) (m : Memory) (x : Nat) (h : Memory.wf m = true) :
    Memory.read (Memory.putBack inside cs k m) x = Memory.read m x
      ∨ (inside x = true ∧ (x, Memory.read (Memory.putBack inside cs k m) x) ∈ cs) := by
  induction cs generalizing k m with
  | nil => exact .inl rfl
  | cons c cs ih =>
    cases k with
    | zero => exact .inl rfl
    | succ k =>
      simp only [Memory.putBack]
      split
      · next hc =>
        rcases ih k _ (Memory.write_wf m c.1 [c.2] h) with h1 | ⟨h1, h2⟩
        · rw [h1]
          by_cases hx : x = c.1 ∧ x < Config.memoryWords
          · obtain ⟨rfl, hx⟩ := hx
            refine .inr ⟨hc, ?_⟩
            have : Memory.read (Memory.write m c.1 [c.2]) c.1 = c.2 := by
              rw [Memory.read_write _ _ _ _ h]; simp [hx]
            rw [this]; exact List.mem_cons_self
          · refine .inl ?_
            rw [Memory.read_write _ _ _ _ h]
            rw [if_neg (by simp only [List.length_cons, List.length_nil]; omega)]
        · exact .inr ⟨h1, List.mem_cons_of_mem _ h2⟩
      · exact .inl rfl

end Sys2Proof.Machine
end

