-- ==== Sys2Proof/Laws/State.lean ====
section
/-! SUPPORT. One lemma for each field and each update of one record: what the update leaves, and what it writes. -/

namespace Sys2Proof.Machine

/-! ### Ev.updUnit -/

@[simp] theorem Ev.updUnit_curves (e : Ev) (u : UnitNo) (f : UnitRec → UnitRec) : (e.updUnit u f).curves = e.curves := rfl
@[simp] theorem Ev.updUnit_lines (e : Ev) (u : UnitNo) (f : UnitRec → UnitRec) : (e.updUnit u f).lines = e.lines := rfl
@[simp] theorem Ev.updUnit_partGrants (e : Ev) (u : UnitNo) (f : UnitRec → UnitRec) : (e.updUnit u f).partGrants = e.partGrants := rfl
@[simp] theorem Ev.updUnit_pointer (e : Ev) (u : UnitNo) (f : UnitRec → UnitRec) : (e.updUnit u f).pointer = e.pointer := rfl
@[simp] theorem Ev.updUnit_check (e : Ev) (u : UnitNo) (f : UnitRec → UnitRec) : (e.updUnit u f).check = e.check := rfl
@[simp] theorem Ev.updUnit_intake (e : Ev) (u : UnitNo) (f : UnitRec → UnitRec) : (e.updUnit u f).intake = e.intake := rfl
@[simp] theorem Ev.updUnit_timing (e : Ev) (u : UnitNo) (f : UnitRec → UnitRec) : (e.updUnit u f).timing = e.timing := rfl
@[simp] theorem Ev.updUnit_port (e : Ev) (u : UnitNo) (f : UnitRec → UnitRec) : (e.updUnit u f).port = e.port := rfl
@[simp] theorem Ev.updUnit_mem (e : Ev) (u : UnitNo) (f : UnitRec → UnitRec) : (e.updUnit u f).mem = e.mem := rfl
@[simp] theorem Ev.updUnit_scanPulses (e : Ev) (u : UnitNo) (f : UnitRec → UnitRec) : (e.updUnit u f).scanPulses = e.scanPulses := rfl
@[simp] theorem Ev.updUnit_unfinished (e : Ev) (u : UnitNo) (f : UnitRec → UnitRec) : (e.updUnit u f).unfinished = e.unfinished := rfl
@[simp] theorem Ev.updUnit_freeDraws (e : Ev) (u : UnitNo) (f : UnitRec → UnitRec) : (e.updUnit u f).freeDraws = e.freeDraws := rfl
@[simp] theorem Ev.updUnit_pending (e : Ev) (u : UnitNo) (f : UnitRec → UnitRec) : (e.updUnit u f).pending = e.pending := rfl
@[simp] theorem Ev.updUnit_start (e : Ev) (u : UnitNo) (f : UnitRec → UnitRec) : (e.updUnit u f).start = e.start := rfl
@[simp] theorem Ev.updUnit_mirrorDue (e : Ev) (u : UnitNo) (f : UnitRec → UnitRec) : (e.updUnit u f).mirrorDue = e.mirrorDue := rfl
@[simp] theorem Ev.updUnit_testDue (e : Ev) (u : UnitNo) (f : UnitRec → UnitRec) : (e.updUnit u f).testDue = e.testDue := rfl
@[simp] theorem Ev.updUnit_lineDue (e : Ev) (u : UnitNo) (f : UnitRec → UnitRec) : (e.updUnit u f).lineDue = e.lineDue := rfl
@[simp] theorem Ev.updUnit_arbiterDue (e : Ev) (u : UnitNo) (f : UnitRec → UnitRec) : (e.updUnit u f).arbiterDue = e.arbiterDue := rfl
@[simp] theorem Ev.updUnit_raised (e : Ev) (u : UnitNo) (f : UnitRec → UnitRec) : (e.updUnit u f).raised = e.raised := rfl
@[simp] theorem Ev.updUnit_lowered (e : Ev) (u : UnitNo) (f : UnitRec → UnitRec) : (e.updUnit u f).lowered = e.lowered := rfl
@[simp] theorem Ev.updUnit_saturated (e : Ev) (u : UnitNo) (f : UnitRec → UnitRec) : (e.updUnit u f).saturated = e.saturated := rfl

/-! ### Ev.updZone -/

@[simp] theorem Ev.updZone_curves (e : Ev) (u : UnitNo) (z : ZoneNo) (f : Zone → Zone) : (e.updZone u z f).curves = e.curves := rfl
@[simp] theorem Ev.updZone_lines (e : Ev) (u : UnitNo) (z : ZoneNo) (f : Zone → Zone) : (e.updZone u z f).lines = e.lines := rfl
@[simp] theorem Ev.updZone_partGrants (e : Ev) (u : UnitNo) (z : ZoneNo) (f : Zone → Zone) : (e.updZone u z f).partGrants = e.partGrants := rfl
@[simp] theorem Ev.updZone_pointer (e : Ev) (u : UnitNo) (z : ZoneNo) (f : Zone → Zone) : (e.updZone u z f).pointer = e.pointer := rfl
@[simp] theorem Ev.updZone_check (e : Ev) (u : UnitNo) (z : ZoneNo) (f : Zone → Zone) : (e.updZone u z f).check = e.check := rfl
@[simp] theorem Ev.updZone_intake (e : Ev) (u : UnitNo) (z : ZoneNo) (f : Zone → Zone) : (e.updZone u z f).intake = e.intake := rfl
@[simp] theorem Ev.updZone_timing (e : Ev) (u : UnitNo) (z : ZoneNo) (f : Zone → Zone) : (e.updZone u z f).timing = e.timing := rfl
@[simp] theorem Ev.updZone_port (e : Ev) (u : UnitNo) (z : ZoneNo) (f : Zone → Zone) : (e.updZone u z f).port = e.port := rfl
@[simp] theorem Ev.updZone_mem (e : Ev) (u : UnitNo) (z : ZoneNo) (f : Zone → Zone) : (e.updZone u z f).mem = e.mem := rfl
@[simp] theorem Ev.updZone_scanPulses (e : Ev) (u : UnitNo) (z : ZoneNo) (f : Zone → Zone) : (e.updZone u z f).scanPulses = e.scanPulses := rfl
@[simp] theorem Ev.updZone_unfinished (e : Ev) (u : UnitNo) (z : ZoneNo) (f : Zone → Zone) : (e.updZone u z f).unfinished = e.unfinished := rfl
@[simp] theorem Ev.updZone_freeDraws (e : Ev) (u : UnitNo) (z : ZoneNo) (f : Zone → Zone) : (e.updZone u z f).freeDraws = e.freeDraws := rfl
@[simp] theorem Ev.updZone_pending (e : Ev) (u : UnitNo) (z : ZoneNo) (f : Zone → Zone) : (e.updZone u z f).pending = e.pending := rfl
@[simp] theorem Ev.updZone_start (e : Ev) (u : UnitNo) (z : ZoneNo) (f : Zone → Zone) : (e.updZone u z f).start = e.start := rfl
@[simp] theorem Ev.updZone_mirrorDue (e : Ev) (u : UnitNo) (z : ZoneNo) (f : Zone → Zone) : (e.updZone u z f).mirrorDue = e.mirrorDue := rfl
@[simp] theorem Ev.updZone_testDue (e : Ev) (u : UnitNo) (z : ZoneNo) (f : Zone → Zone) : (e.updZone u z f).testDue = e.testDue := rfl
@[simp] theorem Ev.updZone_lineDue (e : Ev) (u : UnitNo) (z : ZoneNo) (f : Zone → Zone) : (e.updZone u z f).lineDue = e.lineDue := rfl
@[simp] theorem Ev.updZone_arbiterDue (e : Ev) (u : UnitNo) (z : ZoneNo) (f : Zone → Zone) : (e.updZone u z f).arbiterDue = e.arbiterDue := rfl
@[simp] theorem Ev.updZone_raised (e : Ev) (u : UnitNo) (z : ZoneNo) (f : Zone → Zone) : (e.updZone u z f).raised = e.raised := rfl
@[simp] theorem Ev.updZone_lowered (e : Ev) (u : UnitNo) (z : ZoneNo) (f : Zone → Zone) : (e.updZone u z f).lowered = e.lowered := rfl
@[simp] theorem Ev.updZone_saturated (e : Ev) (u : UnitNo) (z : ZoneNo) (f : Zone → Zone) : (e.updZone u z f).saturated = e.saturated := rfl

/-! ### Ev.updZones -/

@[simp] theorem Ev.updZones_curves (e : Ev) (u : UnitNo) (f : ZoneNo → Zone → Zone) : (e.updZones u f).curves = e.curves := rfl
@[simp] theorem Ev.updZones_lines (e : Ev) (u : UnitNo) (f : ZoneNo → Zone → Zone) : (e.updZones u f).lines = e.lines := rfl
@[simp] theorem Ev.updZones_partGrants (e : Ev) (u : UnitNo) (f : ZoneNo → Zone → Zone) : (e.updZones u f).partGrants = e.partGrants := rfl
@[simp] theorem Ev.updZones_pointer (e : Ev) (u : UnitNo) (f : ZoneNo → Zone → Zone) : (e.updZones u f).pointer = e.pointer := rfl
@[simp] theorem Ev.updZones_check (e : Ev) (u : UnitNo) (f : ZoneNo → Zone → Zone) : (e.updZones u f).check = e.check := rfl
@[simp] theorem Ev.updZones_intake (e : Ev) (u : UnitNo) (f : ZoneNo → Zone → Zone) : (e.updZones u f).intake = e.intake := rfl
@[simp] theorem Ev.updZones_timing (e : Ev) (u : UnitNo) (f : ZoneNo → Zone → Zone) : (e.updZones u f).timing = e.timing := rfl
@[simp] theorem Ev.updZones_port (e : Ev) (u : UnitNo) (f : ZoneNo → Zone → Zone) : (e.updZones u f).port = e.port := rfl
@[simp] theorem Ev.updZones_mem (e : Ev) (u : UnitNo) (f : ZoneNo → Zone → Zone) : (e.updZones u f).mem = e.mem := rfl
@[simp] theorem Ev.updZones_scanPulses (e : Ev) (u : UnitNo) (f : ZoneNo → Zone → Zone) : (e.updZones u f).scanPulses = e.scanPulses := rfl
@[simp] theorem Ev.updZones_unfinished (e : Ev) (u : UnitNo) (f : ZoneNo → Zone → Zone) : (e.updZones u f).unfinished = e.unfinished := rfl
@[simp] theorem Ev.updZones_freeDraws (e : Ev) (u : UnitNo) (f : ZoneNo → Zone → Zone) : (e.updZones u f).freeDraws = e.freeDraws := rfl
@[simp] theorem Ev.updZones_pending (e : Ev) (u : UnitNo) (f : ZoneNo → Zone → Zone) : (e.updZones u f).pending = e.pending := rfl
@[simp] theorem Ev.updZones_start (e : Ev) (u : UnitNo) (f : ZoneNo → Zone → Zone) : (e.updZones u f).start = e.start := rfl
@[simp] theorem Ev.updZones_mirrorDue (e : Ev) (u : UnitNo) (f : ZoneNo → Zone → Zone) : (e.updZones u f).mirrorDue = e.mirrorDue := rfl
@[simp] theorem Ev.updZones_testDue (e : Ev) (u : UnitNo) (f : ZoneNo → Zone → Zone) : (e.updZones u f).testDue = e.testDue := rfl
@[simp] theorem Ev.updZones_lineDue (e : Ev) (u : UnitNo) (f : ZoneNo → Zone → Zone) : (e.updZones u f).lineDue = e.lineDue := rfl
@[simp] theorem Ev.updZones_arbiterDue (e : Ev) (u : UnitNo) (f : ZoneNo → Zone → Zone) : (e.updZones u f).arbiterDue = e.arbiterDue := rfl
@[simp] theorem Ev.updZones_raised (e : Ev) (u : UnitNo) (f : ZoneNo → Zone → Zone) : (e.updZones u f).raised = e.raised := rfl
@[simp] theorem Ev.updZones_lowered (e : Ev) (u : UnitNo) (f : ZoneNo → Zone → Zone) : (e.updZones u f).lowered = e.lowered := rfl
@[simp] theorem Ev.updZones_saturated (e : Ev) (u : UnitNo) (f : ZoneNo → Zone → Zone) : (e.updZones u f).saturated = e.saturated := rfl

/-! ### Ev.updLine -/

@[simp] theorem Ev.updLine_units (e : Ev) (n : LineNo) (f : Line → Line) : (e.updLine n f).units = e.units := rfl
@[simp] theorem Ev.updLine_curves (e : Ev) (n : LineNo) (f : Line → Line) : (e.updLine n f).curves = e.curves := rfl
@[simp] theorem Ev.updLine_partGrants (e : Ev) (n : LineNo) (f : Line → Line) : (e.updLine n f).partGrants = e.partGrants := rfl
@[simp] theorem Ev.updLine_pointer (e : Ev) (n : LineNo) (f : Line → Line) : (e.updLine n f).pointer = e.pointer := rfl
@[simp] theorem Ev.updLine_check (e : Ev) (n : LineNo) (f : Line → Line) : (e.updLine n f).check = e.check := rfl
@[simp] theorem Ev.updLine_intake (e : Ev) (n : LineNo) (f : Line → Line) : (e.updLine n f).intake = e.intake := rfl
@[simp] theorem Ev.updLine_timing (e : Ev) (n : LineNo) (f : Line → Line) : (e.updLine n f).timing = e.timing := rfl
@[simp] theorem Ev.updLine_port (e : Ev) (n : LineNo) (f : Line → Line) : (e.updLine n f).port = e.port := rfl
@[simp] theorem Ev.updLine_mem (e : Ev) (n : LineNo) (f : Line → Line) : (e.updLine n f).mem = e.mem := rfl
@[simp] theorem Ev.updLine_scanPulses (e : Ev) (n : LineNo) (f : Line → Line) : (e.updLine n f).scanPulses = e.scanPulses := rfl
@[simp] theorem Ev.updLine_unfinished (e : Ev) (n : LineNo) (f : Line → Line) : (e.updLine n f).unfinished = e.unfinished := rfl
@[simp] theorem Ev.updLine_freeDraws (e : Ev) (n : LineNo) (f : Line → Line) : (e.updLine n f).freeDraws = e.freeDraws := rfl
@[simp] theorem Ev.updLine_pending (e : Ev) (n : LineNo) (f : Line → Line) : (e.updLine n f).pending = e.pending := rfl
@[simp] theorem Ev.updLine_start (e : Ev) (n : LineNo) (f : Line → Line) : (e.updLine n f).start = e.start := rfl
@[simp] theorem Ev.updLine_mirrorDue (e : Ev) (n : LineNo) (f : Line → Line) : (e.updLine n f).mirrorDue = e.mirrorDue := rfl
@[simp] theorem Ev.updLine_testDue (e : Ev) (n : LineNo) (f : Line → Line) : (e.updLine n f).testDue = e.testDue := rfl
@[simp] theorem Ev.updLine_lineDue (e : Ev) (n : LineNo) (f : Line → Line) : (e.updLine n f).lineDue = e.lineDue := rfl
@[simp] theorem Ev.updLine_arbiterDue (e : Ev) (n : LineNo) (f : Line → Line) : (e.updLine n f).arbiterDue = e.arbiterDue := rfl
@[simp] theorem Ev.updLine_raised (e : Ev) (n : LineNo) (f : Line → Line) : (e.updLine n f).raised = e.raised := rfl
@[simp] theorem Ev.updLine_lowered (e : Ev) (n : LineNo) (f : Line → Line) : (e.updLine n f).lowered = e.lowered := rfl
@[simp] theorem Ev.updLine_saturated (e : Ev) (n : LineNo) (f : Line → Line) : (e.updLine n f).saturated = e.saturated := rfl

/-! ### Ev.updQueue -/

@[simp] theorem Ev.updQueue_units (e : Ev) (n : LineNo) (f : CommandQueue → CommandQueue) : (e.updQueue n f).units = e.units := rfl
@[simp] theorem Ev.updQueue_curves (e : Ev) (n : LineNo) (f : CommandQueue → CommandQueue) : (e.updQueue n f).curves = e.curves := rfl
@[simp] theorem Ev.updQueue_partGrants (e : Ev) (n : LineNo) (f : CommandQueue → CommandQueue) : (e.updQueue n f).partGrants = e.partGrants := rfl
@[simp] theorem Ev.updQueue_pointer (e : Ev) (n : LineNo) (f : CommandQueue → CommandQueue) : (e.updQueue n f).pointer = e.pointer := rfl
@[simp] theorem Ev.updQueue_check (e : Ev) (n : LineNo) (f : CommandQueue → CommandQueue) : (e.updQueue n f).check = e.check := rfl
@[simp] theorem Ev.updQueue_intake (e : Ev) (n : LineNo) (f : CommandQueue → CommandQueue) : (e.updQueue n f).intake = e.intake := rfl
@[simp] theorem Ev.updQueue_timing (e : Ev) (n : LineNo) (f : CommandQueue → CommandQueue) : (e.updQueue n f).timing = e.timing := rfl
@[simp] theorem Ev.updQueue_port (e : Ev) (n : LineNo) (f : CommandQueue → CommandQueue) : (e.updQueue n f).port = e.port := rfl
@[simp] theorem Ev.updQueue_mem (e : Ev) (n : LineNo) (f : CommandQueue → CommandQueue) : (e.updQueue n f).mem = e.mem := rfl
@[simp] theorem Ev.updQueue_scanPulses (e : Ev) (n : LineNo) (f : CommandQueue → CommandQueue) : (e.updQueue n f).scanPulses = e.scanPulses := rfl
@[simp] theorem Ev.updQueue_unfinished (e : Ev) (n : LineNo) (f : CommandQueue → CommandQueue) : (e.updQueue n f).unfinished = e.unfinished := rfl
@[simp] theorem Ev.updQueue_freeDraws (e : Ev) (n : LineNo) (f : CommandQueue → CommandQueue) : (e.updQueue n f).freeDraws = e.freeDraws := rfl
@[simp] theorem Ev.updQueue_pending (e : Ev) (n : LineNo) (f : CommandQueue → CommandQueue) : (e.updQueue n f).pending = e.pending := rfl
@[simp] theorem Ev.updQueue_start (e : Ev) (n : LineNo) (f : CommandQueue → CommandQueue) : (e.updQueue n f).start = e.start := rfl
@[simp] theorem Ev.updQueue_mirrorDue (e : Ev) (n : LineNo) (f : CommandQueue → CommandQueue) : (e.updQueue n f).mirrorDue = e.mirrorDue := rfl
@[simp] theorem Ev.updQueue_testDue (e : Ev) (n : LineNo) (f : CommandQueue → CommandQueue) : (e.updQueue n f).testDue = e.testDue := rfl
@[simp] theorem Ev.updQueue_lineDue (e : Ev) (n : LineNo) (f : CommandQueue → CommandQueue) : (e.updQueue n f).lineDue = e.lineDue := rfl
@[simp] theorem Ev.updQueue_arbiterDue (e : Ev) (n : LineNo) (f : CommandQueue → CommandQueue) : (e.updQueue n f).arbiterDue = e.arbiterDue := rfl
@[simp] theorem Ev.updQueue_raised (e : Ev) (n : LineNo) (f : CommandQueue → CommandQueue) : (e.updQueue n f).raised = e.raised := rfl
@[simp] theorem Ev.updQueue_lowered (e : Ev) (n : LineNo) (f : CommandQueue → CommandQueue) : (e.updQueue n f).lowered = e.lowered := rfl
@[simp] theorem Ev.updQueue_saturated (e : Ev) (n : LineNo) (f : CommandQueue → CommandQueue) : (e.updQueue n f).saturated = e.saturated := rfl

/-! ### Ev.updFountain -/

@[simp] theorem Ev.updFountain_units (e : Ev) (n : LineNo) (f : Fountain → Fountain) : (e.updFountain n f).units = e.units := rfl
@[simp] theorem Ev.updFountain_curves (e : Ev) (n : LineNo) (f : Fountain → Fountain) : (e.updFountain n f).curves = e.curves := rfl
@[simp] theorem Ev.updFountain_partGrants (e : Ev) (n : LineNo) (f : Fountain → Fountain) : (e.updFountain n f).partGrants = e.partGrants := rfl
@[simp] theorem Ev.updFountain_pointer (e : Ev) (n : LineNo) (f : Fountain → Fountain) : (e.updFountain n f).pointer = e.pointer := rfl
@[simp] theorem Ev.updFountain_check (e : Ev) (n : LineNo) (f : Fountain → Fountain) : (e.updFountain n f).check = e.check := rfl
@[simp] theorem Ev.updFountain_intake (e : Ev) (n : LineNo) (f : Fountain → Fountain) : (e.updFountain n f).intake = e.intake := rfl
@[simp] theorem Ev.updFountain_timing (e : Ev) (n : LineNo) (f : Fountain → Fountain) : (e.updFountain n f).timing = e.timing := rfl
@[simp] theorem Ev.updFountain_port (e : Ev) (n : LineNo) (f : Fountain → Fountain) : (e.updFountain n f).port = e.port := rfl
@[simp] theorem Ev.updFountain_mem (e : Ev) (n : LineNo) (f : Fountain → Fountain) : (e.updFountain n f).mem = e.mem := rfl
@[simp] theorem Ev.updFountain_scanPulses (e : Ev) (n : LineNo) (f : Fountain → Fountain) : (e.updFountain n f).scanPulses = e.scanPulses := rfl
@[simp] theorem Ev.updFountain_unfinished (e : Ev) (n : LineNo) (f : Fountain → Fountain) : (e.updFountain n f).unfinished = e.unfinished := rfl
@[simp] theorem Ev.updFountain_freeDraws (e : Ev) (n : LineNo) (f : Fountain → Fountain) : (e.updFountain n f).freeDraws = e.freeDraws := rfl
@[simp] theorem Ev.updFountain_pending (e : Ev) (n : LineNo) (f : Fountain → Fountain) : (e.updFountain n f).pending = e.pending := rfl
@[simp] theorem Ev.updFountain_start (e : Ev) (n : LineNo) (f : Fountain → Fountain) : (e.updFountain n f).start = e.start := rfl
@[simp] theorem Ev.updFountain_mirrorDue (e : Ev) (n : LineNo) (f : Fountain → Fountain) : (e.updFountain n f).mirrorDue = e.mirrorDue := rfl
@[simp] theorem Ev.updFountain_testDue (e : Ev) (n : LineNo) (f : Fountain → Fountain) : (e.updFountain n f).testDue = e.testDue := rfl
@[simp] theorem Ev.updFountain_lineDue (e : Ev) (n : LineNo) (f : Fountain → Fountain) : (e.updFountain n f).lineDue = e.lineDue := rfl
@[simp] theorem Ev.updFountain_arbiterDue (e : Ev) (n : LineNo) (f : Fountain → Fountain) : (e.updFountain n f).arbiterDue = e.arbiterDue := rfl
@[simp] theorem Ev.updFountain_raised (e : Ev) (n : LineNo) (f : Fountain → Fountain) : (e.updFountain n f).raised = e.raised := rfl
@[simp] theorem Ev.updFountain_lowered (e : Ev) (n : LineNo) (f : Fountain → Fountain) : (e.updFountain n f).lowered = e.lowered := rfl
@[simp] theorem Ev.updFountain_saturated (e : Ev) (n : LineNo) (f : Fountain → Fountain) : (e.updFountain n f).saturated = e.saturated := rfl

/-! ### Ev.updModules -/

@[simp] theorem Ev.updModules_units (e : Ev) (n : LineNo) (f : ModuleRec → ModuleRec) : (e.updModules n f).units = e.units := rfl
@[simp] theorem Ev.updModules_curves (e : Ev) (n : LineNo) (f : ModuleRec → ModuleRec) : (e.updModules n f).curves = e.curves := rfl
@[simp] theorem Ev.updModules_partGrants (e : Ev) (n : LineNo) (f : ModuleRec → ModuleRec) : (e.updModules n f).partGrants = e.partGrants := rfl
@[simp] theorem Ev.updModules_pointer (e : Ev) (n : LineNo) (f : ModuleRec → ModuleRec) : (e.updModules n f).pointer = e.pointer := rfl
@[simp] theorem Ev.updModules_check (e : Ev) (n : LineNo) (f : ModuleRec → ModuleRec) : (e.updModules n f).check = e.check := rfl
@[simp] theorem Ev.updModules_intake (e : Ev) (n : LineNo) (f : ModuleRec → ModuleRec) : (e.updModules n f).intake = e.intake := rfl
@[simp] theorem Ev.updModules_timing (e : Ev) (n : LineNo) (f : ModuleRec → ModuleRec) : (e.updModules n f).timing = e.timing := rfl
@[simp] theorem Ev.updModules_port (e : Ev) (n : LineNo) (f : ModuleRec → ModuleRec) : (e.updModules n f).port = e.port := rfl
@[simp] theorem Ev.updModules_mem (e : Ev) (n : LineNo) (f : ModuleRec → ModuleRec) : (e.updModules n f).mem = e.mem := rfl
@[simp] theorem Ev.updModules_scanPulses (e : Ev) (n : LineNo) (f : ModuleRec → ModuleRec) : (e.updModules n f).scanPulses = e.scanPulses := rfl
@[simp] theorem Ev.updModules_unfinished (e : Ev) (n : LineNo) (f : ModuleRec → ModuleRec) : (e.updModules n f).unfinished = e.unfinished := rfl
@[simp] theorem Ev.updModules_freeDraws (e : Ev) (n : LineNo) (f : ModuleRec → ModuleRec) : (e.updModules n f).freeDraws = e.freeDraws := rfl
@[simp] theorem Ev.updModules_pending (e : Ev) (n : LineNo) (f : ModuleRec → ModuleRec) : (e.updModules n f).pending = e.pending := rfl
@[simp] theorem Ev.updModules_start (e : Ev) (n : LineNo) (f : ModuleRec → ModuleRec) : (e.updModules n f).start = e.start := rfl
@[simp] theorem Ev.updModules_mirrorDue (e : Ev) (n : LineNo) (f : ModuleRec → ModuleRec) : (e.updModules n f).mirrorDue = e.mirrorDue := rfl
@[simp] theorem Ev.updModules_testDue (e : Ev) (n : LineNo) (f : ModuleRec → ModuleRec) : (e.updModules n f).testDue = e.testDue := rfl
@[simp] theorem Ev.updModules_lineDue (e : Ev) (n : LineNo) (f : ModuleRec → ModuleRec) : (e.updModules n f).lineDue = e.lineDue := rfl
@[simp] theorem Ev.updModules_arbiterDue (e : Ev) (n : LineNo) (f : ModuleRec → ModuleRec) : (e.updModules n f).arbiterDue = e.arbiterDue := rfl
@[simp] theorem Ev.updModules_raised (e : Ev) (n : LineNo) (f : ModuleRec → ModuleRec) : (e.updModules n f).raised = e.raised := rfl
@[simp] theorem Ev.updModules_lowered (e : Ev) (n : LineNo) (f : ModuleRec → ModuleRec) : (e.updModules n f).lowered = e.lowered := rfl
@[simp] theorem Ev.updModules_saturated (e : Ev) (n : LineNo) (f : ModuleRec → ModuleRec) : (e.updModules n f).saturated = e.saturated := rfl

/-! ### Ev.updPort -/

@[simp] theorem Ev.updPort_units (e : Ev) (f : Port → Port) : (e.updPort f).units = e.units := rfl
@[simp] theorem Ev.updPort_curves (e : Ev) (f : Port → Port) : (e.updPort f).curves = e.curves := rfl
@[simp] theorem Ev.updPort_lines (e : Ev) (f : Port → Port) : (e.updPort f).lines = e.lines := rfl
@[simp] theorem Ev.updPort_partGrants (e : Ev) (f : Port → Port) : (e.updPort f).partGrants = e.partGrants := rfl
@[simp] theorem Ev.updPort_pointer (e : Ev) (f : Port → Port) : (e.updPort f).pointer = e.pointer := rfl
@[simp] theorem Ev.updPort_check (e : Ev) (f : Port → Port) : (e.updPort f).check = e.check := rfl
@[simp] theorem Ev.updPort_intake (e : Ev) (f : Port → Port) : (e.updPort f).intake = e.intake := rfl
@[simp] theorem Ev.updPort_timing (e : Ev) (f : Port → Port) : (e.updPort f).timing = e.timing := rfl
@[simp] theorem Ev.updPort_mem (e : Ev) (f : Port → Port) : (e.updPort f).mem = e.mem := rfl
@[simp] theorem Ev.updPort_scanPulses (e : Ev) (f : Port → Port) : (e.updPort f).scanPulses = e.scanPulses := rfl
@[simp] theorem Ev.updPort_unfinished (e : Ev) (f : Port → Port) : (e.updPort f).unfinished = e.unfinished := rfl
@[simp] theorem Ev.updPort_freeDraws (e : Ev) (f : Port → Port) : (e.updPort f).freeDraws = e.freeDraws := rfl
@[simp] theorem Ev.updPort_pending (e : Ev) (f : Port → Port) : (e.updPort f).pending = e.pending := rfl
@[simp] theorem Ev.updPort_start (e : Ev) (f : Port → Port) : (e.updPort f).start = e.start := rfl
@[simp] theorem Ev.updPort_mirrorDue (e : Ev) (f : Port → Port) : (e.updPort f).mirrorDue = e.mirrorDue := rfl
@[simp] theorem Ev.updPort_testDue (e : Ev) (f : Port → Port) : (e.updPort f).testDue = e.testDue := rfl
@[simp] theorem Ev.updPort_lineDue (e : Ev) (f : Port → Port) : (e.updPort f).lineDue = e.lineDue := rfl
@[simp] theorem Ev.updPort_arbiterDue (e : Ev) (f : Port → Port) : (e.updPort f).arbiterDue = e.arbiterDue := rfl
@[simp] theorem Ev.updPort_raised (e : Ev) (f : Port → Port) : (e.updPort f).raised = e.raised := rfl
@[simp] theorem Ev.updPort_lowered (e : Ev) (f : Port → Port) : (e.updPort f).lowered = e.lowered := rfl
@[simp] theorem Ev.updPort_saturated (e : Ev) (f : Port → Port) : (e.updPort f).saturated = e.saturated := rfl

/-! ### Ev.updIntake -/

@[simp] theorem Ev.updIntake_units (e : Ev) (f : Intake → Intake) : (e.updIntake f).units = e.units := rfl
@[simp] theorem Ev.updIntake_curves (e : Ev) (f : Intake → Intake) : (e.updIntake f).curves = e.curves := rfl
@[simp] theorem Ev.updIntake_lines (e : Ev) (f : Intake → Intake) : (e.updIntake f).lines = e.lines := rfl
@[simp] theorem Ev.updIntake_partGrants (e : Ev) (f : Intake → Intake) : (e.updIntake f).partGrants = e.partGrants := rfl
@[simp] theorem Ev.updIntake_pointer (e : Ev) (f : Intake → Intake) : (e.updIntake f).pointer = e.pointer := rfl
@[simp] theorem Ev.updIntake_check (e : Ev) (f : Intake → Intake) : (e.updIntake f).check = e.check := rfl
@[simp] theorem Ev.updIntake_timing (e : Ev) (f : Intake → Intake) : (e.updIntake f).timing = e.timing := rfl
@[simp] theorem Ev.updIntake_port (e : Ev) (f : Intake → Intake) : (e.updIntake f).port = e.port := rfl
@[simp] theorem Ev.updIntake_mem (e : Ev) (f : Intake → Intake) : (e.updIntake f).mem = e.mem := rfl
@[simp] theorem Ev.updIntake_scanPulses (e : Ev) (f : Intake → Intake) : (e.updIntake f).scanPulses = e.scanPulses := rfl
@[simp] theorem Ev.updIntake_unfinished (e : Ev) (f : Intake → Intake) : (e.updIntake f).unfinished = e.unfinished := rfl
@[simp] theorem Ev.updIntake_freeDraws (e : Ev) (f : Intake → Intake) : (e.updIntake f).freeDraws = e.freeDraws := rfl
@[simp] theorem Ev.updIntake_pending (e : Ev) (f : Intake → Intake) : (e.updIntake f).pending = e.pending := rfl
@[simp] theorem Ev.updIntake_start (e : Ev) (f : Intake → Intake) : (e.updIntake f).start = e.start := rfl
@[simp] theorem Ev.updIntake_mirrorDue (e : Ev) (f : Intake → Intake) : (e.updIntake f).mirrorDue = e.mirrorDue := rfl
@[simp] theorem Ev.updIntake_testDue (e : Ev) (f : Intake → Intake) : (e.updIntake f).testDue = e.testDue := rfl
@[simp] theorem Ev.updIntake_lineDue (e : Ev) (f : Intake → Intake) : (e.updIntake f).lineDue = e.lineDue := rfl
@[simp] theorem Ev.updIntake_arbiterDue (e : Ev) (f : Intake → Intake) : (e.updIntake f).arbiterDue = e.arbiterDue := rfl
@[simp] theorem Ev.updIntake_raised (e : Ev) (f : Intake → Intake) : (e.updIntake f).raised = e.raised := rfl
@[simp] theorem Ev.updIntake_lowered (e : Ev) (f : Intake → Intake) : (e.updIntake f).lowered = e.lowered := rfl
@[simp] theorem Ev.updIntake_saturated (e : Ev) (f : Intake → Intake) : (e.updIntake f).saturated = e.saturated := rfl

/-! ### Ev.updTiming -/

@[simp] theorem Ev.updTiming_units (e : Ev) (f : Timing → Timing) : (e.updTiming f).units = e.units := rfl
@[simp] theorem Ev.updTiming_curves (e : Ev) (f : Timing → Timing) : (e.updTiming f).curves = e.curves := rfl
@[simp] theorem Ev.updTiming_lines (e : Ev) (f : Timing → Timing) : (e.updTiming f).lines = e.lines := rfl
@[simp] theorem Ev.updTiming_partGrants (e : Ev) (f : Timing → Timing) : (e.updTiming f).partGrants = e.partGrants := rfl
@[simp] theorem Ev.updTiming_pointer (e : Ev) (f : Timing → Timing) : (e.updTiming f).pointer = e.pointer := rfl
@[simp] theorem Ev.updTiming_check (e : Ev) (f : Timing → Timing) : (e.updTiming f).check = e.check := rfl
@[simp] theorem Ev.updTiming_intake (e : Ev) (f : Timing → Timing) : (e.updTiming f).intake = e.intake := rfl
@[simp] theorem Ev.updTiming_port (e : Ev) (f : Timing → Timing) : (e.updTiming f).port = e.port := rfl
@[simp] theorem Ev.updTiming_mem (e : Ev) (f : Timing → Timing) : (e.updTiming f).mem = e.mem := rfl
@[simp] theorem Ev.updTiming_scanPulses (e : Ev) (f : Timing → Timing) : (e.updTiming f).scanPulses = e.scanPulses := rfl
@[simp] theorem Ev.updTiming_unfinished (e : Ev) (f : Timing → Timing) : (e.updTiming f).unfinished = e.unfinished := rfl
@[simp] theorem Ev.updTiming_freeDraws (e : Ev) (f : Timing → Timing) : (e.updTiming f).freeDraws = e.freeDraws := rfl
@[simp] theorem Ev.updTiming_pending (e : Ev) (f : Timing → Timing) : (e.updTiming f).pending = e.pending := rfl
@[simp] theorem Ev.updTiming_start (e : Ev) (f : Timing → Timing) : (e.updTiming f).start = e.start := rfl
@[simp] theorem Ev.updTiming_mirrorDue (e : Ev) (f : Timing → Timing) : (e.updTiming f).mirrorDue = e.mirrorDue := rfl
@[simp] theorem Ev.updTiming_testDue (e : Ev) (f : Timing → Timing) : (e.updTiming f).testDue = e.testDue := rfl
@[simp] theorem Ev.updTiming_lineDue (e : Ev) (f : Timing → Timing) : (e.updTiming f).lineDue = e.lineDue := rfl
@[simp] theorem Ev.updTiming_arbiterDue (e : Ev) (f : Timing → Timing) : (e.updTiming f).arbiterDue = e.arbiterDue := rfl
@[simp] theorem Ev.updTiming_raised (e : Ev) (f : Timing → Timing) : (e.updTiming f).raised = e.raised := rfl
@[simp] theorem Ev.updTiming_lowered (e : Ev) (f : Timing → Timing) : (e.updTiming f).lowered = e.lowered := rfl
@[simp] theorem Ev.updTiming_saturated (e : Ev) (f : Timing → Timing) : (e.updTiming f).saturated = e.saturated := rfl

/-! ### Ev.setCheck -/

@[simp] theorem Ev.setCheck_units (e : Ev) (c : Option CheckRun) : (e.setCheck c).units = e.units := rfl
@[simp] theorem Ev.setCheck_curves (e : Ev) (c : Option CheckRun) : (e.setCheck c).curves = e.curves := rfl
@[simp] theorem Ev.setCheck_lines (e : Ev) (c : Option CheckRun) : (e.setCheck c).lines = e.lines := rfl
@[simp] theorem Ev.setCheck_partGrants (e : Ev) (c : Option CheckRun) : (e.setCheck c).partGrants = e.partGrants := rfl
@[simp] theorem Ev.setCheck_pointer (e : Ev) (c : Option CheckRun) : (e.setCheck c).pointer = e.pointer := rfl
@[simp] theorem Ev.setCheck_intake (e : Ev) (c : Option CheckRun) : (e.setCheck c).intake = e.intake := rfl
@[simp] theorem Ev.setCheck_timing (e : Ev) (c : Option CheckRun) : (e.setCheck c).timing = e.timing := rfl
@[simp] theorem Ev.setCheck_port (e : Ev) (c : Option CheckRun) : (e.setCheck c).port = e.port := rfl
@[simp] theorem Ev.setCheck_mem (e : Ev) (c : Option CheckRun) : (e.setCheck c).mem = e.mem := rfl
@[simp] theorem Ev.setCheck_scanPulses (e : Ev) (c : Option CheckRun) : (e.setCheck c).scanPulses = e.scanPulses := rfl
@[simp] theorem Ev.setCheck_unfinished (e : Ev) (c : Option CheckRun) : (e.setCheck c).unfinished = e.unfinished := rfl
@[simp] theorem Ev.setCheck_freeDraws (e : Ev) (c : Option CheckRun) : (e.setCheck c).freeDraws = e.freeDraws := rfl
@[simp] theorem Ev.setCheck_pending (e : Ev) (c : Option CheckRun) : (e.setCheck c).pending = e.pending := rfl
@[simp] theorem Ev.setCheck_start (e : Ev) (c : Option CheckRun) : (e.setCheck c).start = e.start := rfl
@[simp] theorem Ev.setCheck_mirrorDue (e : Ev) (c : Option CheckRun) : (e.setCheck c).mirrorDue = e.mirrorDue := rfl
@[simp] theorem Ev.setCheck_testDue (e : Ev) (c : Option CheckRun) : (e.setCheck c).testDue = e.testDue := rfl
@[simp] theorem Ev.setCheck_lineDue (e : Ev) (c : Option CheckRun) : (e.setCheck c).lineDue = e.lineDue := rfl
@[simp] theorem Ev.setCheck_arbiterDue (e : Ev) (c : Option CheckRun) : (e.setCheck c).arbiterDue = e.arbiterDue := rfl
@[simp] theorem Ev.setCheck_raised (e : Ev) (c : Option CheckRun) : (e.setCheck c).raised = e.raised := rfl
@[simp] theorem Ev.setCheck_lowered (e : Ev) (c : Option CheckRun) : (e.setCheck c).lowered = e.lowered := rfl
@[simp] theorem Ev.setCheck_saturated (e : Ev) (c : Option CheckRun) : (e.setCheck c).saturated = e.saturated := rfl

/-! ### Ev.writeWords -/

@[simp] theorem Ev.writeWords_units (e : Ev) (b : Nat) (ws : List Word) : (e.writeWords b ws).units = e.units := rfl
@[simp] theorem Ev.writeWords_curves (e : Ev) (b : Nat) (ws : List Word) : (e.writeWords b ws).curves = e.curves := rfl
@[simp] theorem Ev.writeWords_lines (e : Ev) (b : Nat) (ws : List Word) : (e.writeWords b ws).lines = e.lines := rfl
@[simp] theorem Ev.writeWords_partGrants (e : Ev) (b : Nat) (ws : List Word) : (e.writeWords b ws).partGrants = e.partGrants := rfl
@[simp] theorem Ev.writeWords_pointer (e : Ev) (b : Nat) (ws : List Word) : (e.writeWords b ws).pointer = e.pointer := rfl
@[simp] theorem Ev.writeWords_check (e : Ev) (b : Nat) (ws : List Word) : (e.writeWords b ws).check = e.check := rfl
@[simp] theorem Ev.writeWords_intake (e : Ev) (b : Nat) (ws : List Word) : (e.writeWords b ws).intake = e.intake := rfl
@[simp] theorem Ev.writeWords_timing (e : Ev) (b : Nat) (ws : List Word) : (e.writeWords b ws).timing = e.timing := rfl
@[simp] theorem Ev.writeWords_port (e : Ev) (b : Nat) (ws : List Word) : (e.writeWords b ws).port = e.port := rfl
@[simp] theorem Ev.writeWords_scanPulses (e : Ev) (b : Nat) (ws : List Word) : (e.writeWords b ws).scanPulses = e.scanPulses := rfl
@[simp] theorem Ev.writeWords_freeDraws (e : Ev) (b : Nat) (ws : List Word) : (e.writeWords b ws).freeDraws = e.freeDraws := rfl
@[simp] theorem Ev.writeWords_pending (e : Ev) (b : Nat) (ws : List Word) : (e.writeWords b ws).pending = e.pending := rfl
@[simp] theorem Ev.writeWords_start (e : Ev) (b : Nat) (ws : List Word) : (e.writeWords b ws).start = e.start := rfl
@[simp] theorem Ev.writeWords_mirrorDue (e : Ev) (b : Nat) (ws : List Word) : (e.writeWords b ws).mirrorDue = e.mirrorDue := rfl
@[simp] theorem Ev.writeWords_testDue (e : Ev) (b : Nat) (ws : List Word) : (e.writeWords b ws).testDue = e.testDue := rfl
@[simp] theorem Ev.writeWords_lineDue (e : Ev) (b : Nat) (ws : List Word) : (e.writeWords b ws).lineDue = e.lineDue := rfl
@[simp] theorem Ev.writeWords_arbiterDue (e : Ev) (b : Nat) (ws : List Word) : (e.writeWords b ws).arbiterDue = e.arbiterDue := rfl
@[simp] theorem Ev.writeWords_raised (e : Ev) (b : Nat) (ws : List Word) : (e.writeWords b ws).raised = e.raised := rfl
@[simp] theorem Ev.writeWords_lowered (e : Ev) (b : Nat) (ws : List Word) : (e.writeWords b ws).lowered = e.lowered := rfl
@[simp] theorem Ev.writeWords_saturated (e : Ev) (b : Nat) (ws : List Word) : (e.writeWords b ws).saturated = e.saturated := rfl

/-! ### Ev.hostWrites -/

@[simp] theorem Ev.hostWrites_units (e : Ev) (host : List HostWrite) : (e.hostWrites host).units = e.units := rfl
@[simp] theorem Ev.hostWrites_curves (e : Ev) (host : List HostWrite) : (e.hostWrites host).curves = e.curves := rfl
@[simp] theorem Ev.hostWrites_lines (e : Ev) (host : List HostWrite) : (e.hostWrites host).lines = e.lines := rfl
@[simp] theorem Ev.hostWrites_partGrants (e : Ev) (host : List HostWrite) : (e.hostWrites host).partGrants = e.partGrants := rfl
@[simp] theorem Ev.hostWrites_pointer (e : Ev) (host : List HostWrite) : (e.hostWrites host).pointer = e.pointer := rfl
@[simp] theorem Ev.hostWrites_check (e : Ev) (host : List HostWrite) : (e.hostWrites host).check = e.check := rfl
@[simp] theorem Ev.hostWrites_intake (e : Ev) (host : List HostWrite) : (e.hostWrites host).intake = e.intake := rfl
@[simp] theorem Ev.hostWrites_timing (e : Ev) (host : List HostWrite) : (e.hostWrites host).timing = e.timing := rfl
@[simp] theorem Ev.hostWrites_port (e : Ev) (host : List HostWrite) : (e.hostWrites host).port = e.port := rfl
@[simp] theorem Ev.hostWrites_scanPulses (e : Ev) (host : List HostWrite) : (e.hostWrites host).scanPulses = e.scanPulses := rfl
@[simp] theorem Ev.hostWrites_unfinished (e : Ev) (host : List HostWrite) : (e.hostWrites host).unfinished = e.unfinished := rfl
@[simp] theorem Ev.hostWrites_freeDraws (e : Ev) (host : List HostWrite) : (e.hostWrites host).freeDraws = e.freeDraws := rfl
@[simp] theorem Ev.hostWrites_pending (e : Ev) (host : List HostWrite) : (e.hostWrites host).pending = e.pending := rfl
@[simp] theorem Ev.hostWrites_start (e : Ev) (host : List HostWrite) : (e.hostWrites host).start = e.start := rfl
@[simp] theorem Ev.hostWrites_mirrorDue (e : Ev) (host : List HostWrite) : (e.hostWrites host).mirrorDue = e.mirrorDue := rfl
@[simp] theorem Ev.hostWrites_testDue (e : Ev) (host : List HostWrite) : (e.hostWrites host).testDue = e.testDue := rfl
@[simp] theorem Ev.hostWrites_lineDue (e : Ev) (host : List HostWrite) : (e.hostWrites host).lineDue = e.lineDue := rfl
@[simp] theorem Ev.hostWrites_arbiterDue (e : Ev) (host : List HostWrite) : (e.hostWrites host).arbiterDue = e.arbiterDue := rfl
@[simp] theorem Ev.hostWrites_raised (e : Ev) (host : List HostWrite) : (e.hostWrites host).raised = e.raised := rfl
@[simp] theorem Ev.hostWrites_lowered (e : Ev) (host : List HostWrite) : (e.hostWrites host).lowered = e.lowered := rfl
@[simp] theorem Ev.hostWrites_saturated (e : Ev) (host : List HostWrite) : (e.hostWrites host).saturated = e.saturated := rfl

/-! ### Ev.raise -/

@[simp] theorem Ev.raise_units (e : Ev) (n : Notice) : (e.raise n).units = e.units := rfl
@[simp] theorem Ev.raise_curves (e : Ev) (n : Notice) : (e.raise n).curves = e.curves := rfl
@[simp] theorem Ev.raise_lines (e : Ev) (n : Notice) : (e.raise n).lines = e.lines := rfl
@[simp] theorem Ev.raise_partGrants (e : Ev) (n : Notice) : (e.raise n).partGrants = e.partGrants := rfl
@[simp] theorem Ev.raise_pointer (e : Ev) (n : Notice) : (e.raise n).pointer = e.pointer := rfl
@[simp] theorem Ev.raise_check (e : Ev) (n : Notice) : (e.raise n).check = e.check := rfl
@[simp] theorem Ev.raise_intake (e : Ev) (n : Notice) : (e.raise n).intake = e.intake := rfl
@[simp] theorem Ev.raise_timing (e : Ev) (n : Notice) : (e.raise n).timing = e.timing := rfl
@[simp] theorem Ev.raise_mem (e : Ev) (n : Notice) : (e.raise n).mem = e.mem := rfl
@[simp] theorem Ev.raise_scanPulses (e : Ev) (n : Notice) : (e.raise n).scanPulses = e.scanPulses := rfl
@[simp] theorem Ev.raise_unfinished (e : Ev) (n : Notice) : (e.raise n).unfinished = e.unfinished := rfl
@[simp] theorem Ev.raise_freeDraws (e : Ev) (n : Notice) : (e.raise n).freeDraws = e.freeDraws := rfl
@[simp] theorem Ev.raise_pending (e : Ev) (n : Notice) : (e.raise n).pending = e.pending := rfl
@[simp] theorem Ev.raise_start (e : Ev) (n : Notice) : (e.raise n).start = e.start := rfl
@[simp] theorem Ev.raise_mirrorDue (e : Ev) (n : Notice) : (e.raise n).mirrorDue = e.mirrorDue := rfl
@[simp] theorem Ev.raise_testDue (e : Ev) (n : Notice) : (e.raise n).testDue = e.testDue := rfl
@[simp] theorem Ev.raise_lineDue (e : Ev) (n : Notice) : (e.raise n).lineDue = e.lineDue := rfl
@[simp] theorem Ev.raise_arbiterDue (e : Ev) (n : Notice) : (e.raise n).arbiterDue = e.arbiterDue := rfl
@[simp] theorem Ev.raise_raised (e : Ev) (n : Notice) : (e.raise n).raised = e.raised := rfl
@[simp] theorem Ev.raise_lowered (e : Ev) (n : Notice) : (e.raise n).lowered = e.lowered := rfl
@[simp] theorem Ev.raise_saturated (e : Ev) (n : Notice) : (e.raise n).saturated = e.saturated := rfl

/-! ### Ev.oweMirror -/

@[simp] theorem Ev.oweMirror_units (e : Ev) (u : UnitNo) : (e.oweMirror u).units = e.units := rfl
@[simp] theorem Ev.oweMirror_curves (e : Ev) (u : UnitNo) : (e.oweMirror u).curves = e.curves := rfl
@[simp] theorem Ev.oweMirror_lines (e : Ev) (u : UnitNo) : (e.oweMirror u).lines = e.lines := rfl
@[simp] theorem Ev.oweMirror_partGrants (e : Ev) (u : UnitNo) : (e.oweMirror u).partGrants = e.partGrants := rfl
@[simp] theorem Ev.oweMirror_pointer (e : Ev) (u : UnitNo) : (e.oweMirror u).pointer = e.pointer := rfl
@[simp] theorem Ev.oweMirror_check (e : Ev) (u : UnitNo) : (e.oweMirror u).check = e.check := rfl
@[simp] theorem Ev.oweMirror_intake (e : Ev) (u : UnitNo) : (e.oweMirror u).intake = e.intake := rfl
@[simp] theorem Ev.oweMirror_timing (e : Ev) (u : UnitNo) : (e.oweMirror u).timing = e.timing := rfl
@[simp] theorem Ev.oweMirror_port (e : Ev) (u : UnitNo) : (e.oweMirror u).port = e.port := rfl
@[simp] theorem Ev.oweMirror_mem (e : Ev) (u : UnitNo) : (e.oweMirror u).mem = e.mem := rfl
@[simp] theorem Ev.oweMirror_scanPulses (e : Ev) (u : UnitNo) : (e.oweMirror u).scanPulses = e.scanPulses := rfl
@[simp] theorem Ev.oweMirror_unfinished (e : Ev) (u : UnitNo) : (e.oweMirror u).unfinished = e.unfinished := rfl
@[simp] theorem Ev.oweMirror_freeDraws (e : Ev) (u : UnitNo) : (e.oweMirror u).freeDraws = e.freeDraws := rfl
@[simp] theorem Ev.oweMirror_pending (e : Ev) (u : UnitNo) : (e.oweMirror u).pending = e.pending := rfl
@[simp] theorem Ev.oweMirror_start (e : Ev) (u : UnitNo) : (e.oweMirror u).start = e.start := rfl
@[simp] theorem Ev.oweMirror_testDue (e : Ev) (u : UnitNo) : (e.oweMirror u).testDue = e.testDue := rfl
@[simp] theorem Ev.oweMirror_lineDue (e : Ev) (u : UnitNo) : (e.oweMirror u).lineDue = e.lineDue := rfl
@[simp] theorem Ev.oweMirror_arbiterDue (e : Ev) (u : UnitNo) : (e.oweMirror u).arbiterDue = e.arbiterDue := rfl
@[simp] theorem Ev.oweMirror_raised (e : Ev) (u : UnitNo) : (e.oweMirror u).raised = e.raised := rfl
@[simp] theorem Ev.oweMirror_lowered (e : Ev) (u : UnitNo) : (e.oweMirror u).lowered = e.lowered := rfl
@[simp] theorem Ev.oweMirror_saturated (e : Ev) (u : UnitNo) : (e.oweMirror u).saturated = e.saturated := rfl

/-! ### Ev.oweTest -/

@[simp] theorem Ev.oweTest_units (e : Ev) (u : UnitNo) : (e.oweTest u).units = e.units := rfl
@[simp] theorem Ev.oweTest_curves (e : Ev) (u : UnitNo) : (e.oweTest u).curves = e.curves := rfl
@[simp] theorem Ev.oweTest_lines (e : Ev) (u : UnitNo) : (e.oweTest u).lines = e.lines := rfl
@[simp] theorem Ev.oweTest_partGrants (e : Ev) (u : UnitNo) : (e.oweTest u).partGrants = e.partGrants := rfl
@[simp] theorem Ev.oweTest_pointer (e : Ev) (u : UnitNo) : (e.oweTest u).pointer = e.pointer := rfl
@[simp] theorem Ev.oweTest_check (e : Ev) (u : UnitNo) : (e.oweTest u).check = e.check := rfl
@[simp] theorem Ev.oweTest_intake (e : Ev) (u : UnitNo) : (e.oweTest u).intake = e.intake := rfl
@[simp] theorem Ev.oweTest_timing (e : Ev) (u : UnitNo) : (e.oweTest u).timing = e.timing := rfl
@[simp] theorem Ev.oweTest_port (e : Ev) (u : UnitNo) : (e.oweTest u).port = e.port := rfl
@[simp] theorem Ev.oweTest_mem (e : Ev) (u : UnitNo) : (e.oweTest u).mem = e.mem := rfl
@[simp] theorem Ev.oweTest_scanPulses (e : Ev) (u : UnitNo) : (e.oweTest u).scanPulses = e.scanPulses := rfl
@[simp] theorem Ev.oweTest_unfinished (e : Ev) (u : UnitNo) : (e.oweTest u).unfinished = e.unfinished := rfl
@[simp] theorem Ev.oweTest_freeDraws (e : Ev) (u : UnitNo) : (e.oweTest u).freeDraws = e.freeDraws := rfl
@[simp] theorem Ev.oweTest_pending (e : Ev) (u : UnitNo) : (e.oweTest u).pending = e.pending := rfl
@[simp] theorem Ev.oweTest_start (e : Ev) (u : UnitNo) : (e.oweTest u).start = e.start := rfl
@[simp] theorem Ev.oweTest_mirrorDue (e : Ev) (u : UnitNo) : (e.oweTest u).mirrorDue = e.mirrorDue := rfl
@[simp] theorem Ev.oweTest_lineDue (e : Ev) (u : UnitNo) : (e.oweTest u).lineDue = e.lineDue := rfl
@[simp] theorem Ev.oweTest_arbiterDue (e : Ev) (u : UnitNo) : (e.oweTest u).arbiterDue = e.arbiterDue := rfl
@[simp] theorem Ev.oweTest_raised (e : Ev) (u : UnitNo) : (e.oweTest u).raised = e.raised := rfl
@[simp] theorem Ev.oweTest_lowered (e : Ev) (u : UnitNo) : (e.oweTest u).lowered = e.lowered := rfl
@[simp] theorem Ev.oweTest_saturated (e : Ev) (u : UnitNo) : (e.oweTest u).saturated = e.saturated := rfl

/-! ### Ev.oweLine -/

@[simp] theorem Ev.oweLine_units (e : Ev) (n : LineNo) : (e.oweLine n).units = e.units := rfl
@[simp] theorem Ev.oweLine_curves (e : Ev) (n : LineNo) : (e.oweLine n).curves = e.curves := rfl
@[simp] theorem Ev.oweLine_lines (e : Ev) (n : LineNo) : (e.oweLine n).lines = e.lines := rfl
@[simp] theorem Ev.oweLine_partGrants (e : Ev) (n : LineNo) : (e.oweLine n).partGrants = e.partGrants := rfl
@[simp] theorem Ev.oweLine_pointer (e : Ev) (n : LineNo) : (e.oweLine n).pointer = e.pointer := rfl
@[simp] theorem Ev.oweLine_check (e : Ev) (n : LineNo) : (e.oweLine n).check = e.check := rfl
@[simp] theorem Ev.oweLine_intake (e : Ev) (n : LineNo) : (e.oweLine n).intake = e.intake := rfl
@[simp] theorem Ev.oweLine_timing (e : Ev) (n : LineNo) : (e.oweLine n).timing = e.timing := rfl
@[simp] theorem Ev.oweLine_port (e : Ev) (n : LineNo) : (e.oweLine n).port = e.port := rfl
@[simp] theorem Ev.oweLine_mem (e : Ev) (n : LineNo) : (e.oweLine n).mem = e.mem := rfl
@[simp] theorem Ev.oweLine_scanPulses (e : Ev) (n : LineNo) : (e.oweLine n).scanPulses = e.scanPulses := rfl
@[simp] theorem Ev.oweLine_unfinished (e : Ev) (n : LineNo) : (e.oweLine n).unfinished = e.unfinished := rfl
@[simp] theorem Ev.oweLine_freeDraws (e : Ev) (n : LineNo) : (e.oweLine n).freeDraws = e.freeDraws := rfl
@[simp] theorem Ev.oweLine_pending (e : Ev) (n : LineNo) : (e.oweLine n).pending = e.pending := rfl
@[simp] theorem Ev.oweLine_start (e : Ev) (n : LineNo) : (e.oweLine n).start = e.start := rfl
@[simp] theorem Ev.oweLine_mirrorDue (e : Ev) (n : LineNo) : (e.oweLine n).mirrorDue = e.mirrorDue := rfl
@[simp] theorem Ev.oweLine_testDue (e : Ev) (n : LineNo) : (e.oweLine n).testDue = e.testDue := rfl
@[simp] theorem Ev.oweLine_arbiterDue (e : Ev) (n : LineNo) : (e.oweLine n).arbiterDue = e.arbiterDue := rfl
@[simp] theorem Ev.oweLine_raised (e : Ev) (n : LineNo) : (e.oweLine n).raised = e.raised := rfl
@[simp] theorem Ev.oweLine_lowered (e : Ev) (n : LineNo) : (e.oweLine n).lowered = e.lowered := rfl
@[simp] theorem Ev.oweLine_saturated (e : Ev) (n : LineNo) : (e.oweLine n).saturated = e.saturated := rfl

/-! ### Ev.oweArbiter -/

@[simp] theorem Ev.oweArbiter_units (e : Ev) : e.oweArbiter.units = e.units := rfl
@[simp] theorem Ev.oweArbiter_curves (e : Ev) : e.oweArbiter.curves = e.curves := rfl
@[simp] theorem Ev.oweArbiter_lines (e : Ev) : e.oweArbiter.lines = e.lines := rfl
@[simp] theorem Ev.oweArbiter_partGrants (e : Ev) : e.oweArbiter.partGrants = e.partGrants := rfl
@[simp] theorem Ev.oweArbiter_pointer (e : Ev) : e.oweArbiter.pointer = e.pointer := rfl
@[simp] theorem Ev.oweArbiter_check (e : Ev) : e.oweArbiter.check = e.check := rfl
@[simp] theorem Ev.oweArbiter_intake (e : Ev) : e.oweArbiter.intake = e.intake := rfl
@[simp] theorem Ev.oweArbiter_timing (e : Ev) : e.oweArbiter.timing = e.timing := rfl
@[simp] theorem Ev.oweArbiter_port (e : Ev) : e.oweArbiter.port = e.port := rfl
@[simp] theorem Ev.oweArbiter_mem (e : Ev) : e.oweArbiter.mem = e.mem := rfl
@[simp] theorem Ev.oweArbiter_scanPulses (e : Ev) : e.oweArbiter.scanPulses = e.scanPulses := rfl
@[simp] theorem Ev.oweArbiter_unfinished (e : Ev) : e.oweArbiter.unfinished = e.unfinished := rfl
@[simp] theorem Ev.oweArbiter_freeDraws (e : Ev) : e.oweArbiter.freeDraws = e.freeDraws := rfl
@[simp] theorem Ev.oweArbiter_pending (e : Ev) : e.oweArbiter.pending = e.pending := rfl
@[simp] theorem Ev.oweArbiter_start (e : Ev) : e.oweArbiter.start = e.start := rfl
@[simp] theorem Ev.oweArbiter_mirrorDue (e : Ev) : e.oweArbiter.mirrorDue = e.mirrorDue := rfl
@[simp] theorem Ev.oweArbiter_testDue (e : Ev) : e.oweArbiter.testDue = e.testDue := rfl
@[simp] theorem Ev.oweArbiter_lineDue (e : Ev) : e.oweArbiter.lineDue = e.lineDue := rfl
@[simp] theorem Ev.oweArbiter_raised (e : Ev) : e.oweArbiter.raised = e.raised := rfl
@[simp] theorem Ev.oweArbiter_lowered (e : Ev) : e.oweArbiter.lowered = e.lowered := rfl
@[simp] theorem Ev.oweArbiter_saturated (e : Ev) : e.oweArbiter.saturated = e.saturated := rfl

/-! ### State.writesDone -/

@[simp] theorem State.writesDone_units (s : State) : s.writesDone.units = s.units := rfl
@[simp] theorem State.writesDone_curves (s : State) : s.writesDone.curves = s.curves := rfl
@[simp] theorem State.writesDone_lines (s : State) : s.writesDone.lines = s.lines := rfl
@[simp] theorem State.writesDone_partGrants (s : State) : s.writesDone.partGrants = s.partGrants := rfl
@[simp] theorem State.writesDone_pointer (s : State) : s.writesDone.pointer = s.pointer := rfl
@[simp] theorem State.writesDone_check (s : State) : s.writesDone.check = s.check := rfl
@[simp] theorem State.writesDone_intake (s : State) : s.writesDone.intake = s.intake := rfl
@[simp] theorem State.writesDone_timing (s : State) : s.writesDone.timing = s.timing := rfl
@[simp] theorem State.writesDone_port (s : State) : s.writesDone.port = s.port := rfl
@[simp] theorem State.writesDone_mem (s : State) : s.writesDone.mem = s.mem := rfl
@[simp] theorem State.writesDone_scanPulses (s : State) : s.writesDone.scanPulses = s.scanPulses := rfl
@[simp] theorem State.writesDone_freeDraws (s : State) : s.writesDone.freeDraws = s.freeDraws := rfl
@[simp] theorem State.writesDone_pending (s : State) : s.writesDone.pending = s.pending := rfl
@[simp] theorem State.writesDone_unfinished (s : State) : s.writesDone.unfinished = [] := rfl

/-! ### What the updates write -/

@[simp] theorem Ev.updPort_port (e : Ev) (f : Port → Port) : (e.updPort f).port = f e.port := rfl
@[simp] theorem Ev.updIntake_intake (e : Ev) (f : Intake → Intake) : (e.updIntake f).intake = f e.intake := rfl
@[simp] theorem Ev.updTiming_timing (e : Ev) (f : Timing → Timing) : (e.updTiming f).timing = f e.timing := rfl
@[simp] theorem Ev.setCheck_check (e : Ev) (c : Option CheckRun) : (e.setCheck c).check = c := rfl
@[simp] theorem Ev.writeWords_mem (e : Ev) (b : Nat) (ws : List Word) : (e.writeWords b ws).mem = Memory.write e.mem b ws := rfl
@[simp] theorem Ev.writeWords_unfinished (e : Ev) (b : Nat) (ws : List Word) :
    (e.writeWords b ws).unfinished = Memory.standing e.mem b ws.length ++ e.unfinished := rfl
@[simp] theorem Ev.hostWrites_mem (e : Ev) (host : List HostWrite) : (e.hostWrites host).mem = Memory.hostWrites e.mem host := rfl
@[simp] theorem Ev.raise_port (e : Ev) (n : Notice) : (e.raise n).port = e.port.raise n := rfl

/-- Unit v's record after an update of unit u's. -/
theorem Ev.updUnit_unit (e : Ev) (u v : UnitNo) (f : UnitRec → UnitRec) :
    (e.updUnit u f).unit v = if u = v then f (e.unit v) else e.unit v := by
  rcases eq_or_ne u v with rfl | h
  · simp [State.unit, Ev.updUnit]
  · have h' : u.val ≠ v.val := fun k => h (Fin.ext k)
    simp [State.unit, Ev.updUnit, h, h']

@[simp] theorem Ev.updUnit_unit_self (e : Ev) (u : UnitNo) (f : UnitRec → UnitRec) : (e.updUnit u f).unit u = f (e.unit u) := by
  simp [Ev.updUnit_unit]

/-- Line m's record after an update of line n's. -/
theorem Ev.updLine_line (e : Ev) (n m : LineNo) (f : Line → Line) :
    (e.updLine n f).line m = if n = m then f (e.line m) else e.line m := by
  rcases eq_or_ne n m with rfl | h
  · simp [State.line, Ev.updLine]
  · have h' : n.val ≠ m.val := fun k => h (Fin.ext k)
    simp [State.line, Ev.updLine, h, h']

@[simp] theorem Ev.updLine_line_self (e : Ev) (n : LineNo) (f : Line → Line) : (e.updLine n f).line n = f (e.line n) := by
  simp [Ev.updLine_line]

@[simp] theorem Ev.updLine_unit (e : Ev) (n : LineNo) (f : Line → Line) (u : UnitNo) : (e.updLine n f).unit u = e.unit u := rfl
@[simp] theorem Ev.updUnit_line (e : Ev) (u : UnitNo) (f : UnitRec → UnitRec) (n : LineNo) : (e.updUnit u f).line n = e.line n := rfl
@[simp] theorem Ev.updPort_unit (e : Ev) (f : Port → Port) (u : UnitNo) : (e.updPort f).unit u = e.unit u := rfl
@[simp] theorem Ev.updPort_line (e : Ev) (f : Port → Port) (n : LineNo) : (e.updPort f).line n = e.line n := rfl

/-- Zone y of unit v after an update of zone z of unit u. -/
theorem Ev.updZone_zone (e : Ev) (u v : UnitNo) (z y : ZoneNo) (f : Zone → Zone) :
    (e.updZone u z f).zone v y = if u = v ∧ z = y then f (e.zone v y) else e.zone v y := by
  have h : (e.updZone u z f).zone v y = ((e.updZone u z f).unit v).zones[y] := rfl
  have h0 : e.zone v y = (e.unit v).zones[y] := rfl
  rw [h, h0, Ev.updZone, Ev.updUnit_unit]
  rcases eq_or_ne u v with rfl | k
  · rcases eq_or_ne z y with rfl | k
    · simp
    · have k' : z.val ≠ y.val := fun j => k (Fin.ext j)
      simp [k, k']
  · simp [k]

@[simp] theorem Ev.updZone_zone_self (e : Ev) (u : UnitNo) (z : ZoneNo) (f : Zone → Zone) :
    (e.updZone u z f).zone u z = f (e.zone u z) := by simp [Ev.updZone_zone]

/-- Zone y of unit v after an update of every zone of unit u. -/
theorem Ev.updZones_zone (e : Ev) (u v : UnitNo) (y : ZoneNo) (f : ZoneNo → Zone → Zone) :
    (e.updZones u f).zone v y = if u = v then f y (e.zone v y) else e.zone v y := by
  have h : (e.updZones u f).zone v y = ((e.updZones u f).unit v).zones[y] := rfl
  have h0 : e.zone v y = (e.unit v).zones[y] := rfl
  rw [h, h0, Ev.updZones, Ev.updUnit_unit]
  split
  · next h => subst h; simp
  · rfl

end Sys2Proof.Machine
end

