-- ==== Sys2Proof/Laws/Stable.lean ====
section
/-! SUPPORT. What the shared operations cannot disturb. A property of states is `Stable` when it survives any change of the unit
records, of the lines, of the scheduler's counts, and of the exchange port but for its part state and anchor copy, and any write
the part makes while it is ATTACHED. Every shared operation keeps every stable property. -/

namespace Sys2Proof.Machine

/-- A property that the shared operations cannot disturb. -/
structure Stable (P : State → Prop) : Prop where
  units : ∀ s x, P s → P { s with units := x }
  lines : ∀ s x, P s → P { s with lines := x }
  partGrants : ∀ s x, P s → P { s with partGrants := x }
  pointer : ∀ s x, P s → P { s with pointer := x }
  freeDraws : ∀ s x, P s → P { s with freeDraws := x }
  unfinished : ∀ s x, P s → P { s with unfinished := x }
  port : ∀ s (x : Port), P s → x.state = s.port.state → x.anchor = s.port.anchor → P { s with port := x }
  words : ∀ s b ws, P s → s.attached = true → P { s with mem := Memory.write s.mem b ws }

/-- The event's state has a property. -/
def Ev.Has (P : State → Prop) (e : Ev) : Prop := P e.toState

variable {P : State → Prop} {e : Ev}

theorem Ev.Has.congr {e' : Ev} (h : e.Has P) (k : e'.toState = e.toState) : e'.Has P := by
  unfold Ev.Has at *; rw [k]; exact h

/-- With a stable property, being ATTACHED with the same anchor copy is stable. -/
theorem Stable.withPort (hP : Stable P) (p : Port) : Stable fun s => P s ∧ s.port.state = p.state ∧ s.port.anchor = p.anchor where
  units s x h := ⟨hP.units s x h.1, h.2⟩
  lines s x h := ⟨hP.lines s x h.1, h.2⟩
  partGrants s x h := ⟨hP.partGrants s x h.1, h.2⟩
  pointer s x h := ⟨hP.pointer s x h.1, h.2⟩
  freeDraws s x h := ⟨hP.freeDraws s x h.1, h.2⟩
  unfinished s x h := ⟨hP.unfinished s x h.1, h.2⟩
  port s x h h1 h2 := ⟨hP.port s x h.1 h1 h2, h1.trans h.2.1, h2.trans h.2.2⟩
  words s b ws h ha := ⟨hP.words s b ws h.1 ha, h.2⟩

theorem stable_true : Stable fun _ => True where
  units _ _ h := h
  lines _ _ h := h
  partGrants _ _ h := h
  pointer _ _ h := h
  freeDraws _ _ h := h
  unfinished _ _ h := h
  port _ _ h _ _ := h
  words _ _ _ h _ := h

/-! ### The updates of one record -/

@[simp] theorem Ev.has_updUnit (hP : Stable P) (h : e.Has P) (u : UnitNo) (f : UnitRec → UnitRec) : (e.updUnit u f).Has P :=
  hP.units _ _ h

@[simp] theorem Ev.has_updZone (hP : Stable P) (h : e.Has P) (u : UnitNo) (z : ZoneNo) (f : Zone → Zone) :
    (e.updZone u z f).Has P := hP.units _ _ h

@[simp] theorem Ev.has_updZones (hP : Stable P) (h : e.Has P) (u : UnitNo) (f : ZoneNo → Zone → Zone) :
    (e.updZones u f).Has P := hP.units _ _ h

@[simp] theorem Ev.has_updLine (hP : Stable P) (h : e.Has P) (n : LineNo) (f : Line → Line) : (e.updLine n f).Has P :=
  hP.lines _ _ h

@[simp] theorem Ev.has_updQueue (hP : Stable P) (h : e.Has P) (n : LineNo) (f : CommandQueue → CommandQueue) :
    (e.updQueue n f).Has P := hP.lines _ _ h

@[simp] theorem Ev.has_updFountain (hP : Stable P) (h : e.Has P) (n : LineNo) (f : Fountain → Fountain) :
    (e.updFountain n f).Has P := hP.lines _ _ h

@[simp] theorem Ev.has_updModules (hP : Stable P) (h : e.Has P) (n : LineNo) (f : ModuleRec → ModuleRec) :
    (e.updModules n f).Has P := hP.lines _ _ h

theorem Ev.has_updPort (hP : Stable P) (h : e.Has P) (f : Port → Port) (h1 : (f e.port).state = e.port.state)
    (h2 : (f e.port).anchor = e.port.anchor) : (e.updPort f).Has P := hP.port _ _ h h1 h2

@[simp] theorem Ev.has_raise (hP : Stable P) (h : e.Has P) (n : Notice) : (e.raise n).Has P := hP.port _ _ h rfl rfl

@[simp] theorem Ev.has_oweMirror (h : e.Has P) (u : UnitNo) : (e.oweMirror u).Has P := h
@[simp] theorem Ev.has_oweTest (h : e.Has P) (u : UnitNo) : (e.oweTest u).Has P := h
@[simp] theorem Ev.has_oweLine (h : e.Has P) (n : LineNo) : (e.oweLine n).Has P := h
@[simp] theorem Ev.has_oweArbiter (h : e.Has P) : e.oweArbiter.Has P := h

theorem Ev.has_writeWords (hP : Stable P) (h : e.Has P) (ha : e.attached = true) (b : Nat) (ws : List Word) :
    (e.writeWords b ws).Has P := hP.unfinished _ _ (hP.words _ _ _ h ha)

/-- A fold of an operation that keeps a property keeps it. -/
theorem Ev.has_foldl {α : Type} (f : Ev → α → Ev) (hf : ∀ e x, e.Has P → (f e x).Has P) (l : List α) (h : e.Has P) :
    (l.foldl f e).Has P := by
  induction l generalizing e with
  | nil => exact h
  | cons x l ih => exact ih (hf e x h)

/-! ### Order slots -/

@[simp] theorem Ev.has_writeStatus (hP : Stable P) (h : e.Has P) (slot : Nat) (st : Status) (d : Detail) :
    (e.writeStatus slot st d).Has P := by
  unfold Ev.writeStatus
  split
  · next ha _ => exact Ev.has_writeWords hP (Ev.has_writeWords hP h ha _ _) (by exact ha) _ _
  · exact h

theorem Ev.has_advanceRetire (hP : Stable P) (h : e.Has P) (ha : e.attached = true) (a : Anchor) :
    (e.advanceRetire a).Has P := by
  unfold Ev.advanceRetire
  dsimp only
  split
  · have h1 : ((e.updPort fun p => { p with retire := (retireWalk a.ringLength e.port.noticeOffset e.port.finished.length
        e.port.retire e.port.finished false).1, finished := (retireWalk a.ringLength e.port.noticeOffset e.port.finished.length
        e.port.retire e.port.finished false).2.1 }).writeWords 15 [wordOf (retireWalk a.ringLength e.port.noticeOffset
        e.port.finished.length e.port.retire e.port.finished false).1]).Has P :=
      Ev.has_writeWords hP (Ev.has_updPort hP h _ rfl rfl) (by exact ha) _ _
    split
    · exact Ev.has_raise hP h1 _
    · exact h1
  · exact h

@[simp] theorem Ev.has_slotFinal (hP : Stable P) (h : e.Has P) (slot : Nat) (notify : Bool) :
    (e.slotFinal slot notify).Has P := by
  unfold Ev.slotFinal
  split
  · next ha _ =>
    dsimp only
    split
    · exact Ev.has_advanceRetire hP (Ev.has_raise hP (Ev.has_updPort hP h _ rfl rfl) _) (by exact ha) _
    · exact Ev.has_advanceRetire hP (Ev.has_updPort hP h _ rfl rfl) (by exact ha) _
  · exact h

theorem Ev.has_advanceTake (hP : Stable P) (h : e.Has P) (ha : e.attached = true) : e.advanceTake.Has P := by
  unfold Ev.advanceTake
  split
  · exact Ev.has_writeWords hP (Ev.has_updPort hP h _ rfl rfl) (by exact ha) _ _
  · exact h

theorem Ev.writeStatus_port (e : Ev) (slot : Nat) (st : Status) (d : Detail) : (e.writeStatus slot st d).port = e.port := by
  unfold Ev.writeStatus; split <;> rfl

theorem Ev.has_finishTake (hP : Stable P) (h : e.Has P) (ha : e.attached = true) (slot : Nat) (notify : Bool) (st : Status)
    (d : Detail) : (e.finishTake slot notify st d).Has P := by
  have ha' : (e.writeStatus slot st d).attached = true := by
    simpa [State.attached, Ev.writeStatus_port] using ha
  have h1 := Ev.has_advanceTake hP (Ev.has_writeStatus hP h slot st d) ha'
  unfold Ev.finishTake
  dsimp only
  split
  · exact Ev.has_slotFinal hP h1 _ _
  · exact h1

theorem Ev.has_finish (hP : Stable P) (h : e.Has P) (ha : e.attached = true) (slot : Decode.Slot) (st : Status) (d : Detail) :
    (e.finish slot st d).Has P := Ev.has_finishTake hP h ha _ _ _ _

theorem Ev.has_refuse (hP : Stable P) (h : e.Has P) (ha : e.attached = true) (slot : Decode.Slot) (r : Reason) :
    (e.refuse slot r).Has P := Ev.has_finish hP h ha _ _ _

theorem Ev.has_done (hP : Stable P) (h : e.Has P) (ha : e.attached = true) (slot : Decode.Slot) : (e.done slot).Has P :=
  Ev.has_finish hP h ha _ _ _

/-! ### Zone states and the move scheduler -/

@[simp] theorem Ev.has_releaseGrant (hP : Stable P) (h : e.Has P) (u : UnitNo) (z : ZoneNo) : (e.releaseGrant u z).Has P :=
  hP.partGrants _ _ (hP.lines _ _ (hP.units _ _ h))

@[simp] theorem Ev.has_dropEntry (hP : Stable P) (h : e.Has P) (u : UnitNo) (z : ZoneNo) : (e.dropEntry u z).Has P :=
  hP.lines _ _ h

@[simp] theorem Ev.has_changeState (hP : Stable P) (h : e.Has P) (u : UnitNo) (z : ZoneNo) (new : ZoneState) :
    (e.changeState u z new).Has P := by
  unfold Ev.changeState
  dsimp only
  repeat' split
  all_goals simp (maxDischargeDepth := 20) [hP, h]

@[simp] theorem Ev.has_enterPending (hP : Stable P) (h : e.Has P) (u : UnitNo) (z : ZoneNo) (k : MoveKind) :
    (e.enterPending u z k).Has P := by
  unfold Ev.enterPending
  split <;> simp (maxDischargeDepth := 20) [hP, h]

@[simp] theorem Ev.has_enterFaulted (hP : Stable P) (h : e.Has P) (u : UnitNo) (z : ZoneNo) (c : FaultCause) :
    (e.enterFaulted u z c).Has P := by simp (maxDischargeDepth := 20) [Ev.enterFaulted, hP, h]

@[simp] theorem Ev.has_place (hP : Stable P) (h : e.Has P) (u : UnitNo) (z : ZoneNo) : (e.place u z).Has P := by
  unfold Ev.place
  repeat' split
  all_goals simp (maxDischargeDepth := 20) [hP, h]

@[simp] theorem Ev.has_queueKeyFrame (hP : Stable P) (h : e.Has P) (n : LineNo) (z : ZoneNo) (f : MotionFrame) :
    (e.queueKeyFrame n z f).Has P := by simp (maxDischargeDepth := 20) [Ev.queueKeyFrame, hP, h]

@[simp] theorem Ev.has_queueSweep (hP : Stable P) (h : e.Has P) (n : LineNo) (v : Nat) (t : Tag) :
    (e.queueSweep n v t).Has P := by simp (maxDischargeDepth := 20) [Ev.queueSweep, hP, h]

@[simp] theorem Ev.has_haltKey (hP : Stable P) (h : e.Has P) (n : LineNo) (z : ZoneNo) : (e.haltKey n z).Has P := by
  unfold Ev.haltKey; split <;> simp (maxDischargeDepth := 20) [hP, h]

@[simp] theorem Ev.has_queueHaltAll (hP : Stable P) (h : e.Has P) (n : LineNo) : (e.queueHaltAll n).Has P := by
  simp (maxDischargeDepth := 20) [Ev.queueHaltAll, hP, h]

@[simp] theorem Ev.has_tagTaken (hP : Stable P) (h : e.Has P) (n : LineNo) (t : Tag) : (e.tagTaken n t).Has P := by
  simp (maxDischargeDepth := 20) [Ev.tagTaken, hP, h]

@[simp] theorem Ev.has_sendMove (hP : Stable P) (h : e.Has P) (u : UnitNo) (z : ZoneNo) (p k : Nat) :
    (e.sendMove u z p k).Has P := by simp (maxDischargeDepth := 20) [Ev.sendMove, hP, h]

@[simp] theorem Ev.has_sendZero (hP : Stable P) (h : e.Has P) (u : UnitNo) (z : ZoneNo) : (e.sendZero u z).Has P := by
  simp (maxDischargeDepth := 20) [Ev.sendZero, hP, h]

@[simp] theorem Ev.has_grant (hP : Stable P) (h : e.Has P) (n : LineNo) : (e.grant n).Has P := by
  unfold Ev.grant
  split
  · exact h
  · next p _ _ =>
    have h1 : ((e.changeState n p.zone .moving).updLine n fun l => { l with grants := l.grants + 1 }).Has P := by simp (maxDischargeDepth := 20) [hP, h]
    have h2 := hP.pointer _ n (hP.partGrants _ (((e.changeState n p.zone .moving).updLine n fun l =>
      { l with grants := l.grants + 1 }).partGrants + 1) h1)
    dsimp only
    split
    · refine Ev.has_sendMove hP ?_ _ _ _ _
      exact h2
    · refine Ev.has_sendZero hP ?_ _ _
      exact h2

@[simp] theorem Ev.has_grantRounds (hP : Stable P) (h : e.Has P) (k : Nat) : (Ev.grantRounds k e).Has P := by
  induction k generalizing e with
  | zero => exact h
  | succ k ih =>
    unfold Ev.grantRounds
    split
    · exact ih (Ev.has_grant hP h _)
    · exact h

@[simp] theorem Ev.has_runArbiter (hP : Stable P) (h : e.Has P) : e.runArbiter.Has P :=
  (Ev.has_grantRounds hP h _).congr rfl

@[simp] theorem Ev.has_settleArbiter (hP : Stable P) (h : e.Has P) : e.settleArbiter.Has P := by
  unfold Ev.settleArbiter; split <;> simp (maxDischargeDepth := 20) [hP, h]

@[simp] theorem Ev.has_retarget (hP : Stable P) (h : e.Has P) (u : UnitNo) (z : ZoneNo) (t : Nat) :
    (e.retarget u z t).Has P := by
  unfold Ev.retarget
  dsimp only
  repeat' split
  all_goals simp (maxDischargeDepth := 20) [hP, h]

@[simp] theorem Ev.has_actOnTarget (hP : Stable P) (h : e.Has P) (u : UnitNo) (z : ZoneNo) (t : Nat) :
    (e.actOnTarget u z t).Has P := by
  unfold Ev.actOnTarget
  split <;> simp (maxDischargeDepth := 20) [hP, h]

@[simp] theorem Ev.has_newTarget (hP : Stable P) (h : e.Has P) (u : UnitNo) (z : ZoneNo) (t : Nat) :
    (e.newTarget u z t).Has P := by simp (maxDischargeDepth := 20) [Ev.newTarget, hP, h]

@[simp] theorem Ev.has_returnZone (hP : Stable P) (h : e.Has P) (u : UnitNo) (z : ZoneNo) : (e.returnZone u z).Has P := by
  unfold Ev.returnZone; split <;> simp (maxDischargeDepth := 20) [hP, h]

@[simp] theorem Ev.has_returnMoving (hP : Stable P) (h : e.Has P) (u : UnitNo) : (e.returnMoving u).Has P :=
  Ev.has_foldl _ (fun _ _ k => Ev.has_returnZone hP k _ _) _ h

@[simp] theorem Ev.has_setSettle (hP : Stable P) (h : e.Has P) (u : UnitNo) (z : ZoneNo) : (e.setSettle u z).Has P := by
  simp (maxDischargeDepth := 20) [Ev.setSettle, hP, h]

@[simp] theorem Ev.has_positionAtRest (hP : Stable P) (h : e.Has P) (u : UnitNo) (z : ZoneNo) (p : Nat) :
    (e.positionAtRest u z p).Has P := by
  unfold Ev.positionAtRest
  dsimp only
  repeat' split
  all_goals simp (maxDischargeDepth := 20) [hP, h]

@[simp] theorem Ev.has_zeroAtRest (hP : Stable P) (h : e.Has P) (u : UnitNo) (z : ZoneNo) (p : Nat) :
    (e.zeroAtRest u z p).Has P := by
  unfold Ev.zeroAtRest
  split <;> simp (maxDischargeDepth := 20) [hP, h]

@[simp] theorem Ev.has_keyReply (hP : Stable P) (h : e.Has P) (u : UnitNo) (z : ZoneNo) (p : Nat) (m : Decode.Motion) (t : Tag) :
    (e.keyReply u z p m t).Has P := by
  unfold Ev.keyReply
  repeat' split
  all_goals simp (maxDischargeDepth := 20) [hP, h]

@[simp] theorem Ev.has_stallZone (hP : Stable P) (h : e.Has P) (u : UnitNo) (z : ZoneNo) : (e.stallZone u z).Has P := by
  simp (maxDischargeDepth := 20) [Ev.stallZone, hP, h]

@[simp] theorem Ev.has_loseZone (hP : Stable P) (h : e.Has P) (u : UnitNo) (z : ZoneNo) : (e.loseZone u z).Has P := by
  unfold Ev.loseZone
  split <;> simp (maxDischargeDepth := 20) [hP, h]

/-! ### The fountain drive -/

@[simp] theorem Ev.has_setSweepFault (hP : Stable P) (h : e.Has P) (u : UnitNo) (b : Bool) : (e.setSweepFault u b).Has P := by
  unfold Ev.setSweepFault; split <;> simp (maxDischargeDepth := 20) [hP, h]

@[simp] theorem Ev.has_endFountainWait (hP : Stable P) (h : e.Has P) (u : UnitNo) : (e.endFountainWait u).Has P := by
  simp (maxDischargeDepth := 20) [Ev.endFountainWait, hP, h]

@[simp] theorem Ev.has_sendSweep (hP : Stable P) (h : e.Has P) (n : LineNo) (v : Nat) : (e.sendSweep n v).Has P := by
  simp (maxDischargeDepth := 20) [Ev.sendSweep, hP, h]

@[simp] theorem Ev.has_faultHandOver (hP : Stable P) (h : e.Has P) (n : LineNo) : (e.faultHandOver n).Has P := by
  simp (maxDischargeDepth := 20) [Ev.faultHandOver, hP, h]

@[simp] theorem Ev.has_pursueTo (hP : Stable P) (h : e.Has P) (n : LineNo) (v : Nat) : (e.pursueTo n v).Has P := by
  unfold Ev.pursueTo
  repeat' split
  all_goals simp (maxDischargeDepth := 20) [hP, h]

@[simp] theorem Ev.has_pursue (hP : Stable P) (h : e.Has P) (n : LineNo) : (e.pursue n).Has P := by
  unfold Ev.pursue
  repeat' split
  all_goals simp (maxDischargeDepth := 20) [hP, h]

@[simp] theorem Ev.has_pursueAfresh (hP : Stable P) (h : e.Has P) (n : LineNo) : (e.pursueAfresh n).Has P := by
  simp (maxDischargeDepth := 20) [Ev.pursueAfresh, hP, h]

@[simp] theorem Ev.has_handOver (hP : Stable P) (h : e.Has P) (u : UnitNo) (v : Nat) : (e.handOver u v).Has P := by
  simp (maxDischargeDepth := 20) [Ev.handOver, hP, h]

@[simp] theorem Ev.has_endSweepFault (hP : Stable P) (h : e.Has P) (n : LineNo) : (e.endSweepFault n).Has P := by
  simp (maxDischargeDepth := 20) [Ev.endSweepFault, hP, h]

@[simp] theorem Ev.has_endSweepQuietly (hP : Stable P) (h : e.Has P) (n : LineNo) : (e.endSweepQuietly n).Has P := by
  unfold Ev.endSweepQuietly; split <;> simp (maxDischargeDepth := 20) [hP, h]

@[simp] theorem Ev.has_sweepArrives (hP : Stable P) (h : e.Has P) (n : LineNo) (v : Nat) : (e.sweepArrives n v).Has P := by
  simp (maxDischargeDepth := 20) [Ev.sweepArrives, hP, h]

@[simp] theorem Ev.has_fountainReply (hP : Stable P) (h : e.Has P) (n : LineNo) (p : Nat) (m : Decode.Motion) (t : Tag) :
    (e.fountainReply n p m t).Has P := by
  unfold Ev.fountainReply
  repeat' split
  all_goals simp (maxDischargeDepth := 20) [hP, h]

/-! ### Orders -/

@[simp] theorem Ev.has_clearTracked (hP : Stable P) (h : e.Has P) (u : UnitNo) : (e.clearTracked u).Has P := by
  simp (maxDischargeDepth := 20) [Ev.clearTracked, hP, h]

@[simp] theorem Ev.has_clearWaiting (hP : Stable P) (h : e.Has P) (u : UnitNo) : (e.clearWaiting u).Has P := by
  simp (maxDischargeDepth := 20) [Ev.clearWaiting, hP, h]

@[simp] theorem Ev.has_endSlot (hP : Stable P) (h : e.Has P) (o : OrderRecord) (st : Status) (d : Detail) :
    (e.endSlot o st d).Has P := by simp (maxDischargeDepth := 20) [Ev.endSlot, hP, h]

@[simp] theorem Ev.has_endTracked (hP : Stable P) (h : e.Has P) (u : UnitNo) (st : Status) (c : Cause) :
    (e.endTracked u st c).Has P := by
  unfold Ev.endTracked; split <;> simp (maxDischargeDepth := 20) [hP, h]

@[simp] theorem Ev.has_endWaiting (hP : Stable P) (h : e.Has P) (u : UnitNo) (st : Status) (c : Cause) :
    (e.endWaiting u st c).Has P := by
  unfold Ev.endWaiting; split <;> simp (maxDischargeDepth := 20) [hP, h]

@[simp] theorem Ev.has_supersede (hP : Stable P) (h : e.Has P) (u : UnitNo) : (e.supersede u).Has P := by
  simp (maxDischargeDepth := 20) [Ev.supersede, hP, h]

@[simp] theorem Ev.has_endCheckOrder (hP : Stable P) (h : e.Has P) (a b : LineNo) (st : Status) (c : Cause) (k : Nat) :
    (e.endCheckOrder a b st c k).Has P := by
  unfold Ev.endCheckOrder; split <;> simp (maxDischargeDepth := 20) [hP, h]

@[simp] theorem Ev.has_testOrder (hP : Stable P) (h : e.Has P) (u : UnitNo) : (e.testOrder u).Has P := by
  unfold Ev.testOrder
  repeat' split
  all_goals simp (maxDischargeDepth := 20) [hP, h]

@[simp] theorem Ev.has_endByLine (hP : Stable P) (h : e.Has P) (u : UnitNo) (c : Cause) : (e.endByLine u c).Has P := by
  simp (maxDischargeDepth := 20) [Ev.endByLine, hP, h]

@[simp] theorem Ev.has_releaseWaiting (hP : Stable P) (h : e.Has P) (keep : Bool) : (e.releaseWaiting keep).Has P := hP.units _ _ h

/-! ### The end of an event -/

theorem Ev.has_writeMirror (hP : Stable P) (h : e.Has P) (ha : e.attached = true) (a : Anchor) (u : UnitNo) :
    (e.writeMirror a u).Has P :=
  Ev.has_writeWords hP (Ev.has_writeWords hP (Ev.has_writeWords hP (Ev.has_updPort hP h _ rfl rfl) (by exact ha) _ _) (by exact ha)
    _ _) (by exact ha) _ _

theorem Ev.has_writeIf (hP : Stable P) (h : e.Has P) (ha : e.attached = true) (c : Bool) (b : Nat) (w : Word) :
    (e.writeIf c b w).Has P := by
  unfold Ev.writeIf
  split
  · exact Ev.has_writeWords hP h ha _ _
  · exact h

theorem Ev.writeIf_port (e : Ev) (c : Bool) (b : Nat) (w : Word) : (e.writeIf c b w).port = e.port := by
  unfold Ev.writeIf; split <;> rfl

theorem Ev.writeIf_attached (e : Ev) (c : Bool) (b : Nat) (w : Word) : (e.writeIf c b w).attached = e.attached := by
  simp (maxDischargeDepth := 20) [State.attached, Ev.writeIf_port]

theorem Ev.has_writeWatch (hP : Stable P) (h : e.Has P) (ha : e.attached = true) (b : Nat) (k : Fin 4) :
    (e.writeWatch b k).Has P := by
  unfold Ev.writeWatch
  dsimp only
  exact Ev.has_writeIf hP (Ev.has_writeIf hP (Ev.has_writeIf hP h ha _ _ _) (by simp (maxDischargeDepth := 20) [Ev.writeIf_attached, ha]) _ _ _)
    (by simp (maxDischargeDepth := 20) [Ev.writeIf_attached, ha]) _ _ _

theorem Ev.writeWatch_port (e : Ev) (b : Nat) (k : Fin 4) : (e.writeWatch b k).port = e.port := by
  simp (maxDischargeDepth := 20) [Ev.writeWatch, Ev.writeIf_port]

theorem Ev.foldl_writeWatch_port (l : List (Fin 4)) (b : Nat) (e : Ev) :
    (l.foldl (fun e k => e.writeWatch b k) e).port = e.port := by
  induction l generalizing e with
  | nil => rfl
  | cons k l ih => simp (maxDischargeDepth := 20) [ih, Ev.writeWatch_port]

/-- Status words are written without touching the port. -/
theorem Ev.writeChangedStatus_port (e : Ev) (a : Anchor) : (e.writeChangedStatus a).port = e.port := by
  simp (maxDischargeDepth := 20) [Ev.writeChangedStatus, Ev.foldl_writeWatch_port, Ev.writeIf_port]

/-- A fold of writes made while ATTACHED keeps a property. -/
theorem Ev.has_foldl_attached {α : Type} (f : Ev → α → Ev)
    (hf : ∀ e x, e.Has P → e.attached = true → (f e x).Has P ∧ (f e x).attached = true) (l : List α) (h : e.Has P)
    (ha : e.attached = true) : (l.foldl f e).Has P ∧ (l.foldl f e).attached = true := by
  induction l generalizing e with
  | nil => exact ⟨h, ha⟩
  | cons x l ih => exact ih (hf e x h ha).1 (hf e x h ha).2

theorem Ev.has_writeChangedStatus (hP : Stable P) (h : e.Has P) (ha : e.attached = true) (a : Anchor) :
    (e.writeChangedStatus a).Has P := by
  unfold Ev.writeChangedStatus
  dsimp only
  refine hP.freeDraws _ _ (Ev.has_foldl_attached _ (fun e k k1 k2 => ⟨Ev.has_writeWatch hP k1 k2 _ _, ?_⟩) _ ?_ ?_).1
  · simpa [State.attached, Ev.writeWatch_port] using k2
  · exact Ev.has_writeIf hP (Ev.has_writeIf hP (Ev.has_writeIf hP h ha _ _ _) (by simp (maxDischargeDepth := 20) [Ev.writeIf_attached, ha]) _ _ _)
      (by simp (maxDischargeDepth := 20) [Ev.writeIf_attached, ha]) _ _ _
  · simp (maxDischargeDepth := 20) [Ev.writeIf_attached, ha]

theorem Ev.has_writeLine (hP : Stable P) (h : e.Has P) (ha : e.attached = true) (a : Anchor) (n : LineNo) :
    (e.writeLine a n).Has P := Ev.has_writeWords hP h ha _ _

@[simp] theorem Ev.has_flush (hP : Stable P) (h : e.Has P) : e.flush.Has P := by
  unfold Ev.flush
  split
  · next a ha _ =>
    have h1 := Ev.has_foldl_attached (fun e u => e.writeMirror a u)
      (fun e u k1 k2 => ⟨Ev.has_writeMirror hP k1 k2 a u, k2⟩) (inOrder e.mirrorDue) h ha
    have h2 := Ev.has_writeChangedStatus hP h1.1 h1.2 a
    have h3 : ((List.foldl (fun e u => e.writeMirror a u) e (inOrder e.mirrorDue)).writeChangedStatus a).attached = true := by
      simpa [State.attached, Ev.writeChangedStatus_port] using h1.2
    exact ((Ev.has_foldl_attached _ (fun e n k1 k2 => ⟨Ev.has_writeLine hP k1 k2 a n, k2⟩) (inOrder e.lineDue) h2 h3).1).congr rfl
  · exact h.congr rfl

@[simp] theorem Ev.has_runTests (hP : Stable P) (h : e.Has P) : e.runTests.Has P :=
  (Ev.has_foldl _ (fun _ _ k => Ev.has_testOrder hP k _) _ h).congr rfl

/-- The end of an event keeps every stable property. -/
@[simp] theorem Ev.has_settle (hP : Stable P) (h : e.Has P) : e.settle.Has P := by simp (maxDischargeDepth := 20) [Ev.settle, hP, h]

end Sys2Proof.Machine
end

