-- ==== Sys2Proof/Laws/Steady.lean ====
section
/-! SUPPORT. What the commands cannot disturb. A `Steady` property is a stable one that also survives any change of the line
check unit, the reading intake, the press timing unit and the scan-request output. Every command keeps every steady property,
but for the ones that set the part state, clear the machine or load a curve. -/

namespace Sys2Proof.Machine

/-- A property that no command disturbs but for those of the part state, the resets and LOAD CURVE. -/
structure Steady (P : State → Prop) : Prop extends Stable P where
  check : ∀ s x, P s → P { s with check := x }
  intake : ∀ s x, P s → P { s with intake := x }
  timing : ∀ s x, P s → P { s with timing := x }
  scanPulses : ∀ s x, P s → P { s with scanPulses := x }

variable {P : State → Prop} {e : Ev}

/-! ### The opening passes -/

@[simp] theorem Ev.has_stage7 (hP : Stable P) (h : e.Has P) (u : UnitNo) (z : ZoneNo) : (e.stage7 u z).Has P := by
  unfold Ev.stage7
  split
  · dsimp only
    refine Ev.has_newTarget hP ?_ _ _ _
    exact h
  · exact h

@[simp] theorem Ev.has_stage7All (hP : Stable P) (h : e.Has P) (u : UnitNo) (l : List ZoneNo) : (e.stage7All u l).Has P :=
  Ev.has_foldl _ (fun _ _ k => Ev.has_stage7 hP k _ _) _ h

@[simp] theorem Ev.has_presetPass (hP : Stable P) (h : e.Has P) (u : UnitNo) (p : OffsetPolicy) : (e.presetPass u p).Has P := by
  unfold Ev.presetPass
  split <;> simp (maxDischargeDepth := 20) [hP, h]

@[simp] theorem Ev.has_sweepPass (hP : Stable P) (h : e.Has P) (u : UnitNo) (v : Nat) : (e.sweepPass u v).Has P := by
  unfold Ev.sweepPass
  split <;> simp (maxDischargeDepth := 20) [hP, h]

@[simp] theorem Ev.has_trimPair (hP : Stable P) (h : e.Has P) (u : UnitNo) (p : ZoneNo × Int) : (e.trimPair u p).Has P := by
  unfold Ev.trimPair
  dsimp only
  refine Ev.has_stage7 hP (Ev.has_updZone hP ?_ _ _ _) _ _
  exact h

@[simp] theorem Ev.has_trimPass (hP : Stable P) (h : e.Has P) (u : UnitNo) (l : List (ZoneNo × Int)) : (e.trimPass u l).Has P :=
  Ev.has_oweMirror (Ev.has_foldl _ (fun _ _ k => Ev.has_trimPair hP k _ _) _ h) _

@[simp] theorem Ev.has_redirectToZero (hP : Stable P) (h : e.Has P) (u : UnitNo) (z : ZoneNo) :
    (e.redirectToZero u z).Has P := by
  unfold Ev.redirectToZero
  split <;> simp (maxDischargeDepth := 20) [hP, h]

@[simp] theorem Ev.has_zeroZone (hP : Stable P) (h : e.Has P) (u : UnitNo) (z : ZoneNo) : (e.zeroZone u z).Has P := by
  unfold Ev.zeroZone
  repeat' split
  all_goals simp (maxDischargeDepth := 20) [hP, h]

@[simp] theorem Ev.has_zeroPass (hP : Stable P) (h : e.Has P) (u : UnitNo) (a b : Nat) : (e.zeroPass u a b).Has P :=
  Ev.has_foldl _ (fun _ _ k => Ev.has_zeroZone hP k _ _) _ h

@[simp] theorem Ev.has_startPass (hP : Stable P) (h : e.Has P) (u : UnitNo) (k : TrackedKind) : (e.startPass u k).Has P := by
  cases k <;> simp (maxDischargeDepth := 20) [Ev.startPass, hP, h]

@[simp] theorem Ev.has_startOrder (hP : Stable P) (h : e.Has P) (u : UnitNo) (o : OrderRecord) : (e.startOrder u o).Has P := by
  unfold Ev.startOrder
  dsimp only
  refine Ev.has_updUnit hP (Ev.has_startPass hP (Ev.has_updUnit hP ?_ _ _) _ _) _ _
  exact h

@[simp] theorem Ev.has_closeStart (hP : Stable P) (h : e.Has P) (u : UnitNo) (st : Status) : (e.closeStart u st).Has P := by
  unfold Ev.closeStart
  split <;> simp (maxDischargeDepth := 20) [hP, h]

@[simp] theorem Ev.has_startWaiting (hP : Stable P) (h : e.Has P) (u : UnitNo) (o : OrderRecord) : (e.startWaiting u o).Has P := by
  unfold Ev.startWaiting
  dsimp only
  repeat' split
  all_goals simp (maxDischargeDepth := 20) [hP, h]

/-! ### The line check unit -/

@[simp] theorem Ev.has_setCheck (hP : Steady P) (h : e.Has P) (c : Option CheckRun) : (e.setCheck c).Has P := hP.check _ _ h

@[simp] theorem Ev.has_leaveCheck (hP : Stable P) (h : e.Has P) (n : LineNo) (r : CheckResult) : (e.leaveCheck n r).Has P := by
  simp (maxDischargeDepth := 20) [Ev.leaveCheck, hP, h]

@[simp] theorem Ev.has_endCheck (hP : Steady P) (h : e.Has P) (c : CheckRun) : (e.endCheck c).Has P := by
  simp (maxDischargeDepth := 20) [Ev.endCheck, hP, hP.toStable, h]

@[simp] theorem Ev.has_completeCheck (hP : Stable P) (h : e.Has P) (c : CheckRun) : (e.completeCheck c).Has P := by
  unfold Ev.completeCheck
  dsimp only
  split <;> simp (maxDischargeDepth := 20) [hP, h]

@[simp] theorem Ev.has_abortCheck (hP : Steady P) (h : e.Has P) (c : Cause) : (e.abortCheck c).Has P := by
  unfold Ev.abortCheck
  repeat' split
  all_goals simp (maxDischargeDepth := 20) [hP, hP.toStable, h]

@[simp] theorem Ev.has_checkPhaseExpiry (hP : Steady P) (h : e.Has P) (a b : Bool) : (e.checkPhaseExpiry a b).Has P := by
  unfold Ev.checkPhaseExpiry
  repeat' split
  all_goals simp (maxDischargeDepth := 20) [hP, hP.toStable, h]

/-! ### The lines -/

@[simp] theorem Ev.has_endLinePower (hP : Stable P) (h : e.Has P) (n : LineNo) (on : Bool) : (e.endLinePower n on).Has P := by
  unfold Ev.endLinePower
  repeat' split
  all_goals simp (maxDischargeDepth := 20) [hP, h]

@[simp] theorem Ev.has_bringIntoService (hP : Stable P) (h : e.Has P) (n : LineNo) : (e.bringIntoService n).Has P := by
  unfold Ev.bringIntoService
  dsimp only
  split <;> simp (maxDischargeDepth := 20) [hP, h]

@[simp] theorem Ev.has_startTimerExpiry (hP : Stable P) (h : e.Has P) (n : LineNo) : (e.startTimerExpiry n).Has P := by
  unfold Ev.startTimerExpiry
  split <;> simp (maxDischargeDepth := 20) [hP, h]

@[simp] theorem Ev.has_noteReported (hP : Stable P) (h : e.Has P) (n : LineNo) (k : Fin 9) (r : Decode.Reply) :
    (e.noteReported n k r).Has P := by
  unfold Ev.noteReported
  repeat' split
  all_goals simp (maxDischargeDepth := 20) [hP, h]

@[simp] theorem Ev.has_handOnKey (hP : Stable P) (h : e.Has P) (n : LineNo) (k : Fin 9) (r : Decode.Reply) (m : Decode.Motion) :
    (e.handOnKey n k r m).Has P := by
  unfold Ev.handOnKey
  repeat' split
  all_goals simp (maxDischargeDepth := 20) [hP, h]

@[simp] theorem Ev.has_handOn (hP : Stable P) (h : e.Has P) (n : LineNo) (k : Fin 9) (r : Decode.Reply) :
    (e.handOn n k r).Has P := by
  unfold Ev.handOn
  repeat' split
  all_goals simp (maxDischargeDepth := 20) [hP, h]

@[simp] theorem Ev.has_loseModule (hP : Stable P) (h : e.Has P) (n : LineNo) (k : Fin 9) : (e.loseModule n k).Has P :=
  Ev.has_foldl _ (fun _ _ k => Ev.has_loseZone hP k _ _) _ h

@[simp] theorem Ev.has_loseFountain (hP : Stable P) (h : e.Has P) (n : LineNo) : (e.loseFountain n).Has P := by
  unfold Ev.loseFountain
  split <;> simp (maxDischargeDepth := 20) [hP, h]

@[simp] theorem Ev.has_moduleMissing (hP : Stable P) (h : e.Has P) (n : LineNo) (k : Fin 9) : (e.moduleMissing n k).Has P := by
  unfold Ev.moduleMissing
  split <;> simp (maxDischargeDepth := 20) [hP, h]

@[simp] theorem Ev.has_updModule (hP : Stable P) (h : e.Has P) (n : LineNo) (k : Fin 9) (f : ModuleRec → ModuleRec) :
    (e.updModule n k f).Has P := by simp (maxDischargeDepth := 20) [Ev.updModule, hP, h]

@[simp] theorem Ev.has_slotMissed (hP : Stable P) (h : e.Has P) (n : LineNo) (k : Fin 9) : (e.slotMissed n k).Has P := by
  unfold Ev.slotMissed
  dsimp only
  repeat' split
  all_goals simp (maxDischargeDepth := 20) [hP, h]

@[simp] theorem Ev.has_slotValid (hP : Stable P) (h : e.Has P) (n : LineNo) (k : Fin 9) (r : Decode.Reply) :
    (e.slotValid n k r).Has P := by
  unfold Ev.slotValid
  dsimp only
  repeat' split
  all_goals simp (maxDischargeDepth := 20) [hP, h]

@[simp] theorem Ev.has_lastCycleEnd (hP : Stable P) (h : e.Has P) (n : LineNo) : (e.lastCycleEnd n).Has P := by
  simp (maxDischargeDepth := 20) [Ev.lastCycleEnd, hP, h]

@[simp] theorem Ev.has_advanceCycle (hP : Stable P) (h : e.Has P) (n : LineNo) (c : Cycle) : (e.advanceCycle n c).Has P := by
  unfold Ev.advanceCycle
  repeat' split
  all_goals simp (maxDischargeDepth := 20) [hP, h]

@[simp] theorem Ev.has_judge (hP : Stable P) (h : e.Has P) (n : LineNo) (c : Cycle) (r : Reception) : (e.judge n c r).Has P := by
  unfold Ev.judge
  dsimp only
  repeat' split
  all_goals simp (maxDischargeDepth := 20) [hP, h]

@[simp] theorem Ev.has_trip (hP : Stable P) (h : e.Has P) (n : LineNo) : (e.trip n).Has P := by
  simp (maxDischargeDepth := 20) [Ev.trip, hP, h]

@[simp] theorem Ev.has_overcurrent (hP : Steady P) (h : e.Has P) (n : LineNo) : (e.overcurrent n).Has P := by
  unfold Ev.overcurrent
  split <;> simp (maxDischargeDepth := 20) [hP, hP.toStable, h]

/-! ### Press timing -/

@[simp] theorem Ev.has_updTiming (hP : Steady P) (h : e.Has P) (f : Timing → Timing) : (e.updTiming f).Has P := hP.timing _ _ h

@[simp] theorem Ev.has_updIntake (hP : Steady P) (h : e.Has P) (f : Intake → Intake) : (e.updIntake f).Has P := hP.intake _ _ h

@[simp] theorem Ev.has_snapshot (hP : Stable P) (h : e.Has P) : e.snapshot.Has P := by
  unfold Ev.snapshot
  split
  · next a ha _ =>
    have h1 := Ev.has_foldl_attached (fun e u => e.writeMirror a u) (fun e u k1 k2 => ⟨Ev.has_writeMirror hP k1 k2 a u, k2⟩)
      ((ascending 16).filter fun u => (e.unit u).defined)
      (Ev.has_updPort hP h (fun p => { p with snapshotSheet := e.timing.counter }) rfl rfl) (by exact ha)
    exact (Ev.has_foldl_attached _ (fun e n k1 k2 => ⟨Ev.has_writeLine hP k1 k2 a n, k2⟩) (ascending 16)
      (Ev.has_writeWords hP h1.1 h1.2 _ _) (by exact h1.2)).1
  · exact h

@[simp] theorem Ev.has_intervalExpiry (hP : Steady P) (h : e.Has P) : e.intervalExpiry.Has P := by
  unfold Ev.intervalExpiry
  dsimp only
  refine Ev.has_updTiming hP ?_ _
  have key : ∀ e1 : Ev, e1.Has P → Ev.Has P (if e1.timing.actScanRequest = true then
      { e1 with scanPulses := e1.scanPulses + 1 } else e1) := by
    intro e1 h1
    split
    · exact hP.scanPulses _ _ h1
    · exact h1
  apply key
  split
  · exact Ev.has_snapshot hP.toStable h
  · exact h

@[simp] theorem Ev.has_handMark (hP : Stable P) (h : e.Has P) : e.handMark.Has P := by
  unfold Ev.handMark
  split
  · exact Ev.has_updPort hP h _ rfl rfl
  · exact h

@[simp] theorem Ev.has_sheetMark (hP : Steady P) (h : e.Has P) : e.sheetMark.Has P := by
  unfold Ev.sheetMark
  dsimp only
  repeat' split
  all_goals simp (maxDischargeDepth := 20) [hP, hP.toStable, h]

/-! ### The reading intake -/

theorem Ev.has_appendRecord (hP : Stable P) (h : e.Has P) (ha : e.attached = true) (a : Anchor) (o : OpenSegment)
    (r : List Word) : (e.appendRecord a o r).Has P := by
  unfold Ev.appendRecord
  dsimp only
  exact Ev.has_updPort hP (Ev.has_writeWords hP (Ev.has_writeWords hP h ha _ _) (by exact ha) _ _) _ rfl rfl

theorem Ev.has_openSegment (hP : Stable P) (h : e.Has P) (ha : e.attached = true) (a : Anchor) : (e.openSegment a).Has P :=
  Ev.has_updPort hP (Ev.has_writeWords hP h ha _ _) _ rfl rfl

theorem Ev.has_openAndPlace (hP : Stable P) (h : e.Has P) (ha : e.attached = true) (a : Anchor) (r : List Word) :
    (e.openAndPlace a r).Has P := by
  unfold Ev.openAndPlace
  split
  · exact Ev.has_appendRecord hP (Ev.has_openSegment hP h ha a) (by exact ha) _ _ _
  · exact Ev.has_raise hP (Ev.has_updPort hP h _ rfl rfl) _

theorem Ev.has_closeSegment (hP : Stable P) (h : e.Has P) (ha : e.attached = true) (a : Anchor) (o : OpenSegment) :
    (e.closeSegment a o).Has P :=
  Ev.has_updPort hP (Ev.has_raise hP (Ev.has_writeWords hP h ha _ _) _) _ rfl rfl

@[simp] theorem Ev.has_storeRecord (hP : Stable P) (h : e.Has P) (r : List Word) : (e.storeRecord r).Has P := by
  unfold Ev.storeRecord
  split
  · next ha _ =>
    split
    · exact Ev.has_openAndPlace hP h ha _ _
    · split
      · exact Ev.has_openAndPlace hP (Ev.has_closeSegment hP h ha _ _) (by exact ha) _ _
      · exact Ev.has_appendRecord hP h ha _ _ _
  · exact h

@[simp] theorem Ev.has_applyStep (hP : Stable P) (h : e.Has P) (u : UnitNo) (z : ZoneNo) (p : LoopParams) (d : Int) :
    (e.applyStep u z p d).Has P := by simp (maxDischargeDepth := 20) [Ev.applyStep, hP, h]

@[simp] theorem Ev.has_examine (hP : Stable P) (h : e.Has P) (u : UnitNo) (z : ZoneNo) : (e.examine u z).Has P := by
  unfold Ev.examine
  dsimp only
  repeat' split
  all_goals simp (maxDischargeDepth := 20) [hP, h]

@[simp] theorem Ev.has_takeDensity (hP : Steady P) (h : e.Has P) (u : UnitNo) (z : ZoneNo) (d : Nat) (n : BitVec 16) :
    (e.takeDensity u z d n).Has P := by
  simp (maxDischargeDepth := 20) [Ev.takeDensity, Ev.testWatches, hP, hP.toStable, h]

theorem Treatment.has_zone (hP : Steady P) (t : Treatment) (h : t.ev.Has P) (j : ScanJudgement) (scan : OpenScan) (u : UnitNo)
    (z : ZoneNo) (x : Entry) : (t.zone j scan u z x).ev.Has P := by
  unfold Treatment.zone
  dsimp only
  split
  · exact Ev.has_takeDensity hP h _ _ _ _
  · exact h

theorem Treatment.has_foldl {α : Type} (f : Treatment → α → Treatment) (hf : ∀ t x, t.ev.Has P → (f t x).ev.Has P) (l : List α)
    (t : Treatment) (h : t.ev.Has P) : (l.foldl f t).ev.Has P := by
  induction l generalizing t with
  | nil => exact h
  | cons x l ih => exact ih _ (hf t x h)

theorem Treatment.has_unit (hP : Steady P) (t : Treatment) (h : t.ev.Has P) (j : ScanJudgement) (scan : OpenScan) (u : UnitNo) :
    (t.unit j scan u).ev.Has P := by
  unfold Treatment.unit
  split
  · exact h
  · exact Ev.has_settleArbiter hP.toStable
      (Treatment.has_foldl _ (fun t x k => Treatment.has_zone hP t k j scan u x.1 x.2) _ _ h)

@[simp] theorem Ev.has_closeScan (hP : Steady P) (h : e.Has P) (scan : OpenScan) (o : ScanOutcome)
    (g : List (UnitNo × List (Entry × ReadingCode))) : (e.closeScan scan o g).Has P := by
  simp (maxDischargeDepth := 20) [Ev.closeScan, hP, hP.toStable, h]

@[simp] theorem Ev.has_completeScan (hP : Steady P) (h : e.Has P) (scan : OpenScan) : (e.completeScan scan).Has P := by
  unfold Ev.completeScan
  dsimp only
  have h1 := Treatment.has_foldl (fun t u => Treatment.unit t (e.judgeScan scan.sheet) scan u)
    (fun t u k => Treatment.has_unit hP t k _ scan u) (ascending 16) { ev := e, readings := [], groups := [], hit := false } h
  refine Ev.has_closeScan hP ?_ _ _ _
  split
  · exact Ev.has_raise hP.toStable h1 _
  · exact h1

@[simp] theorem Ev.has_faultScan (hP : Steady P) (h : e.Has P) (scan : OpenScan) (o : ScanOutcome) : (e.faultScan scan o).Has P := by
  simp (maxDischargeDepth := 20) [Ev.faultScan, Ev.countLinkFault, hP, hP.toStable, h]

@[simp] theorem Ev.has_scanOpen (hP : Steady P) (h : e.Has P) (n : BitVec 16) (b : Sheet) : (e.scanOpen n b).Has P := by
  unfold Ev.scanOpen
  repeat' split
  all_goals simp (maxDischargeDepth := 20) [Ev.openScan, hP, h]

@[simp] theorem Ev.has_unreadable (hP : Steady P) (h : e.Has P) : e.unreadable.Has P := by
  unfold Ev.unreadable
  repeat' split
  all_goals simp (maxDischargeDepth := 20) [Ev.countLinkFault, hP, h]

@[simp] theorem Ev.has_unitBlock (hP : Steady P) (h : e.Has P) (u : BitVec 8) (l : List Entry) : (e.unitBlock u l).Has P := by
  unfold Ev.unitBlock
  repeat' split
  all_goals simp (maxDischargeDepth := 20) [Ev.countLinkFault, hP, h]

@[simp] theorem Ev.has_scanClose (hP : Steady P) (h : e.Has P) (w : Word) : (e.scanClose w).Has P := by
  unfold Ev.scanClose
  repeat' split
  all_goals simp (maxDischargeDepth := 20) [Ev.countLinkFault, hP, h]

/-! ### The exchange port -/

/-- An event that keeps a property is a command that keeps it. -/
theorem act_has (hP : Stable P) {s t : State} {f : Ev → Ev} (h : (f (Ev.ofState s.writesDone)).Has P)
    (ht : act s f = .next t) : P t := by
  unfold act at ht
  split at ht
  · cases ht
    exact Ev.has_settle hP h
  · cases ht

/-- What `act` answers, once. -/
theorem act_next {s t : State} {f : Ev → Ev} (ht : act s f = .next t) :
    s.regionsInMemory = true ∧ t = (f (Ev.ofState s.writesDone)).settle.toState := by
  unfold act at ht
  split at ht
  · next h => cases ht; exact ⟨h, rfl⟩
  · cases ht

theorem Ev.has_orderScan (hP : Stable P) (h : e.Has P) (a : Anchor) : (e.orderScan a).Has P := by
  unfold Ev.orderScan Ev.putJudged
  dsimp only
  repeat' split
  · exact Ev.has_updPort hP (Ev.has_updPort hP h _ rfl rfl) _ rfl rfl
  · exact Ev.has_updPort hP h _ rfl rfl
  · exact Ev.has_raise hP (Ev.has_updPort hP (Ev.has_updPort hP h _ rfl rfl) _ rfl rfl) _

/-- The state once the host's writes have landed. -/
def State.afterHost (s : State) (host : List HostWrite) : State := { s with mem := Memory.hostWrites s.mem host }

/-- A take keeps a property when the order does, on a part that is ATTACHED. -/
theorem takeOrder_has (hP : Stable P) {s t : State} {host : List HostWrite} {applies : Decode.Slot → Bool}
    {f : Anchor → Decode.Slot → Ev → Ev} (h : P (s.afterHost host))
    (hf : ∀ a slot e, e.Has P → e.attached = true → (f a slot e).Has P) (ht : takeOrder host applies f s = .next t) : P t := by
  refine act_has hP ?_ ht
  have h1 : ((Ev.ofState s.writesDone).hostWrites host).Has P := hP.unfinished _ _ h
  dsimp only
  split
  · split
    · next hd =>
      refine hf _ _ _ h1 ?_
      simp only [State.takeDue, Bool.and_eq_true] at hd
      exact hd.1.1
    · exact h1
  · exact h1

/-! ### The orders -/

theorem Ev.has_onUnit (hP : Stable P) (h : e.Has P) (ha : e.attached = true) (slot : Decode.Slot) (f : UnitNo → Ev)
    (hf : ∀ u, (f u).Has P) : (e.onUnit slot f).Has P := by
  unfold Ev.onUnit
  split
  · exact hf _
  · exact Ev.has_refuse hP h ha _ _

theorem Ev.has_onDefined (hP : Stable P) (h : e.Has P) (ha : e.attached = true) (slot : Decode.Slot)
    (f : UnitNo → UnitConfig → Ev) (hf : ∀ u c, (f u c).Has P) : (e.onDefined slot f).Has P := by
  refine Ev.has_onUnit hP h ha _ _ fun u => ?_
  split
  · exact hf _ _
  · exact Ev.has_refuse hP h ha _ _

/-- Being ATTACHED is stable. -/
theorem stable_attached : Stable fun s => s.attached = true where
  units _ _ h := h
  lines _ _ h := h
  partGrants _ _ h := h
  pointer _ _ h := h
  freeDraws _ _ h := h
  unfinished _ _ h := h
  port s x h h1 _ := by simpa [State.attached, h1] using h
  words _ _ _ h _ := h

/-- Being ATTACHED is steady. -/
theorem steady_attached : Steady fun s => s.attached = true where
  toStable := stable_attached
  check _ _ h := h
  intake _ _ h := h
  timing _ _ h := h
  scanPulses _ _ h := h

@[simp] theorem Ev.has_defineUnit (hP : Stable P) (h : e.Has P) (u : UnitNo) (c : UnitConfig) : (e.defineUnit u c).Has P := by
  unfold Ev.defineUnit
  dsimp only
  split <;> simp (maxDischargeDepth := 20) [hP, h]

@[simp] theorem Ev.has_loadCounter (hP : Steady P) (h : e.Has P) (v : Option Sheet) : (e.loadCounter v).Has P := by
  cases v <;> simp (maxDischargeDepth := 20) [Ev.loadCounter, hP, hP.toStable, h]

@[simp] theorem Ev.has_holdZone (hP : Stable P) (h : e.Has P) (u : UnitNo) (z : ZoneNo) : (e.holdZone u z).Has P := by
  unfold Ev.holdZone
  split <;> simp (maxDischargeDepth := 20) [hP, h]

@[simp] theorem Ev.has_releaseZone (hP : Stable P) (h : e.Has P) (u : UnitNo) (z : ZoneNo) : (e.releaseZone u z).Has P := by
  unfold Ev.releaseZone
  split <;> simp (maxDischargeDepth := 20) [hP, h]

@[simp] theorem Ev.has_clearZone (hP : Stable P) (h : e.Has P) (u : UnitNo) (z : ZoneNo) : (e.clearZone u z).Has P := by
  unfold Ev.clearZone
  split <;> simp (maxDischargeDepth := 20) [hP, h]

theorem Ev.has_treatRange (hP : Stable P) (h : e.Has P) (l : List ZoneNo) (f : Ev → ZoneNo → Ev)
    (hf : ∀ e z, e.Has P → (f e z).Has P) : (e.treatRange l f).Has P :=
  Ev.has_foldl _ (fun _ _ k => Ev.has_settleArbiter hP (hf _ _ k)) _ h

@[simp] theorem Ev.has_abortUnit (hP : Steady P) (h : e.Has P) (u : UnitNo) : (e.abortUnit u).Has P := by
  unfold Ev.abortUnit
  repeat' split
  all_goals simp (maxDischargeDepth := 20) [hP, hP.toStable, h]

theorem Ev.has_startNow (hP : Stable P) (h : e.Has P) (ha : e.attached = true) (u : UnitNo) (slot : Decode.Slot)
    (o : OrderRecord) : (e.startNow u slot o).Has P := by
  unfold Ev.startNow
  dsimp only
  have ha' : e.Has fun s => s.attached = true := ha
  split
  · exact Ev.has_finish hP (by simp (maxDischargeDepth := 20) [hP, h])
      (Ev.has_closeStart stable_attached (Ev.has_startOrder stable_attached ha' _ _) _ _) _ _ _
  · simp [hP, h]

theorem Ev.has_startOrWait (hP : Stable P) (h : e.Has P) (ha : e.attached = true) (u : UnitNo) (slot : Decode.Slot)
    (o : OrderRecord) : (e.startOrWait u slot o).Has P := by
  unfold Ev.startOrWait
  split
  · exact Ev.has_finish hP (Ev.has_updUnit hP h _ _) (by exact ha) _ _ _
  · exact Ev.has_startNow hP h ha _ _ _

@[simp] theorem Ev.has_stopLine (hP : Stable P) (h : e.Has P) (n : LineNo) : (e.stopLine n).Has P := by
  simp (maxDischargeDepth := 20) [Ev.stopLine, hP, h]

theorem Ev.has_track (hP : Stable P) (h : e.Has P) (ha : e.attached = true) (u : UnitNo) (slot : Decode.Slot)
    (o : OrderRecord) : (e.track u slot o).Has P := Ev.has_finish hP (Ev.has_updUnit hP h _ _) (by exact ha) _ _ _

theorem Ev.has_powerOn (hP : Stable P) (h : e.Has P) (ha : e.attached = true) (n : LineNo) (slot : Decode.Slot) :
    (e.powerOn n slot).Has P := by
  unfold Ev.powerOn
  dsimp only
  split
  · exact Ev.has_track hP (Ev.has_oweLine (Ev.has_updLine hP h _ _) _) (by exact ha) _ _ _
  · exact Ev.has_track hP (Ev.has_oweLine (Ev.has_updLine hP h _ _) _) (by exact ha) _ _ _
  · exact Ev.has_track hP h ha _ _ _
  · exact Ev.has_done hP h ha _
  · exact Ev.has_done hP h ha _

theorem Ev.has_powerOff (hP : Stable P) (h : e.Has P) (ha : e.attached = true) (n : LineNo) (slot : Decode.Slot) :
    (e.powerOff n slot).Has P := by
  have ha' : e.Has fun s => s.attached = true := ha
  unfold Ev.powerOff
  dsimp only
  split
  · exact Ev.has_done hP h ha _
  · exact Ev.has_done hP h ha _
  · exact Ev.has_done hP (Ev.has_oweLine (Ev.has_updModules hP (Ev.has_updLine hP h _ _) _ _) _) (by exact ha) _
  · exact Ev.has_track hP (Ev.has_stopLine hP h _) (Ev.has_stopLine stable_attached ha' _) _ _ _
  · exact Ev.has_track hP (Ev.has_queueHaltAll hP (Ev.has_updLine hP h _ _) _) (by exact ha) _ _ _

theorem Ev.has_linePower (hP : Stable P) (h : e.Has P) (ha : e.attached = true) (slot : Decode.Slot) :
    (e.linePower slot).Has P := by
  refine Ev.has_onUnit hP h ha _ _ fun u => ?_
  repeat' split
  · exact Ev.has_refuse hP h ha _ _
  · exact Ev.has_refuse hP h ha _ _
  · exact Ev.has_powerOn hP h ha _ _
  · exact Ev.has_powerOff hP h ha _ _

@[simp] theorem Ev.has_clearResults (hP : Stable P) (h : e.Has P) (a b : LineNo) : (e.clearResults a b).Has P := by
  simp (maxDischargeDepth := 20) [Ev.clearResults, hP, h]

@[simp] theorem Ev.has_enterCheck (hP : Stable P) (h : e.Has P) (n : LineNo) : (e.enterCheck n).Has P := by
  simp (maxDischargeDepth := 20) [Ev.enterCheck, hP, h]

theorem Ev.has_startCheck (hP : Steady P) (h : e.Has P) (ha : e.attached = true) (slot : Decode.Slot) (a b : LineNo) :
    (e.startCheck slot a b).Has P := by
  unfold Ev.startCheck
  dsimp only
  refine Ev.has_track hP.toStable ?_ (by exact ha) _ _ _
  simp (maxDischargeDepth := 20) [hP, hP.toStable, h]

end Sys2Proof.Machine
end

