-- ==== Sys2Proof/Laws/Commands.lean ====
section
/-! SUPPORT. Every command keeps every steady property, but for those that set the part state, clear the machine or load a
curve. -/

namespace Sys2Proof.Machine

variable {P : State → Prop} {s t : State}

/-- A command that keeps a steady property, made of `act`. -/
theorem act_afterHost (hP : Stable P) (host : List HostWrite) {f : Ev → Ev} (h : P (s.afterHost host))
    (hf : ∀ e, e.Has P → (f e).Has P) (ht : act s (fun e => f (e.hostWrites host)) = .next t) : P t :=
  act_has hP (f := fun e => f (e.hostWrites host)) (hf _ (hP.unfinished _ _ h)) ht

theorem takeRange_has (hP : Stable P) {host : List HostWrite} {k : Decode.OrderKind} {f : UnitNo → Ev → ZoneNo → Ev}
    (h : P (s.afterHost host)) (hf : ∀ u e z, e.Has P → (f u e z).Has P) (hf' : ∀ u e z, e.Has (fun s => s.attached = true) →
      (f u e z).Has fun s => s.attached = true) (ht : takeRange k f host s = .next t) : P t := by
  refine takeOrder_has hP h (fun a slot e he ha => ?_) ht
  refine Ev.has_onDefined hP he ha _ _ fun u c => ?_
  split
  · exact Ev.has_done hP (Ev.has_treatRange hP he _ _ fun e z k => hf u e z k)
      (Ev.has_treatRange stable_attached (show e.Has _ from ha) _ _ fun e z k => hf' u e z k) _
  · exact Ev.has_refuse hP he ha _ _

theorem execNoticeWrite_has (hP : Steady P) (v : Word) (h : P s) (ht : execNoticeWrite v s = .next t) : P t := by
  have hS := hP.toStable
  unfold execNoticeWrite at ht
  cases ht; exact hS.port _ _ h rfl rfl

theorem execRegisterWriteIgnored_has (hP : Steady P) (r : ReadOnlyRegister) (v : Word) (h : P s) (ht : execRegisterWriteIgnored r v s = .next t) : P t := by
  have hS := hP.toStable
  unfold execRegisterWriteIgnored at ht
  cases ht; exact h

theorem execSheetMark_has (hP : Steady P)  (h : P s) (ht : execSheetMark s = .next t) : P t := by
  have hS := hP.toStable
  have h0 : Ev.Has P (Ev.ofState s.writesDone) := hS.unfinished _ _ h
  unfold execSheetMark at ht
  exact act_has hS (Ev.has_sheetMark hP h0) ht

theorem execIntervalExpiry_has (hP : Steady P)  (h : P s) (ht : execIntervalExpiry s = .next t) : P t := by
  have hS := hP.toStable
  have h0 : Ev.Has P (Ev.ofState s.writesDone) := hS.unfinished _ _ h
  unfold execIntervalExpiry at ht
  refine act_has hS ?_ ht
  try dsimp only
  split
  · exact Ev.has_intervalExpiry hP h0
  · exact h0

theorem execRunTimerExpiry_has (hP : Steady P)  (h : P s) (ht : execRunTimerExpiry s = .next t) : P t := by
  have hS := hP.toStable
  have h0 : Ev.Has P (Ev.ofState s.writesDone) := hS.unfinished _ _ h
  unfold execRunTimerExpiry at ht
  refine act_has hS ?_ ht
  try dsimp only
  split
  · exact Ev.has_updTiming hP h0 _
  · exact h0

theorem execImpressionChange_has (hP : Steady P) (b : Bool) (h : P s) (ht : execImpressionChange b s = .next t) : P t := by
  have hS := hP.toStable
  have h0 : Ev.Has P (Ev.ofState s.writesDone) := hS.unfinished _ _ h
  unfold execImpressionChange at ht
  exact act_has hS (Ev.has_updTiming hP h0 _) ht

theorem execOrderScan_has (hP : Steady P) (host : List HostWrite) (h : P (s.afterHost host)) (ht : execOrderScan host s = .next t) : P t := by
  have hS := hP.toStable
  unfold execOrderScan at ht
  refine act_afterHost (f := fun e => match e.attached && !e.takeDue, e.port.anchor with
    | true, some a => e.orderScan a
    | _, _ => e) hS host h (fun e he => ?_) ht
  try dsimp only
  split
  · exact Ev.has_orderScan hS he _
  · exact he

theorem execUnknownKind_has (hP : Steady P) (host : List HostWrite) (h : P (s.afterHost host)) (ht : execUnknownKind host s = .next t) : P t := by
  have hS := hP.toStable
  unfold execUnknownKind at ht
  exact takeOrder_has hS h (fun a slot e he ha => Ev.has_refuse hS he ha _ _) ht

theorem execDefineUnit_has (hP : Steady P) (host : List HostWrite) (h : P (s.afterHost host)) (ht : execDefineUnit host s = .next t) : P t := by
  have hS := hP.toStable
  unfold execDefineUnit at ht
  refine takeOrder_has hS h (fun a slot e he ha => Ev.has_onUnit hS he ha _ _ fun u => ?_) ht
  split
  · exact Ev.has_refuse hS he ha _ _
  · split
    · exact Ev.has_done hS (Ev.has_defineUnit hS he _ _) (Ev.has_defineUnit stable_attached (show e.Has _ from ha) _ _) _
    · exact Ev.has_refuse hS he ha _ _

theorem execSetLoop_has (hP : Steady P) (host : List HostWrite) (h : P (s.afterHost host)) (ht : execSetLoop host s = .next t) : P t := by
  have hS := hP.toStable
  unfold execSetLoop at ht
  refine takeOrder_has hS h (fun a slot e he ha => Ev.has_onDefined hS he ha _ _ fun u c => ?_) ht
  split
  · exact Ev.has_done hS (Ev.has_oweMirror (Ev.has_updUnit hS he _ _) _) (by exact ha) _
  · exact Ev.has_refuse hS he ha _ _

theorem execSetTiming_has (hP : Steady P) (host : List HostWrite) (h : P (s.afterHost host)) (ht : execSetTiming host s = .next t) : P t := by
  have hS := hP.toStable
  unfold execSetTiming at ht
  refine takeOrder_has hS h (fun a slot e he ha => ?_) ht
  split
  · exact Ev.has_done hS (Ev.has_loadCounter hP (Ev.has_updTiming hP he _) _)
      (Ev.has_loadCounter steady_attached (show Ev.Has (fun s => s.attached = true) (e.updTiming _) from ha) _) _
  · exact Ev.has_refuse hS he ha _ _

theorem execSetWatch_has (hP : Steady P) (host : List HostWrite) (h : P (s.afterHost host)) (ht : execSetWatch host s = .next t) : P t := by
  have hS := hP.toStable
  unfold execSetWatch at ht
  refine takeOrder_has hS h (fun a slot e he ha => Ev.has_onUnit hS he ha _ _ fun u => ?_) ht
  split
  · exact Ev.has_done hS (Ev.has_updIntake hP he _) (by exact ha) _
  · exact Ev.has_refuse hS he ha _ _

theorem execSetNotices_has (hP : Steady P) (host : List HostWrite) (h : P (s.afterHost host)) (ht : execSetNotices host s = .next t) : P t := by
  have hS := hP.toStable
  unfold execSetNotices at ht
  refine takeOrder_has hS h (fun a slot e he ha => ?_) ht
  split
  · exact Ev.has_refuse hS he ha _ _
  · exact Ev.has_done hS (Ev.has_updPort hS he _ rfl rfl) (by exact ha) _

theorem execSnapshot_has (hP : Steady P) (host : List HostWrite) (h : P (s.afterHost host)) (ht : execSnapshot host s = .next t) : P t := by
  have hS := hP.toStable
  unfold execSnapshot at ht
  refine takeOrder_has hS h (fun a slot e he ha => ?_) ht
  split
  · exact Ev.has_refuse hS he ha _ _
  · exact Ev.has_done hS (Ev.has_snapshot hS he) (Ev.has_snapshot stable_attached (show e.Has _ from ha)) _

theorem execIntakeOn_has (hP : Steady P) (host : List HostWrite) (h : P (s.afterHost host)) (ht : execIntakeOn host s = .next t) : P t := by
  have hS := hP.toStable
  unfold execIntakeOn at ht
  refine takeOrder_has hS h (fun a slot e he ha => ?_) ht
  unfold Ev.intakeOrder
  split
  · exact Ev.has_done hS (Ev.has_updIntake hP he _) (by exact ha) _
  · exact Ev.has_done hS (Ev.has_updIntake hP he _) (by exact ha) _
  · exact Ev.has_refuse hS he ha _ _

theorem execIntakeOff_has (hP : Steady P) (host : List HostWrite) (h : P (s.afterHost host)) (ht : execIntakeOff host s = .next t) : P t := by
  have hS := hP.toStable
  unfold execIntakeOff at ht
  refine takeOrder_has hS h (fun a slot e he ha => ?_) ht
  unfold Ev.intakeOrder
  split
  · exact Ev.has_done hS (Ev.has_updIntake hP he _) (by exact ha) _
  · exact Ev.has_done hS (Ev.has_updIntake hP he _) (by exact ha) _
  · exact Ev.has_refuse hS he ha _ _

theorem execHold_has (hP : Steady P) (host : List HostWrite) (h : P (s.afterHost host)) (ht : execHold host s = .next t) : P t := by
  have hS := hP.toStable
  unfold execHold at ht
  exact takeRange_has hS h (fun u e z k => Ev.has_holdZone hS k _ _) (fun u e z k => Ev.has_holdZone stable_attached k _ _) ht

theorem execRelease_has (hP : Steady P) (host : List HostWrite) (h : P (s.afterHost host)) (ht : execRelease host s = .next t) : P t := by
  have hS := hP.toStable
  unfold execRelease at ht
  exact takeRange_has hS h (fun u e z k => Ev.has_releaseZone hS k _ _) (fun u e z k => Ev.has_releaseZone stable_attached k _ _) ht

theorem execClearFault_has (hP : Steady P) (host : List HostWrite) (h : P (s.afterHost host)) (ht : execClearFault host s = .next t) : P t := by
  have hS := hP.toStable
  unfold execClearFault at ht
  exact takeRange_has hS h (fun u e z k => Ev.has_clearZone hS k _ _) (fun u e z k => Ev.has_clearZone stable_attached k _ _) ht

theorem execAbort_has (hP : Steady P) (host : List HostWrite) (h : P (s.afterHost host)) (ht : execAbort host s = .next t) : P t := by
  have hS := hP.toStable
  unfold execAbort at ht
  refine takeOrder_has hS h (fun a slot e he ha => Ev.has_onUnit hS he ha _ _ fun u => ?_) ht
  split
  · exact Ev.has_refuse hS he ha _ _
  · exact Ev.has_finish hS (Ev.has_abortUnit hP he _) (Ev.has_abortUnit steady_attached (show e.Has _ from ha) _) _ _ _

theorem execPreset_has (hP : Steady P) (host : List HostWrite) (h : P (s.afterHost host)) (ht : execPreset host s = .next t) : P t := by
  have hS := hP.toStable
  unfold execPreset at ht
  refine takeOrder_has hS h (fun a slot e he ha => Ev.has_onDefined hS he ha _ _ fun u c => ?_) ht
  split
  · exact Ev.has_refuse hS he ha _ _
  · split
    · exact Ev.has_refuse hS he ha _ _
    · split
      · exact Ev.has_refuse hS he ha _ _
      · exact Ev.has_startOrWait hS (Ev.has_updUnit hS (Ev.has_supersede hS he _) _ _)
          (by exact Ev.has_supersede stable_attached (show e.Has _ from ha) _) _ _ _

theorem execTrim_has (hP : Steady P) (host : List HostWrite) (h : P (s.afterHost host)) (ht : execTrim host s = .next t) : P t := by
  have hS := hP.toStable
  unfold execTrim at ht
  refine takeOrder_has hS h (fun a slot e he ha => Ev.has_onDefined hS he ha _ _ fun u c => ?_) ht
  split
  · exact Ev.has_refuse hS he ha _ _
  · split
    · exact Ev.has_refuse hS he ha _ _
    · exact Ev.has_startOrWait hS (Ev.has_supersede hS he _)
        (by exact Ev.has_supersede stable_attached (show e.Has _ from ha) _) _ _ _

theorem execSweep_has (hP : Steady P) (host : List HostWrite) (h : P (s.afterHost host)) (ht : execSweep host s = .next t) : P t := by
  have hS := hP.toStable
  unfold execSweep at ht
  refine takeOrder_has hS h (fun a slot e he ha => Ev.has_onDefined hS he ha _ _ fun u c => ?_) ht
  split
  · exact Ev.has_refuse hS he ha _ _
  · split
    · exact Ev.has_refuse hS he ha _ _
    · exact Ev.has_startOrWait hS (Ev.has_supersede hS he _)
        (by exact Ev.has_supersede stable_attached (show e.Has _ from ha) _) _ _ _

theorem execZero_has (hP : Steady P) (host : List HostWrite) (h : P (s.afterHost host)) (ht : execZero host s = .next t) : P t := by
  have hS := hP.toStable
  unfold execZero at ht
  refine takeOrder_has hS h (fun a slot e he ha => Ev.has_onDefined hS he ha _ _ fun u c => ?_) ht
  split
  · exact Ev.has_refuse hS he ha _ _
  · split
    · exact Ev.has_refuse hS he ha _ _
    · exact Ev.has_startNow hS he ha _ _ _

theorem execLinePowerOn_has (hP : Steady P) (host : List HostWrite) (h : P (s.afterHost host)) (ht : execLinePowerOn host s = .next t) : P t := by
  have hS := hP.toStable
  unfold execLinePowerOn at ht
  exact takeOrder_has hS h (fun a slot e he ha => Ev.has_linePower hS he ha _) ht

theorem execLinePowerOff_has (hP : Steady P) (host : List HostWrite) (h : P (s.afterHost host)) (ht : execLinePowerOff host s = .next t) : P t := by
  have hS := hP.toStable
  unfold execLinePowerOff at ht
  exact takeOrder_has hS h (fun a slot e he ha => Ev.has_linePower hS he ha _) ht

theorem execCheckLines_has (hP : Steady P) (host : List HostWrite) (h : P (s.afterHost host)) (ht : execCheckLines host s = .next t) : P t := by
  have hS := hP.toStable
  unfold execCheckLines at ht
  refine takeOrder_has hS h (fun a slot e he ha => ?_) ht
  split
  · split
    · exact Ev.has_refuse hS he ha _ _
    · split
      · exact Ev.has_refuse hS (Ev.has_clearResults hS he _ _) (by exact ha) _ _
      · exact Ev.has_refuse hS he ha _ _
      · exact Ev.has_startCheck hP he ha _ _ _
  · exact Ev.has_refuse hS he ha _ _

theorem execWaitingOrderStart_has (hP : Steady P) (u : UnitNo) (h : P s) (ht : execWaitingOrderStart u s = .next t) : P t := by
  have hS := hP.toStable
  have h0 : Ev.Has P (Ev.ofState s.writesDone) := hS.unfinished _ _ h
  unfold execWaitingOrderStart at ht
  refine act_has hS ?_ ht
  try dsimp only
  split
  · split
    · exact Ev.has_startWaiting hS h0 _ _
    · exact h0
  · exact h0

theorem execStartTimerExpiry_has (hP : Steady P) (n : LineNo) (h : P s) (ht : execStartTimerExpiry n s = .next t) : P t := by
  have hS := hP.toStable
  have h0 : Ev.Has P (Ev.ofState s.writesDone) := hS.unfinished _ _ h
  unfold execStartTimerExpiry at ht
  refine act_has hS ?_ ht
  try dsimp only
  split
  · exact Ev.has_startTimerExpiry hS h0 _
  · exact h0

theorem execLineCycle_has (hP : Steady P) (n : LineNo) (h : P s) (ht : execLineCycle n s = .next t) : P t := by
  have hS := hP.toStable
  have h0 : Ev.Has P (Ev.ofState s.writesDone) := hS.unfinished _ _ h
  unfold execLineCycle at ht
  refine act_has hS ?_ ht
  try dsimp only
  split
  · exact Ev.has_updLine hS h0 _ _
  · exact h0

theorem execReplySlot_has (hP : Steady P) (n : LineNo) (r : Reception) (h : P s) (ht : execReplySlot n r s = .next t) : P t := by
  have hS := hP.toStable
  have h0 : Ev.Has P (Ev.ofState s.writesDone) := hS.unfinished _ _ h
  unfold execReplySlot at ht
  refine act_has hS ?_ ht
  try dsimp only
  split
  · exact Ev.has_judge hS h0 _ _ _
  · exact h0

theorem execMoveTimeout_has (hP : Steady P) (u : UnitNo) (z : ZoneNo) (h : P s) (ht : execMoveTimeout u z s = .next t) : P t := by
  have hS := hP.toStable
  have h0 : Ev.Has P (Ev.ofState s.writesDone) := hS.unfinished _ _ h
  unfold execMoveTimeout at ht
  refine act_has hS ?_ ht
  try dsimp only
  split
  · exact Ev.has_stallZone hS h0 _ _
  · exact h0

theorem execSweepTimeout_has (hP : Steady P) (n : LineNo) (h : P s) (ht : execSweepTimeout n s = .next t) : P t := by
  have hS := hP.toStable
  have h0 : Ev.Has P (Ev.ofState s.writesDone) := hS.unfinished _ _ h
  unfold execSweepTimeout at ht
  refine act_has hS ?_ ht
  try dsimp only
  split
  · exact Ev.has_endSweepFault hS h0 _
  · exact h0

theorem execOvercurrentSense_has (hP : Steady P) (n : LineNo) (h : P s) (ht : execOvercurrentSense n s = .next t) : P t := by
  have hS := hP.toStable
  have h0 : Ev.Has P (Ev.ofState s.writesDone) := hS.unfinished _ _ h
  unfold execOvercurrentSense at ht
  exact act_has hS (Ev.has_overcurrent hP h0 _) ht

theorem execCheckPhaseExpiry_has (hP : Steady P) (a b : Bool) (h : P s) (ht : execCheckPhaseExpiry a b s = .next t) : P t := by
  have hS := hP.toStable
  have h0 : Ev.Has P (Ev.ofState s.writesDone) := hS.unfinished _ _ h
  unfold execCheckPhaseExpiry at ht
  exact act_has hS (Ev.has_checkPhaseExpiry hP h0 _ _) ht

theorem execScanOpen_has (hP : Steady P) (host : List HostWrite) (n : BitVec 16) (b : Sheet) (h : P (s.afterHost host)) (ht : execScanOpen host n b s = .next t) : P t := by
  have hS := hP.toStable
  have h0 : Ev.Has P ((Ev.ofState s.writesDone).hostWrites host) := hS.unfinished _ _ h
  unfold execScanOpen at ht
  exact act_has hS (Ev.has_scanOpen hP h0 _ _) ht

theorem execUnitBlock_has (hP : Steady P) (u : BitVec 8) (l : List Entry) (h : P s) (ht : execUnitBlock u l s = .next t) : P t := by
  have hS := hP.toStable
  have h0 : Ev.Has P (Ev.ofState s.writesDone) := hS.unfinished _ _ h
  unfold execUnitBlock at ht
  exact act_has hS (Ev.has_unitBlock hP h0 _ _) ht

theorem execScanClose_has (hP : Steady P) (host : List HostWrite) (w : Word) (h : P (s.afterHost host)) (ht : execScanClose host w s = .next t) : P t := by
  have hS := hP.toStable
  have h0 : Ev.Has P ((Ev.ofState s.writesDone).hostWrites host) := hS.unfinished _ _ h
  unfold execScanClose at ht
  exact act_has hS (Ev.has_scanClose hP h0 _) ht

theorem execUnreadableFrame_has (hP : Steady P) (host : List HostWrite) (h : P (s.afterHost host)) (ht : execUnreadableFrame host s = .next t) : P t := by
  have hS := hP.toStable
  have h0 : Ev.Has P ((Ev.ofState s.writesDone).hostWrites host) := hS.unfinished _ _ h
  unfold execUnreadableFrame at ht
  exact act_has hS (f := fun e => (e.hostWrites host).unreadable) (Ev.has_unreadable hP h0) ht

theorem execScanTimeout_has (hP : Steady P) (host : List HostWrite) (h : P (s.afterHost host)) (ht : execScanTimeout host s = .next t) : P t := by
  have hS := hP.toStable
  have h0 : Ev.Has P ((Ev.ofState s.writesDone).hostWrites host) := hS.unfinished _ _ h
  unfold execScanTimeout at ht
  refine act_has hS ?_ ht
  try dsimp only
  have h1 : Ev.Has P ((Ev.ofState s.writesDone).hostWrites host) := h0
  split
  · split
    · exact Ev.has_faultScan hP h1 _ _
    · exact h1
  · exact h1

/-- Every command keeps every steady property that holds once the host's writes have landed, but for those that set the part
state, clear the machine or load a curve. -/
theorem exec_has (hP : Steady P) {c : Instr} (hc : c.setsPart = false) (h : P (s.afterHost c.host)) (ht : exec c s = .next t) :
    P t := by
  cases c <;> simp only [Instr.setsPart, Bool.true_eq_false] at hc <;>
    dsimp only [Instr.host, State.afterHost, Memory.hostWrites, List.foldl_nil] at h
  case noticeWrite v => exact execNoticeWrite_has hP v h ht
  case registerWriteIgnored r v => exact execRegisterWriteIgnored_has hP r v h ht
  case sheetMark => exact execSheetMark_has hP h ht
  case intervalExpiry => exact execIntervalExpiry_has hP h ht
  case runTimerExpiry => exact execRunTimerExpiry_has hP h ht
  case impressionChange b => exact execImpressionChange_has hP b h ht
  case orderScan host => exact execOrderScan_has hP host h ht
  case unknownKind host => exact execUnknownKind_has hP host h ht
  case defineUnit host => exact execDefineUnit_has hP host h ht
  case setLoop host => exact execSetLoop_has hP host h ht
  case setTiming host => exact execSetTiming_has hP host h ht
  case setWatch host => exact execSetWatch_has hP host h ht
  case setNotices host => exact execSetNotices_has hP host h ht
  case snapshot host => exact execSnapshot_has hP host h ht
  case intakeOn host => exact execIntakeOn_has hP host h ht
  case intakeOff host => exact execIntakeOff_has hP host h ht
  case hold host => exact execHold_has hP host h ht
  case release host => exact execRelease_has hP host h ht
  case clearFault host => exact execClearFault_has hP host h ht
  case abort host => exact execAbort_has hP host h ht
  case preset host => exact execPreset_has hP host h ht
  case trim host => exact execTrim_has hP host h ht
  case sweep host => exact execSweep_has hP host h ht
  case zero host => exact execZero_has hP host h ht
  case linePowerOn host => exact execLinePowerOn_has hP host h ht
  case linePowerOff host => exact execLinePowerOff_has hP host h ht
  case checkLines host => exact execCheckLines_has hP host h ht
  case waitingOrderStart u => exact execWaitingOrderStart_has hP u h ht
  case startTimerExpiry n => exact execStartTimerExpiry_has hP n h ht
  case lineCycle n => exact execLineCycle_has hP n h ht
  case replySlot n r => exact execReplySlot_has hP n r h ht
  case moveTimeout u z => exact execMoveTimeout_has hP u z h ht
  case sweepTimeout n => exact execSweepTimeout_has hP n h ht
  case overcurrentSense n => exact execOvercurrentSense_has hP n h ht
  case checkPhaseExpiry a b => exact execCheckPhaseExpiry_has hP a b h ht
  case scanOpen host n b => exact execScanOpen_has hP host n b h ht
  case unitBlock u l => exact execUnitBlock_has hP u l h ht
  case scanClose host w => exact execScanClose_has hP host w h ht
  case unreadableFrame host => exact execUnreadableFrame_has hP host h ht
  case scanTimeout host => exact execScanTimeout_has hP host h ht

end Sys2Proof.Machine
end

