-- ==== Sys2Proof/Laws/PerInstr.lean ====
section
/-! SUPPORT. A family of lemmas with one for each command: when a command is well formed. -/

namespace Sys2Proof.Laws.Formed

/-- A command is well formed exactly when it is the row it is named for: a COMMAND_INVALID_VALUE carries none of the values that
name a register command (R155, 11.2), and a UNIT_BLOCK carries 1 to 64 entries (R108). -/
def Statement (i : Instr) : Prop :=
  i.wellFormed = true ↔ (∀ v, i = .commandInvalidValue v → v ≠ 1 ∧ v ≠ 2 ∧ v ≠ 3)
    ∧ (∀ u l, i = .unitBlock u l → 1 ≤ l.length ∧ l.length ≤ 64)

theorem attach : Statement .attach :=
  ⟨fun _ => ⟨fun _ h => (nomatch h), fun _ _ h => (nomatch h)⟩, fun _ => rfl⟩

theorem attachSuccess (host : List HostWrite) : Statement (.attachSuccess host) :=
  ⟨fun _ => ⟨fun _ h => (nomatch h), fun _ _ h => (nomatch h)⟩, fun _ => rfl⟩

theorem attachFailure (host : List HostWrite) : Statement (.attachFailure host) :=
  ⟨fun _ => ⟨fun _ h => (nomatch h), fun _ _ h => (nomatch h)⟩, fun _ => rfl⟩

theorem detach : Statement .detach :=
  ⟨fun _ => ⟨fun _ h => (nomatch h), fun _ _ h => (nomatch h)⟩, fun _ => rfl⟩

theorem reset : Statement .reset :=
  ⟨fun _ => ⟨fun _ h => (nomatch h), fun _ _ h => (nomatch h)⟩, fun _ => rfl⟩

theorem commandInvalidValue (value : Word) : Statement (.commandInvalidValue value) := by
  simp [Statement, Instr.wellFormed, isRegisterCommand]
  tauto

theorem noticeWrite (value : Word) : Statement (.noticeWrite value) :=
  ⟨fun _ => ⟨fun _ h => (nomatch h), fun _ _ h => (nomatch h)⟩, fun _ => rfl⟩

theorem registerWriteIgnored (register : ReadOnlyRegister) (value : Word) : Statement (.registerWriteIgnored register value) :=
  ⟨fun _ => ⟨fun _ h => (nomatch h), fun _ _ h => (nomatch h)⟩, fun _ => rfl⟩

theorem resetPin (impression : Bool) : Statement (.resetPin impression) :=
  ⟨fun _ => ⟨fun _ h => (nomatch h), fun _ _ h => (nomatch h)⟩, fun _ => rfl⟩

theorem powerOn (impression : Bool) : Statement (.powerOn impression) :=
  ⟨fun _ => ⟨fun _ h => (nomatch h), fun _ _ h => (nomatch h)⟩, fun _ => rfl⟩

theorem sheetMark : Statement .sheetMark :=
  ⟨fun _ => ⟨fun _ h => (nomatch h), fun _ _ h => (nomatch h)⟩, fun _ => rfl⟩

theorem intervalExpiry : Statement .intervalExpiry :=
  ⟨fun _ => ⟨fun _ h => (nomatch h), fun _ _ h => (nomatch h)⟩, fun _ => rfl⟩

theorem runTimerExpiry : Statement .runTimerExpiry :=
  ⟨fun _ => ⟨fun _ h => (nomatch h), fun _ _ h => (nomatch h)⟩, fun _ => rfl⟩

theorem impressionChange (on : Bool) : Statement (.impressionChange on) :=
  ⟨fun _ => ⟨fun _ h => (nomatch h), fun _ _ h => (nomatch h)⟩, fun _ => rfl⟩

theorem orderScan (host : List HostWrite) : Statement (.orderScan host) :=
  ⟨fun _ => ⟨fun _ h => (nomatch h), fun _ _ h => (nomatch h)⟩, fun _ => rfl⟩

theorem unknownKind (host : List HostWrite) : Statement (.unknownKind host) :=
  ⟨fun _ => ⟨fun _ h => (nomatch h), fun _ _ h => (nomatch h)⟩, fun _ => rfl⟩

theorem defineUnit (host : List HostWrite) : Statement (.defineUnit host) :=
  ⟨fun _ => ⟨fun _ h => (nomatch h), fun _ _ h => (nomatch h)⟩, fun _ => rfl⟩

theorem loadCurve (host : List HostWrite) : Statement (.loadCurve host) :=
  ⟨fun _ => ⟨fun _ h => (nomatch h), fun _ _ h => (nomatch h)⟩, fun _ => rfl⟩

theorem setLoop (host : List HostWrite) : Statement (.setLoop host) :=
  ⟨fun _ => ⟨fun _ h => (nomatch h), fun _ _ h => (nomatch h)⟩, fun _ => rfl⟩

theorem setTiming (host : List HostWrite) : Statement (.setTiming host) :=
  ⟨fun _ => ⟨fun _ h => (nomatch h), fun _ _ h => (nomatch h)⟩, fun _ => rfl⟩

theorem setWatch (host : List HostWrite) : Statement (.setWatch host) :=
  ⟨fun _ => ⟨fun _ h => (nomatch h), fun _ _ h => (nomatch h)⟩, fun _ => rfl⟩

theorem setNotices (host : List HostWrite) : Statement (.setNotices host) :=
  ⟨fun _ => ⟨fun _ h => (nomatch h), fun _ _ h => (nomatch h)⟩, fun _ => rfl⟩

theorem snapshot (host : List HostWrite) : Statement (.snapshot host) :=
  ⟨fun _ => ⟨fun _ h => (nomatch h), fun _ _ h => (nomatch h)⟩, fun _ => rfl⟩

theorem intakeOn (host : List HostWrite) : Statement (.intakeOn host) :=
  ⟨fun _ => ⟨fun _ h => (nomatch h), fun _ _ h => (nomatch h)⟩, fun _ => rfl⟩

theorem intakeOff (host : List HostWrite) : Statement (.intakeOff host) :=
  ⟨fun _ => ⟨fun _ h => (nomatch h), fun _ _ h => (nomatch h)⟩, fun _ => rfl⟩

theorem hold (host : List HostWrite) : Statement (.hold host) :=
  ⟨fun _ => ⟨fun _ h => (nomatch h), fun _ _ h => (nomatch h)⟩, fun _ => rfl⟩

theorem release (host : List HostWrite) : Statement (.release host) :=
  ⟨fun _ => ⟨fun _ h => (nomatch h), fun _ _ h => (nomatch h)⟩, fun _ => rfl⟩

theorem clearFault (host : List HostWrite) : Statement (.clearFault host) :=
  ⟨fun _ => ⟨fun _ h => (nomatch h), fun _ _ h => (nomatch h)⟩, fun _ => rfl⟩

theorem abort (host : List HostWrite) : Statement (.abort host) :=
  ⟨fun _ => ⟨fun _ h => (nomatch h), fun _ _ h => (nomatch h)⟩, fun _ => rfl⟩

theorem preset (host : List HostWrite) : Statement (.preset host) :=
  ⟨fun _ => ⟨fun _ h => (nomatch h), fun _ _ h => (nomatch h)⟩, fun _ => rfl⟩

theorem trim (host : List HostWrite) : Statement (.trim host) :=
  ⟨fun _ => ⟨fun _ h => (nomatch h), fun _ _ h => (nomatch h)⟩, fun _ => rfl⟩

theorem sweep (host : List HostWrite) : Statement (.sweep host) :=
  ⟨fun _ => ⟨fun _ h => (nomatch h), fun _ _ h => (nomatch h)⟩, fun _ => rfl⟩

theorem zero (host : List HostWrite) : Statement (.zero host) :=
  ⟨fun _ => ⟨fun _ h => (nomatch h), fun _ _ h => (nomatch h)⟩, fun _ => rfl⟩

theorem linePowerOn (host : List HostWrite) : Statement (.linePowerOn host) :=
  ⟨fun _ => ⟨fun _ h => (nomatch h), fun _ _ h => (nomatch h)⟩, fun _ => rfl⟩

theorem linePowerOff (host : List HostWrite) : Statement (.linePowerOff host) :=
  ⟨fun _ => ⟨fun _ h => (nomatch h), fun _ _ h => (nomatch h)⟩, fun _ => rfl⟩

theorem checkLines (host : List HostWrite) : Statement (.checkLines host) :=
  ⟨fun _ => ⟨fun _ h => (nomatch h), fun _ _ h => (nomatch h)⟩, fun _ => rfl⟩

theorem waitingOrderStart (unit : UnitNo) : Statement (.waitingOrderStart unit) :=
  ⟨fun _ => ⟨fun _ h => (nomatch h), fun _ _ h => (nomatch h)⟩, fun _ => rfl⟩

theorem startTimerExpiry (line : LineNo) : Statement (.startTimerExpiry line) :=
  ⟨fun _ => ⟨fun _ h => (nomatch h), fun _ _ h => (nomatch h)⟩, fun _ => rfl⟩

theorem lineCycle (line : LineNo) : Statement (.lineCycle line) :=
  ⟨fun _ => ⟨fun _ h => (nomatch h), fun _ _ h => (nomatch h)⟩, fun _ => rfl⟩

theorem replySlot (line : LineNo) (input : Reception) : Statement (.replySlot line input) :=
  ⟨fun _ => ⟨fun _ h => (nomatch h), fun _ _ h => (nomatch h)⟩, fun _ => rfl⟩

theorem moveTimeout (unit : UnitNo) (zone : ZoneNo) : Statement (.moveTimeout unit zone) :=
  ⟨fun _ => ⟨fun _ h => (nomatch h), fun _ _ h => (nomatch h)⟩, fun _ => rfl⟩

theorem sweepTimeout (line : LineNo) : Statement (.sweepTimeout line) :=
  ⟨fun _ => ⟨fun _ h => (nomatch h), fun _ _ h => (nomatch h)⟩, fun _ => rfl⟩

theorem overcurrentSense (line : LineNo) : Statement (.overcurrentSense line) :=
  ⟨fun _ => ⟨fun _ h => (nomatch h), fun _ _ h => (nomatch h)⟩, fun _ => rfl⟩

theorem checkPhaseExpiry (senseA senseB : Bool) : Statement (.checkPhaseExpiry senseA senseB) :=
  ⟨fun _ => ⟨fun _ h => (nomatch h), fun _ _ h => (nomatch h)⟩, fun _ => rfl⟩

theorem scanOpen (host : List HostWrite) (number : BitVec 16) (sheet : Sheet) : Statement (.scanOpen host number sheet) :=
  ⟨fun _ => ⟨fun _ h => (nomatch h), fun _ _ h => (nomatch h)⟩, fun _ => rfl⟩

theorem unitBlock (unit : BitVec 8) (entries : List Entry) : Statement (.unitBlock unit entries) := by
  have h : (Instr.unitBlock unit entries).wellFormed = true ↔ 1 ≤ entries.length ∧ entries.length ≤ 64 := by
    cases entries <;> simp [Instr.wellFormed, readableBlock]
  refine h.trans ⟨fun k => ⟨fun _ e => (nomatch e), fun _ _ e => ?_⟩, fun k => k.2 unit entries rfl⟩
  cases e
  exact k

theorem scanClose (host : List HostWrite) (checkWord : Word) : Statement (.scanClose host checkWord) :=
  ⟨fun _ => ⟨fun _ h => (nomatch h), fun _ _ h => (nomatch h)⟩, fun _ => rfl⟩

theorem unreadableFrame (host : List HostWrite) : Statement (.unreadableFrame host) :=
  ⟨fun _ => ⟨fun _ h => (nomatch h), fun _ _ h => (nomatch h)⟩, fun _ => rfl⟩

theorem scanTimeout (host : List HostWrite) : Statement (.scanTimeout host) :=
  ⟨fun _ => ⟨fun _ h => (nomatch h), fun _ _ h => (nomatch h)⟩, fun _ => rfl⟩

end Sys2Proof.Laws.Formed
end

