-- ==== Sys2Proof/Laws/Settle.lean ====
section
/-! SUPPORT. What the end of an event leaves. The arbiter changes zone states and lines alone (`GrantsOnly`); the completion
tests and the writes change tracked orders, the ring's finished slots, notices, update counts and the part's own words of the
exchange memory alone (`EndsOnly`). -/

namespace Sys2Proof.Machine

/-! ### The arbiter -/

/-- The fields of a unit record that neither the arbiter nor a move touches. -/
structure UnitRec.SameOrder (r r' : UnitRec) : Prop where
  config : r'.config = r.config
  currentSweep : r'.currentSweep = r.currentSweep
  loopOn : r'.loopOn = r.loopOn
  loopParams : r'.loopParams = r.loopParams
  tracked : r'.tracked = r.tracked
  waiting : r'.waiting = r.waiting
  staged : r'.staged = r.staged
  sweepFault : r'.sweepFault = r.sweepFault

/-- What a run of the arbiter leaves. -/
structure Ev.GrantsOnly (d e : Ev) : Prop where
  curves : e.curves = d.curves
  check : e.check = d.check
  intake : e.intake = d.intake
  timing : e.timing = d.timing
  port : e.port = d.port
  mem : e.mem = d.mem
  scanPulses : e.scanPulses = d.scanPulses
  freeDraws : e.freeDraws = d.freeDraws
  pending : e.pending = d.pending
  start : e.start = d.start
  unit : ∀ u, (d.unit u).SameOrder (e.unit u)
  zone : ∀ u z, (d.zone u z).SameAims (e.zone u z)
  line : ∀ n, (d.line n).SameService (e.line n)

variable {d e : Ev}

theorem UnitRec.SameOrder.refl (r : UnitRec) : r.SameOrder r := ⟨rfl, rfl, rfl, rfl, rfl, rfl, rfl, rfl⟩
theorem Zone.SameAims.refl (z : Zone) : z.SameAims z := ⟨rfl, rfl, rfl, rfl, rfl, rfl, rfl⟩
theorem Line.SameService.refl (l : Line) : l.SameService l := ⟨rfl, rfl, rfl, rfl, rfl, rfl, rfl, rfl, rfl, rfl⟩

theorem UnitRec.SameOrder.trans {a b c : UnitRec} (h : a.SameOrder b) (k : b.SameOrder c) : a.SameOrder c :=
  ⟨k.1.trans h.1, k.2.trans h.2, k.3.trans h.3, k.4.trans h.4, k.5.trans h.5, k.6.trans h.6, k.7.trans h.7, k.8.trans h.8⟩

theorem Zone.SameAims.trans {a b c : Zone} (h : a.SameAims b) (k : b.SameAims c) : a.SameAims c :=
  ⟨k.1.trans h.1, k.2.trans h.2, k.3.trans h.3, k.4.trans h.4, k.5.trans h.5, k.6.trans h.6, k.7.trans h.7⟩

theorem Line.SameService.trans {a b c : Line} (h : a.SameService b) (k : b.SameService c) : a.SameService c :=
  ⟨k.1.trans h.1, k.2.trans h.2, k.3.trans h.3, k.4.trans h.4, k.5.trans h.5, k.6.trans h.6, k.7.trans h.7, k.8.trans h.8,
    k.9.trans h.9, k.10.trans h.10⟩

theorem Ev.GrantsOnly.refl (e : Ev) : e.GrantsOnly e :=
  ⟨rfl, rfl, rfl, rfl, rfl, rfl, rfl, rfl, rfl, rfl, fun _ => .refl _, fun _ _ => .refl _, fun _ => .refl _⟩

theorem Ev.GrantsOnly.trans {a b c : Ev} (h : a.GrantsOnly b) (k : b.GrantsOnly c) : a.GrantsOnly c :=
  ⟨k.1.trans h.1, k.2.trans h.2, k.3.trans h.3, k.4.trans h.4, k.5.trans h.5, k.6.trans h.6, k.7.trans h.7, k.8.trans h.8,
    k.9.trans h.9, k.10.trans h.10, fun u => (h.unit u).trans (k.unit u), fun u z => (h.zone u z).trans (k.zone u z),
    fun n => (h.line n).trans (k.line n)⟩

theorem Ev.grantsOnly_updZone (u : UnitNo) (z : ZoneNo) (f : Zone → Zone) (hf : ∀ r : Zone, r.SameAims (f r)) :
    e.GrantsOnly (e.updZone u z f) := by
  refine ⟨rfl, rfl, rfl, rfl, rfl, rfl, rfl, rfl, rfl, rfl, fun v => ?_, fun v y => ?_, fun n => .refl _⟩
  · rw [Ev.updZone, Ev.updUnit_unit]
    split
    · exact ⟨rfl, rfl, rfl, rfl, rfl, rfl, rfl, rfl⟩
    · exact .refl _
  · rw [Ev.updZone_zone]
    split
    · exact hf _
    · exact .refl _

theorem Ev.grantsOnly_updLine (n : LineNo) (f : Line → Line) (hf : ∀ l : Line, l.SameService (f l)) : e.GrantsOnly (e.updLine n f) := by
  refine ⟨rfl, rfl, rfl, rfl, rfl, rfl, rfl, rfl, rfl, rfl, fun v => .refl _, fun v y => .refl _, fun m => ?_⟩
  rw [Ev.updLine_line]
  split
  · exact hf _
  · exact .refl _

/-- The event's own accounts do not matter to it. -/
theorem Ev.GrantsOnly.congr {e' : Ev} (h : d.GrantsOnly e) (k : e'.toState = e.toState) (k' : e'.start = e.start) :
    d.GrantsOnly e' := by
  cases e; cases e'
  dsimp only at k k'
  subst k k'
  exact ⟨h.1, h.2, h.3, h.4, h.5, h.6, h.7, h.8, h.9, h.10, h.11, h.12, h.13⟩

theorem Ev.grantsOnly_counts (g : Nat) (p : LineNo) :
    e.GrantsOnly { e with partGrants := g, pointer := p } :=
  ⟨rfl, rfl, rfl, rfl, rfl, rfl, rfl, rfl, rfl, rfl, fun _ => .refl _, fun _ _ => .refl _, fun _ => .refl _⟩

theorem Ev.grantsOnly_releaseGrant (u : UnitNo) (z : ZoneNo) : e.GrantsOnly (e.releaseGrant u z) := by
  unfold Ev.releaseGrant
  dsimp only
  have h1 : e.GrantsOnly (e.updZone u z fun r => { r with commanded := none, moveKind := none, moveTag := none, moveTimer := none }) :=
    Ev.grantsOnly_updZone u z _ fun r => ⟨rfl, rfl, rfl, rfl, rfl, rfl, rfl⟩
  have h2 := h1.trans (Ev.grantsOnly_updLine u (fun l => { l with grants := l.grants - 1 })
    fun l => ⟨rfl, rfl, rfl, rfl, rfl, rfl, rfl, rfl, rfl, rfl⟩)
  exact h2.trans ⟨rfl, rfl, rfl, rfl, rfl, rfl, rfl, rfl, rfl, rfl, fun _ => .refl _, fun _ _ => .refl _, fun _ => .refl _⟩

theorem Ev.grantsOnly_changeState (u : UnitNo) (z : ZoneNo) (new : ZoneState) : e.GrantsOnly (e.changeState u z new) := by
  unfold Ev.changeState
  dsimp only
  split
  · exact .refl _
  · have h1 : e.GrantsOnly (if (e.zone u z).state = .moving then e.releaseGrant u z else e) := by
      split
      · exact Ev.grantsOnly_releaseGrant u z
      · exact .refl _
    have h2 : ∀ f : Ev, f.GrantsOnly (if (e.zone u z).state = .pending then f.dropEntry u z else f) := by
      intro f
      split
      · exact Ev.grantsOnly_updLine u _ fun l => ⟨rfl, rfl, rfl, rfl, rfl, rfl, rfl, rfl, rfl, rfl⟩
      · exact .refl _
    exact ((h1.trans (h2 _)).trans (Ev.grantsOnly_updZone u z (fun r =>
      { r with state := new, faultCause := none, samples := if (e.zone u z).state = .rest then [] else r.samples })
      fun r => ⟨rfl, rfl, rfl, rfl, rfl, rfl, rfl⟩)).congr rfl rfl

theorem Ev.grantsOnly_tagTaken (n : LineNo) (t : Tag) : e.GrantsOnly (e.tagTaken n t) :=
  Ev.grantsOnly_updLine n _ fun _ => ⟨rfl, rfl, rfl, rfl, rfl, rfl, rfl, rfl, rfl, rfl⟩

theorem Ev.grantsOnly_updQueue (n : LineNo) (f : CommandQueue → CommandQueue) : e.GrantsOnly (e.updQueue n f) :=
  Ev.grantsOnly_updLine n _ fun _ => ⟨rfl, rfl, rfl, rfl, rfl, rfl, rfl, rfl, rfl, rfl⟩

theorem Ev.grantsOnly_sendMove (u : UnitNo) (z : ZoneNo) (p k : Nat) : e.GrantsOnly (e.sendMove u z p k) := by
  unfold Ev.sendMove
  dsimp only
  exact ((Ev.grantsOnly_tagTaken u _).trans (Ev.grantsOnly_updQueue u _)).trans
    (Ev.grantsOnly_updZone u z _ fun _ => ⟨rfl, rfl, rfl, rfl, rfl, rfl, rfl⟩)

theorem Ev.grantsOnly_sendZero (u : UnitNo) (z : ZoneNo) : e.GrantsOnly (e.sendZero u z) := by
  unfold Ev.sendZero
  dsimp only
  exact ((Ev.grantsOnly_tagTaken u _).trans (Ev.grantsOnly_updQueue u _)).trans
    (Ev.grantsOnly_updZone u z _ fun _ => ⟨rfl, rfl, rfl, rfl, rfl, rfl, rfl⟩)

theorem Ev.grantsOnly_grant (n : LineNo) : e.GrantsOnly (e.grant n) := by
  unfold Ev.grant
  split
  · exact .refl _
  · next p _ _ =>
    have h1 := (Ev.grantsOnly_changeState (e := e) n p.zone .moving).trans (Ev.grantsOnly_updLine n
      (fun l => { l with grants := l.grants + 1 }) fun _ => ⟨rfl, rfl, rfl, rfl, rfl, rfl, rfl, rfl, rfl, rfl⟩)
    dsimp only
    split
    · exact (h1.trans (Ev.grantsOnly_counts _ _)).trans (Ev.grantsOnly_sendMove _ _ _ _)
    · exact (h1.trans (Ev.grantsOnly_counts _ _)).trans (Ev.grantsOnly_sendZero _ _)

theorem Ev.grantsOnly_grantRounds (k : Nat) : e.GrantsOnly (Ev.grantRounds k e) := by
  induction k generalizing e with
  | zero => exact .refl _
  | succ k ih =>
    unfold Ev.grantRounds
    split
    · exact (Ev.grantsOnly_grant _).trans ih
    · exact .refl _

/-- What a run of the arbiter leaves. -/
theorem Ev.grantsOnly_runArbiter : e.GrantsOnly e.runArbiter :=
  (Ev.grantsOnly_grantRounds e.waitingZones).congr rfl rfl

/-- What a due run of the arbiter leaves. -/
theorem Ev.grantsOnly_settleArbiter : e.GrantsOnly e.settleArbiter := by
  unfold Ev.settleArbiter
  split
  · exact Ev.grantsOnly_runArbiter
  · exact .refl _

theorem Ev.grantsOnly_foldl {α : Type} (f : Ev → α → Ev) (hf : ∀ (e : Ev) (x : α), e.GrantsOnly (f e x)) (l : List α) :
    e.GrantsOnly (l.foldl f e) := by
  induction l generalizing e with
  | nil => exact .refl _
  | cons x l ih => exact (hf e x).trans ih

/-! ### The tests and the writes at the end of an event -/

/-- The fields of the exchange port that the end of an event does not touch: all but the retire offset, the finished set, the
pending set and the update counts. -/
structure Port.SameCourse (p p' : Port) : Prop where
  state : p'.state = p.state
  anchor : p'.anchor = p.anchor
  detachDeferred : p'.detachDeferred = p.detachDeferred
  take : p'.take = p.take
  putValid : p'.putValid = p.putValid
  noticeOffset : p'.noticeOffset = p.noticeOffset
  scanTimer : p'.scanTimer = p.scanTimer
  fault : p'.fault = p.fault
  mask : p'.mask = p.mask
  lastFailure : p'.lastFailure = p.lastFailure
  lastOutcome : p'.lastOutcome = p.lastOutcome
  commandWord : p'.commandWord = p.commandWord
  segment : p'.segment = p.segment
  openSegment : p'.openSegment = p.openSegment
  fillSequence : p'.fillSequence = p.fillSequence
  lostScans : p'.lostScans = p.lostScans
  snapshotSheet : p'.snapshotSheet = p.snapshotSheet
  handedMarks : p'.handedMarks = p.handedMarks

theorem Port.SameCourse.refl (p : Port) : p.SameCourse p :=
  ⟨rfl, rfl, rfl, rfl, rfl, rfl, rfl, rfl, rfl, rfl, rfl, rfl, rfl, rfl, rfl, rfl, rfl, rfl⟩

theorem Port.SameCourse.trans {a b c : Port} (h : a.SameCourse b) (k : b.SameCourse c) : a.SameCourse c :=
  ⟨k.1.trans h.1, k.2.trans h.2, k.3.trans h.3, k.4.trans h.4, k.5.trans h.5, k.6.trans h.6, k.7.trans h.7,
    k.8.trans h.8, k.9.trans h.9, k.10.trans h.10, k.11.trans h.11, k.12.trans h.12, k.13.trans h.13, k.14.trans h.14,
    k.15.trans h.15, k.16.trans h.16, k.17.trans h.17, k.18.trans h.18⟩

/-- What the tests and writes at the end of an event leave. -/
structure Ev.EndsOnly (d e : Ev) : Prop where
  curves : e.curves = d.curves
  lines : e.lines = d.lines
  partGrants : e.partGrants = d.partGrants
  pointer : e.pointer = d.pointer
  check : e.check = d.check
  intake : e.intake = d.intake
  timing : e.timing = d.timing
  scanPulses : e.scanPulses = d.scanPulses
  pending : e.pending = d.pending
  unit : ∀ u, ∃ t, e.unit u = { d.unit u with tracked := t } ∧ (t = (d.unit u).tracked ∨ t = none)
  port : d.port.SameCourse e.port
  notices : d.port.notices &&& e.port.notices = d.port.notices
  mem : Memory.wf d.mem = true →
    Memory.wf e.mem = true ∧ ∀ a, ¬d.eventWord a → Memory.read e.mem a = Memory.read d.mem a

theorem Ev.EndsOnly.refl (e : Ev) : e.EndsOnly e :=
  ⟨rfl, rfl, rfl, rfl, rfl, rfl, rfl, rfl, rfl, fun _ => ⟨_, rfl, .inl rfl⟩, .refl _, by simp, fun h => ⟨h, fun _ _ => rfl⟩⟩

theorem Ev.EndsOnly.congr {e' : Ev} (h : d.EndsOnly e) (k : e'.toState = e.toState) : d.EndsOnly e' := by
  cases e; cases e'
  dsimp only at k
  subst k
  exact ⟨h.1, h.2, h.3, h.4, h.5, h.6, h.7, h.8, h.9, h.10, h.11, h.12, h.13⟩

theorem Ev.EndsOnly.draws (h : d.EndsOnly e) (k : Nat) : d.EndsOnly { e with freeDraws := k } :=
  ⟨h.1, h.2, h.3, h.4, h.5, h.6, h.7, h.8, h.9, h.10, h.11, h.12, h.13⟩

theorem Ev.EndsOnly.anchor (h : d.EndsOnly e) : e.port.anchor = d.port.anchor := h.port.anchor

theorem Ev.EndsOnly.portState (h : d.EndsOnly e) : e.port.state = d.port.state := h.port.state

/-- A tracked order still there is the one there was. -/
theorem Ev.EndsOnly.tracked (h : d.EndsOnly e) {u : UnitNo} {o : OrderRecord} (k : (e.unit u).tracked = some o) :
    (d.unit u).tracked = some o := by
  obtain ⟨t, h1, h2⟩ := h.unit u
  rw [h1] at k
  rcases h2 with rfl | rfl
  · exact k
  · cases k

/-- Words written where the end of an event may write. -/
theorem Ev.EndsOnly.writeWords (h : d.EndsOnly e) (b : Nat) (ws : List Word)
    (hb : ∀ a, b ≤ a → a < b + ws.length → d.eventWord a) : d.EndsOnly (e.writeWords b ws) := by
  refine ⟨h.1, h.2, h.3, h.4, h.5, h.6, h.7, h.8, h.9, h.10, h.11, h.12, fun hw => ?_⟩
  obtain ⟨h1, h2⟩ := h.mem hw
  refine ⟨Memory.write_wf _ _ _ h1, fun a ha => ?_⟩
  rw [Ev.writeWords_mem, Memory.read_write_outside _ _ _ _ h1, h2 a ha]
  by_contra hc
  exact ha (hb a (by omega) (by omega))

theorem Ev.EndsOnly.updPort (h : d.EndsOnly e) (f : Port → Port) (hf : e.port.SameCourse (f e.port))
    (hn : e.port.notices &&& (f e.port).notices = e.port.notices) : d.EndsOnly (e.updPort f) := by
  refine ⟨h.1, h.2, h.3, h.4, h.5, h.6, h.7, h.8, h.9, h.10, h.port.trans hf, ?_, h.13⟩
  rw [Ev.updPort_port]
  have := h.notices
  calc d.port.notices &&& (f e.port).notices = d.port.notices &&& e.port.notices &&& (f e.port).notices := by rw [this]
    _ = d.port.notices &&& (e.port.notices &&& (f e.port).notices) := by rw [BitVec.and_assoc]
    _ = d.port.notices := by rw [hn, this]

theorem Port.raise_keeps (p : Port) (n : Notice) : p.notices &&& (p.raise n).notices = p.notices := by
  simp only [Port.raise]
  ext i
  simp
  tauto

theorem Ev.EndsOnly.raise (h : d.EndsOnly e) (n : Notice) : d.EndsOnly (e.raise n) :=
  h.updPort _ ⟨rfl, rfl, rfl, rfl, rfl, rfl, rfl, rfl, rfl, rfl, rfl, rfl, rfl, rfl, rfl, rfl, rfl, rfl⟩ (Port.raise_keeps _ _)

theorem Ev.EndsOnly.writeStatus (h : d.EndsOnly e) (slot : Nat) (st : Status) (x : Detail)
    (hs : ∃ u o, (d.unit u).tracked = some o ∧ o.slot = slot) : d.EndsOnly (e.writeStatus slot st x) := by
  unfold Ev.writeStatus
  split
  · next c _ hc =>
    obtain ⟨u, o, ho, rfl⟩ := hs
    refine (h.writeWords _ _ fun a h1 h2 => ?_).writeWords _ _ fun a h1 h2 => ?_ <;>
    · refine ⟨c, h.anchor ▸ hc, .inr (.inl ⟨u, o, ho, ?_, ?_⟩)⟩ <;>
      · simp only [List.length_cons, List.length_nil] at h2
        unfold Anchor.slotWord at *
        omega
  · exact h

theorem Ev.EndsOnly.advanceRetire (h : d.EndsOnly e) (c : Anchor) (hc : e.port.anchor = some c) :
    d.EndsOnly (e.advanceRetire c) := by
  unfold Ev.advanceRetire
  dsimp only
  split
  · have h1 := (h.updPort (fun p => { p with retire := (retireWalk c.ringLength e.port.noticeOffset e.port.finished.length
        e.port.retire e.port.finished false).1, finished := (retireWalk c.ringLength e.port.noticeOffset e.port.finished.length
        e.port.retire e.port.finished false).2.1 })
        ⟨rfl, rfl, rfl, rfl, rfl, rfl, rfl, rfl, rfl, rfl, rfl, rfl, rfl, rfl, rfl, rfl, rfl, rfl⟩ (by simp)).writeWords 15 [wordOf (retireWalk c.ringLength
        e.port.noticeOffset e.port.finished.length e.port.retire e.port.finished false).1] (fun a h1 h2 => by
          refine ⟨c, h.anchor ▸ hc, .inl ?_⟩
          simp only [List.length_cons, List.length_nil] at h2
          omega)
    split
    · exact h1.raise _
    · exact h1
  · exact h

theorem Ev.EndsOnly.slotFinal (h : d.EndsOnly e) (slot : Nat) (notify : Bool) : d.EndsOnly (e.slotFinal slot notify) := by
  unfold Ev.slotFinal
  split
  · next c _ hc =>
    dsimp only
    have h1 := h.updPort (fun p => { p with finished := if p.finished.contains slot then p.finished else p.finished ++ [slot] })
      ⟨rfl, rfl, rfl, rfl, rfl, rfl, rfl, rfl, rfl, rfl, rfl, rfl, rfl, rfl, rfl, rfl, rfl, rfl⟩ (by simp)
    split
    · exact (h1.raise _).advanceRetire c hc
    · exact h1.advanceRetire c hc
  · exact h

theorem Ev.EndsOnly.clearTracked (h : d.EndsOnly e) (u : UnitNo) : d.EndsOnly (e.clearTracked u) := by
  refine ⟨h.1, h.2, h.3, h.4, h.5, h.6, h.7, h.8, h.9, fun v => ?_, h.11, h.12, h.13⟩
  obtain ⟨t, h1, h2⟩ := h.unit v
  unfold Ev.clearTracked
  rw [Ev.updUnit_unit]
  split
  · exact ⟨none, by rw [h1], .inr rfl⟩
  · exact ⟨t, h1, h2⟩

theorem Ev.EndsOnly.endTracked (h : d.EndsOnly e) (u : UnitNo) (st : Status) (c : Cause) : d.EndsOnly (e.endTracked u st c) := by
  unfold Ev.endTracked
  split
  · next o ho => exact ((h.clearTracked u).writeStatus _ _ _ ⟨u, o, h.tracked ho, rfl⟩).slotFinal _ _
  · exact h

theorem Ev.EndsOnly.testOrder (h : d.EndsOnly e) (u : UnitNo) : d.EndsOnly (e.testOrder u) := by
  unfold Ev.testOrder
  split
  · split
    · exact h.endTracked _ _ _
    · exact h
  · exact h

theorem Ev.EndsOnly.foldl {α : Type} (f : Ev → α → Ev) (hf : ∀ (e : Ev) (x : α), d.EndsOnly e → d.EndsOnly (f e x)) (l : List α)
    (h : d.EndsOnly e) : d.EndsOnly (l.foldl f e) := by
  induction l generalizing e with
  | nil => exact h
  | cons x l ih => exact ih (hf e x h)

/-- What the completion tests leave. -/
theorem Ev.EndsOnly.runTests (h : d.EndsOnly e) : d.EndsOnly e.runTests :=
  (Ev.EndsOnly.foldl _ (fun _ x k => k.testOrder x) _ h).congr rfl

theorem zoneEntries_length (r : UnitRec) : (zoneEntries r).length = 128 := by
  have : ∀ l : List Zone, (l.flatMap fun z => [zoneWord1 z, zoneWord2 z]).length = 2 * l.length := by
    intro l
    induction l with
    | nil => rfl
    | cons z l ih => simp only [List.flatMap_cons, List.length_append, ih, List.length_cons, List.length_nil]; omega
  rw [zoneEntries, this]
  simp

theorem blockWords_length (r : UnitRec) : (blockWords r).length = 129 := by simp [blockWords, zoneEntries_length]

/-- A mirror block is 130 words (R165). -/
theorem mirrorBlock_length (c : Word) (r : UnitRec) : (mirrorBlock c r).length = 130 := by simp [mirrorBlock, blockWords_length]

theorem Ev.EndsOnly.writeMirror (h : d.EndsOnly e) (c : Anchor) (hc : e.port.anchor = some c) (u : UnitNo) :
    d.EndsOnly (e.writeMirror c u) := by
  unfold Ev.writeMirror
  dsimp only
  have hb : ∀ a, c.blockBase u ≤ a → a < c.blockBase u + 130 → d.eventWord a := fun a h1 h2 => by
    refine ⟨c, h.anchor ▸ hc, .inr (.inr (.inl ?_))⟩
    have hu := u.isLt
    unfold Anchor.blockBase at h1 h2
    simp only [Config.mirrorWords, Config.blockWords] at *
    omega
  exact (((h.updPort (fun p => { p with updateCounts := p.updateCounts.set u (e.port.updateCounts[u] + 2) })
    ⟨rfl, rfl, rfl, rfl, rfl, rfl, rfl, rfl, rfl, rfl, rfl, rfl, rfl, rfl, rfl, rfl, rfl, rfl⟩ (by simp)).writeWords _ _
      fun a h1 h2 => hb a h1 (by simp only [List.length_cons, List.length_nil] at h2; omega)).writeWords _ _
      fun a h1 h2 => hb a (by omega) (by rw [blockWords_length] at h2; omega)).writeWords _ _
      fun a h1 h2 => hb a h1 (by simp only [List.length_cons, List.length_nil] at h2; omega)

theorem Ev.EndsOnly.statusWords (h : d.EndsOnly e) (c : Anchor) (hc : e.port.anchor = some c) (k : Nat) (ws : List Word)
    (hk : k + ws.length ≤ 64) : d.EndsOnly (e.writeWords (c.statusBase + k) ws) := by
  refine h.writeWords _ _ fun a h1 h2 => ⟨c, h.anchor ▸ hc, .inr (.inr (.inr ?_))⟩
  simp only [Config.statusWords]
  omega

theorem Ev.EndsOnly.writeIf (h : d.EndsOnly e) (c : Anchor) (hc : e.port.anchor = some c) (b : Bool) (k : Nat) (w : Word)
    (hk : k < 64) : d.EndsOnly (e.writeIf b (c.statusBase + k) w) := by
  unfold Ev.writeIf
  split
  · exact h.statusWords c hc k [w] (by simp; omega)
  · exact h

theorem Ev.EndsOnly.writeWatch (h : d.EndsOnly e) (c : Anchor) (hc : e.port.anchor = some c) (k : Fin 4) :
    d.EndsOnly (e.writeWatch c.statusBase k) := by
  have hk := k.isLt
  unfold Ev.writeWatch
  dsimp only
  have e1 : c.statusBase + 36 + 3 * k.val = c.statusBase + (36 + 3 * k.val) := by omega
  have e2 : c.statusBase + 36 + 3 * k.val + 1 = c.statusBase + (37 + 3 * k.val) := by omega
  have e3 : c.statusBase + 36 + 3 * k.val + 2 = c.statusBase + (38 + 3 * k.val) := by omega
  rw [e1, Nat.add_assoc c.statusBase, Nat.add_assoc c.statusBase]
  refine Ev.EndsOnly.writeIf (Ev.EndsOnly.writeIf (Ev.EndsOnly.writeIf h c hc _ _ _ (by omega)) c ?_ _ _ _ (by omega)) c ?_ _ _ _
    (by omega)
  · rw [Ev.writeIf_port]; exact hc
  · rw [Ev.writeIf_port, Ev.writeIf_port]; exact hc

theorem Ev.EndsOnly.writeChangedStatus (h : d.EndsOnly e) (c : Anchor) (hc : e.port.anchor = some c) :
    d.EndsOnly (e.writeChangedStatus c) := by
  unfold Ev.writeChangedStatus
  dsimp only
  have hw : ∀ l : List (Fin 4), ∀ e : Ev, d.EndsOnly e → e.port.anchor = some c →
      d.EndsOnly (l.foldl (fun e k => e.writeWatch c.statusBase k) e) := by
    intro l
    induction l with
    | nil => intro e h _; exact h
    | cons k l ih => intro e h hc; exact ih _ (h.writeWatch c hc k) (by rw [Ev.writeWatch_port]; exact hc)
  have h1 := h.writeIf c hc (statusWord1 e.start != statusWord1 e.toState) 1 (statusWord1 e.toState) (by omega)
  have h2 := fun b w => h1.writeIf c (by rw [Ev.writeIf_port]; exact hc) b 2 w (by omega)
  have h3 := fun b w b' w' => (h2 b w).writeIf c (by rw [Ev.writeIf_port, Ev.writeIf_port]; exact hc) b' 3 w' (by omega)
  exact (hw (ascending 4) _ (h3 _ _ _ _) (by simp only [Ev.writeIf_port]; exact hc)).draws _

theorem Ev.EndsOnly.writeLine (h : d.EndsOnly e) (c : Anchor) (hc : e.port.anchor = some c) (n : LineNo) :
    d.EndsOnly (e.writeLine c n) := by
  have hn := n.isLt
  unfold Ev.writeLine
  rw [Nat.add_assoc]
  exact h.statusWords c hc _ _ (by simp [lineEntry]; omega)

/-- What the writes at the end of an event leave. -/
theorem Ev.EndsOnly.flush (h : d.EndsOnly e) : d.EndsOnly e.flush := by
  unfold Ev.flush
  split
  · next c _ hc =>
    have hm : ∀ l : List UnitNo, ∀ e : Ev, d.EndsOnly e → e.port.anchor = some c →
        d.EndsOnly (l.foldl (fun e u => e.writeMirror c u) e) ∧ (l.foldl (fun e u => e.writeMirror c u) e).port.anchor = some c := by
      intro l
      induction l with
      | nil => intro e h k; exact ⟨h, k⟩
      | cons u l ih => intro e h k; exact ih _ (h.writeMirror c k u) k
    have hl : ∀ l : List LineNo, ∀ e : Ev, d.EndsOnly e → e.port.anchor = some c →
        d.EndsOnly (l.foldl (fun e n => e.writeLine c n) e) := by
      intro l
      induction l with
      | nil => intro e h _; exact h
      | cons n l ih => intro e h k; exact ih _ (h.writeLine c k n) k
    have h1 := hm (inOrder e.mirrorDue) e h hc
    have h2 := h1.1.writeChangedStatus c h1.2
    exact (hl (inOrder e.lineDue) _ h2 (by rw [Ev.writeChangedStatus_port]; exact h1.2)).congr rfl
  · exact h.congr rfl

/-! ### The end of an event -/

/-- What the end of an event leaves. -/
structure Ev.Settled (d e : Ev) : Prop where
  curves : e.curves = d.curves
  check : e.check = d.check
  intake : e.intake = d.intake
  timing : e.timing = d.timing
  scanPulses : e.scanPulses = d.scanPulses
  pending : e.pending = d.pending
  config : ∀ u, (e.unit u).config = (d.unit u).config
  currentSweep : ∀ u, (e.unit u).currentSweep = (d.unit u).currentSweep
  loopOn : ∀ u, (e.unit u).loopOn = (d.unit u).loopOn
  loopParams : ∀ u, (e.unit u).loopParams = (d.unit u).loopParams
  waiting : ∀ u, (e.unit u).waiting = (d.unit u).waiting
  staged : ∀ u, (e.unit u).staged = (d.unit u).staged
  sweepFault : ∀ u, (e.unit u).sweepFault = (d.unit u).sweepFault
  tracked : ∀ u, (e.unit u).tracked = (d.unit u).tracked ∨ (e.unit u).tracked = none
  zone : ∀ u z, (d.zone u z).SameAims (e.zone u z)
  line : ∀ n, (d.line n).SameService (e.line n)
  port : d.port.SameCourse e.port
  notices : d.port.notices &&& e.port.notices = d.port.notices
  mem : Memory.wf d.mem = true →
    Memory.wf e.mem = true ∧ ∀ a, ¬d.eventWord a → Memory.read e.mem a = Memory.read d.mem a

/-- What `settle` leaves, whatever the event was. -/
theorem Ev.settle_settled (e : Ev) : e.Settled e.settle := by
  have h1 : e.GrantsOnly e.settleArbiter := Ev.grantsOnly_settleArbiter
  have h2 : e.settleArbiter.EndsOnly e.settle := (Ev.EndsOnly.refl _).runTests.flush
  have hu : ∀ u, ∃ t, e.settle.unit u = { e.settleArbiter.unit u with tracked := t }
    ∧ (t = (e.settleArbiter.unit u).tracked ∨ t = none) := h2.unit
  have hz : ∀ u z, e.settle.zone u z = e.settleArbiter.zone u z := by
    intro u z
    obtain ⟨t, h, _⟩ := hu u
    have := congrArg (fun r : UnitRec => r.zones[z]) h
    exact this
  have hw : ∀ a, e.settleArbiter.eventWord a → e.eventWord a := by
    rintro a ⟨c, hc, ha⟩
    refine ⟨c, h1.port ▸ hc, ?_⟩
    rcases ha with ha | ⟨u, o, ho, ha⟩ | ha | ha
    · exact .inl ha
    · exact .inr (.inl ⟨u, o, (h1.unit u).tracked ▸ ho, ha⟩)
    · exact .inr (.inr (.inl ha))
    · exact .inr (.inr (.inr ha))
  refine ⟨h2.curves.trans h1.curves, h2.check.trans h1.check, h2.intake.trans h1.intake, h2.timing.trans h1.timing,
    h2.scanPulses.trans h1.scanPulses, h2.pending.trans h1.pending, ?_, ?_, ?_, ?_, ?_, ?_, ?_, ?_, ?_, ?_, ?_, ?_, ?_⟩
  · intro u; obtain ⟨t, h, _⟩ := hu u; rw [h]; exact (h1.unit u).config
  · intro u; obtain ⟨t, h, _⟩ := hu u; rw [h]; exact (h1.unit u).currentSweep
  · intro u; obtain ⟨t, h, _⟩ := hu u; rw [h]; exact (h1.unit u).loopOn
  · intro u; obtain ⟨t, h, _⟩ := hu u; rw [h]; exact (h1.unit u).loopParams
  · intro u; obtain ⟨t, h, _⟩ := hu u; rw [h]; exact (h1.unit u).waiting
  · intro u; obtain ⟨t, h, _⟩ := hu u; rw [h]; exact (h1.unit u).staged
  · intro u; obtain ⟨t, h, _⟩ := hu u; rw [h]; exact (h1.unit u).sweepFault
  · intro u
    obtain ⟨t, h, ht⟩ := hu u
    rw [h]
    rcases ht with rfl | rfl
    · exact .inl (h1.unit u).tracked
    · exact .inr rfl
  · intro u z; rw [hz]; exact h1.zone u z
  · intro n
    have : e.settle.line n = e.settleArbiter.line n := by unfold State.line; rw [h2.lines]
    rw [this]; exact h1.line n
  · exact h1.port ▸ h2.port
  · have := h2.notices
    rw [h1.port] at this
    exact this
  · intro hm
    have h3 := h2.mem (by rw [h1.mem]; exact hm)
    refine ⟨h3.1, fun a ha => ?_⟩
    rw [h3.2 a fun k => ha (hw a k), h1.mem]

/-- When no arbiter run is due, the end of an event leaves every zone, line and grant as it was. -/
theorem Ev.settle_quiet (e : Ev) (h : e.arbiterDue = false) :
    (∀ u z, e.settle.zone u z = e.zone u z) ∧ e.settle.lines = e.lines ∧ e.settle.partGrants = e.partGrants
      ∧ e.settle.pointer = e.pointer := by
  have h1 : e.settleArbiter = e := by simp [Ev.settleArbiter, h]
  have h2 : e.EndsOnly e.settle := by
    unfold Ev.settle
    rw [h1]
    exact (Ev.EndsOnly.refl _).runTests.flush
  refine ⟨fun u z => ?_, h2.lines, h2.partGrants, h2.pointer⟩
  obtain ⟨t, k, _⟩ := h2.unit u
  have := congrArg (fun r : UnitRec => r.zones[z]) k
  exact this

end Sys2Proof.Machine
end

