-- ==== Sys2Proof/Laws/Take.lean ====
section
/-! SUPPORT. What the writes at the end of an event leave (`Wrote`), the quiet end of an event that owes no arbiter run and no
completion test, and what the take of a slot leaves. -/

namespace Sys2Proof.Machine

variable {d e : Ev} {W : Nat → Prop}

/-! ### Writes alone -/

/-- From `d` to `e` only update counts, free draws and words named by `W` have changed. -/
structure Ev.Wrote (d e : Ev) (W : Nat → Prop) : Prop where
  units : e.units = d.units
  curves : e.curves = d.curves
  lines : e.lines = d.lines
  partGrants : e.partGrants = d.partGrants
  pointer : e.pointer = d.pointer
  check : e.check = d.check
  intake : e.intake = d.intake
  timing : e.timing = d.timing
  scanPulses : e.scanPulses = d.scanPulses
  pending : e.pending = d.pending
  port : e.port = { d.port with updateCounts := e.port.updateCounts }
  mem : Memory.wf d.mem = true → Memory.wf e.mem = true ∧ ∀ x, ¬W x → Memory.read e.mem x = Memory.read d.mem x

theorem Ev.Wrote.refl (e : Ev) : e.Wrote e W := ⟨rfl, rfl, rfl, rfl, rfl, rfl, rfl, rfl, rfl, rfl, rfl, fun h => ⟨h, fun _ _ => rfl⟩⟩

theorem Ev.Wrote.congr {e' : Ev} (h : d.Wrote e W) (k : e'.toState = e.toState) : d.Wrote e' W := by
  cases e; cases e'
  dsimp only at k
  subst k
  exact ⟨h.1, h.2, h.3, h.4, h.5, h.6, h.7, h.8, h.9, h.10, h.11, h.12⟩

theorem Ev.Wrote.draws (h : d.Wrote e W) (k : Nat) : d.Wrote { e with freeDraws := k } W :=
  ⟨h.1, h.2, h.3, h.4, h.5, h.6, h.7, h.8, h.9, h.10, h.11, h.12⟩

theorem Ev.Wrote.anchor (h : d.Wrote e W) : e.port.anchor = d.port.anchor := by rw [h.port]

theorem Ev.Wrote.writeWords (h : d.Wrote e W) (b : Nat) (ws : List Word) (hb : ∀ x, b ≤ x → x < b + ws.length → W x) :
    d.Wrote (e.writeWords b ws) W := by
  refine ⟨h.1, h.2, h.3, h.4, h.5, h.6, h.7, h.8, h.9, h.10, h.11, fun hw => ?_⟩
  obtain ⟨h1, h2⟩ := h.mem hw
  refine ⟨Memory.write_wf _ _ _ h1, fun x hx => ?_⟩
  rw [Ev.writeWords_mem, Memory.read_write_outside _ _ _ _ h1, h2 x hx]
  by_contra hc
  exact hx (hb x (by omega) (by omega))

theorem Ev.Wrote.writeMirror (h : d.Wrote e W) (a : Anchor) (u : UnitNo) (hb : ∀ x, a.inBlock u x → W x) :
    d.Wrote (e.writeMirror a u) W := by
  have h1 : d.Wrote (e.updPort fun p => { p with updateCounts := p.updateCounts.set u (p.updateCounts[u] + 2) }) W := by
    refine ⟨h.1, h.2, h.3, h.4, h.5, h.6, h.7, h.8, h.9, h.10, ?_, h.12⟩
    rw [Ev.updPort_port, h.port]
  have hb' : ∀ x, a.blockBase u ≤ x → x < a.blockBase u + 130 → W x := fun x h2 h3 => hb x ⟨h2, h3⟩
  exact ((h1.writeWords _ _ fun x h2 h3 => hb' x h2 (by simp only [List.length_cons, List.length_nil] at h3; omega)).writeWords _ _
    fun x h2 h3 => hb' x (by omega) (by rw [blockWords_length] at h3; omega)).writeWords _ _
    fun x h2 h3 => hb' x h2 (by simp only [List.length_cons, List.length_nil] at h3; omega)

theorem Ev.Wrote.statusWords (h : d.Wrote e W) (a : Anchor) (hb : ∀ x, a.inStatus x → W x) (k : Nat) (ws : List Word)
    (hk : k + ws.length ≤ 64) : d.Wrote (e.writeWords (a.statusBase + k) ws) W :=
  h.writeWords _ _ fun x h1 h2 => hb x ⟨by omega, by simp only [Config.statusWords]; omega⟩

theorem Ev.Wrote.writeIf (h : d.Wrote e W) (a : Anchor) (b : Bool) (k : Nat) (w : Word) (hk : k < 64)
    (hb : b = true → ∀ x, a.inStatus x → W x) : d.Wrote (e.writeIf b (a.statusBase + k) w) W := by
  unfold Ev.writeIf
  split
  · next hc => exact h.statusWords a (hb hc) k [w] (by simp; omega)
  · exact h

theorem Ev.Wrote.writeWatch (h : d.Wrote e W) (a : Anchor) (k : Fin 4)
    (hb : e.start.intake.watches[k] ≠ e.intake.watches[k] → ∀ x, a.inStatus x → W x) :
    d.Wrote (e.writeWatch a.statusBase k) W := by
  have hk := k.isLt
  unfold Ev.writeWatch
  dsimp only
  have e1 : a.statusBase + 36 + 3 * k.val = a.statusBase + (36 + 3 * k.val) := by omega
  rw [e1]
  refine ((h.writeIf a _ _ _ (by omega) ?_).writeIf a _ (36 + 3 * k.val + 1) _ (by omega) ?_).writeIf a _ (36 + 3 * k.val + 2) _
    (by omega) ?_
  all_goals
    intro hd
    refine hb fun hs => ?_
    simp [hs] at hd

theorem Ev.writeIf_start (b : Bool) (x : Nat) (w : Word) : (e.writeIf b x w).start = e.start := by
  unfold Ev.writeIf; split <;> rfl

theorem Ev.writeIf_intake' (b : Bool) (x : Nat) (w : Word) : (e.writeIf b x w).intake = e.intake := by
  unfold Ev.writeIf; split <;> rfl

theorem Ev.writeWatch_start (x : Nat) (k : Fin 4) : (e.writeWatch x k).start = e.start := by
  unfold Ev.writeWatch; simp [Ev.writeIf_start]

theorem Ev.writeWatch_intake (x : Nat) (k : Fin 4) : (e.writeWatch x k).intake = e.intake := by
  unfold Ev.writeWatch; simp [Ev.writeIf_intake']

/-- The fields that the status area shows stand as they stood at the start of the event. -/
structure Ev.SameStatus (e : Ev) : Prop where
  intake : e.intake = e.start.intake
  lostScans : e.port.lostScans = e.start.port.lostScans
  fault : e.port.fault = e.start.port.fault
  sweepFault : ∀ u, (e.unit u).sweepFault = (e.start.unit u).sweepFault

theorem statusWord3_congr {s t : State} (h : ∀ u, (s.unit u).sweepFault = (t.unit u).sweepFault) : statusWord3 s = statusWord3 t := by
  unfold statusWord3
  simp only [h]

theorem Ev.Wrote.writeChangedStatus (h : d.Wrote e W) (a : Anchor) (hb : ¬e.SameStatus → ∀ x, a.inStatus x → W x) :
    d.Wrote (e.writeChangedStatus a) W := by
  have hb' : (e.SameStatus → False) → ∀ x, a.inStatus x → W x := hb
  unfold Ev.writeChangedStatus
  dsimp only
  have hw : ∀ l : List (Fin 4), ∀ e1 : Ev, d.Wrote e1 W → e1.start = e.start → e1.intake = e.intake →
      d.Wrote (l.foldl (fun e k => e.writeWatch a.statusBase k) e1) W := by
    intro l
    induction l with
    | nil => intro e1 h1 _ _; exact h1
    | cons k l ih =>
      intro e1 h1 h2 h3
      refine ih _ (h1.writeWatch a k fun hne => hb' fun hs => hne ?_) (by rw [Ev.writeWatch_start, h2]) (by rw [Ev.writeWatch_intake, h3])
      rw [h2, h3, hs.intake]
  refine (hw _ _ (((h.writeIf a _ 1 _ (by omega) fun hd => hb' fun hs => ?_).writeIf a _ 2 _ (by omega) fun hd =>
    hb' fun hs => ?_).writeIf a _ 3 _ (by omega) fun hd => hb' fun hs => ?_) (by simp only [Ev.writeIf_start])
    (by simp only [Ev.writeIf_intake'])).draws _
  · simp [statusWord1, hs.intake, hs.lostScans] at hd
  · simp only [decide_eq_true_eq] at hd
    refine hd ⟨?_, ?_, ?_⟩
    · rw [hs.intake]
    · rw [hs.intake]
    · rw [hs.fault]
  · simp only [bne_iff_ne, ne_eq] at hd
    refine hd (statusWord3_congr fun u => ?_)
    exact (hs.sweepFault u).symm

theorem Ev.Wrote.writeLine (h : d.Wrote e W) (a : Anchor) (hb : ∀ x, a.inStatus x → W x) (n : LineNo) :
    d.Wrote (e.writeLine a n) W := by
  have hn := n.isLt
  unfold Ev.writeLine
  rw [Nat.add_assoc]
  exact h.statusWords a hb _ _ (by simp [lineEntry]; omega)

/-- What the writes at the end of an event leave: they reach the mirror blocks owed, and the status area when a field it shows
has changed or a line entry is owed. -/
theorem Ev.flush_wrote (e : Ev) (hm : ∀ a, e.port.anchor = some a → ∀ u ∈ e.mirrorDue, ∀ x, a.inBlock u x → W x)
    (hs : ∀ a, e.port.anchor = some a → ¬e.SameStatus ∨ e.lineDue ≠ [] → ∀ x, a.inStatus x → W x) : e.Wrote e.flush W := by
  unfold Ev.flush
  split
  · next a _ ha =>
    have h1 : ∀ l : List UnitNo, ∀ e1 : Ev, (∀ u ∈ l, u ∈ e.mirrorDue) → e.Wrote e1 W → e1.start = e.start →
        e.Wrote (l.foldl (fun e u => e.writeMirror a u) e1) W ∧ (l.foldl (fun e u => e.writeMirror a u) e1).start = e.start := by
      intro l
      induction l with
      | nil => intro e1 _ h k; exact ⟨h, k⟩
      | cons u l ih =>
        intro e1 hl h k
        exact ih _ (fun v hv => hl v (by simp [hv])) (h.writeMirror a u fun x hx => hm a ha u (hl u (by simp)) x hx) k
    have h2 : ∀ l : List LineNo, ∀ e1 : Ev, (∀ n ∈ l, n ∈ e.lineDue) → e.Wrote e1 W →
        e.Wrote (l.foldl (fun e n => e.writeLine a n) e1) W := by
      intro l
      induction l with
      | nil => intro e1 _ h; exact h
      | cons n l ih =>
        intro e1 hl h
        exact ih _ (fun m hm => hl m (by simp [hm]))
          (h.writeLine a (hs a ha (.inr (List.ne_nil_of_mem (hl n (by simp))))) n)
    obtain ⟨w1, s1⟩ := h1 (inOrder e.mirrorDue) e (by simp [inOrder]) (.refl _) rfl
    have hsame : e.SameStatus → ((inOrder e.mirrorDue).foldl (fun e u => e.writeMirror a u) e).SameStatus := by
      intro h
      refine ⟨?_, ?_, ?_, fun u => ?_⟩
      · rw [w1.intake, s1, h.intake]
      · rw [w1.port, s1]; exact h.lostScans
      · rw [w1.port, s1]; exact h.fault
      · have := h.sweepFault u
        unfold State.unit at this ⊢
        rw [w1.units, s1, this]
    refine (h2 (inOrder e.lineDue) _ (by simp [inOrder]) (w1.writeChangedStatus a fun hn => hs a ha (.inl fun k => hn (hsame k)))).congr ?_
    rfl
  · exact (Ev.Wrote.refl e).congr rfl

/-- The end of an event that owes no arbiter run and no completion test is its writes. -/
theorem Ev.settle_wrote (h : e.arbiterDue = false) (ht : e.testDue = [])
    (hm : ∀ a, e.port.anchor = some a → ∀ u ∈ e.mirrorDue, ∀ x, a.inBlock u x → W x)
    (hs : ∀ a, e.port.anchor = some a → ¬e.SameStatus ∨ e.lineDue ≠ [] → ∀ x, a.inStatus x → W x) : e.Wrote e.settle W := by
  have h1 : e.settleArbiter = e := by simp [Ev.settleArbiter, h]
  have h2 : e.runTests = { e with testDue := [] } := by simp [Ev.runTests, ht, inOrder]
  unfold Ev.settle
  rw [h1, h2]
  have h3 := Ev.flush_wrote (W := W) ({ e with testDue := [] } : Ev) hm fun a ha hd => hs a ha (hd.imp (fun hn k => hn ⟨k.1, k.2, k.3, k.4⟩) id)
  exact ⟨h3.1, h3.2, h3.3, h3.4, h3.5, h3.6, h3.7, h3.8, h3.9, h3.10, h3.11, h3.12⟩

/-! ### The take of a slot -/

/-- What stays when a take is ended: everything but the ring offsets, the finished set, the notices and the words of the take. -/
structure Ev.TakeEnded (d e : Ev) : Prop where
  units : e.units = d.units
  curves : e.curves = d.curves
  lines : e.lines = d.lines
  partGrants : e.partGrants = d.partGrants
  pointer : e.pointer = d.pointer
  check : e.check = d.check
  intake : e.intake = d.intake
  timing : e.timing = d.timing
  scanPulses : e.scanPulses = d.scanPulses
  freeDraws : e.freeDraws = d.freeDraws
  pending : e.pending = d.pending
  start : e.start = d.start
  mirrorDue : e.mirrorDue = d.mirrorDue
  testDue : e.testDue = d.testDue
  lineDue : e.lineDue = d.lineDue
  arbiterDue : e.arbiterDue = d.arbiterDue
  port : d.port.Kept e.port

theorem Port.Kept.refl (p : Port) : p.Kept p := by constructor <;> first | rfl | simp

theorem Port.Kept.trans {a b c : Port} (h : a.Kept b) (k : b.Kept c) : a.Kept c := by
  refine ⟨k.1.trans h.1, k.2.trans h.2, k.3.trans h.3, k.4.trans h.4, k.5.trans h.5, k.6.trans h.6, k.7.trans h.7, ?_,
    k.9.trans h.9, k.10.trans h.10, k.11.trans h.11, k.12.trans h.12, k.13.trans h.13, k.14.trans h.14, k.15.trans h.15,
    k.16.trans h.16, k.17.trans h.17, k.18.trans h.18⟩
  calc a.notices &&& c.notices = a.notices &&& b.notices &&& c.notices := by rw [h.notices]
    _ = a.notices &&& (b.notices &&& c.notices) := BitVec.and_assoc ..
    _ = a.notices := by rw [k.notices, h.notices]

theorem Ev.TakeEnded.refl (e : Ev) : e.TakeEnded e :=
  ⟨rfl, rfl, rfl, rfl, rfl, rfl, rfl, rfl, rfl, rfl, rfl, rfl, rfl, rfl, rfl, rfl, .refl _⟩

theorem Ev.TakeEnded.writeWords (h : d.TakeEnded e) (b : Nat) (ws : List Word) : d.TakeEnded (e.writeWords b ws) :=
  ⟨h.1, h.2, h.3, h.4, h.5, h.6, h.7, h.8, h.9, h.10, h.11, h.12, h.13, h.14, h.15, h.16, h.17⟩

theorem Ev.TakeEnded.updPort (h : d.TakeEnded e) (f : Port → Port) (hf : e.port.Kept (f e.port)) : d.TakeEnded (e.updPort f) :=
  ⟨h.1, h.2, h.3, h.4, h.5, h.6, h.7, h.8, h.9, h.10, h.11, h.12, h.13, h.14, h.15, h.16, h.17.trans hf⟩

theorem Ev.TakeEnded.raise (h : d.TakeEnded e) (n : Notice) : d.TakeEnded (e.raise n) :=
  h.updPort _ ⟨rfl, rfl, rfl, rfl, rfl, rfl, rfl, Port.raise_keeps _ _, rfl, rfl, rfl, rfl, rfl, rfl, rfl, rfl, rfl, rfl⟩

theorem Ev.TakeEnded.writeStatus (h : d.TakeEnded e) (slot : Nat) (st : Status) (x : Detail) :
    d.TakeEnded (e.writeStatus slot st x) := by
  unfold Ev.writeStatus
  split
  · exact (h.writeWords _ _).writeWords _ _
  · exact h

theorem Ev.TakeEnded.advanceRetire (h : d.TakeEnded e) (a : Anchor) : d.TakeEnded (e.advanceRetire a) := by
  unfold Ev.advanceRetire
  dsimp only
  split
  · have h1 := (h.updPort (fun p => { p with retire := (retireWalk a.ringLength e.port.noticeOffset e.port.finished.length
        e.port.retire e.port.finished false).1, finished := (retireWalk a.ringLength e.port.noticeOffset e.port.finished.length
        e.port.retire e.port.finished false).2.1 }) (by constructor <;> first | rfl | simp)).writeWords 15
        [wordOf (retireWalk a.ringLength e.port.noticeOffset e.port.finished.length e.port.retire e.port.finished false).1]
    split
    · exact h1.raise _
    · exact h1
  · exact h

theorem Ev.TakeEnded.slotFinal (h : d.TakeEnded e) (slot : Nat) (notify : Bool) : d.TakeEnded (e.slotFinal slot notify) := by
  unfold Ev.slotFinal
  split
  · dsimp only
    have h1 := h.updPort (fun p => { p with finished := if p.finished.contains slot then p.finished else p.finished ++ [slot] })
      (by constructor <;> first | rfl | simp)
    split
    · exact (h1.raise _).advanceRetire _
    · exact h1.advanceRetire _
  · exact h

theorem Ev.TakeEnded.advanceTake (h : d.TakeEnded e) : d.TakeEnded e.advanceTake := by
  unfold Ev.advanceTake
  split
  · exact (h.updPort _ (by constructor <;> first | rfl | simp)).writeWords _ _
  · exact h

/-- What stays when a take is ended. -/
theorem Ev.finishTake_ended (slot : Nat) (notify : Bool) (st : Status) (x : Detail) :
    e.TakeEnded (e.finishTake slot notify st x) := by
  unfold Ev.finishTake
  dsimp only
  split
  · exact (((Ev.TakeEnded.refl e).writeStatus _ _ _).advanceTake).slotFinal _ _
  · exact ((Ev.TakeEnded.refl e).writeStatus _ _ _).advanceTake

/-- The words and the offset T after R has advanced. -/
theorem Ev.advanceRetire_words (a : Anchor) (hw : Memory.wf e.mem = true) :
    Memory.wf (e.advanceRetire a).mem = true ∧ (e.advanceRetire a).port.take = e.port.take
      ∧ ∀ x, x ≠ 15 → Memory.read (e.advanceRetire a).mem x = Memory.read e.mem x := by
  unfold Ev.advanceRetire
  dsimp only
  have hr : ∀ w : Word, ∀ x, x ≠ 15 → Memory.read (Memory.write e.mem 15 [w]) x = Memory.read e.mem x := fun w x hx =>
    Memory.read_write_outside _ _ _ _ hw (by simp; omega)
  split
  · split
    · exact ⟨Memory.write_wf _ _ _ hw, rfl, hr _⟩
    · exact ⟨Memory.write_wf _ _ _ hw, rfl, hr _⟩
  · exact ⟨hw, rfl, fun _ _ => rfl⟩

/-- The words and the offset T after a slot has become final. -/
theorem Ev.slotFinal_words (slot : Nat) (notify : Bool) (hw : Memory.wf e.mem = true) :
    Memory.wf (e.slotFinal slot notify).mem = true ∧ (e.slotFinal slot notify).port.take = e.port.take
      ∧ ∀ x, x ≠ 15 → Memory.read (e.slotFinal slot notify).mem x = Memory.read e.mem x := by
  unfold Ev.slotFinal
  split
  · dsimp only
    split
    · exact Ev.advanceRetire_words (e := Ev.raise (Ev.updPort e _) _) _ hw
    · exact Ev.advanceRetire_words (e := Ev.updPort e _) _ hw
  · exact ⟨hw, rfl, fun _ _ => rfl⟩

/-- What the end of a take writes: the status and detail of the slot, the offset T in the port and in word 14, and nothing else
but word 15. -/
theorem Ev.finishTake_words (a : Anchor) (slot : Nat) (notify : Bool) (st : Status) (x : Detail) (ha : e.attached = true)
    (hc : e.port.anchor = some a) (hw : Memory.wf e.mem = true) (h14 : 16 ≤ a.slotWord slot 14)
    (hm : a.slotWord slot 15 < Config.memoryWords) :
    let t := e.finishTake slot notify st x
    Memory.wf t.mem = true ∧ Memory.read t.mem (a.slotWord slot 14) = statusWord st x
      ∧ Memory.read t.mem (a.slotWord slot 15) = detailWord x ∧ t.port.take = ringNext a.ringLength e.port.take
      ∧ Memory.read t.mem 14 = wordOf (ringNext a.ringLength e.port.take)
      ∧ ∀ y, y ≠ 14 → y ≠ 15 → y ≠ a.slotWord slot 14 → y ≠ a.slotWord slot 15 → Memory.read t.mem y = Memory.read e.mem y := by
  have hs : a.slotWord slot 15 = a.slotWord slot 14 + 1 := rfl
  let e0 := e.writeWords (a.slotWord slot 15) [detailWord x]
  let e1 := e0.writeWords (a.slotWord slot 14) [statusWord st x]
  have h1 : e.writeStatus slot st x = e1 := by
    unfold Ev.writeStatus; rw [ha, hc]
  let e2 := (e1.updPort fun p => { p with take := ringNext a.ringLength e.port.take }).writeWords 14
    [wordOf (ringNext a.ringLength e.port.take)]
  have h2 : (e.writeStatus slot st x).advanceTake = e2 := by
    rw [h1]
    unfold Ev.advanceTake
    have : e1.port.anchor = some a := hc
    rw [this]
    rfl
  have w0 : Memory.wf e0.mem = true := Memory.write_wf _ _ _ hw
  have w1 : Memory.wf e1.mem = true := Memory.write_wf _ _ _ w0
  have w2 : Memory.wf e2.mem = true := Memory.write_wf _ _ _ w1
  have r0 := fun y => Memory.read_write e.mem (a.slotWord slot 15) [detailWord x] y hw
  have r1 := fun y => Memory.read_write e0.mem (a.slotWord slot 14) [statusWord st x] y w0
  have r2 := fun y => Memory.read_write e1.mem 14 [wordOf (ringNext a.ringLength e.port.take)] y w1
  have key : ∀ t : Ev, Memory.wf t.mem = true → t.port.take = e2.port.take →
      (∀ y, y ≠ 15 → Memory.read t.mem y = Memory.read e2.mem y) →
      Memory.wf t.mem = true ∧ Memory.read t.mem (a.slotWord slot 14) = statusWord st x
      ∧ Memory.read t.mem (a.slotWord slot 15) = detailWord x ∧ t.port.take = ringNext a.ringLength e.port.take
      ∧ Memory.read t.mem 14 = wordOf (ringNext a.ringLength e.port.take)
      ∧ ∀ y, y ≠ 14 → y ≠ 15 → y ≠ a.slotWord slot 14 → y ≠ a.slotWord slot 15 → Memory.read t.mem y = Memory.read e.mem y := by
    intro t hwt ht hr
    have he2 : e2.mem = Memory.write e1.mem 14 [wordOf (ringNext a.ringLength e.port.take)] := rfl
    have he1 : e1.mem = Memory.write e0.mem (a.slotWord slot 14) [statusWord st x] := rfl
    have he0 : e0.mem = Memory.write e.mem (a.slotWord slot 15) [detailWord x] := rfl
    refine ⟨hwt, ?_, ?_, ht, ?_, fun y y1 y2 y3 y4 => ?_⟩
    · rw [hr _ (by omega), he2, r2, if_neg (by simp; omega), he1, r1, if_pos (by simp; omega)]
      simp
    · rw [hr _ (by omega), he2, r2, if_neg (by simp; omega), he1, r1, if_neg (by simp; omega), he0, r0,
        if_pos (by simp; omega)]
      simp
    · rw [hr _ (by omega), he2, r2, if_pos (by simp [Config.memoryWords])]
      simp
    · rw [hr _ (by omega), he2, r2, if_neg (by simp; omega), he1, r1, if_neg (by simp; omega), he0, r0, if_neg (by simp; omega)]
  dsimp only
  unfold Ev.finishTake
  dsimp only
  rw [h2]
  split
  · obtain ⟨k1, k2, k3⟩ := Ev.slotFinal_words (e := e2) slot notify w2
    exact key _ k1 k2 k3
  · exact key _ w2 rfl fun _ _ => rfl

/-! ### The regions of an anchor -/

/-- In an anchor whose regions share no word with each other or with the anchor, a slot's status and detail lie past the anchor,
within the memory, in no mirror block and not in the status area. -/
theorem Anchor.slot_apart {a : Anchor} (hd : disjointRegions (anchorRegion :: a.regions) = true)
    (hm : a.regions.all Region.inMemory = true) {slot : Nat} (hs : slot < a.ringLength) :
    16 ≤ a.slotWord slot 14 ∧ a.slotWord slot 15 < Config.memoryWords
      ∧ ∀ x, (x = a.slotWord slot 14 ∨ x = a.slotWord slot 15) → ¬a.inMirror x ∧ ¬a.inStatus x := by
  simp [Anchor.regions, disjointRegions, anchorRegion, Region.shares, Config.anchorWords, Config.slotWords, Config.mirrorWords,
    Config.statusWords] at hd
  simp [Anchor.regions, Region.inMemory, Config.slotWords, Config.mirrorWords, Config.statusWords, Config.memoryWords] at hm
  have hr := of_decide_eq_true hm.1
  simp only [Anchor.slotWord, Anchor.inMirror, Anchor.inStatus, Config.slotWords, Config.mirrorWords, Config.statusWords,
    Config.memoryWords]
  refine ⟨by omega, by omega, fun x hx => ?_⟩
  omega

/-- Words 14 and 15 lie in no mirror block and not in the status area. -/
theorem Anchor.offsets_apart {a : Anchor} (hd : disjointRegions (anchorRegion :: a.regions) = true) {x : Nat} (hx : x < 16) :
    ¬a.inMirror x ∧ ¬a.inStatus x := by
  simp [Anchor.regions, disjointRegions, anchorRegion, Region.shares, Config.anchorWords, Config.slotWords, Config.mirrorWords,
    Config.statusWords] at hd
  simp only [Anchor.inMirror, Anchor.inStatus, Config.mirrorWords, Config.statusWords]
  omega

theorem Anchor.inMirror_of_inBlock {a : Anchor} {u : UnitNo} {x : Nat} (h : a.inBlock u x) : a.inMirror x := by
  have hu := u.isLt
  simp only [Anchor.inBlock, Anchor.inMirror, Anchor.blockBase, Config.blockWords, Config.mirrorWords] at h ⊢
  omega

/-! ### A due order -/

/-- A part ATTACHED to an anchor in the exchange memory runs its events. -/
theorem act_next_of_due {s : State} {host : List HostWrite} {a : Anchor} {slot : Decode.Slot} (h : s.Due host a slot) (f : Ev → Ev) :
    act s f = .next (f (Ev.ofState s.writesDone)).settle.toState := by
  have : s.regionsInMemory = true := by
    unfold State.regionsInMemory
    rw [h.anchor]
    simp [h.inMemory]
  unfold act
  rw [if_pos this]

/-- The take of a due order by its own row. -/
theorem takeOrder_due {s : State} {host : List HostWrite} {a : Anchor} {slot : Decode.Slot} (h : s.Due host a slot)
    {applies : Decode.Slot → Bool} (happ : applies slot = true) (f : Anchor → Decode.Slot → Ev → Ev) :
    takeOrder host applies f s = .next (f a slot ((Ev.ofState s.writesDone).hostWrites host)).settle.toState := by
  unfold takeOrder
  rw [act_next_of_due h]
  have h1 : ((Ev.ofState s.writesDone).hostWrites host).port.anchor = some a := h.anchor
  have h2 : ((Ev.ofState s.writesDone).hostWrites host).slotAtTake a = slot := by rw [h.holds]; rfl
  have h3 : ((Ev.ofState s.writesDone).hostWrites host).takeDue = true := by
    have : s.takeDue = true := by simp [State.takeDue, State.attached, h.attached, h.due]
    exact this
  simp only [h1, h2, h3, happ, Bool.and_true, if_true]

/-- The end of a take that owes no arbiter run and no completion test: what the slot shows, and what stays. `W` names the words
the order itself and the end of its event may write. -/
theorem State.Due.taken {s : State} {host : List HostWrite} {a : Anchor} {slot : Decode.Slot} (h : s.Due host a slot) {st : Status}
    {x : Detail} (hp : e.port.take = s.port.take) (ha : e.attached = true) (hc : e.port.anchor = some a)
    (hw : Memory.wf e.mem = true) (hd : e.arbiterDue = false) (ht : e.testDue = [])
    (hm : ∀ u ∈ e.mirrorDue, ∀ y, a.inBlock u y → W y) (hs : ¬e.SameStatus ∨ e.lineDue ≠ [] → ∀ y, a.inStatus y → W y)
    (hW : ∀ y, W y → a.inMirror y ∨ a.inStatus y)
    (hr : ∀ y, ¬W y → Memory.read e.mem y = Memory.read (Memory.hostWrites s.mem host) y) :
    TakenWith s (e.finish slot st x).settle.toState host a st x W ∧ (e.finish slot st x).Wrote (e.finish slot st x).settle W
      ∧ e.TakeEnded (e.finish slot st x) := by
  obtain ⟨p1, p2, p3⟩ := Anchor.slot_apart h.disjoint h.inMemory h.inRing
  have hE : e.TakeEnded (e.finish slot st x) := Ev.finishTake_ended _ _ _ _
  have hF := Ev.finishTake_words (e := e) a e.port.take slot.notify st x ha hc hw (by rw [hp]; exact p1) (by rw [hp]; exact p2)
  obtain ⟨f1, f2, f3, f4, f5, f6⟩ := hF
  have hfin : e.finishTake e.port.take slot.notify st x = e.finish slot st x := rfl
  rw [hfin] at f1 f2 f3 f4 f5 f6
  rw [hp] at f2 f3 f4 f5 f6
  have hK : (e.finish slot st x).port.anchor = some a := hE.port.anchor.trans hc
  have hwr : (e.finish slot st x).Wrote (e.finish slot st x).settle W := by
    refine Ev.settle_wrote (by rw [hE.arbiterDue, hd]) (by rw [hE.testDue, ht]) ?_ ?_
    · intro b hb u hu
      have : b = a := by rw [hK] at hb; exact (Option.some.inj hb).symm
      subst this
      rw [hE.mirrorDue] at hu
      exact hm u hu
    · intro b hb hn
      have : b = a := by rw [hK] at hb; exact (Option.some.inj hb).symm
      subst this
      refine hs (hn.imp (fun k k' => k ?_) (fun k => by rw [hE.lineDue] at k; exact k))
      refine ⟨?_, ?_, ?_, fun u => ?_⟩
      · rw [hE.intake, hE.start]; exact k'.intake
      · rw [hE.port.lostScans, hE.start]; exact k'.lostScans
      · rw [hE.port.fault, hE.start]; exact k'.fault
      · have := k'.sweepFault u
        unfold State.unit at this ⊢
        rw [hE.units, hE.start]; exact this
  have hmem := (hwr.mem f1).2
  have h14 : ¬W 14 := fun k => by
    have := Anchor.offsets_apart h.disjoint (x := 14) (by omega)
    exact (hW _ k).elim this.1 this.2
  have hs14 : ¬W (a.slotWord s.port.take 14) := fun k => (hW _ k).elim (p3 _ (.inl rfl)).1 (p3 _ (.inl rfl)).2
  have hs15 : ¬W (a.slotWord s.port.take 15) := fun k => (hW _ k).elim (p3 _ (.inr rfl)).1 (p3 _ (.inr rfl)).2
  refine ⟨⟨?_, ?_, ?_, ?_, fun y y1 y2 => ?_⟩, hwr, hE⟩
  · rw [hmem _ hs14]; exact f2
  · rw [hmem _ hs15]; exact f3
  · rw [hwr.port]; exact f4
  · rw [hmem _ h14]; exact f5
  · simp only [State.takeWord, not_or] at y1
    rw [hmem _ y2, ← hr _ y2]
    exact f6 y y1.1 y1.2.1 y1.2.2.1 y1.2.2.2

end Sys2Proof.Machine
end

