-- ==== Sys2Proof/Tests/Slice0.lean ====
section
/-! SUPPORT. The author's own tests: ill-formed commands, worked figures of the manual, one step of each command, and a witness
for the hypotheses of every obligation that has some. -/

namespace Sys2Proof.Tests

open Sys2Proof Sys2Proof.Machine Sys2Proof.Decode

-- One theorem at a time: a thread for each would ask for more memory than the checker may have.
set_option Elab.async false

/-! ### Ill-formed commands (WellFormed) -/

/-- 1, 2 and 3 name register commands (11.2), and 0 and 4 do not. -/
theorem test_wellFormed_commandValue : [1, 2, 3].all (fun v => !(Instr.commandInvalidValue v).wellFormed) = true
    ∧ [0, 4].all (fun v => (Instr.commandInvalidValue v).wellFormed) = true := by decide

/-- A reading count lies within 1 to 64 (R108). -/
theorem test_wellFormed_unitBlock : (Instr.unitBlock 1 []).wellFormed = false
    ∧ (Instr.unitBlock 1 (List.replicate 65 .patchAbsent)).wellFormed = false
    ∧ (Instr.unitBlock 1 (List.replicate 64 .patchAbsent)).wellFormed = true := by decide

/-! ### Worked figures -/

/-- Sheet arithmetic and rounding (0.7, 0.8): their own examples. -/
theorem test_arithmetic : atOrAfter 0 4294967295 = true ∧ atOrAfter 4294967295 0 = false ∧ moreThanBefore 1000 5 1006 = true
    ∧ moreThanBefore 1000 5 1005 = false ∧ roundHalfUp 8307 2 = 4154 ∧ roundHalfUp 415349 100 = 4153
    ∧ roundHalfAway 45 10 = 5 ∧ roundHalfAway (-45) 10 = -5 ∧ roundHalfAway (-44) 10 = -4
    ∧ ceilDiv 310000 700 = 443 ∧ ceilDiv 443 1 = 443 := by decide

/-- The bands of worked case A (2.13), as far as zone 3 reads them. -/
def bandsA : List Nat :=
  [2500, 3000, 3000, 3000, 3500, 3500, 2000, 4000, 4000, 6000, 6000, 3000, 3000, 4000, 5000, 5000, 5000, 5000, 5000, 4000]

/-- Stage 1 of worked case A (2.13). -/
theorem test_stage1_caseA : [0, 1, 2].map (zoneCoverage 325 50 0 bandsA) = [3000, 4154, 4769] := by decide

/-- Curve 2 of worked case A (2.13). -/
def curveA : Vector Nat 11 := #v[40, 120, 210, 290, 360, 425, 485, 540, 590, 635, 675]

/-- Stages 2 and 3 of worked case A (2.13). -/
theorem test_stages23_caseA : [3000, 4154, 4769, 10000].map (curveValue curveA) = [290, 370, 410, 675]
    ∧ spreadValue 120 290 290 370 = 280 ∧ spreadValue 120 370 290 410 = 375 ∧ spreadValue 120 410 370 455 = 409 := by decide

/-- Stages 4 and 5 of worked case A (2.13). -/
theorem test_stages45_caseA : ceilDiv (620 * 500) 700 = 443 ∧ [280, 375, 409, 620].map (fun b => scaledValue b 443) = [316, 423, 462, 700] := by
  decide

/-- The unit of worked case B (2.14). -/
def configB : UnitConfig where
  zoneCount := 6
  pitch := 200
  curve := 0
  spread := 200
  sweepMode := .fixed
  fixedSweep := 400
  sMin := 300
  oCap := 700
  oMin := 30
  oMax := 900
  idleThreshold := 300
  idleOpening := 20
  tolerance := 5
  lineBudget := 2
  moveTimeout := 4000

/-- The bands of worked case B (2.14). -/
def bandsB : List Nat := [0, 100, 200, 3000, 5000, 8000, 9000, 12500, 10000, 9000, 400, 0, 60000, 65535]

/-- Stage 1 of worked case B (2.14). -/
theorem test_stage1_caseB : [0, 1, 2, 3, 4, 5].map (zoneCoverage 200 100 (-50) bandsB) = [100, 2800, 7500, 9750, 7100, 2600]
    ∧ bandsClamped bandsB = 3 := by decide

/-- Stages 3 to 7 of worked case B (2.14). -/
theorem test_stages37_caseB : spreadValue 200 10 10 280 = 0 ∧ spreadValue 200 975 750 710 = 1000 ∧ spreadValue 200 260 710 260 = 170
    ∧ planValue configB 100 0 400 = 20 ∧ planValue configB 7500 799 400 = 999 ∧ planValue configB 2600 170 400 = 213
    ∧ targetValue configB 20 0 = 30 ∧ targetValue configB 300 (-20) = 280 ∧ targetValue configB 999 5 = 900 := by decide

/-- The loop parameters of the table of 7.3. -/
def loop73 : LoopParams where
  targetDensity := 1400
  deadband := 30
  gain := 40
  stepMax := 25
  samplesA := 2
  settleW := 30

/-- The step sizes of the table of 7.3, and its two for gain 50. -/
theorem test_stepSize : [31, -31, 56, 62, 63, 200, -154].map (stepSize loop73) = [12, -12, 22, 25, 25, 25, -25]
    ∧ stepSize { loop73 with gain := 50 } 35 = 18 ∧ stepSize { loop73 with gain := 50 } (-35) = -18 := by decide

/-- The mean of the traced makeready's scan 3, zone 5: 1,417.5 gives 1,418 (11.7). -/
theorem test_sampleMean : sampleMean 2 [1415, 1420] = 1418 := by decide

/-- The trim of the note of R138: zone 12 from −25 by −290 and −10, zone 2 from +34 by +5. -/
theorem test_trimmedOffset : trimmedOffset 11 (-25) [(11, -290), (1, 5), (11, -10)] = -300
    ∧ trimmedOffset 1 34 [(11, -290), (1, 5), (11, -10)] = 39 := by decide

/-- The words of an absent plan, target, position and coverage (R187), and a signed offset. -/
theorem test_zoneWords : zoneWord1 Zone.reset = 0x7FFFFFC0 ∧ zoneWord2 { Zone.reset with offset := -300 } = 0xFFFFFED4 := by decide

/-- The frames of 11.7 as the layout of 11.6 and R188 give them: SWEEP 400 tag 1, MOVE module 1 key 2 position 300 tag 3, HALT ALL. -/
theorem test_frames : motionWord (.sweep 400 1) = 0x184C8005 ∧ motionWord (.move 1 300 3) = 0x24C96109
    ∧ haltAllFrame = 0x04000004 ∧ idleFrame = 0 := by decide

/-- A reply of module 1, key 2, position 301, AT REST, tag 3, written out by 11.6: nine ones below bit 25. -/
theorem test_reply : judgeSlot 1 (.reply 0x12612D21 false) = .valid ∧ judgeSlot 1 (.reply 0x10612D21 false) = .checkError
    ∧ judgeSlot 2 (.reply 0x12612D21 false) = .wrongModule ∧ judgeSlot 1 (.reply 0x12612D21 true) = .late
    ∧ (replyOfWord 0x12612D21).position = 301 := by decide

/-- Scan-link frames by 11.6: scan 3 of sheet 490, a block of unit 7 with 1,404 mD and a bar code, a close. -/
theorem test_scanFrames : scanFrame [] [0x01000003, 490] = .scanOpen [] 3 490
    ∧ scanFrame [] [0x02000207, 0x57C, 0x1000] = .unitBlock 7 [.density 1404, .patchAbsent]
    ∧ scanFrame [] [0x02000307, 0x57C, 0x1000] = .unreadableFrame [] ∧ scanFrame [] [0x03000000, 7] = .scanClose [] 7 := by decide

/-- The tags of 11.7: the counter passes over the reported tag and the sent tag (R54). -/
theorem test_nextTag : nextTag 0 ⟨0, 0⟩ = 1 ∧ nextTag 2 ⟨0, 0⟩ = 2 ∧ nextTag 15 ⟨0, 15⟩ = 1 := by decide

/-- No word spells a command (log entry 6). -/
theorem test_decodeTableWord : decodeTableWord 32 1 = none := by decide

/-! ### Small states -/

/-- An anchor with the ring of 11.7 at word 16 and the mirror at 272; the status area stands high, behind everything read here. -/
def anchor0 : Anchor where
  ringBase := 16
  ringLength := 16
  mirrorBase := 272
  statusBase := 60000
  storeBase := 2416
  segments := 2
  segmentSize := 1100
  scanInterval := 10
  driveBudget := 8
  noticeMask := 1023

/-- The state after reset, attached to `anchor0`. -/
def base : State :=
  { State.reset with port := { Port.reset with state := .attached, anchor := some anchor0, mask := 1023, scanTimer := some 10 } }

/-- A state with an order in slot 0, due to be taken. -/
def withSlot (s : State) (words : List Word) : State :=
  { s with port := { s.port with putValid := 1 }, mem := cellsFrom 16 words }

/-- A state with this record for a unit. -/
def withUnit (s : State) (u : UnitNo) (r : UnitRec) : State := { s with units := s.units.set u r }

/-- A state with this record for a line. -/
def withLine (s : State) (n : LineNo) (l : Line) : State := { s with lines := s.lines.set n l }

/-- The unit of worked case B right after its definition. -/
def unitB : UnitRec :=
  { UnitRec.reset with config := some configB,
                       zones := Vector.ofFn fun z : ZoneNo => { Zone.reset with state := if z.val < 6 then .rest else .off } }

/-- The unit of worked case B with one zone's record replaced. -/
def unitWith (z : ZoneNo) (r : Zone) : UnitRec := { unitB with zones := unitB.zones.set z r }

/-- An order record of this kind in slot 5. -/
def order5 (k : TrackedKind) : OrderRecord where
  slot := 5
  notify := false
  kind := k
  zones := [0]
  fountainWait := false
  counts := Counts.zero

/-- A waiting order of this kind in slot 5, for sheet 100. -/
def waiting5 (k : TrackedKind) (released : Bool) : WaitingOrder where
  order := order5 k
  atSheet := 100
  released := released

/-- A line that is ON with the modules of a unit of six zones. -/
def lineOn : Line :=
  { Line.reset with power := .on,
                    modules := Vector.ofFn fun a : Fin 9 => { ModuleRec.reset with state := if a.val < 2 then .present else .notExpected } }

/-- A MOVING zone of unit 7, sent to 300 with tag 3. -/
def zoneMoving : Zone :=
  { Zone.reset with state := .moving, plan := some 300, target := some 300, commanded := some 300, moveKind := some .position,
                    moveTag := some 3, moveTimer := some 4000 }

/-- Unit 7 with zone 2 MOVING on a line that is ON, its frame sent. -/
def moving : State :=
  { withLine (withUnit base 6 (unitWith 1 zoneMoving)) 6 { lineOn with grants := 1, cycle := some { slot := 1, last := false } } with
    partGrants := 1 }

/-- What a command leaves: it answers a next state, of which this holds. -/
def after (c : Instr) (s : State) (p : State → Bool) : Bool :=
  match exec c s with
  | .next t => p t
  | .fault _ => false
  | .refused _ => false

/-! ### One step of each command -/

/-- ATTACH, taken in DETACHED and refused in ATTACHED (R157). -/
theorem test_attach : after .attach State.reset (fun t => t.port.state == .attaching && t.port.lastOutcome == .taken) = true
    ∧ after .attach base (fun t => t.port.state == .attached && t.port.lastOutcome == .refused) = true := by decide +kernel

/-- The anchor of `anchor0` as the host writes it. -/
def anchorWrites : List HostWrite :=
  [⟨0, 0x16640001⟩, ⟨1, 16⟩, ⟨2, 16⟩, ⟨3, 272⟩, ⟨4, 60000⟩, ⟨5, 2416⟩, ⟨6, 2⟩, ⟨7, 1100⟩, ⟨8, 10⟩, ⟨9, 8⟩, ⟨10, 1023⟩]

/-- A part that is ATTACHING. -/
def attaching : State := { State.reset with port := { Port.reset with state := .attaching } }

/-- An attach adopts the anchor and writes the mirror blocks, unit 1's count going from 0 to 2 (11.7, R158). -/
theorem test_attachSuccess : after (.attachSuccess anchorWrites) attaching (fun t =>
    t.port.state == .attached && t.port.anchor == some anchor0 && Memory.read t.mem 14 == 0 && Memory.read t.mem 272 == 2) = true := by
  decide +kernel

/-- An attach to a memory of zeros fails with BAD SIGNATURE (R157). -/
theorem test_attachFailure : after (.attachFailure []) attaching (fun t =>
    t.port.state == .detached && t.port.lastFailure == some .badSignature) = true := by decide +kernel

/-- DETACH is deferred in ATTACHING, and in DETACHED it is TAKEN and changes nothing else (R159, R160). -/
theorem test_detach : after .detach attaching (fun t => t.port.detachDeferred && t.port.lastOutcome == .deferred) = true
    ∧ after .detach State.reset (fun t => t.port.state == .detached && t.port.lastOutcome == .taken) = true := by decide +kernel

/-- The RESET command keeps the counter; the reset pin does not (R152, R153). -/
theorem test_resets : after .reset { base with timing := { base.timing with counter := 7, period := 3 } } (fun t =>
      t.timing.counter == 7 && t.timing.period == 0 && t.port.lastOutcome == .taken && t.port.state == .detached) = true
    ∧ [Instr.resetPin true, .powerOn true].all (fun c => after c { base with timing := { base.timing with counter := 7 } } fun t =>
      t.timing.counter == 0 && t.timing.impression && t.port.lastOutcome == .none) = true := by decide +kernel

/-- The DEFINE UNIT of slot 0 in 11.7. -/
def slotDefine : List Word := [0x701, 0, 0, 0xC80006, 0xC80000, 0x1900001, 0x2BC012C, 0x384001E, 0x14012C, 0x20005, 4000]

/-- A reset that abandons the last word of unit 7's mirror block, the two of its line's entry having still to come, leaves its update count
odd; one that abandons every word leaves the slot's status, DONE, as written (R161, R165). -/
theorem test_abandonedWrite : after (.defineUnit []) (withSlot base slotDefine) (fun t =>
    let left (k x : Nat) : Word := Memory.read (Memory.putBack anchor0.blockWord t.unfinished k t.mem) x
    left 2 1052 == 2 && left 3 1052 == 1 && left 132 1052 == 1 && left 133 1052 == 0 && left 1000 30 == 4 && left 1000 14 == 1) = true := by
  decide +kernel

/-- A value that names no command is refused (R155). -/
theorem test_commandInvalidValue : after (.commandInvalidValue 4) base (fun t => t.port.lastOutcome == .refused && t.commandRegister == 4)
    = true := by decide +kernel

/-- A write to IDENT is ignored (R155). -/
theorem test_registerWriteIgnored : exec (.registerWriteIgnored .ident 1) base = .next base := rfl

/-- Writing bit 4 clears ZONE FAULT and leaves LINE EVENT (R156, 11.2). -/
theorem test_noticeWrite : after (.noticeWrite 0x10) { base with port := { base.port with notices := 0x30 } } (fun t =>
    t.noticeRegister == 0x20 && t.interruptLine) = true := by decide +kernel

/-- The counter wraps, and a watch of V = 0 with ones in bits 8 to 31 of its mask matches sheet 0 (R141, R148). -/
theorem test_sheetMark : after .sheetMark { base with timing := { base.timing with
      counter := 0xFFFFFFFF, watchEnabled := true, watchValue := 0, watchMask := 0xFFFFFF00 } } (fun t =>
    t.timing.counter == 0 && t.timing.run == .running && t.timing.runTimer == some 2000 && t.noticePending .sheetWatch) = true := by
  decide +kernel

/-- The mark that brings the count to 0 performs the expiry (R149), and the mark is handed to the port (R141). -/
theorem test_sheetMark_expiry : after .sheetMark { base with timing := { base.timing with period := 25, count := 1, actScanRequest := true } }
    (fun t => t.timing.count == 25 && t.scanPulses == 1 && t.port.handedMarks == 1) = true := by decide +kernel

/-- An expiry of a count that stands at 0 reloads N and pulses the scan request (R149, R151; log entry 7). -/
theorem test_intervalExpiry : after .intervalExpiry { base with timing := { base.timing with period := 25, actScanRequest := true } }
    (fun t => t.timing.count == 25 && t.scanPulses == 1) = true := by decide +kernel

/-- The run timer stops the press, and the impression follows its input (R142, R143). -/
theorem test_press : after .runTimerExpiry { base with timing := { base.timing with run := .running, runTimer := some 2000 } }
      (fun t => t.timing.run == .stopped && t.timing.runTimer.isNone) = true
    ∧ after (.impressionChange true) base (fun t => t.timing.impression) = true := by decide +kernel

/-- P = 3 is valid in a ring of 16; P = 16 is PUT OUT OF RANGE and raises PORT FAULT (R162). -/
theorem test_orderScan : after (.orderScan [⟨12, 3⟩, ⟨13, 4⟩]) base (fun t => t.port.putValid == 3 && t.port.noticeOffset == some 4) = true
    ∧ after (.orderScan [⟨12, 16⟩]) base (fun t => t.port.fault == .putOutOfRange && t.noticePending .portFault) = true := by
  decide +kernel

/-- Kind 19 is REFUSED with UNKNOWN KIND, and T and R advance (R169, R163). -/
theorem test_unknownKind : after (.unknownKind []) (withSlot base [19]) (fun t =>
    Memory.read t.mem 30 == 6 && Memory.read t.mem 31 == 1 && Memory.read t.mem 14 == 1 && Memory.read t.mem 15 == 1) = true := by
  decide +kernel

/-- It is DONE: zones 1 to 6 REST, modules 0 and 1 PRESENT, the block's count raised by two (11.7). -/
theorem test_defineUnit : after (.defineUnit []) (withSlot base slotDefine) (fun t =>
    Memory.read t.mem 30 == 4 && (t.unit 6).config == some configB && (t.zone 6 5).state == .rest && (t.zone 6 6).state == .off
      && ((t.line 6).modules[1]).state == .present && ((t.line 6).modules[2]).state == .notExpected
      && Memory.read t.mem 1052 == 2) = true := by decide +kernel

/-- LOAD CURVE of worked case A's curve 2 is DONE; with y1 below y0 it is CURVE INVALID (R8). -/
theorem test_loadCurve : after (.loadCurve []) (withSlot base [2, 0, 0, 2, 0x780028, 0x12200D2, 0x1A90168, 0x21C01E5, 0x27B024E, 675])
      (fun t => decide (t.curves[2] = curveA) && Memory.read t.mem 30 == 4) = true
    ∧ after (.loadCurve []) (withSlot base [2, 0, 0, 2, 0x270028]) (fun t => Memory.read t.mem 31 == 5 && decide (t.curves = base.curves))
      = true := by decide +kernel

/-- The SET LOOP of slot 1 in 11.7. -/
def slotLoop : List Word := [0x703, 0, 0, 1, 0x190578, 0x140032, 0x1E0002]

/-- It stores its six parameters (R128). -/
theorem test_setLoop : after (.setLoop []) (withUnit (withSlot base slotLoop) 6 unitB) (fun t => (t.unit 6).loopOn
    && (t.unit 6).loopParams == some { targetDensity := 1400, deadband := 25, gain := 50, stepMax := 20, samplesA := 2, settleW := 30 })
    = true := by decide +kernel

/-- The SET TIMING of 8.7: N = 25 with SCAN REQUEST, the watch, counter load 19,990. -/
theorem test_setTiming : after (.setTiming []) (withSlot base [4, 0, 0, 7, 0x20019, 1, 0, 0xFFFFFF00, 19990]) (fun t =>
    t.timing.counter == 19990 && t.timing.count == 25 && t.timing.actScanRequest && !t.timing.actSnapshot && t.timing.watchEnabled
      && t.timing.watchMask == 0xFFFFFF00) = true := by decide +kernel

/-- A counter load to 99 takes back the release of an order for sheet 100, and one to 100 releases it (R147). -/
theorem test_setTiming_load : [(99, true, false), (100, false, true)].all (fun p =>
    after (.setTiming []) (withUnit (withSlot base [4, 0, 0, 4, 0, 0, 0, 0, BitVec.ofNat 32 p.1]) 6
        { unitB with waiting := some (waiting5 (.sweep 400) p.2.1) }) (fun t => ((t.unit 6).waiting.map (·.released)) == some p.2.2)) = true := by
  decide +kernel

/-- SET WATCH writes entry 4; SET NOTICES writes the mask (R123, R180). -/
theorem test_setWatch_setNotices : after (.setWatch []) (withSlot base [0x705, 0, 0, 0x10004, 0x5DC04B0]) (fun t =>
      t.intake.watches[3] == { enabled := true, unit := some 6, low := some 1200, high := some 1500, lastHit := none }) = true
    ∧ after (.setNotices []) (withSlot base [6, 0, 0, 0xFFFFF011]) (fun t => t.port.mask == 0x11) = true := by decide +kernel

/-- SNAPSHOT writes the sheet counter in word 0 of the status area and unit 7's block (R150, R165), before its status: a reset puts none of
them back (R180). -/
theorem test_snapshot : after (.snapshot []) { withUnit (withSlot base [11]) 6 unitB with timing := { base.timing with counter := 9 } }
    (fun t => Memory.read t.mem 60000 == 9 && Memory.read t.mem 1052 == 2 && Memory.read t.mem 1054 == 0x7FFFFFC1
      && Memory.putBack anchor0.blockWord t.unfinished 1000 t.mem == t.mem && t.unfinished.contains (60000, 0)
      && t.unfinished.head? == some (15, 0)) = true := by decide +kernel

/-- INTAKE OFF discards an open scan, and INTAKE ON then arms (R121, R122). -/
theorem test_intake : after (.intakeOff []) (withSlot base [7]) (fun t => t.intake.setting == .off) = true
    ∧ after (.intakeOn []) { withSlot base [7, 0, 0, 1] with intake := { Intake.reset with setting := .off } }
      (fun t => t.intake.setting == .armed) = true := by decide +kernel

/-- HOLD of a MOVING zone halts its key and releases its grant (R18, R67). -/
theorem test_hold : after (.hold []) (withSlot moving [0x708, 0, 0, 0x20002]) (fun t => (t.zone 6 1).state == .held
    && (t.zone 6 1).commanded.isNone && t.partGrants == 0 && (t.line 6).queue.halts == [1]) = true := by decide +kernel

/-- RELEASE places a HELD zone: beyond tolerance it is PENDING, within it REST (R19, R11). -/
theorem test_release : [(6, ZoneState.pending), (5, .rest)].all (fun p => after (.release [])
    (withUnit (withSlot base [0x709, 0, 0, 0x20002]) 6
      (unitWith 1 { Zone.reset with state := .held, target := some 300, position := some (300 + p.1) }))
    fun t => (t.zone 6 1).state == p.2) = true := by decide +kernel

/-- CLEAR FAULT of a zone on a MISSING module leaves it FAULTED with NO FEEDBACK (R20). -/
theorem test_clearFault : after (.clearFault []) (withLine (withUnit (withSlot base [0x70A, 0, 0, 0x20002]) 6
      (unitWith 1 { Zone.reset with state := .faulted, faultCause := some .stalled })) 6
      { lineOn with modules := Vector.replicate 9 { ModuleRec.reset with state := .missing } })
    (fun t => (t.zone 6 1).state == .faulted && (t.zone 6 1).faultCause == some .noFeedback) = true := by decide +kernel

/-- ABORT with no order says NOTHING RUNNING; of a waiting order, ABORTED BY HOST in its slot 5 (R178). -/
theorem test_abort : after (.abort []) (withSlot base [0x70C]) (fun t => Memory.read t.mem 30 == 4 && Memory.read t.mem 31 == 4) = true
    ∧ after (.abort []) (withUnit (withSlot base [0x70C]) 6 { unitB with waiting := some (waiting5 (.sweep 400) false) })
      (fun t => Memory.read t.mem 31 == 0 && Memory.read t.mem 110 == 8 && Memory.read t.mem 111 == 5 && (t.unit 6).waiting.isNone)
      = true := by decide +kernel

/-- An ABORT that ends an order writes its unit's block, unit 7's at word 1,052 (10.6, R165). -/
theorem test_abort_block : after (.abort []) (withUnit (withSlot base [0x70C]) 6 { unitB with tracked := some (order5 (.sweep 400)) })
    (fun t => (t.unit 6).tracked.isNone && Memory.read t.mem 1052 == 2) = true := by decide +kernel

/-- A refused SWEEP carries the unit's sweep fault and its faulted zones beside BAD ARGUMENT (R171). -/
theorem test_sweep_refused : after (.sweep []) (withUnit (withSlot base [0x70F, 0, 0, 99]) 6
      { unitWith 1 { Zone.reset with state := .faulted, faultCause := some .stalled } with sweepFault := true })
    (fun t => Memory.read t.mem 30 == 6 && Memory.read t.mem 31 == 0x34) = true := by decide +kernel

/-- The PRESET of slot 2 in 11.7, its profile at word 4,616. -/
def slotPreset : List Word := [0x70D, 0, 0, 4616, 0x64000E, -50, 1]

/-- Its profile: the bands of worked case B, two in a word (11.3). -/
def profileB : List Word := [0x640000, 0xBB800C8, 0x1F401388, 0x30D42328, 0x23282710, 0x190, 0xFFFFEA60]

/-- Unit 7 defined, a PRESET in slot 0 and its profile. -/
def presetState (words : List Word) : State :=
  { withUnit (withSlot base words) 6 unitB with mem := cellsFrom 16 words ++ cellsFrom 4616 profileB }

/-- The traced PRESET is DONE with 3 bands clamped, cause MOVES DEFERRED, 1 zone raised and 3 lowered (11.7). -/
theorem test_preset : after (.preset []) (presetState slotPreset) (fun t => Memory.read t.mem 30 == 0x30004
    && Memory.read t.mem 31 == 0x181001 && (ascending 6).map (fun z => (t.zone 6 (z.castLE (by decide))).target)
      == [some 30, some 300, some 900, some 900, some 900, some 213]
    && (t.line 6).pendingList.map (·.zone.number) == [1, 2, 3, 4, 5, 6] && (t.line 6).fountain.wanted == some 400) = true := by
  decide +kernel

/-- The TRIM of 2.14: zones 2, 3 and 5 by −20, +5 and −40, with no plan; DONE at once. -/
theorem test_trim : after (.trim []) (withUnit (withSlot base [0x70E, 0, 0, 0xFFEC0002, 0x50003, 0xFFD80005]) 6 unitB) (fun t =>
    (t.zone 6 1).offset == -20 && (t.zone 6 2).offset == 5 && (t.zone 6 4).offset == -40 && (t.zone 6 1).target.isNone
      && Memory.read t.mem 30 == 4 && Memory.read t.mem 31 == 0) = true := by decide +kernel

/-- A SWEEP to 500 plans a zone of base 240 at 240, and its target is 240 (R41, R36). -/
theorem test_sweep : after (.sweep []) (withUnit (withSlot base [0x70F, 0, 0, 500]) 6
      (unitWith 1 { Zone.reset with state := .rest, coverage := some 2800, base := some 240, plan := some 300, target := some 300 }))
    (fun t => (t.zone 6 1).plan == some 240 && (t.zone 6 1).target == some 240 && (t.unit 6).currentSweep == some 500) = true := by
  decide +kernel

/-- ZERO redirects a MOVING zone whose MOVE has been sent: a ZERO with a new tag (R66). -/
theorem test_zero : after (.zero []) (withSlot moving [0x710, 0, 0, 0x20002]) (fun t => (t.zone 6 1).moveKind == some .zero
    && (t.zone 6 1).commanded == some 0 && (t.line 6).queue.motion == [.zero 1 1]) = true := by decide +kernel

/-- LINE POWER ON of an OFF line: STARTING, its start timer at 50 ms, ACCEPTED (R74). -/
theorem test_linePowerOn : after (.linePowerOn []) (withSlot base [0x711, 0, 0, 1]) (fun t => (t.line 6).power == .starting
    && (t.line 6).startTimer == some 50 && Memory.read t.mem 30 == 1 && t.port.take == 1 && t.port.retire == 0) = true := by
  decide +kernel

/-- LINE POWER OFF of an ON line: stop taken, HALT ALL, its MOVING zone PENDING (R76, R68). -/
theorem test_linePowerOff : after (.linePowerOff []) (withSlot moving [0x711]) (fun t => (t.line 6).stopTaken
    && (t.line 6).queue == { haltAll := true, halts := [], motion := [] } && (t.zone 6 1).state == .pending && t.partGrants == 0) = true := by
  decide +kernel

/-- CHECK LINES of two OFF lines starts a check in DRAIN for 50 ms (R98, R99). -/
theorem test_checkLines : after (.checkLines []) (withSlot base [0x712, 0, 0, 8]) (fun t => (t.line 6).power == .check
    && (t.line 7).power == .check && t.check.any (fun c => c.phase == .drain && c.timer == some 50)
    && (t.unit 7).tracked.any (fun o => o.slot == 0)) = true := by decide +kernel

/-- A waiting TRIM starts: its pair is applied, and it is DONE on a line that is OFF (R174, R177). -/
theorem test_waitingOrderStart : after (.waitingOrderStart 6) (withUnit base 6 { unitB with waiting := some (waiting5 (.trim [(0, 7)]) true) })
    (fun t => (t.zone 6 0).offset == 7 && (t.unit 6).waiting.isNone && Memory.read t.mem 110 == 4) = true := by decide +kernel

/-- At ON the fountain's SWEEP takes tag 1 and the arbiter's MOVEs tags 2 and 3, and the first cycle sends the SWEEP (11.7). -/
theorem test_startTimerExpiry : after (.startTimerExpiry 6) (withLine (withUnit base 6 { unitB with
      zones := Vector.ofFn fun z : ZoneNo => if z.val < 3 then { Zone.reset with state := .pending, target := some (z.val + 30) } else Zone.reset }) 6
      { lineOn with power := .starting, startTimer := some 50, pendingList := [⟨0, .position⟩, ⟨1, .position⟩, ⟨2, .position⟩],
                    fountain := { Fountain.reset with wanted := some 400 } })
    (fun t => (t.line 6).power == .on && (t.line 6).sentFrame == some 0x184C8005 && (t.line 6).queue.motion == [.move 0 30 2, .move 1 31 3]
      && (t.line 6).fountainTags.sent == 1 && (t.line 6).cycle == some { slot := 0, last := false }
      && (t.line 6).tagCounter == 4 && (t.line 6).grants == 2 && (t.line 6).pendingList == [⟨2, .position⟩]) = true := by decide +kernel

/-- With stop taken the last cycle begins at the expiry and sends HALT ALL; the line does not pass through ON (R75, R77). -/
theorem test_startTimerExpiry_stop : after (.startTimerExpiry 6) (withLine base 6 { lineOn with
      power := .starting, startTimer := some 50, stopTaken := true, queue := { CommandQueue.empty with haltAll := true } })
    (fun t => (t.line 6).power == .starting && (t.line 6).startTimer == none && (t.line 6).sentFrame == some haltAllFrame
      && (t.line 6).cycle == some { slot := 0, last := true }) = true := by decide +kernel

/-- A line cycle sends a HALT before a MOVE (R80, R82). -/
theorem test_lineCycle : after (.lineCycle 6) (withLine base 6 { lineOn with queue := { haltAll := false, halts := [1], motion := [.move 0 30 2] } })
    (fun t => (t.line 6).sentFrame == some (haltFrame 1) && (t.line 6).queue.motion == [.move 0 30 2]) = true := by decide +kernel

/-- Zone 2 at 301 with tag 3 arrives at counter 413 with W = 30: REST, settle sheet 443 (11.7). -/
theorem test_replySlot : after (.replySlot 6 (.reply 0x12612D21 false))
    { withUnit moving 6 { unitWith 1 zoneMoving with loopParams := some loop73 } with timing := { base.timing with counter := 413 } }
    (fun t => (t.zone 6 1).state == .rest && (t.zone 6 1).position == some 301 && (t.zone 6 1).settleSheet == some 443
      && t.partGrants == 0) = true := by decide +kernel

/-- R11 looks at the module first; R47 keeps a zero entry whatever the target and position. -/
theorem test_placement_zeroEntry : [(ModuleState.missing, Placement.faulted), (.present, .pending)].all (fun p =>
    let l := { lineOn with modules := Vector.replicate 9 { ModuleRec.reset with state := p.1 }, pendingList := [⟨1, .zero⟩] }
    let s := withLine (withUnit base 6 (unitWith 1 { Zone.reset with state := .pending, target := some 500, position := some 500 })) 6 l
    s.placement 6 1 == p.2) = true := by decide

/-- The sixteenth silent slot of a PRESENT module takes it MISSING and its zones to FAULTED (R90, R21). -/
theorem test_replySlot_missing : after (.replySlot 6 .silent) (withLine moving 6 { moving.line 6 with
      modules := Vector.replicate 9 { state := .present, lastOutcome := .noReply, missed := 15 } })
    (fun t => ((t.line 6).modules[1]).state == .missing && (t.zone 6 1).faultCause == some .noFeedback
      && (t.zone 6 0).state == .faulted && t.noticePending .lineEvent && t.noticePending .zoneFault) = true := by decide +kernel

/-- A move timeout: FAULTED STALLED, a HALT queued, the grant released (R64). -/
theorem test_moveTimeout : after (.moveTimeout 6 1) moving (fun t => (t.zone 6 1).faultCause == some .stalled
    && (t.line 6).queue.halts == [1] && (t.line 6).grants == 0) = true := by decide +kernel

/-- A line with a sweep move to 400 in flight. -/
def sweeping : Line :=
  { lineOn with queue := { CommandQueue.empty with motion := [.sweep 400 1] },
                fountain := { wanted := some 400, reached := some 300, move := some ⟨400, 1⟩, moveTimer := some 4000, pursuit := true } }

/-- A sweep timeout: sweep fault, reached absent, pursuit no, the frame removed (R94). -/
theorem test_sweepTimeout : after (.sweepTimeout 6) (withLine base 6 sweeping) (fun t => (t.unit 6).sweepFault
    && (t.line 6).fountain == { wanted := some 400, reached := none, move := none, moveTimer := none, pursuit := false }
    && (t.line 6).queue.motion.isEmpty) = true := by decide +kernel

/-- Overcurrent trips an ON line and returns its MOVING zone; the miss that the cycle cut counted at slot 0 is taken back, and slot 1 had
counted none (R78). -/
theorem test_overcurrent : after (.overcurrentSense 6) (withLine moving 6 { moving.line 6 with
      modules := Vector.replicate 9 { state := .present, lastOutcome := .noReply, missed := 3 } }) (fun t =>
    (t.line 6).power == .tripped && (t.zone 6 1).state == .pending && ((t.line 6).modules[1]).lastOutcome == .lineTripped
    && ((t.line 6).modules[0]).missed == 2 && ((t.line 6).modules[1]).missed == 3 && t.noticePending .lineEvent) = true := by decide +kernel

/-- A check of lines 7 and 8 in this phase. -/
def checkRun (p : CheckPhase) : CheckRun where
  lineA := 6
  lineB := 7
  phase := p
  timer := some 50
  findingA := none
  findingB := none
  orderSlot := some 5

/-- Lines 7 and 8 under check, tracked by both units. -/
def checking (p : CheckPhase) : State :=
  { withUnit (withUnit (withLine (withLine base 6 { Line.reset with power := .check }) 7 { Line.reset with power := .check }) 6
      { UnitRec.reset with tracked := some (order5 (.checkLines 6 7)) }) 7 { UnitRec.reset with tracked := some (order5 (.checkLines 6 7)) }
    with check := some (checkRun p) }

/-- DRAIN with line a high: SHORT TO SUPPLY, and ENERGIZE B follows (R99, R100). The last phase gives PASSED and DONE (R103). -/
theorem test_checkPhaseExpiry : after (.checkPhaseExpiry false true) (checking .drain) (fun t =>
      t.check.any fun c => c.phase == .energizeB && c.findingA == some .shortToSupply && c.timer == some 50) = true
    ∧ after (.checkPhaseExpiry true true) (checking .drainB) (fun t => t.check.isNone && (t.line 7).checkResult == .passed
      && Memory.read t.mem 110 == 4 && (t.unit 6).tracked.isNone && (t.unit 7).tracked.isNone) = true := by decide +kernel

/-- An open scan of number 3 and sheet 490, with no block. -/
def openScan3 : OpenScan where
  number := 3
  sheet := 490
  sum := 0x010001ED
  blocks := Vector.replicate 16 none

/-- A part with that scan open. -/
def scanning : State := { withUnit base 6 unitB with intake := { Intake.reset with scan := some openScan3, scanTimer := some 500 } }

/-- A SCAN OPEN frame opens a scan for 500 ms, its words in the sum (R110, R113). -/
theorem test_scanOpen : after (.scanOpen [] 3 490) base (fun t => t.intake.scan == some openScan3 && t.intake.scanTimer == some 500) = true := by
  decide +kernel

/-- A block joins the sum and is stored for a defined unit alone (R111). -/
theorem test_unitBlock : after (.unitBlock 7 [.density 1404]) scanning (fun t => t.intake.scan.any fun c => c.sum == 0x03000870
    && c.blocks[6] == some [.density 1404]) = true
    ∧ after (.unitBlock 8 [.density 1404]) scanning (fun t => t.intake.scan.any fun c => c.blocks[7].isNone && c.sum == 0x03000871) = true := by
  decide +kernel

/-- A record of 4 + 1 + 1 words opens segment 0: its header shows EMPTY with 1 record, and the fill point is 7 (11.7, R125, R167). -/
theorem test_scanClose : after (.scanClose [] 0x010001ED)
    { scanning with intake := { scanning.intake with scan := some { openScan3 with blocks := openScan3.blocks.set 6 (some [.density 1404]) } },
                    timing := { base.timing with counter := 494, run := .running, impression := true } }
    (fun t => Memory.read t.mem 2416 == 0x10 && t.port.openSegment == some { fillPoint := 7, records := 1, sequence := 0 }
      && Memory.readWords t.mem 2417 6 == [3, 490, 494, 0x100, 0x107, 0x8057C] && (t.zone 6 0).samples == [1404]
      && t.intake.lastScan == some 3) = true := by decide +kernel

/-- A segment opened over the host's header 30H, EMPTY, with the fill sequence at 5: a reset that abandons the last header leaves the
opening one, EMPTY with no record and sequence 5, and one that abandons the opening too the host's (R161, R167). -/
theorem test_openSegment : after (.unreadableFrame [⟨2416, 0x00000030⟩]) { scanning with port := { base.port with fillSequence := 5 } } (fun t =>
    let left (k : Nat) : Word := Memory.read (Memory.putBack anchor0.blockWord t.unfinished k t.mem) 2416
    [left 0, left 2, left 3, left 7, left 8] == [0x50010, 0x50010, 0x50000, 0x50000, 0x30]) = true := by decide +kernel

/-- A bad check word, an unreadable frame and a timeout each end the scan and count (R112 to R114). -/
theorem test_linkFaults : [Instr.scanClose [] 0, .unreadableFrame [], .scanTimeout []].all (fun c => after c scanning fun t =>
    t.intake.scan.isNone && t.intake.linkFaults == 1 && t.noticePending .scanFault && t.intake.lastScan == some 3) = true := by
  decide +kernel

/-! ### Witnesses: states and operands that meet the hypotheses of the obligations, clause by clause -/

/-- The slot of a state at T. -/
def slotIn (s : State) : Slot :=
  { words := Memory.readWords (Memory.hostWrites s.mem []) (anchor0.slotWord s.port.take 0) Config.slotWords }

/-- What makes the slot at T of a state on `anchor0` due. -/
def dueCheck (s : State) : Bool :=
  s.port.state == .attached && s.port.anchor == some anchor0 && Memory.wf s.mem && decide (s.port.take < 16)
    && decide (s.port.take ∉ s.heldSlots) && decide (s.port.take ≠ s.port.putValid)

/-- A state and operands meet the hypotheses of an order's obligation. -/
theorem meets {s : State} {p : Prop} [Decidable p] (h : (dueCheck s && decide p) = true) : s.Due [] anchor0 (slotIn s) ∧ p := by
  simp only [dueCheck, Bool.and_eq_true, beq_iff_eq, decide_eq_true_eq] at h
  obtain ⟨⟨⟨⟨⟨⟨h1, h2⟩, h3⟩, h4⟩, h5⟩, h6⟩, h7⟩ := h
  exact ⟨⟨⟨h1, h2, by decide, by decide, h3⟩, h4, h5, h6, rfl⟩, h7⟩

/-- The part is linked to `anchor0`, and a state and operands meet the other hypotheses of an obligation. -/
theorem links {s : State} {p : Prop} [Decidable p]
    (h : (s.port.state == .attached && s.port.anchor == some anchor0 && Memory.wf s.mem && decide p) = true) : s.Linked anchor0 ∧ p := by
  simp only [Bool.and_eq_true, beq_iff_eq, decide_eq_true_eq] at h
  obtain ⟨⟨⟨h1, h2⟩, h3⟩, h4⟩ := h
  exact ⟨⟨h1, h2, by decide, by decide, h3⟩, h4⟩

/-- With every pending list empty and no zone of unit 7 PENDING, the law of 3.1 holds of a state whose other units are undefined. -/
theorem lawful {s : State} {r : UnitRec} (hu : s.units = State.reset.units.set 6 r) (hz : ∀ z : ZoneNo, (r.zones[z]).state ≠ .pending)
    (hl : ∀ u, (s.line u).pendingList = []) : s.pendingLawful := by
  intro u z
  have h : (s.zone u z).state ≠ .pending := by
    unfold State.zone
    rw [hu]
    by_cases h6 : u = 6
    · subst h6
      simpa using hz z
    · have : (State.reset.units.set 6 r)[u] = UnitRec.reset := by
        have hne : (6 : Nat) ≠ u.val := fun h => h6 (Fin.ext h.symm)
        simp [hne, State.reset]
      simp [this, UnitRec.reset, Zone.reset]
  simp [Line.entriesOf, hl u, h]

/-- The law of 3.1 holds of a state that lists the PENDING zones of unit 7, its other units and lines being as after reset. -/
theorem lawfulOf {s : State} {r : UnitRec} {l : Line} (hu : s.units = State.reset.units.set 6 r) (hl : s.lines = State.reset.lines.set 6 l)
    (h : ∀ z : ZoneNo, l.entriesOf z = if (r.zones[z]).state = .pending then 1 else 0) : s.pendingLawful := by
  intro u z
  unfold State.zone State.line
  rw [hu, hl]
  by_cases h6 : u = 6
  · subst h6
    simpa using h z
  · have hne : (6 : Nat) ≠ u.val := fun h => h6 (Fin.ext h.symm)
    simp [hne, State.reset, UnitRec.reset, Zone.reset, Line.reset, Line.entriesOf]

/-- Unit 7 defined and an order in slot 0. -/
def taking (words : List Word) : State := withUnit (withSlot base words) 6 unitB

/-- The same at this sheet. -/
def takingAt (words : List Word) (counter : Sheet) : State := { taking words with timing := { base.timing with counter := counter } }

/-- Unit 7 with this order RUNNING, or WAITING, and an order in slot 0. -/
def takingWith (words : List Word) (tracked : Option OrderRecord) (waiting : Option WaitingOrder) : State :=
  withUnit (withSlot base words) 6 { unitB with tracked := tracked, waiting := waiting }

/-- Line 7 with this power and an order in slot 0. -/
def takingPower (words : List Word) (p : PowerState) (stop : Bool) : State :=
  withLine (taking words) 6 { lineOn with power := p, stopTaken := stop }

/-- An attach that passes, and one whose signature is wrong. -/
theorem witness_Attach : attaching.port.state = .attaching ∧ judgeAnchor (Memory.hostWrites attaching.mem anchorWrites) = none
    ∧ anchor0 = anchorOfMemory (Memory.hostWrites attaching.mem anchorWrites) ∧ attaching.heldSlots = [] ∧ Memory.wf attaching.mem = true
    ∧ judgeAnchor (Memory.hostWrites attaching.mem []) = some .badSignature := by decide +kernel

/-- A part that is ATTACHING with a DETACH deferred, unit 7 being defined and at rest. -/
def deferring : State := withUnit { attaching with port := { attaching.port with detachDeferred := true } } 6 unitB

theorem witness_AttachDeferred : deferring.port.state = .attaching ∧ deferring.port.detachDeferred = true
    ∧ deferring.heldSlots = [] ∧ Memory.wf deferring.mem = true ∧ judgeAnchor (Memory.hostWrites deferring.mem anchorWrites) = none
    ∧ deferring.pendingLawful ∧ deferring.grantsLawful :=
  ⟨by decide +kernel, by decide +kernel, by decide +kernel, by decide +kernel, by decide +kernel,
    lawful rfl (by decide +kernel) (by decide +kernel), by unfold State.grantsLawful; decide +kernel⟩

/-- A part that is DETACHED, one ATTACHING, and one ATTACHED with a word of its mirror unfinished. -/
theorem witness_ResetsClearTheMachine : State.reset.port.state ≠ .attached ∧ attaching.port.state ≠ .attached
    ∧ (({ base with unfinished := [(272, 1)] } : State).Linked anchor0 ∧ (15 < anchor0.ringLength ∧ anchor0.blockWord 272 = true)) :=
  ⟨by decide, by decide, links (by decide +kernel)⟩

theorem witness_RegisterWrites : State.reset.port.state = .detached ∧ base.port.state ≠ .detached ∧ (0 : Word) ≠ 1 ∧ (0 : Word) ≠ 2
    ∧ (0 : Word) ≠ 3 ∧ (4 : Word) ≠ 1 ∧ (4 : Word) ≠ 2 ∧ (4 : Word) ≠ 3 := by decide +kernel

theorem witness_DetachActsByPartState : State.reset.port.state = .detached ∧ attaching.port.state = .attaching
    ∧ (checking .drain).port.state = .attached ∧ (checking .drain).regionsInMemory = true ∧ (checkRun .drain).phase ≠ .abortDrain := by
  decide +kernel

/-- Unit 7's waiting SWEEP in slot 5, which is all that the ring holds. -/
def detaching : State :=
  { withUnit base 6 { unitB with waiting := some (waiting5 (.sweep 400) false), staged := some (Vector.replicate 64 0) } with
    port := { base.port with retire := 5, take := 6, putValid := 6 } }

/-- An order to end; a check to abort, whose order two units share; a ring that is accounted for; zones MOVING. -/
theorem witness_DetachEndsOrders :
    (detaching.Linked anchor0 ∧ ((detaching.unit 6).waiting.map (·.order) = some (order5 (.sweep 400)) ∧ detaching.check = none
      ∧ (order5 (.sweep 400)).slot < anchor0.ringLength ∧ detaching.heldSlots.count 5 = 1))
    ∧ detaching.RingAccounted anchor0
    ∧ ((checking .drain).Linked anchor0 ∧ ((checking .drain).check = some (checkRun .drain) ∧ (checkRun .drain).lineA ≠ (checkRun .drain).lineB
      ∧ ((checking .drain).unit 6).tracked = some (order5 (.checkLines 6 7)) ∧ ((checking .drain).unit 7).tracked = some (order5 (.checkLines 6 7))
      ∧ (checking .drain).heldSlots.count 5 = 2))
    ∧ moving.Linked anchor0 ∧ (moving.zone 6 1).state = .moving :=
  ⟨links (by decide +kernel), ⟨by decide, by decide, by decide +kernel, by decide, by decide +kernel, by decide +kernel⟩,
    links (by decide +kernel), links (by decide +kernel)⟩

/-- P = 15 is valid, 16 lies outside the ring, and 1 lies behind a T of 2 counted from an R of 0; none left to take. -/
theorem witness_OrderScanJudgesThePutOffset : [(15, 0), (16, 0), (1, 2)].all (fun p =>
    let s : State := { base with port := { base.port with take := p.2, putValid := p.2 } };
    decide (s.port.state = .attached ∧ s.port.anchor = some anchor0 ∧ s.regionsInMemory = true ∧ s.port.take = s.port.putValid
      ∧ (Memory.read (Memory.hostWrites s.mem [⟨12, BitVec.ofNat 32 p.1⟩]) 12).toNat = p.1
      ∧ judgePut 16 s.port.take s.port.retire p.1 = if p.1 = 16 then .putOutOfRange else if p.1 = 1 then .putBehindTake else .none)) = true := by
  decide +kernel

/-- Kinds 0 and 19; units 0 and 17; line b 17; unit 16 undefined. -/
theorem witness_RefusedOrdersChangeNothing :
    ((taking [0]).Due [] anchor0 (slotIn (taking [0])) ∧ (slotIn (taking [0])).kind = none)
    ∧ ((taking [19]).Due [] anchor0 (slotIn (taking [19])) ∧ (slotIn (taking [19])).kind = none)
    ∧ ((taking [0x0003]).Due [] anchor0 (slotIn (taking [0x0003])) ∧ ofKind .setLoop (slotIn (taking [0x0003])) = true
      ∧ (slotIn (taking [0x0003])).unit? = none)
    ∧ ((taking [0x1112, 0, 0, 8]).Due [] anchor0 (slotIn (taking [0x1112, 0, 0, 8]))
      ∧ ofKind .checkLines (slotIn (taking [0x1112, 0, 0, 8])) = true ∧ (slotIn (taking [0x1112, 0, 0, 8])).unit? = none)
    ∧ ((taking [0x112, 0, 0, 17]).Due [] anchor0 (slotIn (taking [0x112, 0, 0, 17]))
      ∧ (slotIn (taking [0x112, 0, 0, 17])).kind = some .checkLines ∧ unitOfNumber (wholeWord (slotIn (taking [0x112, 0, 0, 17])) 3) = none)
    ∧ ((taking [0x1003]).Due [] anchor0 (slotIn (taking [0x1003])) ∧ ofKind .setLoop (slotIn (taking [0x1003])) = true
      ∧ (slotIn (taking [0x1003])).unit? = some 15 ∧ ((taking [0x1003]).unit 15).config = none) :=
  ⟨meets (by decide +kernel), meets (by decide +kernel), meets (by decide +kernel), meets (by decide +kernel), meets (by decide +kernel),
    meets (by decide +kernel)⟩

/-- A DEFINE UNIT with 64 zones. -/
def slotDefine64 : List Word := [0x701, 0, 0, 0xC80040, 0xC80000, 0x1900001, 0x2BC012C, 0x384001E, 0x14012C, 0x20005, 4000]

/-- A unit with an order; Z = 3; Z = 6 and Z = 64. -/
theorem witness_DefineUnitDefines :
    (let s := takingWith slotDefine (some (order5 (.trim []))) none;
      s.Due [] anchor0 (slotIn s) ∧ (slotIn s).kind = some .defineUnit ∧ (slotIn s).unit? = some 6 ∧ s.defineBusy 6 = true)
    ∧ (let s := taking [0x701, 0, 0, 0xC80003, 0xC80000, 0x1900001, 0x2BC012C, 0x384001E, 0x14012C, 0x20005, 4000];
      s.Due [] anchor0 (slotIn s) ∧ (slotIn s).kind = some .defineUnit ∧ (slotIn s).unit? = some 6 ∧ s.defineBusy 6 = false
        ∧ defineOperands (slotIn s) = none)
    ∧ (let s := taking slotDefine;
      s.Due [] anchor0 (slotIn s) ∧ (slotIn s).kind = some .defineUnit ∧ (slotIn s).unit? = some 6 ∧ s.defineBusy 6 = false
        ∧ defineOperands (slotIn s) = some configB)
    ∧ (let s := taking slotDefine64;
      s.Due [] anchor0 (slotIn s) ∧ (slotIn s).kind = some .defineUnit ∧ (slotIn s).unit? = some 6 ∧ s.defineBusy 6 = false
        ∧ defineOperands (slotIn s) = some { configB with zoneCount := 64 }) :=
  ⟨meets (by decide +kernel), meets (by decide +kernel), meets (by decide +kernel), meets (by decide +kernel)⟩

/-- Curve 8; curve 7 with an ordinate of 1,001; curve 7 with eleven ordinates of 1,000. -/
theorem witness_LoadCurveReplacesOneCurve :
    (let s := taking [2, 0, 0, 8];
      s.Due [] anchor0 (slotIn s) ∧ (slotIn s).kind = some .loadCurve ∧ 8 ≤ wholeWord (slotIn s) 3)
    ∧ (let s := taking [2, 0, 0, 7, 0, 0, 0, 0, 0, 1001];
      s.Due [] anchor0 (slotIn s) ∧ (slotIn s).kind = some .loadCurve ∧ wholeWord (slotIn s) 3 = 7 ∧ (slotIn s).atSheetFlag = false
        ∧ 1000 < (curveOrdinates (slotIn s))[10])
    ∧ (let s := taking [2, 0, 0, 7, 0x3E803E8, 0x3E803E8, 0x3E803E8, 0x3E803E8, 0x3E803E8, 1000];
      s.Due [] anchor0 (slotIn s) ∧ (slotIn s).kind = some .loadCurve ∧ wholeWord (slotIn s) 3 = 7 ∧ (slotIn s).atSheetFlag = false
        ∧ ∀ i : Fin 11, (curveOrdinates (slotIn s))[i] ≤ 1000
          ∧ ∀ j : Fin 11, i < j → (curveOrdinates (slotIn s))[i] ≤ (curveOrdinates (slotIn s))[j]) :=
  ⟨meets (by decide +kernel), meets (by decide +kernel), meets (by decide +kernel)⟩

/-- Settle W of 9, and of 10. -/
theorem witness_SetLoopReplacesTheParameters :
    (let s := taking [0x703, 0, 0, 1, 0x190578, 0x140032, 0x90002];
      s.Due [] anchor0 (slotIn s) ∧ (slotIn s).kind = some .setLoop ∧ (slotIn s).unit? = some 6 ∧ (s.unit 6).config = some configB
        ∧ loopOperands (slotIn s) = none)
    ∧ (let s := taking [0x703, 0, 0, 1, 0x190578, 0x140032, 0xA0002];
      s.Due [] anchor0 (slotIn s) ∧ (slotIn s).kind = some .setLoop ∧ (slotIn s).unit? = some 6 ∧ (s.unit 6).config = some configB
        ∧ loopOperands (slotIn s) = some (true, { targetDensity := 1400, deadband := 25, gain := 50, stepMax := 20, samplesA := 2, settleW := 10 })) :=
  ⟨meets (by decide +kernel), meets (by decide +kernel)⟩

/-- An action of bit 18; all three parts with N = 65,535. -/
theorem witness_SetTimingAppliesItsParts :
    (let s := taking [4, 0, 0, 1, 0x40019];
      s.Due [] anchor0 (slotIn s) ∧ (slotIn s).kind = some .setTiming ∧ timingOperands (slotIn s) = none)
    ∧ (let s := taking [4, 0, 0, 7, 0x3FFFF, 1, 5, 6, 7];
      s.Due [] anchor0 (slotIn s) ∧ (slotIn s).kind = some .setTiming
        ∧ timingOperands (slotIn s) = some { interval := some (65535, true, true), watch := some (true, 5, 6), load := some 7 }) :=
  ⟨meets (by decide +kernel), meets (by decide +kernel)⟩

/-- Entry 5; entry 4 with low and high both 3,000. -/
theorem witness_SetWatchWritesOneEntry :
    (let s := taking [0x705, 0, 0, 0x10005];
      s.Due [] anchor0 (slotIn s) ∧ (slotIn s).kind = some .setWatch ∧ (slotIn s).unit? = some 6 ∧ watchOperands (slotIn s) = none)
    ∧ (let s := taking [0x705, 0, 0, 0x10004, 0xBB80BB8];
      s.Due [] anchor0 (slotIn s) ∧ (slotIn s).kind = some .setWatch ∧ (slotIn s).unit? = some 6
        ∧ watchOperands (slotIn s) = some (3, true, 3000, 3000)) :=
  ⟨meets (by decide +kernel), meets (by decide +kernel)⟩

/-- With the at-sheet flag, and without. -/
theorem witness_SetNoticesReplacesTheMask :
    (let s := taking [0x20006];
      s.Due [] anchor0 (slotIn s) ∧ (slotIn s).kind = some .setNotices ∧ (slotIn s).atSheetFlag = true)
    ∧ (let s := taking [6, 0, 0, 0x3FF];
      s.Due [] anchor0 (slotIn s) ∧ (slotIn s).kind = some .setNotices ∧ (slotIn s).atSheetFlag = false) :=
  ⟨meets (by decide +kernel), meets (by decide +kernel)⟩

/-- With the at-sheet flag, and without, unit 7 being defined. -/
theorem witness_SnapshotShowsTheMachine :
    (let s := taking [0x2000B];
      s.Due [] anchor0 (slotIn s) ∧ (slotIn s).kind = some .snapshot ∧ (slotIn s).atSheetFlag = true)
    ∧ (let s := taking [11];
      s.Due [] anchor0 (slotIn s) ∧ (slotIn s).kind = some .snapshot ∧ (slotIn s).atSheetFlag = false ∧ (s.unit 6).config.isSome = true) :=
  ⟨meets (by decide +kernel), meets (by decide +kernel)⟩

/-- Settings 1, 0 and 2. -/
theorem witness_IntakeOrderSwitches :
    (let s := taking [7, 0, 0, 1];
      s.Due [] anchor0 (slotIn s) ∧ (slotIn s).kind = some .intake ∧ settingOperand (slotIn s) = some true)
    ∧ (let s := taking [7];
      s.Due [] anchor0 (slotIn s) ∧ (slotIn s).kind = some .intake ∧ settingOperand (slotIn s) = some false)
    ∧ (let s := taking [7, 0, 0, 2];
      s.Due [] anchor0 (slotIn s) ∧ (slotIn s).kind = some .intake ∧ settingOperand (slotIn s) = none ∧ wholeWord (slotIn s) 3 ≠ 0
        ∧ wholeWord (slotIn s) 3 ≠ 1) :=
  ⟨meets (by decide +kernel), meets (by decide +kernel), meets (by decide +kernel)⟩

/-- Zones 1 to 7 of a unit of six; zones 1 to 6, zone 2 being MOVING. -/
theorem witness_HoldTakesZonesOutOfMetering :
    (let s := withSlot moving [0x708, 0, 0, 0x70001];
      s.Due [] anchor0 (slotIn s) ∧ (slotIn s).kind = some .hold ∧ (slotIn s).unit? = some 6 ∧ (s.unit 6).config = some configB
        ∧ rangeOperands (slotIn s) configB.zoneCount = none)
    ∧ (let s := withSlot moving [0x708, 0, 0, 0x60001];
      (s.Due [] anchor0 (slotIn s) ∧ (slotIn s).kind = some .hold ∧ (slotIn s).unit? = some 6 ∧ (s.unit 6).config = some configB
        ∧ rangeOperands (slotIn s) configB.zoneCount = some (1, 6)) ∧ s.pendingLawful) :=
  ⟨meets (by decide +kernel), meets (by decide +kernel), lawful rfl (by decide +kernel) (by decide +kernel)⟩

/-- A CLEAR FAULT of zones 1 to 7, and a RELEASE of zone 6 alone, at REST and HELD. -/
theorem witness_ReleaseAndClearFaultPlaceZones :
    (let s := taking [0x70A, 0, 0, 0x70001];
      s.Due [] anchor0 (slotIn s) ∧ (slotIn s).kind = some .clearFault ∧ (slotIn s).unit? = some 6 ∧ (s.unit 6).config = some configB
        ∧ rangeOperands (slotIn s) configB.zoneCount = none)
    ∧ (let s := withUnit (withSlot base [0x709, 0, 0, 0x60006]) 6 (unitWith 5 { Zone.reset with state := .held, target := some 300 });
      (s.Due [] anchor0 (slotIn s) ∧ (slotIn s).kind = some .release ∧ (slotIn s).unit? = some 6 ∧ (s.unit 6).config = some configB
        ∧ rangeOperands (slotIn s) configB.zoneCount = some (6, 6) ∧ (s.zone 6 5).state = .held) ∧ s.pendingLawful) :=
  ⟨meets (by decide +kernel), meets (by decide +kernel), lawful rfl (by decide +kernel) (by decide +kernel)⟩

/-- The at-sheet flag; no order; a waiting SWEEP; a running TRIM; a check. -/
theorem witness_AbortEndsTheUnitsOrder :
    (let s := taking [0x2070C];
      s.Due [] anchor0 (slotIn s) ∧ (slotIn s).kind = some .abort ∧ (slotIn s).unit? = some 6 ∧ (slotIn s).atSheetFlag = true)
    ∧ (let s := taking [0x70C];
      s.Due [] anchor0 (slotIn s) ∧ (slotIn s).kind = some .abort ∧ (slotIn s).unit? = some 6 ∧ (slotIn s).atSheetFlag = false
        ∧ (s.unit 6).tracked = none ∧ (s.unit 6).waiting = none)
    ∧ (let s := takingWith [0x70C] none (some (waiting5 (.sweep 400) false));
      s.Due [] anchor0 (slotIn s) ∧ (slotIn s).kind = some .abort ∧ (slotIn s).unit? = some 6 ∧ (slotIn s).atSheetFlag = false
        ∧ (s.unit 6).tracked = none ∧ (s.unit 6).waiting = some (waiting5 (.sweep 400) false) ∧ (order5 (.sweep 400)).slot < anchor0.ringLength)
    ∧ (let s := takingWith [0x70C] (some (order5 (.trim []))) none;
      s.Due [] anchor0 (slotIn s) ∧ (slotIn s).kind = some .abort ∧ (slotIn s).unit? = some 6 ∧ (slotIn s).atSheetFlag = false
        ∧ (s.unit 6).tracked = some (order5 (.trim [])) ∧ (order5 (.trim [])).slot < anchor0.ringLength)
    ∧ (let s := withSlot (checking .drain) [0x70C];
      s.Due [] anchor0 (slotIn s) ∧ (slotIn s).kind = some .abort ∧ (slotIn s).unit? = some 6 ∧ (slotIn s).atSheetFlag = false
        ∧ (s.unit 6).tracked = some (order5 (.checkLines 6 7)) ∧ (s.unit 7).tracked = some (order5 (.checkLines 6 7))
        ∧ s.check = some (checkRun .drain) ∧ (checkRun .drain).phase ≠ .abortDrain ∧ (checkRun .drain).lineA = 6 ∧ (checkRun .drain).lineB = 7
        ∧ (order5 (.checkLines 6 7)).slot < anchor0.ringLength) :=
  ⟨meets (by decide +kernel), meets (by decide +kernel), meets (by decide +kernel), meets (by decide +kernel), meets (by decide +kernel)⟩

/-- The traced PRESET with at-sheet value 100. -/
def slotPresetAt : List Word := [0x2070D, 0, 100, 4616, 0x64000E, -50, 1]

/-- The operands of the traced PRESET. -/
def presetB : PresetOperands where
  base := 4616
  bandCount := 14
  bandWidth := 100
  origin := -50
  policy := .keep

/-- At counter 99 a PRESET for sheet 100 waits. -/
theorem witness_PresetWaitsForItsSheet :
    (let s := takingAt slotPresetAt 99;
      s.Due [] anchor0 (slotIn s) ∧ (slotIn s).kind = some .preset ∧ (slotIn s).unit? = some 6 ∧ (s.unit 6).config = some configB
        ∧ presetOperands (slotIn s) = some presetB ∧ profileAllowed presetB anchor0 = true ∧ s.workBusy 6 = false
        ∧ (slotIn s).atSheetFlag = true ∧ ¬0 ≤ (s.timing.counter - (slotIn s).atSheet).toInt) := meets (by decide +kernel)

/-- No band; a profile that shares the mirror's last word, 2,351; a line in CHECK; at counter 100 a PRESET for sheet 100 starts. -/
theorem witness_PresetSetsEveryZone :
    (let s := taking [0x70D, 0, 0, 4616, 0x640000, -50, 1];
      s.Due [] anchor0 (slotIn s) ∧ (slotIn s).kind = some .preset ∧ (slotIn s).unit? = some 6 ∧ (s.unit 6).config = some configB
        ∧ presetOperands (slotIn s) = none)
    ∧ (let s := taking [0x70D, 0, 0, 2351, 0x64000E, -50, 1];
      s.Due [] anchor0 (slotIn s) ∧ (slotIn s).kind = some .preset ∧ (slotIn s).unit? = some 6 ∧ (s.unit 6).config = some configB
        ∧ presetOperands (slotIn s) = some { presetB with base := 2351 } ∧ profileAllowed { presetB with base := 2351 } anchor0 = false)
    ∧ (let s := takingPower slotPreset .check false;
      s.Due [] anchor0 (slotIn s) ∧ (slotIn s).kind = some .preset ∧ (slotIn s).unit? = some 6 ∧ (s.unit 6).config = some configB
        ∧ presetOperands (slotIn s) = some presetB ∧ profileAllowed presetB anchor0 = true ∧ s.workBusy 6 = true)
    ∧ (let s := takingAt slotPresetAt 100;
      s.Due [] anchor0 (slotIn s) ∧ (slotIn s).kind = some .preset ∧ (slotIn s).unit? = some 6 ∧ (s.unit 6).config = some configB
        ∧ presetOperands (slotIn s) = some presetB ∧ profileAllowed presetB anchor0 = true ∧ s.workBusy 6 = false
        ∧ ((slotIn s).atSheetFlag = true → 0 ≤ (s.timing.counter - (slotIn s).atSheet).toInt)) :=
  ⟨meets (by decide +kernel), meets (by decide +kernel), meets (by decide +kernel), meets (by decide +kernel)⟩

/-- A pair of zone 7; zones 1 and 6 by ±300 on a busy unit, at counter 99 and at counter 100. -/
theorem witness_TrimMovesTheOffsets :
    (let s := taking [0x70E, 0, 0, 7];
      s.Due [] anchor0 (slotIn s) ∧ (slotIn s).kind = some .trim ∧ (slotIn s).unit? = some 6 ∧ (s.unit 6).config = some configB
        ∧ trimOperands (slotIn s) configB.zoneCount = none)
    ∧ (let s := takingWith [0x70E, 0, 0, 0xFED40001, 0x12C0006] (some (order5 (.zero 1 1))) none;
      s.Due [] anchor0 (slotIn s) ∧ (slotIn s).kind = some .trim ∧ (slotIn s).unit? = some 6 ∧ (s.unit 6).config = some configB
        ∧ trimOperands (slotIn s) configB.zoneCount = some [(0, -300), (5, 300)] ∧ s.workBusy 6 = true)
    ∧ (let s := takingAt [0x2070E, 0, 100, 0xFED40001, 0x12C0006] 99;
      s.Due [] anchor0 (slotIn s) ∧ (slotIn s).kind = some .trim ∧ (slotIn s).unit? = some 6 ∧ (s.unit 6).config = some configB
        ∧ trimOperands (slotIn s) configB.zoneCount = some [(0, -300), (5, 300)] ∧ s.workBusy 6 = false ∧ (slotIn s).atSheetFlag = true
        ∧ ¬0 ≤ (s.timing.counter - (slotIn s).atSheet).toInt)
    ∧ (let s := takingAt [0x2070E, 0, 100, 0xFED40001, 0x12C0006] 100;
      s.Due [] anchor0 (slotIn s) ∧ (slotIn s).kind = some .trim ∧ (slotIn s).unit? = some 6 ∧ (s.unit 6).config = some configB
        ∧ trimOperands (slotIn s) configB.zoneCount = some [(0, -300), (5, 300)] ∧ s.workBusy 6 = false
        ∧ ((slotIn s).atSheetFlag = true → 0 ≤ (s.timing.counter - (slotIn s).atSheet).toInt)) :=
  ⟨meets (by decide +kernel), meets (by decide +kernel), meets (by decide +kernel), meets (by decide +kernel)⟩

/-- Older orders that a PRESET, TRIM or SWEEP supersedes, RUNNING and WAITING: one for sheet 100 at counter 99, and one that starts. -/
theorem witness_Superseded : [(some (order5 (.trim [])), none), (none, some (waiting5 (.sweep 400) false))].all (fun p =>
    [slotPresetAt, [0x2070E, 0, 100, 0x70001], [0x2070F, 0, 100, 400], slotPreset].all fun words =>
      let s : State := { takingWith words p.1 p.2 with timing := { base.timing with counter := 99 } };
      dueCheck s && decide (s.workBusy 6 = false ∧ s.heldSlots.count 5 = 1 ∧ 5 < anchor0.ringLength)) = true := by decide +kernel

/-- Unit 7's zone 1 at REST and zone 2 MOVING, with plans and bases, and an order in slot 0 for sheet 100. -/
def reacting (words : List Word) : State :=
  let r : Zone := { Zone.reset with state := .rest, coverage := some 2800, base := some 240, plan := some 300, target := some 300 }
  { withUnit (withSlot base words) 6 ((unitWith 0 r) |> fun x => { x with zones := x.zones.set 1 { zoneMoving with coverage := r.coverage, base := r.base } }) with
    timing := { base.timing with counter := 100 } }

/-- Every pass makes the zones of a lawful state act, of which one at REST and one MOVING have plans and bases. -/
theorem witness_Reactions : (∀ words, (reacting words).pendingLawful)
    ∧ [slotPresetAt, [0x2070E, 0, 100, 0xFED40001, 0x12C0002], [0x2070F, 0, 100, 1000]].all (fun words => dueCheck (reacting words)) = true
    ∧ [0, 1].all (fun z : ZoneNo => ((reacting []).zone 6 z).plan == some 300 && ((reacting []).zone 6 z).base == some 240
      && [((0 : ZoneNo), (-300 : Int)), (1, 300)].countP (fun p => p.1 == z) == 1) = true :=
  ⟨fun _ => lawful rfl (by decide +kernel) (by intro u; simp [reacting, withUnit, withSlot, base, State.line, State.reset, Line.reset]),
    by decide +kernel, by decide +kernel⟩

/-- Values 99 and 1,001; 100 on a busy unit and at counter 99; 1,000 at counter 100. -/
theorem witness_SweepRescalesTheUnit :
    (let s := taking [0x70F, 0, 0, 99];
      s.Due [] anchor0 (slotIn s) ∧ (slotIn s).kind = some .sweep ∧ (slotIn s).unit? = some 6 ∧ (s.unit 6).config = some configB
        ∧ ¬(100 ≤ wholeWord (slotIn s) 3 ∧ wholeWord (slotIn s) 3 ≤ 1000))
    ∧ (let s := taking [0x70F, 0, 0, 1001];
      s.Due [] anchor0 (slotIn s) ∧ (slotIn s).kind = some .sweep ∧ (slotIn s).unit? = some 6 ∧ (s.unit 6).config = some configB
        ∧ ¬(100 ≤ wholeWord (slotIn s) 3 ∧ wholeWord (slotIn s) 3 ≤ 1000))
    ∧ (let s := takingWith [0x70F, 0, 0, 100] (some (order5 (.linePower true))) none;
      s.Due [] anchor0 (slotIn s) ∧ (slotIn s).kind = some .sweep ∧ (slotIn s).unit? = some 6 ∧ (s.unit 6).config = some configB
        ∧ wholeWord (slotIn s) 3 = 100 ∧ s.workBusy 6 = true)
    ∧ (let s := takingAt [0x2070F, 0, 100, 100] 99;
      s.Due [] anchor0 (slotIn s) ∧ (slotIn s).kind = some .sweep ∧ (slotIn s).unit? = some 6 ∧ (s.unit 6).config = some configB
        ∧ wholeWord (slotIn s) 3 = 100 ∧ s.workBusy 6 = false ∧ (slotIn s).atSheetFlag = true
        ∧ ¬0 ≤ (s.timing.counter - (slotIn s).atSheet).toInt)
    ∧ (let s := takingAt [0x2070F, 0, 100, 1000] 100;
      s.Due [] anchor0 (slotIn s) ∧ (slotIn s).kind = some .sweep ∧ (slotIn s).unit? = some 6 ∧ (s.unit 6).config = some configB
        ∧ wholeWord (slotIn s) 3 = 1000 ∧ s.workBusy 6 = false
        ∧ ((slotIn s).atSheetFlag = true → 0 ≤ (s.timing.counter - (slotIn s).atSheet).toInt)) :=
  ⟨meets (by decide +kernel), meets (by decide +kernel), meets (by decide +kernel), meets (by decide +kernel), meets (by decide +kernel)⟩

/-- Zones 1 to 7; zones 1 to 6 on a unit with a waiting order, and with none, zone 2 being MOVING. -/
theorem witness_ZeroAsksForZeroMoves :
    (let s := taking [0x710, 0, 0, 0x70001];
      (s.Due [] anchor0 (slotIn s) ∧ (slotIn s).kind = some .zero ∧ (slotIn s).unit? = some 6 ∧ (s.unit 6).config = some configB
        ∧ rangeOperands (slotIn s) configB.zoneCount = none) ∧ s.pendingLawful)
    ∧ (let s := takingWith [0x710, 0, 0, 0x60001] none (some (waiting5 (.sweep 400) false));
      (s.Due [] anchor0 (slotIn s) ∧ (slotIn s).kind = some .zero ∧ (slotIn s).unit? = some 6 ∧ (s.unit 6).config = some configB
        ∧ rangeOperands (slotIn s) configB.zoneCount = some (1, 6) ∧ (s.unit 6).waiting.isSome = true) ∧ s.pendingLawful)
    ∧ (let s := withSlot moving [0x710, 0, 0, 0x60001];
      (s.Due [] anchor0 (slotIn s) ∧ (slotIn s).kind = some .zero ∧ (slotIn s).unit? = some 6 ∧ (s.unit 6).config = some configB
        ∧ rangeOperands (slotIn s) configB.zoneCount = some (1, 6) ∧ (s.unit 6).tracked = none ∧ (s.unit 6).waiting = none
        ∧ (s.line 6).power ≠ .check) ∧ s.pendingLawful) :=
  ⟨⟨meets (by decide +kernel), lawful rfl (by decide +kernel) (by decide +kernel)⟩, ⟨meets (by decide +kernel), lawful rfl (by decide +kernel) (by decide +kernel)⟩,
    meets (by decide +kernel), lawful rfl (by decide +kernel) (by decide +kernel)⟩

/-- Every power state: refused in CHECK and not refused elsewhere, by a LINE POWER ON and a LINE POWER OFF. -/
theorem witness_LinePower (p : PowerState) :
    (let s := takingPower [0x711, 0, 0, 1] p false;
      s.Due [] anchor0 (slotIn s) ∧ (slotIn s).kind = some .linePower ∧ (slotIn s).unit? = some 6 ∧ settingOperand (slotIn s) = some true
        ∧ (s.line 6).power = p ∧ s.linePowerRefusal 6 true = if p = .check then some .lineInCheck else none)
    ∧ (let s := takingPower [0x711] p false;
      s.Due [] anchor0 (slotIn s) ∧ (slotIn s).kind = some .linePower ∧ (slotIn s).unit? = some 6 ∧ settingOperand (slotIn s) = some false
        ∧ (s.line 6).power = p ∧ s.linePowerRefusal 6 false = if p = .check then some .lineInCheck else none) := by
  cases p <;> exact ⟨meets (by decide +kernel), meets (by decide +kernel)⟩

/-- A RUNNING work order that a LINE POWER OFF ends on a line that is ON, and one that a trip ends. -/
theorem witness_LineEndsTheOrder :
    (let s := withLine (takingWith [0x711] (some (order5 (.trim []))) none) 6 lineOn;
      s.Due [] anchor0 (slotIn s) ∧ (slotIn s).kind = some .linePower ∧ (slotIn s).unit? = some 6 ∧ settingOperand (slotIn s) = some false
        ∧ (s.line 6).power = .on ∧ s.linePowerRefusal 6 false = none ∧ (s.unit 6).tracked = some (order5 (.trim []))
        ∧ s.heldSlots.count 5 = 1 ∧ 5 < anchor0.ringLength)
    ∧ (let s := withLine (withUnit base 6 { unitB with tracked := some (order5 (.trim [])) }) 6 lineOn;
      s.Linked anchor0 ∧ ((s.line 6).power = .on ∧ (s.unit 6).tracked = some (order5 (.trim [])) ∧ s.heldSlots.count 5 = 1)) :=
  ⟨meets (by decide +kernel), links (by decide +kernel)⟩

/-- Lines 7 and 7; lines 7 and 16 with line 7 in CHECK, ON, and OFF. -/
theorem witness_CheckLinesStartsInDrain :
    (let s := taking [0x712, 0, 0, 7];
      s.Due [] anchor0 (slotIn s) ∧ (slotIn s).kind = some .checkLines ∧ (slotIn s).unit? = some 6
        ∧ unitOfNumber (wholeWord (slotIn s) 3) = some 6)
    ∧ (let s := takingPower [0x712, 0, 0, 16] .check false;
      s.Due [] anchor0 (slotIn s) ∧ (slotIn s).kind = some .checkLines ∧ (slotIn s).unit? = some 6
        ∧ unitOfNumber (wholeWord (slotIn s) 3) = some 15 ∧ (slotIn s).atSheetFlag = false ∧ s.checkRefusal 6 15 = some .lineInCheck)
    ∧ (let s := takingPower [0x712, 0, 0, 16] .on false;
      s.Due [] anchor0 (slotIn s) ∧ (slotIn s).kind = some .checkLines ∧ (slotIn s).unit? = some 6
        ∧ unitOfNumber (wholeWord (slotIn s) 3) = some 15 ∧ (slotIn s).atSheetFlag = false ∧ s.checkRefusal 6 15 = some .lineNotOff)
    ∧ (let s := taking [0x712, 0, 0, 16];
      s.Due [] anchor0 (slotIn s) ∧ (slotIn s).kind = some .checkLines ∧ (slotIn s).unit? = some 6
        ∧ unitOfNumber (wholeWord (slotIn s) 3) = some 15 ∧ (slotIn s).atSheetFlag = false ∧ s.checkRefusal 6 15 = none) :=
  ⟨meets (by decide +kernel), meets (by decide +kernel), meets (by decide +kernel), meets (by decide +kernel)⟩

/-- A released waiting order of each kind, a PRESET with its staged coverage. -/
theorem witness_WaitingOrderStarts : [TrackedKind.preset .clear, .trim [(0, 300)], .sweep 1000].all (fun k =>
    let s := withUnit base 6 { unitB with waiting := some (waiting5 k true), staged := some (Vector.replicate 64 10000) };
    decide (s.regionsInMemory = true ∧ (s.unit 6).waiting = some (waiting5 k true) ∧ (s.unit 6).config = some configB
      ∧ (s.unit 6).staged.isSome = true ∧ k.superseded = true ∧ s.heldSlots.count 5 = 1 ∧ 5 < anchor0.ringLength)
      && s.port.state == .attached && s.port.anchor == some anchor0 && Memory.wf s.mem) = true := by decide +kernel

/-- A start timer that runs, with stop taken no and yes, on a part that is ATTACHED and on one that is DETACHED; a LINE POWER ON to end. -/
theorem witness_StartTimerBringsALineOn : [false, true].all (fun stop => [base, State.reset].all fun b =>
    let s := withLine (withUnit b 6 { unitB with tracked := some (order5 (.linePower true)) }) 6
      { Line.reset with power := .starting, startTimer := some 50, stopTaken := stop };
    decide (s.regionsInMemory = true ∧ (s.line 6).startTimer.isSome = true ∧ (s.line 6).stopTaken = stop
      ∧ (s.unit 6).tracked = some (order5 (.linePower true)) ∧ s.heldSlots.count 5 = 1 ∧ 5 < anchor0.ringLength)) = true := by decide +kernel

/-- Unit 7 with zones 1 and 2 PENDING on a line that starts, a drive budget of 8 and a line budget of 2. -/
def starting : State :=
  withLine (withUnit base 6 { unitB with
      zones := Vector.ofFn fun z : ZoneNo => { Zone.reset with state := if z.val < 2 then .pending else .off, target := some 30 } }) 6
    { lineOn with power := .starting, startTimer := some 50, pendingList := [⟨0, .position⟩, ⟨1, .zero⟩] }

/-- An ATTACHED part whose arbiter has two grants to give when the line comes ON. -/
theorem witness_ArbiterRan : starting.pendingLawful ∧ starting.port.state = .attached ∧ starting.regionsInMemory = true
    ∧ (starting.line 6).startTimer.isSome = true ∧ (starting.line 6).stopTaken = false
    ∧ after (.startTimerExpiry 6) starting (fun t => t.partGrants == 2 && t.pointer == 6) = true :=
  ⟨lawfulOf rfl rfl (by decide +kernel), by decide +kernel, by decide +kernel, by decide +kernel, by decide +kernel, by decide +kernel⟩

/-- A cycle due on an ON line, with and without stop taken, by each front of the queue. -/
theorem witness_LineCycleSendsTheFrontFrame : base.regionsInMemory = true ∧ lineOn.cycleDue = true
    ∧ ({ lineOn with stopTaken := true } : Line).cycleDue = true
    ∧ [⟨true, [1], []⟩, ⟨false, [1], []⟩, ⟨false, [], [.move 0 30 2]⟩, ⟨false, [], [.zero 0 2]⟩, ⟨false, [], [.sweep 400 1]⟩].all (fun q =>
      ({ lineOn with queue := q } : Line).cycleDue) = true := by decide +kernel

/-- The reply of `test_reply` at a distance of 1, with a zone commanded to 296 at the distance of the tolerance, 5. -/
theorem witness_ReplyWithinToleranceArrives : [300, 296].all (fun x =>
    let s := withUnit moving 6 (unitWith 1 { zoneMoving with commanded := some x });
    decide (s.regionsInMemory = true ∧ (s.line 6).cycle = some { slot := 1, last := false }
      ∧ judgeSlot 1 (.reply 0x12612D21 false) = .valid ∧ zoneOfReply 1 (replyOfWord 0x12612D21).key = some 1
      ∧ (replyOfWord 0x12612D21).motion = some .atRest ∧ (s.unit 6).config = some configB ∧ (1 : ZoneNo).val < configB.zoneCount
      ∧ (s.zone 6 1).state = .moving ∧ s.frameQueued 6 1 = false ∧ (s.zone 6 1).moveTag = some (replyOfWord 0x12612D21).tag
      ∧ (s.zone 6 1).moveKind = some .position ∧ (s.zone 6 1).commanded = some x
      ∧ distance (replyOfWord 0x12612D21).position x ≤ configB.tolerance)) = true := by decide +kernel

/-- Replies of zone 2's key, by 11.6: AT REST at 301 beyond tolerance with 0 and 2 attempts; for a ZERO at 301 and at 0; MOVING; BLOCKED; a
tag of 4 that does not match; and the module PRESENT and MISSING. -/
theorem witness_KeyReplies : [((0x12612D21 : Word), { zoneMoving with commanded := some 290 }), (0x12612D21, { zoneMoving with commanded := some 290, attempts := 2 }),
      (0x12612D21, { zoneMoving with moveKind := some .zero }), (0x08600021, { zoneMoving with moveKind := some .zero }),
      (0x14692D21, zoneMoving), (0x14712D21, zoneMoving), (0x10812D21, zoneMoving)].all (fun p => [ModuleState.present, .missing].all fun m =>
    let s := withLine (withUnit base 6 (unitWith 1 p.2)) 6 { lineOn with
      modules := Vector.replicate 9 { ModuleRec.reset with state := m }, cycle := some { slot := 1, last := false } };
    decide (s.regionsInMemory = true ∧ (s.line 6).cycle = some { slot := 1, last := false } ∧ judgeSlot 1 (.reply p.1 false) = .valid
      ∧ zoneOfReply 1 (replyOfWord p.1).key = some 1 ∧ (s.unit 6).config = some configB ∧ (s.zone 6 1).state = .moving
      ∧ s.frameQueued 6 1 = false ∧ ((s.zone 6 1).moveTag = some (replyOfWord p.1).tag ↔ p.1 ≠ 0x10812D21)
      ∧ (replyOfWord p.1).motion = some (if p.1 = 0x14692D21 then .moving else if p.1 = 0x14712D21 then .blocked else .atRest)
      ∧ (replyOfWord p.1).position = if p.1 = 0x08600021 then 0 else 301)) = true := by decide +kernel

/-- The state of the move timeout, the reply and the silent slot meets the law of 3.1. -/
theorem witness_moving_lawful : moving.pendingLawful := lawful rfl (by decide +kernel) (by decide +kernel)

/-- Slots 0 and 1 at 14 and 15 missed cycles, and modules of each other standing. -/
theorem witness_SilentSlotCountsAMissedCycle : [(ModuleState.present, 14), (.present, 15), (.missing, 16), (.notExpected, 0)].all (fun p =>
    [(0 : Fin 9), 1].all fun k =>
      let s := withLine base 6 { lineOn with cycle := some { slot := k, last := false },
                                             modules := Vector.replicate 9 { state := p.1, lastOutcome := .noReply, missed := p.2 } };
      decide (s.regionsInMemory = true ∧ (s.line 6).cycle = some { slot := k, last := false } ∧ ((s.line 6).modules[k]).state = p.1
        ∧ ((s.line 6).modules[k]).missed = p.2)) = true := by decide +kernel

/-- A LATE reply, one of the wrong module, one with a check error; and the last slot of a last cycle, LINE POWER OFF waiting for it. -/
theorem witness_SlotsNotValid : [Reception.reply 0x12612D21 true, .reply 0x04000018 false, .reply 0x10612D21 false].all (fun r =>
      decide (judgeSlot 1 r ≠ .valid)) = true
    ∧ (let s := withLine (withUnit base 6 { unitB with tracked := some (order5 (.linePower false)) }) 6
          { lineOn with stopTaken := true, cycle := some { slot := 8, last := true } };
      s.Linked anchor0 ∧ ((s.line 6).cycle = some { slot := 8, last := true } ∧ judgeSlot 8 .silent ≠ .valid
        ∧ (s.unit 6).tracked = some (order5 (.linePower false)) ∧ s.heldSlots.count 5 = 1)) :=
  ⟨by decide +kernel, links (by decide +kernel)⟩

theorem witness_MoveTimeoutStallsTheZone : moving.regionsInMemory = true ∧ (moving.zone 6 1).state = .moving
    ∧ (moving.zone 6 1).moveTimer.isSome = true ∧ moving.frameQueued 6 1 = false ∧ moving.port.state = .attached
    ∧ ({ moving with port := Port.reset } : State).regionsInMemory = true := by decide +kernel

theorem witness_SweepTimeoutFaultsTheFountain : (withLine base 6 sweeping).regionsInMemory = true
    ∧ ((withLine base 6 sweeping).line 6).fountain.move.isSome = true
    ∧ ((withLine base 6 sweeping).line 6).fountain.moveTimer.isSome = true := by decide +kernel

/-- Replies of the fountain drive to a sweep move to 400 with tag 1, sent: AT REST at 404 and at 406, MOVING, BLOCKED, and with tag 2. -/
theorem witness_FountainReplies : [((0x0A219400 : Word), Motion.atRest), (0x0C219600, .atRest), (0x0A299000, .moving), (0x0A319000, .blocked),
      (0x08419000, .atRest)].all (fun p =>
    let s := withLine (withUnit base 6 unitB) 6 { sweeping with queue := CommandQueue.empty, cycle := some { slot := 0, last := false } };
    decide (s.regionsInMemory = true ∧ (s.line 6).cycle = some { slot := 0, last := false } ∧ judgeSlot 0 (.reply p.1 false) = .valid
      ∧ (s.unit 6).config.isSome = true ∧ s.fountainModule 6 = .present ∧ (s.line 6).fountain.move = some ⟨400, 1⟩ ∧ s.sweepQueued 6 = false
      ∧ ((replyOfWord p.1).tag = 1 ↔ p.1 ≠ 0x08419000) ∧ (replyOfWord p.1).motion = some p.2)) = true
    ∧ (let s := withLine (withUnit base 6 unitB) 6 { lineOn with
          modules := Vector.replicate 9 { ModuleRec.reset with state := .missing }, cycle := some { slot := 0, last := false },
          fountain := { Fountain.reset with wanted := some 400 } };
      s.fountainModule 6 = .missing ∧ (s.line 6).fountain.move = none ∧ (s.line 6).fountain.wanted = some 400
        ∧ (s.line 6).inService = true) := by decide +kernel

/-- A line in each power state. -/
theorem witness_OvercurrentTripsTheLine : [PowerState.off, .starting, .on, .tripped, .check].all (fun p =>
    let s := withLine base 6 { lineOn with power := p };
    decide (s.regionsInMemory = true ∧ (s.line 6).power = p)) = true := by decide +kernel

/-- A check in each phase, without findings. -/
theorem witness_CheckPhasesTestTheLines : [CheckPhase.drain, .energizeA, .drainA, .energizeB, .drainB, .abortDrain].all (fun p =>
    decide ((checking p).regionsInMemory = true ∧ (checking p).check = some (checkRun p) ∧ (checkRun p).lineA ≠ (checkRun p).lineB
      ∧ (checkRun p).phase = p ∧ (checkRun p).findingA = none ∧ (checkRun p).findingB = none
      ∧ ((checking p).unit 6).tracked = some (order5 (.checkLines 6 7))) && (checking p).port.state == .attached
      && (checking p).port.anchor == some anchor0 && Memory.wf (checking p).mem) = true
    ∧ [(none, some CheckResult.shortToSupply), (some .shortToGround, none), (some .shortToSupply, some .crossCoupled)].all (fun f =>
      decide (({ checking .drainA with check := some { checkRun .drainA with findingA := f.1, findingB := f.2 } } : State).regionsInMemory
        = true)) = true := by decide +kernel

/-- A block of 1 and of 64 entries; the intake OFF, ARMED, ON and IDLE, and with a scan OPEN. -/
theorem witness_ScanLink : scanning.regionsInMemory = true ∧ 1 ≤ (List.replicate 64 Entry.patchAbsent).length
    ∧ (List.replicate 64 Entry.patchAbsent).length ≤ 64 ∧ scanning.intake.setting = .on ∧ scanning.intake.scan = some openScan3
    ∧ scanning.intake.scanTimer.isSome = true ∧ base.intake.setting = .on ∧ base.intake.scan = none
    ∧ bits (Memory.read (Memory.hostWrites scanning.mem [⟨2416, 1⟩]) (anchor0.storeBase + scanning.port.segment * anchor0.segmentSize)) 0 4 ≠ 0
    ∧ [IntakeSetting.off, .armed].all (fun i => ({ base with intake := { Intake.reset with setting := i } } : State).regionsInMemory) = true := by
  decide +kernel

/-- Unit 7's zone 1 and a scan open with its density of 1,404: a check word that closes it COMPLETE, the loop ON, a watch entry that
1,404 hits, and a RUNNING order. -/
def closing : State :=
  { scanning with units := base.units.set 6 { unitB with loopOn := true, loopParams := some loop73, tracked := some (order5 (.trim [])) },
                  intake := { scanning.intake with
                    scan := some { openScan3 with blocks := openScan3.blocks.set 6 (some [.density 1404]) },
                    watches := scanning.intake.watches.set 3 { enabled := true, unit := some 6, low := some 1405, high := some 3000, lastHit := none } },
                  timing := { base.timing with counter := 494, run := .running, impression := true } }

/-- It is lawful, its one reading is valid and hits, and the store position is lawful with no segment open and with one. -/
theorem witness_CompleteScan : closing.pendingLawful ∧ (closing.Linked anchor0 ∧ (closing.intake.setting = .on
      ∧ closing.validReadings { openScan3 with blocks := openScan3.blocks.set 6 (some [.density 1404]) } = [(6, 0, 1404)]
      ∧ (closing.intake.watches[3]).hits [(6, 0, 1404)] ≠ [] ∧ closing.heldSlots = [5] ∧ ∀ k ∈ closing.heldSlots, k < anchor0.ringLength))
    ∧ closing.StoreLawful anchor0
    ∧ ({ closing with port := { closing.port with segment := 1, openSegment := some ⟨1095, 1, 7⟩ } } : State).StoreLawful anchor0 :=
  ⟨lawful rfl (by decide +kernel) (by decide +kernel), links (by decide +kernel), ⟨by decide, by decide, fun _ h => by cases h⟩,
    ⟨by decide, by decide, fun _ h => by cases h; decide⟩⟩

/-- A mark that performs the interval's expiry with a snapshot, linked, and one that does not; a count that stands at 0; a run timer that
runs. -/
theorem witness_PressTiming : base.regionsInMemory = true
    ∧ (let s : State := { withUnit base 6 unitB with timing := { base.timing with period := 1, count := 1, actSnapshot := true, actScanRequest := true } };
      (s.regionsInMemory && s.port.state == .attached && s.port.anchor == some anchor0 && Memory.wf s.mem
        && decide ((s.unit 6).config.isSome = true ∧ s.timing.period ≠ 0 ∧ s.timing.count ≤ 1)) = true)
    ∧ ({ base.timing with period := 1 } : Timing).intervalDue = true
    ∧ ({ base.timing with run := .running, runTimer := some 2000 } : Timing).runTimer.isSome = true := by decide +kernel

/-- AUTO and FIXED units; a threshold that leaves every zone out, one that leaves none. -/
theorem witness_SweepChoice : configB.sweepMode = .fixed ∧ ({ configB with sweepMode := .auto } : UnitConfig).sweepMode = .auto
    ∧ configB.inRange = true ∧ 0 < configB.oCap ∧ (∀ z : ZoneNo, (Vector.replicate 64 299)[z] < configB.idleThreshold)
    ∧ (∀ z : ZoneNo, configB.idleThreshold ≤ (Vector.replicate 64 300)[z]) ∧ ∀ z : ZoneNo, (Vector.replicate 64 1000)[z] ≤ 1000 := by decide

/-- A step of the reset state's queue with an ATTACH in front answers next, so the laws that every step keeps are not empty. -/
theorem witness_StepAnswersNext : step (State.reset.withPending [.attach])
    = .next { State.reset with port := { Port.reset with state := .attaching, commandWord := 1, lastOutcome := .taken } } := rfl

/-- The reset state with an ATTACH waiting: a state from which a step answers next. -/
def stepping : State := State.reset.withPending [.attach]

/-- Every record of a vector of like records is that record. -/
theorem stepping_unit (u : UnitNo) : stepping.unit u = UnitRec.reset := by simp [stepping, State.withPending, State.unit, State.reset]

theorem stepping_zone (u : UnitNo) (z : ZoneNo) : stepping.zone u z = Zone.reset := by
  simp [stepping, State.withPending, State.zone, State.reset, UnitRec.reset]

theorem stepping_line (n : LineNo) : stepping.line n = Line.reset := by simp [stepping, State.withPending, State.line, State.reset]

/-- It meets every law that a statement of tier 3 takes as its premise. -/
theorem witness_Laws : Memory.wf stepping.mem = true ∧ stepping.offsetsInRange ∧ stepping.curvesValid ∧ stepping.boundsLawful
    ∧ stepping.targetsInRange ∧ stepping.pendingLawful ∧ stepping.zoneFieldsLawful ∧ stepping.samplesLawful ∧ stepping.oneOrderEach
    ∧ stepping.slotsInRing := by
  refine ⟨rfl, fun u z => ?_, ?_, fun u c h => ?_, fun u z x h => ?_, fun u z => ?_, fun u z => ?_, fun u z => ?_, fun u h => ?_, ?_⟩
  · rw [stepping_zone]; decide
  · show ∀ c : Fin 8, curveValid stepping.curves[c] = true
    decide +kernel
  · rw [stepping_unit] at h; cases h
  · rw [stepping_zone] at h; cases h
  · rw [stepping_line, stepping_zone]; simp [Line.entriesOf, Line.reset, Zone.reset]
  · rw [stepping_zone]; decide
  · rw [stepping_zone]; decide
  · rw [stepping_unit] at h; exact absurd h.1 (by decide)
  · show stepping.heldSlots = []
    decide +kernel

/-- An ATTACHED part with an order held in a slot of its ring. -/
theorem witness_SlotsInRing : (takingWith slotPreset (some (order5 (.trim []))) none).slotsInRing :=
  ⟨by decide, by decide, by decide +kernel⟩

/-- It holds no grant, as the premises of `GrantsStayWithinBudgets` ask. -/
theorem witness_GrantsStayWithinBudgets : stepping.grantsLawful ∧ stepping.budgetsLawful := by
  refine ⟨⟨fun n => ?_, ?_⟩, fun n => ?_, ?_⟩
  · rw [stepping_line, stepping_unit]; decide +kernel
  · show 0 = _
    simp only [stepping_line]
    decide
  · rw [stepping_line]; exact Nat.zero_le _
  · rfl

/-- A part that is not ATTACHED takes a command other than the success of an attach. -/
theorem witness_UnattachedPartWritesNothing : stepping.port.state ≠ .attached
    ∧ after .sheetMark stepping (fun t => t.timing.counter == 1) = true
    ∧ attaching.port.state ≠ .attached ∧ after .reset attaching (fun t => t.port.state == .detached) = true := by decide +kernel

/-- A mark answers next and is no command of the blocks it must leave alone; an ATTACH is none of press timing's. -/
theorem witness_Frames : Instr.sheetMark.setsPart = false ∧ Instr.sheetMark.setsIntake = false ∧ Instr.sheetMark.setsCheck = false
    ∧ Instr.sheetMark.setsConfig = false ∧ Instr.sheetMark.setsZones = false ∧ Instr.sheetMark.setsPower = false
    ∧ Instr.attach.setsTiming = false ∧ after .attach stepping (fun t => t.port.state == .attaching) = true := by decide +kernel

end Sys2Proof.Tests
end

