-- ==== Sys2Proof/Proofs/SweepChoice.lean ====
section
/-! PROOFS. Stage 4 of the opening computation: the base that demands most, the ceiling over o_cap, and the sweep chosen from them
(R33, R34). -/

namespace Sys2Proof.Machine

/-! ### The most demanding base -/

/-- The bases of the zones 1 to Z at or above the idle threshold, which R34 takes the largest of. -/
def qualifyingBases (c : UnitConfig) (coverage bases : Vector Nat 64) : List Nat :=
  ((zonesBelow c.zoneCount).filter fun z => c.idleThreshold ≤ coverage[z]).map fun z => bases[z]

@[simp] theorem mem_zonesBelow (zoneCount : Nat) (z : ZoneNo) : z ∈ zonesBelow zoneCount ↔ z.val < zoneCount := by
  simp [zonesBelow, ascending]

theorem mem_qualifyingBases (c : UnitConfig) (coverage bases : Vector Nat 64) (b : Nat) :
    b ∈ qualifyingBases c coverage bases
      ↔ ∃ z : ZoneNo, (z.val < c.zoneCount ∧ c.idleThreshold ≤ coverage[z]) ∧ bases[z] = b := by
  simp [qualifyingBases]

theorem forall_mem_qualifyingBases (c : UnitConfig) (coverage bases : Vector Nat 64) (p : Nat → Prop) :
    (∀ b ∈ qualifyingBases c coverage bases, p b)
      ↔ ∀ z : ZoneNo, z.val < c.zoneCount → c.idleThreshold ≤ coverage[z] → p bases[z] :=
  ⟨fun h z hz hidle => h _ ((mem_qualifyingBases ..).2 ⟨z, ⟨hz, hidle⟩, rfl⟩),
    fun h b hb => by obtain ⟨z, ⟨hz, hidle⟩, rfl⟩ := (mem_qualifyingBases ..).1 hb; exact h z hz hidle⟩

/-- Running the maximum in an `Option`, absent until the first element, finds the list's maximum. -/
theorem foldl_max_getD_eq_max? (l : List Nat) : l.foldl (fun m b => some (max (m.getD 0) b)) none = l.max? := by
  cases l with
  | nil => rfl
  | cons a l =>
    rw [List.foldl_cons, List.max?_cons']
    simpa using List.foldl_hom (l := l) (init := a) some (g₁ := max) (g₂ := fun m b => some (max (m.getD 0) b)) fun _ _ => rfl

theorem demandingBase_eq_max? (c : UnitConfig) (coverage bases : Vector Nat 64) :
    demandingBase c coverage bases = (qualifyingBases c coverage bases).max? := by
  rw [← foldl_max_getD_eq_max?, qualifyingBases, List.foldl_map, List.foldl_filter]
  simp [demandingBase]

theorem demandingBase_eq_none_iff (c : UnitConfig) (coverage bases : Vector Nat 64) :
    demandingBase c coverage bases = none ↔ ∀ z : ZoneNo, z.val < c.zoneCount → coverage[z] < c.idleThreshold := by
  simp [demandingBase_eq_max?, qualifyingBases]

theorem demandingBase_eq_some_iff (c : UnitConfig) (coverage bases : Vector Nat 64) (m : Nat) :
    demandingBase c coverage bases = some m
      ↔ (∃ z : ZoneNo, (z.val < c.zoneCount ∧ c.idleThreshold ≤ coverage[z]) ∧ bases[z] = m)
        ∧ ∀ y : ZoneNo, y.val < c.zoneCount → c.idleThreshold ≤ coverage[y] → bases[y] ≤ m := by
  rw [demandingBase_eq_max?, List.max?_eq_some_iff, mem_qualifyingBases, forall_mem_qualifyingBases]

/-! ### The ceiling over o_cap -/

/-- The smallest integer not less than a quotient, as 0.8 defines it. -/
theorem ceilDiv_le_iff {num den : Nat} (hden : 0 < den) (k : Nat) : ceilDiv num den ≤ k ↔ num ≤ k * den := by
  rw [ceilDiv, Nat.div_le_iff_le_mul_add_pred hden, Nat.mul_comm den k]
  omega

/-- A base of at most 1,000 asks for a sweep of at most 1,000 when o_cap is at least 500 (R34). -/
theorem ceilDiv_base_le {base cap : Nat} (hbase : base ≤ 1000) (hcap : 500 ≤ cap) : ceilDiv (base * 500) cap ≤ 1000 := by
  rw [ceilDiv_le_iff (by omega)]
  omega

/-! ### The choice -/

theorem chooseSweep_fixed {c : UnitConfig} (h : c.sweepMode = .fixed) (coverage bases : Vector Nat 64) :
    chooseSweep c coverage bases = c.fixedSweep := by simp [chooseSweep, h]

theorem chooseSweep_auto {c : UnitConfig} (h : c.sweepMode = .auto) (coverage bases : Vector Nat 64) :
    chooseSweep c coverage bases = autoSweep c coverage bases := by simp [chooseSweep, h]

theorem autoSweep_of_demandingBase_none {c : UnitConfig} {coverage bases : Vector Nat 64}
    (h : demandingBase c coverage bases = none) : autoSweep c coverage bases = c.sMin := by simp [autoSweep, h]

theorem autoSweep_of_demandingBase_some {c : UnitConfig} {coverage bases : Vector Nat 64} {m : Nat}
    (h : demandingBase c coverage bases = some m) : autoSweep c coverage bases = max c.sMin (ceilDiv (m * 500) c.oCap) := by
  simp [autoSweep, h]

/-- The ranges of R1 that bound the sweep of AUTO mode. -/
theorem UnitConfig.sMin_oCap_of_inRange {c : UnitConfig} (h : c.inRange = true) : c.sMin ≤ 1000 ∧ 500 ≤ c.oCap := by
  simp only [UnitConfig.inRange, within, Bool.and_eq_true, decide_eq_true_eq] at h
  omega

/-- R34's law: bases to 1,000 keep the sweep of AUTO mode within s_min to 1,000. -/
theorem autoSweep_mem_range {c : UnitConfig} {coverage bases : Vector Nat 64} (hc : c.inRange = true)
    (hbases : ∀ z : ZoneNo, bases[z] ≤ 1000) : c.sMin ≤ autoSweep c coverage bases ∧ autoSweep c coverage bases ≤ 1000 := by
  obtain ⟨hmin, hcap⟩ := c.sMin_oCap_of_inRange hc
  cases h : demandingBase c coverage bases with
  | none => rw [autoSweep_of_demandingBase_none h]; exact ⟨le_rfl, hmin⟩
  | some m =>
    obtain ⟨⟨z, _, rfl⟩, _⟩ := (demandingBase_eq_some_iff ..).1 h
    rw [autoSweep_of_demandingBase_some h]
    exact ⟨le_max_left _ _, max_le hmin (ceilDiv_base_le (hbases z) hcap)⟩

/-- Settles O47, by the two answers `demandingBase` can give in AUTO mode: none, or the largest qualifying base. -/
theorem sweepChoice : Obligations.SweepChoice := by
  intro c coverage bases
  refine ⟨fun hfixed => chooseSweep_fixed hfixed _ _, fun hauto => ?_, fun hidle z => hidle ▸ Nat.zero_le _⟩
  rw [chooseSweep_auto hauto]
  refine ⟨fun hnone => autoSweep_of_demandingBase_none ((demandingBase_eq_none_iff ..).2 hnone), ?_, autoSweep_mem_range⟩
  intro z hz hidle hlargest hcap
  have hdemand : demandingBase c coverage bases = some bases[z] :=
    (demandingBase_eq_some_iff ..).2 ⟨⟨z, ⟨hz, hidle⟩, rfl⟩, hlargest⟩
  exact ⟨ceilDiv (bases[z] * 500) c.oCap, (ceilDiv_le_iff hcap _).1 le_rfl, fun k => (ceilDiv_le_iff hcap k).2,
    autoSweep_of_demandingBase_some hdemand⟩

end Sys2Proof.Machine
end

