-- ==== Sys2Proof/Proofs/PressTiming.lean ====
section
/-! PROOFS. The press timing unit: the two resets that set it, the mark that counts and starts the press, and the impression input
(R141, R143, R152). -/

namespace Sys2Proof.Machine

variable {e : Ev}

/-! ### Commands -/

theorem exec_sheetMark (s : State) : exec .sheetMark s = act s fun e => e.sheetMark := rfl

theorem exec_impressionChange (b : Bool) (s : State) :
    exec (.impressionChange b) s = act s fun e => e.updTiming fun t => { t with impression := b } := rfl

/-- The reset pin and power-on are one reset (R152, R161). -/
theorem exec_pinReset {b : Bool} {c : Instr} (hc : c ∈ [Instr.resetPin b, Instr.powerOn b]) (s : State) :
    exec c s = .next (s.cleared (Timing.reset b) Port.reset) := by
  obtain rfl | rfl : c = .resetPin b ∨ c = .powerOn b := by simpa using hc
  · rfl
  · rfl

theorem act_of_regionsInMemory {s : State} (h : s.regionsInMemory = true) (f : Ev → Ev) :
    act s f = .next (f (Ev.ofState s.writesDone)).settle.toState := if_pos h

/-- A part that is not ATTACHED places no region. -/
theorem State.regionsInMemory_of_not_attached {s : State} (h : s.attached = false) : s.regionsInMemory = true := by
  simp [State.regionsInMemory, h]

/-! ### A sheet mark -/

theorem Ev.foldl_timing {α : Type} {f : Ev → α → Ev} (hf : ∀ e x, (f e x).timing = e.timing) (l : List α) (e : Ev) :
    (l.foldl f e).timing = e.timing := by
  induction l generalizing e with
  | nil => rfl
  | cons x l ih => rw [List.foldl_cons, ih, hf]

@[simp] theorem Ev.snapshot_timing (e : Ev) : e.snapshot.timing = e.timing := by
  unfold Ev.snapshot
  split
  · next a _ _ =>
    have hmirrors := Ev.foldl_timing (f := fun e u => e.writeMirror a u) fun _ _ => rfl
    have hlines := Ev.foldl_timing (f := fun e n => e.writeLine a n) fun _ _ => rfl
    dsimp only
    rw [hlines, Ev.writeWords_timing, hmirrors, Ev.updPort_timing]
  · rfl

/-- An expiry of the interval timer reloads the count, whatever its actions (R149). -/
@[simp] theorem Ev.intervalExpiry_timing (e : Ev) : e.intervalExpiry.timing = { e.timing with count := e.timing.period } := by
  have hsnap : (if e.timing.actSnapshot then e.snapshot else e).timing = e.timing := by
    split
    · exact e.snapshot_timing
    · rfl
  have hpulse : ∀ d : Ev, (if d.timing.actScanRequest then { d with scanPulses := d.scanPulses + 1 } else d).timing = d.timing := by
    intro d
    split <;> rfl
  rw [Ev.intervalExpiry, Ev.updTiming_timing, hpulse, hsnap]

@[simp] theorem Ev.releaseWaiting_timing (e : Ev) (keep : Bool) : (e.releaseWaiting keep).timing = e.timing := rfl

@[simp] theorem Ev.handMark_timing (e : Ev) : e.handMark.timing = e.timing := by
  unfold Ev.handMark
  split <;> rfl

/-- A mark leaves the press timing unit as `Timing.mark` does, with an interval count brought to 0 reloaded (R141, R149). -/
theorem Ev.sheetMark_timing (e : Ev) :
    e.sheetMark.timing = if e.timing.mark.intervalDue then { e.timing.mark with count := e.timing.mark.period } else e.timing.mark := by
  have hwatch : ∀ d : Ev, (if d.timing.watchMatches then d.raise .sheetWatch else d).timing = d.timing := by
    intro d
    split <;> rfl
  have hinterval : ∀ d : Ev, (if d.timing.intervalDue then d.intervalExpiry else d).timing
      = if d.timing.intervalDue then { d.timing with count := d.timing.period } else d.timing := by
    intro d
    split
    · exact d.intervalExpiry_timing
    · rfl
  rw [Ev.sheetMark, Ev.handMark_timing, Ev.releaseWaiting_timing, hinterval, hwatch, Ev.updTiming_timing]

theorem Ev.sheetMark_counter (e : Ev) : e.sheetMark.timing.counter = e.timing.counter + 1 := by
  rw [Ev.sheetMark_timing]
  split <;> rfl

theorem Ev.sheetMark_run (e : Ev) : e.sheetMark.timing.run = .running := by
  rw [Ev.sheetMark_timing]
  split <;> rfl

/-- Every mark raises the counter by one and sets the press RUNNING (R141), whatever the interval timer does at it. -/
theorem exec_sheetMark_counts {s : State} (h : s.regionsInMemory = true) :
    ∃ t, exec .sheetMark s = .next t ∧ t.timing.counter = s.timing.counter + 1 ∧ t.timing.run = .running := by
  refine ⟨_, (exec_sheetMark s).trans (act_of_regionsInMemory h _), ?_, ?_⟩
  · rw [(Ev.settle_settled _).timing, Ev.sheetMark_counter]
    rfl
  · rw [(Ev.settle_settled _).timing, Ev.sheetMark_run]

/-- Settles O3: both resets set `Timing.reset`, and the part they leave DETACHED takes the next mark from counter 0. -/
theorem resetPinSetsPressTiming : Obligations.ResetPinSetsPressTiming := by
  intro s b c hc
  have hregions : (s.cleared (Timing.reset b) Port.reset).regionsInMemory = true := State.regionsInMemory_of_not_attached rfl
  obtain ⟨t', hmark, hcounter, hrun⟩ := exec_sheetMark_counts hregions
  exact ⟨_, exec_pinReset hc s, rfl, rfl, rfl, rfl, rfl, rfl, rfl, rfl, rfl, rfl, rfl, t', hmark, hcounter, hrun⟩

/-! ### An event that owes nothing -/

/-- The event owes no run of the arbiter, no completion test and no write, and no field the status area shows has changed. -/
structure Ev.Idle (e : Ev) : Prop where
  arbiter : e.arbiterDue = false
  tests : e.testDue = []
  mirror : e.mirrorDue = []
  lines : e.lineDue = []
  status : e.SameStatus

theorem Ev.writeWatch_of_same_intake (h : e.intake = e.start.intake) (base : Nat) (k : Fin 4) : e.writeWatch base k = e := by
  simp [Ev.writeWatch, Ev.writeIf, h]

theorem Ev.foldl_writeWatch_of_same_intake (h : e.intake = e.start.intake) (base : Nat) (l : List (Fin 4)) :
    l.foldl (fun e k => e.writeWatch base k) e = e := by
  induction l with
  | nil => rfl
  | cons k l ih => rw [List.foldl_cons, Ev.writeWatch_of_same_intake h, ih]

theorem Ev.SameStatus.writeChangedStatus (h : e.SameStatus) (a : Anchor) :
    e.writeChangedStatus a = { e with freeDraws := e.freeDraws + 1 } := by
  have h1 : statusWord1 e.start = statusWord1 e.toState := by simp only [statusWord1, h.lostScans, h.intake]
  have h3 : statusWord3 e.start = statusWord3 e.toState := statusWord3_congr fun u => (h.sweepFault u).symm
  simp [Ev.writeChangedStatus, Ev.writeIf, h1, h3, h.intake, h.fault, Ev.foldl_writeWatch_of_same_intake h.intake]

/-- The end of an event that owes nothing is at most a draw of free values: no word of the exchange memory is written. -/
theorem Ev.Idle.settle (h : e.Idle) : ∃ k, e.settle.toState = { e.toState with freeDraws := k } := by
  have harbiter : e.settleArbiter = e := by simp [Ev.settleArbiter, h.arbiter]
  have htests : e.runTests = e := by
    have hnone : ({ e with testDue := [] } : Ev) = e := by rw [← h.tests]
    simpa [Ev.runTests, inOrder, h.tests] using hnone
  rw [Ev.settle, harbiter, htests, Ev.flush]
  split
  · exact ⟨e.freeDraws + 1, by simp [inOrder, h.mirror, h.lines, h.status.writeChangedStatus]⟩
  · exact ⟨_, rfl⟩

/-! ### The impression input -/

theorem Ev.idle_updTiming (s : State) (f : Timing → Timing) : ((Ev.ofState s).updTiming f).Idle where
  arbiter := rfl
  tests := rfl
  mirror := rfl
  lines := rfl
  status := ⟨rfl, rfl, rfl, fun _ => rfl⟩

/-- An event that sets a field of the press timing unit alone reaches no other block, the exchange port and memory with them. -/
theorem act_updTiming {s : State} (h : s.regionsInMemory = true) (f : Timing → Timing) :
    ∃ t, act s (fun e => e.updTiming f) = .next t ∧ t.timing = f s.timing ∧ s.SameBlocks { t with timing := s.timing }
      ∧ t.port = s.port ∧ t.mem = s.mem := by
  obtain ⟨k, hk⟩ := (Ev.idle_updTiming s.writesDone f).settle
  refine ⟨_, (act_of_regionsInMemory h _).trans (congrArg _ hk), rfl, ?_, rfl, rfl⟩
  exact { curves := rfl, lines := rfl, partGrants := rfl, pointer := rfl, check := rfl, intake := rfl, timing := rfl,
          scanPulses := rfl, pending := rfl, units := rfl }

/-- Settles O46: the change is an event that sets one field of the press timing unit, and both resets take the level they are given. -/
theorem impressionFollowsItsInput : Obligations.ImpressionFollowsItsInput := by
  intro s b
  refine ⟨fun h => ?_, fun c hc => ⟨_, exec_pinReset hc s, rfl⟩⟩
  rw [exec_impressionChange]
  exact act_updTiming h _

end Sys2Proof.Machine
end

