-- ==== Sys2Proof/Proofs/Registers.lean ====
section
/-! PROOFS. The queue, the registers, the notice flags and the resets (R152 to R161). -/

namespace Sys2Proof.Machine

/-- Settles O1: a step is defined as the command at the front, run with the rest. -/
theorem stepRunsFrontCommand : Obligations.StepRunsFrontCommand := fun _ _ _ => rfl

/-! ### Registers -/

/-- Settles O6, by the three part states and the values that name a command. -/
theorem registerWrites : Obligations.RegisterWrites := by
  intro s
  refine ⟨fun h => ?_, fun h => ?_, fun v h1 h2 h3 => ?_, fun _ _ => rfl⟩
  · simp [exec, execAttach, h, Port.answer]
  · cases hs : s.port.state with
    | detached => exact absurd hs h
    | attaching => simp [exec, execAttach, hs, Port.answer]
    | attached => simp [exec, execAttach, hs, Port.answer]
  · exact (if_neg h1).trans ((if_neg h2).trans (if_neg h3))

/-! ### Notices -/

theorem Notice.bit_lt (n : Notice) : n.bit < 10 := by cases n <;> decide

/-- Every bit of the ten is a cause's. -/
theorem Notice.exists_bit {i : Nat} (h : i < 10) : ∃ n : Notice, n.bit = i := by
  interval_cases i
  exacts [⟨.retireMark, rfl⟩, ⟨.flaggedOrder, rfl⟩, ⟨.segmentFull, rfl⟩, ⟨.storeOverrun, rfl⟩, ⟨.zoneFault, rfl⟩, ⟨.lineEvent, rfl⟩,
    ⟨.sheetWatch, rfl⟩, ⟨.scanFault, rfl⟩, ⟨.densityWatch, rfl⟩, ⟨.portFault, rfl⟩]

theorem Port.clearNotices_getLsbD (p : Port) (v : Word) (n : Notice) :
    (p.clearNotices v).notices.getLsbD n.bit = (p.notices.getLsbD n.bit && !v.getLsbD n.bit) := by
  simp [Port.clearNotices, n.bit_lt]

/-- The pending causes that are enabled make a number that is 0 exactly when no bit of it is set. -/
theorem State.interruptLine_iff (s : State) :
    s.interruptLine = true ↔ ∃ n : Notice, s.noticePending n = true ∧ s.port.mask.getLsbD n.bit = true := by
  rw [State.interruptLine, bne_iff_ne, Ne, BitVec.eq_of_getLsbD_eq_iff]
  simp only [BitVec.ofNat_eq_ofNat, BitVec.getLsbD_and, BitVec.getLsbD_zero, not_forall, Bool.not_eq_false, Bool.and_eq_true,
    State.noticePending, exists_prop]
  constructor
  · rintro ⟨i, hi, hbit⟩
    obtain ⟨n, rfl⟩ := Notice.exists_bit hi
    exact ⟨n, hbit⟩
  · rintro ⟨n, hbit⟩
    exact ⟨n.bit, n.bit_lt, hbit⟩

/-- Settles O7, bit by bit. -/
theorem noticesAndInterruptLine : Obligations.NoticesAndInterruptLine :=
  ⟨fun v s => ⟨(s.port.clearNotices v).notices, rfl, s.port.clearNotices_getLsbD v⟩, State.interruptLine_iff⟩

/-! ### A failed attach -/

/-- A part that is not ATTACHED writes nothing at the end of an event that owes no arbiter run and no completion test. -/
theorem Ev.settle_of_not_attached {e : Ev} (ha : e.attached = false) (harb : e.arbiterDue = false) (htest : e.testDue = []) :
    e.settle.toState = e.toState := by
  have harbiter : e.settleArbiter = e := by simp [Ev.settleArbiter, harb]
  have htests : e.runTests.toState = e.toState := by simp [Ev.runTests, inOrder, htest]
  have hflush : ∀ d : Ev, d.attached = false → d.flush.toState = d.toState := fun d hd => by simp [Ev.flush, hd]
  rw [Ev.settle, harbiter, hflush _ ((congrArg State.attached htests).trans ha), htests]

/-- An event of a part that is not ATTACHED and stays so, when it owes no arbiter run and no completion test, is what its body does. -/
theorem act_of_not_attached {s : State} {f : Ev → Ev} (hs : s.attached = false) (ha : (f (Ev.ofState s.writesDone)).attached = false)
    (harb : (f (Ev.ofState s.writesDone)).arbiterDue = false) (htest : (f (Ev.ofState s.writesDone)).testDue = []) :
    act s f = .next (f (Ev.ofState s.writesDone)).toState := by
  rw [act_of_regionsInMemory (State.regionsInMemory_of_not_attached hs), Ev.settle_of_not_attached ha harb htest]

/-- Settles O8: the part is not ATTACHED before or after, so the end of the event writes nothing. -/
theorem attachFailureReports : Obligations.AttachFailureReports := by
  intro host s r hstate hjudge
  refine (?_ : _ = act s fun e => (e.hostWrites host).updPort fun p => p.attachFailed r).trans
    (act_of_not_attached (by simp [State.attached, hstate]) rfl rfl rfl)
  simp only [exec, execAttachFailure, act, State.regionsInMemory, State.attached, hstate]
  simp [hstate, hjudge, Ev.ofState, Ev.hostWrites, State.writesDone]

end Sys2Proof.Machine
end

