-- ==== Sys2Proof/Proofs/Resets.lean ====
section
/-! PROOFS. What the three resets leave: every block at its reset values, and a memory in which only a write in progress is taken back
(R152, R153, R161). -/

namespace Sys2Proof.Machine

/-- Settles O5. -/
theorem resetCommandKeepsTheSheetCount : Obligations.ResetCommandKeepsTheSheetCount := fun s =>
  ⟨s.cleared s.timing.resetCommand (Port.reset.answer 3 .taken), rfl, rfl, rfl⟩

/-! ### The reset state -/

@[simp] theorem State.cleared_unit (s : State) (tm : Timing) (p : Port) (u : UnitNo) : (s.cleared tm p).unit u = UnitRec.reset := by
  simp [State.cleared, State.unit, State.reset]

@[simp] theorem State.cleared_line (s : State) (tm : Timing) (p : Port) (n : LineNo) : (s.cleared tm p).line n = Line.reset := by
  simp [State.cleared, State.line, State.reset]

@[simp] theorem State.cleared_zone (s : State) (tm : Timing) (p : Port) (u : UnitNo) (z : ZoneNo) :
    (s.cleared tm p).zone u z = Zone.reset := by
  simp [State.cleared, State.zone, State.reset, UnitRec.reset]

@[simp] theorem State.cleared_curve (s : State) (tm : Timing) (p : Port) (c : Fin 8) : (s.cleared tm p).curves[c] = resetCurve := by
  simp [State.cleared, State.reset]

theorem resetCurve_getElem (i : Fin 11) : resetCurve[i] = 100 * i.val := by
  revert i
  decide

theorem UnitRec.reset_movingZones : UnitRec.reset.movingZones = 0 := by
  simp [UnitRec.movingZones, UnitRec.reset, Zone.reset]

/-- What every state that a reset leaves meets of the laws that speak of no memory. -/
structure State.Cleared (t : State) : Prop where
  unit : ∀ u, t.unit u = UnitRec.reset
  line : ∀ n, t.line n = Line.reset
  zone : ∀ u z, t.zone u z = Zone.reset
  curve : ∀ c : Fin 8, t.curves[c] = resetCurve
  partGrants : t.partGrants = 0
  portState : t.port.state = .detached

theorem State.cleared_cleared (s : State) (tm : Timing) {p : Port} (hp : p.state = .detached) : (s.cleared tm p).Cleared :=
  ⟨s.cleared_unit tm p, s.cleared_line tm p, s.cleared_zone tm p, s.cleared_curve tm p, rfl, hp⟩

namespace State.Cleared

variable {t : State}

theorem offsetsInRange (h : t.Cleared) : t.offsetsInRange := fun u z => by simp [h.zone, Zone.reset]

theorem curvesValid (h : t.Cleared) : t.curvesValid := fun c => by rw [h.curve]; decide

theorem samplesLawful (h : t.Cleared) : t.samplesLawful := fun u z => by simp [h.zone, Zone.reset]

theorem zoneFieldsLawful (h : t.Cleared) : t.zoneFieldsLawful := fun u z => by simp [h.zone, Zone.reset]

theorem boundsLawful (h : t.Cleared) : t.boundsLawful := fun u c hc => by simp [h.unit, UnitRec.reset] at hc

theorem targetsInRange (h : t.Cleared) : t.targetsInRange := fun u z x hx => by simp [h.zone, Zone.reset] at hx

theorem pendingLawful (h : t.Cleared) : t.pendingLawful := fun u z => by
  simp [h.zone, h.line, Zone.reset, Line.reset, Line.entriesOf]

theorem grantsLawful (h : t.Cleared) : t.grantsLawful := by
  refine ⟨fun n => ?_, ?_⟩
  · rw [h.line, h.unit, UnitRec.reset_movingZones]; rfl
  · simp [h.line, h.partGrants, Line.reset]

theorem budgetsLawful (h : t.Cleared) : t.budgetsLawful :=
  ⟨fun n => by simp [h.line, Line.reset], by simp [State.attached, h.portState, h.partGrants]⟩

theorem oneOrderEach (h : t.Cleared) : t.oneOrderEach := fun u => by simp [h.unit, UnitRec.reset]

theorem heldSlots (h : t.Cleared) : t.heldSlots = [] := by simp [State.heldSlots, h.unit, UnitRec.reset]

theorem slotsInRing (h : t.Cleared) : t.slotsInRing := by simp [State.slotsInRing, h.portState, h.heldSlots]

end State.Cleared

theorem State.reset_cleared : State.reset.Cleared where
  unit u := by simp [State.unit, State.reset]
  line n := by simp [State.line, State.reset]
  zone u z := by simp [State.zone, State.reset, UnitRec.reset]
  curve c := by simp [State.reset]
  partGrants := rfl
  portState := rfl

/-- Settles O2: the laws of a cleared machine, and the canonical form of the empty memory. -/
theorem resetMeetsEveryLaw : Obligations.ResetMeetsEveryLaw :=
  have h := State.reset_cleared
  ⟨rfl, h.offsetsInRange, h.curvesValid, h.samplesLawful, h.zoneFieldsLawful, h.boundsLawful, h.targetsInRange, h.pendingLawful,
    h.grantsLawful, h.budgetsLawful, h.oneOrderEach, h.slotsInRing⟩

/-! ### The memory a reset leaves -/

theorem State.tornMemory_of_not_attached {s : State} (h : s.port.state ≠ .attached) : s.tornMemory = s.mem := by
  unfold State.tornMemory
  split
  · contradiction
  · rfl

theorem State.tornMemory_wf {s : State} (h : Memory.wf s.mem = true) : Memory.wf s.tornMemory = true := by
  unfold State.tornMemory
  split
  · exact Memory.putBack_wf _ _ _ _ h
  · exact h

theorem State.read_tornMemory {s : State} (h : Memory.wf s.mem = true) (x : Nat) :
    Memory.read s.tornMemory x = Memory.read s.mem x ∨ (x, Memory.read s.tornMemory x) ∈ s.unfinished := by
  unfold State.tornMemory
  split
  · exact (Memory.read_putBack _ _ _ _ _ h).imp_right (·.2)
  · exact .inl rfl

theorem Anchor.blockWord_iff (a : Anchor) (x : Nat) : a.blockWord x = true ↔ a.inMirror x ∨ a.inStatus x ∨ a.inStore x := by
  simp [Anchor.blockWord, Anchor.inMirror, Anchor.inStatus, Anchor.inStore, or_assoc]

theorem State.read_tornMemory_outside {s : State} {a : Anchor} (h : s.Linked a) {x : Nat} (hm : ¬a.inMirror x) (hst : ¬a.inStatus x)
    (hs : ¬a.inStore x) : Memory.read s.tornMemory x = Memory.read s.mem x := by
  have hx : ¬a.blockWord x = true := by rw [a.blockWord_iff]; tauto
  unfold State.tornMemory
  simp only [h.attached, h.anchor]
  exact (Memory.read_putBack _ _ _ _ _ h.wf).resolve_right fun k => hx k.1

theorem Memory.readWords_congr {m m' : Memory} {base n : Nat} (h : ∀ x, base ≤ x → x < base + n → Memory.read m x = Memory.read m' x) :
    Memory.readWords m base n = Memory.readWords m' base n := by
  induction n generalizing base with
  | zero => rfl
  | succ n ih =>
    rw [Memory.readWords, Memory.readWords, h base le_rfl (by omega), ih fun x h1 h2 => h x (by omega) (by omega)]

/-- No word of an order slot lies in a region the part reports in or stores to. -/
theorem Anchor.slot_outside {a : Anchor} (hd : disjointRegions (anchorRegion :: a.regions) = true) {k x : Nat} (hk : k < a.ringLength)
    (h1 : a.slotWord k 0 ≤ x) (h2 : x < a.slotWord k 16) : ¬a.inMirror x ∧ ¬a.inStatus x ∧ ¬a.inStore x := by
  simp [Anchor.regions, disjointRegions, anchorRegion, Region.shares, Config.anchorWords, Config.slotWords, Config.mirrorWords,
    Config.statusWords] at hd
  simp only [Anchor.slotWord, Config.slotWords] at h1 h2
  simp only [Anchor.inMirror, Anchor.inStatus, Anchor.inStore, Config.mirrorWords, Config.statusWords]
  omega

/-- Each of the three resets clears the machine, and answers in the port as a register command or not at all. -/
theorem exec_reset_eq {s : State} {b : Bool} {r : Instr × CommandOutcome}
    (hr : r ∈ [(Instr.reset, CommandOutcome.taken), (.resetPin b, .none), (.powerOn b, .none)]) :
    ∃ tm w, exec r.1 s = .next (s.cleared tm (Port.reset.answer w r.2)) := by
  obtain rfl | rfl | rfl : r = (.reset, .taken) ∨ r = (.resetPin b, .none) ∨ r = (.powerOn b, .none) := by simpa using hr
  · exact ⟨_, 3, rfl⟩
  · exact ⟨_, 0, rfl⟩
  · exact ⟨_, 0, rfl⟩

/-- Settles O4: the cleared blocks field by field, and the memory by the cells that a torn write puts back. -/
theorem resetsClearTheMachine : Obligations.ResetsClearTheMachine := by
  intro s b r hr
  obtain ⟨tm, w, h⟩ := exec_reset_eq (s := s) hr
  have hc := s.cleared_cleared tm (p := Port.reset.answer w r.2) rfl
  have hinterrupt : (s.cleared tm (Port.reset.answer w r.2)).interruptLine = false := by
    simp [State.interruptLine, State.cleared, Port.reset, Port.answer]
  refine ⟨_, h, fun u => ?_, fun u z => ?_, fun c i => ?_, fun n => ?_, rfl, rfl, rfl, rfl, rfl, rfl, rfl, rfl, fun k => ?_, rfl, rfl, rfl,
    rfl, rfl, rfl, rfl, rfl, rfl, rfl, rfl, rfl, rfl, hinterrupt, rfl, rfl, fun u => ?_, rfl, rfl, rfl, rfl, rfl,
    State.tornMemory_of_not_attached, fun hw => ⟨State.tornMemory_wf hw, State.read_tornMemory hw⟩, fun a ha => ⟨fun x hm hst hs => ?_,
      fun k hk => ?_⟩, rfl, rfl⟩
  · simp [hc.unit, UnitRec.reset]
  · simp [hc.zone, Zone.reset]
  · rw [hc.curve, resetCurve_getElem]
  · simp [hc.line, Line.reset, Fountain.reset, TagPair.reset, ModuleRec.reset]
  · simp [State.cleared, State.reset, Intake.reset, Watch.reset]
  · simp [State.cleared, Port.reset, Port.answer]
  · exact State.read_tornMemory_outside ha hm hst hs
  · refine Memory.readWords_congr fun x h1 h2 => ?_
    obtain ⟨hm, hst, hs⟩ := Anchor.slot_outside ha.disjoint hk h1 h2
    exact State.read_tornMemory_outside ha hm hst hs

end Sys2Proof.Machine
end

