-- ==== Sys2Proof/Proofs/StepSize.lean ====
section
/-! PROOFS. The step size of the correction loop (R132). -/

namespace Sys2Proof.Machine

/-- Clamping to a symmetric range, as a case split that omega can use. -/
theorem limit_eq (m : Nat) (x : Int) : limit m x = if x < -(m : Int) then -(m : Int) else if (m : Int) < x then (m : Int) else x := rfl

/-- Rounding half up is the nearest integer, a half going up. -/
theorem roundHalfUp_bounds (num : Nat) {den : Nat} (h : 0 < den) :
    2 * den * roundHalfUp num den ≤ 2 * num + den ∧ 2 * num + den < 2 * den * roundHalfUp num den + 2 * den := by
  unfold roundHalfUp
  have h1 := Nat.div_add_mod (2 * num + den) (2 * den)
  have h2 := Nat.mod_lt (2 * num + den) (show 2 * den > 0 by omega)
  omega

/-- Rounding half away of a non-negative quotient in hundredths. -/
theorem roundHalfAway_of_nonneg {num : Int} (h : 0 ≤ num) :
    0 ≤ roundHalfAway num 100 ∧ 100 * roundHalfAway num 100 - 50 ≤ num ∧ num < 100 * roundHalfAway num 100 + 50 := by
  have hb := roundHalfUp_bounds num.natAbs (den := 100) (by omega)
  have hr : roundHalfAway num 100 = (roundHalfUp num.natAbs 100 : Nat) := if_neg (by omega)
  omega

/-- A half goes away from zero on both sides, so rounding is odd. -/
theorem roundHalfAway_neg (num : Int) (den : Nat) : roundHalfAway (-num) den = -roundHalfAway num den := by
  have h0 : roundHalfUp 0 den = 0 := by
    unfold roundHalfUp
    rcases Nat.eq_zero_or_pos den with rfl | h
    · rfl
    · exact Nat.div_eq_of_lt (by omega)
  unfold roundHalfAway
  rw [Int.natAbs_neg]
  rcases lt_trichotomy num 0 with h | rfl | h
  · rw [if_neg (by omega), if_pos h, neg_neg]
  · simp [h0]
  · rw [if_pos (by omega), if_neg (by omega)]

theorem stepSize_neg (p : LoopParams) (e : Int) : stepSize p (-e) = -stepSize p e := by
  rw [stepSize, stepSize, neg_mul, roundHalfAway_neg, limit_eq, limit_eq]
  split_ifs <;> omega

theorem stepSize_nonneg (p : LoopParams) {e : Int} (h : 0 ≤ e) : 0 ≤ stepSize p e := by
  have hr := (roundHalfAway_of_nonneg (mul_nonneg h (Int.natCast_nonneg p.gain))).1
  rw [stepSize, limit_eq]
  split_ifs <;> omega

/-- Settles O48: the laws for errors above zero, and the others by oddness. -/
theorem stepSizeRoundsAndLimits : Obligations.StepSizeRoundsAndLimits := by
  intro p e
  refine ⟨?_, stepSize_nonneg p, fun h => ?_, stepSize_neg p e, fun h hlt => ?_, fun h heq => ?_⟩
  · rw [stepSize, limit_eq]
    split_ifs <;> omega
  · have := stepSize_nonneg p (e := -e) (by omega)
    rw [stepSize_neg] at this
    omega
  · obtain ⟨h0, h1, h2⟩ := roundHalfAway_of_nonneg (mul_nonneg h (Int.natCast_nonneg p.gain))
    rw [stepSize, limit_eq] at hlt ⊢
    split_ifs at hlt ⊢ <;> omega
  · obtain ⟨h0, h1, h2⟩ := roundHalfAway_of_nonneg (mul_nonneg h (Int.natCast_nonneg p.gain))
    rw [stepSize, limit_eq] at heq
    split_ifs at heq <;> omega

end Sys2Proof.Machine
end

