-- ==== Sys2Proof/Proofs/Quiet.lean ====
section
/-! PROOFS. The operations that leave the zone table, the scheduler's lists and grants, the settings of the units, the power of the
lines and the other blocks as they stand (`Ev.Quiet`): slots, queues, tags, the fountain, the orders and what is written. -/

namespace Sys2Proof.Machine

/-- A unit has no new order: its RUNNING and its WAITING order are those it had, by their slots, or gone. -/
structure UnitRec.FewerOrders (r r' : UnitRec) : Prop where
  tracked : r'.tracked = none ∨ r'.tracked.map (·.slot) = r.tracked.map (·.slot)
  waiting : r'.waiting = none ∨ r'.waiting.map (·.order.slot) = r.waiting.map (·.order.slot)

/-- The zones of a unit and the settings that DEFINE UNIT and SET LOOP write; it has no new order. -/
structure UnitRec.SameTable (r r' : UnitRec) : Prop where
  zones : r'.zones = r.zones
  config : r'.config = r.config
  loopOn : r'.loopOn = r.loopOn
  loopParams : r'.loopParams = r.loopParams
  orders : r.FewerOrders r'

/-- The ring offsets T and P stay in the ring of the anchor copy. -/
def Port.RingKept (p p' : Port) : Prop :=
  ∀ a, p.anchor = some a → (p.take < a.ringLength → p'.take < a.ringLength) ∧ (p.putValid < a.ringLength → p'.putValid < a.ringLength)

/-- The power of a line and what the scheduler holds of it. -/
structure Line.SameTable (l l' : Line) : Prop where
  power : l'.power = l.power
  pendingList : l'.pendingList = l.pendingList
  grants : l'.grants = l.grants

/-- No zone, no grant, no setting and no block beside the port has changed. A part that is not ATTACHED has written nothing, and the
exchange memory keeps its canonical form. -/
structure State.Still (s t : State) : Prop where
  unit : ∀ u, (s.unit u).SameTable (t.unit u)
  line : ∀ n, (s.line n).SameTable (t.line n)
  partGrants : t.partGrants = s.partGrants
  curves : t.curves = s.curves
  check : t.check = s.check
  intake : t.intake = s.intake
  timing : t.timing = s.timing
  pending : t.pending = s.pending
  portState : t.port.state = s.port.state
  anchor : t.port.anchor = s.port.anchor
  ring : s.port.RingKept t.port
  mem : s.attached = false → t.mem = s.mem
  wf : Memory.wf s.mem = true → Memory.wf t.mem = true

/-- An event has gone on quietly: its state is still, no arbiter run has become due, and the mirror blocks owed are still owed. -/
structure Ev.Quiet (d e : Ev) : Prop where
  still : d.toState.Still e.toState
  arbiterDue : e.arbiterDue = d.arbiterDue
  mirrorDue : d.mirrorDue ⊆ e.mirrorDue

theorem UnitRec.FewerOrders.refl (r : UnitRec) : r.FewerOrders r := ⟨.inr rfl, .inr rfl⟩

theorem UnitRec.FewerOrders.tracked_none {r r' : UnitRec} (h : r.FewerOrders r') (k : r.tracked = none) : r'.tracked = none := by
  rcases h.tracked with h | h
  · exact h
  · rwa [k, Option.map_none, Option.map_eq_none_iff] at h

theorem UnitRec.FewerOrders.waiting_none {r r' : UnitRec} (h : r.FewerOrders r') (k : r.waiting = none) : r'.waiting = none := by
  rcases h.waiting with h | h
  · exact h
  · rwa [k, Option.map_none, Option.map_eq_none_iff] at h

theorem UnitRec.FewerOrders.trans {a b c : UnitRec} (h : a.FewerOrders b) (k : b.FewerOrders c) : a.FewerOrders c := by
  refine ⟨k.tracked.elim .inl fun k1 => ?_, k.waiting.elim .inl fun k1 => ?_⟩
  · exact h.tracked.elim (fun h1 => .inl (k.tracked_none h1)) fun h1 => .inr (k1.trans h1)
  · exact h.waiting.elim (fun h1 => .inl (k.waiting_none h1)) fun h1 => .inr (k1.trans h1)

theorem Port.RingKept.refl (p : Port) : p.RingKept p := fun _ _ => ⟨id, id⟩

theorem UnitRec.SameTable.refl (r : UnitRec) : r.SameTable r := ⟨rfl, rfl, rfl, rfl, .refl r⟩
theorem Line.SameTable.refl (l : Line) : l.SameTable l := ⟨rfl, rfl, rfl⟩

theorem UnitRec.SameTable.trans {a b c : UnitRec} (h : a.SameTable b) (k : b.SameTable c) : a.SameTable c :=
  ⟨k.1.trans h.1, k.2.trans h.2, k.3.trans h.3, k.4.trans h.4, h.5.trans k.5⟩

theorem Line.SameTable.trans {a b c : Line} (h : a.SameTable b) (k : b.SameTable c) : a.SameTable c :=
  ⟨k.1.trans h.1, k.2.trans h.2, k.3.trans h.3⟩

theorem State.Still.refl (s : State) : s.Still s :=
  ⟨fun _ => .refl _, fun _ => .refl _, rfl, rfl, rfl, rfl, rfl, rfl, rfl, rfl, .refl _, fun _ => rfl, id⟩

theorem State.Still.attached {s t : State} (h : s.Still t) : t.attached = s.attached := by
  rw [State.attached, State.attached, h.portState]

theorem State.Still.trans {a b c : State} (h : a.Still b) (k : b.Still c) : a.Still c :=
  ⟨fun u => (h.unit u).trans (k.unit u), fun n => (h.line n).trans (k.line n), k.3.trans h.3, k.4.trans h.4, k.5.trans h.5,
    k.6.trans h.6, k.7.trans h.7, k.8.trans h.8, k.9.trans h.9, k.10.trans h.10,
    fun x hx => ⟨fun i => (k.ring x (h.anchor.trans hx)).1 ((h.ring x hx).1 i), fun i => (k.ring x (h.anchor.trans hx)).2 ((h.ring x hx).2 i)⟩,
    fun ha => (k.mem (h.attached.trans ha)).trans (h.mem ha), fun hw => k.wf (h.wf hw)⟩

theorem State.Still.zone {s t : State} (h : s.Still t) (u : UnitNo) (z : ZoneNo) : t.zone u z = s.zone u z := by
  show (t.unit u).zones[z] = (s.unit u).zones[z]
  rw [(h.unit u).zones]

theorem ringNext_lt {length a : Nat} (h : a < length) : ringNext length a < length := by
  unfold ringNext
  split <;> omega

variable {d e : Ev}

namespace Ev.Quiet

theorem refl (e : Ev) : e.Quiet e := ⟨.refl _, rfl, List.Subset.refl _⟩

theorem trans {f : Ev} (h : d.Quiet e) (k : e.Quiet f) : d.Quiet f :=
  ⟨h.still.trans k.still, k.arbiterDue.trans h.arbiterDue, List.Subset.trans h.mirrorDue k.mirrorDue⟩

theorem attached (h : d.Quiet e) : e.attached = d.attached := h.still.attached

theorem zone (h : d.Quiet e) (u : UnitNo) (z : ZoneNo) : e.zone u z = d.zone u z := h.still.zone u z

/-- A change of the state alone, when it is still. -/
theorem step (h : d.Quiet e) {e' : Ev} (hs : e.toState.Still e'.toState) (ha : e'.arbiterDue = e.arbiterDue)
    (hm : e.mirrorDue ⊆ e'.mirrorDue) : d.Quiet e' := h.trans ⟨hs, ha, hm⟩

/-! ### The updates of one record -/

theorem updUnit (h : d.Quiet e) (u : UnitNo) (f : UnitRec → UnitRec) (hf : (e.unit u).SameTable (f (e.unit u))) :
    d.Quiet (e.updUnit u f) := by
  refine h.step { State.Still.refl e.toState with unit := fun v => ?_ } rfl (List.Subset.refl _)
  rw [Ev.updUnit_unit]
  split
  · next k => exact k ▸ hf
  · exact .refl _

theorem updLine (h : d.Quiet e) (n : LineNo) (f : Line → Line) (hf : (e.line n).SameTable (f (e.line n))) : d.Quiet (e.updLine n f) := by
  refine h.step { State.Still.refl e.toState with line := fun m => ?_ } rfl (List.Subset.refl _)
  rw [Ev.updLine_line]
  split
  · next k => exact k ▸ hf
  · exact .refl _

theorem updPort (h : d.Quiet e) (f : Port → Port) (hs : (f e.port).state = e.port.state) (ha : (f e.port).anchor = e.port.anchor)
    (hr : e.port.RingKept (f e.port) := by exact fun _ _ => ⟨id, id⟩) : d.Quiet (e.updPort f) :=
  h.step { State.Still.refl e.toState with portState := hs, anchor := ha, ring := hr } rfl (List.Subset.refl _)

theorem updQueue (h : d.Quiet e) (n : LineNo) (f : CommandQueue → CommandQueue) : d.Quiet (e.updQueue n f) :=
  h.updLine n _ ⟨rfl, rfl, rfl⟩

theorem updFountain (h : d.Quiet e) (n : LineNo) (f : Fountain → Fountain) : d.Quiet (e.updFountain n f) :=
  h.updLine n _ ⟨rfl, rfl, rfl⟩

theorem updModules (h : d.Quiet e) (n : LineNo) (f : ModuleRec → ModuleRec) : d.Quiet (e.updModules n f) :=
  h.updLine n _ ⟨rfl, rfl, rfl⟩

theorem updModule (h : d.Quiet e) (n : LineNo) (k : Fin 9) (f : ModuleRec → ModuleRec) : d.Quiet (e.updModule n k f) :=
  h.updLine n _ ⟨rfl, rfl, rfl⟩

theorem raise (h : d.Quiet e) (n : Notice) : d.Quiet (e.raise n) := h.updPort _ rfl rfl

theorem oweMirror (h : d.Quiet e) (u : UnitNo) : d.Quiet (e.oweMirror u) :=
  h.step (.refl e.toState) rfl (List.subset_cons_self _ _)

theorem oweTest (h : d.Quiet e) (u : UnitNo) : d.Quiet (e.oweTest u) := h.step (.refl e.toState) rfl (List.Subset.refl _)

theorem oweLine (h : d.Quiet e) (n : LineNo) : d.Quiet (e.oweLine n) := h.step (.refl e.toState) rfl (List.Subset.refl _)

theorem writeWords (h : d.Quiet e) (ha : e.attached = true) (b : Nat) (ws : List Word) : d.Quiet (e.writeWords b ws) :=
  h.step { State.Still.refl e.toState with
    mem := fun k => absurd (ha.symm.trans k) (by decide), wf := Memory.write_wf _ _ _ } rfl (List.Subset.refl _)

theorem foldl {α : Type} {f : Ev → α → Ev} (hf : ∀ (e : Ev) (x : α), d.Quiet e → d.Quiet (f e x)) (l : List α) (h : d.Quiet e) :
    d.Quiet (l.foldl f e) := by
  induction l generalizing e with
  | nil => exact h
  | cons x l ih => exact ih (hf e x h)

/-! ### Order slots -/

theorem writeStatus (h : d.Quiet e) (slot : Nat) (st : Status) (x : Detail) : d.Quiet (e.writeStatus slot st x) := by
  unfold Ev.writeStatus
  split
  · next ha _ => exact (h.writeWords ha _ _).writeWords ha _ _
  · exact h

theorem advanceRetire (h : d.Quiet e) (ha : e.attached = true) (a : Anchor) : d.Quiet (e.advanceRetire a) := by
  unfold Ev.advanceRetire
  dsimp only
  split
  · have h1 := (h.updPort (fun p => { p with
      retire := (retireWalk a.ringLength e.port.noticeOffset e.port.finished.length e.port.retire e.port.finished false).1,
      finished := (retireWalk a.ringLength e.port.noticeOffset e.port.finished.length e.port.retire e.port.finished false).2.1 })
      rfl rfl).writeWords ha 15 [wordOf (retireWalk a.ringLength e.port.noticeOffset e.port.finished.length e.port.retire
        e.port.finished false).1]
    split
    · exact h1.raise _
    · exact h1
  · exact h

theorem slotFinal (h : d.Quiet e) (slot : Nat) (notify : Bool) : d.Quiet (e.slotFinal slot notify) := by
  unfold Ev.slotFinal
  split
  · next ha _ =>
    have h1 := h.updPort (fun p => { p with finished := if p.finished.contains slot then p.finished else p.finished ++ [slot] }) rfl rfl
    dsimp only
    split
    · exact (h1.raise _).advanceRetire ha _
    · exact h1.advanceRetire ha _
  · exact h

theorem advanceTake (h : d.Quiet e) (ha : e.attached = true) : d.Quiet e.advanceTake := by
  unfold Ev.advanceTake
  split
  · next a hanchor =>
    refine .writeWords (.updPort h _ rfl rfl ?_) (by exact ha) _ _
    intro b hb
    obtain rfl : a = b := Option.some.inj (hanchor.symm.trans hb)
    exact ⟨ringNext_lt, id⟩
  · exact h

theorem finishTake (h : d.Quiet e) (ha : e.attached = true) (slot : Nat) (notify : Bool) (st : Status) (x : Detail) :
    d.Quiet (e.finishTake slot notify st x) := by
  have h1 : d.Quiet (e.writeStatus slot st x).advanceTake :=
    (h.writeStatus slot st x).advanceTake (((Ev.Quiet.refl e).writeStatus slot st x).attached.trans ha)
  unfold Ev.finishTake
  dsimp only
  split
  · exact h1.slotFinal _ _
  · exact h1

theorem finish (h : d.Quiet e) (ha : e.attached = true) (slot : Decode.Slot) (st : Status) (x : Detail) :
    d.Quiet (e.finish slot st x) := h.finishTake ha _ _ _ _

theorem refuse (h : d.Quiet e) (ha : e.attached = true) (slot : Decode.Slot) (r : Reason) : d.Quiet (e.refuse slot r) :=
  h.finish ha _ _ _

theorem done (h : d.Quiet e) (ha : e.attached = true) (slot : Decode.Slot) : d.Quiet (e.done slot) := h.finish ha _ _ _

/-! ### Queues and tags -/

theorem queueKeyFrame (h : d.Quiet e) (n : LineNo) (z : ZoneNo) (f : MotionFrame) : d.Quiet (e.queueKeyFrame n z f) := h.updQueue _ _

theorem queueSweep (h : d.Quiet e) (n : LineNo) (v : Nat) (t : Tag) : d.Quiet (e.queueSweep n v t) := h.updQueue _ _

theorem haltKey (h : d.Quiet e) (n : LineNo) (z : ZoneNo) : d.Quiet (e.haltKey n z) := by
  unfold Ev.haltKey
  split
  · exact h.updQueue _ _
  · exact h.updQueue _ _

theorem queueHaltAll (h : d.Quiet e) (n : LineNo) : d.Quiet (e.queueHaltAll n) := h.updQueue _ _

theorem tagTaken (h : d.Quiet e) (n : LineNo) (t : Tag) : d.Quiet (e.tagTaken n t) := h.updLine n _ ⟨rfl, rfl, rfl⟩

/-! ### The fountain drive -/

theorem setSweepFault (h : d.Quiet e) (u : UnitNo) (b : Bool) : d.Quiet (e.setSweepFault u b) := by
  unfold Ev.setSweepFault
  split
  · exact h
  · exact .oweMirror (.updUnit h u _ ⟨rfl, rfl, rfl, rfl, .inr rfl, .inr rfl⟩) u

theorem endFountainWait (h : d.Quiet e) (u : UnitNo) : d.Quiet (e.endFountainWait u) := by
  refine .oweTest (.updUnit h u _ ⟨rfl, rfl, rfl, rfl, .inr ?_, .inr rfl⟩) u
  rw [Option.map_map]
  rfl

theorem sendSweep (h : d.Quiet e) (n : LineNo) (v : Nat) : d.Quiet (e.sendSweep n v) := by
  unfold Ev.sendSweep
  exact .updFountain (.queueSweep (.tagTaken h n _) n v _) n _

theorem faultHandOver (h : d.Quiet e) (n : LineNo) : d.Quiet (e.faultHandOver n) :=   .setSweepFault (.updFountain h n _) n true

theorem pursueTo (h : d.Quiet e) (n : LineNo) (v : Nat) : d.Quiet (e.pursueTo n v) := by
  unfold Ev.pursueTo
  split
  · split
    · exact h
    · split
      · exact h.sendSweep n v
      · exact h.faultHandOver n
      · exact h
  · split
    · exact h
    · split
      · exact .updFountain (.updQueue h n _) n _
      · exact h.sendSweep n v

theorem pursue (h : d.Quiet e) (n : LineNo) : d.Quiet (e.pursue n) := by
  unfold Ev.pursue
  split
  · split
    · exact h.pursueTo n _
    · exact h
  · exact h

theorem pursueAfresh (h : d.Quiet e) (n : LineNo) : d.Quiet (e.pursueAfresh n) :=  .pursue (.updFountain h n _) n

theorem handOver (h : d.Quiet e) (u : UnitNo) (v : Nat) : d.Quiet (e.handOver u v) :=
  .pursueAfresh (.updFountain (.updUnit h u _ ⟨rfl, rfl, rfl, rfl, .inr rfl, .inr rfl⟩) u _) u

theorem endSweepFault (h : d.Quiet e) (n : LineNo) : d.Quiet (e.endSweepFault n) :=
  .endFountainWait (.raise (.oweMirror (.setSweepFault (.updQueue (.updFountain h n _) n _) n true) n) .lineEvent) n

theorem endSweepQuietly (h : d.Quiet e) (n : LineNo) : d.Quiet (e.endSweepQuietly n) := by
  unfold Ev.endSweepQuietly
  split
  · exact h.updFountain n _
  · exact h

theorem sweepArrives (h : d.Quiet e) (n : LineNo) (v : Nat) : d.Quiet (e.sweepArrives n v) :=
  .endFountainWait (.setSweepFault (.updFountain h n _) n false) n

theorem fountainReply (h : d.Quiet e) (n : LineNo) (p : Nat) (m : Decode.Motion) (t : Tag) : d.Quiet (e.fountainReply n p m t) := by
  unfold Ev.fountainReply
  split
  · exact h
  · split
    · exact h
    · split
      · exact h
      · exact h.endSweepFault n
      · split
        · exact h.sweepArrives n _
        · exact h.endSweepFault n

/-! ### Orders -/

theorem clearTracked (h : d.Quiet e) (u : UnitNo) : d.Quiet (e.clearTracked u) :=
  h.updUnit u _ ⟨rfl, rfl, rfl, rfl, .inl rfl, .inr rfl⟩

theorem clearWaiting (h : d.Quiet e) (u : UnitNo) : d.Quiet (e.clearWaiting u) :=
  h.updUnit u _ ⟨rfl, rfl, rfl, rfl, .inr rfl, .inl rfl⟩

theorem endSlot (h : d.Quiet e) (o : OrderRecord) (st : Status) (x : Detail) : d.Quiet (e.endSlot o st x) :=
  (h.writeStatus _ _ _).slotFinal _ _

theorem endTracked (h : d.Quiet e) (u : UnitNo) (st : Status) (c : Cause) : d.Quiet (e.endTracked u st c) := by
  unfold Ev.endTracked
  split
  · exact (h.clearTracked u).endSlot _ _ _
  · exact h

theorem endWaiting (h : d.Quiet e) (u : UnitNo) (st : Status) (c : Cause) : d.Quiet (e.endWaiting u st c) := by
  unfold Ev.endWaiting
  split
  · exact (h.clearWaiting u).endSlot _ _ _
  · exact h

theorem supersede (h : d.Quiet e) (u : UnitNo) : d.Quiet (e.supersede u) := (h.endTracked u _ _).endWaiting u _ _

theorem detachOrder (h : d.Quiet e) (u : UnitNo) : d.Quiet (e.detachOrder u) := (h.endTracked u _ _).endWaiting u _ _

theorem endCheckOrder (h : d.Quiet e) (a b : LineNo) (st : Status) (c : Cause) (k : Nat) : d.Quiet (e.endCheckOrder a b st c k) := by
  unfold Ev.endCheckOrder
  split
  · exact ((h.clearTracked a).clearTracked b).endSlot _ _ _
  · exact h

theorem completeCheck (h : d.Quiet e) (c : CheckRun) : d.Quiet (e.completeCheck c) := by
  unfold Ev.completeCheck
  dsimp only
  split
  · exact h
  · exact h.endCheckOrder _ _ _ _ _

theorem testOrder (h : d.Quiet e) (u : UnitNo) : d.Quiet (e.testOrder u) := by
  unfold Ev.testOrder
  split
  · split
    · exact h.endTracked u _ _
    · exact h
  · exact h

theorem endByLine (h : d.Quiet e) (u : UnitNo) (c : Cause) : d.Quiet (e.endByLine u c) := h.endTracked u _ _

theorem endLinePower (h : d.Quiet e) (n : LineNo) (on : Bool) : d.Quiet (e.endLinePower n on) := by
  unfold Ev.endLinePower
  split
  · split
    · exact h.endTracked n _ _
    · exact h
  · exact h

theorem closeStart (h : d.Quiet e) (u : UnitNo) (st : Status) : d.Quiet (e.closeStart u st) := by
  unfold Ev.closeStart
  split
  · exact h.clearTracked u
  · exact h

theorem stage (h : d.Quiet e) (u : UnitNo) (v : Vector Nat 64) : d.Quiet (e.stage u v) := h.updUnit u _ ⟨rfl, rfl, rfl, rfl, .inr rfl, .inr rfl⟩

theorem setUnits (h : d.Quiet e) (us : Vector UnitRec 16) (hus : ∀ u : UnitNo, (e.unit u).SameTable us[u]) :
    d.Quiet { e with units := us } :=
  ⟨⟨fun u => (h.still.unit u).trans (hus u), h.still.line, h.still.partGrants, h.still.curves, h.still.check, h.still.intake,
    h.still.timing, h.still.pending, h.still.portState, h.still.anchor, h.still.ring, h.still.mem, h.still.wf⟩, h.arbiterDue, h.mirrorDue⟩

theorem releaseWaiting (h : d.Quiet e) (keep : Bool) : d.Quiet (e.releaseWaiting keep) :=
  h.setUnits _ fun u => by
    simp only [Fin.getElem_fin, Vector.getElem_ofFn]
    refine ⟨rfl, rfl, rfl, rfl, .inr rfl, .inr ?_⟩
    rw [Option.map_map]
    rfl

/-! ### Lines -/

theorem noteReported (h : d.Quiet e) (n : LineNo) (k : Fin 9) (r : Decode.Reply) : d.Quiet (e.noteReported n k r) := by
  unfold Ev.noteReported
  split
  · exact h.updLine n _ ⟨rfl, rfl, rfl⟩
  · split
    · exact h.updLine n _ ⟨rfl, rfl, rfl⟩
    · exact h

theorem loseFountain (h : d.Quiet e) (n : LineNo) : d.Quiet (e.loseFountain n) := by
  unfold Ev.loseFountain
  split
  · exact h.endSweepFault n
  · exact h.setSweepFault n true

theorem clearResults (h : d.Quiet e) (a b : LineNo) : d.Quiet (e.clearResults a b) :=
  .oweLine (.updLine (.oweLine (.updLine h a _ ⟨rfl, rfl, rfl⟩) a) b _ ⟨rfl, rfl, rfl⟩) b

end Ev.Quiet

theorem Line.noteSent_sameTable (l : Line) (f : Option MotionFrame) : l.SameTable (l.noteSent f) := by
  unfold Line.noteSent
  split
  all_goals exact ⟨rfl, rfl, rfl⟩

theorem Line.beginCycle_sameTable (l : Line) : l.SameTable l.beginCycle :=
  ⟨(l.noteSent_sameTable _).power, (l.noteSent_sameTable _).pendingList, (l.noteSent_sameTable _).grants⟩

namespace Ev.Quiet

theorem beginCycle (h : d.Quiet e) (n : LineNo) : d.Quiet (e.updLine n Line.beginCycle) := h.updLine n _ (Line.beginCycle_sameTable _)

/-! ### What is written -/

theorem writeMirror (h : d.Quiet e) (ha : e.attached = true) (a : Anchor) (u : UnitNo) : d.Quiet (e.writeMirror a u) := by
  unfold Ev.writeMirror
  exact .writeWords (.writeWords (.writeWords (.updPort h _ rfl rfl) (by exact ha) _ _) (by exact ha) _ _) (by exact ha) _ _

theorem writeIf (h : d.Quiet e) (ha : e.attached = true) (c : Bool) (b : Nat) (w : Word) : d.Quiet (e.writeIf c b w) := by
  unfold Ev.writeIf
  split
  · exact h.writeWords ha _ _
  · exact h

theorem writeIfAttached (h : d.Quiet e) (ha : d.attached = true) (c : Bool) (b : Nat) (w : Word) : d.Quiet (e.writeIf c b w) :=
  h.writeIf (h.attached.trans ha) c b w

theorem writeLine (h : d.Quiet e) (ha : e.attached = true) (a : Anchor) (n : LineNo) : d.Quiet (e.writeLine a n) := h.writeWords ha _ _

/-- A fold of an operation that is quiet on a part that is ATTACHED. -/
theorem foldlAttached {α : Type} {f : Ev → α → Ev} (hf : ∀ (e : Ev) (x : α), e.attached = true → e.Quiet (f e x)) (l : List α)
    (h : d.Quiet e) (ha : e.attached = true) : d.Quiet (l.foldl f e) := by
  induction l generalizing e with
  | nil => exact h
  | cons x l ih =>
    have hx := hf e x ha
    exact ih (h.trans hx) (hx.attached.trans ha)

theorem writeWatch (ha : e.attached = true) (b : Nat) (k : Fin 4) : e.Quiet (e.writeWatch b k) := by
  unfold Ev.writeWatch
  exact .writeIfAttached (.writeIfAttached (.writeIfAttached (.refl e) ha _ _ _) ha _ _ _) ha _ _ _

theorem draws (h : d.Quiet e) (k : Nat) : d.Quiet { e with freeDraws := k } :=
  ⟨⟨h.still.unit, h.still.line, h.still.partGrants, h.still.curves, h.still.check, h.still.intake, h.still.timing, h.still.pending,
    h.still.portState, h.still.anchor, h.still.ring, h.still.mem, h.still.wf⟩, h.arbiterDue, h.mirrorDue⟩

theorem writeChangedStatus (ha : e.attached = true) (a : Anchor) : e.Quiet (e.writeChangedStatus a) := by
  unfold Ev.writeChangedStatus
  extract_lets b s e1 e2 e3 e4
  have h3 : e.Quiet e3 := .writeIfAttached (.writeIfAttached (.writeIfAttached (.refl e) ha _ _ _) ha _ _ _) ha _ _ _
  have h4 : e.Quiet e4 := h3.foldlAttached (fun e k he => writeWatch he b k) (ascending 4) (h3.attached.trans ha)
  exact h4.draws _

theorem runTests (h : d.Quiet e) : d.Quiet e.runTests :=
  (h.foldl (fun _ u k => k.testOrder u) (inOrder e.testDue)).step (.refl _) rfl (List.Subset.refl _)

end Ev.Quiet

theorem Ev.flush_kept (e : Ev) : e.toState.Still e.flush.toState ∧ e.flush.arbiterDue = e.arbiterDue := by
  unfold Ev.flush
  dsimp only
  split
  · next a ha _ =>
    have h1 := (Ev.Quiet.refl e).foldlAttached (fun e u he => (Ev.Quiet.refl e).writeMirror he a u) (inOrder e.mirrorDue) ha
    have h2 := h1.trans (Ev.Quiet.writeChangedStatus (h1.attached.trans ha) a)
    have h3 := h2.foldlAttached (fun e n he => (Ev.Quiet.refl e).writeLine he a n) (inOrder e.lineDue) (h2.attached.trans ha)
    exact ⟨h3.still, h3.arbiterDue⟩
  · exact ⟨.refl _, rfl⟩

/-- What is owed at the end of an event is written. -/
theorem Ev.still_flush (e : Ev) : e.toState.Still e.flush.toState := e.flush_kept.1

namespace Ev.Quiet

theorem snapshot (h : d.Quiet e) : d.Quiet e.snapshot := by
  unfold Ev.snapshot
  split
  · next a ha _ =>
    dsimp only
    have h1 := (h.updPort (fun p => { p with snapshotSheet := e.timing.counter }) rfl rfl).foldlAttached
      (fun e u he => (Ev.Quiet.refl e).writeMirror he a u) ((ascending 16).filter fun u => (e.unit u).defined) ha
    have ha1 := (h1.attached.trans h.attached.symm).trans ha
    have h2 := h1.writeWords ha1 a.statusBase [e.timing.counter]
    exact h2.foldlAttached (fun e n he => (Ev.Quiet.refl e).writeLine he a n) (ascending 16) ha1
  · exact h

theorem handMark (h : d.Quiet e) : d.Quiet e.handMark := by
  unfold Ev.handMark
  split
  · exact h.updPort _ rfl rfl
  · exact h

/-! ### The reading store -/

theorem appendRecord (h : d.Quiet e) (ha : e.attached = true) (a : Anchor) (o : OpenSegment) (r : List Word) :
    d.Quiet (e.appendRecord a o r) :=  by
  unfold Ev.appendRecord
  exact .updPort (.writeWords (.writeWords h ha _ _) (by exact ha) _ _) _ rfl rfl

theorem openSegment (h : d.Quiet e) (ha : e.attached = true) (a : Anchor) : d.Quiet (e.openSegment a) := by
  unfold Ev.openSegment
  exact .updPort (.writeWords h ha _ _) _ rfl rfl

theorem loseRecord (h : d.Quiet e) : d.Quiet e.loseRecord :=
  .raise (.updPort h _ rfl rfl) _

theorem openAndPlace (h : d.Quiet e) (ha : e.attached = true) (a : Anchor) (r : List Word) : d.Quiet (e.openAndPlace a r) := by
  unfold Ev.openAndPlace
  split
  · exact (h.openSegment ha a).appendRecord ha a _ r
  · exact h.loseRecord

theorem closeSegment (h : d.Quiet e) (ha : e.attached = true) (a : Anchor) (o : OpenSegment) : d.Quiet (e.closeSegment a o) :=
  .updPort (.raise (.writeWords h ha _ _) _) _ rfl rfl

theorem storeRecord (h : d.Quiet e) (r : List Word) : d.Quiet (e.storeRecord r) := by
  unfold Ev.storeRecord
  split
  · next a ha _ =>
    split
    · exact h.openAndPlace ha a r
    · split
      · exact (h.closeSegment ha a _).openAndPlace ha a r
      · exact h.appendRecord ha a _ r
  · exact h

/-! ### The order scan -/

/-- A put offset that is valid lies in the ring (R162). -/
theorem lt_of_judgePut {length take retire put : Nat} (h : judgePut length take retire put = .none) : put < length := by
  unfold judgePut at h
  split_ifs at h
  omega

theorem orderScan (h : d.Quiet e) (a : Anchor) (ha : e.port.anchor = some a) : d.Quiet (e.orderScan a) := by
  unfold Ev.orderScan Ev.putJudged
  dsimp only
  have h1 := h.updPort (fun p => { p with
    noticeOffset := some (Memory.read e.mem 13), scanTimer := some a.scanInterval, handedMarks := p.handedMarks - 1 }) rfl rfl
  split
  · next hput =>
    refine h1.updPort _ rfl rfl ?_
    intro b hb
    obtain rfl : a = b := Option.some.inj (ha.symm.trans hb)
    exact ⟨id, fun _ => lt_of_judgePut hput⟩
  · split
    · exact h1
    · exact .raise (.updPort h1 _ rfl rfl) _

end Ev.Quiet

end Sys2Proof.Machine
end

