-- ==== Sys2Proof/Proofs/Keeps.lean ====
section
/-! PROOFS. What an event keeps, from what its elementary moves keep. `Calm` properties survive every quiet operation; `Keeps` ones
survive the moves of the zone table as well: a change of state, a grant, and a change of a zone's fields that no law forbids. The
settings, the power of a line and each other block are named apart (`CheckFree`, `PowerFree`, …), since few commands change them. -/

namespace Sys2Proof.Machine

/-- The move fields stand exactly in MOVING, a cause exactly in FAULTED, and samples, at most 8, in REST alone (R3, R118). -/
structure Zone.Lawful (r : Zone) : Prop where
  commanded : r.commanded.isSome ↔ r.state = .moving
  moveKind : r.moveKind.isSome ↔ r.state = .moving
  moveTag : r.moveTag.isSome ↔ r.state = .moving
  faultCause : r.faultCause.isSome ↔ r.state = .faulted
  few : r.samples.length ≤ 8
  none : r.state ≠ .rest → r.samples = []

/-- The offset lies within −300 to +300 (R129). -/
def Zone.offsetInRange (r : Zone) : Prop := -300 ≤ r.offset ∧ r.offset ≤ 300

/-- A zone's fields change with its state and target as they stand, and within the laws. -/
structure Zone.Gentle (r r' : Zone) : Prop where
  state : r'.state = r.state
  target : r'.target = r.target
  offset : r.offsetInRange → r'.offsetInRange
  lawful : r.Lawful → r'.Lawful

/-- The zones of a unit change gently, and its settings not at all. -/
structure UnitRec.Gentle (r r' : UnitRec) : Prop where
  config : r'.config = r.config
  loopOn : r'.loopOn = r.loopOn
  loopParams : r'.loopParams = r.loopParams
  tracked : r'.tracked = r.tracked
  waiting : r'.waiting = r.waiting
  zone : ∀ z : ZoneNo, (r.zones[z]).Gentle r'.zones[z]

theorem Zone.Gentle.refl (r : Zone) : r.Gentle r := ⟨rfl, rfl, id, id⟩

theorem Zone.Gentle.trans {a b c : Zone} (h : a.Gentle b) (k : b.Gentle c) : a.Gentle c :=
  ⟨k.state.trans h.state, k.target.trans h.target, k.offset ∘ h.offset, k.lawful ∘ h.lawful⟩

/-- A change of fields that no law speaks of. -/
theorem Zone.Gentle.of_fields {r r' : Zone} (hstate : r'.state = r.state) (htarget : r'.target = r.target)
    (hoffset : r'.offset = r.offset) (hcommanded : r'.commanded = r.commanded) (hkind : r'.moveKind = r.moveKind)
    (htag : r'.moveTag = r.moveTag) (hcause : r'.faultCause = r.faultCause) (hsamples : r'.samples = r.samples ∨ r'.samples = []) :
    r.Gentle r' where
  state := hstate
  target := htarget
  offset h := by rw [Zone.offsetInRange, hoffset]; exact h
  lawful h := by
    refine ⟨?_, ?_, ?_, ?_, ?_, ?_⟩
    · rw [hcommanded, hstate]; exact h.commanded
    · rw [hkind, hstate]; exact h.moveKind
    · rw [htag, hstate]; exact h.moveTag
    · rw [hcause, hstate]; exact h.faultCause
    · rcases hsamples with k | k
      · rw [k]; exact h.few
      · simp [k]
    · rcases hsamples with k | k
      · rw [k, hstate]; exact h.none
      · exact fun _ => k

/-- A MOVING zone is given a commanded position, a kind and a tag. -/
theorem Zone.Gentle.of_moving {r r' : Zone} (hmoving : r.state = .moving) (hstate : r'.state = r.state) (htarget : r'.target = r.target)
    (hoffset : r'.offset = r.offset) (hcommanded : r'.commanded.isSome) (hkind : r'.moveKind.isSome ∨ r'.moveKind = r.moveKind)
    (htag : r'.moveTag.isSome ∨ r'.moveTag = r.moveTag) (hcause : r'.faultCause = r.faultCause) (hsamples : r'.samples = r.samples) :
    r.Gentle r' where
  state := hstate
  target := htarget
  offset h := by rw [Zone.offsetInRange, hoffset]; exact h
  lawful h := by
    refine ⟨?_, ?_, ?_, ?_, ?_, ?_⟩
    · rw [hstate]; exact iff_of_true hcommanded hmoving
    · rw [hstate]
      rcases hkind with k | k
      · exact iff_of_true k hmoving
      · rw [k]; exact h.moveKind
    · rw [hstate]
      rcases htag with k | k
      · exact iff_of_true k hmoving
      · rw [k]; exact h.moveTag
    · rw [hcause, hstate]; exact h.faultCause
    · rw [hsamples]; exact h.few
    · rw [hsamples, hstate]; exact h.none

/-! ### Properties that events keep -/

/-- A property of events that quiet operations and the writes at an event's end keep. -/
structure Calm (P : Ev → Prop) : Prop where
  quiet : ∀ {e e' : Ev}, P e → e.Quiet e' → P e'
  flush : ∀ {e : Ev}, P e → P e.flush

/-- A calm property that the moves of the zone table keep. -/
structure Keeps (P : Ev → Prop) : Prop extends Calm P where
  due : ∀ {e : Ev} (b : Bool), P e → P { e with arbiterDue := b }
  change : ∀ {e : Ev} (u : UnitNo) (z : ZoneNo) {new : ZoneState}, new = .rest ∨ new = .held → P e → P (e.changeState u z new)
  pend : ∀ {e : Ev} (u : UnitNo) (z : ZoneNo) (k : MoveKind), P e → P (e.enterPending u z k)
  fault : ∀ {e : Ev} (u : UnitNo) (z : ZoneNo) (c : FaultCause), P e → P (e.enterFaulted u z c)
  grant : ∀ {e : Ev} {n : LineNo}, e.eligible n = true → P e → P (e.grant n)
  unit : ∀ {e : Ev} (u : UnitNo) (f : UnitRec → UnitRec), (e.unit u).Gentle (f (e.unit u)) → P e → P (e.updUnit u f)
  target : ∀ {e : Ev} (u : UnitNo) (z : ZoneNo) {c : UnitConfig} (plan : Nat) (offset : Int), (e.unit u).config = some c → P e →
    P (e.updZone u z fun r => { r with target := some (targetValue c plan offset) })

/-- Kept by any change of the check unit. -/
def CheckFree (P : Ev → Prop) : Prop := ∀ (e : Ev) c, P e → P (e.setCheck c)

/-- Kept by any change of the reading intake. -/
def IntakeFree (P : Ev → Prop) : Prop := ∀ (e : Ev) f, P e → P (e.updIntake f)

/-- Kept by any change of the press timing unit. -/
def TimingFree (P : Ev → Prop) : Prop := ∀ (e : Ev) f, P e → P (e.updTiming f)

/-- Kept by a change of a line that touches neither its pending list nor its grants. -/
def PowerFree (P : Ev → Prop) : Prop :=
  ∀ (e : Ev) n (f : Line → Line), (∀ l, (f l).pendingList = l.pendingList ∧ (f l).grants = l.grants) → P e → P (e.updLine n f)

/-- Kept by a SET LOOP. -/
def LoopFree (P : Ev → Prop) : Prop :=
  ∀ (e : Ev) u on params, P e → P (e.updUnit u fun r => { r with loopOn := on, loopParams := some params })

/-- Kept when a unit's sweep is fixed. -/
def SweepFree (P : Ev → Prop) : Prop :=
  ∀ (e : Ev) u (c : UnitConfig) v, (e.unit u).config = some c → P e →
    P (e.updUnit u fun r => { r with config := some { c with sweepMode := .fixed, fixedSweep := v } })

/-- Kept by a DEFINE UNIT that is not busy. -/
def DefineFree (P : Ev → Prop) : Prop :=
  ∀ (e : Ev) u (c : UnitConfig), e.defineBusy u = false → c.inRange = true → P e → P (e.defineUnit u c)

/-- Kept by a LOAD CURVE of a valid curve. -/
def CurveFree (P : Ev → Prop) : Prop :=
  ∀ (e : Ev) (k : Fin 8) v, curveValid v = true → P e → P { e with curves := e.curves.set k v }

variable {P : Ev → Prop} {e : Ev}

theorem Calm.foldl {α : Type} {f : Ev → α → Ev} (hf : ∀ e x, P e → P (f e x)) (l : List α) (h : P e) : P (l.foldl f e) := by
  induction l generalizing e with
  | nil => exact h
  | cons x l ih => exact ih (hf e x h)

namespace Keeps

theorem zone (hP : Keeps P) (u : UnitNo) (z : ZoneNo) (f : Zone → Zone) (hf : (e.zone u z).Gentle (f (e.zone u z))) (h : P e) :
    P (e.updZone u z f) := by
  have hf' : ((e.unit u).zones[z]).Gentle (f (e.unit u).zones[z]) := hf
  refine hP.unit u _ ⟨rfl, rfl, rfl, rfl, rfl, fun y => ?_⟩ h
  rcases eq_or_ne z y with rfl | k
  · simpa using hf'
  · have k' : z.val ≠ y.val := fun j => k (Fin.ext j)
    simpa [k'] using Zone.Gentle.refl _

theorem zones (hP : Keeps P) (u : UnitNo) (f : ZoneNo → Zone → Zone) (hf : ∀ z, (e.zone u z).Gentle (f z (e.zone u z))) (h : P e) :
    P (e.updZones u f) := by
  have hf' : ∀ z : ZoneNo, ((e.unit u).zones[z]).Gentle (f z (e.unit u).zones[z]) := hf
  refine hP.unit u _ ⟨rfl, rfl, rfl, rfl, rfl, fun y => ?_⟩ h
  simpa using hf' y

/-! ### Moves -/

theorem place (hP : Keeps P) (u : UnitNo) (z : ZoneNo) (h : P e) : P (e.place u z) := by
  unfold Ev.place
  split
  · exact hP.pend u z _ h
  · exact hP.change u z (.inl rfl) h
  · split
    · next hz =>
      refine hP.zone u z _ ⟨rfl, rfl, id, fun k => ?_⟩ h
      exact ⟨k.commanded, k.moveKind, k.moveTag, iff_of_true rfl hz, k.few, k.none⟩
    · exact hP.fault u z _ h

theorem sendMove (hP : Keeps P) (u : UnitNo) (z : ZoneNo) (p k : Nat) (hz : (e.zone u z).state = .moving) (h : P e) :
    P (e.sendMove u z p k) := by
  have hq : e.Quiet ((e.tagTaken u (e.nextKeyTag u z)).queueKeyFrame u z (.move z p (e.nextKeyTag u z))) :=
    .queueKeyFrame (.tagTaken (.refl e) u _) u z _
  unfold Ev.sendMove
  refine hP.zone u z _ ?_ (hP.quiet h hq)
  rw [hq.zone]
  exact .of_moving hz rfl rfl rfl rfl (.inl rfl) (.inl rfl) rfl rfl

theorem sendZero (hP : Keeps P) (u : UnitNo) (z : ZoneNo) (hz : (e.zone u z).state = .moving) (h : P e) : P (e.sendZero u z) := by
  have hq : e.Quiet ((e.tagTaken u (e.nextKeyTag u z)).queueKeyFrame u z (.zero z (e.nextKeyTag u z))) :=
    .queueKeyFrame (.tagTaken (.refl e) u _) u z _
  unfold Ev.sendZero
  refine hP.zone u z _ ?_ (hP.quiet h hq)
  rw [hq.zone]
  exact .of_moving hz rfl rfl rfl rfl (.inl rfl) (.inl rfl) rfl rfl

theorem grantRounds (hP : Keeps P) (k : Nat) (h : P e) : P (Ev.grantRounds k e) := by
  induction k generalizing e with
  | zero => exact h
  | succ k ih =>
    unfold Ev.grantRounds
    split
    · next n hn => exact ih (hP.grant (List.find?_some hn) h)
    · exact h

theorem runArbiter (hP : Keeps P) (h : P e) : P e.runArbiter := hP.due false (hP.grantRounds _ h)

theorem settleArbiter (hP : Keeps P) (h : P e) : P e.settleArbiter := by
  unfold Ev.settleArbiter
  split
  · exact hP.runArbiter h
  · exact h

theorem settle (hP : Keeps P) (h : P e) : P e.settle := hP.flush (hP.quiet (hP.settleArbiter h) (.runTests (.refl _)))

theorem retarget (hP : Keeps P) (u : UnitNo) (z : ZoneNo) (t : Nat) (hz : (e.zone u z).state = .moving) (h : P e) :
    P (e.retarget u z t) := by
  unfold Ev.retarget
  dsimp only
  split
  · exact h
  · split
    · exact h
    · split
      · have hq : e.Quiet (e.updQueue u fun q => { q with motion := q.motion.map (rewriteMove z t) }) := .updQueue (.refl e) u _
        refine hP.zone u z _ ?_ (hP.quiet h hq)
        rw [hq.zone]
        exact .of_moving hz rfl rfl rfl rfl (.inr rfl) (.inr rfl) rfl rfl
      · exact hP.sendMove u z t 0 hz h

theorem actOnTarget (hP : Keeps P) (u : UnitNo) (z : ZoneNo) (t : Nat) (h : P e) : P (e.actOnTarget u z t) := by
  unfold Ev.actOnTarget
  split
  · exact hP.place u z h
  · exact hP.place u z h
  · next hz => exact hP.retarget u z t hz h
  · exact h
  · exact h
  · exact h

theorem returnZone (hP : Keeps P) (u : UnitNo) (z : ZoneNo) (h : P e) : P (e.returnZone u z) := by
  unfold Ev.returnZone
  split
  · exact hP.zone u z _ (.of_fields rfl rfl rfl rfl rfl rfl rfl (.inl rfl)) (hP.pend u z _ h)
  · exact h

theorem returnMoving (hP : Keeps P) (u : UnitNo) (h : P e) : P (e.returnMoving u) :=
  Calm.foldl (fun _ z k => hP.returnZone u z k) (ascending 64) h

theorem setSettle (hP : Keeps P) (u : UnitNo) (z : ZoneNo) (h : P e) : P (e.setSettle u z) := by
  unfold Ev.setSettle
  exact hP.zone u z _ (.of_fields rfl rfl rfl rfl rfl rfl rfl (.inl rfl)) h

theorem positionAtRest (hP : Keeps P) (u : UnitNo) (z : ZoneNo) (p : Nat) (hz : (e.zone u z).state = .moving) (h : P e) :
    P (e.positionAtRest u z p) := by
  unfold Ev.positionAtRest
  dsimp only
  split
  · exact hP.change u z (.inl rfl) (hP.setSettle u z h)
  · split
    · exact hP.sendMove u z _ _ hz h
    · exact hP.fault u z _ h

theorem zeroAtRest (hP : Keeps P) (u : UnitNo) (z : ZoneNo) (p : Nat) (h : P e) : P (e.zeroAtRest u z p) := by
  unfold Ev.zeroAtRest
  split
  · exact hP.place u z (hP.setSettle u z h)
  · exact hP.fault u z _ h

theorem keyReply (hP : Keeps P) (u : UnitNo) (z : ZoneNo) (p : Nat) (m : Decode.Motion) (t : Tag) (h : P e) :
    P (e.keyReply u z p m t) := by
  unfold Ev.keyReply
  split
  · next hm =>
    have hz : (e.zone u z).state = .moving := by
      simp only [State.replyMatches, Bool.and_eq_true, beq_iff_eq] at hm
      exact hm.1.1
    split
    · exact h
    · exact hP.fault u z _ h
    · split
      · exact hP.zeroAtRest u z p h
      · exact hP.positionAtRest u z p hz h
  · exact h

theorem stallZone (hP : Keeps P) (u : UnitNo) (z : ZoneNo) (h : P e) : P (e.stallZone u z) :=
  hP.fault u z _ (hP.quiet h (.haltKey (.refl e) u z))

theorem loseZone (hP : Keeps P) (u : UnitNo) (z : ZoneNo) (h : P e) : P (e.loseZone u z) := by
  unfold Ev.loseZone
  split
  · exact hP.fault u z _ (hP.quiet h (.haltKey (.refl e) u z))
  · exact hP.fault u z _ h
  · exact hP.fault u z _ h
  · exact h
  · exact h
  · exact h

/-! ### The opening passes -/

theorem stage7 (hP : Keeps P) (u : UnitNo) (z : ZoneNo) (h : P e) : P (e.stage7 u z) := by
  unfold Ev.stage7
  split
  · next plan c _ hc =>
    dsimp only
    refine hP.actOnTarget u z _ (hP.target u z plan _ (by exact hc) ?_)
    exact hP.quiet h ⟨.refl _, rfl, List.Subset.refl _⟩
  · exact h

theorem stage7All (hP : Keeps P) (u : UnitNo) (l : List ZoneNo) (h : P e) : P (e.stage7All u l) :=
  Calm.foldl (fun _ z k => hP.stage7 u z k) l h

theorem applyPolicy_gentle (p : OffsetPolicy) (r : Zone) : r.Gentle (applyPolicy p r) := by
  cases p with
  | keep => exact .refl r
  | clear =>
    refine ⟨rfl, rfl, fun _ => by simp [applyPolicy, Zone.offsetInRange], fun h => ?_⟩
    exact ⟨h.commanded, h.moveKind, h.moveTag, h.faultCause, by simp [applyPolicy], fun _ => rfl⟩

theorem presetPass (hP : Keeps P) (u : UnitNo) (p : OffsetPolicy) (h : P e) : P (e.presetPass u p) := by
  unfold Ev.presetPass
  split
  · next c coverage _ _ =>
    dsimp only
    refine hP.quiet (hP.stage7All u _ (hP.zones u _ (fun z => ?_) (hP.quiet (hP.zones u _ (fun z => ?_) (hP.quiet h ?_))
      (.handOver (.refl _) u _)))) (.oweMirror (.refl _) u)
    · split
      · exact Zone.Gentle.trans (by exact .of_fields rfl rfl rfl rfl rfl rfl rfl (.inl rfl)) (applyPolicy_gentle p _)
      · exact .refl _
    · split
      · exact .of_fields rfl rfl rfl rfl rfl rfl rfl (.inl rfl)
      · exact .refl _
    · exact .updUnit (.refl e) u _ ⟨rfl, rfl, rfl, rfl, .inr rfl, .inr rfl⟩
  · exact h

theorem replan_gentle (c : UnitConfig) (v : Nat) (r : Zone) : r.Gentle (replan c v r) := by
  unfold replan
  split
  · exact .of_fields rfl rfl rfl rfl rfl rfl rfl (.inl rfl)
  · exact .refl r

theorem sweepPass (hP : Keeps P) (hs : SweepFree P) (u : UnitNo) (v : Nat) (h : P e) : P (e.sweepPass u v) := by
  unfold Ev.sweepPass
  split
  · next c hc =>
    dsimp only
    refine hP.quiet (hP.stage7All u _ (hP.zones u _ (fun z => ?_) (hP.quiet (hs e u c v hc h) (.handOver (.refl _) u _))))
      (.oweMirror (.refl _) u)
    split
    · exact replan_gentle c v _
    · exact .refl _
  · exact h

theorem saturateOffset_mem (x : Int) : -300 ≤ saturateOffset x ∧ saturateOffset x ≤ 300 := by
  unfold saturateOffset clampInt
  split_ifs <;> omega

theorem trimPair (hP : Keeps P) (u : UnitNo) (p : ZoneNo × Int) (h : P e) : P (e.trimPair u p) := by
  unfold Ev.trimPair
  dsimp only
  refine hP.stage7 u p.1 (hP.zone u p.1 _ ⟨rfl, rfl, fun _ => saturateOffset_mem _, fun k => ?_⟩
    (hP.quiet h ⟨.refl _, rfl, List.Subset.refl _⟩))
  exact ⟨k.commanded, k.moveKind, k.moveTag, k.faultCause, k.few, k.none⟩

theorem trimPass (hP : Keeps P) (u : UnitNo) (l : List (ZoneNo × Int)) (h : P e) : P (e.trimPass u l) :=
  hP.quiet (Calm.foldl (fun _ p k => hP.trimPair u p k) l h) (.oweMirror (.refl _) u)

theorem redirectToZero (hP : Keeps P) (u : UnitNo) (z : ZoneNo) (hz : (e.zone u z).state = .moving) (h : P e) :
    P (e.redirectToZero u z) := by
  unfold Ev.redirectToZero
  split
  · have hq : e.Quiet (e.updQueue u fun q => { q with motion := q.motion.map (moveToZero z) }) := .updQueue (.refl e) u _
    refine hP.zone u z _ ?_ (hP.quiet h hq)
    rw [hq.zone]
    exact .of_moving hz rfl rfl rfl rfl (.inl rfl) (.inr rfl) rfl rfl
  · exact hP.sendZero u z hz h

end Keeps

/-- Kept when an entry of a line's pending list is made one of kind ZERO in its place (R66). -/
def EntryFree (P : Ev → Prop) : Prop :=
  ∀ (e : Ev) u (z : ZoneNo), P e → P (e.updLine u fun l =>
    { l with pendingList := l.pendingList.map fun p => if p.zone = z then { p with kind := .zero } else p })

namespace Keeps

theorem zeroZone (hP : Keeps P) (hen : EntryFree P) (u : UnitNo) (z : ZoneNo) (h : P e) : P (e.zeroZone u z) := by
  unfold Ev.zeroZone
  split
  · exact hP.pend u z _ h
  · exact hen e u z h
  · next hz =>
    split
    · exact h
    · exact hP.redirectToZero u z hz h
  · exact h
  · exact h
  · exact h

theorem zeroPass (hP : Keeps P) (hen : EntryFree P) (u : UnitNo) (a b : Nat) (h : P e) : P (e.zeroPass u a b) :=
  Calm.foldl (fun _ z k => hP.zeroZone hen u z k) (zoneRange a b) h

theorem startPass (hP : Keeps P) (hen : EntryFree P) (u : UnitNo) (k : TrackedKind) (hs : ∀ v, k = .sweep v → SweepFree P)
    (h : P e) : P (e.startPass u k) := by
  unfold Ev.startPass
  split
  · exact hP.presetPass u _ h
  · exact hP.trimPass u _ h
  · next v => exact hP.sweepPass (hs v rfl) u v h
  · exact hP.zeroPass hen u _ _ h
  · exact h
  · exact h

end Keeps

theorem Keeps.and {Q : Ev → Prop} (hP : Keeps P) (hQ : Keeps Q) : Keeps fun e => P e ∧ Q e where
  quiet h k := ⟨hP.quiet h.1 k, hQ.quiet h.2 k⟩
  flush h := ⟨hP.flush h.1, hQ.flush h.2⟩
  due b h := ⟨hP.due b h.1, hQ.due b h.2⟩
  change u z _ hn h := ⟨hP.change u z hn h.1, hQ.change u z hn h.2⟩
  pend u z k h := ⟨hP.pend u z k h.1, hQ.pend u z k h.2⟩
  fault u z c h := ⟨hP.fault u z c h.1, hQ.fault u z c h.2⟩
  grant he h := ⟨hP.grant he h.1, hQ.grant he h.2⟩
  unit u f hf h := ⟨hP.unit u f hf h.1, hQ.unit u f hf h.2⟩
  target u z _ p o hc h := ⟨hP.target u z p o hc h.1, hQ.target u z p o hc h.2⟩

/-! ### Orders that a unit takes up -/

/-- Unit u has no WAITING order, and the part state and the anchor copy are these. -/
structure Ev.Idling (u : UnitNo) (st : PartState) (a : Option Anchor) (e : Ev) : Prop where
  waiting : (e.unit u).waiting = none
  state : e.port.state = st
  anchor : e.port.anchor = a

theorem Ev.Idling.updUnit {u v : UnitNo} {st : PartState} {a : Option Anchor} {f : UnitRec → UnitRec}
    (hf : (e.unit v).waiting = none → (f (e.unit v)).waiting = none) (h : e.Idling u st a) : (e.updUnit v f).Idling u st a := by
  refine ⟨?_, h.state, h.anchor⟩
  rw [Ev.updUnit_unit]
  split
  · next k => subst k; exact hf h.waiting
  · exact h.waiting

theorem Ev.Idling.grants {u : UnitNo} {st : PartState} {a : Option Anchor} {e' : Ev} (h : e.Idling u st a) (k : e.GrantsOnly e') :
    e'.Idling u st a :=
  ⟨(k.unit u).waiting.trans h.waiting, by rw [k.port]; exact h.state, by rw [k.port]; exact h.anchor⟩

theorem Ev.Idling.still {u : UnitNo} {st : PartState} {a : Option Anchor} {e' : Ev} (h : e.Idling u st a)
    (k : e.toState.Still e'.toState) : e'.Idling u st a :=
  ⟨(k.unit u).orders.waiting_none h.waiting, k.portState.trans h.state, k.anchor.trans h.anchor⟩

theorem keeps_idling (u : UnitNo) (st : PartState) (a : Option Anchor) : Keeps (Ev.Idling u st a) where
  quiet h k := h.still k.still
  flush h := h.still (Ev.still_flush _)
  due _ h := ⟨h.waiting, h.state, h.anchor⟩
  change v z _ _ h := h.grants (Ev.grantsOnly_changeState v z _)
  pend {e} v z k h := by
    unfold Ev.enterPending
    split
    · exact h
    · have h1 := h.grants (Ev.grantsOnly_changeState v z .pending)
      exact ⟨h1.waiting, h1.state, h1.anchor⟩
  fault v z c h := by
    have h1 := (h.grants (Ev.grantsOnly_changeState v z .faulted)).updUnit (v := v) (f := fun r =>
      { r with zones := r.zones.set z { r.zones[z] with faultCause := some c } }) id
    exact ⟨h1.waiting, h1.state, h1.anchor⟩
  grant _ h := h.grants (Ev.grantsOnly_grant _)
  unit _ _ hf h := h.updUnit fun k => hf.waiting.trans k
  target _ _ _ _ _ _ h := h.updUnit id

theorem entryFree_idling (u : UnitNo) (st : PartState) (a : Option Anchor) : EntryFree (Ev.Idling u st a) :=
  fun _ _ _ h => ⟨h.waiting, h.state, h.anchor⟩

theorem sweepFree_idling (u : UnitNo) (st : PartState) (a : Option Anchor) : SweepFree (Ev.Idling u st a) :=
  fun _ _ _ _ _ h => h.updUnit id

/-- What a property must say of the slots of orders (`S` of the part state, the anchor copy and the slot) to be kept when a unit takes
up an order: T is such a slot, a WAITING order's is, and a unit takes up an order in such a slot when it has no other. -/
structure OrderFreeWith (S : PartState → Option Anchor → Nat → Prop) (P : Ev → Prop) : Prop where
  take : ∀ {e : Ev}, e.attached = true → P e → S e.port.state e.port.anchor e.port.take
  waiting : ∀ {e : Ev} {u : UnitNo} {w : WaitingOrder}, P e → (e.unit u).waiting = some w → S e.port.state e.port.anchor w.order.slot
  track : ∀ {e : Ev} (u : UnitNo) (o : OrderRecord), S e.port.state e.port.anchor o.slot → (e.unit u).waiting = none → P e →
    P (e.updUnit u fun r => { r with tracked := some o })
  wait : ∀ {e : Ev} (u : UnitNo) (w : WaitingOrder), S e.port.state e.port.anchor w.order.slot → (e.unit u).tracked = none → P e →
    P (e.updUnit u fun r => { r with waiting := some w })

/-- Kept when a unit takes up an order. -/
def OrderFree (P : Ev → Prop) : Prop := ∃ S, OrderFreeWith S P

/-- A property that does not speak of orders. -/
theorem OrderFree.of_units (track : ∀ (e : Ev) (u : UnitNo) (o : OrderRecord), P e → P (e.updUnit u fun r => { r with tracked := some o }))
    (wait : ∀ (e : Ev) (u : UnitNo) (w : WaitingOrder), P e → P (e.updUnit u fun r => { r with waiting := some w })) : OrderFree P :=
  ⟨fun _ _ _ => True, ⟨fun _ _ => trivial, fun _ _ => trivial, fun u o _ _ h => track _ u o h, fun u w _ _ h => wait _ u w h⟩⟩

namespace Keeps

variable {S : PartState → Option Anchor → Nat → Prop}

theorem startOrder (hP : Keeps P) (hen : EntryFree P) (ho : OrderFreeWith S P) (u : UnitNo) (o : OrderRecord)
    (hs : ∀ v, o.kind = .sweep v → SweepFree P) (hk : S e.port.state e.port.anchor o.slot) (h : P e) : P (e.startOrder u o) := by
  have hcounts : e.Quiet { e with raised := 0, lowered := 0, saturated := 0 } := ⟨.refl _, rfl, List.Subset.refl _⟩
  have hwaiting := hcounts.updUnit u (fun r => { r with waiting := none }) ⟨rfl, rfl, rfl, rfl, .inr rfl, .inl rfl⟩
  have hidle : Ev.Idling u e.port.state e.port.anchor
      (Ev.updUnit { e with raised := 0, lowered := 0, saturated := 0 } u fun r => { r with waiting := none }) :=
    ⟨by rw [Ev.updUnit_unit_self], rfl, rfl⟩
  have hpass := (hP.and (keeps_idling u e.port.state e.port.anchor)).startPass
    (fun e' v z k => ⟨hen e' v z k.1, entryFree_idling _ _ _ e' v z k.2⟩) u o.kind
    (fun v j e' w c x hc k => ⟨hs v j e' w c x hc k.1, sweepFree_idling _ _ _ e' w c x hc k.2⟩) ⟨hP.quiet h hwaiting, hidle⟩
  unfold Ev.startOrder
  dsimp only
  refine ho.track u _ ?_ hpass.2.waiting hpass.1
  rw [hpass.2.state, hpass.2.anchor]
  exact hk

theorem startWaiting (hP : Keeps P) (hen : EntryFree P) (ho : OrderFreeWith S P) (u : UnitNo) (o : OrderRecord)
    (hs : ∀ v, o.kind = .sweep v → SweepFree P) (hk : S e.port.state e.port.anchor o.slot) (h : P e) : P (e.startWaiting u o) := by
  have h1 := hP.startOrder hen ho u o hs hk h
  unfold Ev.startWaiting
  dsimp only
  split
  · split
    · exact hP.quiet h1 (.slotFinal (.writeStatus (.closeStart (.refl _) u _) _ _ _) _ _)
    · exact hP.quiet h1 (.writeStatus (.closeStart (.refl _) u _) _ _ _)
  · exact h1

/-! ### Orders that touch zones -/

end Keeps

theorem Ev.updZone_updZone (e : Ev) (u : UnitNo) (z : ZoneNo) (f g : Zone → Zone) :
    (e.updZone u z f).updZone u z g = e.updZone u z (g ∘ f) := by
  simp [Ev.updZone, Ev.updUnit]

/-- The placement test looks at a zone's state, target and position alone. -/
theorem Ev.placement_updZone (e : Ev) (u : UnitNo) (z : ZoneNo) (f : Zone → Zone)
    (hf : ∀ r, (f r).state = r.state ∧ (f r).target = r.target ∧ (f r).position = r.position) :
    (e.updZone u z f).placement u z = e.placement u z := by
  have htol : ((e.updZone u z f).unit u).tolerance = (e.unit u).tolerance := by
    rw [Ev.updZone, Ev.updUnit_unit_self]
    rfl
  unfold State.placement
  rw [Ev.updZone_zone_self, htol, (hf _).1, (hf _).2.1, (hf _).2.2]
  rfl

/-- A FAULTED zone that leaves its state loses its cause, whatever the cause was. -/
theorem Ev.changeState_of_faulted {e : Ev} {u : UnitNo} {z : ZoneNo} {new : ZoneState} (hz : (e.zone u z).state = .faulted)
    (hnew : new ≠ .faulted) :
    e.changeState u z new = ((e.updZone u z fun r => { r with state := new, faultCause := none }).oweMirror u).oweTest u := by
  have h1 : ¬(ZoneState.faulted = new) := fun k => hnew k.symm
  simp [Ev.changeState, hz, h1]

/-- A FAULTED zone is placed the same with its cause cleared before. -/
theorem Ev.place_clearCause {e : Ev} {u : UnitNo} {z : ZoneNo} (hz : (e.zone u z).state = .faulted) :
    (e.updZone u z fun r => { r with faultCause := none }).place u z = e.place u z := by
  have hz' : ((e.updZone u z fun r => { r with faultCause := none }).zone u z).state = .faulted := by
    rw [Ev.updZone_zone_self]
    exact hz
  have hchange : ∀ new, new ≠ .faulted →
      (e.updZone u z fun r => { r with faultCause := none }).changeState u z new = e.changeState u z new := by
    intro new hnew
    rw [Ev.changeState_of_faulted hz' hnew, Ev.changeState_of_faulted hz hnew, Ev.updZone_updZone]
    rfl
  unfold Ev.place
  rw [Ev.placement_updZone _ _ _ _ (by exact fun _ => ⟨rfl, rfl, rfl⟩)]
  split
  · simp only [Ev.enterPending, hz, hz', reduceCtorEq, if_false, hchange _ (by decide : ZoneState.pending ≠ .faulted)]
  · exact hchange _ (by decide)
  · rw [if_pos hz', if_pos hz, Ev.updZone_updZone]
    rfl

namespace Keeps

/-! ### Orders that touch zones -/

theorem holdZone (hP : Keeps P) (u : UnitNo) (z : ZoneNo) (h : P e) : P (e.holdZone u z) := by
  unfold Ev.holdZone
  split
  · exact hP.change u z (.inr rfl) h
  · exact hP.change u z (.inr rfl) h
  · exact hP.change u z (.inr rfl) (hP.quiet h (.haltKey (.refl e) u z))
  · exact h
  · exact h
  · exact h

theorem releaseZone (hP : Keeps P) (u : UnitNo) (z : ZoneNo) (h : P e) : P (e.releaseZone u z) := by
  unfold Ev.releaseZone
  split
  · exact hP.place u z h
  · exact h

theorem clearZone (hP : Keeps P) (u : UnitNo) (z : ZoneNo) (h : P e) : P (e.clearZone u z) := by
  unfold Ev.clearZone
  split
  · next hz =>
    have hattempts : P (e.updZone u z fun r => { r with attempts := 0 }) :=
      hP.zone u z _ (.of_fields rfl rfl rfl rfl rfl rfl rfl (.inl rfl)) h
    have heq : (e.updZone u z fun r => { r with faultCause := none, attempts := 0 }).place u z
        = (e.updZone u z fun r => { r with attempts := 0 }).place u z := by
      rw [← Ev.place_clearCause (e := e.updZone u z fun r => { r with attempts := 0 }), Ev.updZone_updZone]
      · rfl
      · rw [Ev.updZone_zone_self]
        exact hz
    rw [heq]
    exact hP.quiet (hP.place u z hattempts) (.oweMirror (.refl _) u)
  · exact h

theorem treatRange (hP : Keeps P) (l : List ZoneNo) (f : Ev → ZoneNo → Ev) (hf : ∀ e z, P e → P (f e z)) (h : P e) :
    P (e.treatRange l f) :=
  Calm.foldl (fun _ _ k => hP.settleArbiter (hf _ _ k)) l h

/-! ### Lines -/

theorem loseModule (hP : Keeps P) (n : LineNo) (k : Fin 9) (h : P e) : P (e.loseModule n k) :=
  Calm.foldl (fun _ z j => hP.loseZone n z j) (zonesOfModule k) h

theorem moduleMissing (hP : Keeps P) (n : LineNo) (k : Fin 9) (h : P e) : P (e.moduleMissing n k) := by
  unfold Ev.moduleMissing
  refine hP.quiet (?_ : P _) (.oweLine (.raise (.refl _) _) n)
  split
  · exact hP.quiet h (.loseFountain (.refl e) n)
  · exact hP.loseModule n k h

theorem slotMissed (hP : Keeps P) (n : LineNo) (k : Fin 9) (h : P e) : P (e.slotMissed n k) := by
  unfold Ev.slotMissed
  dsimp only
  split
  · split
    · exact hP.moduleMissing n k (hP.quiet h (.updModule (.refl e) n k _))
    · exact hP.quiet h (.updModule (.refl e) n k _)
  · exact h

theorem handOnKey (hP : Keeps P) (n : LineNo) (k : Fin 9) (r : Decode.Reply) (m : Decode.Motion) (h : P e) :
    P (e.handOnKey n k r m) := by
  unfold Ev.handOnKey
  split
  · split
    · exact hP.keyReply n _ _ _ _ (hP.zone n _ _ (.of_fields rfl rfl rfl rfl rfl rfl rfl (.inl rfl)) h)
    · exact h
  · exact h

theorem handOn (hP : Keeps P) (n : LineNo) (k : Fin 9) (r : Decode.Reply) (h : P e) : P (e.handOn n k r) := by
  unfold Ev.handOn
  split
  · split
    · split
      · exact hP.quiet h (.fountainReply (.refl e) n _ _ _)
      · exact h
    · exact hP.handOnKey n k r _ h
  · exact h

theorem slotValid (hP : Keeps P) (n : LineNo) (k : Fin 9) (r : Decode.Reply) (h : P e) : P (e.slotValid n k r) := by
  have hupd : ∀ f : ModuleRec → ModuleRec, P (((e.updModule n k f).noteReported n k r).handOn n k r) := fun f =>
    hP.handOn n k r (hP.quiet h (.noteReported (.updModule (.refl e) n k f) n k r))
  unfold Ev.slotValid
  split
  · exact hupd _
  · exact hP.handOn n k r (hP.quiet h (.noteReported (.refl e) n k r))
  · dsimp only
    split
    · exact hP.quiet (hupd _) (.pursueAfresh (.oweLine (.raise (.refl _) _) n) n)
    · exact hP.quiet (hupd _) (.oweLine (.raise (.refl _) _) n)

theorem lastCycleEnd (hP : Calm P) (hw : PowerFree P) (n : LineNo) (h : P e) : P (e.lastCycleEnd n) :=
  hP.quiet (hw e n _ (by exact fun _ => ⟨rfl, rfl⟩) h) (.oweLine (.endLinePower (.updModules (.refl _) n _) n false) n)

theorem advanceCycle (hP : Calm P) (hw : PowerFree P) (n : LineNo) (c : Cycle) (h : P e) : P (e.advanceCycle n c) := by
  unfold Ev.advanceCycle
  split
  · exact hP.quiet h (.updLine (.refl e) n _ ⟨rfl, rfl, rfl⟩)
  · split
    · exact lastCycleEnd hP hw n h
    · exact hP.quiet h (.updLine (.refl e) n _ ⟨rfl, rfl, rfl⟩)

theorem judge (hP : Keeps P) (hw : PowerFree P) (n : LineNo) (c : Cycle) (r : Reception) (h : P e) : P (e.judge n c r) := by
  have h1 : P (e.updModule n c.slot fun m => { m with lastOutcome := judgeSlot c.slot r }) :=
    hP.quiet h (.updModule (.refl e) n _ _)
  unfold Ev.judge
  refine advanceCycle hP.toCalm hw n c ?_
  split
  · exact hP.slotValid n _ _ h1
  · exact hP.slotMissed n _ h1

theorem bringIntoService (hP : Keeps P) (hw : PowerFree P) (n : LineNo) (h : P e) : P (e.bringIntoService n) := by
  unfold Ev.bringIntoService
  have h1 : P ((e.updLine n fun l => { l with startTimer := none, power := .on }).updModules n fun m => { m with missed := 0 }) :=
    hP.quiet (hw e n _ (by exact fun _ => ⟨rfl, rfl⟩) h) (.updModules (.refl _) n _)
  refine hP.quiet (?_ : P _) (.oweLine (.endLinePower (.beginCycle (.refl _) n) n true) n)
  split
  · exact hP.runArbiter (hP.quiet h1 (.pursueAfresh (.refl _) n))
  · exact h1

theorem startTimerExpiry (hP : Keeps P) (hw : PowerFree P) (n : LineNo) (h : P e) : P (e.startTimerExpiry n) := by
  unfold Ev.startTimerExpiry
  split
  · exact hP.quiet h (.updLine (.refl e) n _ (Line.SameTable.trans (by exact ⟨rfl, rfl, rfl⟩) (Line.beginCycle_sameTable _)))
  · exact hP.bringIntoService hw n h

theorem trip (hP : Keeps P) (hw : PowerFree P) (n : LineNo) (h : P e) : P (e.trip n) := by
  unfold Ev.trip
  dsimp only
  have htake : ∀ l : Line, l.takeBackMisses.pendingList = l.pendingList ∧ l.takeBackMisses.grants = l.grants := fun l => by
    unfold Line.takeBackMisses
    split <;> exact ⟨rfl, rfl⟩
  refine hP.quiet (hP.returnMoving n (hP.quiet ?_ (.updModules (.refl _) n _)))
    (.oweLine (.endByLine (.raise (.endSweepQuietly (.refl _) n) _) n _) n)
  exact hw _ n _ (by exact fun _ => ⟨rfl, rfl⟩) (hw e n Line.takeBackMisses htake h)

theorem overcurrent (hP : Keeps P) (hw : PowerFree P) (hc : CheckFree P) (n : LineNo) (h : P e) : P (e.overcurrent n) := by
  unfold Ev.overcurrent
  split
  · exact hP.trip hw n h
  · exact hP.trip hw n h
  · exact hc e _ h
  · exact h
  · exact h

theorem stopLine (hP : Keeps P) (n : LineNo) (h : P e) : P (e.stopLine n) :=
  hP.quiet (hP.returnMoving n (hP.quiet h (.queueHaltAll (.updLine (.refl e) n _ (by exact ⟨rfl, rfl, rfl⟩)) n))) (.endByLine (.endSweepQuietly (.refl _) n) n _)

end Keeps

/-! ### The line check unit -/

namespace Calm

theorem leaveCheck (hP : Calm P) (hw : PowerFree P) (n : LineNo) (r : CheckResult) (h : P e) : P (e.leaveCheck n r) :=
  hP.quiet (hw e n _ (by exact fun _ => ⟨rfl, rfl⟩) h) (.oweLine (.refl _) n)

theorem endCheck (hP : Calm P) (hw : PowerFree P) (hc : CheckFree P) (c : CheckRun) (h : P e) : P (e.endCheck c) :=
  hP.quiet (hc _ none (hP.leaveCheck hw _ _ (hP.leaveCheck hw _ _ h))) (.raise (.refl _) _)

theorem checkPhaseExpiry (hP : Calm P) (hw : PowerFree P) (hc : CheckFree P) (a b : Bool) (h : P e) : P (e.checkPhaseExpiry a b) := by
  unfold Ev.checkPhaseExpiry
  split
  · split
    · exact hc e _ h
    · exact hP.endCheck hw hc _ (hP.quiet h (.completeCheck (.refl e) _))
  · exact h

theorem abortCheck (hP : Calm P) (hc : CheckFree P) (c : Cause) (h : P e) : P (e.abortCheck c) := by
  unfold Ev.abortCheck
  split
  · split
    · exact h
    · exact hP.quiet (hc e _ h) (.endCheckOrder (.refl _) _ _ _ _ _)
  · exact h

theorem abortUnit (hP : Calm P) (hc : CheckFree P) (u : UnitNo) (h : P e) : P (e.abortUnit u) := by
  unfold Ev.abortUnit
  split
  · split
    · exact hP.quiet (hP.abortCheck hc _ h) (.oweMirror (.oweMirror (.refl _) _) _)
    · exact hP.quiet h (.oweMirror (.endTracked (.refl e) u _ _) u)
  · exact hP.quiet h (.oweMirror (.endWaiting (.refl e) u _ _) u)
  · exact h

theorem enterCheck (hP : Calm P) (hw : PowerFree P) (n : LineNo) (h : P e) : P (e.enterCheck n) :=
  hP.quiet (hw e n _ (by exact fun _ => ⟨rfl, rfl⟩) h) (.updModules (.refl _) n _)

/-! ### Press timing -/

theorem intervalExpiry (hP : Calm P) (ht : TimingFree P) (h : P e) : P e.intervalExpiry := by
  unfold Ev.intervalExpiry
  dsimp only
  have hpulse : ∀ d : Ev, P d → P (if d.timing.actScanRequest then { d with scanPulses := d.scanPulses + 1 } else d) := fun d hd => by
    split
    · exact hP.quiet hd ⟨⟨fun _ => .refl _, fun _ => .refl _, rfl, rfl, rfl, rfl, rfl, rfl, rfl, rfl, .refl _, fun _ => rfl, id⟩, rfl,
        List.Subset.refl _⟩
    · exact hd
  refine ht _ _ (hpulse _ ?_)
  split
  · exact hP.quiet h (.snapshot (.refl e))
  · exact h

theorem sheetMark (hP : Calm P) (ht : TimingFree P) (h : P e) : P e.sheetMark := by
  unfold Ev.sheetMark
  dsimp only
  refine hP.quiet (?_ : P _) (.handMark (.releaseWaiting (.refl _) true))
  have hwatch : ∀ d : Ev, P d → P (if d.timing.watchMatches then d.raise .sheetWatch else d) := fun d hd => by
    split
    · exact hP.quiet hd (.raise (.refl _) _)
    · exact hd
  have hinterval : ∀ d : Ev, P d → P (if d.timing.intervalDue then d.intervalExpiry else d) := fun d hd => by
    split
    · exact hP.intervalExpiry ht hd
    · exact hd
  exact hinterval _ (hwatch _ (ht e _ h))

/-! ### The reading intake -/

theorem closeScan (hP : Calm P) (hi : IntakeFree P) (scan : OpenScan) (o : ScanOutcome)
    (g : List (UnitNo × List (Entry × ReadingCode))) (h : P e) : P (e.closeScan scan o g) :=
  hi _ _ (hP.quiet h (.storeRecord (.refl e) _))

theorem faultScan (hP : Calm P) (hi : IntakeFree P) (scan : OpenScan) (o : ScanOutcome) (h : P e) : P (e.faultScan scan o) :=
  hP.quiet (hi _ _ (hP.closeScan hi scan o _ h)) (.raise (.refl _) _)

theorem unreadable (hP : Calm P) (hi : IntakeFree P) (h : P e) : P e.unreadable := by
  unfold Ev.unreadable
  split
  · exact h
  · exact h
  · split
    · exact hP.faultScan hi _ _ h
    · exact hi e _ h

theorem scanOpen (hP : Calm P) (hi : IntakeFree P) (n : BitVec 16) (b : Sheet) (h : P e) : P (e.scanOpen n b) := by
  unfold Ev.scanOpen
  split
  · exact h
  · exact hi e _ h
  · split
    · exact hi _ _ (hP.faultScan hi _ _ h)
    · exact hi e _ h

theorem unitBlock (hP : Calm P) (hi : IntakeFree P) (u : BitVec 8) (l : List Entry) (h : P e) : P (e.unitBlock u l) := by
  unfold Ev.unitBlock
  split
  · exact hP.unreadable hi h
  · split
    · exact h
    · exact h
    · split
      · exact hi e _ h
      · exact hi e _ h

end Calm

/-- A reading coded VALID DENSITY is a zone's that is in REST (R116). -/
theorem readingCode_validDensity {j : ScanJudgement} {r : Zone} {b : Sheet} {x : Entry} (h : readingCode j r b x = .validDensity) :
    r.state = .rest := by
  unfold readingCode at h
  split_ifs at h
  cases x with
  | outOfRange => cases h
  | patchAbsent => cases h
  | density d =>
    simp only [zoneCode] at h
    cases hr : r.state with
    | rest => rfl
    | off | pending | moving | held | faulted => rw [hr] at h; split_ifs at h

namespace Keeps

theorem applyStep (hP : Keeps P) (u : UnitNo) (z : ZoneNo) (p : LoopParams) (x : Int) (h : P e) : P (e.applyStep u z p x) := by
  unfold Ev.applyStep
  dsimp only
  refine hP.stage7 u z (hP.zone u z _ ⟨rfl, rfl, fun _ => saturateOffset_mem _, fun k => ?_⟩ h)
  exact ⟨k.commanded, k.moveKind, k.moveTag, k.faultCause, by simp, fun _ => rfl⟩

theorem examine (hP : Keeps P) (u : UnitNo) (z : ZoneNo) (h : P e) : P (e.examine u z) := by
  unfold Ev.examine
  dsimp only
  split
  · split
    · split
      · exact hP.zone u z _ (.of_fields rfl rfl rfl rfl rfl rfl rfl (.inr rfl)) h
      · exact hP.applyStep u z _ _ h
    · exact h
  · exact h

theorem takeDensity (hP : Keeps P) (hi : IntakeFree P) (u : UnitNo) (z : ZoneNo) (x : Nat) (n : BitVec 16)
    (hz : (e.zone u z).state = .rest) (h : P e) : P (e.takeDensity u z x n) := by
  unfold Ev.takeDensity Ev.testWatches
  refine hi _ _ (hP.examine u z ?_)
  refine hP.zone u z _ ⟨rfl, rfl, id, fun k => ?_⟩ h
  exact ⟨k.commanded, k.moveKind, k.moveTag, k.faultCause, by simp [addSample], fun k' => absurd hz k'⟩

theorem treatZone (hP : Keeps P) (hi : IntakeFree P) (t : Treatment) (j : ScanJudgement) (scan : OpenScan) (u : UnitNo) (z : ZoneNo)
    (x : Entry) (h : P t.ev) : P (t.zone j scan u z x).ev := by
  unfold Treatment.zone
  dsimp only
  split
  · next hcode => exact hP.takeDensity hi u z _ _ (readingCode_validDensity hcode) h
  · exact h

theorem treatFoldl {α : Type} {f : Treatment → α → Treatment} (hf : ∀ t x, P t.ev → P (f t x).ev) (l : List α) (t : Treatment)
    (h : P t.ev) : P (l.foldl f t).ev := by
  induction l generalizing t with
  | nil => exact h
  | cons x l ih => exact ih _ (hf t x h)

theorem treatUnit (hP : Keeps P) (hi : IntakeFree P) (t : Treatment) (j : ScanJudgement) (scan : OpenScan) (u : UnitNo)
    (h : P t.ev) : P (t.unit j scan u).ev := by
  unfold Treatment.unit
  split
  · exact h
  · exact hP.settleArbiter (treatFoldl (fun t p k => hP.treatZone hi t j scan u p.1 p.2 k) _ { t with readings := [] } h)

theorem completeScan (hP : Keeps P) (hi : IntakeFree P) (scan : OpenScan) (h : P e) : P (e.completeScan scan) := by
  unfold Ev.completeScan
  dsimp only
  have ht := treatFoldl (fun t u k => hP.treatUnit hi t (e.judgeScan scan.sheet) scan u k) (ascending 16)
    { ev := e, readings := [], groups := [], hit := false } h
  split
  · exact hP.closeScan hi scan _ _ (hP.quiet ht (.raise (.refl _) _))
  · exact hP.closeScan hi scan _ _ ht

theorem scanClose (hP : Keeps P) (hi : IntakeFree P) (w : Word) (h : P e) : P (e.scanClose w) := by
  unfold Ev.scanClose
  split
  · exact h
  · exact h
  · split
    · split
      · exact hP.completeScan hi _ h
      · exact hP.faultScan hi _ _ h
    · exact hi e _ h

end Keeps

end Sys2Proof.Machine
end

