-- ==== Sys2Proof/Proofs/Steps.lean ====
section
/-! PROOFS. What every command keeps: the body of each command is made of the moves of `Keeps` and of the changes its own row allows. -/

namespace Sys2Proof.Machine

variable {P : Ev → Prop} {e : Ev} {s t : State}

/-- What a command may change beside the moves, by its row: for each kind of change, that the property is free of it. -/
structure FreeFor (P : Ev → Prop) (c : Instr) : Prop where
  check : c.setsCheck = true → CheckFree P
  intake : c.setsIntake = true → IntakeFree P
  timing : c.setsTiming = true → TimingFree P
  power : c.setsPower = true → PowerFree P
  loop : c.setsConfig = true → LoopFree P
  sweep : c.setsConfig = true → SweepFree P
  define : c.setsConfig = true → c.setsZones = true → DefineFree P
  curve : c.setsPart = true → CurveFree P
  zones : c.setsZones = true → Keeps P ∧ EntryFree P
  arbiter : Keeps P ∨ ∀ e, P e → e.arbiterDue = false
  orders : OrderFree P

/-- A calm property that the end of an event keeps: by the moves, or since no arbiter run is due. -/
structure Closed (P : Ev → Prop) : Prop extends Calm P where
  arbiter : Keeps P ∨ ∀ e, P e → e.arbiterDue = false

theorem Keeps.closed (hP : Keeps P) : Closed P := ⟨hP.toCalm, .inl hP⟩

theorem Closed.settle (hP : Closed P) (h : P e) : P e.settle := by
  rcases hP.arbiter with hK | ha
  · exact hK.settle h
  · have hnone : e.settleArbiter = e := by simp [Ev.settleArbiter, ha e h]
    rw [Ev.settle, hnone]
    exact hP.flush (hP.quiet h (.runTests (.refl _)))

/-- A state is the last of an event with the property. -/
def Reached (P : Ev → Prop) (t : State) : Prop := ∃ e : Ev, P e ∧ t = e.toState

theorem Ev.quiet_writesDone (s : State) : (Ev.ofState s).Quiet (Ev.ofState s.writesDone) :=
  ⟨⟨fun _ => .refl _, fun _ => .refl _, rfl, rfl, rfl, rfl, rfl, rfl, rfl, rfl, .refl _, fun _ => rfl, id⟩, rfl, List.Subset.refl _⟩

theorem Ev.quiet_hostWrites (s : State) (host : List HostWrite) :
    (Ev.ofState (s.afterHost host)).Quiet ((Ev.ofState s.writesDone).hostWrites host) :=
  ⟨⟨fun _ => .refl _, fun _ => .refl _, rfl, rfl, rfl, rfl, rfl, rfl, rfl, rfl, .refl _, fun _ => rfl, id⟩, rfl, List.Subset.refl _⟩

theorem act_reaches (hP : Closed P) {f : Ev → Ev}
    (h : P (f (Ev.ofState s.writesDone))) (ht : act s f = .next t) : Reached P t :=
  ⟨_, hP.settle h, (act_next ht).2⟩

/-- A take reaches what its order keeps, on a part that is ATTACHED. -/
theorem takeOrder_reaches (hP : Closed P) {host : List HostWrite}
    {applies : Decode.Slot → Bool} {f : Anchor → Decode.Slot → Ev → Ev} (h : P (Ev.ofState (s.afterHost host)))
    (hf : ∀ a slot e, applies slot = true → P e → e.attached = true → P (f a slot e)) (ht : takeOrder host applies f s = .next t) : Reached P t := by
  have h1 : P ((Ev.ofState s.writesDone).hostWrites host) := hP.quiet h (Ev.quiet_hostWrites s host)
  refine act_reaches hP ?_ ht
  dsimp only
  split
  · split
    · next hd =>
      simp only [State.takeDue, Bool.and_eq_true] at hd
      exact hf _ _ _ hd.2 h1 hd.1.1
    · exact h1
  · exact h1

/-! ### The end of a take -/

namespace Calm

theorem refuse (hP : Calm P) (ha : e.attached = true) (slot : Decode.Slot) (r : Reason) (h : P e) : P (e.refuse slot r) :=
  hP.quiet h (.refuse (.refl e) ha slot r)

theorem done (hP : Calm P) (ha : e.attached = true) (slot : Decode.Slot) (h : P e) : P (e.done slot) :=
  hP.quiet h (.done (.refl e) ha slot)

theorem onUnit (hP : Calm P) (ha : e.attached = true) (slot : Decode.Slot) {f : UnitNo → Ev} (hf : ∀ u, P (f u)) (h : P e) :
    P (e.onUnit slot f) := by
  unfold Ev.onUnit
  split
  · exact hf _
  · exact hP.refuse ha slot _ h

theorem onDefined (hP : Calm P) (ha : e.attached = true) (slot : Decode.Slot) {f : UnitNo → UnitConfig → Ev}
    (hf : ∀ u c, (e.unit u).config = some c → P (f u c)) (h : P e) : P (e.onDefined slot f) := by
  unfold Ev.onDefined
  refine hP.onUnit ha slot (fun u => ?_) h
  split
  · next hc => exact hf _ _ hc
  · exact hP.refuse ha slot _ h

end Calm

/-- A command leaves ATTACHED what its elementary moves leave so. -/
theorem keeps_attached : Keeps fun e => e.attached = true where
  quiet h k := k.attached.trans h
  flush h := (Ev.still_flush _).attached.trans h
  due _ h := h
  change u z _ _ h := Ev.has_changeState stable_attached h u z _
  pend u z k h := Ev.has_enterPending stable_attached h u z k
  fault u z c h := Ev.has_enterFaulted stable_attached h u z c
  grant _ h := Ev.has_grant stable_attached h _
  unit _ _ _ h := h
  target _ _ _ _ _ _ h := h

/-! ### Orders taken up at their take -/

variable {S : PartState → Option Anchor → Nat → Prop}

/-- The slots of orders are those of the part state and the anchor copy, which a quiet event keeps. -/
theorem Ev.Quiet.slotKept {d : Ev} (h : e.Quiet d) {k : Nat} (hk : S e.port.state e.port.anchor k) : S d.port.state d.port.anchor k := by
  rw [h.still.portState, h.still.anchor]
  exact hk

/-- The unit's RUNNING order ends, and so does its WAITING one. -/
theorem Ev.endTracked_tracked (u : UnitNo) (st : Status) (c : Cause) : ((e.endTracked u st c).unit u).tracked = none := by
  unfold Ev.endTracked
  split
  · refine ((Ev.Quiet.endSlot (.refl (e.clearTracked u)) _ _ _).still.unit u).orders.tracked_none ?_
    rw [Ev.clearTracked, Ev.updUnit_unit_self]
  · next h => exact h

theorem Ev.endWaiting_waiting (u : UnitNo) (st : Status) (c : Cause) : ((e.endWaiting u st c).unit u).waiting = none := by
  unfold Ev.endWaiting
  split
  · refine ((Ev.Quiet.endSlot (.refl (e.clearWaiting u)) _ _ _).still.unit u).orders.waiting_none ?_
    rw [Ev.clearWaiting, Ev.updUnit_unit_self]
  · next h => exact h

theorem Ev.supersede_noOrder (u : UnitNo) : ((e.supersede u).unit u).tracked = none ∧ ((e.supersede u).unit u).waiting = none :=
  ⟨((Ev.Quiet.endWaiting (.refl _) u _ _).still.unit u).orders.tracked_none (Ev.endTracked_tracked u _ _), Ev.endWaiting_waiting u _ _⟩

theorem Calm.track (hP : Calm P) (ho : OrderFreeWith S P) (ha : e.attached = true) (u : UnitNo) (slot : Decode.Slot) (o : OrderRecord)
    (hk : S e.port.state e.port.anchor o.slot) (hw : (e.unit u).waiting = none) (h : P e) : P (e.track u slot o) := by
  unfold Ev.track
  exact hP.quiet (ho.track u o hk hw h) (.finish (.refl _) (by exact ha) slot _ _)

theorem Calm.holdBack (hP : Calm P) (ho : OrderFreeWith S P) (ha : e.attached = true) (u : UnitNo) (slot : Decode.Slot) (o : OrderRecord)
    (hk : S e.port.state e.port.anchor o.slot) (ht : (e.unit u).tracked = none) (h : P e) : P (e.holdBack u slot o) := by
  unfold Ev.holdBack
  exact hP.quiet (ho.wait u _ hk ht h) (.finish (.refl _) (by exact ha) slot _ _)

namespace Keeps

theorem startNow (hP : Keeps P) (hen : EntryFree P) (ho : OrderFreeWith S P) (ha : e.attached = true) (u : UnitNo) (slot : Decode.Slot)
    (o : OrderRecord) (hs : ∀ v, o.kind = .sweep v → SweepFree P) (hk : S e.port.state e.port.anchor o.slot) (h : P e) :
    P (e.startNow u slot o) := by
  have h1 : P (e.startOrder u o) ∧ (e.startOrder u o).attached = true :=
    ⟨hP.startOrder hen ho u o hs hk h, Ev.has_startOrder stable_attached ha u o⟩
  unfold Ev.startNow
  dsimp only
  split
  · refine hP.quiet h1.1 (.finish (.closeStart (.refl _) u _) ?_ _ _ _)
    exact (Ev.Quiet.closeStart (.refl _) u _).attached.trans h1.2
  · exact h1.1

theorem startOrWait (hP : Keeps P) (hen : EntryFree P) (ho : OrderFreeWith S P) (ha : e.attached = true) (u : UnitNo) (slot : Decode.Slot)
    (o : OrderRecord) (hs : ∀ v, o.kind = .sweep v → SweepFree P) (hk : S e.port.state e.port.anchor o.slot)
    (ht : (e.unit u).tracked = none) (h : P e) : P (e.startOrWait u slot o) := by
  unfold Ev.startOrWait
  split
  · exact hP.holdBack ho ha u slot o hk ht h
  · exact hP.startNow hen ho ha u slot o hs hk h

end Keeps

/-! ### LINE POWER and CHECK LINES -/

theorem Calm.powerOn (hP : Calm P) (hw : PowerFree P) (ho : OrderFreeWith S P) (ha : e.attached = true) (n : LineNo) (slot : Decode.Slot)
    (hn : (e.unit n).waiting = none) (h : P e) : P (e.powerOn n slot) := by
  unfold Ev.powerOn
  dsimp only
  have hk := ho.take ha h
  have henergize : P ((e.updLine n Line.energize).oweLine n) :=
    hP.quiet (hw e n Line.energize (fun _ => ⟨rfl, rfl⟩) h) (.oweLine (.refl _) n)
  cases (e.line n).power with
  | off => exact hP.track ho (by exact ha) n slot _ hk hn henergize
  | tripped => exact hP.track ho (by exact ha) n slot _ hk hn henergize
  | starting => exact hP.track ho ha n slot _ hk hn h
  | on => exact hP.done ha slot h
  | check => exact hP.done ha slot h

theorem Calm.clearTrip (hP : Calm P) (hw : PowerFree P) (n : LineNo) (h : P e) : P (e.clearTrip n) := by
  unfold Ev.clearTrip
  exact hP.quiet (hw e n _ (by exact fun _ => ⟨rfl, rfl⟩) h) (.oweLine (.updModules (.refl _) n _) n)

theorem Keeps.powerOff (hP : Keeps P) (hw : PowerFree P) (ho : OrderFreeWith S P) (ha : e.attached = true) (n : LineNo)
    (slot : Decode.Slot) (hn : (e.unit n).waiting = none) (h : P e) : P (e.powerOff n slot) := by
  unfold Ev.powerOff
  dsimp only
  have hk := ho.take ha h
  cases (e.line n).power with
  | off => exact hP.done ha slot h
  | check => exact hP.done ha slot h
  | tripped => exact hP.done (e := e.clearTrip n) (by exact ha) slot (hP.clearTrip hw n h)
  | on =>
    have hidle := (keeps_idling n e.port.state e.port.anchor).stopLine n (e := e) ⟨hn, rfl, rfl⟩
    refine hP.track ho (Ev.has_stopLine stable_attached ha n) n slot _ ?_ hidle.waiting (hP.stopLine n h)
    rw [hidle.state, hidle.anchor]
    exact hk
  | starting =>
    have hstop : e.Quiet ((e.updLine n fun l => { l with stopTaken := true }).queueHaltAll n) :=
      .queueHaltAll (.updLine (.refl e) n _ (by exact ⟨rfl, rfl, rfl⟩)) n
    exact hP.track ho (by exact ha) n slot _ (hstop.slotKept hk) hn (hP.quiet h hstop)

/-- A LINE POWER that is not refused finds no WAITING order. -/
theorem State.waiting_of_linePowerRefusal {n : LineNo} {on : Bool} (h : s.linePowerRefusal n on = none) : (s.unit n).waiting = none := by
  unfold State.linePowerRefusal at h
  split_ifs at h with h1 h2 h3
  simp only [Bool.or_eq_true, not_or, Bool.not_eq_true, Option.isSome_eq_false_iff, Option.isNone_iff_eq_none] at h2
  exact h2.1

/-- The take of a LINE POWER whose slot does not ask for OFF moves no zone. -/
theorem Calm.linePowerOn (hP : Calm P) (hw : PowerFree P) (ho : OrderFreeWith S P) (ha : e.attached = true) (slot : Decode.Slot)
    (hslot : wholeWord slot 3 ≠ 0) (h : P e) : P (e.linePower slot) := by
  unfold Ev.linePower
  refine hP.onUnit ha slot (fun n => ?_) h
  split
  · exact hP.refuse ha slot _ h
  · next on hon =>
    have hon' : on = true := by
      unfold settingOperand flagOfCode at hon
      split_ifs at hon
      split at hon
      · contradiction
      · cases hon; rfl
      · cases hon
    split
    · exact hP.refuse ha slot _ h
    · next hnone =>
      rw [hon']
      exact hP.powerOn hw ho ha n slot (State.waiting_of_linePowerRefusal hnone) h

theorem Keeps.linePower (hP : Keeps P) (hw : PowerFree P) (ho : OrderFreeWith S P) (ha : e.attached = true) (slot : Decode.Slot)
    (h : P e) : P (e.linePower slot) := by
  unfold Ev.linePower
  refine hP.onUnit ha slot (fun n => ?_) h
  split
  · exact hP.refuse ha slot _ h
  · split
    · exact hP.refuse ha slot _ h
    · next hnone =>
      split
      · exact hP.powerOn hw ho ha n slot (State.waiting_of_linePowerRefusal hnone) h
      · exact hP.powerOff hw ho ha n slot (State.waiting_of_linePowerRefusal hnone) h

/-- A CHECK LINES that is not refused finds no order of either unit. -/
theorem State.waiting_of_checkRefusal {a b : LineNo} (h : s.checkRefusal a b = none) :
    (s.unit a).waiting = none ∧ (s.unit b).waiting = none := by
  unfold State.checkRefusal at h
  split_ifs at h with h1 h2 h3 h4
  simp only [UnitRec.hasOrder, Bool.or_eq_true, not_or, Bool.not_eq_true, Option.isSome_eq_false_iff, Option.isNone_iff_eq_none] at h3
  exact ⟨h3.1.2, h3.2.2⟩

theorem Calm.startCheck (hP : Calm P) (hw : PowerFree P) (hc : CheckFree P) (ho : OrderFreeWith S P) (ha : e.attached = true)
    (slot : Decode.Slot) (a b : LineNo) (hnone : e.checkRefusal a b = none) (h : P e) : P (e.startCheck slot a b) := by
  obtain ⟨hwa, hwb⟩ := State.waiting_of_checkRefusal hnone
  have hk := ho.take ha h
  have h1 := hc _ (some (newCheck a b e.port.take)) (hP.enterCheck hw b (hP.enterCheck hw a (hP.quiet h (.clearResults (.refl e) a b))))
  unfold Ev.startCheck
  dsimp only
  refine hP.track ho (by exact ha) b slot _ (by exact hk) ?_ (ho.track a _ (by exact hk) (by exact hwa) h1)
  rw [Ev.updUnit_unit]
  split
  · exact hwb
  · exact hwb

/-! ### Each command -/

variable {c : Instr}

theorem takeRange_reaches (hP : Keeps P) {host : List HostWrite} {k : Decode.OrderKind} {f : UnitNo → Ev → ZoneNo → Ev}
    (hf : ∀ u e z, P e → P (f u e z)) (hatt : ∀ u e z, e.attached = true → (f u e z).attached = true)
    (h : P (Ev.ofState (s.afterHost host))) (ht : takeRange k f host s = .next t) : Reached P t := by
  refine takeOrder_reaches hP.closed h (fun _ slot e _ he ha => ?_) ht
  refine hP.onDefined ha slot (fun u c _ => ?_) he
  split
  · next first last _ =>
    have hdone := (hP.and keeps_attached).treatRange (zoneRange first last) (f u) (fun e z k => ⟨hf u e z k.1, hatt u e z k.2⟩) ⟨he, ha⟩
    exact hP.done hdone.2 slot hdone.1
  · exact hP.refuse ha slot _ he

theorem execIntervalExpiry_reaches (hP : Closed P) (htiming : TimingFree P) (hs : P (Ev.ofState s.writesDone))
    (ht : execIntervalExpiry s = .next t) : Reached P t := by
  refine act_reaches hP ?_ ht
  split
  · exact hP.intervalExpiry htiming hs
  · exact hs

theorem execRunTimerExpiry_reaches (hP : Closed P) (htiming : TimingFree P) (hs : P (Ev.ofState s.writesDone))
    (ht : execRunTimerExpiry s = .next t) : Reached P t := by
  refine act_reaches hP ?_ ht
  split
  · exact htiming _ _ hs
  · exact hs

theorem execImpressionChange_reaches {b : Bool} (hP : Closed P) (htiming : TimingFree P) (hs : P (Ev.ofState s.writesDone))
    (ht : execImpressionChange b s = .next t) : Reached P t := by
  refine act_reaches hP ?_ ht
  exact htiming _ _ hs

theorem execOrderScan_reaches {host : List HostWrite} (hP : Closed P) (h : P (Ev.ofState (s.afterHost host)))
    (ht : execOrderScan host s = .next t) : Reached P t := by
  have h1 := hP.quiet h (Ev.quiet_hostWrites s host)
  refine act_reaches hP ?_ ht
  dsimp only
  split
  · next a _ hanchor => exact hP.quiet h1 (.orderScan (.refl _) a hanchor)
  · exact h1

theorem inRange_of_defineOperands {slot : Decode.Slot} {c : UnitConfig} (h : defineOperands slot = some c) : c.inRange = true := by
  unfold defineOperands at h
  split at h
  · dsimp only at h
    rw [Option.ite_none_right_eq_some, Bool.and_eq_true] at h
    obtain ⟨⟨hrange, _⟩, hc⟩ := h
    cases hc
    exact hrange
  · cases h

theorem execDefineUnit_reaches {host : List HostWrite} (hP : Closed P) (hdefine : DefineFree P) (h : P (Ev.ofState (s.afterHost host)))
    (ht : execDefineUnit host s = .next t) : Reached P t := by
  refine takeOrder_reaches hP h (fun _ slot e _ he ha => ?_) ht
  refine hP.onUnit ha slot (fun u => ?_) he
  split
  · exact hP.refuse ha slot _ he
  · next hbusy =>
    split
    · next c hops =>
      exact hP.done (Ev.has_defineUnit stable_attached ha u c) slot (hdefine e u c (by simpa using hbusy) (inRange_of_defineOperands hops) he)
    · exact hP.refuse ha slot _ he

theorem execLoadCurve_reaches {host : List HostWrite} (hP : Closed P) (hcurve : CurveFree P) (h : P (Ev.ofState (s.afterHost host)))
    (ht : execLoadCurve host s = .next t) : Reached P t := by
  refine takeOrder_reaches hP h (fun _ slot e _ he ha => ?_) ht
  split
  · next hk =>
    split
    · exact hP.refuse ha slot _ he
    · split
      · next hvalid => exact hP.done (e := { e with curves := e.curves.set _ _ hk }) ha slot (hcurve e ⟨_, hk⟩ _ hvalid he)
      · exact hP.refuse ha slot _ he
  · exact hP.refuse ha slot _ he

theorem execSetLoop_reaches {host : List HostWrite} (hP : Closed P) (hloop : LoopFree P) (h : P (Ev.ofState (s.afterHost host)))
    (ht : execSetLoop host s = .next t) : Reached P t := by
  refine takeOrder_reaches hP h (fun _ slot e _ he ha => ?_) ht
  refine hP.onDefined ha slot (fun u _ _ => ?_) he
  split
  · exact hP.quiet (hloop e u _ _ he) (.done (.oweMirror (.refl _) u) (by exact ha) slot)
  · exact hP.refuse ha slot _ he

theorem execSetTiming_reaches {host : List HostWrite} (hP : Closed P) (htiming : TimingFree P) (h : P (Ev.ofState (s.afterHost host)))
    (ht : execSetTiming host s = .next t) : Reached P t := by
  refine takeOrder_reaches hP h (fun _ slot e _ he ha => ?_) ht
  have hload : ∀ d : Ev, P d → d.attached = true → ∀ v, P (d.loadCounter v) ∧ (d.loadCounter v).attached = true := fun d hd hda v => by
    cases v with
    | none => exact ⟨hd, hda⟩
    | some v => exact ⟨hP.quiet (htiming d _ hd) (.releaseWaiting (.refl _) false), hda⟩
  split
  · obtain ⟨h1, h2⟩ := hload _ (htiming e _ he) ha _
    exact hP.done h2 slot h1
  · exact hP.refuse ha slot _ he

theorem execSetWatch_reaches {host : List HostWrite} (hP : Closed P) (hintake : IntakeFree P) (h : P (Ev.ofState (s.afterHost host)))
    (ht : execSetWatch host s = .next t) : Reached P t := by
  refine takeOrder_reaches hP h (fun _ slot e _ he ha => ?_) ht
  refine hP.onUnit ha slot (fun u => ?_) he
  split
  · exact hP.done (e := Ev.updIntake e _) ha slot (hintake e _ he)
  · exact hP.refuse ha slot _ he

theorem execSetNotices_reaches {host : List HostWrite} (hP : Closed P) (h : P (Ev.ofState (s.afterHost host)))
    (ht : execSetNotices host s = .next t) : Reached P t := by
  refine takeOrder_reaches hP h (fun _ slot e _ he ha => ?_) ht
  split
  · exact hP.refuse ha slot _ he
  · exact hP.quiet he (.done (.updPort (.refl e) _ (by exact rfl) (by exact rfl)) (by exact ha) slot)

theorem execSnapshot_reaches {host : List HostWrite} (hP : Closed P) (h : P (Ev.ofState (s.afterHost host)))
    (ht : execSnapshot host s = .next t) : Reached P t := by
  refine takeOrder_reaches hP h (fun _ slot e _ he ha => ?_) ht
  split
  · exact hP.refuse ha slot _ he
  · exact hP.quiet he (.done (.snapshot (.refl e)) (Ev.has_snapshot stable_attached ha) slot)

theorem execIntakeOn_reaches {host : List HostWrite} (hP : Closed P) (hintake : IntakeFree P) (h : P (Ev.ofState (s.afterHost host)))
    (ht : execIntakeOn host s = .next t) : Reached P t := by
  refine takeOrder_reaches hP h (fun _ slot e _ he ha => ?_) ht
  unfold Ev.intakeOrder
  split
  · exact hP.done (e := Ev.updIntake e _) ha slot (hintake e _ he)
  · exact hP.done (e := Ev.updIntake e _) ha slot (hintake e _ he)
  · exact hP.refuse ha slot _ he

theorem execIntakeOff_reaches {host : List HostWrite} (hP : Closed P) (hintake : IntakeFree P) (h : P (Ev.ofState (s.afterHost host)))
    (ht : execIntakeOff host s = .next t) : Reached P t := by
  refine takeOrder_reaches hP h (fun _ slot e _ he ha => ?_) ht
  unfold Ev.intakeOrder
  split
  · exact hP.done (e := Ev.updIntake e _) ha slot (hintake e _ he)
  · exact hP.done (e := Ev.updIntake e _) ha slot (hintake e _ he)
  · exact hP.refuse ha slot _ he

theorem execHold_reaches {host : List HostWrite} (hK : Keeps P) (h : P (Ev.ofState (s.afterHost host)))
    (ht : execHold host s = .next t) : Reached P t :=
  takeRange_reaches hK (fun u _ z k => hK.holdZone u z k) (fun u _ z k => Ev.has_holdZone stable_attached k u z) h ht

theorem execRelease_reaches {host : List HostWrite} (hK : Keeps P) (h : P (Ev.ofState (s.afterHost host)))
    (ht : execRelease host s = .next t) : Reached P t :=
  takeRange_reaches hK (fun u _ z k => hK.releaseZone u z k) (fun u _ z k => Ev.has_releaseZone stable_attached k u z) h ht

theorem execClearFault_reaches {host : List HostWrite} (hK : Keeps P) (h : P (Ev.ofState (s.afterHost host)))
    (ht : execClearFault host s = .next t) : Reached P t :=
  takeRange_reaches hK (fun u _ z k => hK.clearZone u z k) (fun u _ z k => Ev.has_clearZone stable_attached k u z) h ht

theorem execAbort_reaches {host : List HostWrite} (hP : Closed P) (hcheck : CheckFree P) (h : P (Ev.ofState (s.afterHost host)))
    (ht : execAbort host s = .next t) : Reached P t := by
  refine takeOrder_reaches hP h (fun _ slot e _ he ha => ?_) ht
  refine hP.onUnit ha slot (fun u => ?_) he
  split
  · exact hP.refuse ha slot _ he
  · exact hP.quiet (hP.abortUnit hcheck u he) (.finish (.refl _) (Ev.has_abortUnit steady_attached ha u) slot _ _)

theorem execPreset_reaches {host : List HostWrite} (hK : Keeps P) (hen : EntryFree P) (ho : OrderFreeWith S P) (h : P (Ev.ofState (s.afterHost host)))
    (ht : execPreset host s = .next t) : Reached P t := by
  refine takeOrder_reaches hK.closed h (fun _ slot e _ he ha => ?_) ht
  refine hK.onDefined ha slot (fun u c _ => ?_) he
  split
  · exact hK.refuse ha slot _ he
  · split
    · exact hK.refuse ha slot _ he
    · split
      · exact hK.refuse ha slot _ he
      · have hq : ∀ v, e.Quiet ((e.supersede u).stage u v) := fun v => .stage (.supersede (.refl e) u) u v
        exact hK.startOrWait hen ho ((hq _).attached.trans ha) u slot _ (fun _ k => nomatch k) ((hq _).slotKept (ho.take ha he))
          (by rw [Ev.stage, Ev.updUnit_unit_self]; exact (Ev.supersede_noOrder u).1) (hK.quiet he (hq _))

theorem execTrim_reaches {host : List HostWrite} (hK : Keeps P) (hen : EntryFree P) (ho : OrderFreeWith S P) (h : P (Ev.ofState (s.afterHost host)))
    (ht : execTrim host s = .next t) : Reached P t := by
  refine takeOrder_reaches hK.closed h (fun _ slot e _ he ha => ?_) ht
  refine hK.onDefined ha slot (fun u c _ => ?_) he
  split
  · exact hK.refuse ha slot _ he
  · split
    · exact hK.refuse ha slot _ he
    · have hq : e.Quiet (e.supersede u) := .supersede (.refl e) u
      exact hK.startOrWait hen ho (hq.attached.trans ha) u slot _ (fun _ k => nomatch k) (hq.slotKept (ho.take ha he))
        (Ev.supersede_noOrder u).1 (hK.quiet he hq)

theorem execSweep_reaches {host : List HostWrite} (hK : Keeps P) (hen : EntryFree P) (hsweep : SweepFree P) (ho : OrderFreeWith S P) (h : P (Ev.ofState (s.afterHost host)))
    (ht : execSweep host s = .next t) : Reached P t := by
  refine takeOrder_reaches hK.closed h (fun _ slot e _ he ha => ?_) ht
  refine hK.onDefined ha slot (fun u c _ => ?_) he
  split
  · exact hK.refuse ha slot _ he
  · split
    · exact hK.refuse ha slot _ he
    · have hq : e.Quiet (e.supersede u) := .supersede (.refl e) u
      exact hK.startOrWait hen ho (hq.attached.trans ha) u slot _ (fun _ _ => hsweep) (hq.slotKept (ho.take ha he))
        (Ev.supersede_noOrder u).1 (hK.quiet he hq)

theorem execZero_reaches {host : List HostWrite} (hK : Keeps P) (hen : EntryFree P) (ho : OrderFreeWith S P) (h : P (Ev.ofState (s.afterHost host)))
    (ht : execZero host s = .next t) : Reached P t := by
  refine takeOrder_reaches hK.closed h (fun _ slot e _ he ha => ?_) ht
  refine hK.onDefined ha slot (fun u c _ => ?_) he
  split
  · exact hK.refuse ha slot _ he
  · split
    · exact hK.refuse ha slot _ he
    · exact hK.startNow hen ho ha u slot _ (fun _ k => nomatch k) (ho.take ha he) he

theorem execLinePowerOn_reaches {host : List HostWrite} (hP : Closed P) (hpower : PowerFree P) (ho : OrderFreeWith S P) (h : P (Ev.ofState (s.afterHost host)))
    (ht : execLinePowerOn host s = .next t) : Reached P t := by
  refine takeOrder_reaches hP h (fun _ slot e happlies he ha => ?_) ht
  simp only [Bool.and_eq_true, bne_iff_ne] at happlies
  exact hP.linePowerOn hpower ho ha slot happlies.2 he

theorem execLinePowerOff_reaches {host : List HostWrite} (hK : Keeps P) (hpower : PowerFree P) (ho : OrderFreeWith S P) (h : P (Ev.ofState (s.afterHost host)))
    (ht : execLinePowerOff host s = .next t) : Reached P t :=
  takeOrder_reaches hK.closed h (fun _ slot _ _ he ha => hK.linePower hpower ho ha slot he) ht

theorem execCheckLines_reaches {host : List HostWrite} (hP : Closed P) (hcheck : CheckFree P) (hpower : PowerFree P) (ho : OrderFreeWith S P) (h : P (Ev.ofState (s.afterHost host)))
    (ht : execCheckLines host s = .next t) : Reached P t := by
  refine takeOrder_reaches hP h (fun _ slot e _ he ha => ?_) ht
  split
  · split
    · exact hP.refuse ha slot _ he
    · split
      · exact hP.quiet he (.refuse (.clearResults (.refl e) _ _) ha slot _)
      · exact hP.refuse ha slot _ he
      · next hnone => exact hP.startCheck hpower hcheck ho ha slot _ _ hnone he
  · exact hP.refuse ha slot _ he

theorem execWaitingOrderStart_reaches {u : UnitNo} (hK : Keeps P) (hen : EntryFree P) (hsweep : SweepFree P) (ho : OrderFreeWith S P) (hs : P (Ev.ofState s.writesDone))
    (ht : execWaitingOrderStart u s = .next t) : Reached P t := by
  refine act_reaches hK.closed ?_ ht
  split
  · split
    · next hw _ => exact hK.startWaiting hen ho u _ (fun _ _ => hsweep) (ho.waiting hs hw) hs
    · exact hs
  · exact hs

theorem execStartTimerExpiry_reaches {n : LineNo} (hK : Keeps P) (hpower : PowerFree P) (hs : P (Ev.ofState s.writesDone))
    (ht : execStartTimerExpiry n s = .next t) : Reached P t := by
  refine act_reaches hK.closed ?_ ht
  split
  · exact hK.startTimerExpiry hpower n hs
  · exact hs

theorem execLineCycle_reaches {n : LineNo} (hP : Closed P) (hs : P (Ev.ofState s.writesDone))
    (ht : execLineCycle n s = .next t) : Reached P t := by
  refine act_reaches hP ?_ ht
  split
  · exact hP.quiet hs (.beginCycle (.refl _) n)
  · exact hs

theorem execReplySlot_reaches {n : LineNo} {r : Reception} (hK : Keeps P) (hpower : PowerFree P) (hs : P (Ev.ofState s.writesDone))
    (ht : execReplySlot n r s = .next t) : Reached P t := by
  refine act_reaches hK.closed ?_ ht
  split
  · exact hK.judge hpower n _ r hs
  · exact hs

theorem execMoveTimeout_reaches {u : UnitNo} {z : ZoneNo} (hK : Keeps P) (hs : P (Ev.ofState s.writesDone))
    (ht : execMoveTimeout u z s = .next t) : Reached P t := by
  refine act_reaches hK.closed ?_ ht
  split
  · exact hK.stallZone u z hs
  · exact hs

theorem execSweepTimeout_reaches {n : LineNo} (hP : Closed P) (hs : P (Ev.ofState s.writesDone))
    (ht : execSweepTimeout n s = .next t) : Reached P t := by
  refine act_reaches hP ?_ ht
  split
  · exact hP.quiet hs (.endSweepFault (.refl _) n)
  · exact hs

theorem execOvercurrentSense_reaches {n : LineNo} (hK : Keeps P) (hcheck : CheckFree P) (hpower : PowerFree P) (hs : P (Ev.ofState s.writesDone))
    (ht : execOvercurrentSense n s = .next t) : Reached P t :=
  act_reaches hK.closed (hK.overcurrent hpower hcheck n hs) ht

theorem execScanClose_reaches {host : List HostWrite} {w : Word} (hK : Keeps P) (hintake : IntakeFree P) (h : P (Ev.ofState (s.afterHost host)))
    (ht : execScanClose host w s = .next t) : Reached P t := by
  refine act_reaches hK.closed ?_ ht
  exact hK.scanClose hintake w (hK.quiet h (Ev.quiet_hostWrites s host))

theorem execScanTimeout_reaches {host : List HostWrite} (hP : Closed P) (hintake : IntakeFree P) (h : P (Ev.ofState (s.afterHost host)))
    (ht : execScanTimeout host s = .next t) : Reached P t := by
  have h1 := hP.quiet h (Ev.quiet_hostWrites s host)
  refine act_reaches hP ?_ ht
  dsimp only
  split
  · split
    · exact hP.faultScan hintake _ _ h1
    · exact h1
  · exact h1

theorem execSheetMark_reaches (hP : Closed P) (htiming : TimingFree P) (hs : P (Ev.ofState s.writesDone))
    (ht : execSheetMark s = .next t) : Reached P t :=
  act_reaches hP (hP.sheetMark htiming hs) ht

theorem execUnknownKind_reaches {host : List HostWrite} (hP : Closed P) (h : P (Ev.ofState (s.afterHost host)))
    (ht : execUnknownKind host s = .next t) : Reached P t :=
  takeOrder_reaches hP h (fun _ slot _ _ he ha => hP.refuse ha slot _ he) ht

theorem execCheckPhaseExpiry_reaches {a b : Bool} (hP : Closed P) (hpower : PowerFree P) (hcheck : CheckFree P) (hs : P (Ev.ofState s.writesDone))
    (ht : execCheckPhaseExpiry a b s = .next t) : Reached P t :=
  act_reaches hP (hP.checkPhaseExpiry hpower hcheck a b hs) ht

theorem execScanOpen_reaches {host : List HostWrite} {n : BitVec 16} {b : Sheet} (hP : Closed P) (hintake : IntakeFree P) (h : P (Ev.ofState (s.afterHost host)))
    (ht : execScanOpen host n b s = .next t) : Reached P t := by
  refine act_reaches hP ?_ ht
  exact hP.scanOpen hintake n b (hP.quiet h (Ev.quiet_hostWrites s host))

theorem execUnitBlock_reaches {u : BitVec 8} {l : List Entry} (hP : Closed P) (hintake : IntakeFree P) (hs : P (Ev.ofState s.writesDone))
    (ht : execUnitBlock u l s = .next t) : Reached P t :=
  act_reaches hP (hP.unitBlock hintake u l hs) ht

theorem execUnreadableFrame_reaches {host : List HostWrite} (hP : Closed P) (hintake : IntakeFree P) (h : P (Ev.ofState (s.afterHost host)))
    (ht : execUnreadableFrame host s = .next t) : Reached P t := by
  refine act_reaches hP ?_ ht
  exact hP.unreadable hintake (hP.quiet h (Ev.quiet_hostWrites s host))

/-! ### Every command -/

/-- Every command but those that set the part state and clear the machine reaches a state of the property. -/
theorem exec_reaches (hQ : Calm P) (hF : FreeFor P c) (hc : c.setsPart = false ∨ ∃ host, c = .loadCurve host)
    (h : P (Ev.ofState (s.afterHost c.host))) (ht : exec c s = .next t) : Reached P t := by
  have hP : Closed P := ⟨hQ, hF.arbiter⟩
  obtain ⟨S, ho⟩ := hF.orders
  have hs : c.host = [] → P (Ev.ofState s.writesDone) := fun hnone => hP.quiet h (by rw [hnone]; exact Ev.quiet_writesDone s)
  cases c with
  | attach | attachSuccess host | attachFailure host | detach | reset | commandInvalidValue v | resetPin b | powerOn b => simp [Instr.setsPart] at hc
  | noticeWrite v => cases ht; exact ⟨_, hP.quiet h (.updPort (.refl _) (fun p => p.clearNotices v) rfl rfl), rfl⟩
  | registerWriteIgnored r v => cases ht; exact ⟨_, h, rfl⟩
  | sheetMark => exact execSheetMark_reaches hP (hF.timing rfl) (hs rfl) ht
  | intervalExpiry => exact execIntervalExpiry_reaches hP (hF.timing rfl) (hs rfl) ht
  | runTimerExpiry => exact execRunTimerExpiry_reaches hP (hF.timing rfl) (hs rfl) ht
  | impressionChange b => exact execImpressionChange_reaches hP (hF.timing rfl) (hs rfl) ht
  | orderScan host => exact execOrderScan_reaches hP h ht
  | unknownKind host => exact execUnknownKind_reaches hP h ht
  | defineUnit host => exact execDefineUnit_reaches hP (hF.define rfl rfl) h ht
  | loadCurve host => exact execLoadCurve_reaches hP (hF.curve rfl) h ht
  | setLoop host => exact execSetLoop_reaches hP (hF.loop rfl) h ht
  | setTiming host => exact execSetTiming_reaches hP (hF.timing rfl) h ht
  | setWatch host => exact execSetWatch_reaches hP (hF.intake rfl) h ht
  | setNotices host => exact execSetNotices_reaches hP h ht
  | snapshot host => exact execSnapshot_reaches hP h ht
  | intakeOn host => exact execIntakeOn_reaches hP (hF.intake rfl) h ht
  | intakeOff host => exact execIntakeOff_reaches hP (hF.intake rfl) h ht
  | hold host => exact execHold_reaches (hF.zones rfl).1 h ht
  | release host => exact execRelease_reaches (hF.zones rfl).1 h ht
  | clearFault host => exact execClearFault_reaches (hF.zones rfl).1 h ht
  | abort host => exact execAbort_reaches hP (hF.check rfl) h ht
  | preset host => exact execPreset_reaches (hF.zones rfl).1 (hF.zones rfl).2 ho h ht
  | trim host => exact execTrim_reaches (hF.zones rfl).1 (hF.zones rfl).2 ho h ht
  | sweep host => exact execSweep_reaches (hF.zones rfl).1 (hF.zones rfl).2 (hF.sweep rfl) ho h ht
  | zero host => exact execZero_reaches (hF.zones rfl).1 (hF.zones rfl).2 ho h ht
  | linePowerOn host => exact execLinePowerOn_reaches hP (hF.power rfl) ho h ht
  | linePowerOff host => exact execLinePowerOff_reaches (hF.zones rfl).1 (hF.power rfl) ho h ht
  | checkLines host => exact execCheckLines_reaches hP (hF.check rfl) (hF.power rfl) ho h ht
  | waitingOrderStart u => exact execWaitingOrderStart_reaches (hF.zones rfl).1 (hF.zones rfl).2 (hF.sweep rfl) ho (hs rfl) ht
  | startTimerExpiry n => exact execStartTimerExpiry_reaches (hF.zones rfl).1 (hF.power rfl) (hs rfl) ht
  | lineCycle n => exact execLineCycle_reaches hP (hs rfl) ht
  | replySlot n r => exact execReplySlot_reaches (hF.zones rfl).1 (hF.power rfl) (hs rfl) ht
  | moveTimeout u z => exact execMoveTimeout_reaches (hF.zones rfl).1 (hs rfl) ht
  | sweepTimeout n => exact execSweepTimeout_reaches hP (hs rfl) ht
  | overcurrentSense n => exact execOvercurrentSense_reaches (hF.zones rfl).1 (hF.check rfl) (hF.power rfl) (hs rfl) ht
  | checkPhaseExpiry a b => exact execCheckPhaseExpiry_reaches hP (hF.power rfl) (hF.check rfl) (hs rfl) ht
  | scanOpen host n b => exact execScanOpen_reaches hP (hF.intake rfl) h ht
  | unitBlock u l => exact execUnitBlock_reaches hP (hF.intake rfl) (hs rfl) ht
  | scanClose host w => exact execScanClose_reaches (hF.zones rfl).1 (hF.intake rfl) h ht
  | unreadableFrame host => exact execUnreadableFrame_reaches hP (hF.intake rfl) h ht
  | scanTimeout host => exact execScanTimeout_reaches hP (hF.intake rfl) h ht

end Sys2Proof.Machine
end

