-- ==== Sys2Proof/Proofs/ZoneRules.lean ====
section
/-! PROOFS. What the elementary moves write: the zone, its line and the count of grants after a change of state, an entry into PENDING
or FAULTED, and a grant. -/

namespace Sys2Proof.Machine

/-- The zone record after a change to another state (R10, R12). -/
def Zone.entering (r : Zone) (new : ZoneState) : Zone :=
  { r with
    state := new
    faultCause := none
    samples := if r.state = .rest then [] else r.samples
    commanded := if r.state = .moving then none else r.commanded
    moveKind := if r.state = .moving then none else r.moveKind
    moveTag := if r.state = .moving then none else r.moveTag
    moveTimer := if r.state = .moving then none else r.moveTimer }

/-- The zone's line after the zone has left a state: the grant of a MOVING zone is released, and a PENDING one leaves the list. -/
def Line.leaving (l : Line) (old : ZoneState) (z : ZoneNo) : Line :=
  { l with
    grants := if old = .moving then l.grants - 1 else l.grants
    pendingList := if old = .pending then l.pendingList.filter fun p => p.zone != z else l.pendingList }

variable {e : Ev} {u v : UnitNo} {z y : ZoneNo} {n m : LineNo} {new : ZoneState}

theorem Ev.changeState_of_same (h : (e.zone u z).state = new) : e.changeState u z new = e := if_pos h

theorem Ev.changeState_zone (h : (e.zone u z).state ≠ new) (v : UnitNo) (y : ZoneNo) :
    (e.changeState u z new).zone v y = if u = v ∧ z = y then (e.zone v y).entering new else e.zone v y := by
  unfold Ev.changeState
  rw [if_neg h]
  have hdrop : ∀ f : Ev, (f.dropEntry u z).zone v y = f.zone v y := fun _ => rfl
  have hrelease : (e.releaseGrant u z).zone v y = if u = v ∧ z = y then
      { e.zone v y with commanded := none, moveKind := none, moveTag := none, moveTimer := none } else e.zone v y :=
    Ev.updZone_zone e u v z y fun r => { r with commanded := none, moveKind := none, moveTag := none, moveTimer := none }
  have howe : ∀ f : Ev, ((f.oweMirror u).oweTest u).zone v y = f.zone v y := fun _ => rfl
  rw [howe, Ev.updZone_zone]
  by_cases hm : (e.zone u z).state = .moving
  · have hp : (e.zone u z).state ≠ .pending := by rw [hm]; decide
    rw [if_pos hm, if_neg hp, hrelease]
    split
    · next k =>
      obtain ⟨rfl, rfl⟩ := k
      simp [Zone.entering, hm]
    · rfl
  · rw [if_neg hm]
    have hz : (if (e.zone u z).state = .pending then e.dropEntry u z else e).zone v y = e.zone v y := by split <;> rfl
    rw [hz]
    split
    · next k =>
      obtain ⟨rfl, rfl⟩ := k
      simp [Zone.entering, hm]
    · rfl

theorem Ev.changeState_line (h : (e.zone u z).state ≠ new) (n : LineNo) :
    (e.changeState u z new).line n = if u = n then (e.line n).leaving (e.zone u z).state z else e.line n := by
  unfold Ev.changeState
  rw [if_neg h]
  have howe : ∀ (f : Ev) g, (((f.updZone u z g).oweMirror u).oweTest u).line n = f.line n := fun _ _ => rfl
  have hrelease : (e.releaseGrant u z).line n = if u = n then { e.line n with grants := (e.line n).grants - 1 } else e.line n :=
    Ev.updLine_line e u n fun l => { l with grants := l.grants - 1 }
  rw [howe]
  by_cases hm : (e.zone u z).state = .moving
  · have hp : (e.zone u z).state ≠ .pending := by rw [hm]; decide
    rw [if_pos hm, if_neg hp, hrelease, hm]
    rfl
  · rw [if_neg hm]
    split
    · next hp =>
      rw [Ev.dropEntry, Ev.updLine_line, hp]
      rfl
    · next hp => simp [Line.leaving, hm, hp]

theorem Ev.changeState_partGrants (h : (e.zone u z).state ≠ new) :
    (e.changeState u z new).partGrants = if (e.zone u z).state = .moving then e.partGrants - 1 else e.partGrants := by
  unfold Ev.changeState
  rw [if_neg h]
  have howe : ∀ (f : Ev) g, (((f.updZone u z g).oweMirror u).oweTest u).partGrants = f.partGrants := fun _ _ => rfl
  have hrelease : (e.releaseGrant u z).partGrants = e.partGrants - 1 := rfl
  rw [howe]
  by_cases hm : (e.zone u z).state = .moving
  · have hp : (e.zone u z).state ≠ .pending := by rw [hm]; decide
    rw [if_pos hm, if_neg hp, hrelease, if_pos hm]
  · rw [if_neg hm, if_neg hm]
    split <;> rfl

theorem Ev.changeState_port : (e.changeState u z new).port = e.port := (Ev.grantsOnly_changeState u z new).port

theorem Ev.changeState_config : ((e.changeState u z new).unit v).config = (e.unit v).config :=
  ((Ev.grantsOnly_changeState u z new).unit v).config

/-! ### PENDING and FAULTED -/

variable {k : MoveKind} {c : FaultCause}

theorem Ev.enterPending_of_pending (h : (e.zone u z).state = .pending) : e.enterPending u z k = e := if_pos h

theorem Ev.enterPending_zone (h : (e.zone u z).state ≠ .pending) (v : UnitNo) (y : ZoneNo) :
    (e.enterPending u z k).zone v y = if u = v ∧ z = y then (e.zone v y).entering .pending else e.zone v y := by
  rw [Ev.enterPending, if_neg h]
  exact Ev.changeState_zone h v y

theorem Ev.enterPending_line (h : (e.zone u z).state ≠ .pending) (n : LineNo) :
    (e.enterPending u z k).line n = if u = n then
      { (e.line n).leaving (e.zone u z).state z with pendingList := (e.line n).pendingList ++ [⟨z, k⟩] } else e.line n := by
  rw [Ev.enterPending, if_neg h]
  have howe : ∀ f : Ev, f.oweArbiter.line n = f.line n := fun _ => rfl
  rw [howe, Ev.updLine_line, Ev.changeState_line h]
  split
  · simp [Line.leaving, h]
  · rfl

theorem Ev.enterPending_partGrants (h : (e.zone u z).state ≠ .pending) :
    (e.enterPending u z k).partGrants = if (e.zone u z).state = .moving then e.partGrants - 1 else e.partGrants := by
  rw [Ev.enterPending, if_neg h]
  exact Ev.changeState_partGrants h

theorem Ev.enterFaulted_of_faulted (h : (e.zone u z).state = .faulted) :
    e.enterFaulted u z c = (e.updZone u z fun r => { r with faultCause := some c }).raise .zoneFault := by
  rw [Ev.enterFaulted, Ev.changeState_of_same h]

theorem Ev.enterFaulted_zone (h : (e.zone u z).state ≠ .faulted) (v : UnitNo) (y : ZoneNo) :
    (e.enterFaulted u z c).zone v y =
      if u = v ∧ z = y then { (e.zone v y).entering .faulted with faultCause := some c } else e.zone v y := by
  have hraise : ∀ f : Ev, (f.raise .zoneFault).zone v y = f.zone v y := fun _ => rfl
  rw [Ev.enterFaulted, hraise, Ev.updZone_zone, Ev.changeState_zone h]
  split <;> rfl

theorem Ev.enterFaulted_line (h : (e.zone u z).state ≠ .faulted) (n : LineNo) :
    (e.enterFaulted u z c).line n = if u = n then (e.line n).leaving (e.zone u z).state z else e.line n :=
  Ev.changeState_line h n

theorem Ev.enterFaulted_partGrants (h : (e.zone u z).state ≠ .faulted) :
    (e.enterFaulted u z c).partGrants = if (e.zone u z).state = .moving then e.partGrants - 1 else e.partGrants :=
  Ev.changeState_partGrants h

/-! ### Grants -/

/-- The zone record after the move of a grant has been sent: of the fields that laws speak of, the move fields alone have values. -/
structure Zone.Sent (r r' : Zone) : Prop where
  state : r'.state = r.state
  target : r'.target = r.target
  offset : r'.offset = r.offset
  commanded : r'.commanded.isSome
  moveKind : r'.moveKind.isSome
  moveTag : r'.moveTag.isSome
  faultCause : r'.faultCause = r.faultCause
  samples : r'.samples = r.samples

theorem Ev.sendMove_zone (p a : Nat) : (e.sendMove u z p a).zone v y = if u = v ∧ z = y then
    { e.zone v y with moveKind := some .position, commanded := some p, moveTag := some (e.nextKeyTag u z), attempts := a,
                      moveTimer := some (e.unit u).moveTimeout } else e.zone v y :=
  Ev.updZone_zone _ u v z y _

theorem Ev.sendZero_zone : (e.sendZero u z).zone v y = if u = v ∧ z = y then
    { e.zone v y with moveKind := some .zero, commanded := some 0, moveTag := some (e.nextKeyTag u z), attempts := 0,
                      moveTimer := some (e.unit u).moveTimeout } else e.zone v y :=
  Ev.updZone_zone _ u v z y _

/-- The queue of a line and its tag counter alone change when a move is sent. -/
theorem Ev.queueKeyFrame_line (f : MotionFrame) (t : Tag) (m : LineNo) :
    (((e.tagTaken n t).queueKeyFrame n z f).line m).pendingList = (e.line m).pendingList
      ∧ (((e.tagTaken n t).queueKeyFrame n z f).line m).grants = (e.line m).grants := by
  have h := (Ev.Quiet.queueKeyFrame (.tagTaken (.refl e) n t) n z f).still.line m
  exact ⟨h.pendingList, h.grants⟩

/-- What a grant does: the zone at the front of the list is MOVING and has a move, and the counts rise by one. -/
structure Ev.Granted (e e' : Ev) (n : LineNo) (z : ZoneNo) : Prop where
  zone : ((e.changeState n z .moving).zone n z).Sent (e'.zone n z)
  otherZone : ∀ v y, ¬(n = v ∧ z = y) → e'.zone v y = e.zone v y
  pendingList : ∀ m, (e'.line m).pendingList = ((e.changeState n z .moving).line m).pendingList
  grants : ∀ m, (e'.line m).grants = ((e.changeState n z .moving).line m).grants + if n = m then 1 else 0
  partGrants : e'.partGrants = (e.changeState n z .moving).partGrants + 1
  config : ∀ v, (e'.unit v).config = (e.unit v).config
  port : e'.port = e.port

/-- The zone at the front of line n's list is MOVING and the grant counted. -/
def Ev.counted (e : Ev) (n : LineNo) (z : ZoneNo) : Ev :=
  { (e.changeState n z .moving).updLine n fun l => { l with grants := l.grants + 1 } with
    partGrants := (e.changeState n z .moving).partGrants + 1, pointer := n }

theorem Ev.grant_eq {p : PendingEntry} {l : List PendingEntry} (h : (e.line n).pendingList = p :: l) :
    e.grant n = match p.kind with
      | .position => (e.counted n p.zone).sendMove n p.zone ((e.zone n p.zone).target.getD 0) 0
      | .zero => (e.counted n p.zone).sendZero n p.zone := by
  unfold Ev.grant
  rw [h]
  rfl

theorem Ev.counted_zone : (e.counted n z).zone v y = (e.changeState n z .moving).zone v y := rfl

theorem Ev.counted_line (m : LineNo) : ((e.counted n z).line m).pendingList = ((e.changeState n z .moving).line m).pendingList
    ∧ ((e.counted n z).line m).grants = ((e.changeState n z .moving).line m).grants + if n = m then 1 else 0 := by
  have h : (e.counted n z).line m = ((e.changeState n z .moving).updLine n fun l => { l with grants := l.grants + 1 }).line m := rfl
  rw [h, Ev.updLine_line]
  split <;> exact ⟨rfl, rfl⟩

theorem Ev.counted_otherZone (h : ¬(n = v ∧ z = y)) : (e.counted n z).zone v y = e.zone v y := by
  rw [Ev.counted_zone]
  by_cases hs : (e.zone n z).state = .moving
  · rw [Ev.changeState_of_same hs]
  · rw [Ev.changeState_zone hs, if_neg h]

/-- A move is sent: the queue and the tag counter of the line, and the zone's move fields. -/
theorem Ev.sendMove_line (p a : Nat) (m : LineNo) :
    ((e.sendMove n z p a).line m).pendingList = (e.line m).pendingList ∧ ((e.sendMove n z p a).line m).grants = (e.line m).grants :=
  Ev.queueKeyFrame_line (e := e) (n := n) (z := z) (.move z p (e.nextKeyTag n z)) (e.nextKeyTag n z) m

theorem Ev.sendZero_line (m : LineNo) :
    ((e.sendZero n z).line m).pendingList = (e.line m).pendingList ∧ ((e.sendZero n z).line m).grants = (e.line m).grants :=
  Ev.queueKeyFrame_line (e := e) (n := n) (z := z) (.zero z (e.nextKeyTag n z)) (e.nextKeyTag n z) m

theorem Ev.sendMove_granted (p : Nat) : e.Granted ((e.counted n z).sendMove n z p 0) n z := by
  have hG := (Ev.grantsOnly_changeState (e := e) n z .moving)
  have hS := Ev.grantsOnly_sendMove (e := e.counted n z) n z p 0
  refine ⟨?_, fun v y k => ?_, fun m => ?_, fun m => ?_, rfl, fun v => ((hS.unit v).config).trans (hG.unit v).config,
    hS.port.trans hG.port⟩
  · rw [Ev.sendMove_zone, if_pos ⟨rfl, rfl⟩, Ev.counted_zone]
    generalize (e.changeState n z .moving).zone n z = r
    exact ⟨rfl, rfl, rfl, rfl, rfl, rfl, rfl, rfl⟩
  · rw [Ev.sendMove_zone, if_neg k, Ev.counted_otherZone k]
  · exact (Ev.sendMove_line p 0 m).1.trans (Ev.counted_line m).1
  · exact (Ev.sendMove_line p 0 m).2.trans (Ev.counted_line m).2

theorem Ev.sendZero_granted : e.Granted ((e.counted n z).sendZero n z) n z := by
  have hG := (Ev.grantsOnly_changeState (e := e) n z .moving)
  have hS := Ev.grantsOnly_sendZero (e := e.counted n z) n z
  refine ⟨?_, fun v y k => ?_, fun m => ?_, fun m => ?_, rfl, fun v => ((hS.unit v).config).trans (hG.unit v).config,
    hS.port.trans hG.port⟩
  · rw [Ev.sendZero_zone, if_pos ⟨rfl, rfl⟩, Ev.counted_zone]
    generalize (e.changeState n z .moving).zone n z = r
    exact ⟨rfl, rfl, rfl, rfl, rfl, rfl, rfl, rfl⟩
  · rw [Ev.sendZero_zone, if_neg k, Ev.counted_otherZone k]
  · exact (Ev.sendZero_line m).1.trans (Ev.counted_line m).1
  · exact (Ev.sendZero_line m).2.trans (Ev.counted_line m).2

theorem Ev.grant_granted {p : PendingEntry} {l : List PendingEntry} (h : (e.line n).pendingList = p :: l) :
    e.Granted (e.grant n) n p.zone := by
  rw [Ev.grant_eq h]
  cases p.kind with
  | position => exact Ev.sendMove_granted _
  | zero => exact Ev.sendZero_granted

/-! ### Moves returned -/

theorem Ev.returnZone_moving (h : ((e.returnZone u z).zone v y).state = .moving) :
    (e.zone v y).state = .moving ∧ ¬(u = v ∧ z = y) := by
  unfold Ev.returnZone at h
  split at h
  · next hm =>
    have hp : (e.zone u z).state ≠ .pending := by rw [hm]; decide
    rw [Ev.updZone_zone, Ev.enterPending_zone hp] at h
    by_cases k : u = v ∧ z = y
    · simp [k, Zone.entering] at h
    · rw [if_neg k, if_neg k] at h
      exact ⟨h, k⟩
  · next hm =>
    refine ⟨h, fun k => ?_⟩
    obtain ⟨rfl, rfl⟩ := k
    exact hm h

theorem Ev.foldl_returnZone_moving (l : List ZoneNo) (h : ((l.foldl (fun e z => e.returnZone u z) e).zone v y).state = .moving) :
    (e.zone v y).state = .moving ∧ ¬(u = v ∧ y ∈ l) := by
  induction l generalizing e with
  | nil => exact ⟨h, by simp⟩
  | cons x l ih =>
    obtain ⟨h1, h2⟩ := ih h
    obtain ⟨h3, h4⟩ := Ev.returnZone_moving h1
    refine ⟨h3, fun k => ?_⟩
    rcases List.mem_cons.1 k.2 with rfl | k'
    · exact h4 ⟨k.1, rfl⟩
    · exact h2 ⟨k.1, k'⟩

theorem Ev.returnMoving_moving (h : ((e.returnMoving u).zone v y).state = .moving) : (e.zone v y).state = .moving ∧ u ≠ v := by
  obtain ⟨h1, h2⟩ := Ev.foldl_returnZone_moving (ascending 64) h
  exact ⟨h1, fun k => h2 ⟨k, List.mem_finRange y⟩⟩

/-- After every unit's moves are returned, no zone is MOVING. -/
theorem Ev.returnAll_not_moving (e : Ev) (v : UnitNo) (y : ZoneNo) :
    (((ascending 16).foldl (fun e u => e.returnMoving u) e).zone v y).state ≠ .moving := by
  have key : ∀ (l : List UnitNo) (e : Ev), ((l.foldl (fun e u => e.returnMoving u) e).zone v y).state = .moving →
      (e.zone v y).state = .moving ∧ v ∉ l := fun l => by
    induction l with
    | nil => exact fun e h => ⟨h, by simp⟩
    | cons x l ih =>
      intro e h
      rw [List.foldl_cons] at h
      obtain ⟨h1, h2⟩ := ih _ h
      obtain ⟨h3, h4⟩ := Ev.returnMoving_moving h1
      exact ⟨h3, fun k => (List.mem_cons.1 k).elim (fun j => h4 j.symm) h2⟩
  exact fun h => (key (ascending 16) e h).2 (List.mem_finRange v)

end Sys2Proof.Machine
end

