-- ==== Sys2Proof/Proofs/EveryStep.lean ====
section
/-! PROOFS. What every command and every step keeps. A `Frame` of a command is a property that the moves and the changes of its row
keep, and, where the command is one of the part's own (attach, detach, the resets), their changes as well. A `Law` is a property of
the state that is a frame of every command. -/

namespace Sys2Proof.Machine

variable {P : Ev → Prop} {Q : State → Prop} {e : Ev} {s t : State} {c : Instr}

/-- No unit has an order. -/
def Ev.Orderless (e : Ev) : Prop := ∀ u, (e.unit u).tracked = none ∧ (e.unit u).waiting = none

/-- What a command must keep for it to keep a property. -/
structure Frame (P : Ev → Prop) (c : Instr) : Prop extends Calm P, FreeFor P c where
  /-- A part that is not ATTACHED changes its port. -/
  port : c.setsPart = true → ∀ {e : Ev} {p : Port}, e.attached = false → p.state ≠ .attached → P e → P { e with port := p }
  /-- An attach adopts the anchor. -/
  adopt : (∃ host, c = .attachSuccess host) → ∀ {e : Ev} (a : Anchor), 0 < a.ringLength → e.attached = false → P e → P (e.adoptAnchor a)
  /-- A part with no order and no MOVING zone detaches. -/
  leave : c.setsPart = true → ∀ {e : Ev} {p : Port}, e.Orderless → (∀ u z, (e.zone u z).state ≠ .moving) → p.state ≠ .attached → P e →
    P { e with port := p }
  /-- A reset clears the machine. -/
  clear : c.setsPart = true → c.setsTiming = true → ∀ {s : State} (tm : Timing) {p : Port}, p.state = .detached → P (Ev.ofState s) →
    P (Ev.ofState (s.cleared tm p))

/-! ### Detaching -/

theorem Ev.quiet_haltLines (e : Ev) : e.Quiet e.haltLines := by
  refine Ev.Quiet.foldl (fun d n k => ?_) _ (.refl e)
  split
  · exact (k.queueHaltAll n).endSweepQuietly n
  · exact k.endSweepQuietly n

/-- The orders of an ATTACHED part end at its detach: the check's, then the others in ring order (R179). -/
def Ev.endOrders (e : Ev) (a : Anchor) : Ev :=
  let e1 := (e.updPort fun p => { p with scanTimer := none, handedMarks := 0 }).abortCheck .detached
  (e1.openOrders a.ringLength).foldl (fun e o => e.detachOrder o.2) e1

/-- Every line that is ON is halted, every sweep move ends, and every MOVING zone returns to PENDING (R70, R160). -/
def Ev.cutMoves (e : Ev) : Ev := (ascending 16).foldl (fun e u => e.returnMoving u) e.haltLines

/-- The event with the mirror blocks of the units with orders owed, and no arbiter run due. -/
def Ev.owing (e : Ev) (owed : List UnitNo) : Ev := { e with arbiterDue := false, mirrorDue := owed ++ e.mirrorDue }

/-- The port of a part that has detached (R160). -/
def Port.leave (p : Port) : Port := { p with state := .detached, detachDeferred := false, lastOutcome := .taken }

theorem Ev.detach_of_anchor {a : Anchor} (h : e.port.anchor = some a) :
    e.detach = (((e.endOrders a).cutMoves.owing e.unitsWithOrders).flush).updPort Port.leave := by
  unfold Ev.detach
  rw [h]
  rfl

theorem Ev.detach_of_no_anchor (h : e.port.anchor = none) : e.detach = e := by
  unfold Ev.detach
  rw [h]

theorem Ev.cutMoves_not_moving (e : Ev) (u : UnitNo) (z : ZoneNo) : (e.cutMoves.zone u z).state ≠ .moving :=
  Ev.returnAll_not_moving e.haltLines u z

/-! ### No order is left -/

theorem Ev.Orderless.still {e' : Ev} (h : e.Orderless) (k : e.toState.Still e'.toState) : e'.Orderless := fun u =>
  ⟨(k.unit u).orders.tracked_none (h u).1, (k.unit u).orders.waiting_none (h u).2⟩

theorem Ev.Orderless.updUnit {v : UnitNo} {f : UnitRec → UnitRec} (hf : (f (e.unit v)).tracked = (e.unit v).tracked)
    (hg : (f (e.unit v)).waiting = (e.unit v).waiting) (h : e.Orderless) : (e.updUnit v f).Orderless := by
  intro u
  rw [Ev.updUnit_unit]
  split
  · next k => subst k; rw [hf, hg]; exact h _
  · exact h u

theorem Ev.Orderless.grants {e' : Ev} (h : e.Orderless) (k : e.GrantsOnly e') : e'.Orderless := fun u =>
  ⟨(k.unit u).tracked.trans (h u).1, (k.unit u).waiting.trans (h u).2⟩

theorem keeps_orderless : Keeps Ev.Orderless where
  quiet h k := h.still k.still
  flush h := h.still (Ev.still_flush _)
  due _ h := h
  change v z _ _ h := h.grants (Ev.grantsOnly_changeState v z _)
  pend {e} v z k h := by
    unfold Ev.enterPending
    split
    · exact h
    · have h1 := h.grants (Ev.grantsOnly_changeState v z .pending)
      exact h1
  fault v z c h := by
    have h1 := (h.grants (Ev.grantsOnly_changeState v z .faulted)).updUnit (v := v) (f := fun r =>
      { r with zones := r.zones.set z { r.zones[z] with faultCause := some c } }) rfl rfl
    exact h1
  grant _ h := h.grants (Ev.grantsOnly_grant _)
  unit _ _ hf h := h.updUnit hf.tracked hf.waiting
  target _ _ _ _ _ _ h := h.updUnit rfl rfl

theorem Ev.quiet_detachOrders (l : List (Nat × UnitNo)) (e : Ev) : e.Quiet (l.foldl (fun e o => e.detachOrder o.2) e) :=
  Ev.Quiet.foldl (fun _ o k => k.detachOrder o.2) l (.refl e)

theorem Ev.detachOrder_none (e : Ev) (u : UnitNo) :
    ((e.detachOrder u).unit u).tracked = none ∧ ((e.detachOrder u).unit u).waiting = none :=
  ⟨((Ev.Quiet.endWaiting (.refl _) u _ _).still.unit u).orders.tracked_none (Ev.endTracked_tracked u _ _), Ev.endWaiting_waiting u _ _⟩

/-- Every unit of the list has no order after its turn, and none comes back. -/
theorem Ev.detachOrders_none {u : UnitNo} {l : List (Nat × UnitNo)} {e : Ev} (h : ∃ k, (k, u) ∈ l) :
    ((l.foldl (fun e o => e.detachOrder o.2) e).unit u).tracked = none ∧ ((l.foldl (fun e o => e.detachOrder o.2) e).unit u).waiting = none := by
  induction l generalizing e with
  | nil => exact absurd h (by simp)
  | cons x l ih =>
    rw [List.foldl_cons]
    by_cases hl : ∃ k, (k, u) ∈ l
    · exact ih hl
    · obtain ⟨k, hk⟩ := h
      have hx : x = (k, u) := ((List.mem_cons.1 hk).resolve_right fun h => hl ⟨k, h⟩).symm
      have hlater := ((Ev.quiet_detachOrders l (e.detachOrder x.2)).still.unit u).orders
      have hturn := Ev.detachOrder_none e u
      subst hx
      exact ⟨hlater.tracked_none hturn.1, hlater.waiting_none hturn.2⟩

/-- The open orders are those of every unit that has one. -/
theorem State.mem_openOrders (s : State) (length : Nat) (u : UnitNo)
    (h : ¬((s.unit u).tracked = none ∧ (s.unit u).waiting = none)) : ∃ k, (k, u) ∈ s.openOrders length := by
  unfold State.openOrders
  simp only [List.mem_insertionSort, List.mem_filterMap]
  cases ht : (s.unit u).tracked with
  | some o => exact ⟨o.slot, u, List.mem_finRange u, by rw [ht]⟩
  | none =>
    cases hw : (s.unit u).waiting with
    | some w => exact ⟨w.order.slot, u, List.mem_finRange u, by rw [ht, hw]⟩
    | none => exact absurd ⟨ht, hw⟩ h

theorem Ev.endOrders_orderless (e : Ev) (a : Anchor) : (e.endOrders a).Orderless := by
  intro u
  unfold Ev.endOrders
  dsimp only
  generalize (e.updPort fun p => { p with scanTimer := none, handedMarks := 0 }).abortCheck .detached = d
  by_cases h : (d.unit u).tracked = none ∧ (d.unit u).waiting = none
  · have hlater := ((Ev.quiet_detachOrders (d.openOrders a.ringLength) d).still.unit u).orders
    exact ⟨hlater.tracked_none h.1, hlater.waiting_none h.2⟩
  · exact Ev.detachOrders_none (State.mem_openOrders d.toState a.ringLength u h)

/-- What a detach must keep for it to keep a property. -/
structure DetachFrame (P : Ev → Prop) : Prop extends Keeps P where
  check : CheckFree P
  leave : ∀ {e : Ev} {p : Port}, e.Orderless → (∀ u z, (e.zone u z).state ≠ .moving) → p.state ≠ .attached → P e → P { e with port := p }

theorem Keeps.endOrders (hP : Keeps P) (hc : CheckFree P) (a : Anchor) (h : P e) : P (e.endOrders a) := by
  unfold Ev.endOrders
  dsimp only
  refine hP.quiet (hP.toCalm.abortCheck hc _ (hP.quiet h ?_)) (Ev.Quiet.foldl (fun _ o k => k.detachOrder o.2) _ (.refl _))
  exact .updPort (.refl e) _ rfl rfl

theorem Keeps.cutMoves (hP : Keeps P) (h : P e) : P e.cutMoves :=
  Calm.foldl (fun _ u k => hP.returnMoving u k) (ascending 16) (hP.quiet h (Ev.quiet_haltLines e))

theorem Keeps.owing (hP : Keeps P) (owed : List UnitNo) (h : P e) : P (e.owing owed) :=
  hP.quiet (hP.due false h) ⟨.refl _, rfl, List.subset_append_right _ _⟩

theorem Ev.owing_flush_zone (e : Ev) (owed : List UnitNo) (u : UnitNo) (z : ZoneNo) : (e.owing owed).flush.zone u z = e.zone u z :=
  (Ev.still_flush (e.owing owed)).zone u z

/-- A detach: the orders end, the moves return, what is owed is written, and the part leaves. -/
theorem DetachFrame.detach (hP : DetachFrame P) (h : P e) : P e.detach := by
  cases ha : e.port.anchor with
  | none => rwa [Ev.detach_of_no_anchor ha]
  | some a =>
    rw [Ev.detach_of_anchor ha]
    refine hP.leave ?_ (fun u z => ?_) (fun k => nomatch k) (hP.flush (hP.owing _ (hP.cutMoves (hP.endOrders hP.check a h))))
    · exact keeps_orderless.flush (keeps_orderless.owing _ (keeps_orderless.cutMoves (Ev.endOrders_orderless e a)))
    rw [Ev.owing_flush_zone]
    exact Ev.cutMoves_not_moving _ u z

theorem DetachFrame.detachCommand (hP : DetachFrame P) (w : Word) (h : P e) : P (e.detachCommand w) := by
  have h1 : P (e.updPort fun p => { p with commandWord := w }) := hP.quiet h (.updPort (.refl e) _ (by exact rfl) (by exact rfl))
  unfold Ev.detachCommand
  dsimp only
  split
  · exact hP.quiet h1 (.updPort (.refl _) _ (by exact rfl) (by exact rfl))
  · exact hP.quiet h1 (.updPort (.refl _) _ (by exact rfl) (by exact rfl))
  · exact hP.detach h1

/-! ### Attaching -/

/-- The event after steps 1 to 6 of an attach, before a deferred DETACH acts (R158). -/
def Ev.adopted (e : Ev) : Ev :=
  ((e.adoptAnchor (anchorOfMemory e.mem)).writeEverything (anchorOfMemory e.mem)).resumeMoves.settle

theorem Ev.attachSuccess_eq (e : Ev) : e.attachSuccess = if e.adopted.port.detachDeferred then e.adopted.detach else e.adopted := by
  unfold Ev.attachSuccess Ev.adopted
  dsimp only

theorem Keeps.resumeMoves (hP : Keeps P) (h : P e) : P e.resumeMoves := by
  refine hP.quiet (hP.runArbiter h) (Ev.Quiet.foldl (fun d n k => ?_) _ (.refl _))
  split
  · exact k.pursueAfresh n
  · exact k

theorem Ev.adoptAnchor_attached (e : Ev) (a : Anchor) : (e.adoptAnchor a).attached = true := rfl

theorem Ev.quiet_start (e : Ev) (k : Nat) (s : State) : e.Quiet { e with freeDraws := k, start := s } :=
  ⟨⟨fun _ => .refl _, fun _ => .refl _, rfl, rfl, rfl, rfl, rfl, rfl, rfl, rfl, .refl _, fun _ => rfl, id⟩, rfl, List.Subset.refl _⟩

/-- The first writes of an attach are quiet, the part being ATTACHED. -/
theorem Ev.quiet_writeEverything (a : Anchor) (ha : e.attached = true) : e.Quiet (e.writeEverything a) := by
  have h := (Ev.Quiet.refl e).foldlAttached (fun e u he => (Ev.Quiet.refl e).writeMirror he a u) (ascending 16) ha
  unfold Ev.writeEverything
  dsimp only
  generalize (ascending 16).foldl (fun e u => e.writeMirror a u) e = d at h ⊢
  exact (h.writeWords (h.attached.trans ha) a.statusBase (statusArea d.toState)).trans (Ev.quiet_start _ _ _)

theorem Keeps.adopted (hP : Keeps P) (hadopt : ∀ {e : Ev} (a : Anchor), 0 < a.ringLength → e.attached = false → P e → P (e.adoptAnchor a))
    (hr : 0 < (anchorOfMemory e.mem).ringLength) (ha : e.attached = false) (h : P e) : P e.adopted := by
  have h1 : P ((e.adoptAnchor (anchorOfMemory e.mem)).writeEverything (anchorOfMemory e.mem)) :=
    hP.quiet (hadopt _ hr ha h) (Ev.quiet_writeEverything _ (Ev.adoptAnchor_attached _ _))
  unfold Ev.adopted
  generalize (e.adoptAnchor (anchorOfMemory e.mem)).writeEverything (anchorOfMemory e.mem) = d at h1 ⊢
  exact hP.settle (hP.resumeMoves h1)

theorem DetachFrame.attachSuccess (hP : DetachFrame P) (hadopt : ∀ {e : Ev} (a : Anchor), 0 < a.ringLength → e.attached = false → P e → P (e.adoptAnchor a))
    (hr : 0 < (anchorOfMemory e.mem).ringLength) (ha : e.attached = false) (h : P e) : P e.attachSuccess := by
  rw [Ev.attachSuccess_eq]
  split
  · exact hP.detach (hP.adopted hadopt hr ha h)
  · exact hP.adopted hadopt hr ha h

/-- An anchor that passes every test has a ring (R154). -/
theorem ringLength_pos {m : Memory} (h : judgeAnchor m = none) : 0 < (anchorOfMemory m).ringLength := by
  unfold judgeAnchor at h
  dsimp only at h
  by_contra k
  have hk : within 4 1024 (anchorOfMemory m).ringLength = false := by simp [within]; omega
  rw [hk] at h
  split at h <;> simp at h

theorem State.attached_eq_false (h : s.port.state ≠ .attached) : s.attached = false := by simp [State.attached, h]

/-! ### The part's own commands -/

theorem Calm.writesDone (hP : Calm P) (h : P (Ev.ofState s)) : P (Ev.ofState s.writesDone) := hP.quiet h (Ev.quiet_writesDone s)

theorem Calm.answer (hP : Calm P) (w : Word) (o : CommandOutcome) (h : P (Ev.ofState s)) :
    Reached P { s with port := s.port.answer w o } :=
  ⟨_, hP.quiet h (.updPort (.refl _) (fun p => p.answer w o) rfl rfl), rfl⟩

theorem Frame.attach (hF : Frame P c) (hc : c.setsPart = true) {p : Port} (h : P (Ev.ofState s)) (hp : p.state = .attaching)
    (hd : s.port.state = .detached) : Reached P { s with port := p } :=
  ⟨{ Ev.ofState s with port := p },
    hF.port hc (State.attached_eq_false (s := s) (by rw [hd]; decide)) (by rw [hp]; decide) h, rfl⟩

theorem Frame.execAttach (hF : Frame P .attach) (h : P (Ev.ofState s)) (ht : execAttach s = .next t) : Reached P t := by
  unfold Machine.execAttach at ht
  split at ht
  · next hd => cases ht; exact hF.attach rfl h rfl hd
  · cases ht; exact hF.answer _ _ h
  · cases ht; exact hF.answer _ _ h

theorem Frame.detachFrame (hF : Frame P c) (hc : c.setsPart = true) (hcheck : c.setsCheck = true) (hzones : c.setsZones = true) :
    DetachFrame P :=
  { (hF.zones hzones).1 with check := hF.check hcheck, leave := hF.leave hc }

theorem Frame.execAttachSuccess {host : List HostWrite} (hF : Frame P (.attachSuccess host))
    (h : P ((Ev.ofState s.writesDone).hostWrites host)) (ht : execAttachSuccess host s = .next t) : Reached P t := by
  have hD : DetachFrame P := hF.detachFrame rfl rfl rfl
  refine act_reaches hD.toKeeps.closed ?_ ht
  dsimp only
  split
  · next hd => exact hD.attachSuccess (hF.adopt ⟨host, rfl⟩) (ringLength_pos hd.2) (State.attached_eq_false (by rw [hd.1]; decide)) h
  · exact h

theorem Frame.execAttachFailure {host : List HostWrite} (hF : Frame P (.attachFailure host))
    (h : P ((Ev.ofState s.writesDone).hostWrites host)) (ht : execAttachFailure host s = .next t) : Reached P t := by
  refine act_reaches ⟨hF.toCalm, hF.arbiter⟩ ?_ ht
  dsimp only
  split
  · next hd _ => exact hF.port rfl (State.attached_eq_false (by rw [hd]; decide)) (fun k => nomatch k) h
  · exact h

theorem Frame.execDetach (hF : Frame P .detach) (h : P (Ev.ofState s)) (ht : execDetach s = .next t) : Reached P t :=
  have hD : DetachFrame P := hF.detachFrame rfl rfl rfl
  act_reaches hD.toKeeps.closed (hD.detachCommand 2 (hF.writesDone h)) ht

theorem Frame.cleared (hF : Frame P c) (hc : c.setsPart = true) (htm : c.setsTiming = true) (tm : Timing) {p : Port}
    (hp : p.state = .detached) (h : P (Ev.ofState s)) : Reached P (s.cleared tm p) :=
  ⟨_, hF.clear hc htm tm hp h, rfl⟩

theorem Frame.execCommandInvalidValue {v : Word} (hF : Frame P (.commandInvalidValue v)) (h : P (Ev.ofState s))
    (ht : execCommandInvalidValue v s = .next t) : Reached P t := by
  have hD : DetachFrame P := hF.detachFrame rfl rfl rfl
  unfold Machine.execCommandInvalidValue at ht
  split at ht
  · split at ht
    · next hd => cases ht; exact hF.attach rfl h rfl hd
    · cases ht; exact hF.answer _ _ h
    · cases ht; exact hF.answer _ _ h
  · split at ht
    · exact act_reaches hD.toKeeps.closed (hD.detachCommand v (hF.writesDone h)) ht
    · split at ht
      · cases ht; exact hF.cleared rfl rfl _ rfl h
      · cases ht; exact hF.answer _ _ h

/-! ### Every command -/

/-- Every command reaches a state of its frame. -/
theorem Frame.reaches (hF : Frame P c) (h : P (Ev.ofState (s.afterHost c.host))) (ht : exec c s = .next t) : Reached P t := by
  have hs : c.host = [] → P (Ev.ofState s) := fun hnone => hF.quiet h (by rw [hnone]; exact .refl _)
  have hhost : P ((Ev.ofState s.writesDone).hostWrites c.host) := hF.quiet h (Ev.quiet_hostWrites s _)
  by_cases hc : c.setsPart = false ∨ ∃ host, c = .loadCurve host
  · exact exec_reaches hF.toCalm hF.toFreeFor hc h ht
  · have hpart : c ∈ [.attach, .detach, .reset] ∨ (∃ host, c = .attachSuccess host ∨ c = .attachFailure host)
        ∨ (∃ v, c = .commandInvalidValue v) ∨ ∃ b, c = .resetPin b ∨ c = .powerOn b := by
      cases c <;> simp [Instr.setsPart] at hc ⊢
    obtain hreg | ⟨host, rfl | rfl⟩ | ⟨v, rfl⟩ | ⟨b, rfl | rfl⟩ := hpart
    · obtain rfl | rfl | rfl : c = .attach ∨ c = .detach ∨ c = .reset := by simpa using hreg
      · exact hF.execAttach (hs rfl) ht
      · exact hF.execDetach (hs rfl) ht
      · cases ht; exact hF.cleared rfl rfl _ rfl (hs rfl)
    · exact hF.execAttachSuccess hhost ht
    · exact hF.execAttachFailure hhost ht
    · exact hF.execCommandInvalidValue (hs rfl) ht
    · cases ht; exact hF.cleared rfl rfl _ rfl (hs rfl)
    · cases ht; exact hF.cleared rfl rfl _ rfl (hs rfl)

/-! ### Laws of the state -/

/-- A property of states, of an event's. -/
def Ev.Is (Q : State → Prop) (e : Ev) : Prop := Q e.toState

/-- A property of the state that every command keeps. -/
structure Law (Q : State → Prop) : Prop extends Keeps (Ev.Is Q) where
  check : CheckFree (Ev.Is Q)
  intake : IntakeFree (Ev.Is Q)
  timing : TimingFree (Ev.Is Q)
  power : PowerFree (Ev.Is Q)
  loop : LoopFree (Ev.Is Q)
  sweep : SweepFree (Ev.Is Q)
  define : DefineFree (Ev.Is Q)
  curve : CurveFree (Ev.Is Q)
  entry : EntryFree (Ev.Is Q)
  orders : OrderFree (Ev.Is Q)
  /-- A part that is not ATTACHED changes its port. -/
  port : ∀ {s : State} {p : Port}, s.attached = false → p.state ≠ .attached → Q s → Q { s with port := p }
  /-- An attach adopts the anchor. -/
  adopt : ∀ {e : Ev} (a : Anchor), 0 < a.ringLength → e.attached = false → Ev.Is Q e → Ev.Is Q (e.adoptAnchor a)
  /-- A part with no order and no MOVING zone detaches. -/
  leave : ∀ {s : State} {p : Port}, (Ev.ofState s).Orderless → (∀ u z, (s.zone u z).state ≠ .moving) → p.state ≠ .attached → Q s → Q { s with port := p }
  /-- A reset clears the machine. -/
  clear : ∀ {s t : State}, t.Cleared → (Memory.wf s.mem = true → Memory.wf t.mem = true) → Q s → Q t
  /-- The host writes to the exchange memory. -/
  host : ∀ {s : State} (host : List HostWrite), Q s → Q (s.afterHost host)
  /-- The queue of commands. -/
  queue : ∀ {s : State} (q : List Instr), Q s → Q (s.withPending q)

theorem Law.freeFor (hQ : Law Q) (c : Instr) : FreeFor (Ev.Is Q) c where
  check _ := hQ.check
  intake _ := hQ.intake
  timing _ := hQ.timing
  power _ := hQ.power
  loop _ := hQ.loop
  sweep _ := hQ.sweep
  define _ _ := hQ.define
  curve _ := hQ.curve
  zones _ := ⟨hQ.toKeeps, hQ.entry⟩
  arbiter := .inl hQ.toKeeps
  orders := hQ.orders

theorem Law.frame (hQ : Law Q) (c : Instr) : Frame (Ev.Is Q) c :=
  { hQ.toCalm, hQ.freeFor c with
    port := fun _ _ _ => hQ.port
    adopt := fun _ _ => hQ.adopt
    leave := fun _ _ _ => hQ.leave
    clear := fun _ _ _ tm _ hp h => hQ.clear (State.cleared_cleared _ tm hp) State.tornMemory_wf h }

/-- Every step keeps a law. -/
theorem Law.step (hQ : Law Q) (h : Q s) (ht : step s = .next t) : Q t := by
  unfold Machine.step at ht
  split at ht
  · obtain ⟨e, he, rfl⟩ := (hQ.frame _).reaches (hQ.host _ (hQ.queue _ h)) ht
    exact he
  · cases ht
    exact h

end Sys2Proof.Machine
end

