-- ==== Sys2Proof/Proofs/Laws.lean ====
section
/-! PROOFS. The laws of the memory and the curves, which no shared operation touches, and those of the configurations, the offsets and
the targets, which one unit record holds. -/

namespace Sys2Proof.Machine

variable {Q : State → Prop} {p : UnitRec → Prop} {e : Ev} {s t : State} {r r' : UnitRec}

/-! ### Laws that no shared operation touches -/

/-- The moves keep a stable property. -/
theorem Stable.keeps (hQ : Stable Q) (still : ∀ {s t : State}, s.Still t → Q s → Q t) : Keeps (Ev.Is Q) where
  quiet h k := still k.still h
  flush h := still (Ev.still_flush _) h
  due _ h := h
  change u z _ _ h := Ev.has_changeState hQ h u z _
  pend u z k h := Ev.has_enterPending hQ h u z k
  fault u z c h := Ev.has_enterFaulted hQ h u z c
  grant _ h := Ev.has_grant hQ h _
  unit _ _ _ h := hQ.units _ _ h
  target _ _ _ _ _ _ h := hQ.units _ _ h

/-- A stable property is a law when the changes that are not of the unit records and the lines keep it. -/
theorem Stable.law (hQ : Stable Q) (still : ∀ {s t : State}, s.Still t → Q s → Q t) (check : CheckFree (Ev.Is Q))
    (intake : IntakeFree (Ev.Is Q)) (timing : TimingFree (Ev.Is Q)) (curve : CurveFree (Ev.Is Q))
    (port : ∀ {s : State} {p : Port}, Q s → Q { s with port := p }) (adopt : ∀ {e : Ev} (a : Anchor), Ev.Is Q e → Ev.Is Q (e.adoptAnchor a))
    (clear : ∀ {s t : State}, t.Cleared → (Memory.wf s.mem = true → Memory.wf t.mem = true) → Q s → Q t)
    (host : ∀ {s : State} (host : List HostWrite), Q s → Q (s.afterHost host)) (queue : ∀ {s : State} (q : List Instr), Q s → Q (s.withPending q)) :
    Law Q :=
  { hQ.keeps still with
    check := check
    intake := intake
    timing := timing
    power := fun _ _ _ _ h => hQ.lines _ _ h
    loop := fun _ _ _ _ h => hQ.units _ _ h
    sweep := fun _ _ _ _ _ h => hQ.units _ _ h
    define := fun _ u c _ _ h => Ev.has_defineUnit hQ h u c
    curve := curve
    entry := fun _ _ _ h => hQ.lines _ _ h
    orders := .of_units (fun _ _ _ h => hQ.units _ _ h) fun _ _ _ h => hQ.units _ _ h
    port := fun _ _ h => port h
    adopt := fun a _ _ h => adopt a h
    leave := fun _ _ _ h => port h
    clear := clear
    host := host
    queue := queue }

theorem stable_wf : Stable fun s => Memory.wf s.mem = true where
  units _ _ h := h
  lines _ _ h := h
  partGrants _ _ h := h
  pointer _ _ h := h
  freeDraws _ _ h := h
  unfinished _ _ h := h
  port _ _ h _ _ := h
  words _ _ _ h _ := Memory.write_wf _ _ _ h

theorem law_memoryWf : Law fun s => Memory.wf s.mem = true :=
  stable_wf.law (fun k => k.wf) (fun _ _ h => h) (fun _ _ h => h) (fun _ _ h => h) (fun _ _ _ _ h => h) id
    (fun _ h => Memory.write_wf _ _ _ h) (fun _ h k => h k) (fun _ h => Memory.hostWrites_wf _ _ h) (fun _ h => h)

/-- Settles O49: the canonical form is a law. -/
theorem memoryStaysCanonical : Obligations.MemoryStaysCanonical := fun _ _ h ht => law_memoryWf.step h ht

theorem stable_curvesValid : Stable State.curvesValid where
  units _ _ h := h
  lines _ _ h := h
  partGrants _ _ h := h
  pointer _ _ h := h
  freeDraws _ _ h := h
  unfinished _ _ h := h
  port _ _ h _ _ := h
  words _ _ _ h _ := h

/-- The curves after one has been replaced. -/
theorem curveFree_curvesValid : CurveFree (Ev.Is State.curvesValid) := fun e k v hv h j => by
  show curveValid (e.curves.set k v)[j] = true
  rw [Fin.getElem_fin, Vector.getElem_set]
  split
  · exact hv
  · exact h j

theorem law_curvesValid : Law State.curvesValid :=
  stable_curvesValid.law (fun k h j => by rw [k.curves]; exact h j) (fun _ _ h => h) (fun _ _ h => h) (fun _ _ h => h)
    curveFree_curvesValid id (fun _ h => h) (fun h _ _ => h.curvesValid) (fun _ h => h) (fun _ h => h)

/-- Settles O51: the validity of the curves is a law. -/
theorem curvesStayValid : Obligations.CurvesStayValid := fun _ _ h ht => law_curvesValid.step h ht

/-! ### Laws of the configurations, offsets and targets -/

/-- The configuration and the offsets and targets of the zones stand as they were. -/
structure UnitRec.SameGoals (r r' : UnitRec) : Prop where
  config : r'.config = r.config
  offset : ∀ z : ZoneNo, r'.zones[z].offset = r.zones[z].offset
  target : ∀ z : ZoneNo, r'.zones[z].target = r.zones[z].target

theorem UnitRec.SameGoals.of_zones (hc : r'.config = r.config) (hz : r'.zones = r.zones) : r.SameGoals r' :=
  ⟨hc, fun z => by simp only [hz], fun z => by simp only [hz]⟩

/-- A law of a unit's configuration, offsets and targets. -/
structure GoalLaw (p : UnitRec → Prop) : Prop where
  goals : ∀ {r r' : UnitRec}, r.SameGoals r' → p r → p r'
  gentle : ∀ {r r' : UnitRec}, r.Gentle r' → p r → p r'
  target : ∀ {r : UnitRec} {c : UnitConfig} (z : ZoneNo) (plan : Nat) (offset : Int), r.config = some c → p r →
    p { r with zones := r.zones.set z { r.zones[z] with target := some (targetValue c plan offset) } }
  sweep : ∀ {r : UnitRec} {c : UnitConfig} (v : Nat), r.config = some c → p r →
    p { r with config := some { c with sweepMode := .fixed, fixedSweep := v } }
  define : ∀ (r : UnitRec) {c : UnitConfig}, c.inRange = true → p (r.redefined c)
  reset : p UnitRec.reset

/-- Every unit record has a property. -/
def EachUnit (p : UnitRec → Prop) (s : State) : Prop := ∀ u, p (s.unit u)

theorem EachUnit.updUnit (u : UnitNo) (f : UnitRec → UnitRec) (hf : p (e.unit u) → p (f (e.unit u))) (h : Ev.Is (EachUnit p) e) :
    Ev.Is (EachUnit p) (e.updUnit u f) := fun v => by
  rw [Ev.updUnit_unit]
  split
  · next k => exact k ▸ hf (h u)
  · exact h v

theorem GoalLaw.law (hp : GoalLaw p) : Law (EachUnit p) := by
  have grants : ∀ {d e : Ev}, d.GrantsOnly e → Ev.Is (EachUnit p) d → Ev.Is (EachUnit p) e := fun h k u =>
    hp.goals ⟨(h.unit u).config, fun z => (h.zone u z).offset, fun z => (h.zone u z).target⟩ (k u)
  have still : ∀ {s t : State}, s.Still t → EachUnit p s → EachUnit p t := fun h k u =>
    hp.goals (.of_zones (h.unit u).config (h.unit u).zones) (k u)
  exact
    { quiet := fun h k => still k.still h
      flush := still (Ev.still_flush _)
      due := fun _ h => h
      change := fun u z _ _ h => grants (Ev.grantsOnly_changeState u z _) h
      pend := fun {e} u z k h => by
        unfold Ev.enterPending
        split
        · exact h
        · have h1 := grants (Ev.grantsOnly_changeState (e := e) u z .pending) h
          exact h1
      fault := fun {e} u z c h => by
        have h1 := grants (Ev.grantsOnly_changeState (e := e) u z .faulted) h
        have h2 := grants (Ev.grantsOnly_updZone u z (fun r => { r with faultCause := some c }) fun r => ⟨rfl, rfl, rfl, rfl, rfl, rfl, rfl⟩) h1
        exact h2
      grant := fun _ h => grants (Ev.grantsOnly_grant _) h
      unit := fun u f hf h => EachUnit.updUnit u f (hp.gentle hf) h
      target := fun u z _ plan offset hc h => EachUnit.updUnit u _ (hp.target z plan offset hc) h
      check := fun _ _ h => h
      intake := fun _ _ h => h
      timing := fun _ _ h => h
      power := fun _ _ _ _ h => h
      loop := fun _ u _ _ h => EachUnit.updUnit u _ (hp.goals (.of_zones rfl rfl)) h
      sweep := fun _ u _ v hc h => EachUnit.updUnit u _ (hp.sweep v hc) h
      define := fun e u c _ hc h => by
        have h1 := EachUnit.updUnit u (fun r => r.redefined c) (fun _ => hp.define (e.unit u) hc) h
        unfold Ev.defineUnit
        dsimp only
        split
        · exact h1
        · exact h1
      curve := fun _ _ _ _ h => h
      entry := fun _ _ _ h => h
      orders := .of_units (fun _ u _ h => EachUnit.updUnit u _ (hp.goals (.of_zones rfl rfl)) h) fun _ u _ h =>
        EachUnit.updUnit u _ (hp.goals (.of_zones rfl rfl)) h
      port := fun _ _ h => h
      adopt := fun _ _ _ h => h
      leave := fun _ _ _ h => h
      clear := fun hc _ _ u => by rw [hc.unit]; exact hp.reset
      host := fun _ h => h
      queue := fun _ h => h }

/-! ### Offsets -/

theorem UnitRec.redefined_zone (r : UnitRec) (c : UnitConfig) (z : ZoneNo) :
    (r.redefined c).zones[z] = { Zone.reset with state := if z.val < c.zoneCount then .rest else .off } := by
  simp [UnitRec.redefined]

theorem UnitRec.reset_zone (z : ZoneNo) : UnitRec.reset.zones[z] = Zone.reset := by simp [UnitRec.reset]

theorem setTarget_zone (z y : ZoneNo) (x : Option Nat) :
    (r.zones.set z { r.zones[z] with target := x })[y] = if z = y then { r.zones[y] with target := x } else r.zones[y] := by
  rcases eq_or_ne z y with rfl | k
  · simp
  · have k' : z.val ≠ y.val := fun j => k (Fin.ext j)
    simp [k, k']

theorem goalLaw_offset : GoalLaw fun r => ∀ z : ZoneNo, r.zones[z].offsetInRange where
  goals h k z := by rw [Zone.offsetInRange, h.offset]; exact k z
  gentle h k z := (h.zone z).offset (k z)
  target z _ _ _ k y := by
    rw [setTarget_zone]
    split
    · exact k y
    · exact k y
  sweep _ _ k := k
  define r c _ z := by rw [UnitRec.redefined_zone]; simp [Zone.offsetInRange, Zone.reset]
  reset z := by rw [UnitRec.reset_zone]; simp [Zone.offsetInRange, Zone.reset]

/-- Settles O50: the range of the offsets is a law of every unit. -/
theorem offsetsStayInRange : Obligations.OffsetsStayInRange := fun _ _ h ht => goalLaw_offset.law.step h ht

/-! ### Targets -/

/-- The bounds of a defined unit, and its targets within them (R1, R4). -/
def UnitRec.TargetsLawful (r : UnitRec) : Prop :=
  (∀ c, r.config = some c → c.oMin < c.oMax)
    ∧ ∀ (z : ZoneNo) t, r.zones[z].target = some t → ∃ c, r.config = some c ∧ c.oMin ≤ t ∧ t ≤ c.oMax

theorem targetValue_mem {c : UnitConfig} (h : c.oMin < c.oMax) (plan : Nat) (offset : Int) :
    c.oMin ≤ targetValue c plan offset ∧ targetValue c plan offset ≤ c.oMax := by
  unfold targetValue clampInt
  split_ifs <;> omega

theorem goalLaw_targets : GoalLaw UnitRec.TargetsLawful where
  goals h k := by
    refine ⟨fun c hc => k.1 c (h.config ▸ hc), fun z t ht => ?_⟩
    rw [h.target] at ht
    rw [h.config]
    exact k.2 z t ht
  gentle h k := by
    refine ⟨fun c hc => k.1 c (h.config ▸ hc), fun z t ht => ?_⟩
    rw [(h.zone z).target] at ht
    rw [h.config]
    exact k.2 z t ht
  target z plan offset hc k := by
    refine ⟨k.1, fun y t ht => ?_⟩
    rw [setTarget_zone] at ht
    split at ht
    · cases ht
      exact ⟨_, hc, targetValue_mem (k.1 _ hc) plan offset⟩
    · exact k.2 y t ht
  sweep {_ c} v hc k := by
    refine ⟨fun c' hc' => ?_, fun z t ht => ?_⟩
    · cases hc'
      exact k.1 c hc
    · obtain ⟨c', hc', hb⟩ := k.2 z t ht
      rw [hc] at hc'
      cases hc'
      exact ⟨_, rfl, hb⟩
  define r c hc := by
    refine ⟨fun c' hc' => ?_, fun z t ht => ?_⟩
    · cases hc'
      simp only [UnitConfig.inRange, Bool.and_eq_true, decide_eq_true_eq] at hc
      exact hc.2
    · rw [UnitRec.redefined_zone] at ht
      cases ht
  reset := by
    constructor
    · exact fun c hc => nomatch hc
    · intro z t ht
      rw [UnitRec.reset_zone] at ht
      cases ht

/-- Settles O52: bounds and targets together are a law of every unit. -/
theorem targetsStayWithinBounds : Obligations.TargetsStayWithinBounds := fun _ t hb h ht => by
  have hlaw : EachUnit UnitRec.TargetsLawful t := goalLaw_targets.law.step (fun u => ⟨hb u, h u⟩) ht
  exact ⟨fun u => (hlaw u).1, fun u => (hlaw u).2⟩

end Sys2Proof.Machine
end

