-- ==== Sys2Proof/Proofs/TableLaws.lean ====
section
/-! PROOFS. The laws of the zone table and the scheduler: the zone records, the pending lists and the grants. -/

namespace Sys2Proof.Machine

variable {Q : State → Prop} {e : Ev} {s t : State} {r r' : Zone} {u : UnitNo} {n : LineNo} {z y : ZoneNo}

/-- The zones, the configurations and the scheduler's lists and counts stand as they were. -/
structure State.SameTables (s t : State) : Prop where
  zones : ∀ u z, t.zone u z = s.zone u z
  config : ∀ u, (t.unit u).config = (s.unit u).config
  pendingList : ∀ n, (t.line n).pendingList = (s.line n).pendingList
  grants : ∀ n, (t.line n).grants = (s.line n).grants
  partGrants : t.partGrants = s.partGrants

theorem State.Still.tables (h : s.Still t) : s.SameTables t :=
  ⟨h.zone, fun u => (h.unit u).config, fun n => (h.line n).pendingList, fun n => (h.line n).grants, h.partGrants⟩

theorem State.SameTables.of_eq (hunits : t.units = s.units) (hlines : t.lines = s.lines) (hgrants : t.partGrants = s.partGrants) :
    s.SameTables t := by
  refine ⟨fun u z => ?_, fun u => ?_, fun n => ?_, fun n => ?_, hgrants⟩
  all_goals simp only [State.zone, State.unit, State.line, hunits, hlines]

/-- A law of the tables: what the moves keep, a DEFINE UNIT that is not busy, and the part's own changes of its port. -/
structure TableLaw (Q : State → Prop) : Prop where
  tables : ∀ {s t : State}, s.SameTables t → t.port.state = s.port.state → t.port.anchor = s.port.anchor → Q s → Q t
  change : ∀ {e : Ev} (u : UnitNo) (z : ZoneNo) {new : ZoneState}, new = .rest ∨ new = .held → (e.zone u z).state ≠ new → Ev.Is Q e →
    Ev.Is Q (e.changeState u z new)
  pend : ∀ {e : Ev} (u : UnitNo) (z : ZoneNo) (k : MoveKind), (e.zone u z).state ≠ .pending → Ev.Is Q e → Ev.Is Q (e.enterPending u z k)
  fault : ∀ {e : Ev} (u : UnitNo) (z : ZoneNo) (c : FaultCause), (e.zone u z).state ≠ .faulted → Ev.Is Q e →
    Ev.Is Q (e.enterFaulted u z c)
  grant : ∀ {e e' : Ev} {n : LineNo} {p : PendingEntry} {l : List PendingEntry}, e.eligible n = true → (e.line n).pendingList = p :: l →
    e.Granted e' n p.zone → Ev.Is Q e → Ev.Is Q e'
  unit : ∀ {e : Ev} (u : UnitNo) (f : UnitRec → UnitRec), (e.unit u).Gentle (f (e.unit u)) → Ev.Is Q e → Ev.Is Q (e.updUnit u f)
  target : ∀ {e : Ev} (u : UnitNo) (z : ZoneNo) (x : Option Nat), Ev.Is Q e → Ev.Is Q (e.updZone u z fun r => { r with target := x })
  config : ∀ {e : Ev} (u : UnitNo) (c c' : UnitConfig), (e.unit u).config = some c → c'.lineBudget = c.lineBudget → Ev.Is Q e →
    Ev.Is Q (e.updUnit u fun r => { r with config := some c' })
  define : ∀ {e : Ev} (u : UnitNo) (c : UnitConfig), e.defineBusy u = false → Ev.Is Q e →
    Ev.Is Q ((e.updUnit u fun r => r.redefined c).updLine u fun l => l.redefined c.zoneCount)
  entry : EntryFree (Ev.Is Q)
  port : ∀ {s : State} {p : Port}, s.attached = false → p.state ≠ .attached → Q s → Q { s with port := p }
  adopt : ∀ {s : State} {p : Port}, s.attached = false → Q s → Q { s with port := p }
  leave : ∀ {s : State} {p : Port}, (∀ u z, (s.zone u z).state ≠ .moving) → p.state ≠ .attached → Q s → Q { s with port := p }
  clear : ∀ {s t : State}, t.Cleared → Q s → Q t

theorem Ev.updLine_tables (f : Line → Line) (hf : ∀ l, (f l).pendingList = l.pendingList ∧ (f l).grants = l.grants) :
    e.toState.SameTables (e.updLine n f).toState := by
  refine ⟨fun _ _ => rfl, fun _ => rfl, fun m => ?_, fun m => ?_, rfl⟩
  all_goals
    rw [Ev.updLine_line]
    split
  · exact (hf _).1
  · rfl
  · exact (hf _).2
  · rfl

theorem Ev.updUnit_zone_of_zones {f : UnitRec → UnitRec} (hz : ∀ r, (f r).zones = r.zones) (v : UnitNo) (y : ZoneNo) :
    (e.updUnit u f).zone v y = e.zone v y := by
  show ((e.updUnit u f).unit v).zones[y] = (e.unit v).zones[y]
  rw [Ev.updUnit_unit]
  split
  · simp only [hz]
  · rfl

theorem Ev.setConfig_zone (c : Option UnitConfig) (v : UnitNo) (y : ZoneNo) :
    (e.updUnit u fun r => { r with config := c }).zone v y = e.zone v y :=
  Ev.updUnit_zone_of_zones (f := fun r => { r with config := c }) (fun _ => rfl) v y

theorem Ev.updUnit_tables (f : UnitRec → UnitRec) (hc : ∀ r, (f r).config = r.config) (hz : ∀ r, (f r).zones = r.zones) :
    e.toState.SameTables (e.updUnit u f).toState := by
  refine ⟨Ev.updUnit_zone_of_zones hz, fun v => ?_, fun _ => rfl, fun _ => rfl, rfl⟩
  rw [Ev.updUnit_unit]
  split
  · exact hc _
  · rfl

theorem TableLaw.same (hQ : TableLaw Q) (h : Q s) (hunits : t.units = s.units) (hlines : t.lines = s.lines)
    (hgrants : t.partGrants = s.partGrants) (hstate : t.port.state = s.port.state) (hanchor : t.port.anchor = s.port.anchor) : Q t :=
  hQ.tables (.of_eq hunits hlines hgrants) hstate hanchor h

theorem UnitRec.gentle_setZone {r : UnitRec} {f : Zone → Zone} (h : (r.zones[z]).Gentle (f r.zones[z])) :
    r.Gentle { r with zones := r.zones.set z (f r.zones[z]) } := by
  refine ⟨rfl, rfl, rfl, rfl, rfl, fun y => ?_⟩
  rcases eq_or_ne z y with rfl | k
  · simpa using h
  · have k' : z.val ≠ y.val := fun j => k (Fin.ext j)
    simpa [k'] using Zone.Gentle.refl _

theorem TableLaw.zone (hQ : TableLaw Q) (f : Zone → Zone) (hf : (e.zone u z).Gentle (f (e.zone u z))) (h : Ev.Is Q e) :
    Ev.Is Q (e.updZone u z f) := hQ.unit u _ (UnitRec.gentle_setZone (f := f) hf) h

/-- A FAULTED zone is given another cause. -/
theorem Zone.gentle_faultCause (c : FaultCause) (h : r.state = .faulted) : r.Gentle { r with faultCause := some c } :=
  ⟨rfl, rfl, id, fun k => ⟨k.commanded, k.moveKind, k.moveTag, iff_of_true rfl h, k.few, k.none⟩⟩

theorem TableLaw.law (hQ : TableLaw Q) : Law Q where
  quiet h k := hQ.tables k.still.tables k.still.portState k.still.anchor h
  flush h := hQ.tables (Ev.still_flush _).tables (Ev.still_flush _).portState (Ev.still_flush _).anchor h
  due _ h := h
  change {e} u z new hn h := by
    by_cases hz : (e.zone u z).state = new
    · rwa [Ev.changeState_of_same hz]
    · exact hQ.change u z hn hz h
  pend {e} u z k h := by
    by_cases hz : (e.zone u z).state = .pending
    · rwa [Ev.enterPending_of_pending hz]
    · exact hQ.pend u z k hz h
  fault {e} u z c h := by
    by_cases hz : (e.zone u z).state = .faulted
    · rw [Ev.enterFaulted_of_faulted hz]
      exact hQ.same (hQ.zone _ (Zone.gentle_faultCause c hz) h) rfl rfl rfl rfl rfl
    · exact hQ.fault u z c hz h
  grant {e n} he h := by
    cases hl : (e.line n).pendingList with
    | nil =>
      simp [State.eligible, hl] at he
    | cons p l => exact hQ.grant he hl (Ev.grant_granted hl) h
  unit := hQ.unit
  target u z _ _ _ _ h := hQ.target u z _ h
  check _ _ h := hQ.same h rfl rfl rfl rfl rfl
  intake _ _ h := hQ.same h rfl rfl rfl rfl rfl
  timing _ _ h := hQ.same h rfl rfl rfl rfl rfl
  power _ _ f hf h := hQ.tables (Ev.updLine_tables f hf) rfl rfl h
  loop _ _ _ _ h := hQ.tables (Ev.updUnit_tables _ (fun _ => rfl) (fun _ => rfl)) rfl rfl h
  sweep _ u c _ hc h := hQ.config u c _ hc rfl h
  define e u c hb _ h := by
    have h1 := hQ.define u c hb h
    unfold Ev.defineUnit
    dsimp only
    split
    · exact h1
    · exact h1
  curve _ _ _ _ h := hQ.same h rfl rfl rfl rfl rfl
  entry := hQ.entry
  orders := .of_units (fun _ _ _ h => hQ.tables (Ev.updUnit_tables _ (fun _ => rfl) (fun _ => rfl)) rfl rfl h) fun _ _ _ h =>
    hQ.tables (Ev.updUnit_tables _ (fun _ => rfl) (fun _ => rfl)) rfl rfl h
  port := hQ.port
  adopt {e} a _ ha h := hQ.same (hQ.adopt (p := (e.adoptAnchor a).port) ha h) rfl rfl rfl rfl rfl
  leave _ := hQ.leave
  clear hc _ h := hQ.clear hc h
  host _ h := hQ.same h rfl rfl rfl rfl rfl
  queue _ h := hQ.same h rfl rfl rfl rfl rfl

/-! ### Zone records -/

/-- Every zone record is lawful (R3, R118). -/
def State.ZonesLawful (s : State) : Prop := ∀ u z, (s.zone u z).Lawful

theorem State.zonesLawful_iff : s.ZonesLawful ↔ s.zoneFieldsLawful ∧ s.samplesLawful :=
  ⟨fun h => ⟨fun u z => ⟨(h u z).commanded, (h u z).moveKind, (h u z).moveTag, (h u z).faultCause⟩,
    fun u z => ⟨(h u z).few, (h u z).none⟩⟩,
    fun h u z => by
      obtain ⟨h1, h2, h3, h4⟩ := h.1 u z
      exact ⟨h1, h2, h3, h4, (h.2 u z).1, (h.2 u z).2⟩⟩

/-- A lawful zone that is not MOVING has no move fields. -/
theorem Zone.Lawful.move_none (h : r.Lawful) (hm : r.state ≠ .moving) : r.commanded = .none ∧ r.moveKind = .none ∧ r.moveTag = .none := by
  have h1 := h.commanded
  have h2 := h.moveKind
  have h3 := h.moveTag
  simp only [hm, iff_false, Bool.not_eq_true, Option.isSome_eq_false_iff, Option.isNone_iff_eq_none] at h1 h2 h3
  exact ⟨h1, h2, h3⟩

/-- A zone that enters a state has neither move fields nor samples. -/
theorem Zone.Lawful.entering_fields (h : r.Lawful) (new : ZoneState) :
    (r.entering new).commanded = .none ∧ (r.entering new).moveKind = .none ∧ (r.entering new).moveTag = .none
      ∧ (r.entering new).samples = [] := by
  have hs : (if r.state = .rest then [] else r.samples) = [] := by
    split
    · rfl
    · next k => exact h.none k
  by_cases hm : r.state = .moving
  · exact ⟨if_pos hm, if_pos hm, if_pos hm, hs⟩
  · obtain ⟨h1, h2, h3⟩ := h.move_none hm
    exact ⟨(if_neg hm).trans h1, (if_neg hm).trans h2, (if_neg hm).trans h3, hs⟩

theorem Zone.Lawful.entering (h : r.Lawful) {new : ZoneState} (hm : new ≠ .moving) (hf : new ≠ .faulted) : (r.entering new).Lawful := by
  obtain ⟨h1, h2, h3, h4⟩ := h.entering_fields new
  refine ⟨?_, ?_, ?_, ?_, by simp [h4], fun _ => h4⟩
  · rw [h1]; exact iff_of_false (by simp) hm
  · rw [h2]; exact iff_of_false (by simp) hm
  · rw [h3]; exact iff_of_false (by simp) hm
  · exact iff_of_false (by simp [Zone.entering]) hf

theorem Zone.Lawful.faulted (h : r.Lawful) (c : FaultCause) : ({ r.entering .faulted with faultCause := some c }).Lawful := by
  obtain ⟨h1, h2, h3, h4⟩ := h.entering_fields .faulted
  refine ⟨?_, ?_, ?_, iff_of_true rfl rfl, ?_, fun _ => h4⟩
  · exact iff_of_false (by simp [h1]) (fun k => nomatch k)
  · exact iff_of_false (by simp [h2]) (fun k => nomatch k)
  · exact iff_of_false (by simp [h3]) (fun k => nomatch k)
  · exact (congrArg List.length h4).trans_le (by simp)

theorem Zone.Sent.lawful (h : r.Sent r') (hstate : r.state = .moving) (hc : r.faultCause = .none) (hs : r.samples = []) : r'.Lawful := by
  have hm : r'.state = .moving := h.state.trans hstate
  refine ⟨iff_of_true h.commanded hm, iff_of_true h.moveKind hm, iff_of_true h.moveTag hm, ?_, ?_, fun _ => h.samples.trans hs⟩
  · rw [h.faultCause, hc, hm]
    simp
  · simp [h.samples, hs]

/-- A MOVING zone, or one that enters MOVING, has neither a cause nor samples. -/
theorem Ev.changeState_moving_fields (h : (e.zone u z).Lawful) :
    ((e.changeState u z .moving).zone u z).state = .moving ∧ ((e.changeState u z .moving).zone u z).faultCause = none
      ∧ ((e.changeState u z .moving).zone u z).samples = [] := by
  by_cases hm : (e.zone u z).state = .moving
  · rw [Ev.changeState_of_same hm]
    refine ⟨hm, ?_, h.none (by rw [hm]; decide)⟩
    have hc := h.faultCause
    rw [hm] at hc
    simpa using hc
  · rw [Ev.changeState_zone hm, if_pos ⟨rfl, rfl⟩]
    exact ⟨rfl, rfl, (h.entering_fields .moving).2.2.2⟩

/-- A zone record as a reset or a DEFINE UNIT leaves it. -/
theorem Zone.reset_lawful (x : ZoneState) (hm : x ≠ .moving) (hf : x ≠ .faulted) : ({ Zone.reset with state := x }).Lawful :=
  ⟨iff_of_false (fun k => nomatch k) hm, iff_of_false (fun k => nomatch k) hm, iff_of_false (fun k => nomatch k) hm,
    iff_of_false (fun k => nomatch k) hf, Nat.zero_le _, fun _ => rfl⟩

/-- The zones after a DEFINE UNIT. -/
theorem Ev.redefined_zone (c : UnitConfig) (v : UnitNo) (y : ZoneNo) :
    ((e.updUnit u fun r => r.redefined c).updLine u fun l => l.redefined c.zoneCount).zone v y =
      if u = v then { Zone.reset with state := if y.val < c.zoneCount then .rest else .off } else e.zone v y := by
  show ((e.updUnit u fun r => r.redefined c).unit v).zones[y] = _
  rw [Ev.updUnit_unit]
  split
  · exact UnitRec.redefined_zone _ c y
  · rfl

theorem tableLaw_zones : TableLaw State.ZonesLawful where
  tables h _ _ k u z := by rw [h.zones]; exact k u z
  change u z new hn hz h v y := by
    rw [Ev.changeState_zone hz]
    split
    · exact (h v y).entering (by rcases hn with rfl | rfl <;> decide) (by rcases hn with rfl | rfl <;> decide)
    · exact h v y
  pend u z k hz h v y := by
    rw [Ev.enterPending_zone hz]
    split
    · exact (h v y).entering (by decide) (by decide)
    · exact h v y
  fault u z c hz h v y := by
    rw [Ev.enterFaulted_zone hz]
    split
    · exact (h v y).faulted c
    · exact h v y
  grant {e e' n p l} _ _ hg h v y := by
    by_cases k : n = v ∧ p.zone = y
    · obtain ⟨rfl, rfl⟩ := k
      obtain ⟨h1, h2, h3⟩ := Ev.changeState_moving_fields (h _ _)
      exact hg.zone.lawful h1 h2 h3
    · rw [hg.otherZone v y k]
      exact h v y
  unit {e} u f hf h v y := by
    show ((e.updUnit u f).unit v).zones[y].Lawful
    rw [Ev.updUnit_unit]
    split
    · next k => exact k ▸ (hf.zone y).lawful (h u y)
    · exact h v y
  target u z x h v y := by
    rw [Ev.updZone_zone]
    split
    · exact ⟨(h v y).commanded, (h v y).moveKind, (h v y).moveTag, (h v y).faultCause, (h v y).few, (h v y).none⟩
    · exact h v y
  config u c c' _ _ h v y := by
    rw [Ev.setConfig_zone]
    exact h v y
  define u c _ h v y := by
    rw [Ev.redefined_zone]
    split
    · split
      · exact Zone.reset_lawful _ (by decide) (by decide)
      · exact Zone.reset_lawful _ (by decide) (by decide)
    · exact h v y
  entry _ _ _ h := h
  port _ _ h := h
  adopt _ h := h
  leave _ _ h := h
  clear h _ u z := by
    rw [h.zone]
    exact Zone.reset_lawful _ (by decide) (by decide)

/-- Settles O55: the laws of a zone record, as one law. -/
theorem zoneRecordsStayLawful : Obligations.ZoneRecordsStayLawful := fun _ _ h1 h2 ht =>
  State.zonesLawful_iff.1 (tableLaw_zones.law.step (State.zonesLawful_iff.2 ⟨h1, h2⟩) ht)

/-! ### Pending lists -/

variable {l : Line} {old : ZoneState}

/-- A zone that leaves PENDING leaves the list with all its entries, and no other zone does. -/
theorem Line.leaving_entriesOf (y : ZoneNo) :
    (l.leaving old z).entriesOf y = if old = .pending ∧ z = y then 0 else l.entriesOf y := by
  unfold Line.entriesOf Line.leaving
  dsimp only
  by_cases hp : old = .pending
  · rw [if_pos hp, List.countP_filter]
    rcases eq_or_ne z y with rfl | k
    · rw [if_pos ⟨hp, rfl⟩, List.countP_eq_zero]
      simp
    · rw [if_neg fun j => k j.2]
      refine List.countP_congr fun p _ => ?_
      simp only [Bool.and_eq_true, beq_iff_eq, bne_iff_ne, and_iff_left_iff_imp]
      exact fun j => j ▸ k.symm
  · rw [if_neg hp, if_neg fun j => hp j.1]

theorem Line.entriesOf_append {l' : Line} {k : MoveKind} (h : l'.pendingList = l.pendingList ++ [⟨z, k⟩]) (y : ZoneNo) :
    l'.entriesOf y = l.entriesOf y + if z = y then 1 else 0 := by
  simp [Line.entriesOf, h, List.countP_append, List.countP_cons]

theorem Line.entriesOf_congr {l' : Line} (h : l'.pendingList = l.pendingList) (y : ZoneNo) : l'.entriesOf y = l.entriesOf y := by
  unfold Line.entriesOf
  rw [h]

/-- The zone at the front of a lawful list is PENDING. -/
theorem State.pendingLawful.front (h : s.pendingLawful) {p : PendingEntry} {ps : List PendingEntry}
    (hl : (s.line u).pendingList = p :: ps) : (s.zone u p.zone).state = .pending := by
  have h1 := h u p.zone
  by_contra k
  rw [if_neg k, Line.entriesOf, hl, List.countP_eq_zero] at h1
  exact h1 p (by simp) (by simp)

/-- After a zone's change of state its old entry is gone, and every other zone's is there. -/
theorem Ev.changeState_pendingLawful {new : ZoneState} (hz : (e.zone u z).state ≠ new) (hn : new ≠ .pending)
    (h : e.toState.pendingLawful) : (e.changeState u z new).toState.pendingLawful := fun v y => by
  have hv := h v y
  by_cases k : u = v ∧ z = y
  · obtain ⟨rfl, rfl⟩ := k
    rw [Ev.changeState_line hz, Ev.changeState_zone hz, if_pos rfl, if_pos (c := u = u ∧ z = z) ⟨rfl, rfl⟩, Line.leaving_entriesOf]
    simp only [Zone.entering, hn, if_false, and_true]
    split
    · rfl
    · next j => rw [hv, if_neg j]
  · rw [Ev.changeState_zone hz, if_neg k, ← hv, Ev.changeState_line hz]
    split
    · next hu => rw [Line.leaving_entriesOf, if_neg fun j => k ⟨hu, j.2⟩]
    · rfl

theorem tableLaw_pending : TableLaw State.pendingLawful where
  tables h _ _ k u z := by rw [h.zones, Line.entriesOf_congr (h.pendingList u)]; exact k u z
  change u z new hn hz h := Ev.changeState_pendingLawful hz (by rcases hn with rfl | rfl <;> decide) h
  pend {e} u z k hz h v y := by
    have hv := h v y
    by_cases j : u = v ∧ z = y
    · obtain ⟨rfl, rfl⟩ := j
      rw [Ev.enterPending_line hz, Ev.enterPending_zone hz, if_pos rfl, if_pos (c := u = u ∧ z = z) ⟨rfl, rfl⟩,
        Line.entriesOf_append (l := e.line u) (z := z) (k := k) rfl, hv, if_neg hz]
      simp [Zone.entering]
    · rw [Ev.enterPending_zone hz, if_neg j, ← hv, Ev.enterPending_line hz]
      split
      · next hu => rw [Line.entriesOf_append (l := e.line v) (z := z) (k := k) rfl, if_neg fun i => j ⟨hu, i⟩, Nat.add_zero]
      · rfl
  fault {e} u z c hz h v y := by
    have h1 := Ev.changeState_pendingLawful hz (by decide) h v y
    rw [Ev.enterFaulted_line hz, Ev.enterFaulted_zone hz]
    rw [Ev.changeState_line hz, Ev.changeState_zone hz] at h1
    rw [h1]
    split <;> rfl
  grant {e e' n p l} _ hl hg h v y := by
    have hp := h.front hl
    have h1 := Ev.changeState_pendingLawful (new := .moving) (by rw [hp]; decide) (by decide) h v y
    rw [Line.entriesOf_congr (hg.pendingList v), h1]
    by_cases k : n = v ∧ p.zone = y
    · obtain ⟨rfl, rfl⟩ := k
      rw [hg.zone.state]
    · rw [hg.otherZone v y k, Ev.changeState_zone (by rw [hp]; decide), if_neg k]
  unit {e} u f hf h v y := by
    have hzone : ((e.updUnit u f).zone v y).state = (e.zone v y).state := by
      show (((e.updUnit u f).unit v).zones[y]).state = ((e.unit v).zones[y]).state
      rw [Ev.updUnit_unit]
      split
      · next k => exact k ▸ (hf.zone y).state
      · rfl
    rw [hzone]
    exact h v y
  target {e} u z x h v y := by
    have hzone : ((e.updZone u z fun r => { r with target := x }).zone v y).state = (e.zone v y).state := by
      rw [Ev.updZone_zone]
      split <;> rfl
    rw [hzone]
    exact h v y
  config u c c' _ _ h v y := by
    rw [Ev.setConfig_zone]
    exact h v y
  define {e} u c _ h v y := by
    rw [Ev.redefined_zone, Ev.updLine_line]
    split
    · split
      · simp [Line.redefined, Line.entriesOf]
      · simp [Line.redefined, Line.entriesOf]
    · exact h v y
  entry e u z h v y := by
    rw [Ev.updLine_line]
    split
    · refine Eq.trans ?_ (h v y)
      unfold Line.entriesOf
      rw [List.countP_map]
      refine List.countP_congr fun p _ => ?_
      simp only [Function.comp]
      split <;> rfl
    · exact h v y
  port _ _ h := h
  adopt _ h := h
  leave _ _ h := h
  clear h _ := h.pendingLawful

/-- Settles O53: the agreement of lists and PENDING zones is a law. -/
theorem pendingListsStayLawful : Obligations.PendingListsStayLawful := fun _ _ h ht => tableLaw_pending.law.step h ht

end Sys2Proof.Machine
end

