-- ==== Sys2Proof/Proofs/GrantLaws.lean ====
section
/-! PROOFS. The law of the drive grants (R10, R48, R70): the counts follow the MOVING zones one by one, and the budgets bound them. -/

namespace Sys2Proof.Machine

variable {e : Ev} {s t : State} {u : UnitNo} {n : LineNo} {z : ZoneNo}

/-! ### Counts -/

/-- Two sums whose terms agree but for one. -/
theorem sum_ascending_change {k : Nat} {f g : Fin k → Nat} (i : Fin k) (h : ∀ j, j ≠ i → g j = f j) :
    ((ascending k).map g).sum + f i = ((ascending k).map f).sum + g i := by
  unfold ascending
  rw [← Fin.sum_univ_def, ← Fin.sum_univ_def, Fintype.sum_eq_add_sum_compl i f, Fintype.sum_eq_add_sum_compl i g]
  have hrest : ∑ j ∈ ({i} : Finset (Fin k))ᶜ, g j = ∑ j ∈ ({i} : Finset (Fin k))ᶜ, f j :=
    Finset.sum_congr rfl fun j hj => h j (by simpa using hj)
  omega

/-- One for a MOVING zone. -/
def Zone.moves (r : Zone) : Nat := if r.state = .moving then 1 else 0

theorem UnitRec.movingZones_eq_sum (r : UnitRec) : r.movingZones = ((ascending 64).map fun z => (r.zones[z]).moves).sum := by
  unfold UnitRec.movingZones
  induction ascending 64 with
  | nil => rfl
  | cons x l ih =>
    rw [List.countP_cons, List.map_cons, List.sum_cons, ih, Nat.add_comm]
    simp [Zone.moves]

/-- The zones of two records agree but for one. -/
theorem UnitRec.movingZones_change {r r' : UnitRec} (h : ∀ y, y ≠ z → (r'.zones[y]).state = (r.zones[y]).state) :
    r'.movingZones + (r.zones[z]).moves = r.movingZones + (r'.zones[z]).moves := by
  rw [r.movingZones_eq_sum, r'.movingZones_eq_sum]
  exact sum_ascending_change (f := fun y => (r.zones[y]).moves) (g := fun y => (r'.zones[y]).moves) z fun y hy => by
    simp only [Zone.moves, h y hy]

theorem UnitRec.movingZones_congr {r r' : UnitRec} (h : ∀ y : ZoneNo, (r'.zones[y]).state = (r.zones[y]).state) :
    r'.movingZones = r.movingZones := by
  have h1 := UnitRec.movingZones_change (z := 0) fun y _ => h y
  have h2 : (r.zones[(0 : ZoneNo)]).moves = (r'.zones[(0 : ZoneNo)]).moves := by simp only [Zone.moves, h]
  omega

theorem UnitRec.movingZones_eq_zero {r : UnitRec} (h : ∀ y : ZoneNo, (r.zones[y]).state ≠ .moving) : r.movingZones = 0 := by
  unfold UnitRec.movingZones
  rw [List.countP_eq_zero]
  intro y _
  simpa using h y

/-- A MOVING zone's line holds a grant, and the part does. -/
theorem State.grantsLawful.pos (h : s.grantsLawful) (hz : (s.zone u z).state = .moving) :
    1 ≤ (s.line u).grants ∧ 1 ≤ s.partGrants := by
  have h1 : 1 ≤ (s.line u).grants := by
    rw [h.1 u, UnitRec.movingZones, Nat.one_le_iff_ne_zero, ne_eq, List.countP_eq_zero]
    exact fun k => k z (List.mem_finRange z) (beq_iff_eq.2 hz)
  refine ⟨h1, h1.trans ?_⟩
  rw [h.2]
  exact List.single_le_sum (fun _ _ => Nat.zero_le _) _ (List.mem_map.2 ⟨u, List.mem_finRange u, rfl⟩)

/-- One zone changes its state, and the counts of its line and of the part with it. -/
theorem State.grantsLawful.change (h : s.grantsLawful)
    (hzone : ∀ v y, ¬(u = v ∧ z = y) → (t.zone v y).state = (s.zone v y).state)
    (hother : ∀ m, m ≠ u → (t.line m).grants = (s.line m).grants)
    (hline : (t.line u).grants + (s.zone u z).moves = (s.line u).grants + (t.zone u z).moves)
    (hpart : t.partGrants + (s.zone u z).moves = s.partGrants + (t.zone u z).moves) : t.grantsLawful := by
  have hu : (t.unit u).movingZones + (s.zone u z).moves = (s.unit u).movingZones + (t.zone u z).moves :=
    UnitRec.movingZones_change fun y hy => hzone u y fun k => hy k.2.symm
  refine ⟨fun m => ?_, ?_⟩
  · by_cases hm : m = u
    · subst hm
      have := h.1 m
      omega
    · rw [hother m hm, h.1 m]
      exact (UnitRec.movingZones_congr fun y => hzone m y fun k => hm k.1.symm).symm
  · have hsum : ((ascending 16).map fun n => (t.line n).grants).sum + (s.line u).grants
        = ((ascending 16).map fun n => (s.line n).grants).sum + (t.line u).grants := sum_ascending_change u hother
    have := h.2
    omega

theorem State.grantsLawful.congr (h : s.grantsLawful) (hzone : ∀ v y, (t.zone v y).state = (s.zone v y).state)
    (hline : ∀ m, (t.line m).grants = (s.line m).grants) (hpart : t.partGrants = s.partGrants) : t.grantsLawful :=
  h.change (u := 0) (z := 0) (fun v y _ => hzone v y) (fun m _ => hline m) (by simp only [Zone.moves, hline, hzone])
    (by simp only [Zone.moves, hpart, hzone])

theorem State.budgetsLawful.of_le (h : s.budgetsLawful) (hconfig : ∀ v, (t.unit v).lineBudget = (s.unit v).lineBudget)
    (hline : ∀ m, (t.line m).grants ≤ (s.line m).grants) (hpart : t.partGrants ≤ s.partGrants)
    (hstate : t.port.state = s.port.state) (hanchor : t.port.anchor = s.port.anchor) : t.budgetsLawful := by
  refine ⟨fun m => (hline m).trans ((h.1 m).trans_eq (hconfig m).symm), ?_⟩
  have h2 := h.2
  have hatt : t.attached = s.attached := by simp only [State.attached, hstate]
  have hdrive : t.driveBudget = s.driveBudget := by simp only [State.driveBudget, hanchor]
  rw [hatt, hdrive]
  by_cases ha : s.attached = true
  · rw [if_pos ha] at h2 ⊢
    exact hpart.trans h2
  · rw [if_neg ha] at h2 ⊢
    exact Nat.le_zero.1 (hpart.trans_eq h2)

theorem UnitRec.lineBudget_congr {r r' : UnitRec} (h : r'.config = r.config) : r'.lineBudget = r.lineBudget := by
  unfold UnitRec.lineBudget
  rw [h]

/-! ### The law -/

/-- The laws of the pending lists, the grants and the budgets together. -/
structure State.GrantsLawful (s : State) : Prop where
  pending : s.pendingLawful
  grants : s.grantsLawful
  budgets : s.budgetsLawful

/-- A zone that was not about to move leaves its state: a grant it held is released. -/
theorem State.GrantsLawful.leave (h : s.GrantsLawful) (hpending : t.pendingLawful)
    (hzone : ∀ v y, ¬(u = v ∧ z = y) → (t.zone v y).state = (s.zone v y).state) (hnew : (t.zone u z).state ≠ .moving)
    (hline : ∀ m, (t.line m).grants = if u = m ∧ (s.zone u z).state = .moving then (s.line m).grants - 1 else (s.line m).grants)
    (hpart : t.partGrants = if (s.zone u z).state = .moving then s.partGrants - 1 else s.partGrants)
    (hconfig : ∀ v, (t.unit v).config = (s.unit v).config) (hstate : t.port.state = s.port.state)
    (hanchor : t.port.anchor = s.port.anchor) : t.GrantsLawful := by
  have hmoves : (t.zone u z).moves = 0 := if_neg hnew
  have hpos : (s.zone u z).state = .moving → 1 ≤ (s.line u).grants ∧ 1 ≤ s.partGrants := h.grants.pos
  by_cases hm : (s.zone u z).state = .moving
  · have hmoved : (s.zone u z).moves = 1 := if_pos hm
    obtain ⟨h1, h2⟩ := hpos hm
    simp only [hm, and_true, if_true] at hline hpart
    refine ⟨hpending, h.grants.change hzone (fun m k => by rw [hline, if_neg fun j => k j.symm]) ?_ (by omega),
      h.budgets.of_le (fun v => UnitRec.lineBudget_congr (hconfig v)) (fun m => ?_) (by omega) hstate hanchor⟩
    · rw [hline, if_pos rfl]
      omega
    · rw [hline]
      split <;> omega
  · have hmoved : (s.zone u z).moves = 0 := if_neg hm
    simp only [hm, and_false, if_false] at hline hpart
    exact ⟨hpending, h.grants.change hzone (fun m _ => hline m) (by rw [hline, hmoved, hmoves]) (by rw [hpart, hmoved, hmoves]),
      h.budgets.of_le (fun v => UnitRec.lineBudget_congr (hconfig v)) (fun m => (hline m).le) hpart.le hstate hanchor⟩

theorem State.grantsLawful.partGrants_eq_zero (h : s.grantsLawful) (hz : ∀ u z, (s.zone u z).state ≠ .moving) : s.partGrants = 0 := by
  rw [h.2, List.sum_eq_zero]
  intro x hx
  obtain ⟨n, _, rfl⟩ := List.mem_map.1 hx
  exact (h.1 n).trans (UnitRec.movingZones_eq_zero (hz n))

/-- With no grant held, any port will do. -/
theorem State.GrantsLawful.withPort (h : s.GrantsLawful) {p : Port} (hzero : s.partGrants = 0) : ({ s with port := p }).GrantsLawful := by
  refine ⟨h.pending, h.grants, h.budgets.1, ?_⟩
  split
  · exact hzero.trans_le (Nat.zero_le _)
  · exact hzero

theorem Line.leaving_grants (l : Line) (old : ZoneState) (z : ZoneNo) :
    (l.leaving old z).grants = if old = .moving then l.grants - 1 else l.grants := rfl

theorem Ev.enterFaulted_kept (u : UnitNo) (z : ZoneNo) (c : FaultCause) :
    (∀ v, ((e.enterFaulted u z c).unit v).config = (e.unit v).config) ∧ (e.enterFaulted u z c).port.state = e.port.state
      ∧ (e.enterFaulted u z c).port.anchor = e.port.anchor := by
  have hport : (e.changeState u z .faulted).port = e.port := Ev.changeState_port
  refine ⟨fun v => ?_, ?_, ?_⟩
  · have h : ((e.enterFaulted u z c).unit v).config = ((e.changeState u z .faulted).unit v).config :=
      ((Ev.grantsOnly_updZone u z (fun r => { r with faultCause := some c }) fun r => ⟨rfl, rfl, rfl, rfl, rfl, rfl, rfl⟩).unit v).config
    rw [h, Ev.changeState_config]
  · show ((e.changeState u z .faulted).port.raise .zoneFault).state = e.port.state
    rw [hport]
    rfl
  · show ((e.changeState u z .faulted).port.raise .zoneFault).anchor = e.port.anchor
    rw [hport]
    rfl

theorem tableLaw_grants : TableLaw State.GrantsLawful where
  tables h hs ha k := by
    refine ⟨tableLaw_pending.tables h hs ha k.pending, k.grants.congr (fun v y => by rw [h.zones]) h.grants h.partGrants,
      k.budgets.of_le (fun v => UnitRec.lineBudget_congr (h.config v)) (fun m => (h.grants m).le) h.partGrants.le hs ha⟩
  change {e} u z new hn hz h := by
    have hport : (e.changeState u z new).port = e.port := Ev.changeState_port
    refine State.GrantsLawful.leave (u := u) (z := z) h (tableLaw_pending.change u z hn hz h.pending) (fun v y k => ?_) ?_ (fun m => ?_)
      (Ev.changeState_partGrants hz) (fun v => Ev.changeState_config) (by rw [hport]) (by rw [hport])
    · rw [Ev.changeState_zone hz, if_neg k]
    · rw [Ev.changeState_zone hz, if_pos ⟨rfl, rfl⟩]
      rcases hn with rfl | rfl <;> exact fun k => nomatch k
    · rw [Ev.changeState_line hz]
      split
      · next k => simp [Line.leaving_grants, k]
      · next k => simp [k]
  pend {e} u z k hz h := by
    have hport : (e.enterPending u z k).port = e.port := by
      rw [Ev.enterPending, if_neg hz]
      exact Ev.changeState_port (e := e)
    have hconfig : ∀ v, ((e.enterPending u z k).unit v).config = (e.unit v).config := fun v => by
      rw [Ev.enterPending, if_neg hz]
      exact Ev.changeState_config (e := e)
    refine State.GrantsLawful.leave (u := u) (z := z) h (tableLaw_pending.pend u z k hz h.pending) (fun v y j => ?_) ?_ (fun m => ?_)
      (Ev.enterPending_partGrants hz) hconfig (by rw [hport]) (by rw [hport])
    · rw [Ev.enterPending_zone hz, if_neg j]
    · rw [Ev.enterPending_zone hz, if_pos ⟨rfl, rfl⟩]
      exact fun k => nomatch k
    · rw [Ev.enterPending_line hz]
      split
      · next j => simp [Line.leaving_grants, j]
      · next j => simp [j]
  fault {e} u z c hz h := by
    obtain ⟨hconfig, hstate, hanchor⟩ := Ev.enterFaulted_kept (e := e) u z c
    refine State.GrantsLawful.leave (u := u) (z := z) h (tableLaw_pending.fault u z c hz h.pending) (fun v y j => ?_) ?_ (fun m => ?_)
      (Ev.enterFaulted_partGrants hz) hconfig hstate hanchor
    · rw [Ev.enterFaulted_zone hz, if_neg j]
    · rw [Ev.enterFaulted_zone hz, if_pos ⟨rfl, rfl⟩]
      exact fun k => nomatch k
    · rw [Ev.enterFaulted_line hz]
      split
      · next j => simp [Line.leaving_grants, j]
      · next j => simp [j]
  grant {e e' n p l} he hl hg h := by
    have hp := h.pending.front hl
    have hz : (e.zone n p.zone).state ≠ .moving := by rw [hp]; decide
    have hmoves : (e.zone n p.zone).moves = 0 := if_neg hz
    have hmoves' : (e'.zone n p.zone).moves = 1 := by
      have hmoved : (e'.zone n p.zone).state = .moving := by
        rw [hg.zone.state, Ev.changeState_zone hz, if_pos ⟨rfl, rfl⟩]
        rfl
      exact if_pos hmoved
    have hline : ∀ m, (e'.line m).grants = (e.line m).grants + if n = m then 1 else 0 := fun m => by
      rw [hg.grants, Ev.changeState_line hz]
      split
      · rw [Line.leaving_grants, if_neg hz]
      · rfl
    have hpart : e'.partGrants = e.partGrants + 1 := by rw [hg.partGrants, Ev.changeState_partGrants hz, if_neg hz]
    have he' := he
    simp only [State.eligible, Bool.and_eq_true, decide_eq_true_eq] at he'
    obtain ⟨⟨⟨⟨ha, _⟩, _⟩, hlinebudget⟩, hdrive⟩ := he'
    refine ⟨tableLaw_pending.grant he hl hg h.pending, h.grants.change (fun v y k => by rw [hg.otherZone v y k]) (fun m hm => ?_) ?_ ?_,
      fun m => ?_, ?_⟩
    · rw [hline, if_neg hm.symm, Nat.add_zero]
    · rw [hline, if_pos rfl]
      omega
    · omega
    · rw [hline, UnitRec.lineBudget_congr (hg.config m)]
      have := h.budgets.1 m
      split
      · next k => subst k; omega
      · omega
    · have ha' : e'.attached = true := by simpa only [State.attached, hg.port] using ha
      have hd' : e'.driveBudget = e.driveBudget := by simp only [State.driveBudget, hg.port]
      rw [if_pos ha', hd', hpart]
      exact hdrive
  unit {e} u f hf h := by
    have hzone : ∀ v y, ((e.updUnit u f).zone v y).state = (e.zone v y).state := fun v y => by
      show (((e.updUnit u f).unit v).zones[y]).state = ((e.unit v).zones[y]).state
      rw [Ev.updUnit_unit]
      split
      · next k => exact k ▸ (hf.zone y).state
      · rfl
    have hconfig : ∀ v, ((e.updUnit u f).unit v).config = (e.unit v).config := fun v => by
      rw [Ev.updUnit_unit]
      split
      · next k => exact k ▸ hf.config
      · rfl
    exact ⟨tableLaw_pending.unit u f hf h.pending, h.grants.congr hzone (fun _ => rfl) rfl,
      h.budgets.of_le (fun v => UnitRec.lineBudget_congr (hconfig v)) (fun _ => le_rfl) le_rfl rfl rfl⟩
  target {e} u z x h := by
    have hzone : ∀ v y, ((e.updZone u z fun r => { r with target := x }).zone v y).state = (e.zone v y).state := fun v y => by
      rw [Ev.updZone_zone]
      split <;> rfl
    have hconfig : ∀ v, ((e.updZone u z fun r => { r with target := x }).unit v).config = (e.unit v).config := fun v => by
      rw [Ev.updZone, Ev.updUnit_unit]
      split <;> rfl
    exact ⟨tableLaw_pending.target u z x h.pending, h.grants.congr hzone (fun _ => rfl) rfl,
      h.budgets.of_le (fun v => UnitRec.lineBudget_congr (hconfig v)) (fun _ => le_rfl) le_rfl rfl rfl⟩
  config {e} u c c' hc hb h := by
    have hbudget : ∀ v, ((e.updUnit u fun r => { r with config := some c' }).unit v).lineBudget = (e.unit v).lineBudget := fun v => by
      rw [Ev.updUnit_unit]
      split
      · next k => subst k; simp [UnitRec.lineBudget, hc, hb]
      · rfl
    exact ⟨tableLaw_pending.config u c c' hc hb h.pending, h.grants.congr (fun v y => by rw [Ev.setConfig_zone]) (fun _ => rfl) rfl,
      h.budgets.of_le hbudget (fun _ => le_rfl) le_rfl rfl rfl⟩
  define {e} u c hb h := by
    have hidle : ∀ y : ZoneNo, ((e.unit u).zones[y]).state ≠ .moving := fun y k => by
      simp only [State.defineBusy, UnitRec.anyMoving, Bool.or_eq_false_iff, List.any_eq_false] at hb
      exact hb.1.2 y (List.mem_finRange y) (beq_iff_eq.2 k)
    have hgrants : ∀ m, (((e.updUnit u fun r => r.redefined c).updLine u fun l => l.redefined c.zoneCount).line m).grants
        = (e.line m).grants := fun m => by
      rw [Ev.updLine_line]
      split <;> rfl
    have hzero : (e.line u).grants = 0 := (h.grants.1 u).trans (UnitRec.movingZones_eq_zero hidle)
    have hunit : ∀ m, m ≠ u →
        ((e.updUnit u fun r => r.redefined c).updLine u fun l => l.redefined c.zoneCount).unit m = e.unit m := fun m hm => by
      rw [Ev.updLine_unit, Ev.updUnit_unit, if_neg hm.symm]
    refine ⟨tableLaw_pending.define u c hb h.pending, ⟨fun m => ?_, ?_⟩, fun m => ?_, h.budgets.2⟩
    · rw [hgrants, h.grants.1 m]
      rcases eq_or_ne m u with rfl | k
      · rw [UnitRec.movingZones_eq_zero hidle, Ev.updLine_unit, Ev.updUnit_unit_self, UnitRec.movingZones_eq_zero]
        intro y
        rw [UnitRec.redefined_zone]
        dsimp only
        split <;> exact fun k => nomatch k
      · rw [hunit m k]
    · simp only [hgrants]
      exact h.grants.2
    · rw [hgrants]
      rcases eq_or_ne m u with rfl | k
      · rw [hzero]
        exact Nat.zero_le _
      · rw [hunit m k]
        exact h.budgets.1 m
  entry e u z h := by
    have hgrants : ∀ m, ((e.updLine u fun l =>
        { l with pendingList := l.pendingList.map fun p => if p.zone = z then { p with kind := .zero } else p }).line m).grants
          = (e.line m).grants := fun m => by
      rw [Ev.updLine_line]
      split <;> rfl
    exact ⟨tableLaw_pending.entry e u z h.pending, h.grants.congr (fun _ _ => rfl) hgrants rfl,
      h.budgets.of_le (fun _ => rfl) (fun m => (hgrants m).le) le_rfl rfl rfl⟩
  port ha _ h := h.withPort (by simpa [ha] using h.budgets.2)
  adopt ha h := h.withPort (by simpa [ha] using h.budgets.2)
  leave hz _ h := h.withPort (h.grants.partGrants_eq_zero hz)
  clear h _ := ⟨h.pendingLawful, h.grantsLawful, h.budgetsLawful⟩

/-- Settles O54: the lists, the grants and the budgets are one law. -/
theorem grantsStayWithinBudgets : Obligations.GrantsStayWithinBudgets := fun _ _ hp hg hb ht =>
  have h := tableLaw_grants.law.step ⟨hp, hg, hb⟩ ht
  ⟨h.grants, h.budgets⟩

end Sys2Proof.Machine
end

