-- ==== Sys2Proof/Proofs/Frames.lean ====
section
/-! PROOFS. What a command cannot touch: each block has its own commands, and no other command changes it. -/

namespace Sys2Proof.Machine

variable {Q : State → Prop} {e : Ev} {s t : State} {c : Instr}

/-- The commands that clear the machine may change everything. -/
theorem Instr.sets_of_clears (hp : c.setsPart = true) (ht : c.setsTiming = true) :
    c.setsIntake = true ∧ c.setsCheck = true ∧ c.setsConfig = true ∧ c.setsZones = true ∧ c.setsPower = true := by
  cases c <;> simp_all [Instr.setsPart, Instr.setsTiming, Instr.setsIntake, Instr.setsCheck, Instr.setsConfig, Instr.setsZones, Instr.setsPower]

/-- A stable property is a frame of a command that does not change what it speaks of. -/
theorem Stable.frame (hQ : Stable Q) (still : ∀ {s t : State}, s.Still t → Q s → Q t)
    (check : c.setsCheck = true → CheckFree (Ev.Is Q)) (intake : c.setsIntake = true → IntakeFree (Ev.Is Q))
    (timing : c.setsTiming = true → TimingFree (Ev.Is Q)) (curve : c.setsPart = true → CurveFree (Ev.Is Q))
    (port : c.setsPart = true → ∀ {s : State} {p : Port}, s.attached = false → p.state ≠ .attached → Q s → Q { s with port := p })
    (adopt : (∃ host, c = .attachSuccess host) → ∀ {e : Ev} (a : Anchor), e.attached = false → Ev.Is Q e → Ev.Is Q (e.adoptAnchor a))
    (leave : c.setsPart = true → ∀ {s : State} {p : Port}, p.state ≠ .attached → Q s → Q { s with port := p })
    (clear : c.setsPart = true → c.setsTiming = true → ∀ {s : State} (tm : Timing) {p : Port}, p.state = .detached → Q s →
      Q (s.cleared tm p)) : Frame (Ev.Is Q) c :=
  { (hQ.keeps still).toCalm with
    check := check
    intake := intake
    timing := timing
    power := fun _ _ _ _ _ h => hQ.lines _ _ h
    loop := fun _ _ _ _ _ h => hQ.units _ _ h
    sweep := fun _ _ _ _ _ _ h => hQ.units _ _ h
    define := fun _ _ _ u c _ _ h => Ev.has_defineUnit hQ h u c
    curve := curve
    zones := fun _ => ⟨hQ.keeps still, fun _ _ _ h => hQ.lines _ _ h⟩
    orders := .of_units (fun _ _ _ h => hQ.units _ _ h) fun _ _ _ h => hQ.units _ _ h
    arbiter := .inl (hQ.keeps still)
    port := fun hc _ _ => port hc
    adopt := fun hc _ a _ => adopt hc a
    leave := fun hc _ _ _ _ hp h => leave hc hp h
    clear := fun hc ht _ => clear hc ht }

/-- A command ends in a state with every property that it frames. -/
theorem Frame.next (hF : Frame (Ev.Is Q) c) (h : Q (s.afterHost c.host)) (ht : exec c s = .next t) : Q t := by
  obtain ⟨e, he, rfl⟩ := hF.reaches h ht
  exact he

/-! ### The memory of a part that is not ATTACHED -/

theorem stable_unattached (m : Memory) : Stable fun s => s.attached = false ∧ s.mem = m where
  units _ _ h := h
  lines _ _ h := h
  partGrants _ _ h := h
  pointer _ _ h := h
  freeDraws _ _ h := h
  unfinished _ _ h := h
  port s x h hs _ := ⟨by rw [← h.1, State.attached, State.attached, hs], h.2⟩
  words _ _ _ h ha := absurd (h.1.symm.trans ha) (by decide)

/-- Settles O57: a part that is not ATTACHED stays so and writes nothing, but for the success of an attach. -/
theorem unattachedPartWritesNothing : Obligations.UnattachedPartWritesNothing := by
  intro c s t hs hc ht
  have ha : s.attached = false := State.attached_eq_false hs
  have hport : ∀ {s : State} {p : Port} {m : Memory}, p.state ≠ .attached → s.attached = false ∧ s.mem = m →
      ({ s with port := p } : State).attached = false ∧ s.mem = m := fun hp h => ⟨State.attached_eq_false hp, h.2⟩
  have hF : Frame (Ev.Is fun t => t.attached = false ∧ t.mem = Memory.hostWrites s.mem c.host) c :=
    (stable_unattached _).frame (fun k h => ⟨k.attached.trans h.1, (k.mem h.1).trans h.2⟩) (fun _ _ _ h => h) (fun _ _ _ h => h)
      (fun _ _ _ h => h) (fun _ _ _ _ _ h => h) (fun _ _ _ _ hp h => hport hp h) (fun k => absurd k fun ⟨host, k⟩ => hc host k)
      (fun _ _ _ hp h => hport hp h)
      (fun _ _ s tm p hp h => ⟨State.attached_eq_false (by rw [show (s.cleared tm p).port = p from rfl, hp]; decide),
        (State.tornMemory_of_not_attached (by simpa [State.attached] using h.1)).trans h.2⟩)
  exact (hF.next ⟨ha, rfl⟩ ht).2

/-! ### The blocks -/

/-- What a stable block needs for a command to leave it: its own commands apart, the resets are among its own. -/
theorem Stable.block (hQ : Stable Q) (still : ∀ {s t : State}, s.Still t → Q s → Q t) (port : ∀ {s : State} {p : Port}, Q s → Q { s with port := p })
    (adopt : ∀ {e : Ev} (a : Anchor), Ev.Is Q e → Ev.Is Q (e.adoptAnchor a))
    (check : c.setsCheck = true → CheckFree (Ev.Is Q)) (intake : c.setsIntake = true → IntakeFree (Ev.Is Q))
    (timing : c.setsTiming = true → TimingFree (Ev.Is Q)) (curve : CurveFree (Ev.Is Q))
    (clear : c.setsPart = true → c.setsTiming = true → ∀ {s : State} (tm : Timing) {p : Port}, p.state = .detached → Q s →
      Q (s.cleared tm p)) : Frame (Ev.Is Q) c :=
  hQ.frame still check intake timing (fun _ => curve) (fun _ _ _ _ _ => port) (fun _ _ a _ => adopt a) (fun _ _ _ _ => port) clear

theorem exec_pending (ht : exec c s = .next t) : t.pending = s.pending := by
  have hQ : Stable fun t => t.pending = s.pending :=
    ⟨fun _ _ h => h, fun _ _ h => h, fun _ _ h => h, fun _ _ h => h, fun _ _ h => h, fun _ _ h => h, fun _ _ h _ _ => h, fun _ _ _ h _ => h⟩
  exact (hQ.block (c := c) (fun k h => k.pending.trans h) id (fun _ h => h) (fun _ _ _ h => h) (fun _ _ _ h => h) (fun _ _ _ h => h)
    (fun _ _ _ _ h => h) (fun _ _ _ _ _ _ h => h)).next rfl ht

theorem exec_timing (hc : c.setsTiming = false) (ht : exec c s = .next t) : t.timing = s.timing := by
  have hQ : Stable fun t => t.timing = s.timing :=
    ⟨fun _ _ h => h, fun _ _ h => h, fun _ _ h => h, fun _ _ h => h, fun _ _ h => h, fun _ _ h => h, fun _ _ h _ _ => h, fun _ _ _ h _ => h⟩
  have hno : c.setsTiming = true → False := fun k => absurd (hc.symm.trans k) (by decide)
  exact (hQ.block (fun k h => k.timing.trans h) id (fun _ h => h) (fun _ _ _ h => h) (fun _ _ _ h => h) (fun k => (hno k).elim)
    (fun _ _ _ _ h => h) (fun _ k => (hno k).elim)).next rfl ht

theorem exec_intake (hc : c.setsIntake = false) (ht : exec c s = .next t) : t.intake = s.intake := by
  have hQ : Stable fun t => t.intake = s.intake :=
    ⟨fun _ _ h => h, fun _ _ h => h, fun _ _ h => h, fun _ _ h => h, fun _ _ h => h, fun _ _ h => h, fun _ _ h _ _ => h, fun _ _ _ h _ => h⟩
  have hno : c.setsIntake = true → False := fun k => absurd (hc.symm.trans k) (by decide)
  exact (hQ.block (fun k h => k.intake.trans h) id (fun _ h => h) (fun _ _ _ h => h) (fun k => (hno k).elim) (fun _ _ _ h => h)
    (fun _ _ _ _ h => h) (fun k1 k2 => (hno (Instr.sets_of_clears k1 k2).1).elim)).next rfl ht

theorem exec_check (hc : c.setsCheck = false) (ht : exec c s = .next t) : t.check = s.check := by
  have hQ : Stable fun t => t.check = s.check :=
    ⟨fun _ _ h => h, fun _ _ h => h, fun _ _ h => h, fun _ _ h => h, fun _ _ h => h, fun _ _ h => h, fun _ _ h _ _ => h, fun _ _ _ h _ => h⟩
  have hno : c.setsCheck = true → False := fun k => absurd (hc.symm.trans k) (by decide)
  exact (hQ.block (fun k h => k.check.trans h) id (fun _ h => h) (fun k => (hno k).elim) (fun _ _ _ h => h) (fun _ _ _ h => h)
    (fun _ _ _ _ h => h) (fun k1 k2 => (hno (Instr.sets_of_clears k1 k2).2.1).elim)).next rfl ht

theorem Instr.setsPart_attachSuccess (h : ∃ host, c = .attachSuccess host) : c.setsPart = true := by
  obtain ⟨host, rfl⟩ := h
  rfl

theorem exec_part (hc : c.setsPart = false) (ht : exec c s = .next t) :
    t.curves = s.curves ∧ t.port.state = s.port.state ∧ t.port.anchor = s.port.anchor := by
  have hQ : Stable fun t => t.curves = s.curves ∧ t.port.state = s.port.state ∧ t.port.anchor = s.port.anchor :=
    ⟨fun _ _ h => h, fun _ _ h => h, fun _ _ h => h, fun _ _ h => h, fun _ _ h => h, fun _ _ h => h,
      fun _ _ h hs ha => ⟨h.1, hs.trans h.2.1, ha.trans h.2.2⟩, fun _ _ _ h _ => h⟩
  have hno : c.setsPart = true → False := fun k => absurd (hc.symm.trans k) (by decide)
  exact (hQ.frame (fun k h => ⟨k.curves.trans h.1, k.portState.trans h.2.1, k.anchor.trans h.2.2⟩) (fun _ _ _ h => h) (fun _ _ _ h => h)
    (fun _ _ _ h => h) (fun k => (hno k).elim) (fun k => (hno k).elim) (fun k => (hno (Instr.setsPart_attachSuccess k)).elim)
    (fun k => (hno k).elim) (fun k => (hno k).elim)).next ⟨rfl, rfl, rfl⟩ ht

/-- Settles O58, block by block. -/
theorem blocksChangeAtTheirOwnCommands : Obligations.BlocksChangeAtTheirOwnCommands := fun _ _ _ ht =>
  ⟨exec_pending ht, fun hc => exec_part hc ht, fun hc => exec_timing hc ht, fun hc => exec_intake hc ht, fun hc => exec_check hc ht⟩

/-! ### The settings of the units -/

/-- The configuration and the loop of every unit are those of a given state. -/
def State.SettingsOf (s t : State) : Prop :=
  ∀ u, (t.unit u).config = (s.unit u).config ∧ (t.unit u).loopOn = (s.unit u).loopOn ∧ (t.unit u).loopParams = (s.unit u).loopParams

/-- Each unit record keeps its settings. -/
theorem State.SettingsOf.updUnit {u : UnitNo} {f : UnitRec → UnitRec}
    (hf : (f (e.unit u)).config = (e.unit u).config ∧ (f (e.unit u)).loopOn = (e.unit u).loopOn
      ∧ (f (e.unit u)).loopParams = (e.unit u).loopParams) (h : s.SettingsOf e.toState) : s.SettingsOf (e.updUnit u f).toState := fun v => by
  rw [Ev.updUnit_unit]
  split
  · next k =>
    subst k
    obtain ⟨h1, h2, h3⟩ := h u
    exact ⟨hf.1.trans h1, hf.2.1.trans h2, hf.2.2.trans h3⟩
  · exact h v

theorem State.SettingsOf.grants {d e : Ev} (k : d.GrantsOnly e) (h : s.SettingsOf d.toState) : s.SettingsOf e.toState := fun u => by
  obtain ⟨h1, h2, h3⟩ := h u
  exact ⟨(k.unit u).config.trans h1, (k.unit u).loopOn.trans h2, (k.unit u).loopParams.trans h3⟩

theorem State.SettingsOf.still {t' : State} (k : t.Still t') (h : s.SettingsOf t) : s.SettingsOf t' := fun u => by
  obtain ⟨h1, h2, h3⟩ := h u
  exact ⟨(k.unit u).config.trans h1, (k.unit u).loopOn.trans h2, (k.unit u).loopParams.trans h3⟩

theorem keeps_settings (s : State) : Keeps (Ev.Is s.SettingsOf) where
  quiet h k := h.still k.still
  flush h := State.SettingsOf.still (Ev.still_flush _) h
  due _ h := h
  change u z _ _ h := State.SettingsOf.grants (Ev.grantsOnly_changeState u z _) h
  pend {e} u z k h := by
    unfold Ev.enterPending
    split
    · exact h
    · have h1 := State.SettingsOf.grants (Ev.grantsOnly_changeState (e := e) u z .pending) h
      exact h1
  fault {e} u z c h := by
    have h1 := State.SettingsOf.grants (Ev.grantsOnly_changeState (e := e) u z .faulted) h
    have h2 := State.SettingsOf.updUnit (e := e.changeState u z .faulted) (u := u) (f := fun r =>
      { r with zones := r.zones.set z { r.zones[z] with faultCause := some c } }) ⟨rfl, rfl, rfl⟩ h1
    exact h2
  grant _ h := State.SettingsOf.grants (Ev.grantsOnly_grant _) h
  unit _ _ hf h := State.SettingsOf.updUnit ⟨hf.config, hf.loopOn, hf.loopParams⟩ h
  target _ _ _ _ _ _ h := State.SettingsOf.updUnit ⟨rfl, rfl, rfl⟩ h

theorem frame_settings (s : State) (hc : c.setsConfig = false) : Frame (Ev.Is s.SettingsOf) c := by
  have hno : c.setsConfig = true → False := fun k => absurd (hc.symm.trans k) (by decide)
  exact
    { (keeps_settings s).toCalm with
      check := fun _ _ _ h => h
      intake := fun _ _ _ h => h
      timing := fun _ _ _ h => h
      power := fun _ _ _ _ _ h => h
      loop := fun k => (hno k).elim
      sweep := fun k => (hno k).elim
      define := fun k => (hno k).elim
      curve := fun _ _ _ _ _ h => h
      zones := fun _ => ⟨keeps_settings s, fun _ _ _ h => h⟩
      orders := .of_units (fun _ _ _ h => State.SettingsOf.updUnit ⟨rfl, rfl, rfl⟩ h) fun _ _ _ h =>
        State.SettingsOf.updUnit ⟨rfl, rfl, rfl⟩ h
      arbiter := .inl (keeps_settings s)
      port := fun _ _ _ _ _ h => h
      adopt := fun _ _ _ _ _ h => h
      leave := fun _ _ _ _ _ _ h => h
      clear := fun k1 k2 => (hno (Instr.sets_of_clears k1 k2).2.2.1).elim }

/-! ### The zones -/

/-- Every zone is as in a given state, and no arbiter run is due. -/
def Ev.ZonesOf (s : State) (e : Ev) : Prop := (∀ u z, e.zone u z = s.zone u z) ∧ e.arbiterDue = false

theorem calm_zones (s : State) : Calm (Ev.ZonesOf s) where
  quiet h k := ⟨fun u z => (k.zone u z).trans (h.1 u z), k.arbiterDue.trans h.2⟩
  flush {e} h := ⟨fun u z => ((Ev.still_flush e).zone u z).trans (h.1 u z), e.flush_kept.2.trans h.2⟩

theorem frame_zones (s : State) (hc : c.setsZones = false) : Frame (Ev.ZonesOf s) c := by
  have hno : c.setsZones = true → False := fun k => absurd (hc.symm.trans k) (by decide)
  exact
    { calm_zones s with
      check := fun _ _ _ h => h
      intake := fun _ _ _ h => h
      timing := fun _ _ _ h => h
      power := fun _ _ _ _ _ h => h
      loop := fun _ e u on params h => ⟨fun v z => (Ev.updUnit_zone_of_zones (f := fun r => { r with loopOn := on, loopParams := some params })
        (fun _ => rfl) v z).trans (h.1 v z), h.2⟩
      sweep := fun _ e u c v _ h => ⟨fun w z => (Ev.setConfig_zone _ w z).trans (h.1 w z), h.2⟩
      define := fun _ k => (hno k).elim
      curve := fun _ _ _ _ _ h => h
      zones := fun k => (hno k).elim
      orders := .of_units (fun _ _ o h => ⟨fun v z => (Ev.updUnit_zone_of_zones (f := fun r => { r with tracked := some o })
          (fun _ => rfl) v z).trans (h.1 v z), h.2⟩) fun _ _ w h =>
        ⟨fun v z => (Ev.updUnit_zone_of_zones (f := fun r => { r with waiting := some w }) (fun _ => rfl) v z).trans (h.1 v z), h.2⟩
      arbiter := .inr fun _ h => h.2
      port := fun _ _ _ _ _ h => h
      adopt := fun k => by obtain ⟨host, rfl⟩ := k; cases hc
      leave := fun _ _ _ _ _ _ h => h
      clear := fun k1 k2 => (hno (Instr.sets_of_clears k1 k2).2.2.2.1).elim }

/-- Settles O59: the settings and the zones, each with its frame. -/
theorem unitsChangeAtTheirOwnCommands : Obligations.UnitsChangeAtTheirOwnCommands := fun c s t ht =>
  ⟨fun hc => (frame_settings s hc).next (fun _ => ⟨rfl, rfl, rfl⟩) ht, fun hc => by
    obtain ⟨e, he, rfl⟩ := (frame_zones s hc).reaches ⟨fun _ _ => rfl, rfl⟩ ht
    exact he.1⟩

/-! ### The power of the lines -/

/-- Every line's power is that of a given state. -/
def State.PowerOf (s t : State) : Prop := ∀ n, (t.line n).power = (s.line n).power

theorem State.PowerOf.updLine {n : LineNo} {f : Line → Line} (hf : ∀ l, (f l).power = l.power) (h : s.PowerOf e.toState) :
    s.PowerOf (e.updLine n f).toState := fun m => by
  rw [Ev.updLine_line]
  split
  · exact (hf _).trans (h m)
  · exact h m

theorem State.PowerOf.grants {d e : Ev} (k : d.GrantsOnly e) (h : s.PowerOf d.toState) : s.PowerOf e.toState := fun n =>
  (k.line n).power.trans (h n)

theorem keeps_power (s : State) : Keeps (Ev.Is s.PowerOf) where
  quiet h k n := (k.still.line n).power.trans (h n)
  flush {e} h n := ((Ev.still_flush e).line n).power.trans (h n)
  due _ h := h
  change u z _ _ h := State.PowerOf.grants (Ev.grantsOnly_changeState u z _) h
  pend {e} u z k h := by
    unfold Ev.enterPending
    split
    · exact h
    · have h1 := State.PowerOf.updLine (n := u) (f := fun l => { l with pendingList := l.pendingList ++ [⟨z, k⟩] }) (fun _ => rfl)
        (State.PowerOf.grants (Ev.grantsOnly_changeState (e := e) u z .pending) h)
      exact h1
  fault {e} u z c h := by
    have h1 := State.PowerOf.grants (Ev.grantsOnly_changeState (e := e) u z .faulted) h
    exact h1
  grant _ h := State.PowerOf.grants (Ev.grantsOnly_grant _) h
  unit _ _ _ h := h
  target _ _ _ _ _ _ h := h

theorem frame_power (s : State) (hc : c.setsPower = false) : Frame (Ev.Is s.PowerOf) c := by
  have hno : c.setsPower = true → False := fun k => absurd (hc.symm.trans k) (by decide)
  exact
    { (keeps_power s).toCalm with
      check := fun _ _ _ h => h
      intake := fun _ _ _ h => h
      timing := fun _ _ _ h => h
      power := fun k => (hno k).elim
      loop := fun _ _ _ _ _ h => h
      sweep := fun _ _ _ _ _ _ h => h
      define := fun _ _ e u c _ _ h => by
        have h1 := State.PowerOf.updLine (e := e.updUnit u fun r => r.redefined c) (n := u) (f := fun l => l.redefined c.zoneCount)
          (fun _ => rfl) h
        unfold Ev.defineUnit
        dsimp only
        split
        · exact h1
        · exact h1
      curve := fun _ _ _ _ _ h => h
      zones := fun _ => ⟨keeps_power s, fun _ _ _ h => State.PowerOf.updLine (fun _ => rfl) h⟩
      orders := .of_units (fun _ _ _ h => h) fun _ _ _ h => h
      arbiter := .inl (keeps_power s)
      port := fun _ _ _ _ _ h => h
      adopt := fun _ _ _ _ _ h => h
      leave := fun _ _ _ _ _ _ h => h
      clear := fun k1 k2 => (hno (Instr.sets_of_clears k1 k2).2.2.2.2).elim }

/-- Settles O60 with the frame of the power states. -/
theorem linePowerChangesAtItsOwnCommands : Obligations.LinePowerChangesAtItsOwnCommands := fun _ s _ hc ht =>
  (frame_power s hc).next (fun _ => rfl) ht

end Sys2Proof.Machine
end

