-- ==== Sys2Proof/Proofs/OrderLaws.lean ====
section
/-! PROOFS. The law of R172, that a unit has one open order at most, and the law of the slots that open orders hold: they lie in the ring
of an ATTACHED part, and a part that is not ATTACHED has none. Both speak of the order fields of the unit records alone, which the moves
of zones keep and which a quiet event can only empty. -/

namespace Sys2Proof.Machine

variable {Q : State → Prop} {d e : Ev} {s t : State} {u : UnitNo}

/-! ### Laws of the order fields -/

/-- The order fields of a unit's record are those of another, or emptier. -/
theorem UnitRec.FewerOrders.of_eq {r r' : UnitRec} (ht : r'.tracked = r.tracked) (hw : r'.waiting = r.waiting) : r.FewerOrders r' :=
  ⟨.inr (congrArg _ ht), .inr (congrArg _ hw)⟩

theorem UnitRec.FewerOrders.tracked_isSome {r r' : UnitRec} (h : r.FewerOrders r') (k : r'.tracked.isSome) : r.tracked.isSome := by
  rcases h.tracked with h | h
  · rw [h] at k; cases k
  · rwa [← Option.isSome_map, ← h, Option.isSome_map]

theorem UnitRec.FewerOrders.waiting_isSome {r r' : UnitRec} (h : r.FewerOrders r') (k : r'.waiting.isSome) : r.waiting.isSome := by
  rcases h.waiting with h | h
  · rw [h] at k; cases k
  · rwa [← Option.isSome_map, ← h, Option.isSome_map]

/-- A property of the order fields, the ring offsets, the part state and the anchor copy. -/
structure OrderLaw (Q : State → Prop) : Prop where
  fewer : ∀ {s t : State}, (∀ u, (s.unit u).FewerOrders (t.unit u)) → t.port.state = s.port.state → t.port.anchor = s.port.anchor →
    s.port.RingKept t.port → Q s → Q t
  orders : OrderFree (Ev.Is Q)
  port : ∀ {s : State} {p : Port}, s.attached = false → p.state ≠ .attached → Q s → Q { s with port := p }
  adopt : ∀ {e : Ev} (a : Anchor), 0 < a.ringLength → e.attached = false → Ev.Is Q e → Ev.Is Q (e.adoptAnchor a)
  leave : ∀ {s : State} {p : Port}, (Ev.ofState s).Orderless → p.state ≠ .attached → Q s → Q { s with port := p }
  clear : ∀ {t : State}, t.Cleared → Q t

namespace OrderLaw

theorem same (hQ : OrderLaw Q) (h : Q s) (hunits : t.units = s.units) (hport : t.port = s.port) : Q t := by
  refine hQ.fewer (fun u => ?_) (by rw [hport]) (by rw [hport]) (by rw [hport]; exact .refl _) h
  rw [show t.unit u = s.unit u by simp only [State.unit, hunits]]
  exact .refl _

theorem updUnit (hQ : OrderLaw Q) (u : UnitNo) (f : UnitRec → UnitRec) (hf : (e.unit u).FewerOrders (f (e.unit u))) (h : Ev.Is Q e) :
    Ev.Is Q (e.updUnit u f) := by
  refine hQ.fewer (s := e.toState) (fun v => ?_) rfl rfl (.refl _) h
  rw [Ev.updUnit_unit]
  split
  · next k => exact k ▸ hf
  · exact .refl _

theorem grants (hQ : OrderLaw Q) (k : d.GrantsOnly e) (h : Ev.Is Q d) : Ev.Is Q e :=
  hQ.fewer (fun u => .of_eq (k.unit u).tracked (k.unit u).waiting) (by rw [k.port]) (by rw [k.port]) (by rw [k.port]; exact .refl _) h

theorem still (hQ : OrderLaw Q) (k : s.Still t) (h : Q s) : Q t :=
  hQ.fewer (fun u => (k.unit u).orders) k.portState k.anchor k.ring h

theorem law (hQ : OrderLaw Q) : Law Q where
  quiet h k := hQ.still k.still h
  flush h := hQ.still (Ev.still_flush _) h
  due _ h := h
  change u z _ _ h := hQ.grants (Ev.grantsOnly_changeState u z _) h
  pend {e} u z k h := by
    unfold Ev.enterPending
    split
    · exact h
    · exact hQ.same (hQ.grants (Ev.grantsOnly_changeState (e := e) u z .pending) h) rfl rfl
  fault {e} u z c h := by
    have h1 := hQ.updUnit (e := e.changeState u z .faulted) u (fun r =>
      { r with zones := r.zones.set z { r.zones[z] with faultCause := some c } }) (.of_eq rfl rfl)
      (hQ.grants (Ev.grantsOnly_changeState (e := e) u z .faulted) h)
    exact hQ.still (t := (e.enterFaulted u z c).toState) (Ev.Quiet.raise (.refl _) .zoneFault).still h1
  grant _ h := hQ.grants (Ev.grantsOnly_grant _) h
  unit u _ hf h := hQ.updUnit u _ (.of_eq hf.tracked hf.waiting) h
  target u _ _ _ _ _ h := hQ.updUnit u _ (.of_eq rfl rfl) h
  check _ _ h := hQ.same h rfl rfl
  intake _ _ h := hQ.same h rfl rfl
  timing _ _ h := hQ.same h rfl rfl
  power _ _ _ _ h := hQ.same h rfl rfl
  loop _ u _ _ h := hQ.updUnit u _ (.of_eq rfl rfl) h
  sweep _ u _ _ _ h := hQ.updUnit u _ (.of_eq rfl rfl) h
  define e u c _ _ h := by
    have h1 := hQ.updUnit u (fun r => r.redefined c) (.of_eq rfl rfl) h
    unfold Ev.defineUnit
    dsimp only
    split
    · exact hQ.same h1 rfl rfl
    · exact hQ.same h1 rfl rfl
  curve _ _ _ _ h := hQ.same h rfl rfl
  entry _ _ _ h := hQ.same h rfl rfl
  orders := hQ.orders
  port := hQ.port
  adopt := hQ.adopt
  leave h _ := hQ.leave h
  clear h _ _ := hQ.clear h
  host _ h := hQ.same h rfl rfl
  queue _ h := hQ.same h rfl rfl

end OrderLaw

/-! ### One open order -/

theorem orderLaw_oneOrderEach : OrderLaw State.oneOrderEach where
  fewer {s t} k _ _ _ h u hu := h u ⟨(k u).tracked_isSome hu.1, (k u).waiting_isSome hu.2⟩
  orders := ⟨fun _ _ _ => True, fun _ _ => trivial, fun _ _ => trivial, fun {e} u o _ hw h v => by
    rw [Ev.updUnit_unit]
    split
    · next k => subst k; rw [hw]; exact fun k => nomatch k.2
    · exact h v, fun {e} u w _ ht h v => by
    rw [Ev.updUnit_unit]
    split
    · next k => subst k; rw [ht]; exact fun k => nomatch k.1
    · exact h v⟩
  port _ _ h := h
  adopt _ _ _ h := h
  leave _ _ h := h
  clear h u := by rw [h.unit]; exact fun k => nomatch k.1

/-! ### The slots of open orders -/

/-- The slots that a unit's orders hold. -/
def UnitRec.slots (r : UnitRec) : List Nat := (r.tracked.map (·.slot)).toList ++ (r.waiting.map (·.order.slot)).toList

theorem UnitRec.FewerOrders.slots {r r' : UnitRec} (h : r.FewerOrders r') : r'.slots ⊆ r.slots := by
  refine List.append_subset.2 ⟨?_, ?_⟩
  · exact List.subset_append_of_subset_left _ (h.tracked.elim (fun h => by simp [h]) fun h => by rw [h]; exact List.Subset.refl _)
  · exact List.subset_append_of_subset_right _ (h.waiting.elim (fun h => by simp [h]) fun h => by rw [h]; exact List.Subset.refl _)

theorem State.mem_heldSlots {k : Nat} : k ∈ s.heldSlots ↔ ∃ u, k ∈ (s.unit u).slots := by
  simp [State.heldSlots, UnitRec.slots, ascending]

/-- A slot of the ring of an ATTACHED part. -/
def InRing (st : PartState) (anchor : Option Anchor) (k : Nat) : Prop := st = .attached ∧ ∀ a, anchor = some a → k < a.ringLength

/-- `State.slotsInRing`, as two facts that hold whatever the part state is. -/
structure State.OrdersInRing (s : State) : Prop where
  offsets : s.attached = true → InRing s.port.state s.port.anchor s.port.take ∧ InRing s.port.state s.port.anchor s.port.putValid
  slots : ∀ u, ∀ k ∈ (s.unit u).slots, InRing s.port.state s.port.anchor k

theorem State.ordersInRing_iff : s.OrdersInRing ↔ s.slotsInRing := by
  have hslots : (∀ u, ∀ k ∈ (s.unit u).slots, InRing s.port.state s.port.anchor k) ↔
      ∀ k ∈ s.heldSlots, InRing s.port.state s.port.anchor k := by
    simp only [State.mem_heldSlots]
    exact ⟨fun h k ⟨u, hu⟩ => h u k hu, fun h u k hu => h k ⟨u, hu⟩⟩
  rw [show s.OrdersInRing ↔ _ ∧ _ from ⟨fun h => ⟨h.1, h.2⟩, fun h => ⟨h.1, h.2⟩⟩, hslots]
  unfold State.slotsInRing State.attached InRing
  cases s.port.state with
  | attached =>
    cases s.port.anchor with
    | some a => simp [and_assoc]
    | none => simp
  | attaching => simp [List.eq_nil_iff_forall_not_mem]
  | detached => simp [List.eq_nil_iff_forall_not_mem]

theorem UnitRec.slots_of_tracked {r : UnitRec} {o : OrderRecord} : ({ r with tracked := some o }).slots ⊆ o.slot :: r.slots := by
  simp [UnitRec.slots]

theorem UnitRec.slots_of_waiting {r : UnitRec} {w : WaitingOrder} : ({ r with waiting := some w }).slots ⊆ w.order.slot :: r.slots := by
  simp [UnitRec.slots]

theorem UnitRec.slots_of_none {r : UnitRec} (h : r.tracked = none ∧ r.waiting = none) : r.slots = [] := by
  simp [UnitRec.slots, h.1, h.2]

/-- A unit takes up an order in the ring. -/
theorem State.OrdersInRing.takeUp {u : UnitNo} {k : Nat} {f : UnitRec → UnitRec} (hf : ∀ r, (f r).slots ⊆ k :: r.slots)
    (hk : InRing e.port.state e.port.anchor k) (h : Ev.Is State.OrdersInRing e) : Ev.Is State.OrdersInRing (e.updUnit u f) := by
  refine ⟨h.offsets, fun v j hj => ?_⟩
  rw [Ev.updUnit_unit] at hj
  split at hj
  · next i =>
    subst i
    rcases List.mem_cons.1 (hf _ hj) with rfl | hj
    · exact hk
    · exact h.slots _ j hj
  · exact h.slots v j hj

/-- With no order open, any offsets in the ring will do. -/
theorem State.OrdersInRing.of_orderless (h : (Ev.ofState s).Orderless)
    (ho : s.attached = true → InRing s.port.state s.port.anchor s.port.take ∧ InRing s.port.state s.port.anchor s.port.putValid) :
    s.OrdersInRing :=
  ⟨ho, fun u k hk => by
    rw [UnitRec.slots_of_none (r := s.unit u) (h u)] at hk
    exact absurd hk List.not_mem_nil⟩

theorem State.OrdersInRing.orderless (h : s.OrdersInRing) (ha : s.attached = false) : (Ev.ofState s).Orderless := by
  intro u
  have hnone : (s.unit u).slots = [] := List.eq_nil_iff_forall_not_mem.2 fun k hk => by
    have hs := (h.slots u k hk).1
    simp [State.attached, hs] at ha
  show (s.unit u).tracked = none ∧ (s.unit u).waiting = none
  simpa [UnitRec.slots] using hnone

theorem orderLaw_ordersInRing : OrderLaw State.OrdersInRing where
  fewer {s t} k hs ha hr h := by
    refine ⟨fun hatt => ?_, fun u i hi => ?_⟩
    · obtain ⟨ht, hp⟩ := h.offsets (by rwa [State.attached, ← hs])
      rw [hs, ha]
      exact ⟨⟨ht.1, fun a hx => (hr a hx).1 (ht.2 a hx)⟩, ⟨hp.1, fun a hx => (hr a hx).2 (hp.2 a hx)⟩⟩
    · rw [hs, ha]
      exact h.slots u i ((k u).slots hi)
  orders := ⟨InRing, fun ha h => (h.offsets ha).1,
    fun {e u w} h hw => h.slots u _ (by simp [UnitRec.slots, hw]),
    fun _ _ hk _ h => State.OrdersInRing.takeUp (fun _ => UnitRec.slots_of_tracked) hk h,
    fun _ _ hk _ h => State.OrdersInRing.takeUp (fun _ => UnitRec.slots_of_waiting) hk h⟩
  port ha hp h := .of_orderless (h.orderless ha) fun k => absurd k (by simpa [State.attached] using hp)
  adopt a hr ha h := .of_orderless (h.orderless ha) fun _ =>
    ⟨⟨rfl, fun b hb => by cases hb; exact hr⟩, ⟨rfl, fun b hb => by cases hb; exact hr⟩⟩
  leave h hp _ := .of_orderless h fun k => absurd k (by simpa [State.attached] using hp)
  clear {t} h := .of_orderless (fun u => by rw [show (Ev.ofState t).unit u = UnitRec.reset from h.unit u]; exact ⟨rfl, rfl⟩) fun k =>
    absurd k (by simp [State.attached, h.portState])

/-- Settles O56: both are laws of the order fields. -/
theorem oneOrderForEachUnit : Obligations.OneOrderForEachUnit := fun _ _ ht =>
  ⟨fun h => orderLaw_oneOrderEach.law.step h ht,
    fun h => State.ordersInRing_iff.1 (orderLaw_ordersInRing.law.step (State.ordersInRing_iff.2 h) ht)⟩

end Sys2Proof.Machine
end

