-- ==== Sys2Proof/Proofs/Writes.lean ====
section
/-! PROOFS. What the part writes at the end of an event: a mirror block owed shows its unit, and nothing else of the block is left; and
how R passes the final slots. -/

namespace Sys2Proof.Machine

variable {d e : Ev} {s t : State} {a : Anchor} {u v : UnitNo} {m : Memory}

/-! ### Words -/

theorem Memory.readWords_eq_map (m : Memory) (base n : Nat) :
    Memory.readWords m base n = (List.range n).map fun i => Memory.read m (base + i) := by
  induction n generalizing base with
  | zero => rfl
  | succ n ih =>
    rw [Memory.readWords, ih, List.range_succ_eq_map, List.map_cons, List.map_map]
    simp [Function.comp_def, Nat.add_assoc, Nat.add_comm 1]

/-- Words just written are read back. -/
theorem Memory.readWords_write (h : Memory.wf m = true) {base : Nat} {ws : List Word} (hb : base + ws.length ≤ Config.memoryWords) :
    Memory.readWords (Memory.write m base ws) base ws.length = ws := by
  rw [Memory.readWords_eq_map]
  refine List.ext_getElem (by simp) fun i h1 h2 => ?_
  rw [List.getElem_map, List.getElem_range, Memory.read_write _ _ _ _ h, if_pos (by omega)]
  simp [h2]

/-- Words that a write does not reach are read as before. -/
theorem Memory.readWords_write_apart (h : Memory.wf m = true) {base b n : Nat} {ws : List Word} (hb : b + n ≤ base ∨ base + ws.length ≤ b) :
    Memory.readWords (Memory.write m base ws) b n = Memory.readWords m b n :=
  Memory.readWords_congr fun x h1 h2 => Memory.read_write_outside _ _ _ _ h (by omega)

/-! ### Mirror blocks -/

/-- The regions of an anchor copy lie in the exchange memory and share no word. -/
structure Anchor.Sound (a : Anchor) : Prop where
  inMemory : a.regions.all Region.inMemory = true
  disjoint : disjointRegions (anchorRegion :: a.regions) = true

theorem State.Linked.sound (h : s.Linked a) : a.Sound := ⟨h.inMemory, h.disjoint⟩

theorem Anchor.Sound.block_inMemory (h : a.Sound) (u : UnitNo) : a.blockBase u + Config.blockWords ≤ Config.memoryWords := by
  have hm := h.inMemory
  simp [Anchor.regions, Region.inMemory, Config.slotWords, Config.mirrorWords, Config.statusWords, Config.memoryWords] at hm
  have hu := u.isLt
  simp only [Anchor.blockBase, Config.blockWords, Config.memoryWords]
  omega

/-- A mirror block and the status area share no word. -/
theorem Anchor.Sound.block_apart_status (h : a.Sound) {x : Nat} (hb : a.inBlock u x) : ¬a.inStatus x := by
  have hd := h.disjoint
  simp [Anchor.regions, disjointRegions, anchorRegion, Region.shares, Config.anchorWords, Config.slotWords, Config.mirrorWords,
    Config.statusWords] at hd
  have hu := u.isLt
  simp only [Anchor.inBlock, Anchor.blockBase, Anchor.inStatus, Config.blockWords, Config.statusWords] at hb ⊢
  omega

theorem Anchor.blocks_apart {x : Nat} (huv : u ≠ v) (hb : a.inBlock u x) : ¬a.inBlock v x := by
  have h : u.val ≠ v.val := fun k => huv (Fin.ext k)
  simp only [Anchor.inBlock, Anchor.blockBase, Config.blockWords] at hb ⊢
  omega

theorem Ev.writeMirror_count (e : Ev) (a : Anchor) (u v : UnitNo) :
    (e.writeMirror a u).port.updateCounts[v] = if u = v then e.port.updateCounts[u] + 2 else e.port.updateCounts[v] := by
  show (e.port.updateCounts.set u (e.port.updateCounts[u] + 2))[v] = _
  rw [Fin.getElem_fin, Vector.getElem_set]
  simp [Fin.ext_iff]

theorem Ev.writeMirror_mem (e : Ev) (a : Anchor) (u : UnitNo) : (e.writeMirror a u).mem =
    Memory.write (Memory.write (Memory.write e.mem (a.blockBase u) [e.port.updateCounts[u] + 1]) (a.blockBase u + 1) (blockWords (e.unit u)))
      (a.blockBase u) [e.port.updateCounts[u] + 2] := rfl

theorem Ev.writeMirror_wf (hw : Memory.wf e.mem = true) (a : Anchor) (u : UnitNo) : Memory.wf (e.writeMirror a u).mem = true :=
  Memory.write_wf _ _ _ (Memory.write_wf _ _ _ (Memory.write_wf _ _ _ hw))

theorem Ev.writeMirror_block (hw : Memory.wf e.mem = true) (ha : a.Sound) (u : UnitNo) :
    Memory.readWords (e.writeMirror a u).mem (a.blockBase u) Config.blockWords = mirrorBlock (e.port.updateCounts[u] + 2) (e.unit u) := by
  have hm := ha.block_inMemory u
  have hw1 := Memory.write_wf e.mem (a.blockBase u) [e.port.updateCounts[u] + 1] hw
  have hw2 := Memory.write_wf _ (a.blockBase u + 1) (blockWords (e.unit u)) hw1
  have hlen := blockWords_length (e.unit u)
  have hwords : ∀ m, Memory.readWords m (a.blockBase u) Config.blockWords
      = Memory.read m (a.blockBase u) :: Memory.readWords m (a.blockBase u + 1) 129 := fun _ => rfl
  simp only [Config.blockWords, Config.memoryWords] at hm
  rw [Ev.writeMirror_mem, hwords, mirrorBlock]
  congr 1
  · rw [Memory.read_write _ _ _ _ hw2, if_pos (by simp [Config.memoryWords]; omega)]
    simp
  · rw [Memory.readWords_write_apart hw2 (.inr (by exact Nat.le_refl _)), ← hlen]
    exact Memory.readWords_write hw1 (by rw [hlen]; simp only [Config.memoryWords]; omega)

theorem Ev.writeMirror_block_other (hw : Memory.wf e.mem = true) (huv : u ≠ v) :
    Memory.readWords (e.writeMirror a u).mem (a.blockBase v) Config.blockWords = Memory.readWords e.mem (a.blockBase v) Config.blockWords :=
  Memory.readWords_congr fun x h1 h2 =>
    (((Ev.Wrote.refl (W := fun x => ¬a.inBlock v x) e).writeMirror a u fun _ => Anchor.blocks_apart huv).mem hw).2 x
      (not_not.2 ⟨h1, h2⟩)

/-- Units one after another: each of the list has had its block written, and the others' stand. -/
theorem Ev.writeMirrors (ha : a.Sound) {l : List UnitNo} (hl : l.Nodup) (hw : Memory.wf e.mem = true) :
    let e' := l.foldl (fun e u => e.writeMirror a u) e
    Memory.wf e'.mem = true ∧ e'.units = e.units ∧ (∀ u ∈ l, e.toState.MirrorWritten e'.toState a u)
      ∧ (∀ u ∉ l, e'.port.updateCounts[u] = e.port.updateCounts[u]
        ∧ Memory.readWords e'.mem (a.blockBase u) Config.blockWords = Memory.readWords e.mem (a.blockBase u) Config.blockWords) := by
  induction l generalizing e with
  | nil => exact ⟨hw, rfl, fun u h => absurd h List.not_mem_nil, fun u _ => ⟨rfl, rfl⟩⟩
  | cons v l ih =>
    obtain ⟨hv, hl⟩ := List.nodup_cons.1 hl
    obtain ⟨ihw, ihu, ihin, ihout⟩ := ih hl (Ev.writeMirror_wf hw a v)
    rw [List.foldl_cons]
    refine ⟨ihw, ihu, fun u hu => ?_, fun u hu => ?_⟩
    · rcases eq_or_ne v u with rfl | k
      · obtain ⟨hcount, hblock⟩ := ihout v hv
        have hown := Ev.writeMirror_count e a v v
        rw [if_pos rfl] at hown
        refine ⟨hcount.trans hown, ?_⟩
        rw [hblock, Ev.writeMirror_block hw ha, hcount, hown]
        exact congrArg (mirrorBlock _) (congrArg (fun us : Vector UnitRec 16 => us[v]) ihu).symm
      · have h1 := ihin u ((List.mem_cons.1 hu).resolve_left fun j => k j.symm)
        exact ⟨h1.count.trans (by rw [Ev.writeMirror_count, if_neg k]), h1.block⟩
    · obtain ⟨h1, h2⟩ := not_or.1 (fun j => hu (List.mem_cons.2 j))
      obtain ⟨hcount, hblock⟩ := ihout u h2
      exact ⟨hcount.trans (by rw [Ev.writeMirror_count, if_neg (Ne.symm h1)]), hblock.trans (Ev.writeMirror_block_other hw (Ne.symm h1))⟩

theorem inOrder_nodup (l : List UnitNo) : (inOrder l).Nodup := (List.nodup_finRange 16).filter _

theorem mem_inOrder {l : List UnitNo} : u ∈ inOrder l ↔ u ∈ l := by simp [inOrder, ascending]

/-- The end of an event writes the mirror blocks it owes. -/
theorem Ev.flush_mirror (ha : e.attached = true) (hc : e.port.anchor = some a) (hs : a.Sound) (hw : Memory.wf e.mem = true)
    (hu : u ∈ e.mirrorDue) : e.toState.MirrorWritten e.flush.toState a u := by
  have hm := Ev.writeMirrors hs (inOrder_nodup e.mirrorDue) hw
  obtain ⟨hw1, _, hin, _⟩ := hm
  have h1 := hin u (mem_inOrder.2 hu)
  generalize hd : (inOrder e.mirrorDue).foldl (fun e u => e.writeMirror a u) e = d at hw1 h1
  have hlines : ∀ (l : List LineNo) (f : Ev), d.Wrote f a.inStatus → f.port = d.port →
      d.Wrote (l.foldl (fun e n => e.writeLine a n) f) a.inStatus ∧ (l.foldl (fun e n => e.writeLine a n) f).port = d.port := by
    intro l
    induction l with
    | nil => exact fun _ h k => ⟨h, k⟩
    | cons n l ih => exact fun f h k => ih _ (h.writeLine a (fun _ => id) n) k
  obtain ⟨hwrote, hport⟩ := hlines (inOrder e.lineDue) _ ((Ev.Wrote.refl d).writeChangedStatus a fun _ _ => id)
    (Ev.writeChangedStatus_port _ _)
  have hflush : ∀ f : Ev, f = (inOrder e.lineDue).foldl (fun e n => e.writeLine a n) (d.writeChangedStatus a) →
      e.flush.port = f.port ∧ e.flush.mem = f.mem ∧ e.flush.units = f.units := by
    rintro f rfl
    unfold Ev.flush
    rw [ha, hc]
    dsimp only
    rw [hd]
    exact ⟨rfl, rfl, rfl⟩
  obtain ⟨hp, hmem, hunits⟩ := hflush _ rfl
  refine ⟨by rw [hp, hport]; exact h1.count, ?_⟩
  have hblock : Memory.readWords e.flush.mem (a.blockBase u) Config.blockWords = Memory.readWords d.mem (a.blockBase u) Config.blockWords := by
    rw [hmem]
    exact Memory.readWords_congr fun x hx1 hx2 => (hwrote.mem hw1).2 x (hs.block_apart_status (u := u) ⟨hx1, hx2⟩)
  rw [hblock, h1.block, hp, hport]
  exact congrArg (mirrorBlock _) (congrArg (fun us : Vector UnitRec 16 => us[u]) (hunits.trans hwrote.units)).symm

/-! ### R and the final slots -/

/-- The walk of R stops at the first slot that is not final, and takes each one it passes out of the set. -/
theorem retireWalk_spec (length : Nat) (notice : Option Word) (fuel r : Nat) (finished : List Nat) (hit : Bool)
    (hf : finished.length ≤ fuel) :
    let w := retireWalk length notice fuel r finished hit
    let at_ (i : Nat) : Nat := (ringNext length)^[i] r
    ∃ k, w.1 = at_ k ∧ at_ k ∉ w.2.1 ∧ ((List.range k).map at_ ++ w.2.1).Perm finished
      ∧ (w.2.2 = true ↔ hit = true ∨ ∃ i < k, notice = some (wordOf (at_ (i + 1)))) := by
  induction fuel generalizing r finished hit with
  | zero =>
    have hnil : finished = [] := List.length_eq_zero_iff.1 (Nat.le_zero.1 hf)
    subst hnil
    exact ⟨0, rfl, List.not_mem_nil, .refl _, by simp [retireWalk]⟩
  | succ fuel ih =>
    unfold retireWalk
    by_cases hr : r ∈ finished
    · have hlen : (finished.erase r).length ≤ fuel := by
        rw [List.length_erase_of_mem hr]
        omega
      obtain ⟨k, h1, h2, h3, h4⟩ := ih (ringNext length r) (finished.erase r) (hit || notice == some (wordOf (ringNext length r))) hlen
      simp only [List.contains_iff_mem, hr, if_true]
      refine ⟨k + 1, h1, h2, ?_, h4.trans ?_⟩
      · rw [List.range_succ_eq_map, List.map_cons, List.map_map]
        exact (List.Perm.cons r h3).trans (List.perm_cons_erase hr).symm
      · rw [Bool.or_eq_true, beq_iff_eq, or_assoc]
        refine or_congr_right ⟨?_, ?_⟩
        · rintro (h | ⟨i, hi, h⟩)
          · exact ⟨0, by omega, h⟩
          · exact ⟨i + 1, by omega, h⟩
        · rintro ⟨i, hi, h⟩
          cases i with
          | zero => exact .inl h
          | succ i => exact .inr ⟨i, by omega, h⟩
    · simp only [List.contains_iff_mem, hr, if_false]
      exact ⟨0, rfl, hr, .refl _, by simp⟩

/-- A raise makes its cause pending and leaves the others. -/
theorem Ev.noticePending_raise (e : Ev) (n m : Notice) : (e.raise n).noticePending m = (e.noticePending m || decide (n = m)) := by
  show (e.port.notices ||| n.mask).getLsbD m.bit = (e.port.notices.getLsbD m.bit || _)
  rw [BitVec.getLsbD_or, Notice.mask]
  congr 1
  cases n <;> cases m <;> decide

theorem Ev.advanceRetire_retires (hw : Memory.wf e.mem = true) (a : Anchor) :
    let r (i : Nat) : Nat := (ringNext a.ringLength)^[i] e.port.retire
    ∃ k, (e.advanceRetire a).port.retire = r k ∧ r k ∉ (e.advanceRetire a).port.finished
      ∧ ((List.range k).map r ++ (e.advanceRetire a).port.finished).Perm e.port.finished
      ∧ (0 < k → Memory.read (e.advanceRetire a).mem 15 = wordOf (r k))
      ∧ ((e.advanceRetire a).noticePending .retireMark = true ↔ e.noticePending .retireMark = true
        ∨ ∃ i < k, e.port.noticeOffset = some (wordOf (r (i + 1))))
      ∧ (e.advanceRetire a).noticePending .flaggedOrder = e.noticePending .flaggedOrder := by
  obtain ⟨k, h1, h2, h3, h4⟩ := retireWalk_spec a.ringLength e.port.noticeOffset _ e.port.retire e.port.finished false le_rfl
  unfold Ev.advanceRetire
  dsimp only
  generalize retireWalk a.ringLength e.port.noticeOffset e.port.finished.length e.port.retire e.port.finished false = w at h1 h2 h3 h4
  split
  · have hread : Memory.read (Memory.write e.mem 15 [wordOf w.1]) 15 = wordOf w.1 := by
      rw [Memory.read_write _ _ _ _ hw, if_pos (by simp [Config.memoryWords])]
      rfl
    split
    · next hhit =>
      refine ⟨k, h1, h2, h3, fun _ => hread.trans (congrArg wordOf h1), iff_of_true ?_ (.inr ?_), ?_⟩
      · rw [Ev.noticePending_raise]
        exact Bool.or_true _
      · exact (h4.1 hhit).resolve_left (by decide)
      · rw [Ev.noticePending_raise]
        exact Bool.or_false _
    · next hhit =>
      refine ⟨k, h1, h2, h3, fun _ => hread.trans (congrArg wordOf h1), ?_, rfl⟩
      exact ⟨.inl, fun h => h.resolve_right fun j => hhit (h4.2 (.inr j))⟩
  · next hr =>
    refine ⟨0, rfl, by simpa using hr, .refl _, fun h => absurd h (by decide), ?_, rfl⟩
    exact ⟨.inl, fun h => h.resolve_right fun ⟨i, hi, _⟩ => absurd hi (by omega)⟩

/-- A slot that becomes final joins the set, and R passes what stands in front of it. -/
theorem Ev.slotFinal_retires (ha : e.attached = true) (hc : e.port.anchor = some a) (hw : Memory.wf e.mem = true) (slot : Nat)
    (notify : Bool) : e.toState.Retires (e.slotFinal slot notify).toState a slot notify := by
  have hset : (if e.port.finished.contains slot then e.port.finished else e.port.finished ++ [slot])
      = if slot ∈ e.port.finished then e.port.finished else e.port.finished ++ [slot] := by simp only [List.contains_iff_mem]
  unfold Ev.slotFinal State.Retires
  rw [ha, hc]
  dsimp only
  split
  · next hn =>
    obtain ⟨k, h1, h2, h3, h4, h5, h6⟩ := Ev.advanceRetire_retires (a := a) (e := Ev.raise (e.updPort fun p =>
      { p with finished := if p.finished.contains slot then p.finished else p.finished ++ [slot] }) .flaggedOrder) hw
    refine ⟨k, h1, h2, h3.trans (.of_eq hset), h4, h5.trans ?_, h6.trans ?_⟩
    · rw [Ev.noticePending_raise, show decide (Notice.flaggedOrder = .retireMark) = false from rfl, Bool.or_false]
      exact Iff.rfl
    · rw [Ev.noticePending_raise, hn]
      rfl
  · next hn =>
    obtain ⟨k, h1, h2, h3, h4, h5, h6⟩ := Ev.advanceRetire_retires (a := a) (e := e.updPort fun p =>
      { p with finished := if p.finished.contains slot then p.finished else p.finished ++ [slot] }) hw
    refine ⟨k, h1, h2, h3.trans (.of_eq hset), h4, h5, h6.trans ?_⟩
    rw [Bool.eq_false_iff.2 hn, Bool.or_false]
    rfl

end Sys2Proof.Machine
end

