-- ==== Sys2Proof/Proofs/Takes.lean ====
section
/-! PROOFS. The take of an order that moves no zone: its slot shows its status, T advances, a final slot is retired, and the mirror
blocks it owes are written (R12, R163, R164). A refused order is one that has not acted at all. -/

namespace Sys2Proof.Machine

open Decode

variable {d e : Ev} {s t : State} {host : List HostWrite} {a : Anchor} {slot : Slot} {st : Status} {x : Detail} {W : Nat → Prop} {c : Instr}

/-- The event of a command that the host's writes land with, as it finds the state. -/
def State.landed (s : State) (host : List HostWrite) : Ev := (Ev.ofState s.writesDone).hostWrites host

/-- R, the final slots in front of it, and the notices. -/
structure Port.SameRetire (p p' : Port) : Prop where
  retire : p'.retire = p.retire
  finished : p'.finished = p.finished
  noticeOffset : p'.noticeOffset = p.noticeOffset
  notices : p'.notices = p.notices

/-- The ring and the notices of the exchange port. -/
structure Port.SameRing (p p' : Port) : Prop extends p.SameRetire p' where
  state : p'.state = p.state
  anchor : p'.anchor = p.anchor
  take : p'.take = p.take

theorem Port.SameRing.refl (p : Port) : p.SameRing p := ⟨⟨rfl, rfl, rfl, rfl⟩, rfl, rfl, rfl⟩

theorem Port.SameRetire.trans {p q r : Port} (h : p.SameRetire q) (k : q.SameRetire r) : p.SameRetire r :=
  ⟨k.1.trans h.1, k.2.trans h.2, k.3.trans h.3, k.4.trans h.4⟩

/-- An order has acted, and owes neither an arbiter run nor a completion test; `W` names the words it has written and owes. -/
structure Ev.Acted (s : State) (host : List HostWrite) (a : Anchor) (e : Ev) (W : Nat → Prop) : Prop where
  ring : s.port.SameRing e.port
  wf : Memory.wf e.mem = true
  arbiterDue : e.arbiterDue = false
  testDue : e.testDue = []
  mirrors : ∀ u ∈ e.mirrorDue, ∀ y, a.inBlock u y → W y
  status : ¬e.SameStatus ∨ e.lineDue ≠ [] → ∀ y, a.inStatus y → W y
  inRegions : ∀ y, W y → a.inMirror y ∨ a.inStatus y
  rest : ∀ y, ¬W y → Memory.read e.mem y = Memory.read (Memory.hostWrites s.mem host) y

/-- What the take of such an order leaves. -/
structure Ev.Finished (s : State) (host : List HostWrite) (a : Anchor) (slot : Slot) (st : Status) (x : Detail) (W : Nat → Prop) (e : Ev)
    (t : State) : Prop where
  taken : TakenWith s t host a st x W
  blocks : e.toState.SameBlocks t
  port : e.port.Kept t.port
  retires : st.final = true → s.Retires t a s.port.take slot.notify
  mirror : ∀ u ∈ e.mirrorDue, e.toState.MirrorWritten t a u

theorem Ev.finishTake_counts (e : Ev) (k : Nat) (notify : Bool) (st : Status) (x : Detail) :
    (e.finishTake k notify st x).port.updateCounts = e.port.updateCounts := by
  have hstatus : (e.writeStatus k st x).port = e.port := by unfold Ev.writeStatus; split <;> rfl
  have htake : ∀ f : Ev, f.advanceTake.port.updateCounts = f.port.updateCounts := fun f => by unfold Ev.advanceTake; split <;> rfl
  have hretire : ∀ (f : Ev) (b : Anchor), (f.advanceRetire b).port.updateCounts = f.port.updateCounts := fun f b => by
    unfold Ev.advanceRetire
    dsimp only
    split
    · split <;> rfl
    · rfl
  have hfinal : ∀ f : Ev, (f.slotFinal k notify).port.updateCounts = f.port.updateCounts := fun f => by
    unfold Ev.slotFinal
    split
    · dsimp only
      rw [hretire]
      split <;> rfl
    · rfl
  unfold Ev.finishTake
  dsimp only
  split
  · rw [hfinal, htake, hstatus]
  · rw [htake, hstatus]

theorem State.Retires.congr {s' t' : State} {k : Nat} {notify : Bool} (h : s'.Retires t' a k notify) (hs : s.port.SameRetire s'.port)
    (ht : t'.port.SameRetire t.port) (hm : Memory.read t.mem 15 = Memory.read t'.mem 15) : s.Retires t a k notify := by
  obtain ⟨i, h1, h2, h3, h4, h5, h6⟩ := h
  simp only [State.Retires, State.noticePending, hs.retire, hs.finished, hs.noticeOffset, hs.notices, ht.retire, ht.finished, ht.notices,
    hm] at h1 h2 h3 h4 h5 h6 ⊢
  exact ⟨i, h1, h2, h3, h4, h5, h6⟩

/-- The status of a slot and the offset T move nothing that R looks at. -/
theorem Ev.advanceTake_ring (hc : e.port.anchor = some a) (k : Nat) (st : Status) (x : Detail) :
    let e' := (e.writeStatus k st x).advanceTake
    e.port.SameRetire e'.port ∧ e'.port.anchor = some a ∧ e'.attached = e.attached
      ∧ (Memory.wf e.mem = true → Memory.wf e'.mem = true) := by
  have hstatus : (e.writeStatus k st x).port = e.port ∧ (Memory.wf e.mem = true → Memory.wf (e.writeStatus k st x).mem = true) := by
    unfold Ev.writeStatus
    split
    · exact ⟨rfl, fun h => Memory.write_wf _ _ _ (Memory.write_wf _ _ _ h)⟩
    · exact ⟨rfl, id⟩
  obtain ⟨hp, hw⟩ := hstatus
  dsimp only
  generalize e.writeStatus k st x = f at hp hw ⊢
  unfold Ev.advanceTake
  rw [hp, hc]
  refine ⟨⟨?_, ?_, ?_, ?_⟩, ?_, ?_, fun h => Memory.write_wf _ _ _ (hw h)⟩
  all_goals simp only [Ev.writeWords_port, Ev.updPort_port, hp, hc, State.attached]

/-- A final status retires the slot. -/
theorem Ev.finish_retires (hring : s.port.SameRing e.port) (ha : e.attached = true) (hc : e.port.anchor = some a) (hw : Memory.wf e.mem = true)
    (hst : st.final = true) : s.Retires (e.finish slot st x).toState a s.port.take slot.notify := by
  obtain ⟨h1, h2, h3, h4⟩ := Ev.advanceTake_ring hc e.port.take st x
  unfold Ev.finish Ev.finishTake
  dsimp only
  rw [if_pos hst, hring.take]
  rw [hring.take] at h1 h2 h3 h4
  generalize (e.writeStatus s.port.take st x).advanceTake = f at h1 h2 h3 h4 ⊢
  exact (Ev.slotFinal_retires (h3.trans ha) h2 (h4 hw) s.port.take slot.notify).congr (hring.toSameRetire.trans h1) ⟨rfl, rfl, rfl, rfl⟩ rfl

/-- The take of an order that has acted. -/
theorem State.Due.finished (h : s.Due host a slot) (hq : e.Acted s host a W) (st : Status) (x : Detail) :
    e.Finished s host a slot st x W (e.finish slot st x).settle.toState := by
  have ha : e.attached = true := by rw [State.attached, hq.ring.state, h.attached]; rfl
  have hc : e.port.anchor = some a := hq.ring.anchor.trans h.anchor
  obtain ⟨htaken, hwrote, hended⟩ := h.taken (st := st) (x := x) hq.ring.take ha hc hq.wf hq.arbiterDue hq.testDue hq.mirrors hq.status
    hq.inRegions hq.rest
  have hsettle : (e.finish slot st x).settle = ({ e.finish slot st x with testDue := [] } : Ev).flush := by
    have h1 : (e.finish slot st x).settleArbiter = e.finish slot st x := by simp [Ev.settleArbiter, hended.arbiterDue, hq.arbiterDue]
    have h2 : (e.finish slot st x).runTests = { e.finish slot st x with testDue := [] } := by
      simp [Ev.runTests, hended.testDue, hq.testDue, inOrder]
    unfold Ev.settle
    rw [h1, h2]
  obtain ⟨p1, p2, _⟩ := Anchor.slot_apart h.disjoint h.inMemory h.inRing
  have hwf : Memory.wf (e.finish slot st x).mem = true :=
    (Ev.finishTake_words (e := e) a e.port.take slot.notify st x ha hc hq.wf (by rw [hq.ring.take]; exact p1)
      (by rw [hq.ring.take]; exact p2)).1
  have hcounts : (e.finish slot st x).port.updateCounts = e.port.updateCounts := Ev.finishTake_counts _ _ _ _ _
  refine ⟨htaken, ?_, ?_, fun hst => ?_, fun u hu => ?_⟩
  · exact { curves := hwrote.curves.trans hended.curves, lines := hwrote.lines.trans hended.lines,
            partGrants := hwrote.partGrants.trans hended.partGrants, pointer := hwrote.pointer.trans hended.pointer,
            check := hwrote.check.trans hended.check, intake := hwrote.intake.trans hended.intake,
            timing := hwrote.timing.trans hended.timing, scanPulses := hwrote.scanPulses.trans hended.scanPulses,
            pending := hwrote.pending.trans hended.pending, units := hwrote.units.trans hended.units }
  · refine hended.port.trans ?_
    rw [hwrote.port]
    exact ⟨rfl, rfl, rfl, rfl, rfl, rfl, rfl, BitVec.and_self, rfl, rfl, rfl, rfl, rfl, rfl, rfl, rfl, rfl, rfl⟩
  · have h15 : ¬W 15 := fun k => (hq.inRegions _ k).elim (Anchor.offsets_apart h.disjoint (by omega)).1
      (Anchor.offsets_apart h.disjoint (by omega)).2
    refine (Ev.finish_retires hq.ring ha hc hq.wf hst).congr (Port.SameRing.refl _).toSameRetire ?_ ((hwrote.mem hwf).2 _ h15)
    rw [hwrote.port]
    exact ⟨rfl, rfl, rfl, rfl⟩
  · have hatt : (e.finish slot st x).attached = true := by rw [State.attached, hended.port.state]; exact ha
    have hm := Ev.flush_mirror (e := { e.finish slot st x with testDue := [] }) hatt (hended.port.anchor.trans hc) h.sound hwf
      (by rw [show Ev.mirrorDue { e.finish slot st x with testDue := [] } = e.mirrorDue from hended.mirrorDue]; exact hu)
    rw [← hsettle] at hm
    exact ⟨by rw [← hcounts]; exact hm.count, hm.block⟩

/-- An order that has left the port and the exchange memory alone. -/
theorem State.Due.acted (h : s.Due host a slot) (hport : e.port = s.port) (hmem : e.mem = Memory.hostWrites s.mem host)
    (harbiter : e.arbiterDue = false) (htest : e.testDue = []) (hmirrors : ∀ u ∈ e.mirrorDue, ∀ y, a.inBlock u y → W y)
    (hstatus : ¬e.SameStatus ∨ e.lineDue ≠ [] → ∀ y, a.inStatus y → W y) (hW : ∀ y, W y → a.inMirror y ∨ a.inStatus y) :
    e.Acted s host a W :=
  ⟨by rw [hport]; exact .refl _, by rw [hmem]; exact Memory.hostWrites_wf _ _ h.wf, harbiter, htest, hmirrors, hstatus, hW,
    fun _ _ => by rw [hmem]⟩

/-- An order that has changed nothing that the mirror or the status area shows. -/
theorem State.Due.acted_unseen (h : s.Due host a slot) (hport : e.port = s.port) (hmem : e.mem = Memory.hostWrites s.mem host)
    (harbiter : e.arbiterDue = false) (htest : e.testDue = []) (hmirrors : e.mirrorDue = []) (hlines : e.lineDue = [])
    (hstatus : e.SameStatus) : e.Acted s host a fun _ => False :=
  h.acted hport hmem harbiter htest (fun _ k => absurd (hmirrors ▸ k) List.not_mem_nil)
    (fun k => k.elim (fun k => absurd hstatus k) fun k => absurd hlines k) fun _ k => k.elim

/-- An order that has not acted. -/
theorem State.Due.landed_acted (h : s.Due host a slot) : (s.landed host).Acted s host a fun _ => False :=
  h.acted_unseen rfl rfl rfl rfl rfl rfl ⟨rfl, rfl, rfl, fun _ => rfl⟩

theorem State.SameBlocks.of_landed (h : (s.landed host).toState.SameBlocks t) : s.SameBlocks t :=
  ⟨⟨h.curves, h.lines, h.partGrants, h.pointer, h.check, h.intake, h.timing, h.scanPulses, h.pending⟩, h.units⟩

/-! ### Rows -/

theorem ofKind_eq {k : OrderKind} : ofKind k slot = true ↔ slot.kind = some k := by simp [ofKind]

/-- A row takes the slot that is due when it is one of the row's. -/
theorem State.Due.taken_by (h : s.Due host a slot) (run : State → Host.Outcome State Fault Refusal) (hexec : exec c s = run s)
    {applies : Slot → Bool} {f : Anchor → Slot → Ev → Ev} (hrun : run s = takeOrder host applies f s) (happ : applies slot = true)
    (hf : f a slot (s.landed host) = e) : exec c s = .next e.settle.toState := by
  rw [hexec, hrun, takeOrder_due h happ, ← hf]
  rfl

/-- A row that refuses the slot. -/
theorem State.Due.refused (h : s.Due host a slot) (run : State → Host.Outcome State Fault Refusal) (hexec : exec c s = run s)
    {applies : Slot → Bool} {f : Anchor → Slot → Ev → Ev} {r : Reason} (hrun : run s = takeOrder host applies f s) (happ : applies slot = true)
    (hf : f a slot (s.landed host) = (s.landed host).refuse slot r) : RefusedWith s c host a r := by
  have hF := h.finished h.landed_acted .refused ((s.landed host).refusalDetail slot r)
  have hslot := h.holds
  subst hslot
  exact ⟨_, h.taken_by run hexec hrun happ hf, hF.taken, hF.blocks.of_landed, hF.port, hF.retires rfl⟩

end Sys2Proof.Machine
end

