-- ==== Sys2Proof/Proofs/ImmediateOrders.lean ====
section
/-! PROOFS. Refusals and the immediate orders that move no zone (10.6): each is a take of an order that has changed its own block
alone. -/

namespace Sys2Proof.Machine

open Decode

variable {e : Ev} {s : State} {host : List HostWrite} {a : Anchor} {slot : Slot} {u : UnitNo}

/-! ### Refusals -/

theorem Ev.onUnit_none {f : UnitNo → Ev} (h : slot.unit? = none) : e.onUnit slot f = e.refuse slot .badUnit := by
  rw [Ev.onUnit, h]

theorem Ev.onUnit_some {f : UnitNo → Ev} (h : slot.unit? = some u) : e.onUnit slot f = f u := by rw [Ev.onUnit, h]

theorem Ev.onDefined_badUnit {f : UnitNo → UnitConfig → Ev} (h : slot.unit? = none) : e.onDefined slot f = e.refuse slot .badUnit :=
  Ev.onUnit_none h

theorem Ev.linePower_badUnit (h : slot.unit? = none) : e.linePower slot = e.refuse slot .badUnit := Ev.onUnit_none h

theorem Ev.onDefined_none {f : UnitNo → UnitConfig → Ev} (h : slot.unit? = some u) (hc : (e.unit u).config = none) :
    e.onDefined slot f = e.refuse slot .unitUndefined := by
  rw [Ev.onDefined, Ev.onUnit_some h, hc]

theorem Ev.onDefined_some {f : UnitNo → UnitConfig → Ev} {c : UnitConfig} (h : slot.unit? = some u) (hc : (e.unit u).config = some c) :
    e.onDefined slot f = f u c := by
  rw [Ev.onDefined, Ev.onUnit_some h, hc]

/-- A CHECK LINES with either line outside 1 to 16 is refused. -/
theorem execCheckLines_badUnit (h : s.Due host a slot) (happ : ofKind .checkLines slot = true)
    (hb : slot.unit? = none ∨ unitOfNumber (wholeWord slot 3) = none) : RefusedWith s (.checkLines host) host a .badUnit := by
  refine h.refused (execCheckLines host) rfl rfl happ ?_
  cases hu : slot.unit? with
  | none => rfl
  | some n =>
    rw [hb.resolve_left (by rw [hu]; exact nofun)]

/-- Settles O12: each row looks at the unit before it acts. -/
theorem refusedOrdersChangeNothing : Obligations.RefusedOrdersChangeNothing := by
  intro host s a slot h
  refine ⟨fun hk => ?_, fun hk hb => execCheckLines_badUnit h (ofKind_eq.2 hk) (.inr hb), fun r hr happ hu => ?_, fun r hr happ u hu hc => ?_⟩
  · exact h.refused (execUnknownKind host) rfl rfl (by rw [hk]; rfl) rfl
  · simp only [unitRows, List.mem_cons, List.not_mem_nil, or_false] at hr
    obtain rfl | rfl | rfl | rfl | rfl | rfl | rfl | rfl | rfl | rfl | rfl | rfl | rfl | rfl := hr
    · exact h.refused (execDefineUnit host) rfl rfl happ (Ev.onUnit_none hu)
    · exact h.refused (execSetLoop host) rfl rfl happ (Ev.onDefined_badUnit hu)
    · exact h.refused (execSetWatch host) rfl rfl happ (Ev.onUnit_none hu)
    · exact h.refused (takeRange .hold (fun u e z => e.holdZone u z) host) rfl rfl happ (Ev.onDefined_badUnit hu)
    · exact h.refused (takeRange .release (fun u e z => e.releaseZone u z) host) rfl rfl happ (Ev.onDefined_badUnit hu)
    · exact h.refused (takeRange .clearFault (fun u e z => e.clearZone u z) host) rfl rfl happ (Ev.onDefined_badUnit hu)
    · exact h.refused (execAbort host) rfl rfl happ (Ev.onUnit_none hu)
    · exact h.refused (execPreset host) rfl rfl happ (Ev.onDefined_badUnit hu)
    · exact h.refused (execTrim host) rfl rfl happ (Ev.onDefined_badUnit hu)
    · exact h.refused (execSweep host) rfl rfl happ (Ev.onDefined_badUnit hu)
    · exact h.refused (execZero host) rfl rfl happ (Ev.onDefined_badUnit hu)
    · exact h.refused (execLinePowerOn host) rfl rfl happ (Ev.linePower_badUnit hu)
    · exact h.refused (execLinePowerOff host) rfl rfl happ (Ev.linePower_badUnit hu)
    · exact execCheckLines_badUnit h happ (.inl hu)
  · simp only [definedUnitRows, List.mem_cons, List.not_mem_nil, or_false] at hr
    obtain rfl | rfl | rfl | rfl | rfl | rfl | rfl | rfl := hr
    · exact h.refused (execSetLoop host) rfl rfl happ (Ev.onDefined_none hu hc)
    · exact h.refused (takeRange .hold (fun u e z => e.holdZone u z) host) rfl rfl happ (Ev.onDefined_none hu hc)
    · exact h.refused (takeRange .release (fun u e z => e.releaseZone u z) host) rfl rfl happ (Ev.onDefined_none hu hc)
    · exact h.refused (takeRange .clearFault (fun u e z => e.clearZone u z) host) rfl rfl happ (Ev.onDefined_none hu hc)
    · exact h.refused (execPreset host) rfl rfl happ (Ev.onDefined_none hu hc)
    · exact h.refused (execTrim host) rfl rfl happ (Ev.onDefined_none hu hc)
    · exact h.refused (execSweep host) rfl rfl happ (Ev.onDefined_none hu hc)
    · exact h.refused (execZero host) rfl rfl happ (Ev.onDefined_none hu hc)

/-! ### Orders of one block -/

/-- A row that ends its slot DONE. -/
theorem State.Due.done_by {c : Instr} (h : s.Due host a slot) (run : State → Host.Outcome State Fault Refusal) (hexec : exec c s = run s)
    {applies : Slot → Bool} {f : Anchor → Slot → Ev → Ev} (hrun : run s = takeOrder host applies f s) (happ : applies slot = true)
    (hf : f a slot (s.landed host) = e.done slot) {W : Nat → Prop} (hq : e.Acted s host a W) :
    ∃ t, exec c s = .next t ∧ e.Finished s host a slot .done (Detail.only 0) W t :=
  ⟨_, h.taken_by run hexec hrun happ hf, h.finished hq .done (Detail.only 0)⟩

theorem nonDecreasing_iff (l : List Nat) : nonDecreasing l = true ↔ l.Pairwise (· ≤ ·) := by
  rw [← List.isChain_iff_pairwise]
  induction l with
  | nil => simp [nonDecreasing]
  | cons x l ih =>
    cases l with
    | nil => simp [nonDecreasing]
    | cons y l => simp [nonDecreasing, ih]

theorem curveValid_iff {v : Vector Nat 11} :
    curveValid v = true ↔ (∀ i : Fin 11, v[i] ≤ 1000) ∧ ∀ i j : Fin 11, i < j → v[i] ≤ v[j] := by
  rw [curveValid, Bool.and_eq_true, nonDecreasing_iff, List.pairwise_iff_get, List.all_eq_true]
  refine and_congr ⟨fun h i => ?_, fun h y hy => ?_⟩ ⟨fun h i j hij => ?_, fun h i j hij => ?_⟩
  · simpa using h v[i] (by simp)
  · obtain ⟨i, hi, rfl⟩ := List.getElem_of_mem hy
    simpa using h ⟨i, by simpa using hi⟩
  · simpa using h (Fin.cast (by simp) i) (Fin.cast (by simp) j) hij
  · simpa using h (Fin.cast (by simp) i) (Fin.cast (by simp) j) hij

/-- Settles O14: the row looks at the number, the flag and the ordinates, in this order. -/
theorem loadCurveReplacesOneCurve : Obligations.LoadCurveReplacesOneCurve := by
  intro host s a slot h hk
  have happ := ofKind_eq.2 hk
  refine ⟨fun hbad => ?_, fun n hn hflag => ⟨fun hbad => ?_, fun hgood => ?_⟩⟩
  · refine h.refused (execLoadCurve host) rfl rfl happ ?_
    split
    · next hlt => rw [if_pos (hbad.resolve_left (Nat.not_le.2 hlt))]
    · rfl
  · have hcurve : ¬curveValid (curveOrdinates slot) = true := by
      rw [curveValid_iff]
      rintro ⟨h1, h2⟩
      obtain ⟨i, hi | ⟨j, hij, hj⟩⟩ := hbad
      · exact absurd (h1 i) (Nat.not_le.2 hi)
      · exact absurd (h2 i j hij) (Nat.not_le.2 hj)
    refine h.refused (execLoadCurve host) rfl rfl happ ?_
    rw [dif_pos (by omega), if_neg (by simp [hflag]), if_neg hcurve]
  · have hcurve : curveValid (curveOrdinates slot) = true :=
      curveValid_iff.2 ⟨fun i => (hgood i).1, fun i j hij => (hgood i).2 j hij⟩
    have hlt : wholeWord slot 3 < 8 := by omega
    obtain ⟨t, ht, hF⟩ := h.done_by (c := .loadCurve host) (execLoadCurve host) rfl rfl happ
      (e := { s.landed host with curves := s.curves.set n.val (curveOrdinates slot) })
      (by
        rw [dif_pos hlt, if_neg (by simp [hflag]), if_pos hcurve]
        simp only [hn]
        rfl)
      (h.acted_unseen rfl rfl rfl rfl rfl rfl ⟨rfl, rfl, rfl, fun _ => rfl⟩)
    exact ⟨t, ht, hF.taken, hF.blocks.curves, hF.blocks.units, hF.blocks.lines, hF.blocks.partGrants, hF.blocks.pointer, hF.blocks.check,
      hF.blocks.intake, hF.blocks.timing, hF.blocks.scanPulses, hF.blocks.pending, hF.port⟩

/-- Settles O17: the entry is the intake's, and the status area shows it. -/
theorem setWatchWritesOneEntry : Obligations.SetWatchWritesOneEntry := by
  intro host s a slot u h hk hu
  have happ := ofKind_eq.2 hk
  refine ⟨fun hbad => ?_, fun k on low high hops => ?_⟩
  · refine h.refused (execSetWatch host) rfl rfl happ ?_
    rw [Ev.onUnit_some hu, hbad]
  · obtain ⟨t, ht, hF⟩ := h.done_by (c := .setWatch host) (execSetWatch host) rfl rfl happ (W := a.inStatus)
      (e := (s.landed host).updIntake fun i => { i with watches := i.watches.set k (Watch.written on u low high) })
      (by rw [Ev.onUnit_some hu, hops])
      (h.acted rfl rfl rfl rfl (fun _ k => absurd k List.not_mem_nil) (fun _ _ => id) fun _ => .inr)
    have hintake : t.intake = { s.intake with watches := s.intake.watches.set k (Watch.written on u low high) } := hF.blocks.intake
    refine ⟨t, ht, hF.taken, by rw [hintake], ?_, fun j hj => ?_, hF.blocks.units, hF.blocks.curves, hF.blocks.lines, hF.blocks.partGrants,
      hF.blocks.pointer, hF.blocks.check, hF.blocks.timing, hF.blocks.scanPulses, hF.blocks.pending, hF.port⟩
    · rw [hintake]
      simp [Watch.written]
    · rw [hintake]
      have hj' : k.val ≠ j.val := fun i => hj (Fin.ext i).symm
      simp [hj']

/-- Settles O18: the mask alone changes. -/
theorem setNoticesReplacesTheMask : Obligations.SetNoticesReplacesTheMask := by
  intro host s a slot h hk
  have happ := ofKind_eq.2 hk
  refine ⟨fun hbad => h.refused (execSetNotices host) rfl rfl happ (if_pos hbad), fun hgood => ?_⟩
  obtain ⟨t, ht, hF⟩ := h.done_by (c := .setNotices host) (execSetNotices host) rfl rfl happ (W := fun _ => False)
    (e := (s.landed host).updPort fun p => { p with mask := (slot.word 3).setWidth 10 })
    (if_neg (by simp [hgood]))
    ⟨⟨⟨rfl, rfl, rfl, rfl⟩, rfl, rfl, rfl⟩, Memory.hostWrites_wf _ _ h.wf, rfl, rfl, fun _ k => absurd k List.not_mem_nil,
      fun k => k.elim (fun k => absurd ⟨rfl, rfl, rfl, fun _ => rfl⟩ k) fun k => absurd rfl k, fun _ k => k.elim, fun _ _ => rfl⟩
  have hmask : t.port.mask = (slot.word 3).setWidth 10 := hF.port.mask
  refine ⟨t, ht, hF.taken, .of_landed (host := host) ⟨⟨hF.blocks.curves, hF.blocks.lines, hF.blocks.partGrants, hF.blocks.pointer,
    hF.blocks.check, hF.blocks.intake, hF.blocks.timing, hF.blocks.scanPulses, hF.blocks.pending⟩, hF.blocks.units⟩, fun n => ?_, ?_⟩
  · rw [hmask, BitVec.getLsbD_setWidth]
    cases n <;> rfl
  · have hport := hF.port
    rw [Ev.updPort_port, ← hmask] at hport
    exact hport

theorem Intake.switchOn_eq (i : Intake) : i.switchOn = { i with setting := if i.setting = .off then .armed else i.setting } := by
  cases h : i.setting <;> simp [Intake.switchOn, h] <;> cases i <;> simp_all

/-- An INTAKE order that is not refused. -/
theorem Ev.intakeOrder_done (h : s.Due host a slot) {c : Instr} (run : State → Host.Outcome State Fault Refusal) (hexec : exec c s = run s)
    {applies : Slot → Bool} (hrun : run s = takeOrder host applies (fun _ slot e => e.intakeOrder slot) s) (happ : applies slot = true)
    {f : Intake → Intake} (hf : (s.landed host).intakeOrder slot = ((s.landed host).updIntake f).done slot) :
    ∃ t, exec c s = .next t ∧ TakenWith s t host a .done (Detail.only 0) a.inStatus ∧ t.intake = f s.intake
      ∧ t.units = s.units ∧ t.curves = s.curves ∧ t.lines = s.lines ∧ t.partGrants = s.partGrants ∧ t.pointer = s.pointer
      ∧ t.check = s.check ∧ t.timing = s.timing ∧ t.scanPulses = s.scanPulses ∧ t.pending = s.pending ∧ s.port.Kept t.port := by
  obtain ⟨t, ht, hF⟩ := h.done_by run hexec hrun happ hf (W := a.inStatus)
    (h.acted rfl rfl rfl rfl (fun _ k => absurd k List.not_mem_nil) (fun _ _ => id) fun _ => .inr)
  exact ⟨t, ht, hF.taken, hF.blocks.intake, hF.blocks.units, hF.blocks.curves, hF.blocks.lines, hF.blocks.partGrants,
    hF.blocks.pointer, hF.blocks.check, hF.blocks.timing, hF.blocks.scanPulses, hF.blocks.pending, hF.port⟩

theorem settingOperand_wholeWord {b : Bool} (h : settingOperand slot = some b) : wholeWord slot 3 = if b then 1 else 0 := by
  unfold settingOperand at h
  split at h
  · exact nomatch h
  · unfold flagOfCode at h
    split at h <;> simp_all

/-- Settles O20: the setting is the intake's, and the status area shows it. -/
theorem intakeOrderSwitches : Obligations.IntakeOrderSwitches := by
  intro host s a slot h hk
  have happ := ofKind_eq.2 hk
  refine ⟨fun hon => ?_, fun hoff => ?_, fun hbad => ⟨fun hw => ?_, fun hw => ?_⟩⟩
  · rw [← Intake.switchOn_eq]
    refine Ev.intakeOrder_done h (execIntakeOn host) rfl rfl ?_ (by rw [Ev.intakeOrder, hon])
    simp [happ, settingOperand_wholeWord hon]
  · refine Ev.intakeOrder_done h (execIntakeOff host) rfl rfl ?_ (f := Intake.switchOff) (by rw [Ev.intakeOrder, hoff])
    simp [happ, settingOperand_wholeWord hoff]
  · refine h.refused (execIntakeOn host) rfl rfl ?_ (by rw [Ev.intakeOrder, hbad])
    simp [happ, hw]
  · refine h.refused (execIntakeOff host) rfl rfl ?_ (by rw [Ev.intakeOrder, hbad])
    simp [happ, hw]

/-! ### SET TIMING -/

/-- A counter load judges every WAITING order by the loaded counter (R147). -/
theorem Ev.loadCounter_unit (e : Ev) (load : Option Sheet) (u : UnitNo) : (e.loadCounter load).unit u = { e.unit u with
    waiting := match load with
      | some v => (e.unit u).waiting.map fun w => { w with released := decide (0 ≤ (v - w.atSheet).toInt) }
      | none => (e.unit u).waiting } := by
  cases load with
  | none => rfl
  | some v =>
    show (Vector.ofFn _)[u] = _
    simp [atOrAfter, State.unit]

/-- The press timing unit after the parts of a SET TIMING (R146). -/
def Timing.applied (t : Timing) (o : TimingOperands) : Timing :=
  { (t.setInterval o.interval).setWatch o.watch with counter := o.load.getD t.counter }

theorem Timing.setInterval_eq (t : Timing) (i : Option (Nat × Bool × Bool)) : t.setInterval i = { t with
    period := (i.map (·.1)).getD t.period, count := (i.map (·.1)).getD t.count, actSnapshot := (i.map (·.2.1)).getD t.actSnapshot,
    actScanRequest := (i.map (·.2.2)).getD t.actScanRequest } := by
  cases i <;> rfl

theorem Timing.setWatch_eq (t : Timing) (w : Option (Bool × Sheet × Sheet)) : t.setWatch w = { t with
    watchEnabled := (w.map (·.1)).getD t.watchEnabled, watchValue := (w.map (·.2.1)).getD t.watchValue,
    watchMask := (w.map (·.2.2)).getD t.watchMask } := by
  cases w <;> rfl

theorem Timing.applied_eq (t : Timing) (o : TimingOperands) : t.applied o = { t with
    period := (o.interval.map (·.1)).getD t.period, count := (o.interval.map (·.1)).getD t.count,
    actSnapshot := (o.interval.map (·.2.1)).getD t.actSnapshot, actScanRequest := (o.interval.map (·.2.2)).getD t.actScanRequest,
    watchEnabled := (o.watch.map (·.1)).getD t.watchEnabled, watchValue := (o.watch.map (·.2.1)).getD t.watchValue,
    watchMask := (o.watch.map (·.2.2)).getD t.watchMask, counter := o.load.getD t.counter } := by
  rw [Timing.applied, Timing.setWatch_eq, Timing.setInterval_eq]

/-- A SET TIMING changes the press timing unit and the unit records alone. -/
theorem Ev.loadCounter_eq (e : Ev) (o : TimingOperands) :
    (e.updTiming fun t => (t.setInterval o.interval).setWatch o.watch).loadCounter o.load
      = { e with timing := e.timing.applied o, units := (e.loadCounter o.load).units } := by
  unfold Timing.applied
  cases o.load with
  | none => simp only [Timing.setWatch_eq, Timing.setInterval_eq]; rfl
  | some v => rfl

/-- Settles O16: the parts of the timing unit, and the flags of the waiting orders. -/
theorem setTimingAppliesItsParts : Obligations.SetTimingAppliesItsParts := by
  intro host s a slot h hk
  have happ := ofKind_eq.2 hk
  refine ⟨fun hbad => h.refused (execSetTiming host) rfl rfl happ (by rw [hbad]), fun o hops => ?_⟩
  have hunit := Ev.loadCounter_unit (s.landed host) o.load
  have hfault : ∀ u, (((s.landed host).loadCounter o.load).unit u).sweepFault = (s.unit u).sweepFault := fun u => by rw [hunit]; rfl
  obtain ⟨t, ht, hF⟩ := h.done_by (c := .setTiming host) (execSetTiming host) rfl rfl happ
    (e := { s.landed host with timing := s.timing.applied o, units := ((s.landed host).loadCounter o.load).units })
    (by rw [hops]; exact congrArg (Ev.done · slot) (Ev.loadCounter_eq _ o))
    (h.acted_unseen rfl rfl rfl rfl rfl rfl ⟨rfl, rfl, rfl, hfault⟩)
  have htiming : t.timing = s.timing.applied o := hF.blocks.timing
  rw [Timing.applied_eq] at htiming
  refine ⟨t, ht, hF.taken, ?_, ?_, by rw [htiming], by rw [htiming], by rw [htiming], by rw [htiming], fun u => ?_, hF.blocks.curves,
    hF.blocks.lines, hF.blocks.partGrants, hF.blocks.pointer, hF.blocks.check, hF.blocks.intake, hF.blocks.scanPulses, hF.blocks.pending,
    hF.port⟩
  · rw [htiming]
    cases o.interval <;> exact ⟨rfl, rfl, rfl, rfl⟩
  · rw [htiming]
    cases o.watch <;> exact ⟨rfl, rfl, rfl⟩
  · have hu : t.unit u = ((s.landed host).loadCounter o.load).unit u :=
      congrArg (fun us : Vector UnitRec 16 => us[u]) hF.blocks.units
    rw [hu, hunit]
    cases o.load <;> rfl

/-! ### SET LOOP -/

/-- Settles O15: the unit's record alone changes, and its block is written. -/
theorem setLoopReplacesTheParameters : Obligations.SetLoopReplacesTheParameters := by
  intro host s a slot u c h hk hu hc
  have happ := ofKind_eq.2 hk
  have hdefined : ((s.landed host).unit u).config = some c := hc
  refine ⟨fun hbad => ?_, fun on params hops => ?_⟩
  · refine h.refused (execSetLoop host) rfl rfl happ ?_
    rw [Ev.onDefined_some hu hdefined, hbad]
  · have hfault : ∀ v, (((s.landed host).updUnit u fun r => { r with loopOn := on, loopParams := some params }).unit v).sweepFault
        = (s.unit v).sweepFault := fun v => by
      rw [Ev.updUnit_unit]
      split
      · next k => exact k ▸ rfl
      · rfl
    obtain ⟨t, ht, hF⟩ := h.done_by (c := .setLoop host) (execSetLoop host) rfl rfl happ (W := a.inBlock u)
      (e := ((s.landed host).updUnit u fun r => { r with loopOn := on, loopParams := some params }).oweMirror u)
      (by rw [Ev.onDefined_some hu hdefined, hops])
      (h.acted rfl rfl rfl rfl (fun v hv y => by rw [List.mem_singleton.1 hv]; exact id)
        (fun k => k.elim (fun k => absurd ⟨rfl, rfl, rfl, hfault⟩ k) fun k => absurd rfl k) fun _ k => .inl (Anchor.inMirror_of_inBlock k))
    have hmirror := hF.mirror u (List.mem_singleton.2 rfl)
    exact ⟨t, ht, hF.taken, hF.blocks.units, ⟨hF.blocks.curves, hF.blocks.lines, hF.blocks.partGrants, hF.blocks.pointer,
      hF.blocks.check, hF.blocks.intake, hF.blocks.timing, hF.blocks.scanPulses, hF.blocks.pending⟩, hF.port,
      ⟨hmirror.count, hmirror.block⟩, hF.retires rfl⟩

/-! ### DEFINE UNIT -/

/-- A DEFINE UNIT changes the records of the unit and of its line. -/
theorem Ev.defineUnit_eq (e : Ev) (u : UnitNo) (c : UnitConfig) : e.defineUnit u c =
    { ((e.updUnit u fun r => r.redefined c).updLine u fun l => l.redefined c.zoneCount).oweMirror u with
      lineDue := (e.defineUnit u c).lineDue } := by
  unfold Ev.defineUnit
  dsimp only
  split <;> rfl

theorem Line.redefined_module (l : Line) (zoneCount : Nat) (m : Fin 9) : (((l.redefined zoneCount).modules[m]).state)
    = if 8 * m.val < zoneCount + 8 then (if (l.modules[m]).state = .notExpected then .present else (l.modules[m]).state)
      else .notExpected := by
  have hexpected : (addressExpected zoneCount m = true) ↔ 8 * m.val < zoneCount + 8 := by
    rw [addressExpected, ceilDiv, decide_eq_true_iff]
    omega
  simp only [Line.redefined, Fin.getElem_fin, Vector.getElem_ofFn, ModuleRec.expect, hexpected]
  split
  · split <;> rfl
  · rfl

/-- Settles O13: busy before its arguments, and then the unit's and its line's records alone. -/
theorem defineUnitDefines : Obligations.DefineUnitDefines := by
  intro host s a slot u h hk hu
  have happ := ofKind_eq.2 hk
  refine ⟨fun hbusy => ?_, fun hfree hbad => ?_, fun c hfree hops => ?_⟩
  · refine h.refused (execDefineUnit host) rfl rfl happ ?_
    rw [Ev.onUnit_some hu]
    exact if_pos hbusy
  · refine h.refused (execDefineUnit host) rfl rfl happ ?_
    rw [Ev.onUnit_some hu, hbad]
    exact if_neg (by rw [show (s.landed host).defineBusy u = s.defineBusy u from rfl, hfree]; decide)
  · obtain ⟨t, ht, hF⟩ := h.done_by (c := .defineUnit host) (execDefineUnit host) rfl rfl happ
      (W := fun x => a.inBlock u x ∨ a.inStatus x)
      (e := { (((s.landed host).updUnit u fun r => r.redefined c).updLine u fun l => l.redefined c.zoneCount).oweMirror u with
        lineDue := ((s.landed host).defineUnit u c).lineDue })
      (by
        rw [Ev.onUnit_some hu, hops, ← Ev.defineUnit_eq]
        exact if_neg (by rw [show (s.landed host).defineBusy u = s.defineBusy u from rfl, hfree]; decide))
      (h.acted rfl rfl rfl rfl (fun v hv y hy => .inl (by rw [← List.mem_singleton.1 hv]; exact hy)) (fun _ _ => .inr) fun _ k =>
        k.imp Anchor.inMirror_of_inBlock id)
    have hunits : ∀ v, t.unit v = if u = v then (s.unit v).redefined c else s.unit v := fun v =>
      (congrArg (fun us : Vector UnitRec 16 => us[v]) hF.blocks.units).trans (Ev.updUnit_unit (s.landed host) u v fun r => r.redefined c)
    have hlines : ∀ n, t.line n = if u = n then (s.line n).redefined c.zoneCount else s.line n := fun n =>
      (congrArg (fun ls : Vector Line 16 => ls[n]) hF.blocks.lines).trans
        (Ev.updLine_line (s.landed host) u n fun l => l.redefined c.zoneCount)
    have hunit : t.unit u = (s.unit u).redefined c := (hunits u).trans (if_pos rfl)
    have hline : t.line u = (s.line u).redefined c.zoneCount := (hlines u).trans (if_pos rfl)
    have hmirror := hF.mirror u (List.mem_singleton.2 rfl)
    refine ⟨t, ht, hF.taken, hF.port, ⟨hmirror.count, hmirror.block⟩, ?_, ?_, ?_, ?_, ?_, ?_, fun z => ?_, ?_, ?_, ?_, ?_, ?_, ?_, fun m => ?_,
      fun v hv => ⟨(hunits v).trans (if_neg (Ne.symm hv)), (hlines v).trans (if_neg (Ne.symm hv))⟩, hF.blocks.partGrants, hF.blocks.pointer,
      ⟨hF.blocks.curves, hF.blocks.check, hF.blocks.intake, hF.blocks.timing, hF.blocks.scanPulses, hF.blocks.pending⟩⟩
    case refine_7 =>
      show (t.unit u).zones[z] = _
      rw [hunit, UnitRec.redefined_zone]
    case refine_14 => rw [hline, Line.redefined_module]
    all_goals simp only [hunit, hline, UnitRec.redefined, Line.redefined]

end Sys2Proof.Machine
end

