-- ==== Sys2Proof/Proofs/Snapshots.lean ====
section
/-! PROOFS. The snapshot (R150), and the press timing unit's events, which owe nothing at their end: the sheet mark and the two timers
(chapter 8). -/

namespace Sys2Proof.Machine

open Decode

variable {d e : Ev} {s t : State} {a : Anchor} {u : UnitNo} {m : Memory} {host : List HostWrite} {slot : Slot}

/-! ### What a snapshot writes -/

/-- The words of a line's entry in the status area (R166). -/
def Anchor.inEntry (a : Anchor) (n : LineNo) (x : Nat) : Prop := a.statusBase + 4 + 2 * n.val ≤ x ∧ x < a.statusBase + 4 + 2 * n.val + 2

theorem Anchor.entries_apart {n k : LineNo} {x : Nat} (hnk : n ≠ k) (h : a.inEntry n x) : ¬a.inEntry k x := by
  have hv : n.val ≠ k.val := fun j => hnk (Fin.ext j)
  simp only [Anchor.inEntry] at h ⊢
  omega

theorem Anchor.inStatus_of_inEntry {n : LineNo} {x : Nat} (h : a.inEntry n x) : a.inStatus x := by
  have hn := n.isLt
  simp only [Anchor.inEntry, Anchor.inStatus, Config.statusWords] at h ⊢
  omega

theorem Anchor.Sound.status_inMemory (h : a.Sound) : a.statusBase + Config.statusWords ≤ Config.memoryWords := by
  have hm := h.inMemory
  simp [Anchor.regions, Region.inMemory, Config.slotWords, Config.mirrorWords, Config.statusWords, Config.memoryWords] at hm
  simp only [Config.statusWords, Config.memoryWords]
  omega

theorem Ev.writeLine_entry (hw : Memory.wf e.mem = true) (ha : a.Sound) (n : LineNo) :
    Memory.readWords (e.writeLine a n).mem (a.statusBase + 4 + 2 * n.val) 2 = lineEntry (e.line n) := by
  have hm := ha.status_inMemory
  have hn := n.isLt
  exact Memory.readWords_write (ws := lineEntry (e.line n)) hw (by
    simp only [Config.statusWords, Config.memoryWords, lineEntry, List.length_cons, List.length_nil] at hm ⊢
    omega)

theorem Ev.writeLine_apart (hw : Memory.wf e.mem = true) {n : LineNo} {x : Nat} (hx : ¬a.inEntry n x) :
    Memory.read (e.writeLine a n).mem x = Memory.read e.mem x :=
  Memory.read_write_outside _ _ _ _ hw (by
    simp only [Anchor.inEntry, lineEntry, List.length_cons, List.length_nil] at hx ⊢
    omega)

/-- Lines one after another: each of the list shows its line, and no other word has changed. -/
theorem Ev.writeLines (ha : a.Sound) {l : List LineNo} (hl : l.Nodup) (hw : Memory.wf e.mem = true) :
    let e' := l.foldl (fun e n => e.writeLine a n) e
    Memory.wf e'.mem = true ∧ e' = { e with mem := e'.mem, unfinished := e'.unfinished }
      ∧ (∀ n ∈ l, Memory.readWords e'.mem (a.statusBase + 4 + 2 * n.val) 2 = lineEntry (e.line n))
      ∧ ∀ x, (∀ n ∈ l, ¬a.inEntry n x) → Memory.read e'.mem x = Memory.read e.mem x := by
  induction l generalizing e with
  | nil => exact ⟨hw, rfl, fun n h => absurd h List.not_mem_nil, fun x _ => rfl⟩
  | cons k l ih =>
    obtain ⟨hk, hl⟩ := List.nodup_cons.1 hl
    obtain ⟨ihw, iheq, ihin, ihout⟩ := ih hl (e := e.writeLine a k) (Memory.write_wf _ _ _ hw)
    rw [List.foldl_cons]
    refine ⟨ihw, by rw [iheq]; rfl, fun n hn => ?_, fun x hx => ?_⟩
    · rcases eq_or_ne n k with rfl | j
      · rw [← Ev.writeLine_entry hw ha n]
        exact Memory.readWords_congr fun x h1 h2 => ihout x fun k hk' => Anchor.entries_apart (by rintro rfl; exact hk hk') ⟨h1, h2⟩
      · exact ihin n ((List.mem_cons.1 hn).resolve_left j)
    · rw [ihout x fun n hn => hx n (List.mem_cons_of_mem _ hn), Ev.writeLine_apart hw (hx k List.mem_cons_self)]

theorem Ev.writeWords_setWords (e : Ev) (b : Nat) (ws : List Word) (m : Memory) (k : List Cell) :
    ({ e.writeWords b ws with mem := m, unfinished := k } : Ev) = { e with mem := m, unfinished := k } := rfl

/-- The event with these words in the exchange memory, and these update counts. -/
def Ev.setWords (e : Ev) (m : Memory) (k : List Cell) (c : Vector Word 16) : Ev :=
  { e with mem := m, unfinished := k, port := { e.port with updateCounts := c } }

theorem Ev.setWords_writeWords (e : Ev) (b : Nat) (ws : List Word) (m : Memory) (k : List Cell) (c : Vector Word 16) :
    (e.writeWords b ws).setWords m k c = e.setWords m k c := rfl

theorem Ev.setWords_counts (e : Ev) (x : Vector Word 16) (m : Memory) (k : List Cell) (c : Vector Word 16) :
    (e.updPort fun p => { p with updateCounts := x }).setWords m k c = e.setWords m k c := rfl

theorem Ev.setWords_writeMirror (e : Ev) (a : Anchor) (u : UnitNo) (m : Memory) (k : List Cell) (c : Vector Word 16) :
    (e.writeMirror a u).setWords m k c = e.setWords m k c := by
  unfold Ev.writeMirror
  dsimp only
  rw [Ev.setWords_writeWords, Ev.setWords_writeWords, Ev.setWords_writeWords]
  exact Ev.setWords_counts _ _ _ _ _

theorem Ev.writeMirrors_eq (l : List UnitNo) (e : Ev) :
    ∃ counts m k, l.foldl (fun e u => e.writeMirror a u) e = e.setWords m k counts := by
  induction l generalizing e with
  | nil => exact ⟨_, _, _, rfl⟩
  | cons u l ih =>
    obtain ⟨counts, m, k, h⟩ := ih (e.writeMirror a u)
    exact ⟨counts, m, k, by rw [List.foldl_cons, h, Ev.setWords_writeMirror]⟩

theorem Ev.writeMirrors_rest (l : List UnitNo) (e : Ev) (hw : Memory.wf e.mem = true) (x : Nat) (hx : ¬a.inMirror x) :
    Memory.read (l.foldl (fun e u => e.writeMirror a u) e).mem x = Memory.read e.mem x := by
  induction l generalizing e with
  | nil => rfl
  | cons u l ih =>
    rw [List.foldl_cons, ih _ (Ev.writeMirror_wf hw a u)]
    exact (((Ev.Wrote.refl (W := a.inMirror) e).writeMirror a u fun _ => Anchor.inMirror_of_inBlock).mem hw).2 x hx

/-- A snapshot has been taken: the mirror block of every defined unit, the sheet counter and every line entry are written (R150). -/
structure Ev.Snapshotted (e e' : Ev) (a : Anchor) : Prop where
  eq : ∃ counts m k, e' =
    { e with mem := m, unfinished := k, port := { e.port with snapshotSheet := e.timing.counter, updateCounts := counts } }
  wf : Memory.wf e'.mem = true
  mirrors : ∀ u, (e.unit u).config.isSome = true → e.toState.MirrorWritten e'.toState a u
  counter : Memory.read e'.mem a.statusBase = e.timing.counter
  lines : ∀ n : LineNo, Memory.readWords e'.mem (a.statusBase + 4 + 2 * n.val) 2 = lineEntry (e.line n)
  rest : ∀ x, ¬a.inMirror x → ¬a.inStatus x → Memory.read e'.mem x = Memory.read e.mem x

/-- Word 0 of the status area and every line entry. -/
def Ev.writeEntries (e : Ev) (a : Anchor) : Ev :=
  (ascending 16).foldl (fun e n => e.writeLine a n) (e.writeWords a.statusBase [e.timing.counter])

theorem Ev.writeEntries_shows (ha : a.Sound) (hw : Memory.wf e.mem = true) :
    Memory.wf (e.writeEntries a).mem = true ∧ Memory.read (e.writeEntries a).mem a.statusBase = e.timing.counter
      ∧ (∀ n : LineNo, Memory.readWords (e.writeEntries a).mem (a.statusBase + 4 + 2 * n.val) 2 = lineEntry (e.line n))
      ∧ ∀ x, ¬a.inStatus x → Memory.read (e.writeEntries a).mem x = Memory.read e.mem x := by
  obtain ⟨hw1, _, hlines, hapart⟩ := Ev.writeLines (e := e.writeWords a.statusBase [e.timing.counter]) ha (List.nodup_finRange 16)
    (Memory.write_wf _ _ _ hw)
  have hm := ha.status_inMemory
  refine ⟨hw1, (hapart _ fun n _ k => ?_).trans ?_, fun n => hlines n (List.mem_finRange n), fun x hx =>
    (hapart x fun n _ k => hx (Anchor.inStatus_of_inEntry k)).trans ?_⟩
  · simp only [Anchor.inEntry] at k
    omega
  · refine (Memory.read_write _ _ _ _ hw).trans ((if_pos ?_).trans ?_)
    · simp only [Config.statusWords, Config.memoryWords, List.length_cons, List.length_nil] at hm ⊢
      omega
    · simp
  · refine Memory.read_write_outside _ _ _ _ hw ?_
    simp only [Anchor.inStatus, Config.statusWords, List.length_cons, List.length_nil] at hx ⊢
    omega

theorem Ev.writeLines_eq (l : List LineNo) (e : Ev) :
    ∃ m k, l.foldl (fun e n => e.writeLine a n) e = { e with mem := m, unfinished := k } := by
  induction l generalizing e with
  | nil => exact ⟨_, _, rfl⟩
  | cons n l ih =>
    obtain ⟨m, k, h⟩ := ih (e.writeLine a n)
    exact ⟨m, k, by rw [List.foldl_cons, h]; rfl⟩

theorem Ev.writeEntries_eq (e : Ev) (a : Anchor) : ∃ m k, e.writeEntries a = { e with mem := m, unfinished := k } := by
  obtain ⟨m, k, heq⟩ := Ev.writeLines_eq (a := a) (ascending 16) (e.writeWords a.statusBase [e.timing.counter])
  exact ⟨m, k, heq.trans (Ev.writeWords_setWords _ _ _ _ _)⟩

/-- The units that a snapshot shows. -/
def State.definedUnits (s : State) : List UnitNo := (ascending 16).filter fun u => (s.unit u).defined

theorem State.mem_definedUnits : u ∈ s.definedUnits ↔ (s.unit u).config.isSome = true := by
  simp [State.definedUnits, ascending, UnitRec.defined]

theorem Ev.snapshot_eq (hatt : e.attached = true) (hc : e.port.anchor = some a) : e.snapshot =
    (e.definedUnits.foldl (fun e u => e.writeMirror a u) (e.updPort fun p => { p with snapshotSheet := e.timing.counter })).writeEntries a := by
  unfold Ev.snapshot
  rw [hatt, hc]
  dsimp only
  obtain ⟨counts, m, k, heq⟩ := Ev.writeMirrors_eq (a := a) e.definedUnits (e.updPort fun p => { p with snapshotSheet := e.timing.counter })
  have htiming : (e.definedUnits.foldl (fun e u => e.writeMirror a u)
    (e.updPort fun p => { p with snapshotSheet := e.timing.counter })).timing = e.timing := by rw [heq]; rfl
  rw [Ev.writeEntries, htiming]
  rfl

/-- Whatever it writes, a snapshot changes the exchange memory, the update counts and the snapshot sheet alone. -/
theorem Ev.snapshot_kept (hatt : e.attached = true) (hc : e.port.anchor = some a) : ∃ counts m k, e.snapshot =
    { e with mem := m, unfinished := k, port := { e.port with snapshotSheet := e.timing.counter, updateCounts := counts } } := by
  rw [Ev.snapshot_eq hatt hc]
  obtain ⟨counts, m, k, heq⟩ := Ev.writeMirrors_eq (a := a) e.definedUnits (e.updPort fun p => { p with snapshotSheet := e.timing.counter })
  rw [heq]
  obtain ⟨m2, k2, heq2⟩ := Ev.writeEntries_eq ((e.updPort fun p => { p with snapshotSheet := e.timing.counter }).setWords m k counts) a
  exact ⟨counts, m2, k2, heq2⟩

theorem Ev.writeMirrors_counts {l : List UnitNo} (hl : l.Nodup) (e : Ev) (u : UnitNo) :
    (l.foldl (fun e u => e.writeMirror a u) e).port.updateCounts[u]
      = if u ∈ l then e.port.updateCounts[u] + 2 else e.port.updateCounts[u] := by
  induction l generalizing e with
  | nil => rfl
  | cons v l ih =>
    obtain ⟨hv, hl⟩ := List.nodup_cons.1 hl
    rw [List.foldl_cons, ih hl, Ev.writeMirror_count]
    rcases eq_or_ne v u with rfl | k
    · simp [hv]
    · simp [k, Ne.symm k]

/-- A snapshot raises the update count of every defined unit by two. -/
theorem Ev.snapshot_counts (hatt : e.attached = true) (hc : e.port.anchor = some a) (hu : (e.unit u).config.isSome = true) :
    e.snapshot.port.updateCounts[u] = e.port.updateCounts[u] + 2 := by
  have hcount := Ev.writeMirrors_counts (a := a) (l := e.definedUnits) ((List.nodup_finRange 16).filter _)
    (e.updPort fun p => { p with snapshotSheet := e.timing.counter }) u
  rw [if_pos (State.mem_definedUnits.2 hu)] at hcount
  rw [Ev.snapshot_eq hatt hc]
  generalize e.definedUnits.foldl (fun e u => e.writeMirror a u) (e.updPort fun p => { p with snapshotSheet := e.timing.counter }) = f
    at hcount ⊢
  obtain ⟨m, k, heq⟩ := Ev.writeEntries_eq f a
  rw [heq]
  exact hcount

theorem Ev.snapshot_snapshotted (hatt : e.attached = true) (hc : e.port.anchor = some a) (ha : a.Sound) (hw : Memory.wf e.mem = true) :
    e.Snapshotted e.snapshot a := by
  rw [Ev.snapshot_eq hatt hc]
  have hnodup : e.definedUnits.Nodup := (List.nodup_finRange 16).filter _
  have hmem : ∀ u, (e.unit u).config.isSome = true → u ∈ e.definedUnits := fun u => State.mem_definedUnits.2
  generalize e.definedUnits = l at hnodup hmem
  obtain ⟨hw1, _, hin, _⟩ := Ev.writeMirrors (e := e.updPort fun p => { p with snapshotSheet := e.timing.counter }) ha hnodup hw
  obtain ⟨counts, m, k, heq⟩ := Ev.writeMirrors_eq (a := a) l (e.updPort fun p => { p with snapshotSheet := e.timing.counter })
  have hrest := Ev.writeMirrors_rest (a := a) l (e.updPort fun p => { p with snapshotSheet := e.timing.counter }) hw
  generalize l.foldl (fun e u => e.writeMirror a u) (e.updPort fun p => { p with snapshotSheet := e.timing.counter }) = f
    at hw1 hin heq hrest
  obtain ⟨hw2, hcounter, hlines, hstatus⟩ := Ev.writeEntries_shows ha hw1
  obtain ⟨m2, k2, heq2⟩ := Ev.writeEntries_eq f a
  have hunits : (f.writeEntries a).units = f.units := by rw [heq2]
  have hport : (f.writeEntries a).port = f.port := by rw [heq2]
  refine ⟨⟨counts, m2, k2, by rw [heq2, heq]; rfl⟩, hw2, fun u hu => ?_, by rw [hcounter, heq]; rfl,
    fun n => by rw [hlines, heq]; rfl, fun x h1 h2 => (hstatus x h2).trans (hrest x h1)⟩
  have h1 := hin u (hmem u hu)
  have hblock : Memory.readWords (f.writeEntries a).mem (a.blockBase u) Config.blockWords
      = Memory.readWords f.mem (a.blockBase u) Config.blockWords :=
    Memory.readWords_congr fun x hx1 hx2 => hstatus x (ha.block_apart_status (u := u) ⟨hx1, hx2⟩)
  refine ⟨by rw [hport]; exact h1.count, ?_⟩
  rw [hblock, h1.block, hport]
  exact congrArg (mirrorBlock _) (congrArg (fun us : Vector UnitRec 16 => us[u]) hunits).symm

/-! ### SNAPSHOT -/

/-- The offsets T and R lie in no block that a reset may tear. -/
theorem Anchor.Sound.offset_not_blockWord (h : a.Sound) {x : Nat} (hx : x < 16) : a.blockWord x = false := by
  have hd := h.disjoint
  simp only [Anchor.regions] at hd
  rw [Bool.eq_false_iff, Anchor.blockWord, ne_eq, Bool.or_eq_true, Bool.or_eq_true, decide_eq_true_iff, decide_eq_true_iff,
    decide_eq_true_iff]
  simp only [Config.mirrorWords, Config.statusWords]
  generalize a.segments * a.segmentSize = words at hd ⊢
  simp [disjointRegions, anchorRegion, Region.shares, Config.anchorWords, Config.slotWords, Config.mirrorWords, Config.statusWords] at hd
  omega

/-- The last write of an event was of an offset. -/
def State.OffsetLast (s : State) : Prop := ∃ x w cells, x < 16 ∧ s.unfinished = (x, w) :: cells

/-- A reset leaves the exchange memory of a part whose last write was of an offset. -/
theorem State.OffsetLast.tornMemory (h : s.OffsetLast) (ha : ∀ a, s.port.anchor = some a → a.Sound) : s.tornMemory = s.mem := by
  obtain ⟨x, w, cells, hx, hcells⟩ := h
  unfold State.tornMemory
  split
  · next a _ hc =>
    rw [hcells]
    cases Config.abandonedWords s.freeDraws with
    | zero => rfl
    | succ k => exact if_neg (by rw [(ha a hc).offset_not_blockWord hx]; decide)
  · rfl

theorem Ev.writeWords_offsetLast (e : Ev) {x : Nat} (hx : x < 16) (w : Word) : (e.writeWords x [w]).OffsetLast :=
  ⟨x, Memory.read e.mem x, e.unfinished, hx, rfl⟩

/-- The last write of a take is of T or R. -/
theorem Ev.finishTake_offsetLast (hc : e.port.anchor = some a) (k : Nat) (notify : Bool) (st : Status) (x : Detail) :
    (e.finishTake k notify st x).OffsetLast := by
  have htake : (e.writeStatus k st x).advanceTake.OffsetLast := by
    have hport : (e.writeStatus k st x).port = e.port := by unfold Ev.writeStatus; split <;> rfl
    unfold Ev.advanceTake
    rw [hport, hc]
    exact Ev.writeWords_offsetLast _ (by decide) _
  have hretire : ∀ (f : Ev) (b : Anchor), f.OffsetLast → (f.advanceRetire b).OffsetLast := fun f b h => by
    unfold Ev.advanceRetire
    dsimp only
    split
    · split <;> exact Ev.writeWords_offsetLast _ (by decide) _
    · exact h
  have hfinal : ∀ f : Ev, f.OffsetLast → (f.slotFinal k notify).OffsetLast := fun f h => by
    unfold Ev.slotFinal
    split
    · dsimp only
      refine hretire _ _ ?_
      split <;> exact h
    · exact h
  unfold Ev.finishTake
  dsimp only
  split
  · exact hfinal _ htake
  · exact htake

theorem Port.kept_updateCounts (p : Port) (c : Vector Word 16) : p.Kept { p with updateCounts := c } :=
  ⟨rfl, rfl, rfl, rfl, rfl, rfl, rfl, BitVec.and_self, rfl, rfl, rfl, rfl, rfl, rfl, rfl, rfl, rfl, rfl⟩

theorem Ev.landed_snapshotted (h : s.Due host a slot) : (s.landed host).Snapshotted (s.landed host).snapshot a :=
  Ev.snapshot_snapshotted (by rw [State.attached]; exact decide_eq_true h.attached) h.anchor h.sound (Memory.hostWrites_wf _ _ h.wf)

theorem Ev.Idle.finish (h : e.Idle) (slot : Slot) (st : Status) (x : Detail) : (e.finish slot st x).Idle := by
  have hE : e.TakeEnded (e.finish slot st x) := Ev.finishTake_ended _ _ _ _
  have hunit : ∀ u, (e.finish slot st x).unit u = e.unit u := fun u => congrArg (fun us : Vector UnitRec 16 => us[u]) hE.units
  refine ⟨hE.arbiterDue.trans h.arbiter, hE.testDue.trans h.tests, hE.mirrorDue.trans h.mirror, hE.lineDue.trans h.lines, ?_⟩
  exact ⟨by rw [hE.intake, hE.start]; exact h.status.intake, by rw [hE.port.lostScans, hE.start]; exact h.status.lostScans,
    by rw [hE.port.fault, hE.start]; exact h.status.fault, fun u => by rw [hunit, hE.start]; exact h.status.sweepFault u⟩

/-- A take writes no word of the mirror or the status area before its end. -/
theorem State.Due.finish_words (h : s.Due host a slot) {W : Nat → Prop} (hq : e.Acted s host a W) {st : Status} {x : Detail} {y : Nat}
    (hy : a.inMirror y ∨ a.inStatus y) : Memory.read (e.finish slot st x).mem y = Memory.read e.mem y := by
  obtain ⟨p1, p2, p3⟩ := Anchor.slot_apart h.disjoint h.inMemory h.inRing
  have hapart : ∀ z : Nat, ¬a.inMirror z ∧ ¬a.inStatus z → y ≠ z := fun z hz k => by
    subst k
    exact hy.elim hz.1 hz.2
  have hwords := Ev.finishTake_words (e := e) a s.port.take slot.notify st x (by rw [State.attached, hq.ring.state]; exact decide_eq_true h.attached)
    (hq.ring.anchor.trans h.anchor) hq.wf p1 p2
  obtain ⟨_, _, _, _, _, hrest⟩ := hwords
  rw [Ev.finish, hq.ring.take]
  exact hrest y (hapart _ (Anchor.offsets_apart h.disjoint (by omega))) (hapart _ (Anchor.offsets_apart h.disjoint (by omega)))
    (hapart _ (p3 _ (.inl rfl))) (hapart _ (p3 _ (.inr rfl)))

/-- Settles O19: the snapshot is taken at once, and the take that follows writes no word of it. -/
theorem snapshotShowsTheMachine : Obligations.SnapshotShowsTheMachine := by
  intro host s a slot h hk
  have happ := ofKind_eq.2 hk
  refine ⟨fun hbad => h.refused (execSnapshot host) rfl rfl happ (if_pos hbad), fun hgood => ?_⟩
  have hshot := Ev.landed_snapshotted h
  obtain ⟨counts, m, k, heq⟩ := hshot.eq
  have hidle : (s.landed host).snapshot.Idle := by
    rw [heq]
    exact ⟨rfl, rfl, rfl, rfl, rfl, rfl, rfl, fun _ => rfl⟩
  have hacted : (s.landed host).snapshot.Acted s host a fun x => a.inMirror x ∨ a.inStatus x := by
    refine ⟨?_, hshot.wf, hidle.arbiter, hidle.tests, by rw [hidle.mirror]; exact fun _ k => absurd k List.not_mem_nil, fun _ _ => .inr,
      fun _ => id, fun y hy => hshot.rest y (fun k => hy (.inl k)) fun k => hy (.inr k)⟩
    rw [heq]
    exact ⟨⟨rfl, rfl, rfl, rfl⟩, rfl, rfl, rfl⟩
  have hF := h.finished hacted .done (Detail.only 0)
  have hread : ∀ y, a.inMirror y ∨ a.inStatus y →
      Memory.read ((s.landed host).snapshot.finish slot .done (Detail.only 0)).mem y = Memory.read (s.landed host).snapshot.mem y :=
    fun y hy => h.finish_words hacted hy
  have hcounts : ((s.landed host).snapshot.finish slot .done (Detail.only 0)).port.updateCounts
      = (s.landed host).snapshot.port.updateCounts := Ev.finishTake_counts _ _ _ _ _
  have hlast : ((s.landed host).snapshot.finish slot .done (Detail.only 0)).OffsetLast :=
    Ev.finishTake_offsetLast (hacted.ring.anchor.trans h.anchor) _ _ _ _
  obtain ⟨draws, hsettle⟩ := (hidle.finish slot .done (Detail.only 0)).settle
  have ht := h.taken_by (c := .snapshot host) (execSnapshot host) rfl rfl happ (if_neg (by simp [hgood]))
    (e := (s.landed host).snapshot.finish slot .done (Detail.only 0))
  generalize (s.landed host).snapshot.finish slot .done (Detail.only 0) = f at hF hread hcounts hlast hsettle ht
  refine ⟨f.settle.toState, ht, hF.taken, ?_, ?_, fun u hu => ?_, ?_, fun n => ?_, fun b r hr => ?_⟩
  · have hb := hF.blocks
    rw [heq] at hb
    exact ⟨⟨hb.curves, hb.lines, hb.partGrants, hb.pointer, hb.check, hb.intake, hb.timing, hb.scanPulses, hb.pending⟩, hb.units⟩
  · have hp := hF.port
    rw [heq] at hp
    exact (Port.kept_updateCounts { s.port with snapshotSheet := s.timing.counter } counts).trans hp
  · have hm := hshot.mirrors u hu
    have hunit : (s.landed host).snapshot.unit u = s.unit u := by rw [heq]; rfl
    rw [hsettle]
    dsimp only
    rw [hcounts]
    refine ⟨hm.count, ?_⟩
    rw [← hunit, ← hm.block]
    exact Memory.readWords_congr fun y h1 h2 => hread y (.inl (Anchor.inMirror_of_inBlock (u := u) ⟨h1, h2⟩))
  · rw [hsettle]
    exact (hread _ (.inr ⟨Nat.le_refl _, by simp only [Config.statusWords]; omega⟩)).trans hshot.counter
  · rw [hsettle]
    refine (Memory.readWords_congr fun y h1 h2 => hread y (.inr (Anchor.inStatus_of_inEntry (n := n) ⟨h1, h2⟩))).trans (hshot.lines n)
  · have hsound : ∀ b, f.settle.port.anchor = some b → b.Sound := fun b hb => by
      rw [hF.port.anchor, hacted.ring.anchor, h.anchor] at hb
      cases hb
      exact h.sound
    have htorn : f.settle.toState.tornMemory = f.settle.mem := by
      refine State.OffsetLast.tornMemory ?_ hsound
      rw [hsettle]
      exact hlast
    simp only [List.mem_cons, List.not_mem_nil, or_false] at hr
    obtain rfl | hr := hr
    · exact ⟨_, rfl, htorn⟩
    · exact ⟨_, exec_pinReset (by simpa using hr) _, htorn⟩

/-! ### The interval timer and the run timer -/

/-- A snapshot, where an action set asks for one. -/
def Ev.snapshotIf (e : Ev) (b : Bool) : Ev := if b then e.snapshot else e

theorem Ev.snapshot_of_not_attached (h : e.attached = false) : e.snapshot = e := by
  unfold Ev.snapshot
  rw [h]

theorem Ev.snapshot_of_no_anchor (h : e.port.anchor = none) : e.snapshot = e := by
  unfold Ev.snapshot
  rw [h]
  split
  · next k => cases k
  · rfl

theorem State.anchor_of_regionsInMemory (h : s.regionsInMemory = true) (ha : s.attached = true) : ∃ a, s.port.anchor = some a := by
  unfold State.regionsInMemory at h
  rw [ha] at h
  cases hc : s.port.anchor with
  | some a => exact ⟨a, rfl⟩
  | none => rw [hc] at h; cases h

theorem Ev.snapshotIf_kept (e : Ev) (b : Bool) : ∃ counts m k sheet, e.snapshotIf b =
    { e with mem := m, unfinished := k, port := { e.port with snapshotSheet := sheet, updateCounts := counts } } := by
  cases b with
  | false => exact ⟨_, _, _, _, rfl⟩
  | true =>
    rw [Ev.snapshotIf, if_pos rfl]
    by_cases ha : e.attached = true
    · cases hc : e.port.anchor with
      | some a =>
        obtain ⟨counts, m, k, h⟩ := Ev.snapshot_kept ha hc
        exact ⟨counts, m, k, _, h⟩
      | none =>
        rw [Ev.snapshot_of_no_anchor hc]
        exact ⟨_, _, _, _, rfl⟩
    · rw [Ev.snapshot_of_not_attached (by simpa using ha)]
      exact ⟨_, _, _, _, rfl⟩

/-- The expiry of the interval timer, where it is due. -/
def Ev.intervalStep (e : Ev) : Ev := if e.timing.intervalDue then e.intervalExpiry else e

/-- A snapshot and a pulse as the action set says, and the count reloaded (R149). -/
theorem Ev.intervalStep_eq (e : Ev) : e.intervalStep =
    { e.snapshotIf (e.timing.intervalDue && e.timing.actSnapshot) with
      scanPulses := e.scanPulses + (if e.timing.intervalDue && e.timing.actScanRequest then 1 else 0)
      timing := if e.timing.intervalDue then { e.timing with count := e.timing.period } else e.timing } := by
  unfold Ev.intervalStep
  cases hdue : e.timing.intervalDue with
  | false => rfl
  | true =>
    obtain ⟨counts, m, k, sheet, h⟩ := e.snapshotIf_kept e.timing.actSnapshot
    have hexpiry : e.intervalExpiry = (if (e.snapshotIf e.timing.actSnapshot).timing.actScanRequest then
        ({ e.snapshotIf e.timing.actSnapshot with scanPulses := (e.snapshotIf e.timing.actSnapshot).scanPulses + 1 } : Ev)
      else e.snapshotIf e.timing.actSnapshot).updTiming fun t => { t with count := t.period } := rfl
    rw [if_pos rfl, hexpiry, Bool.true_and, Bool.true_and, h]
    cases e.timing.actScanRequest <;> rfl

theorem Ev.intervalStep_kept (e : Ev) : ∃ counts m k sheet, e.intervalStep =
    { e with mem := m, unfinished := k, port := { e.port with snapshotSheet := sheet, updateCounts := counts }
             scanPulses := e.scanPulses + (if e.timing.intervalDue && e.timing.actScanRequest then 1 else 0)
             timing := if e.timing.intervalDue then { e.timing with count := e.timing.period } else e.timing } := by
  obtain ⟨counts, m, k, sheet, h⟩ := e.snapshotIf_kept (e.timing.intervalDue && e.timing.actSnapshot)
  exact ⟨counts, m, k, sheet, by rw [Ev.intervalStep_eq, h]⟩

theorem Ev.intervalStep_written (e : Ev) : e.intervalStep.mem = (e.snapshotIf (e.timing.intervalDue && e.timing.actSnapshot)).mem
    ∧ e.intervalStep.port = (e.snapshotIf (e.timing.intervalDue && e.timing.actSnapshot)).port := by
  rw [Ev.intervalStep_eq]
  exact ⟨rfl, rfl⟩

theorem Ev.Idle.intervalStep (h : e.Idle) : e.intervalStep.Idle := by
  obtain ⟨counts, m, k, sheet, heq⟩ := e.intervalStep_kept
  rw [heq]
  exact ⟨h.arbiter, h.tests, h.mirror, h.lines, h.status.intake, h.status.lostScans, h.status.fault, h.status.sweepFault⟩

theorem Ev.idle_ofState (s : State) : (Ev.ofState s).Idle := ⟨rfl, rfl, rfl, rfl, rfl, rfl, rfl, fun _ => rfl⟩

/-- An event that owes nothing at its end. -/
theorem act_idle (h : s.regionsInMemory = true) {f : Ev → Ev} (hf : f (Ev.ofState s.writesDone) = e) (hidle : e.Idle) :
    ∃ k, act s f = .next { e.toState with freeDraws := k } := by
  obtain ⟨k, hk⟩ := hidle.settle
  exact ⟨k, (act_of_regionsInMemory h f).trans (by rw [hf, hk])⟩

/-- Settles O45: either timer's expiry owes nothing. -/
theorem timersExpire : Obligations.TimersExpire := by
  intro s h
  refine ⟨fun hperiod hcount => ?_, fun hrun => ?_⟩
  · have hdue : s.timing.intervalDue = true := by simp [Timing.intervalDue, hperiod, hcount]
    obtain ⟨draws, ht⟩ := act_idle (f := Ev.intervalStep) h rfl (Ev.idle_ofState s.writesDone).intervalStep
    obtain ⟨hmem, hport⟩ := (Ev.ofState s.writesDone).intervalStep_written
    obtain ⟨counts, m, k, sheet, heq⟩ := (Ev.ofState s.writesDone).intervalStep_kept
    have hstep : (Ev.ofState s.writesDone).timing = s.timing := rfl
    rw [hstep, hdue, Bool.true_and] at hmem hport
    rw [hstep, hdue, Bool.true_and] at heq
    generalize (Ev.ofState s.writesDone).intervalStep = e at ht hmem hport heq
    refine ⟨_, ht, by rw [heq]; rfl, by rw [heq]; rfl, fun hsnap hatt => ?_, fun hsnap => ?_, by rw [heq]; rfl, by rw [heq]; rfl,
      by rw [heq]; rfl, by rw [heq]; rfl, by rw [heq]; rfl, by rw [heq]; rfl, by rw [heq]; rfl⟩
    · have hatt' : s.attached = true := decide_eq_true hatt
      obtain ⟨a, hc⟩ := State.anchor_of_regionsInMemory h hatt'
      rw [hsnap, Ev.snapshotIf, if_pos rfl] at hport
      refine ⟨?_, fun u hu => ?_⟩
      · obtain ⟨_, _, _, hshot⟩ := Ev.snapshot_kept (e := Ev.ofState s.writesDone) hatt' hc
        rw [hport, hshot]
        rfl
      · rw [hport]
        exact Ev.snapshot_counts (e := Ev.ofState s.writesDone) hatt' hc hu
    · rw [hsnap] at hmem hport
      rw [hmem, hport]
      exact ⟨rfl, rfl⟩
  · obtain ⟨t, ht, htiming, hblocks, hport, hmem⟩ := act_updTiming h fun t => { t with run := .stopped, runTimer := none }
    have hexec : exec .runTimerExpiry s = act s fun e => e.updTiming fun t => { t with run := .stopped, runTimer := none } := by
      show act s _ = _
      rw [act_of_regionsInMemory h, act_of_regionsInMemory h, show (Ev.ofState s.writesDone).timing.runTimer.isSome = true from hrun,
        if_pos rfl]
    exact ⟨t, hexec.trans ht, htiming, hblocks, hport, hmem⟩

/-! ### The sheet mark -/

/-- The counter, the run state and the interval count after a mark, and SHEET WATCH on a match (R141, R148). -/
def Ev.marked (e : Ev) : Ev :=
  if (e.updTiming Timing.mark).timing.watchMatches then (e.updTiming Timing.mark).raise .sheetWatch else e.updTiming Timing.mark

theorem Ev.marked_eq (e : Ev) : e.marked =
    { e with timing := e.timing.mark, port := if e.timing.mark.watchMatches then e.port.raise .sheetWatch else e.port } := by
  unfold Ev.marked
  rw [Ev.updTiming_timing]
  split <;> rfl

theorem Ev.sheetMark_eq (e : Ev) : e.sheetMark = (e.marked.intervalStep.releaseWaiting true).handMark := rfl

theorem Ev.handMark_eq (e : Ev) : e.handMark =
    { e with port := { e.port with handedMarks := if e.attached then e.port.handedMarks + 1 else e.port.handedMarks } } := by
  unfold Ev.handMark
  split <;> rfl

theorem Ev.releaseWaiting_unit (e : Ev) (keep : Bool) (u : UnitNo) : (e.releaseWaiting keep).unit u =
    { e.unit u with waiting := (e.unit u).waiting.map fun w =>
        { w with released := (keep && w.released) || atOrAfter e.timing.counter w.atSheet } } := by
  show (Vector.ofFn _)[u] = _
  rw [Fin.getElem_fin, Vector.getElem_ofFn]
  rfl

theorem Ev.sheetMark_idle (s : State) : (Ev.ofState s).sheetMark.Idle := by
  have hmarked : (Ev.ofState s).marked.Idle := by
    rw [Ev.marked_eq]
    refine ⟨rfl, rfl, rfl, rfl, rfl, ?_, ?_, fun _ => rfl⟩
    · dsimp only
      split <;> rfl
    · dsimp only
      split <;> rfl
  have hstep := hmarked.intervalStep
  rw [Ev.sheetMark_eq, Ev.handMark_eq]
  generalize (Ev.ofState s).marked.intervalStep = g at hstep ⊢
  have hfault : ∀ u, ((g.releaseWaiting true).unit u).sweepFault = (g.unit u).sweepFault := fun u => by rw [Ev.releaseWaiting_unit]
  obtain ⟨us, hus⟩ : ∃ us, g.releaseWaiting true = { g with units := us } := ⟨_, rfl⟩
  rw [hus] at hfault ⊢
  exact ⟨hstep.arbiter, hstep.tests, hstep.mirror, hstep.lines, hstep.status.intake, hstep.status.lostScans, hstep.status.fault,
    fun u => (hfault u).trans (hstep.status.sweepFault u)⟩

theorem watchMatches_mark (t : Timing) : t.mark.watchMatches = true ↔ t.watchEnabled = true
    ∧ ∀ i < 32, t.watchMask.getLsbD i = false → (t.counter + 1).getLsbD i = t.watchValue.getLsbD i := by
  have hbits : ((t.counter + 1) ^^^ t.watchValue) &&& ~~~t.watchMask = 0
      ↔ ∀ i < 32, t.watchMask.getLsbD i = false → (t.counter + 1).getLsbD i = t.watchValue.getLsbD i := by
    rw [BitVec.eq_of_getLsbD_eq_iff]
    refine forall₂_congr fun i hi => ?_
    rw [BitVec.getLsbD_and, BitVec.getLsbD_xor, BitVec.getLsbD_not]
    cases t.watchMask.getLsbD i <;> simp [hi]
  rw [← hbits]
  simp [Timing.watchMatches, Timing.mark]

theorem intervalDue_mark (t : Timing) : t.mark.intervalDue = true ↔ t.period ≠ 0 ∧ t.count ≤ 1 := by
  by_cases h : t.period = 0
  · simp [Timing.intervalDue, Timing.mark, h]
  · simp [Timing.intervalDue, Timing.mark, h]
    omega

/-- A mirror block shows nothing of a waiting order. -/
theorem blockWords_waiting (r : UnitRec) (f : WaitingOrder → WaitingOrder) :
    blockWords { r with waiting := r.waiting.map f } = blockWords r := rfl

/-- The press timing unit after a mark and the interval expiry that it may bring (R141, R149). -/
theorem intervalExpired_mark (t : Timing) :
    (if t.mark.intervalDue then { t.mark with count := t.mark.period } else t.mark)
      = { t with counter := t.counter + 1, run := .running, runTimer := some 2000
                 count := if t.period = 0 then t.count else if t.count ≤ 1 then t.period else t.count - 1 } := by
  have hdue := intervalDue_mark t
  by_cases hp : t.period = 0
  · rw [if_neg (by simp [hdue, hp]), Timing.mark, hp, if_pos rfl, if_pos rfl]
  · by_cases hc : t.count ≤ 1
    · rw [if_pos (hdue.2 ⟨hp, hc⟩), if_neg hp, if_pos hc]
      rfl
    · rw [if_neg (by simp [hdue, hc]), Timing.mark, if_neg hp, if_neg hp, if_neg hc]

/-- A mark's snapshot, in the event that ends with it. -/
theorem Ev.marked_snapshot (h : s.Linked a) (hd : d = (Ev.ofState s.writesDone).marked) :
    d.attached = true ∧ d.port.anchor = some a ∧ d.Snapshotted d.snapshot a := by
  have heq := hd.trans (Ev.marked_eq _)
  have hport : d.port = s.port ∨ d.port = s.port.raise .sheetWatch := by
    rw [heq]
    dsimp only
    split
    · exact .inr rfl
    · exact .inl rfl
  have hatt : d.attached = true ∧ d.port.anchor = some a := by
    have hs : s.attached = true := decide_eq_true h.attached
    rcases hport with k | k <;>
    · refine ⟨?_, by rw [k]; exact h.anchor⟩
      show decide (d.port.state = .attached) = true
      rw [k]
      exact hs
  have hmem : d.mem = s.mem := by rw [heq]; rfl
  exact ⟨hatt.1, hatt.2, Ev.snapshot_snapshotted hatt.1 hatt.2 h.sound (by rw [hmem]; exact h.wf)⟩

theorem and_or_absorb {w : Nat} (x y : BitVec w) : x &&& (x ||| y) = x :=
  BitVec.eq_of_getLsbD_eq fun i _ => by
    rw [BitVec.getLsbD_and, BitVec.getLsbD_or]
    cases x.getLsbD i <;> rfl

theorem Port.kept_marked (p : Port) (watch : Bool) (marks : Nat) (sheet : Sheet) (counts : Vector Word 16) :
    Port.Kept { p with handedMarks := marks, snapshotSheet := sheet }
      { (if watch then p.raise .sheetWatch else p) with handedMarks := marks, snapshotSheet := sheet, updateCounts := counts } := by
  cases watch with
  | true => exact ⟨rfl, rfl, rfl, rfl, rfl, rfl, rfl, and_or_absorb _ _, rfl, rfl, rfl, rfl, rfl, rfl, rfl, rfl, rfl, rfl⟩
  | false => exact ⟨rfl, rfl, rfl, rfl, rfl, rfl, rfl, BitVec.and_self, rfl, rfl, rfl, rfl, rfl, rfl, rfl, rfl, rfl, rfl⟩

/-- Settles O44: the mark is an event that owes nothing; what it writes is the snapshot of an interval that has ended. -/
theorem sheetMarkCounts : Obligations.SheetMarkCounts := by
  intro s h
  obtain ⟨draws, ht⟩ := act_idle (f := Ev.sheetMark) h rfl (Ev.sheetMark_idle s.writesDone)
  have htiming := (Ev.ofState s.writesDone).sheetMark_timing
  have hmarked := (Ev.ofState s.writesDone).marked_eq
  obtain ⟨hmem, hport⟩ := (Ev.ofState s.writesDone).marked.intervalStep_written
  obtain ⟨counts, m, k, sheet, hstep⟩ := (Ev.ofState s.writesDone).marked.intervalStep_kept
  have hshot := fun a (hl : s.Linked a) => Ev.marked_snapshot hl rfl
  have hmark : (Ev.ofState s.writesDone).marked.timing = s.timing.mark := by rw [hmarked]; rfl
  rw [Ev.sheetMark_eq, Ev.handMark_eq] at ht htiming
  rw [hmark] at hmem hport hstep
  have hunit := fun u => (Ev.ofState s.writesDone).marked.intervalStep.releaseWaiting_unit true u
  generalize (Ev.ofState s.writesDone).marked.intervalStep = g at *
  generalize (Ev.ofState s.writesDone).marked = d at *
  obtain ⟨us, hus⟩ : ∃ us, g.releaseWaiting true = { g with units := us } := ⟨_, rfl⟩
  rw [hus] at ht htiming hunit
  have hdue := intervalDue_mark s.timing
  have hraise : d.port = if s.timing.mark.watchMatches then s.port.raise .sheetWatch else s.port := by rw [hmarked]; rfl
  have hgport : ∃ counts sheet, g.port = { d.port with snapshotSheet := sheet, updateCounts := counts } := ⟨_, _, by rw [hstep]⟩
  have hunits : g.units = s.units := by rw [hstep, hmarked]; rfl
  have hstate : d.port.state = s.port.state := by rw [hraise]; split <;> rfl
  have hcounts : d.port.updateCounts = s.port.updateCounts := by rw [hraise]; split <;> rfl
  have hpulses : g.scanPulses = s.scanPulses + (if s.timing.mark.intervalDue && s.timing.actScanRequest then 1 else 0) := by
    rw [hstep, hmarked]
    rfl
  have hcounter : g.timing.counter = s.timing.counter + 1 := by
    rw [hstep]
    dsimp only
    split <;> rfl
  refine ⟨_, ht, htiming.trans ?_, ?_, ⟨fun hexp hact => ?_, fun hno => ?_, fun hexp hact a hl => ?_, fun hno => ?_⟩, fun u => ?_,
    ?_, ?_, by rw [hstep, hmarked]; rfl, by rw [hstep, hmarked]; rfl, by rw [hstep, hmarked]; rfl, by rw [hstep, hmarked]; rfl,
    by rw [hstep, hmarked]; rfl, by rw [hstep, hmarked]; rfl, by rw [hstep, hmarked]; rfl⟩
  · exact intervalExpired_mark s.timing
  · show g.port.notices.getLsbD _ = true ↔ _
    obtain ⟨_, _, hgport⟩ := hgport
    rw [hgport, hraise, ← watchMatches_mark]
    split
    · next hw =>
      simp only [hw, or_true, iff_true]
      exact (Ev.noticePending_raise (Ev.ofState s) .sheetWatch .sheetWatch).trans (Bool.or_true _)
    · next hw => exact ⟨.inl, fun k => k.resolve_right hw⟩
  · show g.scanPulses = _
    rw [hpulses, hdue.2 hexp, hact]
    rfl
  · show g.scanPulses = _
    rw [hpulses, if_neg]
    · rfl
    · rw [Bool.and_eq_true, hdue]
      exact fun k => hno.elim (· k.1) fun j => by rw [j] at k; exact Bool.noConfusion k.2
  · have hP : (s.timing.mark.intervalDue && s.timing.mark.actSnapshot) = true := by rw [hdue.2 hexp]; exact hact
    rw [hP, Ev.snapshotIf, if_pos rfl] at hmem hport
    obtain ⟨hatt, hc, hsnap⟩ := hshot a hl
    obtain ⟨⟨counts', m', k', heq⟩, _, hmirrors, hread, hlines, _⟩ := hsnap
    have hdc : d.timing.counter = s.timing.counter + 1 := by rw [hmarked]; rfl
    have hdu : d.units = s.units := by rw [hmarked]; rfl
    refine ⟨?_, ?_, fun u hu => ?_, fun n => ?_⟩
    · show g.port.snapshotSheet = _
      rw [hport, heq]
      exact hdc
    · show Memory.read g.mem _ = _
      rw [hmem, hread, hdc]
    · obtain ⟨hcount, hblock⟩ := hmirrors u (by rw [hmarked]; exact hu)
      refine ⟨?_, ?_⟩
      · show g.port.updateCounts[u] = _
        rw [hport]
        exact hcount.trans (congrArg (fun w : Vector Word 16 => w[u.val] + 2) hcounts)
      · show Memory.readWords g.mem _ _ = mirrorBlock g.port.updateCounts[u] us[u]
        have hu : us[u] = _ := hunit u
        rw [hmem, hport, hu]
        refine hblock.trans (congrArg (_ :: ·) ?_)
        have hg : g.unit u = d.snapshot.unit u := by
          show g.units[u] = d.snapshot.units[u]
          rw [heq, hunits, hdu]
        rw [hg, blockWords_waiting]
    · show Memory.readWords g.mem _ 2 = _
      rw [hmem, hlines, hmarked]
      rfl
  · show g.mem = _ ∧ g.port.snapshotSheet = _ ∧ g.port.updateCounts = _
    have hsame : d.snapshotIf (s.timing.mark.intervalDue && s.timing.mark.actSnapshot) = d := by
      rcases hno with k | k | k
      · rw [show s.timing.mark.intervalDue = false from Bool.eq_false_iff.2 fun j => k (hdue.1 j), Bool.false_and]
        rfl
      · rw [show s.timing.mark.actSnapshot = false from k, Bool.and_false]
        rfl
      · unfold Ev.snapshotIf
        rw [Ev.snapshot_of_not_attached (decide_eq_false (by rw [hstate]; exact k)), ite_self]
    rw [hmem, hport, hsame, hcounts, hraise, hmarked]
    exact ⟨rfl, by split <;> rfl, rfl⟩
  · have hu : us[u] = _ := hunit u
    refine hu.trans ?_
    rw [show g.unit u = s.unit u from congrArg (fun v : Vector UnitRec 16 => v[u.val]) hunits, hcounter]
    simp [atOrAfter]
  · show (if decide (g.port.state = .attached) then g.port.handedMarks + 1 else g.port.handedMarks) = _
    obtain ⟨_, _, hgport⟩ := hgport
    rw [hgport]
    dsimp only
    rw [hstate, show d.port.handedMarks = s.port.handedMarks by rw [hraise]; split <;> rfl]
    by_cases k : s.port.state = .attached <;> simp [k]
  · obtain ⟨_, _, hgport⟩ := hgport
    rw [hgport, hraise]
    exact Port.kept_marked _ _ _ _ _

end Sys2Proof.Machine
end

