-- ==== Sys2Proof/Proofs/Cycles.lean ====
section
/-! PROOFS. The events that owe neither an arbiter run nor a completion test: the order scan (R162) and the line cycle (R80). -/

namespace Sys2Proof.Machine

variable {d e : Ev} {s t : State} {a : Anchor} {host : List HostWrite}

/-! ### The line cycle -/

theorem Line.noteSent_keyTags (l : Line) (f : MotionFrame) (z : ZoneNo) :
    ((l.noteSent (some f)).keyTags[z]).reported = (l.keyTags[z]).reported
      ∧ ((l.noteSent (some f)).keyTags[z]).sent = match f with
        | .move y _ g => if y = z then g else (l.keyTags[z]).sent
        | .zero y g => if y = z then g else (l.keyTags[z]).sent
        | .sweep _ _ => (l.keyTags[z]).sent := by
  have hset : ∀ (y : ZoneNo) (g : Tag), ((l.keyTags.set y { l.keyTags[y] with sent := g })[z]).reported = (l.keyTags[z]).reported
      ∧ ((l.keyTags.set y { l.keyTags[y] with sent := g })[z]).sent = if y = z then g else (l.keyTags[z]).sent := by
    intro y g
    rcases eq_or_ne y z with rfl | hyz
    · simp
    · have hv : y.val ≠ z.val := fun k => hyz (Fin.ext k)
      simp [hyz, hv]
  cases f with
  | move y x g => exact hset y g
  | zero y g => exact hset y g
  | sweep v g => exact ⟨rfl, rfl⟩

/-- A cycle that begins sends the frame at the front of the queue and notes its tag (R54, R80). -/
theorem Line.beginCycle_began (l : Line) : l.CycleBegan l.beginCycle := by
  have hkeep : ∀ f, (l.noteSent f).power = l.power ∧ (l.noteSent f).stopTaken = l.stopTaken ∧ (l.noteSent f).startTimer = l.startTimer
      ∧ (l.noteSent f).checkResult = l.checkResult ∧ (l.noteSent f).pendingList = l.pendingList
      ∧ (l.noteSent f).tagCounter = l.tagCounter ∧ (l.noteSent f).modules = l.modules ∧ (l.noteSent f).fountain = l.fountain
      ∧ (l.noteSent f).grants = l.grants := by
    rintro (_ | (_ | _ | _)) <;> exact ⟨rfl, rfl, rfl, rfl, rfl, rfl, rfl, rfl, rfl⟩
  obtain ⟨h1, h2, h3, h4, h5, h6, h7, h8, h9⟩ := hkeep l.queue.motionSent
  refine ⟨rfl, ?_, h1, h2, h3, h4, h5, h6, h7, h8, h9⟩
  have hsent : l.beginCycle.sentFrame = some l.queue.front.1 := rfl
  have hqueue : l.beginCycle.queue = l.queue.front.2 := rfl
  have hkeys : l.beginCycle.keyTags = (l.noteSent l.queue.motionSent).keyTags := rfl
  have hfount : l.beginCycle.fountainTags = (l.noteSent l.queue.motionSent).fountainTags := rfl
  have htags := l.noteSent_keyTags
  rw [hsent, hqueue, hkeys, hfount]
  rcases l.queue with ⟨_ | _, _ | ⟨z, hs⟩, _ | ⟨f, fs⟩⟩
  case false.nil.cons =>
    refine ⟨rfl, rfl, fun z => ⟨(htags f z).1, (htags f z).2.trans (by cases f <;> rfl)⟩, by cases f <;> rfl, by cases f <;> rfl⟩
  all_goals exact ⟨rfl, rfl, rfl, rfl⟩

theorem Ev.idle_updLine (s : State) (n : LineNo) (f : Line → Line) : ((Ev.ofState s).updLine n f).Idle :=
  ⟨rfl, rfl, rfl, rfl, rfl, rfl, rfl, fun _ => rfl⟩

/-- Settles O34: the cycle is an event that changes one line and owes nothing. -/
theorem lineCycleSendsTheFrontFrame : Obligations.LineCycleSendsTheFrontFrame := by
  intro s n h hdue
  obtain ⟨k, ht⟩ := act_idle (f := fun e => if (e.line n).cycleDue then e.updLine n Line.beginCycle else e) h
    (if_pos hdue) (Ev.idle_updLine s.writesDone n Line.beginCycle)
  have hline := (Ev.ofState s.writesDone).updLine_line n (f := Line.beginCycle)
  refine ⟨_, ht, ?_, fun m hm => (hline m).trans (if_neg (Ne.symm hm)), rfl, rfl, rfl, rfl, rfl, ⟨rfl, rfl, rfl, rfl, rfl, rfl⟩⟩
  have hn := (hline n).trans (if_pos rfl)
  exact hn ▸ Line.beginCycle_began _

/-! ### The order scan -/

theorem Ev.Wrote.sameBlocks {W : Nat → Prop} (h : d.Wrote e W) : d.toState.SameBlocks e.toState :=
  ⟨⟨h.curves, h.lines, h.partGrants, h.pointer, h.check, h.intake, h.timing, h.scanPulses, h.pending⟩, h.units⟩

/-- The port after an order scan that judges P as `fault` (R162). -/
def Port.scanned (p : Port) (a : Anchor) (put : Nat) (notice : Word) (fault : PortFault) : Port :=
  let q := { p with noticeOffset := some notice, scanTimer := some a.scanInterval, handedMarks := p.handedMarks - 1 }
  if fault = .none then { q with fault := .none, putValid := put }
  else if p.fault = fault then q else { q with fault := fault }.raise .portFault

theorem Ev.orderScan_eq (e : Ev) (a : Anchor) : e.orderScan a =
    e.updPort fun p => p.scanned a (Memory.read e.mem 12).toNat (Memory.read e.mem 13)
      (judgePut a.ringLength p.take p.retire (Memory.read e.mem 12).toNat) := by
  unfold Ev.orderScan Ev.putJudged Port.scanned
  dsimp only [Ev.updPort, Ev.raise]
  generalize judgePut a.ringLength e.port.take e.port.retire (Memory.read e.mem 12).toNat = fault
  split
  · rfl
  · split <;> rfl

/-- What an order scan leaves of the port beside its judgement, and the judgement. -/
theorem Port.scanned_spec (p : Port) (a : Anchor) (put : Nat) (notice : Word) (fault : PortFault) :
    let q := p.scanned a put notice fault
    q.noticeOffset = some notice ∧ q.scanTimer = some a.scanInterval ∧ q.take = p.take ∧ q.retire = p.retire
      ∧ q.handedMarks = p.handedMarks - 1 ∧ q.fault = fault ∧ q.putValid = (if fault = .none then put else p.putValid)
      ∧ (fault ≠ .none → p.fault ≠ fault → q.notices.getLsbD Notice.portFault.bit = true) := by
  unfold Port.scanned
  dsimp only
  split
  · next h => exact ⟨rfl, rfl, rfl, rfl, rfl, h.symm, rfl, fun k => absurd h k⟩
  · split
    · next h => exact ⟨rfl, rfl, rfl, rfl, rfl, h, rfl, fun _ k => absurd h k⟩
    · refine ⟨rfl, rfl, rfl, rfl, rfl, rfl, rfl, fun _ _ => ?_⟩
      show (p.notices ||| Notice.portFault.mask).getLsbD _ = true
      rw [BitVec.getLsbD_or, show Notice.portFault.mask.getLsbD Notice.portFault.bit = true by decide, Bool.or_true]

/-- Settles O11: the scan changes the port alone, and the event's end writes the status area alone. -/
theorem orderScanJudgesThePutOffset : Obligations.OrderScanJudgesThePutOffset := by
  intro host s a hatt hc h htake
  have hdue : ((s.landed host).attached && !(s.landed host).takeDue) = true := by
    show (decide (s.port.state = .attached) && !(decide (s.port.state = .attached) && s.port.take != s.port.putValid)) = true
    rw [hatt, htake]
    simp
  have hrun : execOrderScan host s = .next ((s.landed host).orderScan a).settle.toState := by
    refine (act_of_regionsInMemory h _).trans (congrArg (fun e : Ev => Host.Outcome.next e.settle.toState) ?_)
    show (match ((s.landed host).attached && !(s.landed host).takeDue), s.port.anchor with
      | true, some a => (s.landed host).orderScan a
      | _, _ => s.landed host) = _
    rw [hdue, hc]
  obtain ⟨h1, h2, h3, h4, h5, h6, h7, h8⟩ := s.port.scanned_spec a (Memory.read (Memory.hostWrites s.mem host) 12).toNat
    (Memory.read (Memory.hostWrites s.mem host) 13)
    (judgePut a.ringLength s.port.take s.port.retire (Memory.read (Memory.hostWrites s.mem host) 12).toNat)
  have hwrote : ((s.landed host).orderScan a).Wrote ((s.landed host).orderScan a).settle (fun _ => True) := by
    rw [Ev.orderScan_eq]
    exact Ev.settle_wrote rfl rfl (fun _ _ _ _ _ _ => trivial) fun _ _ _ _ _ => trivial
  have hblocks := hwrote.sameBlocks
  have hport := hwrote.port
  rw [Ev.orderScan_eq] at hblocks hport hrun
  generalize ((s.landed host).updPort fun p => p.scanned a _ _ _).settle = f at *
  obtain ⟨counts, hport⟩ : ∃ c, f.port = { (s.port.scanned a (Memory.read (Memory.hostWrites s.mem host) 12).toNat
      (Memory.read (Memory.hostWrites s.mem host) 13)
      (judgePut a.ringLength s.port.take s.port.retire (Memory.read (Memory.hostWrites s.mem host) 12).toNat)) with
      updateCounts := c } := ⟨_, hport⟩
  have hsame : s.SameBlocks f.toState := ⟨⟨hblocks.1.1, hblocks.1.2, hblocks.1.3, hblocks.1.4, hblocks.1.5, hblocks.1.6, hblocks.1.7,
    hblocks.1.8, hblocks.1.9⟩, hblocks.2⟩
  refine ⟨_, hrun, by rw [hport]; exact h1, by rw [hport]; exact h2, by rw [hport]; exact h3, by rw [hport]; exact h4,
    by rw [hport]; exact h5, hsame, ?_⟩
  have hnotice : f.toState.noticePending .portFault = f.port.notices.getLsbD Notice.portFault.bit := rfl
  rw [hnotice, hport]
  generalize s.port.scanned a _ _ _ = q at *
  dsimp only
  obtain ⟨j, hj⟩ : ∃ j, judgePut a.ringLength s.port.take s.port.retire (Memory.read (Memory.hostWrites s.mem host) 12).toNat = j :=
    ⟨_, rfl⟩
  rw [hj] at h6 h7 h8
  by_cases k1 : a.ringLength ≤ (Memory.read (Memory.hostWrites s.mem host) 12).toNat
  · rw [judgePut, if_pos k1] at hj
    subst hj
    rw [if_pos k1]
    exact ⟨h6, h7, h8 (by decide)⟩
  · rw [judgePut, if_neg k1] at hj
    rw [if_neg k1]
    split_ifs at hj ⊢ with k2
    · subst hj
      exact ⟨h6, h7, h8 (by decide)⟩
    · subst hj
      exact ⟨h6, h7⟩

end Sys2Proof.Machine
end

