-- ==== Sys2Proof/Proofs/Goings.lean ====
section
/-! PROOFS. What an event has left so far of the exchange port, the exchange memory and the units it is not about (`Ev.Goes`): it writes the
slots of the orders that units hold alone, it owes the mirror block of every unit of which a zone has changed its state (R12), and the
units outside a set keep their settings, the aims of their zones, and the service of their lines. -/

namespace Sys2Proof.Machine

/-- Unit v keeps its settings and the aims of its zones, its line its service, and it has no new order. -/
structure State.UnitKept (s t : State) (v : UnitNo) : Prop where
  settings : (s.unit v).SameSettings (t.unit v)
  tracked : (t.unit v).tracked = (s.unit v).tracked ∨ (t.unit v).tracked = none
  aims : ∀ z, (s.zone v z).SameAims (t.zone v z)
  service : (s.line v).SameService (t.line v)

theorem UnitRec.SameSettings.refl (r : UnitRec) : r.SameSettings r := ⟨rfl, rfl, rfl, rfl, rfl, rfl, rfl⟩

theorem UnitRec.SameSettings.trans {a b c : UnitRec} (h : a.SameSettings b) (k : b.SameSettings c) : a.SameSettings c :=
  ⟨k.1.trans h.1, k.2.trans h.2, k.3.trans h.3, k.4.trans h.4, k.5.trans h.5, k.6.trans h.6, k.7.trans h.7⟩

theorem State.UnitKept.refl (s : State) (v : UnitNo) : s.UnitKept s v := ⟨.refl _, .inl rfl, fun _ => .refl _, .refl _⟩

theorem State.UnitKept.trans {a b c : State} {v : UnitNo} (h : a.UnitKept b v) (k : b.UnitKept c v) : a.UnitKept c v where
  settings := h.settings.trans k.settings
  tracked := k.tracked.elim (fun j => h.tracked.imp j.trans j.trans) .inr
  aims z := (h.aims z).trans (k.aims z)
  service := h.service.trans k.service

/-- The units in `U` apart, every unit is kept; the orders held stand in slots of `K`, and beside word 15 the words of those slots alone
have been written. -/
structure Ev.Goes (U : UnitNo → Prop) (K : Nat → Prop) (d e : Ev) : Prop where
  others : ∀ v, ¬U v → d.toState.UnitKept e.toState v
  course : d.port.SameCourse e.port
  counts : e.port.updateCounts = d.port.updateCounts
  notices : d.port.notices &&& e.port.notices = d.port.notices
  start : e.start = d.start
  owed : d.mirrorDue ⊆ e.mirrorDue
  changed : ∀ u z, (e.zone u z).state ≠ (d.zone u z).state → u ∈ e.mirrorDue
  faulted : ∀ u, (e.unit u).sweepFault ≠ (d.unit u).sweepFault → u ∈ e.mirrorDue
  slots : ∀ u, ∀ k ∈ (e.unit u).slots, K k
  unfinished : d.unfinished ⊆ e.unfinished
  mem : Memory.wf d.mem = true → Memory.wf e.mem = true ∧ ∀ a, d.port.anchor = some a → ∀ x, x ≠ 15 →
    (∀ k, K k → x ≠ a.slotWord k 14 ∧ x ≠ a.slotWord k 15) → Memory.read e.mem x = Memory.read d.mem x

variable {U : UnitNo → Prop} {K : Nat → Prop} {d e : Ev} {u : UnitNo}

theorem noticeBits_trans {a b c : BitVec 10} (h : a &&& b = a) (k : b &&& c = b) : a &&& c = a := by
  rw [← h, BitVec.and_assoc, k]

namespace Ev.Goes

theorem refl (hK : ∀ u, ∀ k ∈ (e.unit u).slots, K k) : e.Goes U K e :=
  ⟨fun _ _ => .refl _ _, .refl _, rfl, BitVec.and_self, rfl, List.Subset.refl _, fun _ _ h => absurd rfl h, fun _ h => absurd rfl h, hK,
    List.Subset.refl _, fun hw => ⟨hw, fun _ _ _ _ _ => rfl⟩⟩

theorem wf (h : d.Goes U K e) (hw : Memory.wf d.mem = true) : Memory.wf e.mem = true := (h.mem hw).1

/-- A word that is not word 15 and in no slot of `K` stands as it stood. -/
theorem words (h : d.Goes U K e) (hw : Memory.wf d.mem = true) (a : Anchor) (ha : d.port.anchor = some a) (x : Nat) (h15 : x ≠ 15)
    (hx : ∀ k, K k → x ≠ a.slotWord k 14 ∧ x ≠ a.slotWord k 15) : Memory.read e.mem x = Memory.read d.mem x := (h.mem hw).2 a ha x h15 hx

theorem trans {f : Ev} (h : d.Goes U K e) (k : e.Goes U K f) : d.Goes U K f where
  others v hv := (h.others v hv).trans (k.others v hv)
  course := h.course.trans k.course
  counts := k.counts.trans h.counts
  notices := noticeBits_trans h.notices k.notices
  start := k.start.trans h.start
  owed := List.Subset.trans h.owed k.owed
  changed u z hz := by
    by_cases j : (f.zone u z).state = (e.zone u z).state
    · exact k.owed (h.changed u z (j ▸ hz))
    · exact k.changed u z j
  faulted u hu := by
    by_cases j : (f.unit u).sweepFault = (e.unit u).sweepFault
    · exact k.owed (h.faulted u (j ▸ hu))
    · exact k.faulted u j
  slots := k.slots
  unfinished := List.Subset.trans h.unfinished k.unfinished
  mem hw := ⟨k.wf (h.wf hw), fun a ha x h15 hx =>
    (k.words (h.wf hw) a (h.course.anchor.trans ha) x h15 hx).trans (h.words hw a ha x h15 hx)⟩

/-- From the event as it stands: what has gone so far goes on. -/
theorem here (h : d.Goes U K e) : e.Goes U K e := .refl h.slots

end Ev.Goes

/-- A unit's record keeps its settings and the aims of its zones, and has no new order. -/
structure UnitRec.Kept (r r' : UnitRec) : Prop where
  settings : r.SameSettings r'
  tracked : r'.tracked = r.tracked ∨ r'.tracked = none
  aims : ∀ z : ZoneNo, (r.zones[z]).SameAims r'.zones[z]

theorem UnitRec.Kept.refl (r : UnitRec) : r.Kept r := ⟨.refl r, .inl rfl, fun _ => .refl _⟩

theorem UnitRec.Kept.of_zone (r : UnitRec) (z : ZoneNo) {q : Zone} (hq : (r.zones[z]).SameAims q) :
    r.Kept { r with zones := r.zones.set z q } := by
  refine ⟨⟨rfl, rfl, rfl, rfl, rfl, rfl, rfl⟩, .inl rfl, fun y => ?_⟩
  rcases eq_or_ne z y with rfl | k
  · simpa using hq
  · have k' : z.val ≠ y.val := fun j => k (Fin.ext j)
    simpa [k'] using Zone.SameAims.refl _

/-- A unit's record has no order in a slot that is not of `K`. -/
def UnitRec.SlotsIn (K : Nat → Prop) (r r' : UnitRec) : Prop := ∀ k ∈ r'.slots, k ∈ r.slots ∨ K k

theorem UnitRec.SlotsIn.of_orders {r r' : UnitRec} (ht : r'.tracked = r.tracked) (hw : r'.waiting = r.waiting) : r.SlotsIn K r' := by
  unfold UnitRec.SlotsIn UnitRec.slots
  rw [ht, hw]
  exact fun _ k => .inl k

namespace Ev.Goes

theorem updUnit_kept (u : UnitNo) (f : UnitRec → UnitRec) (hk : ¬U u → (e.unit u).Kept (f (e.unit u))) (v : UnitNo) (hv : ¬U v) :
    e.toState.UnitKept (e.updUnit u f).toState v := by
  have hunit := e.updUnit_unit u v f
  by_cases huv : u = v
  · subst huv
    have hk := hk hv
    rw [if_pos rfl] at hunit
    refine ⟨hunit ▸ hk.settings, hunit ▸ hk.tracked, fun z => ?_, .refl _⟩
    show ((e.unit u).zones[z]).SameAims ((e.updUnit u f).unit u).zones[z]
    rw [hunit]
    exact hk.aims z
  · rw [if_neg huv] at hunit
    refine ⟨hunit ▸ .refl _, hunit ▸ .inl rfl, fun z => ?_, .refl _⟩
    show ((e.unit v).zones[z]).SameAims ((e.updUnit u f).unit v).zones[z]
    rw [hunit]
    exact .refl _

theorem updUnit_slots (h : d.Goes U K e) (u : UnitNo) (f : UnitRec → UnitRec) (hs : (e.unit u).SlotsIn K (f (e.unit u))) :
    ∀ v, ∀ k ∈ ((e.updUnit u f).unit v).slots, K k := fun v k hk => by
  rw [Ev.updUnit_unit] at hk
  split at hk
  · next j => subst j; exact (hs k hk).elim (h.slots u k) id
  · exact h.slots v k hk

/-- A change of a unit's record that leaves the states of its zones and its sweep fault. -/
theorem updUnit (h : d.Goes U K e) (u : UnitNo) (f : UnitRec → UnitRec) (hk : ¬U u → (e.unit u).Kept (f (e.unit u)))
    (hz : ∀ z : ZoneNo, ((f (e.unit u)).zones[z]).state = ((e.unit u).zones[z]).state)
    (hf : (f (e.unit u)).sweepFault = (e.unit u).sweepFault)
    (hs : (e.unit u).SlotsIn K (f (e.unit u)) := by exact .of_orders rfl rfl) : d.Goes U K (e.updUnit u f) := by
  refine h.trans { h.here with
    others := updUnit_kept u f hk, changed := fun v z j => (j ?_).elim, faulted := fun v j => (j ?_).elim, slots := h.updUnit_slots u f hs }
  · show (((e.updUnit u f).unit v).zones[z]).state = ((e.unit v).zones[z]).state
    rw [Ev.updUnit_unit]
    split
    · next k => subst k; exact hz z
    · rfl
  · rw [Ev.updUnit_unit]
    split
    · next k => subst k; exact hf
    · rfl

/-- A change of a unit's record that owes its mirror block. -/
theorem updUnit_owing (h : d.Goes U K e) (u : UnitNo) (f : UnitRec → UnitRec) (hk : ¬U u → (e.unit u).Kept (f (e.unit u)))
    (hs : (e.unit u).SlotsIn K (f (e.unit u)) := by exact .of_orders rfl rfl) : d.Goes U K ((e.updUnit u f).oweMirror u) := by
  have hother : ∀ v, v ≠ u → ((e.updUnit u f).oweMirror u).unit v = e.unit v := fun v hv =>
    (e.updUnit_unit u v f).trans (if_neg (Ne.symm hv))
  refine h.trans { h.here with
    others := updUnit_kept u f hk, slots := h.updUnit_slots u f hs, owed := List.subset_cons_self _ _, changed := fun v z j => ?_,
    faulted := fun v j => ?_ }
  · by_cases hv : v = u
    · exact hv ▸ List.mem_cons_self
    · exact (j (congrArg (fun r : UnitRec => (r.zones[z]).state) (hother v hv))).elim
  · by_cases hv : v = u
    · exact hv ▸ List.mem_cons_self
    · exact (j (congrArg UnitRec.sweepFault (hother v hv))).elim

theorem updLine (h : d.Goes U K e) (n : LineNo) (f : Line → Line) (hk : ¬U n → (e.line n).SameService (f (e.line n))) :
    d.Goes U K (e.updLine n f) := by
  refine h.trans { h.here with others := fun v hv => ⟨.refl _, .inl rfl, fun _ => .refl _, ?_⟩ }
  rw [Ev.updLine_line]
  split
  · next j => subst j; exact hk hv
  · exact .refl _

/-- A change of a line's pending list, grants, tag counter or queue. -/
theorem updLists (h : d.Goes U K e) (n : LineNo) (f : Line → Line)
    (hf : ∀ l : Line, l.SameService (f l) := by exact fun _ => ⟨rfl, rfl, rfl, rfl, rfl, rfl, rfl, rfl, rfl, rfl⟩) : d.Goes U K (e.updLine n f) :=
  h.updLine n f fun _ => hf _

theorem updQueue (h : d.Goes U K e) (n : LineNo) (f : CommandQueue → CommandQueue) : d.Goes U K (e.updQueue n f) :=
  h.updLine n _ fun _ => ⟨rfl, rfl, rfl, rfl, rfl, rfl, rfl, rfl, rfl, rfl⟩

theorem updFountain (h : d.Goes U K e) {n : LineNo} (hn : U n) (f : Fountain → Fountain) : d.Goes U K (e.updFountain n f) :=
  h.updLine n _ fun k => absurd hn k

theorem updModules (h : d.Goes U K e) {n : LineNo} (hn : U n) (f : ModuleRec → ModuleRec) : d.Goes U K (e.updModules n f) :=
  h.updLine n _ fun k => absurd hn k

theorem updModule (h : d.Goes U K e) {n : LineNo} (hn : U n) (m : Fin 9) (f : ModuleRec → ModuleRec) : d.Goes U K (e.updModule n m f) :=
  h.updLine n _ fun k => absurd hn k

theorem updZone (h : d.Goes U K e) (u : UnitNo) (z : ZoneNo) (f : Zone → Zone) (hstate : (f (e.zone u z)).state = (e.zone u z).state)
    (hk : ¬U u → (e.zone u z).SameAims (f (e.zone u z))) : d.Goes U K (e.updZone u z f) := by
  have hstate' : (f (e.unit u).zones[z]).state = ((e.unit u).zones[z]).state := hstate
  refine h.updUnit u _ (fun j => UnitRec.Kept.of_zone _ z (hk j)) (fun y => ?_) rfl
  rcases eq_or_ne z y with rfl | k
  · simpa using hstate'
  · have k' : z.val ≠ y.val := fun j => k (Fin.ext j)
    simp [k']

/-- A change of a zone's move fields, cause or attempts. -/
theorem updMove (h : d.Goes U K e) (u : UnitNo) (z : ZoneNo) (f : Zone → Zone)
    (hf : ∀ r : Zone, (f r).state = r.state ∧ r.SameAims (f r) := by exact fun _ => ⟨rfl, rfl, rfl, rfl, rfl, rfl, rfl, rfl⟩) :
    d.Goes U K (e.updZone u z f) := h.updZone u z f (hf _).1 fun _ => (hf _).2

theorem updZones (h : d.Goes U K e) {u : UnitNo} (hu : U u) (f : ZoneNo → Zone → Zone) (hstate : ∀ z r, (f z r).state = r.state) :
    d.Goes U K (e.updZones u f) :=
  h.updUnit u _ (fun k => absurd hu k) (fun z => by rw [Fin.getElem_fin, Vector.getElem_ofFn]; exact hstate z _) (by exact rfl)
    (.of_orders (by exact rfl) (by exact rfl))

/-- A change of the event's counts and of what it owes beside the mirror, or of the scheduler's counts. -/
theorem same (h : d.Goes U K e) {e' : Ev} (hunits : e'.units = e.units) (hlines : e'.lines = e.lines) (hport : e'.port = e.port)
    (hmem : e'.mem = e.mem) (hun : e'.unfinished = e.unfinished) (hstart : e'.start = e.start) (howed : e.mirrorDue ⊆ e'.mirrorDue) :
    d.Goes U K e' := by
  have hu : ∀ v, e'.unit v = e.unit v := fun v => by rw [State.unit, hunits]; rfl
  have hl : ∀ v, e'.line v = e.line v := fun v => by rw [State.line, hlines]; rfl
  have hzone : ∀ v z, e'.zone v z = e.zone v z := fun v z => congrArg (fun r : UnitRec => r.zones[z]) (hu v)
  refine h.trans ⟨fun v _ => ⟨hu v ▸ .refl _, hu v ▸ .inl rfl, fun z => hzone v z ▸ .refl _, hl v ▸ .refl _⟩, hport ▸ .refl _, by rw [hport],
    by rw [hport]; exact BitVec.and_self, hstart, howed, fun v z j => absurd (by rw [hzone]) j, fun v j => absurd (by rw [hu]) j,
    fun v => hu v ▸ h.slots v, by rw [hun]; exact List.Subset.refl _, fun hw => ⟨hmem ▸ hw, fun _ _ _ _ _ => by rw [hmem]⟩⟩

theorem oweMirror (h : d.Goes U K e) (u : UnitNo) : d.Goes U K (e.oweMirror u) :=
  h.same rfl rfl rfl rfl rfl rfl (List.subset_cons_self _ _)

theorem oweTest (h : d.Goes U K e) (u : UnitNo) : d.Goes U K (e.oweTest u) := h.same rfl rfl rfl rfl rfl rfl (List.Subset.refl _)

theorem oweLine (h : d.Goes U K e) (n : LineNo) : d.Goes U K (e.oweLine n) := h.same rfl rfl rfl rfl rfl rfl (List.Subset.refl _)

theorem oweArbiter (h : d.Goes U K e) : d.Goes U K e.oweArbiter := h.same rfl rfl rfl rfl rfl rfl (List.Subset.refl _)

theorem counting (h : d.Goes U K e) (r l k : Nat) : d.Goes U K { e with raised := r, lowered := l, saturated := k } :=
  h.same rfl rfl rfl rfl rfl rfl (List.Subset.refl _)

theorem setCheck (h : d.Goes U K e) (c : Option CheckRun) : d.Goes U K (e.setCheck c) :=
  h.same rfl rfl rfl rfl rfl rfl (List.Subset.refl _)

theorem updIntake (h : d.Goes U K e) (f : Intake → Intake) : d.Goes U K (e.updIntake f) :=
  h.same rfl rfl rfl rfl rfl rfl (List.Subset.refl _)

theorem updPort (h : d.Goes U K e) (f : Port → Port) (hf : e.port.SameCourse (f e.port)) (hc : (f e.port).updateCounts = e.port.updateCounts)
    (hn : e.port.notices &&& (f e.port).notices = e.port.notices) : d.Goes U K (e.updPort f) :=
  h.trans { h.here with others := fun _ _ => ⟨.refl _, .inl rfl, fun _ => .refl _, .refl _⟩, course := hf, counts := hc, notices := hn }

theorem raise (h : d.Goes U K e) (n : Notice) : d.Goes U K (e.raise n) :=
  h.updPort _ ⟨rfl, rfl, rfl, rfl, rfl, rfl, rfl, rfl, rfl, rfl, rfl, rfl, rfl, rfl, rfl, rfl, rfl, rfl⟩ rfl (Port.raise_keeps _ _)

theorem foldl {α : Type} {f : Ev → α → Ev} (hf : ∀ (e : Ev) (x : α), d.Goes U K e → d.Goes U K (f e x)) (l : List α) (h : d.Goes U K e) :
    d.Goes U K (l.foldl f e) := by
  induction l generalizing e with
  | nil => exact h
  | cons x l ih => exact ih (hf e x h)

/-! ### Order slots -/

theorem writeWords (h : d.Goes U K e) (b : Nat) (ws : List Word)
    (hb : ∀ a, e.port.anchor = some a → ∀ x, b ≤ x → x < b + ws.length → x = 15 ∨ ∃ k, K k ∧ (x = a.slotWord k 14 ∨ x = a.slotWord k 15)) :
    d.Goes U K (e.writeWords b ws) := by
  refine h.trans { h.here with
    others := fun v _ => ⟨.refl _, .inl rfl, fun _ => .refl _, .refl _⟩, unfinished := List.subset_append_right _ _,
    mem := fun hw => ⟨Memory.write_wf _ _ _ hw, fun a ha x h15 hx => Memory.read_write_outside _ _ _ _ hw ?_⟩ }
  by_contra hin
  rcases hb a ha x (by omega) (by omega) with rfl | ⟨k, hk, j⟩
  · exact h15 rfl
  · exact j.elim (hx k hk).1 (hx k hk).2

theorem writeStatus (h : d.Goes U K e) {slot : Nat} (hslot : K slot) (st : Status) (x : Detail) : d.Goes U K (e.writeStatus slot st x) := by
  unfold Ev.writeStatus
  split
  · next a _ ha =>
    refine (h.writeWords _ _ fun b hb y h1 h2 => .inr ⟨slot, hslot, ?_⟩).writeWords _ _ fun b hb y h1 h2 => .inr ⟨slot, hslot, ?_⟩
    all_goals
      obtain rfl : a = b := Option.some.inj (ha.symm.trans hb)
      simp only [Anchor.slotWord, List.length_cons, List.length_nil] at h1 h2 ⊢
      omega
  · exact h

theorem advanceRetire (h : d.Goes U K e) (a : Anchor) : d.Goes U K (e.advanceRetire a) := by
  unfold Ev.advanceRetire
  dsimp only
  split
  · have h1 := (h.updPort (fun p => { p with
      retire := (retireWalk a.ringLength e.port.noticeOffset e.port.finished.length e.port.retire e.port.finished false).1,
      finished := (retireWalk a.ringLength e.port.noticeOffset e.port.finished.length e.port.retire e.port.finished false).2.1 })
      ⟨rfl, rfl, rfl, rfl, rfl, rfl, rfl, rfl, rfl, rfl, rfl, rfl, rfl, rfl, rfl, rfl, rfl, rfl⟩ rfl BitVec.and_self).writeWords 15
        [wordOf (retireWalk a.ringLength e.port.noticeOffset e.port.finished.length e.port.retire e.port.finished false).1]
        (fun b _ x h1 h2 => .inl (by simp only [List.length_cons, List.length_nil] at h2; omega))
    split
    · exact h1.raise _
    · exact h1
  · exact h

theorem slotFinal (h : d.Goes U K e) (slot : Nat) (notify : Bool) : d.Goes U K (e.slotFinal slot notify) := by
  unfold Ev.slotFinal
  split
  · have h1 := h.updPort (fun p => { p with finished := if p.finished.contains slot then p.finished else p.finished ++ [slot] })
      ⟨rfl, rfl, rfl, rfl, rfl, rfl, rfl, rfl, rfl, rfl, rfl, rfl, rfl, rfl, rfl, rfl, rfl, rfl⟩ rfl BitVec.and_self
    dsimp only
    split
    · exact (h1.raise _).advanceRetire _
    · exact h1.advanceRetire _
  · exact h

theorem endSlot (h : d.Goes U K e) {o : OrderRecord} (ho : K o.slot) (st : Status) (x : Detail) : d.Goes U K (e.endSlot o st x) :=
  (h.writeStatus ho _ _).slotFinal _ _

end Ev.Goes

end Sys2Proof.Machine
end

