-- ==== Sys2Proof/Proofs/GoingOps.lean ====
section
/-! PROOFS. Every shared operation goes on in the sense of `Ev.Goes`: orders that end, zones that change, the fountain, the passes of an
order's start, the arbiter and the completion tests. -/

namespace Sys2Proof.Machine

variable {U : UnitNo → Prop} {K : Nat → Prop} {d e : Ev} {u : UnitNo}

namespace Ev.Goes

/-! ### Orders -/

theorem clearTracked (h : d.Goes U K e) (u : UnitNo) : d.Goes U K (e.clearTracked u) :=
  h.updUnit u _ (fun _ => ⟨⟨rfl, rfl, rfl, rfl, rfl, rfl, rfl⟩, .inr rfl, fun _ => .refl _⟩) (fun _ => rfl) rfl
    fun _ k => .inl (List.mem_append_right _ k)

theorem clearWaiting (h : d.Goes U K e) {u : UnitNo} (hu : U u) : d.Goes U K (e.clearWaiting u) :=
  h.updUnit u _ (fun k => absurd hu k) (fun _ => rfl) rfl fun k j => .inl (by
    simp only [UnitRec.slots, Option.map_none, Option.toList_none, List.append_nil] at j
    exact List.mem_append_left _ j)

theorem tracked_slot (h : d.Goes U K e) {o : OrderRecord} (ho : (e.unit u).tracked = some o) : K o.slot :=
  h.slots u _ (List.mem_append_left _ (by simp [ho]))

theorem waiting_slot (h : d.Goes U K e) {w : WaitingOrder} (hw : (e.unit u).waiting = some w) : K w.order.slot :=
  h.slots u _ (List.mem_append_right _ (by simp [hw]))

theorem endTracked (h : d.Goes U K e) (u : UnitNo) (st : Status) (c : Cause) : d.Goes U K (e.endTracked u st c) := by
  unfold Ev.endTracked
  split
  · next ho => exact (h.clearTracked u).endSlot (h.tracked_slot ho) _ _
  · exact h

theorem endWaiting (h : d.Goes U K e) {u : UnitNo} (hu : U u) (st : Status) (c : Cause) : d.Goes U K (e.endWaiting u st c) := by
  unfold Ev.endWaiting
  split
  · next hw => exact (h.clearWaiting hu).endSlot (h.waiting_slot hw) _ _
  · exact h

theorem supersede (h : d.Goes U K e) {u : UnitNo} (hu : U u) : d.Goes U K (e.supersede u) := (h.endTracked u _ _).endWaiting hu _ _

theorem endCheckOrder (h : d.Goes U K e) (a b : LineNo) (st : Status) (c : Cause) (k : Nat) : d.Goes U K (e.endCheckOrder a b st c k) := by
  unfold Ev.endCheckOrder
  split
  · next ho => exact ((h.clearTracked a).clearTracked b).endSlot (h.tracked_slot ho) _ _
  · exact h

theorem testOrder (h : d.Goes U K e) (u : UnitNo) : d.Goes U K (e.testOrder u) := by
  unfold Ev.testOrder
  split
  · split
    · exact h.endTracked u _ _
    · exact h
  · exact h

theorem runTests (h : d.Goes U K e) : d.Goes U K e.runTests :=
  (foldl (fun _ u k => k.testOrder u) (inOrder e.testDue) h).same rfl rfl rfl rfl rfl rfl (List.Subset.refl _)

theorem endLinePower (h : d.Goes U K e) (n : LineNo) (on : Bool) : d.Goes U K (e.endLinePower n on) := by
  unfold Ev.endLinePower
  split
  · split
    · exact h.endTracked n _ _
    · exact h
  · exact h

theorem completeCheck (h : d.Goes U K e) (c : CheckRun) : d.Goes U K (e.completeCheck c) := by
  unfold Ev.completeCheck
  dsimp only
  split
  · exact h
  · exact h.endCheckOrder _ _ _ _ _

theorem closeStart (h : d.Goes U K e) (u : UnitNo) (st : Status) : d.Goes U K (e.closeStart u st) := by
  unfold Ev.closeStart
  split
  · exact h.clearTracked u
  · exact h

/-! ### Zones -/

theorem releaseGrant (h : d.Goes U K e) (u : UnitNo) (z : ZoneNo) : d.Goes U K (e.releaseGrant u z) :=
  ((h.updMove u z fun r => { r with commanded := none, moveKind := none, moveTag := none, moveTimer := none }).updLists u
    fun l => { l with grants := l.grants - 1 }).same rfl rfl rfl rfl rfl rfl (List.Subset.refl _)

theorem dropEntry (h : d.Goes U K e) (u : UnitNo) (z : ZoneNo) : d.Goes U K (e.dropEntry u z) :=
  h.updLists u _

theorem changeState (h : d.Goes U K e) (u : UnitNo) (z : ZoneNo) (new : ZoneState) : d.Goes U K (e.changeState u z new) := by
  unfold Ev.changeState
  dsimp only
  split
  · exact h
  · refine (updUnit_owing ?_ u _ fun _ => UnitRec.Kept.of_zone _ z (by exact ⟨rfl, rfl, rfl, rfl, rfl, rfl, rfl⟩)).oweTest u
    have h1 : d.Goes U K (if (e.zone u z).state = .moving then e.releaseGrant u z else e) := by
      split
      · exact h.releaseGrant u z
      · exact h
    split
    · exact h1.dropEntry u z
    · exact h1

theorem enterPending (h : d.Goes U K e) (u : UnitNo) (z : ZoneNo) (k : MoveKind) : d.Goes U K (e.enterPending u z k) := by
  unfold Ev.enterPending
  split
  · exact h
  · exact ((h.changeState u z .pending).updLists u _).oweArbiter

theorem enterFaulted (h : d.Goes U K e) (u : UnitNo) (z : ZoneNo) (c : FaultCause) : d.Goes U K (e.enterFaulted u z c) :=
  ((h.changeState u z .faulted).updMove u z _).raise _

theorem place (h : d.Goes U K e) (u : UnitNo) (z : ZoneNo) : d.Goes U K (e.place u z) := by
  unfold Ev.place
  split
  · exact h.enterPending u z _
  · exact h.changeState u z _
  · split
    · exact h.updMove u z _
    · exact h.enterFaulted u z _

theorem haltKey (h : d.Goes U K e) (n : LineNo) (z : ZoneNo) : d.Goes U K (e.haltKey n z) := by
  unfold Ev.haltKey
  split
  · exact h.updQueue n _
  · exact h.updQueue n _

theorem tagTaken (h : d.Goes U K e) (n : LineNo) (g : Tag) : d.Goes U K (e.tagTaken n g) :=
  h.updLists n _

theorem sendMove (h : d.Goes U K e) (u : UnitNo) (z : ZoneNo) (x k : Nat) : d.Goes U K (e.sendMove u z x k) := by
  unfold Ev.sendMove
  exact ((h.tagTaken u _).updQueue u _).updMove u z _

theorem sendZero (h : d.Goes U K e) (u : UnitNo) (z : ZoneNo) : d.Goes U K (e.sendZero u z) := by
  unfold Ev.sendZero
  exact ((h.tagTaken u _).updQueue u _).updMove u z _

theorem retarget (h : d.Goes U K e) (u : UnitNo) (z : ZoneNo) (x : Nat) : d.Goes U K (e.retarget u z x) := by
  unfold Ev.retarget
  dsimp only
  split
  · exact h
  · split
    · exact h
    · split
      · exact (h.updQueue u _).updMove u z _
      · exact h.sendMove u z x 0

theorem actOnTarget (h : d.Goes U K e) (u : UnitNo) (z : ZoneNo) (x : Nat) : d.Goes U K (e.actOnTarget u z x) := by
  unfold Ev.actOnTarget
  split
  · exact h.place u z
  · exact h.place u z
  · exact h.retarget u z x
  · exact h
  · exact h
  · exact h

theorem newTarget (h : d.Goes U K e) {u : UnitNo} (hu : U u) (z : ZoneNo) (x : Nat) : d.Goes U K (e.newTarget u z x) :=
  (h.updZone u z _ (by exact rfl) fun k => absurd hu k).actOnTarget u z x

theorem returnZone (h : d.Goes U K e) (u : UnitNo) (z : ZoneNo) : d.Goes U K (e.returnZone u z) := by
  unfold Ev.returnZone
  split
  · exact (h.enterPending u z _).updMove u z _
  · exact h

theorem returnMoving (h : d.Goes U K e) (u : UnitNo) : d.Goes U K (e.returnMoving u) :=
  foldl (fun _ z k => k.returnZone u z) (ascending 64) h

theorem stallZone (h : d.Goes U K e) (u : UnitNo) (z : ZoneNo) : d.Goes U K (e.stallZone u z) := (h.haltKey u z).enterFaulted u z _

theorem loseZone (h : d.Goes U K e) (u : UnitNo) (z : ZoneNo) : d.Goes U K (e.loseZone u z) := by
  unfold Ev.loseZone
  split
  · exact (h.haltKey u z).enterFaulted u z _
  · exact h.enterFaulted u z _
  · exact h.enterFaulted u z _
  · exact h
  · exact h
  · exact h

theorem setSettle (h : d.Goes U K e) {u : UnitNo} (hu : U u) (z : ZoneNo) : d.Goes U K (e.setSettle u z) := by
  unfold Ev.setSettle
  exact h.updZone u z _ (by exact rfl) fun k => absurd hu k

theorem keyReply (h : d.Goes U K e) {u : UnitNo} (hu : U u) (z : ZoneNo) (x : Nat) (m : Decode.Motion) (g : Tag) :
    d.Goes U K (e.keyReply u z x m g) := by
  unfold Ev.keyReply
  split
  · cases m with
    | moving => exact h
    | blocked => exact h.enterFaulted u z _
    | atRest =>
      dsimp only
      split
      · unfold Ev.zeroAtRest
        split
        · exact (h.setSettle hu z).place u z
        · exact h.enterFaulted u z _
      · unfold Ev.positionAtRest
        dsimp only
        split
        · exact (h.setSettle hu z).changeState u z _
        · split
          · exact h.sendMove u z _ _
          · exact h.enterFaulted u z _
  · exact h

/-! ### HOLD, RELEASE and CLEAR FAULT -/

theorem holdZone (h : d.Goes U K e) (u : UnitNo) (z : ZoneNo) : d.Goes U K (e.holdZone u z) := by
  unfold Ev.holdZone
  split
  · exact h.changeState u z _
  · exact h.changeState u z _
  · exact (h.haltKey u z).changeState u z _
  · exact h
  · exact h
  · exact h

theorem releaseZone (h : d.Goes U K e) (u : UnitNo) (z : ZoneNo) : d.Goes U K (e.releaseZone u z) := by
  unfold Ev.releaseZone
  split
  · exact h.place u z
  · exact h

theorem clearZone (h : d.Goes U K e) (u : UnitNo) (z : ZoneNo) : d.Goes U K (e.clearZone u z) := by
  unfold Ev.clearZone
  split
  · exact ((h.updMove u z _).place u z).oweMirror u
  · exact h

/-! ### The arbiter -/

theorem grant (h : d.Goes U K e) (n : LineNo) : d.Goes U K (e.grant n) := by
  unfold Ev.grant
  split
  · exact h
  · next p _ _ =>
    have h1 := (h.changeState n p.zone .moving).updLists n fun l => { l with grants := l.grants + 1 }
    generalize (e.changeState n p.zone .moving).updLine n _ = g at h1
    have h2 : d.Goes U K { g with partGrants := g.partGrants + 1, pointer := n } := h1.same rfl rfl rfl rfl rfl rfl (List.Subset.refl _)
    dsimp only
    split
    · exact h2.sendMove n p.zone _ 0
    · exact h2.sendZero n p.zone

theorem grantRounds (h : d.Goes U K e) (k : Nat) : d.Goes U K (Ev.grantRounds k e) := by
  induction k generalizing e with
  | zero => exact h
  | succ k ih =>
    unfold Ev.grantRounds
    split
    · exact ih (h.grant _)
    · exact h

theorem runArbiter (h : d.Goes U K e) : d.Goes U K e.runArbiter := (h.grantRounds _).same rfl rfl rfl rfl rfl rfl (List.Subset.refl _)

theorem settleArbiter (h : d.Goes U K e) : d.Goes U K e.settleArbiter := by
  unfold Ev.settleArbiter
  split
  · exact h.runArbiter
  · exact h

theorem treatRange (h : d.Goes U K e) (l : List ZoneNo) {f : Ev → ZoneNo → Ev}
    (hf : ∀ (e : Ev) z, d.Goes U K e → d.Goes U K (f e z)) : d.Goes U K (e.treatRange l f) :=
  foldl (fun _ z k => (hf _ z k).settleArbiter) l h

/-! ### The fountain drive -/

theorem setSweepFault (h : d.Goes U K e) {u : UnitNo} (hu : U u) (b : Bool) : d.Goes U K (e.setSweepFault u b) := by
  unfold Ev.setSweepFault
  split
  · exact h
  · exact h.updUnit_owing u _ fun k => absurd hu k

theorem endFountainWait (h : d.Goes U K e) {u : UnitNo} (hu : U u) : d.Goes U K (e.endFountainWait u) :=
  (h.updUnit u _ (fun k => absurd hu k) (fun _ => rfl) rfl fun k j => .inl (by
    simp only [UnitRec.slots, Option.map_map] at j ⊢
    exact j)).oweTest u

theorem sendSweep (h : d.Goes U K e) {n : LineNo} (hn : U n) (v : Nat) : d.Goes U K (e.sendSweep n v) := by
  unfold Ev.sendSweep
  exact ((h.tagTaken n _).updQueue n _).updFountain hn _

theorem pursueTo (h : d.Goes U K e) {n : LineNo} (hn : U n) (v : Nat) : d.Goes U K (e.pursueTo n v) := by
  unfold Ev.pursueTo
  split
  · split
    · exact h
    · split
      · exact h.sendSweep hn v
      · exact (h.updFountain hn _).setSweepFault hn true
      · exact h
  · split
    · exact h
    · split
      · exact (h.updQueue n _).updFountain hn _
      · exact h.sendSweep hn v

theorem pursue (h : d.Goes U K e) {n : LineNo} (hn : U n) : d.Goes U K (e.pursue n) := by
  unfold Ev.pursue
  split
  · split
    · exact h.pursueTo hn _
    · exact h
  · exact h

theorem pursueAfresh (h : d.Goes U K e) {n : LineNo} (hn : U n) : d.Goes U K (e.pursueAfresh n) := (h.updFountain hn _).pursue hn

theorem handOver (h : d.Goes U K e) {u : UnitNo} (hu : U u) (v : Nat) : d.Goes U K (e.handOver u v) :=
  ((h.updUnit u _ (fun k => absurd hu k) (fun _ => rfl) rfl).updFountain hu _).pursueAfresh hu

theorem endSweepFault (h : d.Goes U K e) {n : LineNo} (hn : U n) : d.Goes U K (e.endSweepFault n) :=
  (((((h.updFountain hn _).updQueue n _).setSweepFault hn true).oweMirror n).raise .lineEvent).endFountainWait hn

theorem endSweepQuietly (h : d.Goes U K e) {n : LineNo} (hn : U n) : d.Goes U K (e.endSweepQuietly n) := by
  unfold Ev.endSweepQuietly
  split
  · exact h.updFountain hn _
  · exact h

theorem fountainReply (h : d.Goes U K e) {n : LineNo} (hn : U n) (x : Nat) (m : Decode.Motion) (g : Tag) :
    d.Goes U K (e.fountainReply n x m g) := by
  unfold Ev.fountainReply
  split
  · exact h
  · split
    · exact h
    · cases m with
      | moving => exact h
      | blocked => exact h.endSweepFault hn
      | atRest =>
        dsimp only
        split
        · exact ((h.updFountain hn _).setSweepFault hn false).endFountainWait hn
        · exact h.endSweepFault hn

/-! ### The start of an order -/

theorem stage7 (h : d.Goes U K e) {u : UnitNo} (hu : U u) (z : ZoneNo) : d.Goes U K (e.stage7 u z) := by
  unfold Ev.stage7
  split
  · exact (h.counting _ _ _).newTarget hu z _
  · exact h

theorem stage7All (h : d.Goes U K e) {u : UnitNo} (hu : U u) (l : List ZoneNo) : d.Goes U K (e.stage7All u l) :=
  foldl (fun _ z k => k.stage7 hu z) l h

theorem applyPolicy_state (p : OffsetPolicy) (r : Zone) : (applyPolicy p r).state = r.state := by cases p <;> rfl

theorem replan_state (c : UnitConfig) (v : Nat) (r : Zone) : (replan c v r).state = r.state := by unfold replan; split <;> rfl

theorem presetPass (h : d.Goes U K e) {u : UnitNo} (hu : U u) (p : OffsetPolicy) : d.Goes U K (e.presetPass u p) := by
  unfold Ev.presetPass
  split
  · refine (stage7All (updZones (handOver (updZones (updUnit h u _ (fun k => absurd hu k) (fun _ => rfl) rfl) hu _ fun z r => ?_) hu _)
      hu _ fun z r => ?_) hu _).oweMirror u
    · split <;> rfl
    · split
      · exact applyPolicy_state p _
      · rfl
  · exact h

theorem sweepPass (h : d.Goes U K e) {u : UnitNo} (hu : U u) (v : Nat) : d.Goes U K (e.sweepPass u v) := by
  unfold Ev.sweepPass
  split
  · refine (stage7All (updZones (handOver (updUnit h u _ (fun k => absurd hu k) (fun _ => rfl) rfl) hu _) hu _ fun z r => ?_) hu _).oweMirror u
    split
    · exact replan_state _ v r
    · rfl
  · exact h

theorem trimPair (h : d.Goes U K e) {u : UnitNo} (hu : U u) (p : ZoneNo × Int) : d.Goes U K (e.trimPair u p) := by
  unfold Ev.trimPair
  exact (updZone (h.counting _ _ _) u p.1 _ (by exact rfl) fun k => absurd hu k).stage7 hu p.1

theorem trimPass (h : d.Goes U K e) {u : UnitNo} (hu : U u) (l : List (ZoneNo × Int)) : d.Goes U K (e.trimPass u l) :=
  (foldl (fun _ p k => k.trimPair hu p) l h).oweMirror u

theorem zeroZone (h : d.Goes U K e) (u : UnitNo) (z : ZoneNo) : d.Goes U K (e.zeroZone u z) := by
  unfold Ev.zeroZone
  split
  · exact h.enterPending u z _
  · exact h.updLists u _
  · split
    · exact h
    · unfold Ev.redirectToZero
      split
      · exact (h.updQueue u _).updMove u z _
      · exact h.sendZero u z
  · exact h
  · exact h
  · exact h

theorem zeroPass (h : d.Goes U K e) (u : UnitNo) (a b : Nat) : d.Goes U K (e.zeroPass u a b) :=
  foldl (fun _ z k => k.zeroZone u z) (zoneRange a b) h

end Ev.Goes

end Sys2Proof.Machine
end

