-- ==== Sys2Proof/Proofs/Reports.lean ====
section
/-! PROOFS. The end of an event that has gone on (`Ev.Goes`): the mirror blocks it owes are written, and each shows its unit as it then
stands (R12, R165). The take of an order in the midst of such an event writes its slot, T, and nothing else (R163). -/

namespace Sys2Proof.Machine

open Decode

variable {U : UnitNo → Prop} {K : Nat → Prop} {d e f g : Ev} {s t : State} {u : UnitNo} {a : Anchor} {host : List HostWrite} {slot : Slot}
  {st : Status} {x : Detail}

/-- What an event has come to before its end, whether it has taken an order or not. -/
structure Ev.Came (U : UnitNo → Prop) (d e : Ev) : Prop where
  others : ∀ v, ¬U v → d.toState.UnitKept e.toState v
  kept : d.port.Kept e.port
  counts : e.port.updateCounts = d.port.updateCounts
  owed : d.mirrorDue ⊆ e.mirrorDue
  changed : ∀ u z, (e.zone u z).state ≠ (d.zone u z).state → u ∈ e.mirrorDue
  faulted : ∀ u, (e.unit u).sweepFault ≠ (d.unit u).sweepFault → u ∈ e.mirrorDue

theorem Port.SameCourse.kept {p q : Port} (h : p.SameCourse q) (hn : p.notices &&& q.notices = p.notices) : p.Kept q :=
  ⟨h.state, h.anchor, h.detachDeferred, h.putValid, h.noticeOffset, h.scanTimer, h.fault, hn, h.mask, h.lastFailure, h.lastOutcome,
    h.commandWord, h.segment, h.openSegment, h.fillSequence, h.lostScans, h.snapshotSheet, h.handedMarks⟩

theorem Ev.Goes.came (h : d.Goes U K e) : d.Came U e :=
  ⟨h.others, h.course.kept h.notices, h.counts, h.owed, h.changed, h.faulted⟩

theorem Ev.Came.trans (h : d.Came U e) (k : e.Came U f) : d.Came U f where
  others v hv := (h.others v hv).trans (k.others v hv)
  kept := h.kept.trans k.kept
  counts := k.counts.trans h.counts
  owed := List.Subset.trans h.owed k.owed
  changed u z hz := by
    by_cases j : (f.zone u z).state = (e.zone u z).state
    · exact k.owed (h.changed u z (j ▸ hz))
    · exact k.changed u z j
  faulted u hu := by
    by_cases j : (f.unit u).sweepFault = (e.unit u).sweepFault
    · exact k.owed (h.faulted u (j ▸ hu))
    · exact k.faulted u j

/-- The units and lines are as they were. -/
theorem Ev.Came.of_units (hunits : e.units = d.units) (hlines : e.lines = d.lines) (hport : d.port.Kept e.port)
    (hcounts : e.port.updateCounts = d.port.updateCounts) (howed : d.mirrorDue ⊆ e.mirrorDue) : d.Came U e := by
  have hu : ∀ v, e.unit v = d.unit v := fun v => by rw [State.unit, hunits]; rfl
  have hl : ∀ v, e.line v = d.line v := fun v => by rw [State.line, hlines]; rfl
  have hzone : ∀ v z, e.zone v z = d.zone v z := fun v z => congrArg (fun r : UnitRec => r.zones[z]) (hu v)
  exact ⟨fun v _ => ⟨hu v ▸ .refl _, hu v ▸ .inl rfl, fun z => hzone v z ▸ .refl _, hl v ▸ .refl _⟩, hport, hcounts, howed,
    fun v z j => absurd (by rw [hzone]) j, fun v j => absurd (by rw [hu]) j⟩

theorem Ev.came_finish (e : Ev) (slot : Slot) (st : Status) (x : Detail) : e.Came U (e.finish slot st x) :=
  have h : e.TakeEnded (e.finish slot st x) := Ev.finishTake_ended _ _ _ _
  .of_units h.units h.lines h.port (Ev.finishTake_counts _ _ _ _ _) (by rw [h.mirrorDue]; exact List.Subset.refl _)

/-- What the end of an event reports: the blocks of units whose zones or sweep fault have changed are written, and every unit outside `U` is kept. -/
structure State.Reported (U : UnitNo → Prop) (s t : State) : Prop where
  others : ∀ v, ¬U v → s.UnitKept t v
  kept : s.port.Kept t.port
  mirrors : ∀ a, s.Linked a → s.MirrorsChanges t a
  faults : ∀ a, s.Linked a → ∀ u, (t.unit u).sweepFault ≠ (s.unit u).sweepFault → s.MirrorWritten t a u

theorem Ev.flush_wroteRegions (e : Ev) (hc : e.port.anchor = some a) : e.Wrote e.flush fun x => a.inMirror x ∨ a.inStatus x :=
  Ev.flush_wrote e (fun b hb u _ y hy => by
      obtain rfl : a = b := Option.some.inj (hc.symm.trans hb)
      exact .inl (Anchor.inMirror_of_inBlock hy))
    fun b hb _ y hy => by
      obtain rfl : a = b := Option.some.inj (hc.symm.trans hb)
      exact .inr hy

theorem Ev.flush_blocks (e : Ev) : e.Wrote e.flush fun _ => True := Ev.flush_wrote e (fun _ _ _ _ _ _ => trivial) fun _ _ _ _ _ => trivial

/-- Before the flush the wanted blocks are owed, and after it they are written. -/
theorem Ev.Came.written (h : d.Came U e) (hl : d.toState.Linked a) (hw : Memory.wf e.mem = true) (hu : u ∈ e.mirrorDue) :
    d.toState.MirrorWritten e.flush.toState a u := by
  have ha : e.attached = true := decide_eq_true (h.kept.state.trans hl.attached)
  obtain ⟨hcount, hblock⟩ := Ev.flush_mirror ha (h.kept.anchor.trans hl.anchor) hl.sound hw hu
  exact ⟨hcount.trans (by rw [h.counts]), hblock⟩

theorem Ev.Came.reported (h : d.Came U e) (hw : Memory.wf d.mem = true → Memory.wf e.mem = true) : State.Reported U d.toState e.flush.toState := by
  have hf := e.flush_blocks
  have hunit : ∀ v, e.flush.unit v = e.unit v := fun v => by rw [State.unit, hf.units]; rfl
  have hline : ∀ v, e.flush.line v = e.line v := fun v => by rw [State.line, hf.lines]; rfl
  have hzone : ∀ v z, e.flush.zone v z = e.zone v z := fun v z => congrArg (fun r : UnitRec => r.zones[z]) (hunit v)
  refine ⟨fun v hv => ?_, h.kept.trans (hf.port ▸ ?_), fun a hl u k => ?_, fun a hl u k => h.written hl (hw hl.wf) (h.faulted u (hunit u ▸ k))⟩
  · have hk := h.others v hv
    exact ⟨hunit v ▸ hk.settings, hunit v ▸ hk.tracked, fun z => hzone v z ▸ hk.aims z, hline v ▸ hk.service⟩
  · exact ⟨rfl, rfl, rfl, rfl, rfl, rfl, rfl, BitVec.and_self, rfl, rfl, rfl, rfl, rfl, rfl, rfl, rfl, rfl, rfl⟩
  · obtain ⟨z, hz⟩ := k
    exact h.written hl (hw hl.wf) (h.changed u z (hzone u z ▸ hz))

/-! ### The take of an order -/

theorem Anchor.slotWord_inj {k j : Nat} : a.slotWord k 14 = a.slotWord j 14 ↔ k = j := by
  simp only [Anchor.slotWord, Config.slotWords]
  omega

/-- The words of a slot are not those of another, nor the offsets T and R. -/
theorem Anchor.slotWords_apart {k j y : Nat} (hkj : k ≠ j) (hy : y = a.slotWord j 14 ∨ y = a.slotWord j 15) :
    y ≠ a.slotWord k 14 ∧ y ≠ a.slotWord k 15 := by
  simp only [Anchor.slotWord, Config.slotWords] at hy ⊢
  omega

theorem Anchor.offset_ne_slotWord (hd : disjointRegions (anchorRegion :: a.regions) = true) (hm : a.regions.all Region.inMemory = true)
    (hr : 0 < a.ringLength) {y : Nat} (hy : y < 16) (k : Nat) : y ≠ a.slotWord k 14 ∧ y ≠ a.slotWord k 15 := by
  obtain ⟨h, _, _⟩ := Anchor.slot_apart hd hm hr
  simp only [Anchor.slotWord, Config.slotWords] at h ⊢
  omega

theorem State.Due.linked_landed (h : s.Due host a slot) : (s.landed host).toState.Linked a :=
  ⟨h.attached, h.anchor, h.inMemory, h.disjoint, Memory.hostWrites_wf _ _ h.wf⟩

theorem State.MirrorWritten.of_landed (h : (s.landed host).toState.MirrorWritten t a u) : s.MirrorWritten t a u := ⟨h.count, h.block⟩

theorem State.Reported.of_landed (h : State.Reported U (s.landed host).toState t) : State.Reported U s t :=
  ⟨fun v hv => ⟨(h.others v hv).settings, (h.others v hv).tracked, (h.others v hv).aims, (h.others v hv).service⟩, h.kept,
    fun a hl u hu => (h.mirrors a ⟨hl.attached, hl.anchor, hl.inMemory, hl.disjoint, Memory.hostWrites_wf _ _ hl.wf⟩ u hu).of_landed,
    fun a hl u hu => (h.faults a ⟨hl.attached, hl.anchor, hl.inMemory, hl.disjoint, Memory.hostWrites_wf _ _ hl.wf⟩ u hu).of_landed⟩

/-- The take of an order that has gone on. The orders held are those of units before it, and the order taken, whose slot the end of the
event leaves as the take has written it. -/
theorem State.Due.goes_taken (h : s.Due host a slot) (hg : (s.landed host).Goes U K e)
    (hK : ∀ k, K k → k ∈ s.heldSlots ∨ k = s.port.take)
    (hshow : ∀ y, y = a.slotWord s.port.take 14 ∨ y = a.slotWord s.port.take 15 →
      Memory.read (e.finish slot st x).settleArbiter.runTests.mem y = Memory.read (e.finish slot st x).mem y) :
    let t := (e.finish slot st x).settle.toState
    TakenWith s t host a st x (s.reportWord a) ∧ State.Reported U s t ∧ ∀ u ∈ e.mirrorDue, s.MirrorWritten t a u := by
  have htake : e.port.take = s.port.take := hg.course.take
  have hlw : Memory.wf (s.landed host).mem = true := h.linked_landed.wf
  have hc : e.port.anchor = some a := hg.course.anchor.trans h.anchor
  have hatt : e.attached = true := decide_eq_true (hg.course.state.trans h.attached)
  obtain ⟨p1, p2, p3⟩ := Anchor.slot_apart h.disjoint h.inMemory h.inRing
  obtain ⟨w1, w2, w3, w4, w5, w6⟩ := Ev.finishTake_words (e := e) a e.port.take slot.notify st x hatt hc (hg.wf hlw) (by rw [htake]; exact p1)
    (by rw [htake]; exact p2)
  have hended : e.TakeEnded (e.finish slot st x) := Ev.finishTake_ended _ _ _ _
  have hcame : (s.landed host).Came U (e.finish slot st x) := hg.came.trans (e.came_finish slot st x)
  have hfin : e.finishTake e.port.take slot.notify st x = e.finish slot st x := rfl
  rw [hfin] at w1
  rw [hfin, htake] at w2 w3 w4 w5 w6
  generalize hgdef : e.finish slot st x = g at *
  have hgo : g.Goes U K g.settleArbiter.runTests := by
    refine .runTests (.settleArbiter (.refl (fun v k hk => hg.slots v k ?_)))
    have hunit : g.unit v = e.unit v := by rw [State.unit, hended.units]; rfl
    exact hunit ▸ hk
  have hcame' := hcame.trans hgo.came
  have hsettle : g.settle = g.settleArbiter.runTests.flush := rfl
  have hga : g.port.anchor = some a := hended.port.anchor.trans hc
  have hflush := g.settleArbiter.runTests.flush_wroteRegions (hgo.course.anchor.trans hga)
  have hread := (hflush.mem (hgo.wf w1)).2
  have hportf : g.settleArbiter.runTests.flush.port.take = g.port.take := by
    rw [hflush.port]
    exact hgo.course.take
  rw [hsettle]
  have h0 : 0 < a.ringLength := Nat.zero_lt_of_lt h.inRing
  refine ⟨⟨?_, ?_, hportf.trans w4, ?_, fun y y1 y2 => ?_⟩, (hcame'.reported fun _ => hgo.wf w1).of_landed, fun u hu =>
    (hcame'.written h.linked_landed (hgo.wf w1) (hgo.owed (hended.mirrorDue ▸ hu))).of_landed⟩
  · have hap := p3 _ (.inl rfl)
    exact (hread _ (not_or.2 hap)).trans ((hshow _ (.inl rfl)).trans w2)
  · have hap := p3 _ (.inr rfl)
    exact (hread _ (not_or.2 hap)).trans ((hshow _ (.inr rfl)).trans w3)
  · have hap := Anchor.offsets_apart h.disjoint (x := 14) (by omega)
    refine (hread _ (not_or.2 hap)).trans ((hgo.words w1 a hga 14 (by omega) fun k _ => ?_).trans w5)
    exact Anchor.offset_ne_slotWord h.disjoint h.inMemory h0 (by omega) k
  · simp only [State.takeWord, not_or] at y1
    obtain ⟨y14, y15, yst, ydet⟩ := y1
    have hslot : ∀ k, K k → y ≠ a.slotWord k 14 ∧ y ≠ a.slotWord k 15 := by
      intro k hk
      rcases hK k hk with j | rfl
      · exact ⟨fun r => y2 (.inl ⟨k, j, .inl r⟩), fun r => y2 (.inl ⟨k, j, .inr r⟩)⟩
      · exact ⟨yst, ydet⟩
    refine (hread _ fun r => y2 (.inr r)).trans ((hgo.words w1 a hga y y15 hslot).trans ?_)
    exact (w6 y y14 y15 yst ydet).trans (hg.words hlw a h.anchor y y15 hslot)

/-- The take of an order that is not tracked: the end of the event does not come to its slot. -/
theorem State.Due.goes_done (h : s.Due host a slot) (hg : (s.landed host).Goes U (· ∈ s.heldSlots) e) (st : Status) (x : Detail) :
    let t := (e.finish slot st x).settle.toState
    TakenWith s t host a st x (s.reportWord a) ∧ State.Reported U s t ∧ ∀ u ∈ e.mirrorDue, s.MirrorWritten t a u := by
  refine h.goes_taken hg (fun _ => .inl) fun y hy => ?_
  have hc : e.port.anchor = some a := hg.course.anchor.trans h.anchor
  have hatt : e.attached = true := decide_eq_true (hg.course.state.trans h.attached)
  obtain ⟨p1, p2, _⟩ := Anchor.slot_apart h.disjoint h.inMemory h.inRing
  have hended : e.TakeEnded (e.finish slot st x) := Ev.finishTake_ended _ _ _ _
  have hwf : Memory.wf (e.finish slot st x).mem = true :=
    (Ev.finishTake_words (e := e) a e.port.take slot.notify st x hatt hc (hg.wf h.linked_landed.wf) (by rw [hg.course.take]; exact p1)
      (by rw [hg.course.take]; exact p2)).1
  have hgo : (e.finish slot st x).Goes U (· ∈ s.heldSlots) (e.finish slot st x).settleArbiter.runTests :=
    .runTests (.settleArbiter (.refl (fun v k hk => hg.slots v k (by rwa [State.unit, hended.units] at hk))))
  refine hgo.words hwf a (hended.port.anchor.trans hc) y (fun k => ?_) fun k hk => Anchor.slotWords_apart (by rintro rfl; exact h.free hk) hy
  simp only [Anchor.slotWord, Config.slotWords] at hy p1
  omega

end Sys2Proof.Machine
end

