-- ==== Sys2Proof/Proofs/Arbiter.lean ====
section
/-! PROOFS. What the arbiter does to the zones while lists and PENDING zones agree (R45, R52, R53): a zone that is not PENDING stays as it is,
and a PENDING one keeps its entry or is granted the move of its entry. -/

namespace Sys2Proof.Machine

variable {d e f : Ev} {s t : State} {u v : UnitNo} {z y : ZoneNo} {n : LineNo} {k : MoveKind}

/-- A zone has been granted a move of kind k (R53). -/
structure Zone.GrantedAs (r r' : Zone) (k : MoveKind) : Prop where
  state : r'.state = .moving
  moveKind : r'.moveKind = some k
  commanded : r'.commanded = some (match k with | .position => r.target.getD 0 | .zero => 0)

/-- The zone's entry in its line's pending list is of kind k. -/
def State.waitsFor (s : State) (v : UnitNo) (y : ZoneNo) (k : MoveKind) : Prop := ⟨y, k⟩ ∈ (s.line v).pendingList

/-- A zone has been granted its entry's move, or stands as it stood. -/
def State.ArbitratedAt (s t : State) (v : UnitNo) (y : ZoneNo) : Prop :=
  (t.zone v y = s.zone v y ∧ ∀ k, t.waitsFor v y k ↔ s.waitsFor v y k)
    ∨ ((s.zone v y).state = .pending ∧ ∃ k, s.waitsFor v y k ∧ (s.zone v y).GrantedAs (t.zone v y) k)

/-- Zones have been granted their entries' moves, or stand as they stood. -/
def State.Arbitrated (s t : State) : Prop := ∀ v y, s.ArbitratedAt t v y

theorem State.ArbitratedAt.of_same (hz : t.zone v y = s.zone v y) (hl : (t.line v).pendingList = (s.line v).pendingList) :
    s.ArbitratedAt t v y := .inl ⟨hz, fun k => by rw [State.waitsFor, hl]; rfl⟩

theorem State.ArbitratedAt.refl (s : State) (v : UnitNo) (y : ZoneNo) : s.ArbitratedAt s v y := .inl ⟨rfl, fun _ => .rfl⟩

theorem State.ArbitratedAt.trans {r : State} (h : r.ArbitratedAt s v y) (j : s.ArbitratedAt t v y) : r.ArbitratedAt t v y := by
  rcases h with ⟨h1, h2⟩ | ⟨h1, k, h2, h3⟩
  · rcases j with ⟨j1, j2⟩ | ⟨j1, k, j2, j3⟩
    · exact .inl ⟨j1.trans h1, fun k => (j2 k).trans (h2 k)⟩
    · exact .inr ⟨h1 ▸ j1, k, (h2 k).1 j2, h1 ▸ j3⟩
  · rcases j with ⟨j1, _⟩ | ⟨j1, _⟩
    · exact .inr ⟨h1, k, h2, j1 ▸ h3⟩
    · exact absurd (h3.state.symm.trans j1) (by decide)

/-- A zone that is not PENDING is not granted. -/
theorem State.ArbitratedAt.zone (h : s.ArbitratedAt t v y) (hz : (s.zone v y).state ≠ .pending) : t.zone v y = s.zone v y :=
  h.elim (·.1) fun j => absurd j.1 hz

theorem State.ArbitratedAt.pending (h : s.ArbitratedAt t v y) (hz : (s.zone v y).state = .pending) :
    (t.zone v y).state = .pending ∨ (t.zone v y).state = .moving :=
  h.imp (fun j => (congrArg Zone.state j.1).trans hz) fun ⟨_, _, _, j⟩ => j.state

theorem State.Arbitrated.refl (s : State) : s.Arbitrated s := fun v y => .refl s v y

theorem State.Arbitrated.trans {r : State} (h : r.Arbitrated s) (j : s.Arbitrated t) : r.Arbitrated t := fun v y => (h v y).trans (j v y)

/-- The zones and the pending lists are the same. -/
theorem State.Arbitrated.congr {t' : State} (h : s.Arbitrated t) (hz : ∀ v y, t'.zone v y = t.zone v y)
    (hl : ∀ n, (t'.line n).pendingList = (t.line n).pendingList) : s.Arbitrated t' := fun v y =>
  (h v y).trans (.of_same (hz v y) (hl v))

theorem Ev.grant_zone {p : PendingEntry} {l : List PendingEntry} (h : (e.line n).pendingList = p :: l)
    (hp : (e.zone n p.zone).state = .pending) : (e.zone n p.zone).GrantedAs ((e.grant n).zone n p.zone) p.kind := by
  have hne : (e.zone n p.zone).state ≠ .moving := by rw [hp]; decide
  have hstate : ((e.counted n p.zone).zone n p.zone).state = .moving := by
    rw [Ev.counted_zone, Ev.changeState_zone hne, if_pos ⟨rfl, rfl⟩]
    rfl
  rw [Ev.grant_eq h]
  cases hk : p.kind with
  | position =>
    dsimp only
    rw [Ev.sendMove_zone, if_pos ⟨rfl, rfl⟩]
    exact ⟨hstate, rfl, rfl⟩
  | zero =>
    dsimp only
    rw [Ev.sendZero_zone, if_pos ⟨rfl, rfl⟩]
    exact ⟨hstate, rfl, rfl⟩

theorem Ev.grant_arbitrated (hp : e.toState.pendingLawful) : e.toState.Arbitrated (e.grant n).toState := fun v y => by
  cases hl : (e.line n).pendingList with
  | nil =>
    have hg : e.grant n = e := by unfold Ev.grant; rw [hl]
    rw [hg]
    exact State.Arbitrated.refl _ v y
  | cons p l =>
    have hfront := hp.front hl
    have hG := Ev.grant_granted hl
    have hne : (e.zone n p.zone).state ≠ .moving := by rw [hfront]; decide
    by_cases j : n = v ∧ p.zone = y
    · obtain ⟨rfl, rfl⟩ := j
      exact .inr ⟨hfront, p.kind, by rw [State.waitsFor, hl]; exact List.mem_cons_self, Ev.grant_zone hl hfront⟩
    · refine .inl ⟨hG.otherZone v y j, fun k => ?_⟩
      rw [State.waitsFor, State.waitsFor, hG.pendingList, Ev.changeState_line hne]
      split
      · next hnv =>
        subst hnv
        have hy : y ≠ p.zone := fun k => j ⟨rfl, k.symm⟩
        rw [Line.leaving, hfront]
        simp [hy]
      · exact .rfl

theorem Ev.grantRounds_arbitrated (k : Nat) (hp : e.toState.pendingLawful) : e.toState.Arbitrated (Ev.grantRounds k e).toState := by
  induction k generalizing e with
  | zero => exact .refl _
  | succ k ih =>
    unfold Ev.grantRounds
    split
    · next n hn =>
      exact (Ev.grant_arbitrated hp).trans (ih (tableLaw_pending.law.grant (List.find?_some hn) hp))
    · exact .refl _

theorem Ev.runArbiter_arbitrated (hp : e.toState.pendingLawful) : e.toState.Arbitrated e.runArbiter.toState :=
  (Ev.grantRounds_arbitrated e.waitingZones hp).congr (fun _ _ => rfl) fun _ => rfl

theorem Ev.settleArbiter_arbitrated (hp : e.toState.pendingLawful) : e.toState.Arbitrated e.settleArbiter.toState := by
  unfold Ev.settleArbiter
  split
  · exact Ev.runArbiter_arbitrated hp
  · exact .refl _

theorem Ev.EndsOnly.zone (h : d.EndsOnly e) (v : UnitNo) (y : ZoneNo) : e.zone v y = d.zone v y := by
  obtain ⟨t, k, _⟩ := h.unit v
  have hzone := congrArg (fun r : UnitRec => r.zones[y]) k
  exact hzone

/-- The end of an event grants, and changes no zone besides. -/
theorem Ev.settle_arbitrated (hp : e.toState.pendingLawful) : e.toState.Arbitrated e.settle.toState := by
  have h : e.settleArbiter.EndsOnly e.settle := (Ev.EndsOnly.refl _).runTests.flush
  exact (Ev.settleArbiter_arbitrated hp).congr h.zone fun n => by rw [State.line, h.lines]; rfl

/-! ### A range treated zone by zone (R17) -/

/-- The treatment of a zone leaves every other zone and its entry. -/
def TreatsOne (u : UnitNo) (f : Ev → ZoneNo → Ev) : Prop := ∀ (e : Ev) z v y, ¬(u = v ∧ z = y) →
  (f e z).zone v y = e.zone v y ∧ ∀ k, (f e z).waitsFor v y k ↔ e.waitsFor v y k

section
variable {P : Ev → Prop} {f : Ev → ZoneNo → Ev} (hf : TreatsOne u f) (hP : ∀ e z, P e → P (f e z)) (hA : ∀ e, P e → P e.settleArbiter)
  (hl : ∀ e, P e → e.toState.pendingLawful)
include hf hP hA hl

theorem Ev.treatRange_other (l : List ZoneNo) (h : P e) (hy : ¬(u = v ∧ y ∈ l)) : e.toState.ArbitratedAt (e.treatRange l f).toState v y := by
  induction l generalizing e with
  | nil => exact .refl _ _ _
  | cons z l ih =>
    have h1 : e.toState.ArbitratedAt (f e z).toState v y := .inl (hf e z v y fun j => hy ⟨j.1, j.2 ▸ List.mem_cons_self⟩)
    have h2 := Ev.settleArbiter_arbitrated (hl _ (hP e z h)) v y
    exact (h1.trans h2).trans (ih (hA _ (hP e z h)) fun j => hy ⟨j.1, List.mem_cons_of_mem _ j.2⟩)

/-- A zone of the range is treated once, at a moment up to which the arbiter alone has come to it, and so it is after it. -/
theorem Ev.treatRange_mem {l : List ZoneNo} (hn : l.Nodup) (h : P e) (hz : z ∈ l) : ∃ e1, P e1 ∧ e.toState.ArbitratedAt e1.toState u z
    ∧ (f e1 z).toState.ArbitratedAt (e.treatRange l f).toState u z := by
  induction l generalizing e with
  | nil => cases hz
  | cons y l ih =>
    obtain ⟨hy, hn⟩ := List.nodup_cons.1 hn
    have h2 := Ev.settleArbiter_arbitrated (hl _ (hP e y h)) u z
    rcases eq_or_ne z y with rfl | hne
    · exact ⟨e, h, .refl _ _ _, h2.trans (Ev.treatRange_other hf hP hA hl l (hA _ (hP e z h)) fun j => hy j.2)⟩
    · obtain ⟨e1, k1, k2, k3⟩ := ih hn (hA _ (hP e y h)) ((List.mem_cons.1 hz).resolve_left hne)
      have h1 : e.toState.ArbitratedAt (f e y).toState u z := .inl (hf e y u z fun j => hne j.2.symm)
      exact ⟨e1, k1, (h1.trans h2).trans k2, k3⟩

end

end Sys2Proof.Machine
end

