-- ==== Sys2Proof/Proofs/Treatments.lean ====
section
/-! PROOFS. What the treatment of one zone leaves of the others, and where the placement test takes the zone itself (R11, R18 to R20):
HOLD, RELEASE and CLEAR FAULT. -/

namespace Sys2Proof.Machine

open Decode

variable {d e f : Ev} {s t : State} {u v : UnitNo} {z y : ZoneNo} {n : LineNo} {new : ZoneState}

/-! ### The other zones -/

/-- Every zone but one, and every entry of another zone, stands as it stood. -/
def Ev.OnlyZone (u : UnitNo) (z : ZoneNo) (d e : Ev) : Prop := ∀ v y, ¬(u = v ∧ z = y) →
  e.zone v y = d.zone v y ∧ ∀ k, e.waitsFor v y k ↔ d.waitsFor v y k

namespace Ev.OnlyZone

theorem refl (u : UnitNo) (z : ZoneNo) (e : Ev) : e.OnlyZone u z e := fun _ _ _ => ⟨rfl, fun _ => .rfl⟩

theorem trans (h : d.OnlyZone u z e) (k : e.OnlyZone u z f) : d.OnlyZone u z f := fun v y j =>
  ⟨(k v y j).1.trans (h v y j).1, fun i => ((k v y j).2 i).trans ((h v y j).2 i)⟩

/-- Zones and pending lists are the same. -/
theorem of_same (hz : ∀ v y, e.zone v y = d.zone v y) (hl : ∀ n, (e.line n).pendingList = (d.line n).pendingList) :
    d.OnlyZone u z e := fun v y _ => ⟨hz v y, fun k => by rw [State.waitsFor, hl]; rfl⟩

theorem updZone (h : d.OnlyZone u z e) (g : Zone → Zone) : d.OnlyZone u z (e.updZone u z g) :=
  h.trans fun v y j => ⟨by rw [Ev.updZone_zone, if_neg j], fun _ => .rfl⟩

theorem updLine (h : d.OnlyZone u z e) (n : LineNo) (g : Line → Line) (hg : ∀ l, (g l).pendingList = l.pendingList) :
    d.OnlyZone u z (e.updLine n g) :=
  h.trans (of_same (fun _ _ => rfl) fun m => by rw [Ev.updLine_line]; split <;> simp [hg])

theorem updQueue (h : d.OnlyZone u z e) (n : LineNo) (g : CommandQueue → CommandQueue) : d.OnlyZone u z (e.updQueue n g) :=
  h.updLine n _ (by exact fun _ => rfl)

theorem raise (h : d.OnlyZone u z e) (k : Notice) : d.OnlyZone u z (e.raise k) := h.trans (of_same (fun _ _ => rfl) fun _ => rfl)

theorem oweMirror (h : d.OnlyZone u z e) (v : UnitNo) : d.OnlyZone u z (e.oweMirror v) := h.trans (of_same (fun _ _ => rfl) fun _ => rfl)

theorem line_leaving_waits {l : Line} {old : ZoneState} {k : MoveKind} (h : z ≠ y) :
    (⟨y, k⟩ : PendingEntry) ∈ (l.leaving old z).pendingList ↔ ⟨y, k⟩ ∈ l.pendingList := by
  simp only [Line.leaving]
  split
  · simp [h.symm]
  · exact .rfl

theorem changeState (h : d.OnlyZone u z e) (new : ZoneState) : d.OnlyZone u z (e.changeState u z new) := by
  refine h.trans fun v y j => ?_
  by_cases hs : (e.zone u z).state = new
  · rw [Ev.changeState_of_same hs]
    exact ⟨rfl, fun _ => .rfl⟩
  · refine ⟨by rw [Ev.changeState_zone hs, if_neg j], fun k => ?_⟩
    rw [State.waitsFor, Ev.changeState_line hs]
    split
    · next i => exact i ▸ line_leaving_waits fun r => j ⟨i, r⟩
    · exact .rfl

theorem enterPending (h : d.OnlyZone u z e) (k : MoveKind) : d.OnlyZone u z (e.enterPending u z k) := by
  unfold Ev.enterPending
  split
  · exact h
  · refine (h.changeState .pending).trans fun v y j => ⟨rfl, fun i => ?_⟩
    have howe : ∀ f : Ev, f.oweArbiter.line v = f.line v := fun _ => rfl
    rw [State.waitsFor, howe, Ev.updLine_line]
    split
    · next r =>
      have hy : y ≠ z := fun q => j ⟨r, q.symm⟩
      simp [State.waitsFor, r, hy]
    · exact .rfl

theorem enterFaulted (h : d.OnlyZone u z e) (c : FaultCause) : d.OnlyZone u z (e.enterFaulted u z c) :=
  ((h.changeState _).updZone _).raise _

theorem place (h : d.OnlyZone u z e) : d.OnlyZone u z (e.place u z) := by
  unfold Ev.place
  split
  · exact h.enterPending _
  · exact h.changeState _
  · split
    · exact h.updZone _
    · exact h.enterFaulted _

theorem haltKey (h : d.OnlyZone u z e) (n : LineNo) (y : ZoneNo) : d.OnlyZone u z (e.haltKey n y) := by
  unfold Ev.haltKey
  split
  · exact h.updQueue n _
  · exact h.updQueue n _

theorem holdZone (h : d.OnlyZone u z e) : d.OnlyZone u z (e.holdZone u z) := by
  unfold Ev.holdZone
  split
  · exact h.changeState _
  · exact h.changeState _
  · exact (h.haltKey u z).changeState _
  · exact h
  · exact h
  · exact h

theorem releaseZone (h : d.OnlyZone u z e) : d.OnlyZone u z (e.releaseZone u z) := by
  unfold Ev.releaseZone
  split
  · exact h.place
  · exact h

theorem clearZone (h : d.OnlyZone u z e) : d.OnlyZone u z (e.clearZone u z) := by
  unfold Ev.clearZone
  split
  · exact ((h.updZone _).place).oweMirror u
  · exact h

end Ev.OnlyZone

/-! ### The zone itself -/

theorem Ev.haltKey_zone (n : LineNo) (x : ZoneNo) : (e.haltKey n x).zone v y = e.zone v y := by
  unfold Ev.haltKey
  split <;> rfl

theorem Ev.changeState_self (e : Ev) (u : UnitNo) (z : ZoneNo) (new : ZoneState) : ((e.changeState u z new).zone u z).state = new := by
  by_cases h : (e.zone u z).state = new
  · rw [Ev.changeState_of_same h, h]
  · rw [Ev.changeState_zone h, if_pos ⟨rfl, rfl⟩]
    rfl

/-- HOLD takes a zone that meters to HELD. -/
theorem Ev.holdZone_metering (h : (e.zone u z).state = .rest ∨ (e.zone u z).state = .pending ∨ (e.zone u z).state = .moving) :
    (e.holdZone u z).zone u z = (e.zone u z).entering .held := by
  have hne : (e.zone u z).state ≠ .held := by rcases h with h | h | h <;> rw [h] <;> decide
  unfold Ev.holdZone
  rcases h with h | h | h
  · rw [h]
    exact (Ev.changeState_zone hne u z).trans (if_pos ⟨rfl, rfl⟩)
  · rw [h]
    exact (Ev.changeState_zone hne u z).trans (if_pos ⟨rfl, rfl⟩)
  · rw [h]
    have hz := Ev.haltKey_zone (e := e) (v := u) (y := z) u z
    refine (Ev.changeState_zone (by rwa [hz]) u z).trans ?_
    rw [if_pos ⟨rfl, rfl⟩, hz]

theorem Ev.holdZone_other (h : (e.zone u z).state = .held ∨ (e.zone u z).state = .faulted ∨ (e.zone u z).state = .off) :
    e.holdZone u z = e := by
  unfold Ev.holdZone
  rcases h with h | h | h <;> rw [h]

/-- Where a zone stands after the placement test (R11). -/
def Zone.Placed (r : Zone) : Placement → Prop
  | .faulted => r.state = .faulted ∧ r.faultCause = some .noFeedback
  | .pending => r.state = .pending
  | .rest => r.state = .rest

theorem Ev.place_placed (e : Ev) (u : UnitNo) (z : ZoneNo) : ((e.place u z).zone u z).Placed (e.placement u z) := by
  unfold Ev.place
  cases e.placement u z with
  | pending =>
    by_cases hp : (e.zone u z).state = .pending
    · exact (congrArg (fun g : Ev => (g.zone u z).state) (Ev.enterPending_of_pending hp)).trans hp
    · have h := Ev.enterPending_zone (k := .position) hp u z
      rw [if_pos ⟨rfl, rfl⟩] at h
      exact congrArg Zone.state h
  | rest => exact Ev.changeState_self e u z .rest
  | faulted =>
    dsimp only
    split
    · next hf =>
      rw [Ev.updZone_zone_self]
      exact ⟨hf, rfl⟩
    · next hf =>
      rw [Ev.enterFaulted_zone hf, if_pos ⟨rfl, rfl⟩]
      exact ⟨rfl, rfl⟩

/-- The placement test of a zone that is not PENDING (R11). -/
def placementOf (missing : Bool) (tolerance : Nat) (target position : Option Nat) : Placement :=
  if missing then .faulted
  else match target, position with
    | none, _ => .rest
    | some _, none => .pending
    | some x, some p => if tolerance < distance x p then .pending else .rest

theorem State.placement_eq (h : ¬((s.zone u z).state = .pending ∧ s.zeroEntry u z = true)) : s.placement u z =
    placementOf (decide (s.moduleState u z = .missing)) (s.unit u).tolerance (s.zone u z).target (s.zone u z).position := by
  unfold State.placement placementOf
  rw [if_neg h]
  by_cases hm : s.moduleState u z = .missing
  · simp [hm]
  · simp only [hm, decide_false]
    rfl

/-- RELEASE places a HELD zone. -/
theorem Ev.releaseZone_placed (h : (e.zone u z).state = .held) : ((e.releaseZone u z).zone u z).Placed
    (placementOf (decide (e.moduleState u z = .missing)) (e.unit u).tolerance (e.zone u z).target (e.zone u z).position) := by
  rw [Ev.releaseZone, if_pos h, ← State.placement_eq (by rw [h]; simp)]
  exact e.place_placed u z

/-- CLEAR FAULT places a FAULTED zone. -/
theorem Ev.clearZone_placed (h : (e.zone u z).state = .faulted) : ((e.clearZone u z).zone u z).Placed
    (placementOf (decide (e.moduleState u z = .missing)) (e.unit u).tolerance (e.zone u z).target (e.zone u z).position) := by
  rw [Ev.clearZone, if_pos h, ← State.placement_eq (by rw [h]; simp),
    ← Ev.placement_updZone e u z (fun r => { r with faultCause := none, attempts := 0 }) (by exact fun _ => ⟨rfl, rfl, rfl⟩)]
  exact Ev.place_placed _ u z

end Sys2Proof.Machine
end

