-- ==== Sys2Proof/Proofs/RangeOrders.lean ====
section
/-! PROOFS. HOLD, RELEASE and CLEAR FAULT (R17 to R20): each zone of the range is treated once, the arbiter alone comes to it before and
after, and beside the zones, their moves and the mirror nothing changes. -/

namespace Sys2Proof.Machine

open Decode

variable {d e f : Ev} {s t : State} {host : List HostWrite} {a : Anchor} {slot : Slot} {u v : UnitNo} {z y : ZoneNo}

/-- No unit. -/
def noUnit (_ : UnitNo) : Prop := False

/-- How an order that treats zones has gone on since the host's writes landed. -/
structure Ev.Treating (s : State) (host : List HostWrite) (e : Ev) : Prop where
  lists : e.toState.pendingLawful
  goes : (s.landed host).Goes noUnit (· ∈ s.heldSlots) e

theorem stable_sameOutside (s : State) : Stable s.SameOutside where
  units _ _ h := ⟨h.curves, h.check, h.intake, h.timing, h.scanPulses, h.pending⟩
  lines _ _ h := ⟨h.curves, h.check, h.intake, h.timing, h.scanPulses, h.pending⟩
  partGrants _ _ h := ⟨h.curves, h.check, h.intake, h.timing, h.scanPulses, h.pending⟩
  pointer _ _ h := ⟨h.curves, h.check, h.intake, h.timing, h.scanPulses, h.pending⟩
  freeDraws _ _ h := ⟨h.curves, h.check, h.intake, h.timing, h.scanPulses, h.pending⟩
  unfinished _ _ h := ⟨h.curves, h.check, h.intake, h.timing, h.scanPulses, h.pending⟩
  port _ _ h _ _ := ⟨h.curves, h.check, h.intake, h.timing, h.scanPulses, h.pending⟩
  words _ _ _ h _ := ⟨h.curves, h.check, h.intake, h.timing, h.scanPulses, h.pending⟩

theorem State.landed_goes (s : State) (host : List HostWrite) (U : UnitNo → Prop) :
    (s.landed host).Goes U (· ∈ s.heldSlots) (s.landed host) :=
  .refl (fun _ _ hk => State.mem_heldSlots.2 ⟨_, hk⟩)

theorem Ev.keeps_pendingLawful : Keeps (Ev.Is State.pendingLawful) := tableLaw_pending.law.toKeeps

theorem Ev.Treating.settleArbiter (h : e.Treating s host) : e.settleArbiter.Treating s host :=
  ⟨Ev.keeps_pendingLawful.settleArbiter h.lists, h.goes.settleArbiter⟩

/-- An operation on one zone that a range order may do. -/
structure RangeOp (u : UnitNo) (f : Ev → ZoneNo → Ev) : Prop where
  only : ∀ (e : Ev) z, e.OnlyZone u z (f e z)
  lists : ∀ (e : Ev) z, Ev.Is State.pendingLawful e → Ev.Is State.pendingLawful (f e z)
  goes : ∀ (s : State) host (e : Ev) z, (s.landed host).Goes noUnit (· ∈ s.heldSlots) e → (s.landed host).Goes noUnit (· ∈ s.heldSlots) (f e z)
  stable : ∀ {P : State → Prop}, Stable P → ∀ (e : Ev) z, e.Has P → (f e z).Has P

theorem rangeOp_holdZone (u : UnitNo) : RangeOp u fun e z => e.holdZone u z :=
  ⟨fun e z => (Ev.OnlyZone.refl u z e).holdZone, fun _ z h => Ev.keeps_pendingLawful.holdZone u z h, fun _ _ _ z h => h.holdZone u z,
    fun hP _ _ h => Ev.has_holdZone hP h _ _⟩

theorem rangeOp_releaseZone (u : UnitNo) : RangeOp u fun e z => e.releaseZone u z :=
  ⟨fun e z => (Ev.OnlyZone.refl u z e).releaseZone, fun _ z h => Ev.keeps_pendingLawful.releaseZone u z h,
    fun _ _ _ z h => h.releaseZone u z, fun hP _ _ h => Ev.has_releaseZone hP h _ _⟩

theorem rangeOp_clearZone (u : UnitNo) : RangeOp u fun e z => e.clearZone u z :=
  ⟨fun e z => (Ev.OnlyZone.refl u z e).clearZone, fun _ z h => Ev.keeps_pendingLawful.clearZone u z h,
    fun _ _ _ z h => h.clearZone u z, fun hP _ _ h => Ev.has_clearZone hP h _ _⟩

/-- The take of a range order. -/
structure RangeTaken (s t : State) (host : List HostWrite) (a : Anchor) (u : UnitNo) (f : Ev → ZoneNo → Ev) (first last : Nat) : Prop where
  taken : TakenWith s t host a .done (Detail.only 0) (s.reportWord a)
  reported : State.Reported noUnit s t
  outside : s.SameOutside t
  inside : ∀ z : ZoneNo, first ≤ z.number → z.number ≤ last → ∃ e1 : Ev, e1.Treating s host ∧ s.ArbitratedAt e1.toState u z
    ∧ (f e1 z).toState.ArbitratedAt t u z
  beyond : ∀ z : ZoneNo, ¬(first ≤ z.number ∧ z.number ≤ last) → s.ArbitratedAt t u z

theorem mem_zoneRange {first last : Nat} : z ∈ zoneRange first last ↔ first ≤ z.number ∧ z.number ≤ last := by
  simp [zoneRange, ascending, ZoneNo.number]

theorem Ev.finish_zone (e : Ev) (slot : Slot) (st : Status) (x : Detail) : (e.finish slot st x).zone v y = e.zone v y :=
  have h : e.TakeEnded (e.finish slot st x) := Ev.finishTake_ended _ _ _ _
  congrArg (fun us : Vector UnitRec 16 => (us[v]).zones[y]) h.units

theorem Ev.finish_line (e : Ev) (slot : Slot) (st : Status) (x : Detail) (n : LineNo) : (e.finish slot st x).line n = e.line n :=
  have h : e.TakeEnded (e.finish slot st x) := Ev.finishTake_ended _ _ _ _
  congrArg (fun ls : Vector Line 16 => ls[n]) h.lines

/-- The end of a take, and of its event, grants and changes no zone besides. -/
theorem Ev.finish_settle_arbitrated (hp : e.toState.pendingLawful) (slot : Slot) (st : Status) (x : Detail) :
    e.toState.Arbitrated (e.finish slot st x).settle.toState := by
  have hf : (e.finish slot st x).toState.pendingLawful := fun v y => by
    rw [Ev.finish_zone, Ev.finish_line]
    exact hp v y
  have h1 : e.toState.Arbitrated (e.finish slot st x).toState := fun v y =>
    .of_same (e.finish_zone slot st x) (by rw [Ev.finish_line])
  exact h1.trans (Ev.settle_arbitrated hf)

theorem State.Due.range_taken (h : s.Due host a slot) {f : Ev → ZoneNo → Ev} (hf : RangeOp u f) (hl : s.pendingLawful) (first last : Nat) :
    RangeTaken s (((s.landed host).treatRange (zoneRange first last) f).done slot).settle.toState host a u f first last := by
  have h0 : (s.landed host).Treating s host := ⟨hl, s.landed_goes host _⟩
  have hop : ∀ (e : Ev) z, e.Treating s host → (f e z).Treating s host := fun e z k => ⟨hf.lists e z k.lists, hf.goes s host e z k.goes⟩
  have harb : ∀ e : Ev, e.Treating s host → e.settleArbiter.Treating s host := fun _ k => k.settleArbiter
  have hT : TreatsOne u f := hf.only
  generalize hE : (s.landed host).treatRange (zoneRange first last) f = E
  have hE0 : E.Treating s host := hE ▸ ⟨Ev.keeps_pendingLawful.treatRange _ f hf.lists hl, h0.goes.treatRange _ (hf.goes s host)⟩
  obtain ⟨htaken, hreported, _⟩ := h.goes_done hE0.goes .done (Detail.only 0)
  have hend := Ev.finish_settle_arbitrated hE0.lists slot .done (Detail.only 0)
  refine ⟨htaken, hreported, ?_, fun z h1 h2 => ?_, fun z hz => ?_⟩
  · have hS := stable_sameOutside s
    have hland : (s.landed host).Has s.SameOutside := ⟨rfl, rfl, rfl, rfl, rfl, rfl⟩
    have hrange : E.Has s.SameOutside := hE ▸ Ev.has_treatRange hS hland _ _ fun e z k => hf.stable hS e z k
    exact Ev.has_settle hS (Ev.has_finish hS hrange (decide_eq_true (hE0.goes.course.state.trans h.attached)) _ _ _)
  · obtain ⟨e1, k1, k2, k3⟩ := Ev.treatRange_mem (P := Ev.Treating s host) hT hop harb (fun _ k => k.lists)
      ((List.nodup_finRange _).filter _) h0 (mem_zoneRange.2 ⟨h1, h2⟩)
    exact ⟨e1, k1, k2, (hE ▸ k3).trans (hend u z)⟩
  · have k := Ev.treatRange_other (P := Ev.Treating s host) (v := u) (y := z) hT hop harb (fun _ k => k.lists) (zoneRange first last) h0
      fun j => hz (mem_zoneRange.1 j.2)
    exact State.ArbitratedAt.trans (hE ▸ k) (hend u z)

/-- The take of a slot that a range order's row takes. -/
theorem State.Due.takeRange (h : s.Due host a slot) {c : UnitConfig} {k : OrderKind} {f : UnitNo → Ev → ZoneNo → Ev} {i : Instr}
    (hi : exec i s = Machine.takeRange k f host s) (hk : slot.kind = some k) (hu : slot.unit? = some u) (hc : (s.unit u).config = some c) :
    (rangeOperands slot c.zoneCount = none → RefusedWith s i host a .badArgument)
      ∧ ∀ first last, rangeOperands slot c.zoneCount = some (first, last) →
        exec i s = .next (((s.landed host).treatRange (zoneRange first last) (f u)).done slot).settle.toState := by
  refine ⟨fun hr => h.refused (Machine.takeRange k f host) hi rfl (ofKind_eq.2 hk) ?_, fun first last hr =>
    h.taken_by (Machine.takeRange k f host) hi rfl (ofKind_eq.2 hk) ?_⟩
  · refine (Ev.onDefined_some (e := s.landed host) hu hc).trans ?_
    rw [hr]
  · refine (Ev.onDefined_some (e := s.landed host) hu hc).trans ?_
    rw [hr]

/-- Settles O21: a zone of the range is treated as the arbiter has left it, and a HELD one is not granted. -/
theorem holdTakesZonesOutOfMetering : Obligations.HoldTakesZonesOutOfMetering := by
  intro host s a slot u c h hk hu hc
  obtain ⟨h1, h2⟩ := h.takeRange (i := .hold host) (f := fun u e z => e.holdZone u z) rfl hk hu hc
  refine ⟨h1, fun first last hl hr => ⟨_, h2 first last hr, ?_⟩⟩
  have hT := h.range_taken (rangeOp_holdZone u) hl first last
  generalize (((s.landed host).treatRange (zoneRange first last) fun e z => e.holdZone u z).done slot).settle.toState = t at hT ⊢
  refine ⟨hT.taken, fun z hz1 hz2 => ?_, hT.reported.mirrors a h.toLinked, fun v y => (hT.reported.others v id).aims y,
    fun v => (hT.reported.others v id).settings, fun n => (hT.reported.others n id).service, hT.outside⟩
  obtain ⟨e1, _, k2, k3⟩ := hT.inside z hz1 hz2
  have hmeter : (e1.zone u z).state = .rest ∨ (e1.zone u z).state = .pending ∨ (e1.zone u z).state = .moving →
      t.zone u z = (e1.zone u z).entering .held := fun j => by
    rw [k3.zone (by rw [Ev.holdZone_metering j]; exact nofun), Ev.holdZone_metering j]
  have hother : (e1.zone u z).state = .held ∨ (e1.zone u z).state = .faulted ∨ (e1.zone u z).state = .off → t.zone u z = e1.zone u z :=
    fun j => by
      have hn : (e1.zone u z).state ≠ .pending := by rcases j with j | j | j <;> rw [j] <;> decide
      rw [k3.zone (by rwa [Ev.holdZone_other j]), Ev.holdZone_other j]
  cases hs : (s.zone u z).state with
  | pending =>
    have hz := hmeter (.inr (k2.pending hs))
    exact ⟨by rw [hz]; rfl, nofun, nofun⟩
  | rest =>
    have hsame := k2.zone (by rw [hs]; decide)
    have hz := hmeter (.inl (by rw [hsame, hs]))
    rw [hsame] at hz
    exact ⟨by rw [hz]; rfl, fun _ => by rw [hz]; simp [Zone.entering, hs], nofun⟩
  | moving =>
    have hsame := k2.zone (by rw [hs]; decide)
    have hz := hmeter (.inr (.inr (by rw [hsame, hs])))
    rw [hsame] at hz
    exact ⟨by rw [hz]; rfl, nofun, fun _ => by rw [hz]; simp [Zone.entering, hs]⟩
  | held =>
    have hsame := k2.zone (by rw [hs]; decide)
    have hz := hother (.inl (by rw [hsame, hs]))
    exact ⟨by rw [hz, hsame, hs], nofun, nofun⟩
  | faulted =>
    have hsame := k2.zone (by rw [hs]; decide)
    have hz := hother (.inr (.inl (by rw [hsame, hs])))
    exact ⟨by rw [hz, hsame, hs], nofun, nofun⟩
  | off =>
    have hsame := k2.zone (by rw [hs]; decide)
    have hz := hother (.inr (.inr (by rw [hsame, hs])))
    exact ⟨by rw [hz, hsame, hs], nofun, nofun⟩

/-! ### RELEASE and CLEAR FAULT -/

/-- Where the placement of a zone shows once the arbiter has run. -/
def Zone.Settled (r : Zone) : Placement → Prop
  | .faulted => r.state = .faulted ∧ r.faultCause = some .noFeedback
  | .pending => r.state = .pending ∨ r.state = .moving
  | .rest => r.state = .rest

theorem State.ArbitratedAt.placed {r : State} {k : Placement} (h : r.ArbitratedAt t u z) (hp : (r.zone u z).Placed k) :
    (t.zone u z).Settled k := by
  cases k with
  | pending => exact h.pending hp
  | rest =>
    have hz := h.zone (by rw [show (r.zone u z).state = .rest from hp]; decide)
    exact (congrArg Zone.state hz).trans hp
  | faulted =>
    obtain ⟨j1, j2⟩ := hp
    have hz := h.zone (by rw [j1]; decide)
    exact ⟨by rw [hz, j1], by rw [hz, j2]⟩

/-- A zone that a range order places by the test is one whose module, target and position, and whose unit's tolerance, are those that the
order found. -/
theorem Ev.Treating.placement {c : UnitConfig} (h : e.Treating s host) (hc : (s.unit u).config = some c) :
    placementOf (decide (e.moduleState u z = .missing)) (e.unit u).tolerance (e.zone u z).target (e.zone u z).position
      = placementOf (decide (s.moduleState u z = .missing)) c.tolerance (s.zone u z).target (s.zone u z).position := by
  have hk := h.goes.others u id
  have htol : (e.unit u).tolerance = c.tolerance := by
    unfold UnitRec.tolerance
    rw [hk.settings.config, show ((s.landed host).unit u).config = some c from hc]
    rfl
  have hmod : e.moduleState u z = s.moduleState u z := by
    unfold State.moduleState
    rw [hk.service.modules]
    rfl
  rw [htol, hmod, (hk.aims z).target, (hk.aims z).position]
  rfl

/-- An operation that places the zones of a range that are in a state, and leaves the others. -/
structure PlacesFrom (u : UnitNo) (f : Ev → ZoneNo → Ev) (state : ZoneState) : Prop extends RangeOp u f where
  notPending : state ≠ .pending
  placed : ∀ (e : Ev) z, (e.zone u z).state = state → ((f e z).zone u z).Placed
    (placementOf (decide (e.moduleState u z = .missing)) (e.unit u).tolerance (e.zone u z).target (e.zone u z).position)
  other : ∀ (e : Ev) z, (e.zone u z).state ≠ state → f e z = e

theorem placesFrom_releaseZone (u : UnitNo) : PlacesFrom u (fun e z => e.releaseZone u z) .held :=
  { rangeOp_releaseZone u with
    notPending := by decide, placed := fun _ _ => Ev.releaseZone_placed, other := fun _ _ h => if_neg h }

theorem placesFrom_clearZone (u : UnitNo) : PlacesFrom u (fun e z => e.clearZone u z) .faulted :=
  { rangeOp_clearZone u with
    notPending := by decide, placed := fun _ _ => Ev.clearZone_placed, other := fun _ _ h => if_neg h }

/-- What the two rows leave of the zones of their range. -/
theorem RangeTaken.zones {f : Ev → ZoneNo → Ev} {first last : Nat} {state : ZoneState} {c : UnitConfig}
    (h : RangeTaken s t host a u f first last) (hf : PlacesFrom u f state) (hc : (s.unit u).config = some c) :
    (∀ z : ZoneNo, first ≤ z.number → z.number ≤ last → (s.zone u z).state = state → (t.zone u z).Settled
      (placementOf (decide (s.moduleState u z = .missing)) c.tolerance (s.zone u z).target (s.zone u z).position))
      ∧ ∀ z : ZoneNo, ¬(first ≤ z.number ∧ z.number ≤ last ∧ (s.zone u z).state = state) → (s.zone u z).state ≠ .pending →
        (t.zone u z).state = (s.zone u z).state := by
  refine ⟨fun z h1 h2 hs => ?_, fun z hz hp => ?_⟩
  · obtain ⟨e1, k1, k2, k3⟩ := h.inside z h1 h2
    have hsame := k2.zone (by rw [hs]; exact hf.notPending)
    have hplaced := hf.placed e1 z (by rw [hsame, hs])
    rw [k1.placement hc] at hplaced
    exact k3.placed hplaced
  · by_cases hr : first ≤ z.number ∧ z.number ≤ last
    · obtain ⟨e1, k1, k2, k3⟩ := h.inside z hr.1 hr.2
      have hsame := k2.zone hp
      have hid : f e1 z = e1 := hf.other e1 z (by rw [hsame]; exact fun j => hz ⟨hr.1, hr.2, j⟩)
      rw [hid] at k3
      rw [k3.zone (by rwa [hsame]), hsame]
    · rw [(h.beyond z hr).zone hp]

/-- Settles O22: both rows place the zones of one state, and leave the others. -/
theorem releaseAndClearFaultPlaceZones : Obligations.ReleaseAndClearFaultPlaceZones := by
  intro host s a slot u c h hu hc r hr hk
  obtain ⟨f, hexec, hf⟩ : ∃ f, exec r.1 s = Machine.takeRange r.2.1 f host s ∧ PlacesFrom u (f u) r.2.2 := by
    simp only [List.mem_cons, List.not_mem_nil, or_false] at hr
    rcases hr with rfl | rfl
    · exact ⟨fun u e z => e.releaseZone u z, rfl, placesFrom_releaseZone u⟩
    · exact ⟨fun u e z => e.clearZone u z, rfl, placesFrom_clearZone u⟩
  obtain ⟨h1, h2⟩ := h.takeRange hexec hk hu hc
  refine And.intro h1 fun first last hl hr => ⟨_, h2 first last hr, ?_⟩
  have hT := h.range_taken hf.toRangeOp hl first last
  generalize (((s.landed host).treatRange (zoneRange first last) (f u)).done slot).settle.toState = t at hT ⊢
  obtain ⟨hz, hother⟩ := hT.zones hf hc
  refine ⟨hT.taken, fun z z1 z2 z3 => ?_, hother, hT.reported.mirrors a h.toLinked, fun v y => (hT.reported.others v id).aims y,
    fun v => (hT.reported.others v id).settings, fun n => (hT.reported.others n id).service, hT.outside⟩
  have hplaced := hz z z1 z2 z3
  unfold placementOf at hplaced
  by_cases hm : s.moduleState u z = .missing
  · rw [if_pos hm]
    rw [if_pos (decide_eq_true hm)] at hplaced
    exact hplaced
  · rw [if_neg hm]
    rw [if_neg (by simpa using hm)] at hplaced
    generalize (s.zone u z).target = x, (s.zone u z).position = p at hplaced ⊢
    cases x with
    | none => exact hplaced
    | some x =>
      cases p with
      | none => exact hplaced
      | some p =>
        dsimp only at hplaced ⊢
        split
        · next j => rwa [if_pos j] at hplaced
        · next j => rwa [if_neg j] at hplaced

end Sys2Proof.Machine
end

