-- ==== Sys2Proof/Proofs/Endings.lean ====
section
/-! PROOFS. The end of an order's slot: it shows the status and detail written, and keeps them while no order is in it (R163, R170). The
take of an order that moves no zone, and may have ended others: beside the slots of the orders held, T and the blocks it owes it writes
nothing. -/

namespace Sys2Proof.Machine

open Decode

variable {U : UnitNo → Prop} {K : Nat → Prop} {d e f g : Ev} {s t : State} {u : UnitNo} {a : Anchor} {host : List HostWrite} {slot : Slot}
  {st : Status} {x : Detail} {W : Nat → Prop} {k : Nat} {o : OrderRecord}

/-- A slot of the ring: its words lie past the anchor, in the memory, and in no block or status word. -/
theorem State.Linked.slot_apart (h : s.Linked a) (hk : k < a.ringLength) : 16 ≤ a.slotWord k 14 ∧ a.slotWord k 15 < Config.memoryWords
    ∧ ∀ x, (x = a.slotWord k 14 ∨ x = a.slotWord k 15) → ¬a.inMirror x ∧ ¬a.inStatus x :=
  Anchor.slot_apart h.disjoint h.inMemory hk

theorem Ev.Goes.linked (h : d.Goes U K e) (hl : d.toState.Linked a) : e.toState.Linked a :=
  ⟨h.course.state.trans hl.attached, h.course.anchor.trans hl.anchor, hl.inMemory, hl.disjoint, h.wf hl.wf⟩

theorem Ev.writeStatus_shows (hl : e.toState.Linked a) (hk : k < a.ringLength) (st : Status) (x : Detail) :
    (e.writeStatus k st x).toState.SlotShows a k st x ∧ Memory.wf (e.writeStatus k st x).mem = true := by
  obtain ⟨_, p2, _⟩ := hl.slot_apart hk
  have ha : e.attached = true := decide_eq_true hl.attached
  unfold Ev.writeStatus
  rw [ha, hl.anchor]
  have h15 : a.slotWord k 15 = a.slotWord k 14 + 1 := rfl
  have w1 := Memory.write_wf e.mem (a.slotWord k 15) [detailWord x] hl.wf
  have r1 := fun y => Memory.read_write e.mem (a.slotWord k 15) [detailWord x] y hl.wf
  have r2 := fun y => Memory.read_write (Memory.write e.mem (a.slotWord k 15) [detailWord x]) (a.slotWord k 14) [statusWord st x] y w1
  refine ⟨⟨?_, ?_⟩, Memory.write_wf _ _ _ w1⟩
  · refine (r2 _).trans ?_
    rw [if_pos (by simp; omega)]
    simp
  · refine (r2 _).trans ?_
    rw [if_neg (by simp; omega), r1, if_pos (by simp; omega)]
    simp

/-- The slot of an order that has ended shows how it has ended. -/
theorem Ev.endSlot_shows (hl : e.toState.Linked a) (ho : o.slot < a.ringLength) (st : Status) (x : Detail) :
    (e.endSlot o st x).toState.SlotShows a o.slot st x := by
  obtain ⟨⟨h1, h2⟩, hw⟩ := Ev.writeStatus_shows hl ho st x
  obtain ⟨p1, _, _⟩ := hl.slot_apart ho
  obtain ⟨_, _, hrest⟩ := Ev.slotFinal_words (e := e.writeStatus o.slot st x) o.slot o.notify hw
  have h15 : a.slotWord o.slot 15 = a.slotWord o.slot 14 + 1 := rfl
  exact ⟨(hrest _ (by omega)).trans h1, (hrest _ (by omega)).trans h2⟩

theorem Ev.endSlot_ended (e : Ev) (o : OrderRecord) (st : Status) (x : Detail) : e.TakeEnded (e.endSlot o st x) :=
  ((Ev.TakeEnded.refl e).writeStatus _ _ _).slotFinal _ _

/-- A slot in which no order stands keeps its status. -/
theorem Ev.Goes.shows (h : e.Goes U K f) (hl : e.toState.Linked a) (hk : k < a.ringLength) (hK : ¬K k)
    (hs : e.toState.SlotShows a k st x) : f.toState.SlotShows a k st x := by
  obtain ⟨p1, _, _⟩ := hl.slot_apart hk
  have h15 : a.slotWord k 15 = a.slotWord k 14 + 1 := rfl
  have hw : ∀ y, y = a.slotWord k 14 ∨ y = a.slotWord k 15 → Memory.read f.mem y = Memory.read e.mem y := fun y hy =>
    h.words hl.wf a hl.anchor y (by omega) fun j hj => Anchor.slotWords_apart (by rintro rfl; exact hK hj) hy
  exact ⟨(hw _ (.inl rfl)).trans hs.status, (hw _ (.inr rfl)).trans hs.detail⟩

/-- What the end of an event writes leaves every slot. -/
theorem Ev.flush_shows (hl : e.toState.Linked a) (hk : k < a.ringLength) (hs : e.toState.SlotShows a k st x) :
    e.flush.toState.SlotShows a k st x := by
  have hread := ((e.flush_wroteRegions hl.anchor).mem hl.wf).2
  obtain ⟨_, _, p3⟩ := hl.slot_apart hk
  have j1 := p3 _ (.inl rfl)
  have j2 := p3 _ (.inr rfl)
  exact ⟨(hread _ (not_or.2 j1)).trans hs.status, (hread _ (not_or.2 j2)).trans hs.detail⟩

/-! ### The take of an order that moves no zone -/

/-- The take of an order that owes neither an arbiter run nor a completion test. -/
structure Ev.TakenQuietly (s : State) (host : List HostWrite) (a : Anchor) (st : Status) (x : Detail) (W : Nat → Prop) (e : Ev)
    (t : State) : Prop where
  taken : TakenWith s t host a st x fun y => s.heldWord a y ∨ W y
  blocks : e.toState.SameBlocks t
  kept : s.port.Kept t.port
  mirror : ∀ u ∈ e.mirrorDue, s.MirrorWritten t a u
  shows : ∀ k ∈ s.heldSlots, k < a.ringLength → ∀ st x, e.toState.SlotShows a k st x → t.SlotShows a k st x

theorem State.Due.goes_quiet (h : s.Due host a slot) (hg : (s.landed host).Goes U K e) (hK : ∀ k, K k → k ∈ s.heldSlots ∨ k = s.port.take)
    (hd : e.arbiterDue = false) (ht : e.testDue = []) (hm : ∀ u ∈ e.mirrorDue, ∀ y, a.inBlock u y → W y)
    (hs : ¬e.SameStatus ∨ e.lineDue ≠ [] → ∀ y, a.inStatus y → W y) (hW : ∀ y, W y → a.inMirror y ∨ a.inStatus y) (st : Status)
    (x : Detail) : e.TakenQuietly s host a st x W (e.finish slot st x).settle.toState := by
  have htake : e.port.take = s.port.take := hg.course.take
  have hl := hg.linked h.linked_landed
  have ha : e.attached = true := decide_eq_true hl.attached
  obtain ⟨p1, p2, p3⟩ := Anchor.slot_apart h.disjoint h.inMemory h.inRing
  have hE : e.TakeEnded (e.finish slot st x) := Ev.finishTake_ended _ _ _ _
  obtain ⟨w1, w2, w3, w4, w5, w6⟩ := Ev.finishTake_words (e := e) a e.port.take slot.notify st x ha hl.anchor hl.wf (by rw [htake]; exact p1)
    (by rw [htake]; exact p2)
  have hcame : (s.landed host).Came U (e.finish slot st x) := hg.came.trans (e.came_finish slot st x)
  have hfin : e.finishTake e.port.take slot.notify st x = e.finish slot st x := rfl
  rw [hfin] at w1
  rw [hfin, htake] at w2 w3 w4 w5 w6
  generalize e.finish slot st x = g at *
  have hga : g.port.anchor = some a := hE.port.anchor.trans hl.anchor
  have hwrote : g.Wrote g.settle W := by
    refine Ev.settle_wrote (hE.arbiterDue.trans hd) (hE.testDue.trans ht) (fun b hb u hu => ?_) fun b hb j => ?_
    · obtain rfl : a = b := Option.some.inj (hga.symm.trans hb)
      exact hm u (hE.mirrorDue ▸ hu)
    · obtain rfl : a = b := Option.some.inj (hga.symm.trans hb)
      refine hs (j.imp (fun j k => j ⟨?_, ?_, ?_, fun u => ?_⟩) fun j => by rwa [hE.lineDue] at j)
      · rw [hE.intake, hE.start]; exact k.intake
      · rw [hE.port.lostScans, hE.start]; exact k.lostScans
      · rw [hE.port.fault, hE.start]; exact k.fault
      · have hu := k.sweepFault u
        unfold State.unit at hu ⊢
        rw [hE.units, hE.start]
        exact hu
  have hsettle : g.settle = ({ g with testDue := [] } : Ev).flush := by
    have h1 : g.settleArbiter = g := by simp [Ev.settleArbiter, hE.arbiterDue, hd]
    have h2 : g.runTests = { g with testDue := [] } := by simp [Ev.runTests, hE.testDue, ht, inOrder]
    unfold Ev.settle
    rw [h1, h2]
  have hread := (hwrote.mem w1).2
  have hport := hwrote.port
  have happart : ∀ y, ¬(a.inMirror y ∨ a.inStatus y) → ¬W y := fun y hy hw => hy (hW y hw)
  have h0 : 0 < a.ringLength := Nat.zero_lt_of_lt h.inRing
  refine ⟨⟨?_, ?_, by rw [hport]; exact w4, ?_, fun y y1 y2 => ?_⟩, ?_, ?_, fun u hu => ?_, fun k hk hkr st x hshow => ?_⟩
  · exact (hread _ (happart _ (not_or.2 (p3 _ (.inl rfl))))).trans w2
  · exact (hread _ (happart _ (not_or.2 (p3 _ (.inr rfl))))).trans w3
  · exact (hread _ (happart _ (not_or.2 (Anchor.offsets_apart h.disjoint (by omega))))).trans w5
  · simp only [State.takeWord, not_or] at y1 y2
    obtain ⟨y14, y15, yst, ydet⟩ := y1
    refine (hread y y2.2).trans ((w6 y y14 y15 yst ydet).trans (hg.words h.linked_landed.wf a h.anchor y y15 fun k hk => ?_))
    rcases hK k hk with hk | rfl
    · exact ⟨fun r => y2.1 ⟨k, hk, .inl r⟩, fun r => y2.1 ⟨k, hk, .inr r⟩⟩
    · exact ⟨yst, ydet⟩
  · exact { curves := hwrote.curves.trans hE.curves, lines := hwrote.lines.trans hE.lines,
            partGrants := hwrote.partGrants.trans hE.partGrants, pointer := hwrote.pointer.trans hE.pointer,
            check := hwrote.check.trans hE.check, intake := hwrote.intake.trans hE.intake,
            timing := hwrote.timing.trans hE.timing, scanPulses := hwrote.scanPulses.trans hE.scanPulses,
            pending := hwrote.pending.trans hE.pending, units := hwrote.units.trans hE.units }
  · refine Port.Kept.trans (hcame.kept : s.port.Kept g.port) ?_
    rw [hport]
    exact ⟨rfl, rfl, rfl, rfl, rfl, rfl, rfl, BitVec.and_self, rfl, rfl, rfl, rfl, rfl, rfl, rfl, rfl, rfl, rfl⟩
  · rw [hsettle]
    have hcame' : (s.landed host).Came U { g with testDue := [] } :=
      hcame.trans (.of_units rfl rfl (.refl _) rfl (List.Subset.refl _))
    exact (hcame'.written h.linked_landed w1 (hE.mirrorDue.symm ▸ hu)).of_landed
  · obtain ⟨q1, _, q3⟩ := h.linked_landed.slot_apart hkr
    have h15 : a.slotWord k 15 = a.slotWord k 14 + 1 := rfl
    have hT : k ≠ s.port.take := by rintro rfl; exact h.free hk
    have hword : ∀ y, y = a.slotWord k 14 ∨ y = a.slotWord k 15 → Memory.read g.settle.mem y = Memory.read e.mem y := fun y hy => by
      obtain ⟨j1, j2⟩ := Anchor.slotWords_apart (Ne.symm hT) hy
      exact (hread y (happart y (not_or.2 (q3 y hy)))).trans (w6 y (by omega) (by omega) j1 j2)
    exact ⟨(hword _ (.inl rfl)).trans hshow.status, (hword _ (.inr rfl)).trans hshow.detail⟩

end Sys2Proof.Machine
end

