-- ==== Sys2Proof/Proofs/Aborts.lean ====
section
/-! PROOFS. ABORT (R178, R104): the order it ends, the slot of that order, and the mirror blocks of the units that held it. -/

namespace Sys2Proof.Machine

open Decode

variable {d e f : Ev} {s t : State} {u v : UnitNo} {a : Anchor} {host : List HostWrite} {slot : Slot} {st : Status} {x : Detail}
  {W : Nat → Prop} {o : OrderRecord}

/-- An event that owes nothing and has written nothing that the status area shows. -/
structure Ev.Unowing (e : Ev) : Prop where
  arbiter : e.arbiterDue = false
  tests : e.testDue = []
  lines : e.lineDue = []
  status : e.SameStatus

theorem State.landed_unowing (s : State) (host : List HostWrite) : (s.landed host).Unowing :=
  ⟨rfl, rfl, rfl, rfl, rfl, rfl, fun _ => rfl⟩

theorem Ev.TakeEnded.unowing (h : d.TakeEnded e) (k : d.Unowing) : e.Unowing := by
  refine ⟨h.arbiterDue.trans k.arbiter, h.testDue.trans k.tests, h.lineDue.trans k.lines, ?_, ?_, ?_, fun u => ?_⟩
  · rw [h.intake, h.start]; exact k.status.intake
  · rw [h.port.lostScans, h.start]; exact k.status.lostScans
  · rw [h.port.fault, h.start]; exact k.status.fault
  · have hu := k.status.sweepFault u
    unfold State.unit at hu ⊢
    rw [h.units, h.start]
    exact hu

theorem Ev.Unowing.updUnit (h : e.Unowing) (u : UnitNo) (f : UnitRec → UnitRec) (hf : (f (e.unit u)).sweepFault = (e.unit u).sweepFault) :
    (e.updUnit u f).Unowing := by
  refine ⟨h.arbiter, h.tests, h.lines, h.status.intake, h.status.lostScans, h.status.fault, fun v => ?_⟩
  rw [Ev.updUnit_unit]
  split
  · next j => subst j; exact hf.trans (h.status.sweepFault u)
  · exact h.status.sweepFault v

theorem Ev.Unowing.setCheck (h : e.Unowing) (c : Option CheckRun) : (e.setCheck c).Unowing :=
  ⟨h.arbiter, h.tests, h.lines, h.status.intake, h.status.lostScans, h.status.fault, h.status.sweepFault⟩

theorem Ev.Unowing.oweMirror (h : e.Unowing) (u : UnitNo) : (e.oweMirror u).Unowing :=
  ⟨h.arbiter, h.tests, h.lines, h.status.intake, h.status.lostScans, h.status.fault, h.status.sweepFault⟩

/-- The take of an order that has ended orders and owes mirror blocks alone. -/
theorem State.Due.goes_unowing {U : UnitNo → Prop} {K : Nat → Prop} (h : s.Due host a slot) (hg : (s.landed host).Goes U K e)
    (hK : ∀ k, K k → k ∈ s.heldSlots ∨ k = s.port.take) (hq : e.Unowing) (hm : ∀ u ∈ e.mirrorDue, ∀ y, a.inBlock u y → W y) (hW : ∀ y, W y → a.inMirror y) (st : Status) (x : Detail) :
    e.TakenQuietly s host a st x W (e.finish slot st x).settle.toState :=
  h.goes_quiet hg hK hq.arbiter hq.tests hm (fun j => j.elim (fun j => absurd hq.status j) fun j => absurd hq.lines j)
    (fun y hy => .inl (hW y hy)) st x

/-! ### Orders that end -/

theorem Ev.endTracked_some (h : (e.unit u).tracked = some o) (st : Status) (c : Cause) :
    e.endTracked u st c = (e.clearTracked u).endSlot o st (o.finalDetail (e.unit u) c) := by
  rw [Ev.endTracked, h]

theorem Ev.endTracked_none (h : (e.unit u).tracked = none) (st : Status) (c : Cause) : e.endTracked u st c = e := by
  rw [Ev.endTracked, h]

theorem Ev.endWaiting_some {w : WaitingOrder} (h : (e.unit u).waiting = some w) (st : Status) (c : Cause) :
    e.endWaiting u st c = (e.clearWaiting u).endSlot w.order st (w.order.finalDetail (e.unit u) c) := by
  rw [Ev.endWaiting, h]

theorem Ev.endWaiting_none (h : (e.unit u).waiting = none) (st : Status) (c : Cause) : e.endWaiting u st c = e := by
  rw [Ev.endWaiting, h]

theorem State.tracked_held (h : (s.unit u).tracked = some o) : o.slot ∈ s.heldSlots :=
  State.mem_heldSlots.2 ⟨u, List.mem_append_left _ (by simp [h])⟩

theorem State.waiting_held {w : WaitingOrder} (h : (s.unit u).waiting = some w) : w.order.slot ∈ s.heldSlots :=
  State.mem_heldSlots.2 ⟨u, List.mem_append_right _ (by simp [h])⟩

/-! ### ABORT -/

theorem Ev.abortUnit_none (ht : (e.unit u).tracked = none) (hw : (e.unit u).waiting = none) : e.abortUnit u = e := by
  rw [Ev.abortUnit, ht, hw]

theorem Ev.abortUnit_waiting {w : WaitingOrder} (ht : (e.unit u).tracked = none) (hw : (e.unit u).waiting = some w) :
    e.abortUnit u = ((e.clearWaiting u).endSlot w.order .aborted (w.order.finalDetail (e.unit u) .byHost)).oweMirror u := by
  rw [Ev.abortUnit, ht, hw]
  dsimp only
  rw [Ev.endWaiting_some hw]

theorem Ev.abortUnit_tracked (ht : (e.unit u).tracked = some o) (hk : ∀ b c, o.kind ≠ .checkLines b c) :
    e.abortUnit u = ((e.clearTracked u).endSlot o .aborted (o.finalDetail (e.unit u) .byHost)).oweMirror u := by
  rw [Ev.abortUnit, ht]
  dsimp only
  rw [Ev.endTracked_some ht]
  split
  · next b c hkind => exact absurd hkind (hk b c)
  · rfl

/-- How the detail of an aborted check reads. -/
def CheckRun.abortDetail (run : CheckRun) : Detail :=
  { Detail.only Cause.byHost.code with
    linesFailed := linesFailed (resultOf run.abort.findingA) (resultOf run.abort.findingB) }

theorem Ev.abortUnit_check {run : CheckRun} (ht : (e.unit u).tracked = some o) (hk : o.kind = .checkLines run.lineA run.lineB)
    (hc : e.check = some run) (hp : run.phase ≠ .abortDrain) (ha : (e.unit run.lineA).tracked = some o) :
    e.abortUnit u = ((((((e.setCheck (some run.abort)).clearTracked run.lineA).clearTracked run.lineB).endSlot o .aborted
      run.abortDetail).oweMirror run.lineA).oweMirror run.lineB) := by
  rw [Ev.abortUnit, ht]
  dsimp only
  rw [hk]
  dsimp only
  have habort : e.abortCheck .byHost = (e.setCheck (some run.abort)).endCheckOrder run.lineA run.lineB .aborted .byHost
      (linesFailed (resultOf run.abort.findingA) (resultOf run.abort.findingB)) := by
    rw [Ev.abortCheck, hc]
    dsimp only
    rw [if_neg hp]
  have ha' : ((e.setCheck (some run.abort)).unit run.lineA).tracked = some o := ha
  rw [habort, Ev.endCheckOrder, ha']
  rfl

/-- The row of an ABORT that is not refused. -/
theorem State.Due.abort (h : s.Due host a slot) (hk : slot.kind = some .abort) (hu : slot.unit? = some u) (hf : slot.atSheetFlag = false) :
    exec (.abort host) s = .next ((((s.landed host).abortUnit u).finish slot .done
      (Detail.only (s.unit u).abortCause.code)).settle.toState) := by
  refine h.taken_by (c := .abort host) (execAbort host) rfl rfl (ofKind_eq.2 hk) ?_
  rw [Ev.onUnit_some hu, hf]
  rfl

theorem UnitRec.abortCause_tracked {r : UnitRec} (h : r.tracked = some o) : r.abortCause.code = 0 := by
  simp [UnitRec.abortCause, UnitRec.hasOrder, h, Cause.code]

theorem UnitRec.abortCause_waiting {r : UnitRec} {w : WaitingOrder} (h : r.waiting = some w) : r.abortCause.code = 0 := by
  simp [UnitRec.abortCause, UnitRec.hasOrder, h, Cause.code]

theorem State.landed_unit (s : State) (host : List HostWrite) (u : UnitNo) : (s.landed host).unit u = s.unit u := rfl

/-- The take of an ABORT that has ended an order of one unit. -/
theorem State.Due.aborted (h : s.Due host a slot) {g : UnitRec → UnitRec}
    (hg : (s.landed host).Goes (· = u) (· ∈ s.heldSlots) (((s.landed host).updUnit u g).endSlot o .aborted x))
    (hfault : (g (s.unit u)).sweepFault = (s.unit u).sweepFault) (ho : o.slot ∈ s.heldSlots) (hr : o.slot < a.ringLength) :
    let e := (((s.landed host).updUnit u g).endSlot o .aborted x).oweMirror u
    let t := (e.finish slot .done (Detail.only 0)).settle.toState
    TakenWith s t host a .done (Detail.only 0) (fun y => s.heldWord a y ∨ a.inBlock u y) ∧ t.SlotShows a o.slot .aborted x
      ∧ s.MirrorWritten t a u ∧ t.units = s.units.set u (g (s.unit u)) ∧ s.SameMachine t ∧ s.port.Kept t.port := by
  have hE := Ev.endSlot_ended ((s.landed host).updUnit u g) o .aborted x
  have hU : ((((s.landed host).updUnit u g).endSlot o .aborted x).oweMirror u).Unowing :=
    (hE.unowing ((s.landed_unowing host).updUnit u g hfault)).oweMirror u
  have hshow : (((s.landed host).updUnit u g).endSlot o .aborted x).toState.SlotShows a o.slot .aborted x :=
    Ev.endSlot_shows (e := (s.landed host).updUnit u g) ⟨h.attached, h.anchor, h.inMemory, h.disjoint, h.linked_landed.wf⟩ hr .aborted x
  generalize ((s.landed host).updUnit u g).endSlot o .aborted x = e at hE hU hg hshow ⊢
  have hdue : (e.oweMirror u).mirrorDue = [u] := congrArg (u :: ·) hE.mirrorDue
  have hT := h.goes_unowing (W := a.inBlock u) (hg.oweMirror u) (fun _ => .inl) hU (fun v hv y hy => by
      rw [hdue, List.mem_singleton] at hv
      exact hv ▸ hy) (fun y hy => Anchor.inMirror_of_inBlock hy) .done (Detail.only 0)
  exact ⟨hT.taken, hT.shows _ ho hr _ _ hshow, hT.mirror u (hdue ▸ List.mem_singleton_self u), hT.blocks.units.trans hE.units,
    ⟨hT.blocks.curves.trans hE.curves, hT.blocks.lines.trans hE.lines, hT.blocks.partGrants.trans hE.partGrants,
      hT.blocks.pointer.trans hE.pointer, hT.blocks.check.trans hE.check, hT.blocks.intake.trans hE.intake,
      hT.blocks.timing.trans hE.timing, hT.blocks.scanPulses.trans hE.scanPulses, hT.blocks.pending.trans hE.pending⟩, hT.kept⟩

/-- The take of an ABORT that has ended a check. -/
theorem State.Due.aborted_check {run : CheckRun} (h : s.Due host a slot) (ho : (s.unit run.lineA).tracked = some o)
    (hr : o.slot < a.ringLength) :
    let e := (((((s.landed host).setCheck (some run.abort)).clearTracked run.lineA).clearTracked run.lineB).endSlot o .aborted
      run.abortDetail).oweMirror run.lineA |>.oweMirror run.lineB
    let t := (e.finish slot .done (Detail.only 0)).settle.toState
    TakenWith s t host a .done (Detail.only 0) (fun y => s.heldWord a y ∨ a.inBlock run.lineA y ∨ a.inBlock run.lineB y)
      ∧ t.SlotShows a o.slot .aborted run.abortDetail ∧ s.MirrorWritten t a run.lineA ∧ s.MirrorWritten t a run.lineB
      ∧ (∀ v, t.unit v = if v = run.lineA ∨ v = run.lineB then { s.unit v with tracked := none } else s.unit v)
      ∧ (((s.landed host).setCheck (some run.abort)).toState.SameMachine t) ∧ s.port.Kept t.port := by
  have hg : (s.landed host).Goes noUnit (· ∈ s.heldSlots)
      ((((s.landed host).setCheck (some run.abort)).clearTracked run.lineA).clearTracked run.lineB) :=
    (((s.landed_goes host _).setCheck _).clearTracked _).clearTracked _
  have hU : ((((s.landed host).setCheck (some run.abort)).clearTracked run.lineA).clearTracked run.lineB).Unowing :=
    ((((s.landed_unowing host).setCheck _).updUnit _ _ (by exact rfl)).updUnit _ _ (by exact rfl))
  have hunit : ∀ v, ((((s.landed host).setCheck (some run.abort)).clearTracked run.lineA).clearTracked run.lineB).unit v
      = if v = run.lineA ∨ v = run.lineB then { s.unit v with tracked := none } else s.unit v := fun v => by
    rw [Ev.clearTracked, Ev.updUnit_unit, Ev.clearTracked, Ev.updUnit_unit]
    have hs : ((s.landed host).setCheck (some run.abort)).unit v = s.unit v := rfl
    rw [hs]
    by_cases h1 : run.lineA = v <;> by_cases h2 : run.lineB = v <;> simp [h1, h2, eq_comm (a := v)]
  have hM : ((s.landed host).setCheck (some run.abort)).toState.SameMachine
      ((((s.landed host).setCheck (some run.abort)).clearTracked run.lineA).clearTracked run.lineB).toState :=
    ⟨rfl, rfl, rfl, rfl, rfl, rfl, rfl, rfl, rfl⟩
  have hdue0 : ((((s.landed host).setCheck (some run.abort)).clearTracked run.lineA).clearTracked run.lineB).mirrorDue = [] := rfl
  have hheld := State.tracked_held ho
  generalize (((s.landed host).setCheck (some run.abort)).clearTracked run.lineA).clearTracked run.lineB = d at hg hU hunit hM hdue0 ⊢
  have hE := Ev.endSlot_ended d o .aborted run.abortDetail
  have hshow := Ev.endSlot_shows (hg.linked h.linked_landed) hr .aborted run.abortDetail
  have hg' := hg.endSlot (o := o) hheld .aborted run.abortDetail
  have hU' := hE.unowing hU
  generalize d.endSlot o .aborted run.abortDetail = e at hE hshow hg' hU' ⊢
  have hdue : ((e.oweMirror run.lineA).oweMirror run.lineB).mirrorDue = [run.lineB, run.lineA] := by
    rw [Ev.oweMirror, Ev.oweMirror]
    dsimp only
    rw [hE.mirrorDue, hdue0]
  have hT := h.goes_unowing (W := fun y => a.inBlock run.lineA y ∨ a.inBlock run.lineB y) ((hg'.oweMirror run.lineA).oweMirror run.lineB)
    (fun _ => .inl) ((hU'.oweMirror _).oweMirror _) (fun v hv y hy => by
      rw [hdue] at hv
      rcases List.mem_cons.1 hv with rfl | hv
      · exact .inr hy
      · rw [List.mem_singleton] at hv
        exact .inl (hv ▸ hy)) (fun y hy => hy.elim Anchor.inMirror_of_inBlock Anchor.inMirror_of_inBlock) .done (Detail.only 0)
  refine ⟨hT.taken, hT.shows _ hheld hr _ _ hshow, hT.mirror _ (by simp [hdue]), hT.mirror _ (by simp [hdue]), fun v => ?_, ?_, hT.kept⟩
  · rw [State.unit, hT.blocks.units, ← hunit v]
    exact congrArg (fun us : Vector UnitRec 16 => us[v]) hE.units
  · exact ⟨(hT.blocks.curves.trans hE.curves).trans hM.curves, (hT.blocks.lines.trans hE.lines).trans hM.lines,
      (hT.blocks.partGrants.trans hE.partGrants).trans hM.partGrants, (hT.blocks.pointer.trans hE.pointer).trans hM.pointer,
      (hT.blocks.check.trans hE.check).trans hM.check, (hT.blocks.intake.trans hE.intake).trans hM.intake,
      (hT.blocks.timing.trans hE.timing).trans hM.timing, (hT.blocks.scanPulses.trans hE.scanPulses).trans hM.scanPulses,
      (hT.blocks.pending.trans hE.pending).trans hM.pending⟩

/-- Settles O23: by what order the unit has. -/
theorem abortEndsTheUnitsOrder : Obligations.AbortEndsTheUnitsOrder := by
  intro host s a slot u h hk hu
  refine ⟨fun hf => ?_, fun hf => ⟨fun ht hw => ?_, fun w ht hw hr => ?_, fun o ht hkind hr => ?_, fun o b c run ht hkind hc hp hb hc' hob _ hr => ?_⟩⟩
  · refine h.refused (execAbort host) rfl rfl (ofKind_eq.2 hk) ?_
    rw [Ev.onUnit_some hu, if_pos hf]
  · have hF := h.finished h.landed_acted .done (Detail.only Cause.nothingRunning.code)
    have hcause : (s.unit u).abortCause = .nothingRunning := by simp [UnitRec.abortCause, UnitRec.hasOrder, ht, hw]
    have hexec := h.abort hk hu hf
    rw [Ev.abortUnit_none (e := s.landed host) ht hw, hcause] at hexec
    exact ⟨_, hexec, hF.taken, hF.blocks.of_landed, hF.port⟩
  · have hexec := h.abort hk hu hf
    rw [Ev.abortUnit_waiting (e := s.landed host) ht hw, State.landed_unit, UnitRec.abortCause_waiting hw, Ev.clearWaiting] at hexec
    have hheld := State.waiting_held hw
    have hg := ((s.landed_goes host (· = u)).clearWaiting rfl).endSlot (o := w.order) hheld .aborted (w.order.finalDetail (s.unit u) .byHost)
    obtain ⟨h1, h2, h3, h4, h5, h6⟩ := h.aborted (g := fun r => { r with waiting := none, staged := none }) hg rfl hheld hr
    exact ⟨_, hexec, h1, h2, h3, h4, h5, h6⟩
  · have hexec := h.abort hk hu hf
    rw [Ev.abortUnit_tracked (e := s.landed host) ht hkind, State.landed_unit, UnitRec.abortCause_tracked ht, Ev.clearTracked] at hexec
    have hheld := State.tracked_held ht
    have hg := ((s.landed_goes host (· = u)).clearTracked u).endSlot (o := o) hheld .aborted (o.finalDetail (s.unit u) .byHost)
    obtain ⟨h1, h2, h3, h4, h5, h6⟩ := h.aborted (g := fun r => { r with tracked := none }) hg rfl hheld hr
    exact ⟨_, hexec, h1, h2, h3, h4, h5, h6⟩
  · subst hb hc'
    have hexec := h.abort hk hu hf
    rw [Ev.abortUnit_check (e := s.landed host) ht hkind hc hp hob, UnitRec.abortCause_tracked ht] at hexec
    obtain ⟨h1, h2, h3, h4, h5, h6, h7⟩ := h.aborted_check hob hr
    exact ⟨_, hexec, h1, h2, h3, h4, h5, h6.check, h6.lines, h6.partGrants, h6.pointer, h6.curves, h6.intake, h6.timing, h6.scanPulses,
      h6.pending, h7⟩

end Sys2Proof.Machine
end

