-- ==== Sys2Proof/Proofs/Supersessions.lean ====
section
/-! PROOFS. A newer PRESET, TRIM or SWEEP supersedes the unit's older order (R173), and waits for its sheet (R174). -/

namespace Sys2Proof.Machine

open Decode

variable {U : UnitNo → Prop} {K : Nat → Prop} {d e f : Ev} {s t : State} {u v : UnitNo} {a : Anchor} {host : List HostWrite} {slot : Slot}
  {st : Status} {x : Detail} {W : Nat → Prop} {o : OrderRecord} {k : Nat}

/-! ### A slot that one order holds -/

theorem State.count_heldSlots (s : State) (k : Nat) : s.heldSlots.count k = ∑ u : UnitNo, (s.unit u).slots.count k := by
  rw [State.heldSlots, List.count_flatMap, Fin.sum_univ_def]
  rfl

/-- A slot that one order holds is not held in another unit, nor twice in its own. -/
theorem State.held_once (h : s.heldSlots.count k = 1) (hu : k ∈ (s.unit u).slots) :
    (s.unit u).slots.count k = 1 ∧ ∀ v, v ≠ u → k ∉ (s.unit v).slots := by
  rw [State.count_heldSlots] at h
  have h1 : 0 < (s.unit u).slots.count k := List.count_pos_iff.2 hu
  have hle : (s.unit u).slots.count k ≤ ∑ w : UnitNo, (s.unit w).slots.count k :=
    Finset.single_le_sum (f := fun w : UnitNo => (s.unit w).slots.count k) (fun _ _ => Nat.zero_le _) (Finset.mem_univ u)
  refine ⟨by omega, fun v hv hk => ?_⟩
  have h2 : 0 < (s.unit v).slots.count k := List.count_pos_iff.2 hk
  have hsum : ∑ w ∈ ({u, v} : Finset UnitNo), (s.unit w).slots.count k ≤ ∑ w : UnitNo, (s.unit w).slots.count k :=
    Finset.sum_le_sum_of_subset (Finset.subset_univ _)
  rw [Finset.sum_pair hv.symm] at hsum
  omega

/-! ### Supersession -/

/-- The order that a unit follows: the RUNNING one, or the WAITING one (R172). -/
def UnitRec.follows (r : UnitRec) (o : OrderRecord) : Prop := r.tracked = some o ∨ (r.tracked = none ∧ r.waiting.map (·.order) = some o)

/-- The unit's older order has ended, and its record has changed in its order fields alone. -/
structure Ev.Superseding (u : UnitNo) (d e : Ev) : Prop where
  machine : d.toState.SameMachine e.toState
  others : ∀ v, v ≠ u → e.unit v = d.unit v
  unit : e.unit u = { d.unit u with tracked := none, waiting := none, staged := (e.unit u).staged }
  unowing : d.Unowing → e.Unowing
  mirrorDue : e.mirrorDue = d.mirrorDue
  start : e.start = d.start
  kept : d.port.Kept e.port

theorem Ev.TakeEnded.machine (h : d.TakeEnded e) : d.toState.SameMachine e.toState :=
  ⟨h.curves, h.lines, h.partGrants, h.pointer, h.check, h.intake, h.timing, h.scanPulses, h.pending⟩

theorem Ev.TakeEnded.unit (h : d.TakeEnded e) (v : UnitNo) : e.unit v = d.unit v := congrArg (fun us : Vector UnitRec 16 => us[v]) h.units

theorem State.SameMachine.trans {a b c : State} (h : a.SameMachine b) (k : b.SameMachine c) : a.SameMachine c :=
  ⟨k.curves.trans h.curves, k.lines.trans h.lines, k.partGrants.trans h.partGrants, k.pointer.trans h.pointer, k.check.trans h.check,
    k.intake.trans h.intake, k.timing.trans h.timing, k.scanPulses.trans h.scanPulses, k.pending.trans h.pending⟩

/-- An order's fields of unit u's record are cleared. -/
structure Ev.Clearing (u : UnitNo) (f : UnitRec → UnitRec) (d e : Ev) : Prop where
  machine : d.toState.SameMachine e.toState
  unit : ∀ v, e.unit v = if u = v then f (d.unit v) else d.unit v
  unowing : d.Unowing → e.Unowing
  mirrorDue : e.mirrorDue = d.mirrorDue
  start : e.start = d.start
  kept : d.port.Kept e.port

theorem Ev.clearing_endSlot (u : UnitNo) (f : UnitRec → UnitRec) (hf : ∀ r, (f r).sweepFault = r.sweepFault) (o : OrderRecord) (st : Status)
    (x : Detail) : d.Clearing u f ((d.updUnit u f).endSlot o st x) := by
  have hE := Ev.endSlot_ended (d.updUnit u f) o st x
  have hM : d.toState.SameMachine (d.updUnit u f).toState := ⟨rfl, rfl, rfl, rfl, rfl, rfl, rfl, rfl, rfl⟩
  exact ⟨hM.trans hE.machine, fun v => (hE.unit v).trans (Ev.updUnit_unit d u v f), fun k => hE.unowing (k.updUnit u f (hf _)), hE.mirrorDue,
    hE.start, hE.port⟩

theorem Ev.clearing_same (f : UnitRec → UnitRec) (hf : f (e.unit u) = e.unit u) : e.Clearing u f e :=
  ⟨⟨rfl, rfl, rfl, rfl, rfl, rfl, rfl, rfl, rfl⟩, fun v => by split <;> rename_i j; subst j; exact hf.symm; rfl, id, rfl, rfl, .refl _⟩

theorem Ev.endTracked_clearing (e : Ev) (u : UnitNo) (st : Status) (c : Cause) :
    e.Clearing u (fun r => { r with tracked := none }) (e.endTracked u st c) := by
  cases h : (e.unit u).tracked with
  | none =>
    rw [Ev.endTracked_none h]
    exact Ev.clearing_same _ (by rw [← h])
  | some o =>
    rw [Ev.endTracked_some h]
    exact Ev.clearing_endSlot u _ (by exact fun _ => rfl) o st _

theorem Ev.endWaiting_clearing (e : Ev) (u : UnitNo) (st : Status) (c : Cause) :
    e.Clearing u (fun r => { r with waiting := none, staged := if r.waiting.isSome then none else r.staged }) (e.endWaiting u st c) := by
  cases h : (e.unit u).waiting with
  | none =>
    rw [Ev.endWaiting_none h]
    refine Ev.clearing_same _ ?_
    simp only [h, Option.isSome_none, Bool.false_eq_true, if_false]
    rw [← h]
  | some w =>
    rw [Ev.endWaiting_some h]
    have hC := Ev.clearing_endSlot (d := e) u (fun r => { r with waiting := none, staged := none }) (by exact fun _ => rfl) w.order st
      (w.order.finalDetail (e.unit u) c)
    refine ⟨hC.machine, fun v => (hC.unit v).trans ?_, hC.unowing, hC.mirrorDue, hC.start, hC.kept⟩
    split
    · next j =>
      subst j
      simp [h]
    · rfl

theorem Ev.supersede_superseding (e : Ev) (u : UnitNo) : e.Superseding u (e.supersede u) := by
  have h1 := Ev.endTracked_clearing e u .superseded .none
  have h2 := Ev.endWaiting_clearing (e.endTracked u .superseded .none) u .superseded .none
  refine ⟨h1.machine.trans h2.machine, fun v hv => ?_, ?_, h2.unowing ∘ h1.unowing, h2.mirrorDue.trans h1.mirrorDue,
    h2.start.trans h1.start, h1.kept.trans h2.kept⟩
  · rw [Ev.supersede, h2.unit, if_neg hv.symm, h1.unit, if_neg hv.symm]
  · rw [Ev.supersede, h2.unit, if_pos rfl, h1.unit, if_pos rfl]

/-- The slot of the older order shows that it is superseded, and no unit holds it. -/
theorem Ev.supersede_shows (hg : d.Goes U K e) (hl : d.toState.Linked a) (hu : U u) (ho : (e.unit u).follows o) (hr : o.slot < a.ringLength)
    (hc : e.heldSlots.count o.slot = 1) :
    (e.supersede u).toState.SlotShows a o.slot .superseded (o.finalDetail (e.unit u) .none)
      ∧ ∀ v, o.slot ∉ ((e.supersede u).unit v).slots := by
  have hS := Ev.supersede_superseding e u
  have hmem : o.slot ∈ (e.unit u).slots := by
    rcases ho with h | ⟨_, h⟩
    · exact List.mem_append_left _ (by simp [h])
    · obtain ⟨w, hw, rfl⟩ := Option.map_eq_some_iff.1 h
      exact List.mem_append_right _ (by simp [hw])
  obtain ⟨hone, hothers⟩ := State.held_once hc hmem
  refine ⟨?_, fun v => ?_⟩
  · rcases ho with h | ⟨h1, h2⟩
    · rw [Ev.supersede, Ev.endTracked_some h]
      have hg1 := (hg.clearTracked u).linked hl
      have hshow := Ev.endSlot_shows hg1 hr .superseded (o.finalDetail (e.unit u) .none)
      have hg2 := (hg.clearTracked u).endSlot (o := o) (hg.tracked_slot h) .superseded (o.finalDetail (e.unit u) .none)
      have hE := Ev.endSlot_ended (e.clearTracked u) o .superseded (o.finalDetail (e.unit u) .none)
      generalize (e.clearTracked u).endSlot o .superseded (o.finalDetail (e.unit u) .none) = f at hshow hg2 hE ⊢
      have hwait : (f.unit u).waiting = (e.unit u).waiting := by
        rw [hE.unit, Ev.clearTracked, Ev.updUnit_unit_self]
      cases hw : (f.unit u).waiting with
      | none => rwa [Ev.endWaiting_none hw]
      | some w =>
        rw [Ev.endWaiting_some hw]
        have hapart : o.slot ≠ w.order.slot := fun j => by
          have hcount : (e.unit u).slots.count o.slot = 2 := by
            rw [UnitRec.slots, h, ← hwait, hw]
            simp [j]
          omega
        have hfree : ∀ v, ∀ k ∈ ((f.clearWaiting u).unit v).slots, k ≠ o.slot := fun v k hk => by
          rw [Ev.clearWaiting, Ev.updUnit_unit, hE.unit, Ev.clearTracked, Ev.updUnit_unit] at hk
          split at hk
          · simp [UnitRec.slots] at hk
          · next hv => exact fun r => hothers v (Ne.symm hv) (r ▸ hk)
        have hg3 := (Ev.Goes.refl (U := U) hfree).endSlot (o := w.order) hapart.symm .superseded
          (w.order.finalDetail (f.unit u) .none)
        exact hg3.shows ((hg2.clearWaiting hu).linked hl) hr (fun r => r rfl) ⟨hshow.status, hshow.detail⟩
    · obtain ⟨w, hw, rfl⟩ := Option.map_eq_some_iff.1 h2
      rw [Ev.supersede, Ev.endTracked_none h1, Ev.endWaiting_some hw]
      exact Ev.endSlot_shows ((hg.clearWaiting hu).linked hl) hr .superseded _
  · by_cases hv : v = u
    · subst hv
      rw [hS.unit]
      simp [UnitRec.slots]
    · rw [hS.others v hv]
      exact hothers v hv

/-! ### An order that waits -/

theorem Ev.Goes.mono {K' : Nat → Prop} (h : d.Goes U K e) (hK : ∀ k, K k → K' k) : d.Goes U K' e :=
  ⟨h.others, h.course, h.counts, h.notices, h.start, h.owed, h.changed, h.faulted, fun u k hk => hK k (h.slots u k hk), h.unfinished,
    fun hw => ⟨h.wf hw, fun a ha x h15 hx => h.words hw a ha x h15 fun k hk => hx k (hK k hk)⟩⟩

theorem TakenWith.mono {W' : Nat → Prop} (h : TakenWith s t host a st x W) (hW : ∀ y, W y → W' y) : TakenWith s t host a st x W' :=
  ⟨h.status, h.detail, h.take, h.word14, fun y y1 y2 => h.others y y1 fun j => y2 (hW y j)⟩

theorem Ev.Superseding.stage (h : d.Superseding u e) (v : Vector Nat 64) : d.Superseding u (e.stage u v) := by
  refine ⟨h.machine.trans ⟨rfl, rfl, rfl, rfl, rfl, rfl, rfl, rfl, rfl⟩, fun w hw => ?_, ?_, fun k => (h.unowing k).updUnit u _ (by exact rfl),
    h.mirrorDue, h.start, h.kept⟩
  · rw [Ev.stage, Ev.updUnit_unit, if_neg hw.symm, h.others w hw]
  · rw [Ev.stage, Ev.updUnit_unit_self, h.unit]

theorem Ev.Goes.stage (h : d.Goes U K e) (hu : U u) (v : Vector Nat 64) : d.Goes U K (e.stage u v) :=
  h.updUnit u _ (fun k => absurd hu k) (fun _ => rfl) rfl

/-- An event that has superseded the unit's older order at the take of a newer one, and done no more. -/
structure Ev.Succeeds (s : State) (host : List HostWrite) (a : Anchor) (u : UnitNo) (e : Ev) : Prop where
  goes : (s.landed host).Goes (· = u) (· ∈ s.heldSlots) e
  superseding : (s.landed host).Superseding u e
  shows : ∀ o, (s.unit u).follows o → o.slot < a.ringLength → s.heldSlots.count o.slot = 1 →
    e.toState.SlotShows a o.slot .superseded (o.finalDetail (s.unit u) .none) ∧ ∀ v, o.slot ∉ (e.unit v).slots

theorem State.Due.supersede (h : s.Due host a slot) (u : UnitNo) : ((s.landed host).supersede u).Succeeds s host a u :=
  ⟨(s.landed_goes host _).supersede rfl, Ev.supersede_superseding _ u, fun _ ho hr hc =>
    Ev.supersede_shows (s.landed_goes host (· = u)) h.linked_landed rfl ho hr hc⟩

theorem Ev.Succeeds.stage (h : e.Succeeds s host a u) (v : Vector Nat 64) : (e.stage u v).Succeeds s host a u := by
  refine ⟨h.goes.stage rfl v, h.superseding.stage v, fun o ho hr hc => ?_⟩
  obtain ⟨h1, h2⟩ := h.shows o ho hr hc
  refine ⟨⟨h1.status, h1.detail⟩, fun w => ?_⟩
  rw [Ev.stage, Ev.updUnit_unit]
  split
  · next j => exact j ▸ h2 u
  · exact h2 w

/-- The order of the slot taken, as the unit's WAITING order. -/
def Slot.waitingOrder (slot : Slot) (o : OrderRecord) : WaitingOrder := { order := o, atSheet := slot.atSheet, released := false }

/-- A newer order waits for its sheet. -/
theorem State.Due.waits (h : s.Due host a slot) (hS : e.Succeeds s host a u) (kind : TrackedKind) (zones : List ZoneNo) (n : Nat) :
    let t := (e.holdBack u slot ((s.landed host).newRecord slot kind zones n)).settle.toState
    s.OrderWaits t u host a slot kind { Detail.only 0 with bandsClamped := n } ∧ (t.unit u).staged = (e.unit u).staged := by
  generalize ho : (s.landed host).newRecord slot kind zones n = o
  have hslot : o.slot = s.port.take := by rw [← ho]; rfl
  have hkind : o.kind = kind := by rw [← ho]; rfl
  have hnotify : o.notify = slot.notify := by rw [← ho]; rfl
  have hdetail : o.openDetail = { Detail.only 0 with bandsClamped := n } := by rw [← ho]; rfl
  have hg : (s.landed host).Goes (· = u) (fun k => k ∈ s.heldSlots ∨ k = s.port.take)
      (e.updUnit u fun r => { r with waiting := some (Slot.waitingOrder slot o) }) := by
    refine (hS.goes.mono fun _ => .inl).updUnit u _ (fun k => absurd rfl k) (fun _ => rfl) rfl fun k hk => ?_
    rw [UnitRec.slots] at hk
    rcases List.mem_append.1 hk with j | j
    · exact .inl (List.mem_append_left _ j)
    · simp only [Slot.waitingOrder, Option.map_some, Option.toList_some, List.mem_singleton] at j
      exact .inr (.inr (j.trans hslot))
  have hdue : (e.updUnit u fun r => { r with waiting := some (Slot.waitingOrder slot o) }).mirrorDue = [] := hS.superseding.mirrorDue
  have hU := (hS.superseding.unowing (s.landed_unowing host)).updUnit u
    (fun r => { r with waiting := some (Slot.waitingOrder slot o) }) (by exact rfl)
  have hQ := h.goes_unowing (W := fun _ => False) hg (fun _ => id) hU (fun v hv => by rw [hdue] at hv; cases hv) (fun _ j => j.elim)
    .waiting o.openDetail
  rw [hdetail] at hQ
  have hunit : ∀ v, (e.updUnit u fun r => { r with waiting := some (Slot.waitingOrder slot o) }).unit v
      = if u = v then { e.unit v with waiting := some (Slot.waitingOrder slot o) } else e.unit v := fun v => Ev.updUnit_unit _ _ _ _
  have hM := hS.superseding.machine
  have heq : (e.holdBack u slot o).settle.toState = ((e.updUnit u fun r =>
    { r with waiting := some (Slot.waitingOrder slot o) }).finish slot .waiting { Detail.only 0 with bandsClamped := n }).settle.toState := by
    rw [← hdetail]; rfl
  dsimp only
  rw [heq]
  generalize ((e.updUnit u fun r => { r with waiting := some (Slot.waitingOrder slot o) }).finish slot .waiting
    { Detail.only 0 with bandsClamped := n }).settle.toState = t at hQ ⊢
  have htu : ∀ v, t.unit v = if u = v then { e.unit v with waiting := some (Slot.waitingOrder slot o) } else e.unit v := fun v =>
    (congrArg (fun us : Vector UnitRec 16 => us[v]) hQ.blocks.units).trans (hunit v)
  have hself := htu u
  rw [if_pos rfl, hS.superseding.unit] at hself
  have hother : ∀ v, v ≠ u → t.unit v = s.unit v := fun v hv => by
    rw [htu, if_neg hv.symm, hS.superseding.others v hv]
    rfl
  refine ⟨⟨hQ.taken.mono fun _ j => j.elim id False.elim, fun p hp hr hc => ?_, by rw [hself], ⟨_, by rw [hself], hslot, hkind, hnotify, rfl, rfl⟩,
    fun v y => ?_, hother, ?_⟩, by rw [hself]⟩
  · have hheld : p.slot ∈ s.heldSlots := List.count_pos_iff.1 (by omega)
    obtain ⟨h1, _⟩ := hS.shows p hp hr hc
    exact hQ.shows _ hheld hr _ _ ⟨h1.status, h1.detail⟩
  · by_cases hv : v = u
    · subst hv
      show (t.unit v).zones[y] = (s.unit v).zones[y]
      rw [hself]
      rfl
    · exact congrArg (fun r : UnitRec => r.zones[y]) (hother v hv)
  · exact ⟨hQ.blocks.curves.trans hM.curves, hQ.blocks.lines.trans hM.lines, hQ.blocks.partGrants.trans hM.partGrants,
      hQ.blocks.pointer.trans hM.pointer, hQ.blocks.check.trans hM.check, hQ.blocks.intake.trans hM.intake,
      hQ.blocks.timing.trans hM.timing, hQ.blocks.scanPulses.trans hM.scanPulses, hQ.blocks.pending.trans hM.pending⟩

theorem Ev.startOrWait_waits (hf : slot.atSheetFlag = true) (ht : ¬0 ≤ (e.timing.counter - slot.atSheet).toInt) :
    e.startOrWait u slot o = e.holdBack u slot o := by
  have hlate : atOrAfter e.timing.counter slot.atSheet = false := decide_eq_false ht
  rw [Ev.startOrWait, if_pos]
  rw [hf, hlate]
  rfl

theorem Ev.startOrWait_starts (h : slot.atSheetFlag = true → 0 ≤ (e.timing.counter - slot.atSheet).toInt) :
    e.startOrWait u slot o = e.startNow u slot o := by
  rw [Ev.startOrWait, if_neg]
  cases hf : slot.atSheetFlag with
  | false => exact nofun
  | true =>
    have hcome : atOrAfter e.timing.counter slot.atSheet = true := decide_eq_true (h hf)
    rw [hcome]
    exact nofun

/-- Settles O24: the profile is read, and the PRESET waits in the place of the order that it supersedes. -/
theorem presetWaitsForItsSheet : Obligations.PresetWaitsForItsSheet := by
  intro host s a slot u c o h hk hu hc hp hprofile hbusy hf ht bands
  have hexec := h.taken_by (c := .preset host) (e := (s.landed host).takePreset u c slot o) (execPreset host) rfl rfl (ofKind_eq.2 hk) (by
    refine (Ev.onDefined_some (e := s.landed host) hu hc).trans ?_
    have hbusy' : (s.landed host).workBusy u = false := hbusy
    rw [hp]
    dsimp only
    rw [hprofile, hbusy']
    rfl)
  have hW := (h.supersede u).stage (stagedCoverage c o bands)
  have htake : (s.landed host).takePreset u c slot o = (((s.landed host).supersede u).stage u (stagedCoverage c o bands)).holdBack u slot
      ((s.landed host).newRecord slot (.preset o.policy) (zonesBelow c.zoneCount) (bandsClamped bands)) := by
    have hT : (((s.landed host).supersede u).stage u (stagedCoverage c o bands)).timing = s.timing := hW.superseding.machine.timing
    refine Ev.startOrWait_waits hf ?_
    show ¬0 ≤ ((((s.landed host).supersede u).stage u (stagedCoverage c o bands)).timing.counter - slot.atSheet).toInt
    rwa [hT]
  rw [htake] at hexec
  obtain ⟨h1, h2⟩ := h.waits hW (.preset o.policy) (zonesBelow c.zoneCount) (bandsClamped bands)
  refine ⟨_, hexec, h1, h2.trans ?_⟩
  rw [Ev.stage, Ev.updUnit_unit_self]

end Sys2Proof.Machine
end

