-- ==== Sys2Proof/Proofs/PowerOrders.lean ====
section
/-! PROOFS. The orders of the lines that move no zone: LINE POWER ON (R73 to R75) and CHECK LINES (R97, R98). -/

namespace Sys2Proof.Machine

open Decode

variable {d e f : Ev} {s t : State} {u v : UnitNo} {n m l : LineNo} {a : Anchor} {host : List HostWrite} {slot : Slot} {st : Status}
  {x : Detail} {W : Nat → Prop} {o : OrderRecord}

/-- An order that has changed units and lines alone, no sweep fault among them, and owes line entries alone. -/
structure Ev.LineWork (s : State) (host : List HostWrite) (e : Ev) : Prop where
  port : e.port = s.port
  mem : e.mem = Memory.hostWrites s.mem host
  arbiter : e.arbiterDue = false
  tests : e.testDue = []
  mirror : e.mirrorDue = []
  start : e.start = s.writesDone
  intake : e.intake = s.intake
  sweepFault : ∀ v, (e.unit v).sweepFault = (s.unit v).sweepFault

namespace Ev.LineWork

theorem landed (s : State) (host : List HostWrite) : (s.landed host).LineWork s host := ⟨rfl, rfl, rfl, rfl, rfl, rfl, rfl, fun _ => rfl⟩

theorem updLine (h : e.LineWork s host) (n : LineNo) (f : Line → Line) : (e.updLine n f).LineWork s host :=
  ⟨h.port, h.mem, h.arbiter, h.tests, h.mirror, h.start, h.intake, h.sweepFault⟩

theorem oweLine (h : e.LineWork s host) (n : LineNo) : (e.oweLine n).LineWork s host :=
  ⟨h.port, h.mem, h.arbiter, h.tests, h.mirror, h.start, h.intake, h.sweepFault⟩

theorem setCheck (h : e.LineWork s host) (c : Option CheckRun) : (e.setCheck c).LineWork s host :=
  ⟨h.port, h.mem, h.arbiter, h.tests, h.mirror, h.start, h.intake, h.sweepFault⟩

theorem setTracked (h : e.LineWork s host) (u : UnitNo) (o : OrderRecord) :
    (e.updUnit u fun r => { r with tracked := some o }).LineWork s host := by
  refine ⟨h.port, h.mem, h.arbiter, h.tests, h.mirror, h.start, h.intake, fun v => ?_⟩
  rw [Ev.updUnit_unit]
  split
  · exact h.sweepFault v
  · exact h.sweepFault v

theorem sameStatus (h : e.LineWork s host) : e.SameStatus :=
  ⟨by rw [h.intake, h.start]; rfl, by rw [h.port, h.start]; rfl, by rw [h.port, h.start]; rfl, fun _ => by
    rw [h.sweepFault, h.start]; rfl⟩

/-- It has acted, and writes line entries of the status area alone. -/
theorem acted (h : e.LineWork s host) (hd : s.Due host a slot) : e.Acted s host a a.inStatus :=
  hd.acted h.port h.mem h.arbiter h.tests (fun _ k => absurd (h.mirror ▸ k) List.not_mem_nil) (fun _ _ => id) fun _ => .inr

/-- It has acted, and writes nothing besides the slot. -/
theorem acted_unseen (h : e.LineWork s host) (hd : s.Due host a slot) (hl : e.lineDue = []) : e.Acted s host a fun _ => False :=
  hd.acted_unseen h.port h.mem h.arbiter h.tests h.mirror hl h.sameStatus

end Ev.LineWork

theorem State.SameOutside.of_same (hc : t.curves = s.curves) (hk : t.check = s.check) (hi : t.intake = s.intake) (ht : t.timing = s.timing)
    (hp : t.scanPulses = s.scanPulses) (hq : t.pending = s.pending) : s.SameOutside t := ⟨hc, hk, hi, ht, hp, hq⟩

theorem State.SameOutside.blocks {r : State} (h : s.SameOutside r) (k : r.SameBlocks t) : s.SameOutside t :=
  ⟨k.curves.trans h.curves, k.check.trans h.check, k.intake.trans h.intake, k.timing.trans h.timing, k.scanPulses.trans h.scanPulses,
    k.pending.trans h.pending⟩

theorem State.SameBlocks.unit (h : s.SameBlocks t) (v : UnitNo) : t.unit v = s.unit v := congrArg (fun us : Vector UnitRec 16 => us[v]) h.units

theorem State.SameBlocks.line (h : s.SameBlocks t) (n : LineNo) : t.line n = s.line n := congrArg (fun ls : Vector Line 16 => ls[n]) h.lines

theorem State.zone_of_unit (h : t.unit v = s.unit v) (y : ZoneNo) : t.zone v y = s.zone v y := congrArg (fun r : UnitRec => r.zones[y]) h

/-! ### LINE POWER -/

theorem flagOfCode_some {k : Nat} {b : Bool} (h : flagOfCode k = some b) : k = if b then 1 else 0 := by
  unfold flagOfCode at h
  split at h <;> cases h <;> rfl

theorem settingOperand_some {b : Bool} (h : settingOperand slot = some b) : wholeWord slot 3 = if b then 1 else 0 := by
  unfold settingOperand at h
  split at h
  · cases h
  · exact flagOfCode_some h

theorem Ev.linePower_setting {on : Bool} (hu : slot.unit? = some n) (hs : settingOperand slot = some on) :
    e.linePower slot = match e.linePowerRefusal n on with
      | some r => e.refuse slot r
      | none => if on then e.powerOn n slot else e.powerOff n slot := by
  cases hr : e.linePowerRefusal n on <;> simp only [Ev.linePower, Ev.onUnit_some hu, hs, hr]

/-- The row of a LINE POWER ON. -/
theorem State.Due.linePowerOn (h : s.Due host a slot) (hk : slot.kind = some .linePower) (hu : slot.unit? = some n)
    (hs : settingOperand slot = some true) : (∀ r, s.linePowerRefusal n true = some r → RefusedWith s (.linePowerOn host) host a r)
      ∧ (s.linePowerRefusal n true = none → exec (.linePowerOn host) s = .next ((s.landed host).powerOn n slot).settle.toState) := by
  have happ : (ofKind .linePower slot && wholeWord slot 3 != 0) = true := by
    rw [settingOperand_some hs, ofKind_eq.2 hk]
    rfl
  have hrow := Ev.linePower_setting (e := s.landed host) hu hs
  have hsame : (s.landed host).linePowerRefusal n true = s.linePowerRefusal n true := rfl
  rw [hsame] at hrow
  refine ⟨fun r hr => h.refused (execLinePowerOn host) rfl rfl happ ?_, fun hr => h.taken_by (execLinePowerOn host) rfl rfl happ ?_⟩
  · rw [hr] at hrow
    exact hrow
  · rw [hr] at hrow
    exact hrow

/-- The row of a LINE POWER OFF. -/
theorem State.Due.linePowerOff (h : s.Due host a slot) (hk : slot.kind = some .linePower) (hu : slot.unit? = some n)
    (hs : settingOperand slot = some false) : (∀ r, s.linePowerRefusal n false = some r → RefusedWith s (.linePowerOff host) host a r)
      ∧ (s.linePowerRefusal n false = none → exec (.linePowerOff host) s = .next ((s.landed host).powerOff n slot).settle.toState) := by
  have happ : (ofKind .linePower slot && wholeWord slot 3 != 1) = true := by
    rw [settingOperand_some hs, ofKind_eq.2 hk]
    rfl
  have hrow := Ev.linePower_setting (e := s.landed host) hu hs
  have hsame : (s.landed host).linePowerRefusal n false = s.linePowerRefusal n false := rfl
  rw [hsame] at hrow
  refine ⟨fun r hr => h.refused (execLinePowerOff host) rfl rfl happ ?_, fun hr => h.taken_by (execLinePowerOff host) rfl rfl happ ?_⟩
  · rw [hr] at hrow
    exact hrow
  · rw [hr] at hrow
    exact hrow

/-- What a unit's record and its line have come to when the unit follows a new order, every other unit and line as it was. -/
structure State.FollowsAlone (s t : State) (n : LineNo) (g : Line → Line) (o : OrderRecord) : Prop where
  line : t.line n = g (s.line n)
  unit : t.unit n = { s.unit n with tracked := some o }
  others : ∀ m, m ≠ n → t.line m = s.line m ∧ t.unit m = s.unit m
  outside : s.SameOutside t

theorem State.FollowsAlone.blocks {r : State} {g : Line → Line} (h : s.FollowsAlone r n g o) (k : r.SameBlocks t) : s.FollowsAlone t n g o :=
  ⟨(k.line n).trans h.line, (k.unit n).trans h.unit, fun m hm => ⟨(k.line m).trans (h.others m hm).1, (k.unit m).trans (h.others m hm).2⟩,
    h.outside.blocks k⟩

theorem State.FollowsAlone.zone {g : Line → Line} (h : s.FollowsAlone t n g o) (v : UnitNo) (y : ZoneNo) : t.zone v y = s.zone v y := by
  by_cases hv : v = n
  · subst hv
    show (t.unit v).zones[y] = (s.unit v).zones[y]
    rw [h.unit]
  · exact State.zone_of_unit (h.others v hv).2 y

theorem State.FollowsAlone.settings {g : Line → Line} (h : s.FollowsAlone t n g o) (v : UnitNo) : (s.unit v).SameSettings (t.unit v) := by
  by_cases hv : v = n
  · subst hv
    rw [h.unit]
    exact ⟨rfl, rfl, rfl, rfl, rfl, rfl, rfl⟩
  · rw [(h.others v hv).2]
    exact .refl _

theorem Ev.followsAlone (s : State) (g : Line → Line) (e' : Ev) (hunits : e'.units = s.units) (hlines : e'.lines = s.lines) (hout : s.SameOutside e'.toState)
    (o : OrderRecord) : s.FollowsAlone ((e'.updLine n g).updUnit n fun r => { r with tracked := some o }).toState n g o := by
  have hl : ∀ m, e'.line m = s.line m := fun m => by rw [State.line, hlines]; rfl
  have hu : ∀ m, e'.unit m = s.unit m := fun m => by rw [State.unit, hunits]; rfl
  refine ⟨?_, ?_, fun m hm => ⟨?_, ?_⟩, ⟨hout.curves, hout.check, hout.intake, hout.timing, hout.scanPulses, hout.pending⟩⟩
  · exact (Ev.updLine_line_self e' n g).trans (by rw [hl])
  · exact (Ev.updUnit_unit_self (e'.updLine n g) n _).trans (by rw [show (e'.updLine n g).unit n = e'.unit n from rfl, hu])
  · exact (Ev.updLine_line e' n m g).trans (by rw [if_neg hm.symm, hl])
  · exact (Ev.updUnit_unit (e'.updLine n g) n m _).trans (by rw [if_neg hm.symm]; exact hu m)

/-- Settles O29: by the power state of the line. -/
theorem linePowerOnEnergizes : Obligations.LinePowerOnEnergizes := by
  intro host s a slot n h hk hu hs
  obtain ⟨h1, h2⟩ := h.linePowerOn hk hu hs
  refine ⟨h1, fun hr => ⟨_, h2 hr, ?_⟩⟩
  obtain ⟨o, ho⟩ : ∃ o, (s.landed host).newRecord slot (.linePower true) [] 0 = o := ⟨_, rfl⟩
  have hslot : o.slot = s.port.take := by rw [← ho]; rfl
  have hkind : o.kind = .linePower true := by rw [← ho]; rfl
  have hdetail : o.openDetail = Detail.only 0 := by rw [← ho]; rfl
  have hland := Ev.LineWork.landed s host
  have hout : s.SameOutside (s.landed host).toState := ⟨rfl, rfl, rfl, rfl, rfl, rfl⟩
  have hline : (s.landed host).line n = s.line n := rfl
  have hfollow : ∀ {g : Line → Line} {t : State}, s.FollowsAlone t n g o →
      (∀ m, m ≠ n → t.line m = s.line m ∧ t.unit m = s.unit m) ∧ (∀ v z, t.zone v z = s.zone v z)
        ∧ (∀ v, (s.unit v).SameSettings (t.unit v)) ∧ s.SameOutside t := fun k => ⟨k.others, k.zone, k.settings, k.outside⟩
  have henergize : ((s.landed host).powerOn n slot = (((s.landed host).updLine n Line.energize).oweLine n).track n slot o) →
      ∃ t, ((s.landed host).powerOn n slot).settle.toState = t ∧ TakenWith s t host a .accepted (Detail.only 0) a.inStatus
        ∧ s.FollowsAlone t n Line.energize o ∧ s.port.Kept t.port := fun hpow => by
    have hF := h.finished (((hland.updLine n Line.energize).oweLine n).setTracked n o |>.acted h) .accepted o.openDetail
    rw [hdetail] at hF
    have hFollows := Ev.followsAlone (n := n) s Line.energize (s.landed host) rfl rfl hout o
    refine ⟨_, rfl, ?_⟩
    rw [hpow, Ev.track, hdetail]
    exact ⟨hF.taken, State.FollowsAlone.blocks (r := (((s.landed host).updLine n Line.energize).updUnit n fun r =>
      { r with tracked := some o }).toState) hFollows hF.blocks, hF.port⟩
  cases hp : (s.line n).power with
  | off | tripped =>
    have hpow : (s.landed host).powerOn n slot = (((s.landed host).updLine n Line.energize).oweLine n).track n slot o := by
      rw [Ev.powerOn, hline, hp, ho]
    obtain ⟨t, ht, htaken, hA, hport⟩ := henergize hpow
    rw [ht]
    obtain ⟨k1, k2, k3, k4⟩ := hfollow hA
    have hl := hA.line
    refine ⟨⟨htaken, by rw [hl]; rfl, by rw [hl]; rfl, by rw [hl]; rfl, by rw [hl]; rfl, by rw [hl]; rfl, fun z => ?_, by rw [hl]; rfl, o,
      by rw [hA.unit], hslot, hkind⟩, k1, k2, k3, k4, hport⟩
    rw [hl]
    simp [Line.energize, TagPair.reset]
  | starting =>
    have hpow : (s.landed host).powerOn n slot = (s.landed host).track n slot o := by
      rw [Ev.powerOn, hline, hp, ho]
    have hF := h.finished ((hland.setTracked n o).acted_unseen h rfl) .accepted o.openDetail
    rw [hdetail] at hF
    have hFollows : s.FollowsAlone ((s.landed host).updUnit n fun r => { r with tracked := some o }).toState n id o := by
      have hsame : (s.landed host).updLine n id = s.landed host := by simp [Ev.updLine]
      have k := Ev.followsAlone (n := n) s id (s.landed host) rfl rfl hout o
      rwa [hsame] at k
    rw [hpow, Ev.track, hdetail]
    have hA := hFollows.blocks hF.blocks
    obtain ⟨k1, k2, k3, k4⟩ := hfollow hA
    exact ⟨⟨hF.taken, hF.blocks.lines, o, by rw [hA.unit], hslot, hkind⟩, k1, k2, k3, k4, hF.port⟩
  | on | check =>
    have hpow : (s.landed host).powerOn n slot = (s.landed host).done slot := by
      rw [Ev.powerOn, hline, hp]
    have hF := h.finished h.landed_acted .done (Detail.only 0)
    have hB := hF.blocks.of_landed
    rw [hpow]
    exact ⟨⟨hF.taken, hB⟩, fun m _ => ⟨hB.line m, hB.unit m⟩, fun v z => State.zone_of_unit (hB.unit v) z,
      fun v => hB.unit v ▸ .refl _, hout.blocks hF.blocks, hF.port⟩

/-! ### CHECK LINES -/

/-- A line's check result becomes NOT CHECKED (R97, R98). -/
def Line.cleared (l : Line) : Line := { l with checkResult := .notChecked }

/-- A line enters CHECK (R98). -/
def Line.checking (l : Line) : Line :=
  { l with power := .check, modules := Vector.ofFn fun k : Fin 9 => { l.modules[k] with lastOutcome := .lineNotOn } }

theorem Ev.clearResults_line (m n l : LineNo) :
    (e.clearResults m n).line l = if l = m ∨ l = n then (e.line l).cleared else e.line l := by
  have h : (e.clearResults m n).line l = ((e.updLine m Line.cleared).updLine n Line.cleared).line l := rfl
  rw [h, Ev.updLine_line, Ev.updLine_line]
  by_cases h1 : l = m
  · subst h1
    by_cases h2 : n = l <;> simp [h2, Line.cleared]
  · by_cases h2 : n = l
    · simp [h2, Ne.symm h1]
    · simp [h1, h2, Ne.symm h1, Ne.symm h2]

theorem Ev.enterCheck_line (n l : LineNo) : (e.enterCheck n).line l = if n = l then (e.line l).checking else e.line l := by
  rw [Ev.enterCheck, Ev.updModules, Ev.updLine_line, Ev.updLine_line]
  split
  · rfl
  · rfl

theorem Ev.LineWork.clearResults (h : e.LineWork s host) (m n : LineNo) : (e.clearResults m n).LineWork s host :=
  (((h.updLine m Line.cleared).oweLine m).updLine n Line.cleared).oweLine n

theorem Ev.LineWork.enterCheck (h : e.LineWork s host) (n : LineNo) : (e.enterCheck n).LineWork s host := by
  unfold Ev.enterCheck Ev.updModules
  exact (h.updLine n _).updLine n _

/-- The event of a CHECK LINES that is taken, before the end of its take. -/
def Ev.checkStarted (e : Ev) (m n : LineNo) (o : OrderRecord) : Ev :=
  (((((e.clearResults m n).enterCheck m).enterCheck n).setCheck (some (newCheck m n e.port.take))).updUnit m fun r =>
    { r with tracked := some o }).updUnit n fun r => { r with tracked := some o }

theorem Ev.checkStarted_work (h : e.LineWork s host) (m n : LineNo) (o : OrderRecord) : (e.checkStarted m n o).LineWork s host :=
  (((((h.clearResults m n).enterCheck m).enterCheck n).setCheck _).setTracked m o).setTracked n o

theorem Ev.checkStarted_line (m n : LineNo) (o : OrderRecord) (h : m ≠ n) (l : LineNo) :
    (e.checkStarted m n o).line l = if l = m ∨ l = n then (e.line l).cleared.checking else e.line l := by
  have h1 : (e.checkStarted m n o).line l = (((e.clearResults m n).enterCheck m).enterCheck n).line l := rfl
  rw [h1, Ev.enterCheck_line, Ev.enterCheck_line, Ev.clearResults_line]
  rcases eq_or_ne l m with rfl | hm
  · simp [h.symm]
  · rcases eq_or_ne l n with rfl | hn
    · simp [hm.symm]
    · simp [hm, hn, hm.symm, hn.symm]

theorem Ev.checkStarted_unit (m n : LineNo) (o : OrderRecord) (u : UnitNo) :
    (e.checkStarted m n o).unit u = if u = m ∨ u = n then { e.unit u with tracked := some o } else e.unit u := by
  rw [Ev.checkStarted, Ev.updUnit_unit, Ev.updUnit_unit]
  have h1 : ((((e.clearResults m n).enterCheck m).enterCheck n).setCheck (some (newCheck m n e.port.take))).unit u = e.unit u := rfl
  rw [h1]
  rcases eq_or_ne u m with rfl | hm
  · by_cases hn : n = u <;> simp [hn]
  · rcases eq_or_ne u n with rfl | hn
    · simp [hm.symm]
    · simp [hm, hn, hm.symm, hn.symm]

theorem Ev.checkStarted_rest (m n : LineNo) (o : OrderRecord) : (e.checkStarted m n o).check = some (newCheck m n e.port.take)
    ∧ (e.checkStarted m n o).curves = e.curves ∧ (e.checkStarted m n o).intake = e.intake ∧ (e.checkStarted m n o).timing = e.timing
    ∧ (e.checkStarted m n o).scanPulses = e.scanPulses ∧ (e.checkStarted m n o).pending = e.pending := by
  unfold Ev.checkStarted
  refine ⟨rfl, rfl, rfl, rfl, ?_, rfl⟩
  unfold Ev.enterCheck Ev.clearResults
  dsimp only [Ev.updUnit, Ev.setCheck, Ev.updModules, Ev.updLine, Ev.oweLine]

/-- Settles O31: the row looks at its arguments and at the two lines, and puts both in CHECK or clears both results. -/
theorem checkLinesStartsInDrain : Obligations.CheckLinesStartsInDrain := by
  intro host s a slot m n h hk hm hn
  have happ := ofKind_eq.2 hk
  have hland := Ev.LineWork.landed s host
  have hrefusal : (s.landed host).checkRefusal m n = s.checkRefusal m n := rfl
  refine ⟨fun hbad => ?_, fun hne hflag => ⟨fun r hr hnot => ?_, fun hr => ?_, fun hr => ?_⟩⟩
  · refine h.refused (execCheckLines host) rfl rfl happ ?_
    rw [hm, hn]
    dsimp only
    rw [if_pos hbad]
  · refine h.refused (execCheckLines host) rfl rfl happ ?_
    rw [hm, hn]
    dsimp only
    rw [if_neg (by simp [hne, hflag]), hrefusal, hr]
    cases r with
    | lineNotOff => exact absurd rfl hnot
    | _ => rfl
  · have hexec := h.taken_by (c := .checkLines host) (e := ((s.landed host).clearResults m n).refuse slot .lineNotOff)
      (execCheckLines host) rfl rfl happ (by
        rw [hm, hn]
        dsimp only
        rw [if_neg (by simp [hne, hflag]), hrefusal, hr])
    have hdetail : ((s.landed host).clearResults m n).refusalDetail slot .lineNotOff = Detail.only Reason.lineNotOff.code := by
      simp [State.refusalDetail, hm, workZones, hk]
    rw [Ev.refuse, hdetail] at hexec
    have hF := h.finished ((hland.clearResults m n).acted h) .refused (Detail.only Reason.lineNotOff.code)
    refine ⟨_, hexec, hF.taken, fun l => ?_, hF.blocks.units, ?_⟩
    · rw [hF.blocks.line, Ev.clearResults_line]
      rfl
    · exact State.SameOutside.blocks (r := ((s.landed host).clearResults m n).toState) ⟨rfl, rfl, rfl, rfl, rfl, rfl⟩ hF.blocks
  · obtain ⟨o, ho⟩ : ∃ o, (s.landed host).newRecord slot (.checkLines m n) [] 0 = o := ⟨_, rfl⟩
    have hslot : o.slot = s.port.take := by rw [← ho]; rfl
    have hkind : o.kind = .checkLines m n := by rw [← ho]; rfl
    have hdetail : o.openDetail = Detail.only 0 := by rw [← ho]; rfl
    have hexec := h.taken_by (c := .checkLines host) (e := ((s.landed host).checkStarted m n o).finish slot .accepted o.openDetail)
      (execCheckLines host) rfl rfl happ (by
        rw [hm, hn]
        dsimp only
        rw [if_neg (by simp [hne, hflag]), hrefusal, hr, ← ho]
        rfl)
    rw [hdetail] at hexec
    have hF := h.finished (((s.landed host).checkStarted_work hland m n o).acted h) .accepted (Detail.only 0)
    have hsteps : ∀ l, ((s.landed host).checkStarted m n o).line l = if l = m ∨ l = n then (s.line l).cleared.checking else s.line l :=
      Ev.checkStarted_line m n o hne
    have hrecords : ∀ u, ((s.landed host).checkStarted m n o).unit u = if u = m ∨ u = n then { s.unit u with tracked := some o } else s.unit u :=
      Ev.checkStarted_unit m n o
    have hrest : ((s.landed host).checkStarted m n o).check = some (newCheck m n s.port.take)
        ∧ ((s.landed host).checkStarted m n o).curves = s.curves ∧ ((s.landed host).checkStarted m n o).intake = s.intake
        ∧ ((s.landed host).checkStarted m n o).timing = s.timing ∧ ((s.landed host).checkStarted m n o).scanPulses = s.scanPulses
        ∧ ((s.landed host).checkStarted m n o).pending = s.pending := Ev.checkStarted_rest (e := s.landed host) m n o
    generalize (s.landed host).checkStarted m n o = e at hexec hF hsteps hrecords hrest
    obtain ⟨k1, k2, k3, k4, k5, k6⟩ := hrest
    refine ⟨_, hexec, ?_⟩
    generalize (e.finish slot .accepted (Detail.only 0)).settle.toState = t at hF ⊢
    have hline := fun l => (hF.blocks.line l).trans (hsteps l)
    have hunit := fun l => (hF.blocks.unit l).trans (hrecords l)
    refine ⟨hF.taken, hF.blocks.check.trans k1, fun l hl => ?_, fun l h1 h2 => ⟨?_, ?_⟩, fun v z => ?_, hF.blocks.curves.trans k2,
      hF.blocks.intake.trans k3, hF.blocks.timing.trans k4, hF.blocks.scanPulses.trans k5, hF.blocks.pending.trans k6⟩
    · have h1 := hline l
      have h2 := hunit l
      rw [if_pos hl] at h1 h2
      refine ⟨by rw [h1]; rfl, by rw [h1]; rfl, by rw [h1]; rfl, by rw [h1]; rfl, fun k => ?_, o, by rw [h2], hslot, hkind⟩
      rw [h1]
      exact ⟨by simp [Line.checking], by simp [Line.checking, Line.cleared]⟩
    · exact (hline l).trans (if_neg (by simp [h1, h2]))
    · exact (hunit l).trans (if_neg (by simp [h1, h2]))
    · have h1 := hunit v
      show (t.unit v).zones[z] = (s.unit v).zones[z]
      rw [h1]
      split <;> rfl

end Sys2Proof.Machine
end

