-- ==== Sys2Proof/Proofs/Events.lean ====
section
/-! PROOFS. A command that is an event of the part, from the host's writes that land with it to the writes at its end: what it reports, and
the slots it leaves. -/

namespace Sys2Proof.Machine

variable {U : UnitNo → Prop} {K : Nat → Prop} {d e f : Ev} {s t : State} {u v : UnitNo} {a : Anchor} {host : List HostWrite} {st : Status}
  {x : Detail} {k : Nat}

/-- An event runs in a part whose regions have memory. -/
theorem act_landed (h : s.regionsInMemory = true) (f : Ev → Ev) : act s f = .next (f (s.landed [])).settle.toState :=
  act_of_regionsInMemory h f

theorem State.Linked.landed (h : s.Linked a) (host : List HostWrite) : (s.landed host).toState.Linked a :=
  ⟨h.attached, h.anchor, h.inMemory, h.disjoint, Memory.hostWrites_wf _ _ h.wf⟩

/-- What the end of an event reports. -/
theorem Ev.Goes.settled (h : (s.landed host).Goes U K e) : State.Reported U s e.settle.toState := by
  have hg := h.settleArbiter.runTests
  exact (hg.came.reported fun hw => hg.wf hw).of_landed

/-- The blocks an event owes are written at its end. -/
theorem Ev.Goes.settled_mirror (h : (s.landed host).Goes U K e) (hl : s.Linked a) (hu : u ∈ e.mirrorDue) :
    s.MirrorWritten e.settle.toState a u := by
  have hg := h.settleArbiter.runTests
  have hmore : e.Goes U K e.settleArbiter.runTests := h.here.settleArbiter.runTests
  exact (hg.came.written (hl.landed host) (hg.wf (hl.landed host).wf) (hmore.owed hu)).of_landed

/-- The end of an event leaves a slot in which no order stands. -/
theorem Ev.settle_shows (hl : e.toState.Linked a) (hk : k < a.ringLength) (hfree : ∀ v, k ∉ (e.unit v).slots)
    (hs : e.toState.SlotShows a k st x) : e.settle.toState.SlotShows a k st x := by
  have hg : e.Goes (fun _ => True) (· ≠ k) e.settleArbiter.runTests := by
    refine .runTests (.settleArbiter (.refl fun v j hj => ?_))
    rintro rfl
    exact hfree v hj
  exact Ev.flush_shows (hg.linked hl) hk (hg.shows hl hk (fun j => j rfl) hs)

/-- The end of an event that owes neither an arbiter run nor a completion test. -/
theorem Ev.settle_still (hd : e.arbiterDue = false) (ht : e.testDue = []) : e.Wrote e.settle fun _ => True :=
  Ev.settle_wrote hd ht (fun _ _ _ _ _ _ => trivial) fun _ _ _ _ _ => trivial

theorem Ev.settle_eq_flush (hd : e.arbiterDue = false) (ht : e.testDue = []) : e.settle = ({ e with testDue := [] } : Ev).flush := by
  have h1 : e.settleArbiter = e := by simp [Ev.settleArbiter, hd]
  have h2 : e.runTests = { e with testDue := [] } := by simp [Ev.runTests, ht, inOrder]
  unfold Ev.settle
  rw [h1, h2]

/-- It leaves every slot. -/
theorem Ev.settle_still_shows (hd : e.arbiterDue = false) (ht : e.testDue = []) (hl : e.toState.Linked a) (hk : k < a.ringLength)
    (hs : e.toState.SlotShows a k st x) : e.settle.toState.SlotShows a k st x := by
  rw [Ev.settle_eq_flush hd ht]
  exact Ev.flush_shows (e := { e with testDue := [] }) ⟨hl.attached, hl.anchor, hl.inMemory, hl.disjoint, hl.wf⟩ hk ⟨hs.status, hs.detail⟩

theorem Ev.Wrote.noticePending {W : Nat → Prop} (h : d.Wrote e W) (n : Notice) : e.noticePending n = d.noticePending n := by
  unfold State.noticePending
  rw [h.port]

end Sys2Proof.Machine
end

