-- ==== Sys2Proof/Proofs/CheckPhases.lean ====
section
/-! PROOFS. The phases of a line check (R99 to R103): a phase that another follows changes the check alone; the last one ends it. -/

namespace Sys2Proof.Machine

variable {d e : Ev} {s t : State} {u v : UnitNo} {a : Anchor} {c : CheckRun} {o : OrderRecord} {n l : LineNo}

/-! ### The order of a check that ends -/

/-- The status a check completes with (R103). -/
def CheckRun.doneStatus (c : CheckRun) : Status :=
  if linesFailed (resultOf c.findingA) (resultOf c.findingB) = 0 then .done else .doneWithFaults

/-- Its detail: how many lines have failed (R103). -/
def CheckRun.doneDetail (c : CheckRun) : Detail :=
  { Detail.only 0 with linesFailed := linesFailed (resultOf c.findingA) (resultOf c.findingB) }

theorem Ev.completeCheck_some (hp : c.phase ≠ .abortDrain) (ho : (e.unit c.lineA).tracked = some o) :
    e.completeCheck c = ((e.clearTracked c.lineA).clearTracked c.lineB).endSlot o c.doneStatus c.doneDetail := by
  rw [Ev.completeCheck, if_neg hp, Ev.endCheckOrder, ho]
  rfl

/-- The check's order has left the records of its units, if it stood there, and nothing else has changed. -/
structure Ev.CheckDone (c : CheckRun) (d e : Ev) : Prop where
  machine : d.toState.SameMachine e.toState
  unit : ∀ v, e.unit v = d.unit v ∨ e.unit v = { d.unit v with tracked := none }
  arbiter : e.arbiterDue = d.arbiterDue
  tests : e.testDue = d.testDue
  ended : c.phase ≠ .abortDrain → ∀ o, (d.unit c.lineA).tracked = some o →
    (e.unit c.lineA).tracked = none ∧ (e.unit c.lineB).tracked = none
      ∧ ∀ a, d.toState.Linked a → o.slot < a.ringLength → e.toState.SlotShows a o.slot c.doneStatus c.doneDetail ∧ e.toState.Linked a

theorem Ev.completeCheck_done (e : Ev) (c : CheckRun) : e.CheckDone c (e.completeCheck c) := by
  by_cases hp : c.phase = .abortDrain
  · rw [Ev.completeCheck, if_pos hp]
    exact ⟨⟨rfl, rfl, rfl, rfl, rfl, rfl, rfl, rfl, rfl⟩, fun _ => .inl rfl, rfl, rfl, fun k => absurd hp k⟩
  · cases ho : (e.unit c.lineA).tracked with
    | none =>
      rw [Ev.completeCheck, if_neg hp, Ev.endCheckOrder, ho]
      exact ⟨⟨rfl, rfl, rfl, rfl, rfl, rfl, rfl, rfl, rfl⟩, fun _ => .inl rfl, rfl, rfl, fun _ o k => by rw [ho] at k; cases k⟩
    | some o =>
      rw [Ev.completeCheck_some hp ho]
      have hE := Ev.endSlot_ended ((e.clearTracked c.lineA).clearTracked c.lineB) o c.doneStatus c.doneDetail
      have hM : e.toState.SameMachine ((e.clearTracked c.lineA).clearTracked c.lineB).toState := ⟨rfl, rfl, rfl, rfl, rfl, rfl, rfl, rfl, rfl⟩
      have hunit : ∀ v, ((e.clearTracked c.lineA).clearTracked c.lineB).unit v
          = if v = c.lineA ∨ v = c.lineB then { e.unit v with tracked := none } else e.unit v := fun v => by
        rw [Ev.clearTracked, Ev.updUnit_unit, Ev.clearTracked, Ev.updUnit_unit]
        by_cases h1 : c.lineA = v <;> by_cases h2 : c.lineB = v <;> simp [h1, h2, eq_comm (a := v)]
      refine ⟨hM.trans hE.machine, fun v => ?_, hE.arbiterDue, hE.testDue, fun _ o' ho' => ⟨?_, ?_, fun a hl hr => ?_⟩⟩
      · rw [hE.unit, hunit]
        split
        · exact .inr rfl
        · exact .inl rfl
      · rw [hE.unit, hunit, if_pos (.inl rfl)]
      · rw [hE.unit, hunit, if_pos (.inr rfl)]
      · obtain rfl : o = o' := Option.some.inj (ho.symm.trans ho')
        have hg : e.Goes (fun _ => True) (fun _ => True) ((e.clearTracked c.lineA).clearTracked c.lineB) :=
          ((Ev.Goes.refl fun _ _ _ => trivial).clearTracked _).clearTracked _
        exact ⟨Ev.endSlot_shows (hg.linked hl) hr _ _, (hg.endSlot trivial _ _).linked hl⟩

/-! ### The lines of a check that ends -/

/-- A line as its check leaves it (R103). -/
def Line.checked (l : Line) (r : CheckResult) : Line := { l with power := .off, stopTaken := false, checkResult := r }

theorem Ev.endCheck_line (e : Ev) (c : CheckRun) (h : c.lineA ≠ c.lineB) : (e.endCheck c).line c.lineA = (e.line c.lineA).checked (resultOf c.findingA)
    ∧ (e.endCheck c).line c.lineB = (e.line c.lineB).checked (resultOf c.findingB)
    ∧ ∀ l, l ≠ c.lineA → l ≠ c.lineB → (e.endCheck c).line l = e.line l := by
  have hline : ∀ l, (e.endCheck c).line l = ((e.updLine c.lineA fun l => l.checked (resultOf c.findingA)).updLine c.lineB fun l =>
    l.checked (resultOf c.findingB)).line l := fun _ => rfl
  refine ⟨?_, ?_, fun l hA hB => ?_⟩
  · rw [hline, Ev.updLine_line, if_neg h.symm, Ev.updLine_line, if_pos rfl]
  · rw [hline, Ev.updLine_line, if_pos rfl, Ev.updLine_line, if_neg h]
  · rw [hline, Ev.updLine_line, if_neg hB.symm, Ev.updLine_line, if_neg hA.symm]

/-- What the end of a check leaves. -/
structure State.CheckEnded (s t : State) (c : CheckRun) : Prop where
  check : t.check = none
  lineA : t.line c.lineA = (s.line c.lineA).checked (resultOf c.findingA)
  lineB : t.line c.lineB = (s.line c.lineB).checked (resultOf c.findingB)
  others : ∀ l, l ≠ c.lineA → l ≠ c.lineB → t.line l = s.line l
  unit : ∀ v, t.unit v = s.unit v ∨ t.unit v = { s.unit v with tracked := none }
  raised : t.noticePending .lineEvent = true
  ended : c.phase ≠ .abortDrain → ∀ o, (s.unit c.lineA).tracked = some o → (t.unit c.lineA).tracked = none ∧ (t.unit c.lineB).tracked = none
    ∧ ∀ a, s.Linked a → o.slot < a.ringLength → t.SlotShows a o.slot c.doneStatus c.doneDetail
  outside : t.curves = s.curves ∧ t.intake = s.intake ∧ t.timing = s.timing ∧ t.pending = s.pending

theorem Ev.checkEnds (s : State) (c : CheckRun) (h : c.lineA ≠ c.lineB) :
    s.CheckEnded (((s.landed []).completeCheck c).endCheck c).settle.toState c := by
  have hD := (s.landed []).completeCheck_done c
  generalize (s.landed []).completeCheck c = d at hD ⊢
  obtain ⟨hA, hB, hothers⟩ := d.endCheck_line c h
  have hd : (d.endCheck c).arbiterDue = false := hD.arbiter
  have ht : (d.endCheck c).testDue = [] := hD.tests
  have hunit : ∀ v, (d.endCheck c).unit v = d.unit v := fun _ => rfl
  have hraise : (d.endCheck c).noticePending .lineEvent = true := by
    rw [Ev.endCheck, Ev.noticePending_raise]
    simp
  have hrest : (d.endCheck c).check = none ∧ (d.endCheck c).curves = d.curves ∧ (d.endCheck c).intake = d.intake
      ∧ (d.endCheck c).timing = d.timing ∧ (d.endCheck c).pending = d.pending := ⟨rfl, rfl, rfl, rfl, rfl⟩
  have hlinked : ∀ a, d.toState.Linked a → (d.endCheck c).toState.Linked a := fun a hl =>
    ⟨hl.attached, hl.anchor, hl.inMemory, hl.disjoint, hl.wf⟩
  have hshow : ∀ {a k st x}, d.toState.SlotShows a k st x → (d.endCheck c).toState.SlotShows a k st x := fun hs => ⟨hs.status, hs.detail⟩
  generalize d.endCheck c = e at *
  have hW := Ev.settle_still hd ht
  have hline : ∀ l, e.settle.line l = e.line l := fun l => congrArg (fun ls : Vector Line 16 => ls[l]) hW.lines
  have hu : ∀ v, e.settle.unit v = d.unit v := fun v => (congrArg (fun us : Vector UnitRec 16 => us[v]) hW.units).trans (hunit v)
  have hsame : ∀ l, d.line l = s.line l := fun l => congrArg (fun ls : Vector Line 16 => ls[l]) hD.machine.lines
  obtain ⟨r1, r2, r3, r4, r5⟩ := hrest
  refine ⟨hW.check.trans r1, ?_, ?_, fun l h1 h2 => ?_, fun v => ?_, (hW.noticePending _).trans hraise, fun hp o ho => ?_,
    (hW.curves.trans r2).trans hD.machine.curves, (hW.intake.trans r3).trans hD.machine.intake,
    (hW.timing.trans r4).trans hD.machine.timing, (hW.pending.trans r5).trans hD.machine.pending⟩
  · rw [hline, hA, hsame]
  · rw [hline, hB, hsame]
  · rw [hline, hothers l h1 h2, hsame]
  · rw [hu]
    exact hD.unit v
  · obtain ⟨k1, k2, k3⟩ := hD.ended hp o ho
    refine ⟨by rw [hu, k1], by rw [hu, k2], fun a hl hr => ?_⟩
    obtain ⟨j1, j2⟩ := k3 a (hl.landed []) hr
    exact Ev.settle_still_shows hd ht (hlinked a j2) hr (hshow j1)

/-! ### The phases -/

/-- The expiry of a phase that another follows. -/
theorem checkPhase_continues (h : s.regionsInMemory = true) (hc : s.check = some c) {x y : Bool} {c1 c2 : CheckRun}
    (hn : c.next x y = (c1, some c2)) : ∃ k, exec (.checkPhaseExpiry x y) s = .next { s.writesDone with check := some c2, freeDraws := k } := by
  refine act_idle (f := fun e => e.checkPhaseExpiry x y) (e := (Ev.ofState s.writesDone).setCheck (some c2)) h ?_
    ⟨rfl, rfl, rfl, rfl, rfl, rfl, rfl, fun _ => rfl⟩
  have hc' : (Ev.ofState s.writesDone).check = some c := hc
  rw [Ev.checkPhaseExpiry, hc']
  dsimp only
  rw [hn]

/-- The expiry of a phase that is the check's last. -/
theorem checkPhase_ends (h : s.regionsInMemory = true) (hc : s.check = some c) {x y : Bool} {c1 : CheckRun} (hn : c.next x y = (c1, none))
    (hAB : c1.lineA ≠ c1.lineB) : ∃ t, exec (.checkPhaseExpiry x y) s = .next t ∧ s.CheckEnded t c1 := by
  refine ⟨_, act_landed h fun e => e.checkPhaseExpiry x y, ?_⟩
  have hc' : (s.landed []).check = some c := hc
  have he : (s.landed []).checkPhaseExpiry x y = ((s.landed []).completeCheck c1).endCheck c1 := by
    rw [Ev.checkPhaseExpiry, hc']
    dsimp only
    rw [hn]
  rw [he]
  exact Ev.checkEnds s c1 hAB

section
variable {x y : Bool}

theorem CheckRun.next_lines (c : CheckRun) (x y : Bool) : (c.next x y).1.lineA = c.lineA ∧ (c.next x y).1.lineB = c.lineB := by
  unfold CheckRun.next
  cases c.phase <;> exact ⟨rfl, rfl⟩

theorem CheckRun.next_drain_energizeA (hp : c.phase = .drain) (hA : c.findingA = none) (hB : c.findingB = none) :
    (c.next true y).2 = some { c with phase := .energizeA, timer := some 50, findingB := if y then none else some .shortToSupply } := by
  have h1 : (c.drainTests true y).findingA = none := hA
  simp only [CheckRun.next, hp, h1, reduceCtorEq, if_false]
  cases y <;> simp [CheckRun.enter, CheckRun.drainTests, CheckPhase.duration, orFinding, hB]

theorem CheckRun.next_drain_energizeB (hp : c.phase = .drain) (hA : c.findingA = none) (hB : c.findingB = none) :
    (c.next false true).2 = some { c with phase := .energizeB, timer := some 50, findingA := some .shortToSupply } := by
  have h1 : (c.drainTests false true).findingA = some .shortToSupply := by simp [CheckRun.drainTests, orFinding, hA]
  have h2 : (c.drainTests false true).skipsB = false := by simp [CheckRun.skipsB, CheckRun.drainTests, hB]
  simp only [CheckRun.next, hp, h1, if_true, CheckRun.afterA, h2]
  simp [CheckRun.enter, CheckRun.drainTests, CheckPhase.duration, orFinding, hA]

theorem CheckRun.next_drain_end (hp : c.phase = .drain) (hA : c.findingA = none) (hB : c.findingB = none) :
    c.next false false = ({ c with findingA := some .shortToSupply, findingB := some .shortToSupply }, none) := by
  have h1 : c.drainTests false false = { c with findingA := some .shortToSupply, findingB := some .shortToSupply } := by
    simp [CheckRun.drainTests, orFinding, hA, hB]
  simp only [CheckRun.next, hp, h1, if_true, CheckRun.afterA]
  rfl

theorem CheckRun.next_energizeA (hp : c.phase = .energizeA) : (c.next x y).2 =
    let groundA := if x then some (c.findingA.getD .shortToGround) else c.findingA
    some (if c.findingB ≠ some .shortToSupply ∧ y = false then
      { c with phase := .drainA, timer := some 20, findingA := some (groundA.getD .crossCoupled),
               findingB := some (c.findingB.getD .crossCoupled) }
    else { c with phase := .drainA, timer := some 20, findingA := groundA }) := by
  simp only [CheckRun.next, hp, CheckRun.testsA, energizeTests, CheckRun.enter, CheckPhase.duration, orFinding, Bool.not_eq_true]
  split <;> rfl

theorem CheckRun.next_energizeB (hp : c.phase = .energizeB) : (c.next x y).2 =
    let groundB := if y then some (c.findingB.getD .shortToGround) else c.findingB
    some (if c.findingA ≠ some .shortToSupply ∧ x = false then
      { c with phase := .drainB, timer := some 20, findingA := some (c.findingA.getD .crossCoupled),
               findingB := some (groundB.getD .crossCoupled) }
    else { c with phase := .drainB, timer := some 20, findingB := groundB }) := by
  simp only [CheckRun.next, hp, CheckRun.testsB, energizeTests, CheckRun.enter, CheckPhase.duration, orFinding, Bool.not_eq_true]
  split <;> rfl

theorem CheckRun.next_drainA (hp : c.phase = .drainA) (hB : c.findingB ≠ some .shortToSupply) :
    (c.next x y).2 = some { c with phase := .energizeB, timer := some 50 } := by
  have h1 : c.skipsB = false := by simp [CheckRun.skipsB, hB]
  simp only [CheckRun.next, hp, CheckRun.afterA, h1]
  rfl

theorem CheckRun.next_end (h : c.phase = .drainB ∨ c.phase = .abortDrain ∨ (c.phase = .drainA ∧ c.findingB = some .shortToSupply)) :
    c.next x y = (c, none) := by
  unfold CheckRun.next
  rcases h with h | h | ⟨h, hB⟩
  · rw [h]
  · rw [h]
  · rw [h]
    simp [CheckRun.afterA, CheckRun.skipsB, hB]

end

/-- Settles O40: either another phase follows, and the check alone changes, or the check ends. -/
theorem checkPhasesTestTheLines : Obligations.CheckPhasesTestTheLines := by
  intro s c x y h hc hAB made
  obtain ⟨c1, next, hn⟩ : ∃ c1 next, c.next x y = (c1, next) := ⟨_, _, rfl⟩
  cases next with
  | some c2 =>
    obtain ⟨k, ht⟩ := checkPhase_continues h hc hn
    have h2 : ∀ {c' : CheckRun}, (c.next x y).2 = some c' → some c2 = some c' := fun j => by rwa [hn] at j
    have hno : ∀ {c' : CheckRun} {P : Prop}, c.next x y = (c', none) → P := fun j => by rw [hn] at j; cases j
    refine ⟨_, ht, ?_, ?_, ?_, ?_, ?_, ?_, ?_, ?_, fun _ => ⟨rfl, rfl⟩, fun _ _ _ => rfl, fun _ _ => rfl, fun _ => .refl _, rfl, rfl, rfl, rfl⟩
    · rintro hp hA hB rfl
      exact ⟨rfl, h2 (CheckRun.next_drain_energizeA hp hA hB)⟩
    · rintro hp hA hB rfl rfl
      exact ⟨rfl, h2 (CheckRun.next_drain_energizeB hp hA hB)⟩
    · rintro hp hA hB rfl rfl
      exact hno (CheckRun.next_drain_end hp hA hB)
    · exact fun hp => ⟨rfl, h2 (CheckRun.next_energizeA hp)⟩
    · exact fun hp hB => ⟨rfl, h2 (CheckRun.next_drainA hp hB)⟩
    · exact fun hp => ⟨rfl, h2 (CheckRun.next_energizeB hp)⟩
    · exact fun hp => hno (CheckRun.next_end hp)
    · exact fun hp => hno (CheckRun.next_end (hp.imp_right .inr))
  | none =>
    obtain ⟨l1, l2⟩ := c.next_lines x y
    rw [hn] at l1 l2
    dsimp only at l1 l2
    obtain ⟨t, ht, hE⟩ := checkPhase_ends h hc hn (by rwa [l1, l2])
    have hno : ∀ {c' : CheckRun} {P : Prop}, (c.next x y).2 = some c' → P := fun j => by rw [hn] at j; cases j
    have hA := hE.lineA
    have hB := hE.lineB
    have hended := hE.ended
    rw [l1] at hA
    rw [l2] at hB
    rw [l1, l2] at hended
    refine ⟨t, ht, ?_, ?_, ?_, ?_, ?_, ?_, ?_, ?_, fun k => (by rw [hE.check] at k; exact nomatch k), fun l j1 j2 => hE.others l (l1 ▸ j1) (l2 ▸ j2),
      fun v z => ?_, fun v => ?_, hE.outside⟩
    · rintro hp hA hB rfl
      exact hno (CheckRun.next_drain_energizeA hp hA hB)
    · rintro hp hA hB rfl rfl
      exact hno (CheckRun.next_drain_energizeB hp hA hB)
    · rintro hp hfA hfB rfl rfl
      have heq := hn.symm.trans (CheckRun.next_drain_end hp hfA hfB)
      obtain rfl := (Prod.mk.inj heq).1
      refine ⟨hE.check, by rw [hA]; rfl, by rw [hB]; rfl, hE.raised, by rw [hA]; rfl, by rw [hB]; rfl, hended (by rw [hp]; decide)⟩
    · exact fun hp => hno (CheckRun.next_energizeA hp)
    · exact fun hp hB => hno (CheckRun.next_drainA hp hB)
    · exact fun hp => hno (CheckRun.next_energizeB hp)
    · intro hp
      obtain rfl := (Prod.mk.inj (hn.symm.trans (CheckRun.next_end hp))).1
      exact ⟨hE.check, hE.raised, by rw [hA]; rfl, by rw [hB]; rfl, by rw [hA]; rfl, by rw [hB]; rfl, by rw [hA]; rfl, by rw [hB]; rfl⟩
    · intro hp
      obtain rfl := (Prod.mk.inj (hn.symm.trans (CheckRun.next_end (hp.imp_right .inr)))).1
      exact hended (by rcases hp with hp | ⟨hp, _⟩ <;> rw [hp] <;> decide)
    · have hz := hE.unit v
      show (t.unit v).zones[z] = (s.unit v).zones[z]
      rcases hz with j | j <;> rw [j]
    · rcases hE.unit v with j | j
      · rw [j]; exact .refl _
      · rw [j]; exact ⟨rfl, rfl, rfl, rfl, rfl, rfl, rfl⟩

end Sys2Proof.Machine
end

