-- ==== Sys2Proof/Proofs/RecordStore.lean ====
section
/-! PROOFS. The reading store (R167, R168): where a record is placed, when it is lost, and that no later write of the event touches it. -/

namespace Sys2Proof.Machine

variable {d e f : Ev} {s s' t t' : State} {a : Anchor} {host : List HostWrite} {o : OpenSegment} {record : List Word} {g : Nat} {x : Nat}

/-! ### Segments -/

/-- A word of segment g lies in the store. -/
theorem Anchor.inStore_of_segment (hg : g < a.segments) {i : Nat} (hi : i < a.segmentSize) : a.inStore (a.storeBase + g * a.segmentSize + i) := by
  have h1 : (g + 1) * a.segmentSize ≤ a.segments * a.segmentSize := Nat.mul_le_mul_right _ hg
  rw [Nat.succ_mul] at h1
  exact ⟨by omega, by omega⟩

/-- Segments share no word. -/
theorem Anchor.segments_apart {g h : Nat} (hgh : g ≠ h) :
    g * a.segmentSize + a.segmentSize ≤ h * a.segmentSize ∨ h * a.segmentSize + a.segmentSize ≤ g * a.segmentSize := by
  rcases Nat.lt_or_gt_of_ne hgh with k | k
  · left
    rw [← Nat.succ_mul]
    exact Nat.mul_le_mul_right _ k
  · right
    rw [← Nat.succ_mul]
    exact Nat.mul_le_mul_right _ k

theorem State.Linked.inStore_lt (h : s.Linked a) (hx : a.inStore x) : x < Config.memoryWords := by
  have hm := h.inMemory
  simp only [Anchor.regions, Region.inMemory, List.all_cons, List.all_nil, Bool.and_true, Bool.and_eq_true, decide_eq_true_iff] at hm
  obtain ⟨_, _, _, h4⟩ := hm
  obtain ⟨_, h2⟩ := hx
  generalize a.segments * a.segmentSize = k at h4 h2
  omega

theorem Region.apart {r q : Region} (h : (!r.shares q) = true) : r.base + r.words ≤ q.base ∨ q.base + q.words ≤ r.base := by
  by_contra k
  have h1 : r.base < q.base + q.words := by omega
  have h2 : q.base < r.base + r.words := by omega
  rw [Region.shares, decide_eq_true h1, decide_eq_true h2] at h
  cases h

/-- A word of the store is none of the anchor's, of a slot, of the mirror or of the status area. -/
theorem State.Linked.store_apart (h : s.Linked a) (hx : a.inStore x) : 16 ≤ x ∧ ¬a.inMirror x ∧ ¬a.inStatus x
    ∧ ∀ k < a.ringLength, x ≠ a.slotWord k 14 ∧ x ≠ a.slotWord k 15 := by
  have hd := h.disjoint
  simp only [Anchor.regions, disjointRegions, List.all_cons, List.all_nil, Bool.and_true, Bool.and_eq_true] at hd
  obtain ⟨⟨_, _, _, hanchor⟩, ⟨_, _, hring⟩, ⟨_, hmirror⟩, hstatus⟩ := hd
  have h1 := Region.apart hanchor
  have h2 := Region.apart hring
  have h3 := Region.apart hmirror
  have h4 := Region.apart hstatus
  unfold Anchor.inStore at hx
  simp only [anchorRegion, Config.anchorWords, Config.slotWords, Config.mirrorWords, Config.statusWords] at h1 h2 h3 h4
  simp only [Anchor.slotWord, Anchor.inMirror, Anchor.inStatus, Config.slotWords, Config.mirrorWords, Config.statusWords]
  generalize a.segments * a.segmentSize = k at hx h1 h2 h3 h4
  refine ⟨by omega, by omega, by omega, fun j hj => ⟨by omega, by omega⟩⟩

/-! ### A record that is placed -/

theorem Ev.appendRecord_recordAt (hl : e.toState.Linked a) (hg : e.port.segment < a.segments) (hf : 1 ≤ o.fillPoint)
    (hlen : o.fillPoint + record.length ≤ a.segmentSize) :
    (e.appendRecord a o record).toState.RecordAt a e.port.segment o.fillPoint o.records o.sequence record := by
  have hend : a.storeBase + e.port.segment * a.segmentSize + o.fillPoint + record.length ≤ Config.memoryWords := by
    have h0 := hl.inStore_lt (Anchor.inStore_of_segment hg (i := a.segmentSize - 1) (by omega))
    omega
  have hbase : e.segmentBase a = a.storeBase + e.port.segment * a.segmentSize := rfl
  have hw1 := Memory.write_wf e.mem (e.segmentBase a + o.fillPoint) record hl.wf
  refine ⟨rfl, rfl, ?_, ?_⟩
  · show Memory.readWords (Memory.write (Memory.write e.mem (e.segmentBase a + o.fillPoint) record) (e.segmentBase a)
      [segmentHeader false (o.records + 1) o.sequence]) (a.storeBase + e.port.segment * a.segmentSize + o.fillPoint) record.length = record
    rw [← hbase] at hend ⊢
    rw [Memory.readWords_write_apart hw1 (.inr (by simp only [List.length_singleton]; omega))]
    exact Memory.readWords_write hl.wf (by omega)
  · show Memory.read (Memory.write (Memory.write e.mem (e.segmentBase a + o.fillPoint) record) (e.segmentBase a)
      [segmentHeader false (o.records + 1) o.sequence]) (a.storeBase + e.port.segment * a.segmentSize) = _
    rw [← hbase] at hend ⊢
    rw [Memory.read_write _ _ _ _ hw1, if_pos (by simp only [List.length_singleton]; omega)]
    simp

theorem Ev.mem_standing (m : Memory) (b : Nat) : (b, Memory.read m b) ∈ Memory.standing m b 1 := by
  simp [Memory.standing]

theorem headerEmpty_iff (w : Word) : headerEmpty w = true ↔ Decode.bits w 0 4 = 0 := by simp [headerEmpty]

/-- Step 1 of R167. -/
theorem Ev.openAndPlace_placed (hl : e.toState.Linked a) (hg : e.port.segment < a.segments) (ho : e.port.openSegment = none)
    (hlen : 1 + record.length ≤ a.segmentSize) : e.toState.PlacedFrom (e.openAndPlace a record).toState a e.port.segment
      (Memory.read e.mem (a.storeBase + e.port.segment * a.segmentSize)) record := by
  have hbase : e.segmentBase a = a.storeBase + e.port.segment * a.segmentSize := rfl
  unfold Ev.openAndPlace State.PlacedFrom
  rw [← hbase]
  by_cases hempty : headerEmpty (Memory.read e.mem (e.segmentBase a)) = true
  · rw [if_pos hempty, if_pos ((headerEmpty_iff _).1 hempty)]
    have hmem : e.segmentBase a < Config.memoryWords := hl.inStore_lt (Anchor.inStore_of_segment hg (i := 0) (by omega))
    have hl' : (e.openSegment a).toState.Linked a :=
      ⟨hl.attached, hl.anchor, hl.inMemory, hl.disjoint, Memory.write_wf _ _ _ hl.wf⟩
    refine ⟨Ev.appendRecord_recordAt (e := e.openSegment a) hl' hg le_rfl hlen, rfl, rfl, ?_⟩
    have hheader : Memory.read (Memory.write (e.openSegment a).mem (e.segmentBase a + 1) record) (e.segmentBase a)
        = segmentHeader false 0 e.port.fillSequence := by
      rw [Memory.read_write_outside _ _ _ _ hl'.wf (by omega)]
      refine (Memory.read_write _ _ _ _ hl.wf).trans ?_
      rw [if_pos (by simp only [List.length_singleton]; omega)]
      simp
    rw [← hheader]
    exact List.mem_append_left _ (Ev.mem_standing _ _)
  · rw [if_neg hempty, if_neg fun k => hempty ((headerEmpty_iff _).2 k)]
    refine ⟨rfl, ho, rfl, rfl, ?_⟩
    rw [Ev.loseRecord, Ev.noticePending_raise]
    simp

/-! ### What later writes leave -/

/-- The port's place in the store, and the words of the store, are the same. -/
structure State.SameStore (a : Anchor) (s t : State) : Prop where
  segment : t.port.segment = s.port.segment
  openSegment : t.port.openSegment = s.port.openSegment
  fillSequence : t.port.fillSequence = s.port.fillSequence
  lostScans : t.port.lostScans = s.port.lostScans
  words : ∀ x, a.inStore x → Memory.read t.mem x = Memory.read s.mem x

theorem State.SameStore.refl (a : Anchor) (s : State) : s.SameStore a s := ⟨rfl, rfl, rfl, rfl, fun _ _ => rfl⟩

theorem State.SameStore.trans {r : State} (h : State.SameStore a r s) (k : State.SameStore a s t) : State.SameStore a r t :=
  ⟨k.segment.trans h.segment, k.openSegment.trans h.openSegment, k.fillSequence.trans h.fillSequence, k.lostScans.trans h.lostScans,
    fun x hx => (k.words x hx).trans (h.words x hx)⟩

/-- A record that has been placed stays: the store is the same, and what has been raised or kept as unfinished is kept. -/
structure State.StoreKept (a : Anchor) (s t : State) : Prop extends s.SameStore a t where
  notices : ∀ n, s.noticePending n = true → t.noticePending n = true
  unfinished : s.unfinished ⊆ t.unfinished

theorem State.StoreKept.trans {r : State} (h : State.StoreKept a r s) (k : State.StoreKept a s t) : State.StoreKept a r t :=
  ⟨h.toSameStore.trans k.toSameStore, fun n j => k.notices n (h.notices n j), List.Subset.trans h.unfinished k.unfinished⟩

theorem State.RecordAt.kept {fill records : Nat} {sequence : BitVec 16} (h : t'.RecordAt a g fill records sequence record)
    (k : t'.SameStore a t) (hg : g < a.segments) (hlen : fill + record.length ≤ a.segmentSize) (h0 : 0 < a.segmentSize) :
    t.RecordAt a g fill records sequence record := by
  refine ⟨k.segment.trans h.position, k.openSegment.trans h.opened, ?_, ?_⟩
  · refine (Memory.readWords_congr fun y h1 h2 => k.words y ?_).trans h.words
    obtain ⟨i, rfl⟩ := Nat.exists_eq_add_of_le (show a.storeBase + g * a.segmentSize ≤ y by omega)
    exact Anchor.inStore_of_segment hg (by omega)
  · exact (k.words _ (Anchor.inStore_of_segment hg (i := 0) h0)).trans h.header

theorem State.RecordLost.kept (h : s'.RecordLost t' g) (hs : s'.SameStore a s) (k : t'.StoreKept a t) : s.RecordLost t g :=
  ⟨k.segment.trans h.position, k.openSegment.trans h.opened, by rw [k.fillSequence, h.sequence, hs.fillSequence],
    by rw [k.lostScans, h.lost, hs.lostScans], k.notices _ h.raised⟩

theorem State.PlacedFrom.kept {header : Word} (h : s'.PlacedFrom t' a g header record) (hs : s'.SameStore a s) (k : t'.StoreKept a t)
    (hg : g < a.segments) (hlen : 1 + record.length ≤ a.segmentSize) : s.PlacedFrom t a g header record := by
  unfold State.PlacedFrom at h ⊢
  split at h
  · next hb =>
    obtain ⟨h1, h2, h3, h4⟩ := h
    rw [if_pos hb, hs.fillSequence, hs.lostScans]
    exact ⟨h1.kept k.toSameStore hg hlen (by omega), by rw [k.fillSequence, h2], by rw [k.lostScans, h3], k.unfinished h4⟩
  · next hb =>
    rw [if_neg hb]
    exact h.kept hs k

/-- A record stored by the event is stored by the command. -/
theorem State.Stores.kept (h : s'.Stores t' [] a record) (hs : s'.SameStore a s) (k : t'.StoreKept a t) (hlaw : s.StoreLawful a)
    (hlen : 1 + record.length ≤ a.segmentSize) : s.Stores t [] a record := by
  obtain ⟨hg, h1100, hopen⟩ := hlaw
  have hheader : ∀ g < a.segments, Memory.read (Memory.hostWrites s'.mem []) (a.storeBase + g * a.segmentSize)
      = Memory.read (Memory.hostWrites s.mem []) (a.storeBase + g * a.segmentSize) := fun g hg =>
    (hs.words _ (Anchor.inStore_of_segment hg (i := 0) (by omega))).symm
  unfold State.Stores at h ⊢
  have hopen' := hs.openSegment
  have hseg := hs.segment
  cases ho : s.port.openSegment with
  | none =>
    have ho' : s'.port.openSegment = none := hopen'.symm.trans ho
    rw [ho', ← hseg] at h
    dsimp only at h ⊢
    rw [hheader _ hg] at h
    exact h.kept hs k hg hlen
  | some o =>
    have ho' : s'.port.openSegment = some o := hopen'.symm.trans ho
    rw [ho', ← hseg] at h
    dsimp only at h ⊢
    split at h
    · next hfit =>
      rw [if_pos hfit]
      obtain ⟨h1, h2, h3⟩ := h
      exact ⟨h1.kept k.toSameStore hg hfit (by omega), by rw [k.fillSequence, h2, hs.fillSequence], by rw [k.lostScans, h3, hs.lostScans]⟩
    · next hfit =>
      rw [if_neg hfit]
      obtain ⟨h1, h2, h3⟩ := h
      refine ⟨(k.words _ (Anchor.inStore_of_segment hg (i := 0) (by omega))).trans h1, k.notices _ h2, ?_⟩
      split at h3
      · next hone =>
        rw [if_pos hone]
        exact h3.kept hs k
      · next hone =>
        rw [if_neg hone]
        rw [hheader _ (ringNext_lt hg)] at h3
        exact h3.kept hs k (ringNext_lt hg) hlen

/-! ### The store of a record -/

theorem State.RecordLost.of_counts (h : s'.RecordLost t g) (hf : s.port.fillSequence = s'.port.fillSequence)
    (hl : s.port.lostScans = s'.port.lostScans) : s.RecordLost t g :=
  ⟨h.position, h.opened, h.sequence.trans hf.symm, h.lost.trans (by rw [hl]), h.raised⟩

theorem State.PlacedFrom.of_counts {header : Word} (h : s'.PlacedFrom t a g header record) (hf : s.port.fillSequence = s'.port.fillSequence)
    (hl : s.port.lostScans = s'.port.lostScans) : s.PlacedFrom t a g header record := by
  unfold State.PlacedFrom at h ⊢
  split at h
  · next k => rwa [if_pos k, hf, hl]
  · next k => rw [if_neg k]; exact h.of_counts hf hl

theorem bits_segmentHeader (full : Bool) (records : Nat) (sequence : BitVec 16) : Decode.bits (segmentHeader full records sequence) 0 4 = flag full := by
  have hs : sequence.toNat < 65536 := sequence.isLt
  cases full <;>
    simp only [Decode.bits, segmentHeader, wordOf, field, flag, BitVec.toNat_ofNat, Nat.shiftRight_zero] <;> simp <;> omega

theorem Ev.openAndPlace_noticePending {n : Notice} (h : e.noticePending n = true) : (e.openAndPlace a record).noticePending n = true := by
  unfold Ev.openAndPlace
  split
  · exact h
  · rw [Ev.loseRecord, Ev.noticePending_raise, Bool.or_eq_true]
    exact .inl h

/-- A record placed in the current segment leaves the words of the others. -/
theorem Ev.openAndPlace_outside (hl : e.toState.Linked a) (hlen : 1 + record.length ≤ a.segmentSize)
    (hx : x < e.segmentBase a ∨ e.segmentBase a + a.segmentSize ≤ x) : Memory.read (e.openAndPlace a record).mem x = Memory.read e.mem x := by
  unfold Ev.openAndPlace
  split
  · have h1 := Memory.write_wf e.mem (e.segmentBase a) [segmentHeader false 0 e.port.fillSequence] hl.wf
    have h2 := Memory.write_wf _ (e.segmentBase a + 1) record h1
    refine (Memory.read_write_outside _ _ _ _ h2 ?_).trans ((Memory.read_write_outside _ _ _ _ h1 ?_).trans
      (Memory.read_write_outside _ _ _ _ hl.wf ?_))
    all_goals
      simp only [Ev.openSegment, State.segmentBase, Ev.writeWords, Ev.updPort, List.length_singleton] at hx ⊢
      omega
  · rfl

/-- A record that does not fit closes its segment, and goes to the next (R167). -/
theorem Ev.closeSegment_stores (hl : e.toState.Linked a) (hlaw : e.StoreLawful a) (hlen : 1 + record.length ≤ a.segmentSize)
    (o : OpenSegment) :
    Memory.read ((e.closeSegment a o).openAndPlace a record).mem (a.storeBase + e.port.segment * a.segmentSize)
        = segmentHeader true o.records o.sequence
      ∧ ((e.closeSegment a o).openAndPlace a record).noticePending .segmentFull = true
      ∧ if a.segments = 1 then e.RecordLost ((e.closeSegment a o).openAndPlace a record).toState 0
        else e.PlacedFrom ((e.closeSegment a o).openAndPlace a record).toState a (ringNext a.segments e.port.segment)
          (Memory.read e.mem (a.storeBase + ringNext a.segments e.port.segment * a.segmentSize)) record := by
  obtain ⟨hg, h1100, _⟩ := hlaw
  have hnext : ringNext a.segments e.port.segment < a.segments := ringNext_lt hg
  have hlc : (e.closeSegment a o).toState.Linked a := ⟨hl.attached, hl.anchor, hl.inMemory, hl.disjoint, Memory.write_wf _ _ _ hl.wf⟩
  have hread : ∀ y, Memory.read (e.closeSegment a o).mem y = if y = e.segmentBase a then segmentHeader true o.records o.sequence
      else Memory.read e.mem y := fun y => by
    refine (Memory.read_write _ _ _ _ hl.wf).trans ?_
    have hbase : e.segmentBase a < Config.memoryWords := hl.inStore_lt (Anchor.inStore_of_segment hg (i := 0) (by omega))
    by_cases hy : y = e.segmentBase a
    · rw [if_pos (by simp only [List.length_singleton]; omega), if_pos hy, hy]
      simp
    · rw [if_neg (by simp only [List.length_singleton]; omega), if_neg hy]
  have hplaced := Ev.openAndPlace_placed (e := e.closeSegment a o) (record := record) hlc hnext rfl hlen
  refine ⟨?_, Ev.openAndPlace_noticePending ?_, ?_⟩
  · by_cases hone : ringNext a.segments e.port.segment = e.port.segment
    · have hsame : (e.closeSegment a o).segmentBase a = e.segmentBase a := congrArg (fun g => a.storeBase + g * a.segmentSize) hone
      have hheader : headerEmpty (Memory.read (e.closeSegment a o).mem ((e.closeSegment a o).segmentBase a)) ≠ true := fun k => by
        rw [headerEmpty_iff, hread, if_pos hsame, bits_segmentHeader] at k
        cases k
      rw [Ev.openAndPlace, if_neg hheader]
      exact (hread _).trans (if_pos rfl)
    · refine (Ev.openAndPlace_outside hlc hlen ?_).trans ((hread _).trans (if_pos rfl))
      show a.storeBase + e.port.segment * a.segmentSize < a.storeBase + ringNext a.segments e.port.segment * a.segmentSize
        ∨ a.storeBase + ringNext a.segments e.port.segment * a.segmentSize + a.segmentSize ≤ a.storeBase + e.port.segment * a.segmentSize
      have := Anchor.segments_apart (a := a) hone
      omega
  · show ((e.writeWords _ _).raise .segmentFull).noticePending .segmentFull = true
    rw [Ev.noticePending_raise]
    simp
  · have hseg : (e.closeSegment a o).port.segment = ringNext a.segments e.port.segment := rfl
    rw [hseg, hread] at hplaced
    split
    · next hone =>
      have hzero : e.port.segment = 0 := by omega
      have hnext0 : ringNext a.segments e.port.segment = 0 := by omega
      rw [hnext0, if_pos (by rw [State.segmentBase, hzero])] at hplaced
      unfold State.PlacedFrom at hplaced
      rw [if_neg (by rw [bits_segmentHeader]; decide)] at hplaced
      exact hplaced.of_counts rfl rfl
    · next hone =>
      have hne : ringNext a.segments e.port.segment ≠ e.port.segment := by
        unfold ringNext
        split <;> omega
      rw [if_neg] at hplaced
      · exact hplaced.of_counts rfl rfl
      · have := Anchor.segments_apart (a := a) hne
        show ¬a.storeBase + _ = a.storeBase + e.port.segment * a.segmentSize
        omega

theorem Ev.storeRecord_stores (hl : e.toState.Linked a) (hlaw : e.StoreLawful a) (hlen : 1 + record.length ≤ a.segmentSize) :
    e.toState.Stores (e.storeRecord record).toState [] a record := by
  have hatt : e.attached = true := decide_eq_true hl.attached
  unfold Ev.storeRecord State.Stores
  rw [hatt, hl.anchor]
  dsimp only
  cases ho : e.port.openSegment with
  | none => exact Ev.openAndPlace_placed hl hlaw.1 ho hlen
  | some o =>
    dsimp only
    by_cases hfit : o.fillPoint + record.length ≤ a.segmentSize
    · rw [if_pos hfit, if_neg (by omega)]
      exact ⟨Ev.appendRecord_recordAt hl hlaw.1 (hlaw.2.2 o ho) hfit, rfl, rfl⟩
    · rw [if_neg hfit, if_pos (by omega)]
      exact Ev.closeSegment_stores hl hlaw hlen o

end Sys2Proof.Machine
end

