-- ==== Sys2Proof/Proofs/FaultedScans.lean ====
section
/-! PROOFS. What the end of an event leaves of the reading store, how long a scan record can be, and the frames that open a scan, add to it,
or end it as LINK FAULT (6.2, 6.8). -/

namespace Sys2Proof.Machine

open Decode

variable {U : UnitNo → Prop} {K : Nat → Prop} {d e f : Ev} {s s' t t' : State} {a : Anchor} {host : List HostWrite} {record : List Word}
  {scan : OpenScan}

/-! ### The writes at the end of an event -/

/-- What is unfinished stays so: the part writes, and abandons nothing. -/
def Ev.Grows (d e : Ev) : Prop := d.unfinished ⊆ e.unfinished

namespace Ev.Grows

theorem refl (e : Ev) : e.Grows e := List.Subset.refl _

theorem trans (h : d.Grows e) (k : e.Grows f) : d.Grows f := List.Subset.trans h k

theorem writeWords (e : Ev) (b : Nat) (ws : List Word) : e.Grows (e.writeWords b ws) := List.subset_append_right _ _

theorem writeIf (e : Ev) (c : Bool) (b : Nat) (w : Word) : e.Grows (e.writeIf c b w) := by
  cases c
  · exact .refl e
  · exact .writeWords e b [w]

theorem draws (e : Ev) (n : Nat) : e.Grows { e with freeDraws := n } := List.Subset.refl _

theorem foldl {α : Type} {f : Ev → α → Ev} (hf : ∀ (e : Ev) (x : α), e.Grows (f e x)) (l : List α) (e : Ev) : e.Grows (l.foldl f e) := by
  induction l generalizing e with
  | nil => exact .refl e
  | cons x l ih => exact (hf e x).trans (ih _)

theorem writeWatch (e : Ev) (b : Nat) (k : Fin 4) : e.Grows (e.writeWatch b k) := by
  unfold Ev.writeWatch
  dsimp only
  refine .trans ?_ (writeIf _ _ _ _)
  refine .trans ?_ (writeIf _ _ _ _)
  exact writeIf _ _ _ _

theorem writeChangedStatus (e : Ev) (a : Anchor) : e.Grows (e.writeChangedStatus a) := by
  unfold Ev.writeChangedStatus
  dsimp only
  refine .trans ?_ (draws _ _)
  refine .trans ?_ (foldl (fun e k => writeWatch e _ k) _ _)
  refine .trans ?_ (writeIf _ _ _ _)
  refine .trans ?_ (writeIf _ _ _ _)
  exact writeIf _ _ _ _

theorem flush (e : Ev) : e.Grows e.flush := by
  unfold Ev.flush
  split
  · next a _ _ =>
    have h1 : e.Grows ((inOrder e.mirrorDue).foldl (fun e u => e.writeMirror a u) e) := foldl (fun e u => by
      unfold Ev.writeMirror
      exact ((writeWords (e.updPort _) _ _).trans (writeWords _ _ _)).trans (writeWords _ _ _)) _ e
    exact (h1.trans (writeChangedStatus _ a)).trans (foldl (fun e n => writeWords e _ _) _ _)
  · exact .refl e

end Ev.Grows

/-- The writes at the end of an event leave the reading store. -/
theorem Ev.flush_store (hl : e.toState.Linked a) : e.toState.StoreKept a e.flush.toState := by
  have h := e.flush_wroteRegions hl.anchor
  refine ⟨⟨by rw [h.port], by rw [h.port], by rw [h.port], by rw [h.port], fun x hx => (h.mem hl.wf).2 x ?_⟩, fun n hn => ?_, Ev.Grows.flush e⟩
  · obtain ⟨_, hm, hs, _⟩ := hl.store_apart hx
    exact not_or.2 ⟨hm, hs⟩
  · rwa [h.noticePending]

/-- An event that writes slots of the ring alone leaves the reading store. -/
theorem Ev.Goes.store (h : d.Goes U K e) (hl : d.toState.Linked a) (hK : ∀ k, K k → k < a.ringLength) : d.toState.StoreKept a e.toState := by
  refine ⟨⟨h.course.segment, h.course.openSegment, h.course.fillSequence, h.course.lostScans, fun x hx => ?_⟩, fun n hn => ?_, h.unfinished⟩
  · obtain ⟨h16, _, _, hslots⟩ := hl.store_apart hx
    exact h.words hl.wf a hl.anchor x (by omega) fun k hk => hslots k (hK k hk)
  · have := h.notices
    unfold State.noticePending at hn ⊢
    rw [← this, BitVec.getLsbD_and, Bool.and_eq_true] at hn
    exact hn.2

/-! ### The length of a record -/

theorem zonedEntries_length (z : Nat) (entries : List Entry) : (zonedEntries z entries).length ≤ 64 := by
  have h1 : (zonesBelow z).length ≤ 64 := (List.length_filter_le _ _).trans (by rw [ascending, List.length_finRange])
  rw [zonedEntries, List.length_zip]
  omega

/-- A record of at most sixteen groups of at most 64 readings fits into a segment of the smallest size. -/
theorem scanRecord_length (counter : Sheet) (outcome : ScanOutcome) {groups : List (UnitNo × List (Entry × ReadingCode))}
    (hg : groups.length ≤ 16) (hr : ∀ g ∈ groups, g.2.length ≤ 64) : (scanRecord scan counter outcome groups).length ≤ 1044 := by
  have h (l : List (UnitNo × List (Entry × ReadingCode))) (hl : ∀ g ∈ l, g.2.length ≤ 64) :
      (l.flatMap fun g => unitGroup g.1 g.2).length ≤ 65 * l.length := by
    induction l with
    | nil => rfl
    | cons g l ih =>
      have := ih fun x hx => hl x (List.mem_cons_of_mem _ hx)
      have := hl g List.mem_cons_self
      have hunit : (unitGroup g.1 g.2).length = 1 + g.2.length := by simp [unitGroup, Nat.add_comm]
      rw [List.flatMap_cons, List.length_append, hunit, List.length_cons]
      omega
  have := h groups hr
  simp only [scanRecord, List.length_append, List.length_cons, List.length_nil]
  omega

theorem faultRecord_length (e : State) (scan : OpenScan) (counter : Sheet) (outcome : ScanOutcome) :
    (scanRecord scan counter outcome (e.faultGroups scan)).length ≤ 1044 := by
  refine scanRecord_length counter outcome ((List.length_filterMap_le _ _).trans (by rw [ascending, List.length_finRange])) fun g hg => ?_
  obtain ⟨u, _, hu⟩ := List.mem_filterMap.1 hg
  obtain ⟨entries, _, rfl⟩ := Option.map_eq_some_iff.1 hu
  rw [List.length_map]
  exact zonedEntries_length _ _

/-! ### The end of a scan -/

/-- A record handed to the port leaves the rest of the machine, and owes nothing. -/
structure Ev.Recorded (d e : Ev) : Prop where
  units : e.units = d.units
  lines : e.lines = d.lines
  partGrants : e.partGrants = d.partGrants
  pointer : e.pointer = d.pointer
  curves : e.curves = d.curves
  timing : e.timing = d.timing
  check : e.check = d.check
  pending : e.pending = d.pending
  arbiterDue : e.arbiterDue = d.arbiterDue
  testDue : e.testDue = d.testDue
  mirrorDue : e.mirrorDue = d.mirrorDue
  portState : e.port.state = d.port.state
  anchor : e.port.anchor = d.port.anchor
  counts : e.port.updateCounts = d.port.updateCounts
  wf : Memory.wf d.mem = true → Memory.wf e.mem = true

namespace Ev.Recorded

theorem refl (e : Ev) : e.Recorded e := ⟨rfl, rfl, rfl, rfl, rfl, rfl, rfl, rfl, rfl, rfl, rfl, rfl, rfl, rfl, id⟩

theorem trans (h : d.Recorded e) (k : e.Recorded f) : d.Recorded f :=
  ⟨k.1.trans h.1, k.2.trans h.2, k.3.trans h.3, k.4.trans h.4, k.5.trans h.5, k.6.trans h.6, k.7.trans h.7, k.8.trans h.8, k.9.trans h.9,
    k.10.trans h.10, k.11.trans h.11, k.12.trans h.12, k.13.trans h.13, k.14.trans h.14, fun w => k.wf (h.wf w)⟩

theorem writeWords (h : d.Recorded e) (b : Nat) (ws : List Word) : d.Recorded (e.writeWords b ws) :=
  h.trans ⟨rfl, rfl, rfl, rfl, rfl, rfl, rfl, rfl, rfl, rfl, rfl, rfl, rfl, rfl, Memory.write_wf _ _ _⟩

theorem updPort (h : d.Recorded e) (f : Port → Port) (hs : (f e.port).state = e.port.state) (ha : (f e.port).anchor = e.port.anchor)
    (hc : (f e.port).updateCounts = e.port.updateCounts) : d.Recorded (e.updPort f) :=
  h.trans ⟨rfl, rfl, rfl, rfl, rfl, rfl, rfl, rfl, rfl, rfl, rfl, hs, ha, hc, id⟩

theorem raise (h : d.Recorded e) (n : Notice) : d.Recorded (e.raise n) := h.updPort _ rfl rfl rfl

theorem updIntake (h : d.Recorded e) (f : Intake → Intake) : d.Recorded (e.updIntake f) :=
  h.trans ⟨rfl, rfl, rfl, rfl, rfl, rfl, rfl, rfl, rfl, rfl, rfl, rfl, rfl, rfl, id⟩

theorem appendRecord (h : d.Recorded e) (a : Anchor) (o : OpenSegment) (record : List Word) : d.Recorded (e.appendRecord a o record) := by
  unfold Ev.appendRecord
  exact ((h.writeWords _ _).writeWords _ _).updPort _ rfl rfl rfl

theorem openAndPlace (h : d.Recorded e) (a : Anchor) (record : List Word) : d.Recorded (e.openAndPlace a record) := by
  unfold Ev.openAndPlace
  split
  · unfold Ev.openSegment
    exact ((h.writeWords _ _).updPort _ rfl rfl rfl).appendRecord a _ record
  · exact (h.updPort _ rfl rfl rfl).raise _

theorem storeRecord (h : d.Recorded e) (record : List Word) : d.Recorded (e.storeRecord record) := by
  unfold Ev.storeRecord
  split
  · next a _ _ =>
    split
    · exact h.openAndPlace a record
    · next o _ =>
      split
      · unfold Ev.closeSegment
        exact (((h.writeWords _ _).raise _).updPort _ rfl rfl rfl).openAndPlace a record
      · exact h.appendRecord a o record
  · exact h

end Ev.Recorded

theorem Ev.storeRecord_intake (e : Ev) (record : List Word) : (e.storeRecord record).intake = e.intake :=
  (Ev.Quiet.storeRecord (.refl e) record).still.intake

/-- The fault of a scan, in the order of R114: its record is handed to the port first. -/
def Ev.faultRecorded (e : Ev) (scan : OpenScan) (cause : ScanOutcome) : Ev :=
  e.storeRecord (scanRecord scan e.timing.counter cause (e.faultGroups scan))

theorem Ev.faultScan_recorded (e : Ev) (scan : OpenScan) (cause : ScanOutcome) : e.Recorded (e.faultScan scan cause) := by
  unfold Ev.faultScan Ev.closeScan Ev.countLinkFault
  exact ((((Ev.Recorded.refl e).storeRecord _).updIntake _).updIntake _).raise _

theorem Ev.faultScan_port (e : Ev) (scan : OpenScan) (cause : ScanOutcome) :
    (e.faultScan scan cause).port = (e.faultRecorded scan cause).port.raise .scanFault := rfl

theorem Ev.faultScan_intake (e : Ev) (scan : OpenScan) (cause : ScanOutcome) : (e.faultScan scan cause).intake
    = { e.intake with scan := none, scanTimer := none, lastScan := some scan.number, linkFaults := countUp e.intake.linkFaults } := by
  have h : (e.faultRecorded scan cause).intake = e.intake := e.storeRecord_intake _
  show { (e.faultRecorded scan cause).intake with
    scan := none, scanTimer := none, lastScan := some scan.number, linkFaults := countUp (e.faultRecorded scan cause).intake.linkFaults } = _
  rw [h]

theorem Ev.faultScan_raises (e : Ev) (scan : OpenScan) (cause : ScanOutcome) : (e.faultScan scan cause).noticePending .scanFault = true := by
  rw [Ev.faultScan, Ev.noticePending_raise]
  simp

theorem Ev.faultScan_kept (e : Ev) (scan : OpenScan) (cause : ScanOutcome) :
    (e.faultRecorded scan cause).toState.StoreKept a (e.faultScan scan cause).toState := by
  refine ⟨⟨rfl, rfl, rfl, rfl, fun _ _ => rfl⟩, fun n hn => ?_, List.Subset.refl _⟩
  rw [Ev.faultScan, Ev.noticePending_raise, Bool.or_eq_true]
  exact .inl hn

/-- The end of an event that owes neither an arbiter run nor a completion test leaves the reading store. -/
theorem Ev.settle_still_store (hd : e.arbiterDue = false) (ht : e.testDue = []) (hl : e.toState.Linked a) :
    e.toState.StoreKept a e.settle.toState := by
  rw [Ev.settle_eq_flush hd ht]
  exact Ev.flush_store (e := { e with testDue := [] }) ⟨hl.attached, hl.anchor, hl.inMemory, hl.disjoint, hl.wf⟩

theorem Ev.Recorded.linked (h : d.Recorded e) (hl : d.toState.Linked a) : e.toState.Linked a :=
  ⟨h.portState.trans hl.attached, h.anchor.trans hl.anchor, hl.inMemory, hl.disjoint, h.wf hl.wf⟩

/-- The record of a scan that ends as LINK FAULT is stored (R114, R167, R168). -/
theorem Ev.faultScan_stores (hl : e.toState.Linked a) (hlaw : e.StoreLawful a) (hd : e.arbiterDue = false) (ht : e.testDue = [])
    (scan : OpenScan) (cause : ScanOutcome) :
    e.toState.Stores (e.faultScan scan cause).settle.toState [] a (scanRecord scan e.timing.counter cause (e.faultGroups scan)) := by
  have hlen := faultRecord_length e.toState scan e.timing.counter cause
  obtain ⟨_, h1100, _⟩ := id hlaw
  have hr := e.faultScan_recorded scan cause
  have hstored : e.toState.Stores (e.faultRecorded scan cause).toState [] a _ := Ev.storeRecord_stores hl hlaw (by omega)
  refine hstored.kept (.refl _ _) ((e.faultScan_kept scan cause).trans ?_) hlaw (by omega)
  exact Ev.settle_still_store (hr.arbiterDue.trans hd) (hr.testDue.trans ht) (hr.linked hl)

theorem State.Stores.of_landed (h : (s.landed host).toState.Stores t [] a record) : s.Stores t host a record := by
  unfold State.Stores at h ⊢
  cases ho : s.port.openSegment with
  | none =>
    have ho' : (s.landed host).port.openSegment = none := ho
    rw [ho'] at h
    exact h.of_counts rfl rfl
  | some o =>
    have ho' : (s.landed host).port.openSegment = some o := ho
    rw [ho'] at h
    dsimp only at h ⊢
    split at h
    · next k => rw [if_pos k]; exact h
    · next k =>
      rw [if_neg k]
      obtain ⟨h1, h2, h3⟩ := h
      refine ⟨h1, h2, ?_⟩
      split at h3
      · next j => rw [if_pos j]; exact h3.of_counts rfl rfl
      · next j => rw [if_neg j]; exact h3.of_counts rfl rfl

/-- A record that finds no segment open and the current one not EMPTY is lost. -/
theorem Ev.faultRecorded_lost (hatt : e.attached = true) (hc : e.port.anchor = some a) (ho : e.port.openSegment = none)
    (hh : bits (Memory.read e.mem (a.storeBase + e.port.segment * a.segmentSize)) 0 4 ≠ 0) (scan : OpenScan) (cause : ScanOutcome) :
    e.faultRecorded scan cause = e.loseRecord := by
  unfold Ev.faultRecorded Ev.storeRecord
  rw [hatt, hc, ho]
  exact if_neg fun k => hh ((headerEmpty_iff _).1 k)

/-- The scan that was open has ended as LINK FAULT, from the writes of the host that land with the command to the end of the event. -/
structure State.ScanFaulted (s t : State) (host : List HostWrite) (scan : OpenScan) (cause : ScanOutcome) : Prop where
  intake : t.intake = { s.intake with
    scan := none, scanTimer := none, lastScan := some scan.number, linkFaults := countUp s.intake.linkFaults }
  raised : t.noticePending .scanFault = true
  lost : ∀ a, s.port.state = .attached → s.port.anchor = some a → s.port.openSegment = none →
    bits (Memory.read (Memory.hostWrites s.mem host) (a.storeBase + s.port.segment * a.segmentSize)) 0 4 ≠ 0 →
    t.noticePending .storeOverrun = true ∧ t.port.lostScans = countUp s.port.lostScans ∧ t.port.segment = s.port.segment
      ∧ t.port.openSegment = none
  stored : ∀ a, s.Linked a → s.StoreLawful a → s.Stores t host a (scanRecord scan s.timing.counter cause (s.faultGroups scan))
  units : t.units = s.units
  lines : t.lines = s.lines
  partGrants : t.partGrants = s.partGrants
  pointer : t.pointer = s.pointer
  curves : t.curves = s.curves
  timing : t.timing = s.timing
  check : t.check = s.check
  pending : t.pending = s.pending

theorem State.landed_scanFaulted (s : State) (host : List HostWrite) (scan : OpenScan) (cause : ScanOutcome) :
    s.ScanFaulted ((s.landed host).faultScan scan cause).settle.toState host scan cause := by
  have hr := (s.landed host).faultScan_recorded scan cause
  have hw := Ev.settle_still (hr.arbiterDue.trans rfl) (hr.testDue.trans rfl)
  refine ⟨hw.intake.trans (Ev.faultScan_intake _ _ _), (hw.noticePending _).trans (Ev.faultScan_raises _ _ _), fun a hatt hc ho hh => ?_,
    fun a hl hlaw => ?_, hw.units.trans hr.units, hw.lines.trans hr.lines,
    hw.partGrants.trans hr.partGrants, hw.pointer.trans hr.pointer, hw.curves.trans hr.curves, hw.timing.trans hr.timing,
    hw.check.trans hr.check, hw.pending.trans hr.pending⟩
  rotate_left
  · have hgroups : (s.landed host).faultGroups scan = s.faultGroups scan := rfl
    have hstored := Ev.faultScan_stores (hl.landed host) hlaw rfl rfl scan cause
    rw [hgroups] at hstored
    exact hstored.of_landed
  have hlost : (s.landed host).faultRecorded scan cause = (s.landed host).loseRecord :=
    Ev.faultRecorded_lost (decide_eq_true hatt) hc ho hh scan cause
  have hport : ((s.landed host).faultScan scan cause).port = (s.landed host).loseRecord.port.raise .scanFault := by
    rw [Ev.faultScan_port, hlost]
  have hraised : ((s.landed host).loseRecord.raise .scanFault).noticePending .storeOverrun = true := by
    rw [Ev.noticePending_raise, Ev.loseRecord, Ev.noticePending_raise]
    simp
  refine ⟨(hw.noticePending _).trans ?_, by rw [hw.port, hport]; rfl, by rw [hw.port, hport]; rfl, by rw [hw.port, hport]; exact ho⟩
  unfold State.noticePending at hraised ⊢
  rw [hport]
  exact hraised

/-- An open scan is ended by an unreadable frame, and by its timeout. -/
theorem exec_endsScan (h : s.regionsInMemory = true) (hscan : s.intake.scan = some scan) (hset : s.intake.setting = .on)
    (ht : s.intake.scanTimer.isSome = true) :
    exec (.unreadableFrame host) s = .next ((s.landed host).faultScan scan .badFrame).settle.toState
      ∧ exec (.scanTimeout host) s = .next ((s.landed host).faultScan scan .timeout).settle.toState := by
  have hi : ((Ev.ofState s.writesDone).hostWrites host).intake = s.intake := rfl
  have hframe : exec (.unreadableFrame host) s = execUnreadableFrame host s := rfl
  have htimeout : exec (.scanTimeout host) s = execScanTimeout host s := rfl
  rw [hframe, htimeout, execUnreadableFrame, execScanTimeout, act_of_regionsInMemory h, act_of_regionsInMemory h]
  simp only [Ev.unreadable, hi, hset, hscan, ht, if_true]
  exact ⟨rfl, rfl⟩

/-- Settles O43: both ends close the scan as LINK FAULT, in one way. -/
theorem linkFaultsEndTheScan : Obligations.LinkFaultsEndTheScan := by
  unfold Obligations.LinkFaultsEndTheScan
  intro host s scan hmem hscan hset htimer c hc
  obtain ⟨hframe, htimeout⟩ := exec_endsScan (host := host) hmem hscan hset htimer
  have hexec : exec c.1 s = .next ((s.landed host).faultScan scan c.2).settle.toState := by
    rcases List.mem_pair.1 hc with rfl | rfl
    · exact hframe
    · exact htimeout
  have hf := s.landed_scanFaulted host scan c.2
  exact ⟨_, hexec, hf.intake, hf.raised, hf.lost, hf.stored, hf.units, hf.lines, hf.partGrants, hf.pointer, hf.curves, hf.timing, hf.check,
    hf.pending⟩

end Sys2Proof.Machine
end

