-- ==== Sys2Proof/Proofs/ScanFrames.lean ====
section
/-! PROOFS. The frames that open a scan and add a unit block to it (6.2, 6.6). -/

namespace Sys2Proof.Machine

open Decode

variable {d e : Ev} {s : State} {host : List HostWrite} {scan : OpenScan} {number : BitVec 16} {sheet : Sheet} {unit : BitVec 8}
  {entries : List Entry}

theorem unitOfNumber_eq_some {k : Nat} {u : UnitNo} : unitOfNumber k = some u ↔ k = u.number := by
  have hu := u.isLt
  unfold unitOfNumber UnitNo.number
  split
  · next h => rw [Option.some.injEq, Fin.ext_iff]; dsimp only; omega
  · next h => simp only [reduceCtorEq, false_iff]; omega

/-! ### SCAN OPEN -/

/-- The scan that a SCAN OPEN opens (R110). -/
def scanOpened (number : BitVec 16) (sheet : Sheet) : OpenScan :=
  { number := number, sheet := sheet, sum := checkSum (scanOpenWords number sheet), blocks := Vector.replicate 16 none }

theorem scanOpened_sum : (scanOpened number sheet).sum = BitVec.ofNat 32 (2 ^ 24 + number.toNat) + sheet := by
  have hn : number.toNat < 65536 := number.isLt
  have hw : field 24 8 1 + field 0 16 number.toNat = 2 ^ 24 + number.toNat := by
    simp only [field]
    omega
  simp [scanOpened, checkSum, scanOpenWords, wordOf, hw]

theorem scanOpened_blocks (u : UnitNo) : (scanOpened number sheet).blocks[u] = none := by simp [scanOpened]

theorem Ev.openScan_intake : (e.openScan number sheet).intake
    = { e.intake with setting := .on, scanTimer := some 500, scan := some (scanOpened number sheet) } := rfl

theorem Ev.scanOpen_recorded (e : Ev) (number : BitVec 16) (sheet : Sheet) : e.Recorded (e.scanOpen number sheet) := by
  unfold Ev.scanOpen
  split
  · exact .refl e
  · exact (Ev.Recorded.refl e).updIntake _
  · split
    · exact (e.faultScan_recorded _ _).updIntake _
    · exact (Ev.Recorded.refl e).updIntake _

/-- The intake ignores a SCAN OPEN, opens its scan, or ends the scan that is open as SECOND OPEN first (R110, R121, R122). -/
theorem Ev.scanOpen_off (h : e.intake.setting = .off) : e.scanOpen number sheet = e := by simp only [Ev.scanOpen, h]

theorem Ev.scanOpen_opens (h : e.intake.setting = .armed ∨ (e.intake.setting = .on ∧ e.intake.scan = none)) :
    e.scanOpen number sheet = e.openScan number sheet := by
  rcases h with h | ⟨h, k⟩
  · simp only [Ev.scanOpen, h]
  · simp only [Ev.scanOpen, h, k]

theorem Ev.scanOpen_second (h : e.intake.setting = .on) (k : e.intake.scan = some scan) :
    e.scanOpen number sheet = (e.faultScan scan .secondOpen).openScan number sheet := by simp only [Ev.scanOpen, h, k]

/-! ### UNIT BLOCK -/

theorem readableBlock_of_length (h1 : 1 ≤ entries.length) (h2 : entries.length ≤ 64) : readableBlock entries = true := by
  cases entries with
  | nil => cases h1
  | cons x l => rw [readableBlock, decide_eq_true h2]; rfl

theorem Ev.unitBlock_recorded (e : Ev) (hr : readableBlock entries = true) : e.Recorded (e.unitBlock unit entries) := by
  unfold Ev.unitBlock
  rw [hr]
  simp only [Bool.not_true, Bool.false_eq_true, if_false]
  split
  · exact .refl e
  · exact .refl e
  · split
    · exact (Ev.Recorded.refl e).updIntake _
    · exact (Ev.Recorded.refl e).updIntake _

theorem Ev.unitBlock_ignored (hr : readableBlock entries = true) (h : e.intake.setting = .off ∨ e.intake.setting = .armed) :
    e.unitBlock unit entries = e := by rcases h with h | h <;> simp [Ev.unitBlock, hr, h]

theorem Ev.unitBlock_idle (hr : readableBlock entries = true) (h : e.intake.setting = .on) (k : e.intake.scan = none) :
    e.unitBlock unit entries = e.countLinkFault := by simp [Ev.unitBlock, hr, h, k]

theorem Ev.unitBlock_added (hr : readableBlock entries = true) (h : e.intake.setting = .on) (k : e.intake.scan = some scan) :
    e.unitBlock unit entries = e.updIntake fun i => { i with scan := some (e.addBlock scan unit entries) } := by
  simp [Ev.unitBlock, hr, h, k]

theorem State.addBlock_stored {v : UnitNo} (hv : unit.toNat = v.number) (hd : (s.unit v).config.isSome = true) :
    s.addBlock scan unit entries
      = { scan with sum := scan.sum + checkSum (unitBlockWords unit entries), blocks := scan.blocks.set v (some entries) } := by
  unfold State.addBlock
  rw [unitOfNumber_eq_some.2 hv]
  exact if_pos hd

theorem State.addBlock_dropped (h : ∀ v : UnitNo, ¬(unit.toNat = v.number ∧ (s.unit v).config.isSome = true)) :
    s.addBlock scan unit entries = { scan with sum := scan.sum + checkSum (unitBlockWords unit entries) } := by
  unfold State.addBlock
  cases hu : unitOfNumber unit.toNat with
  | none => rfl
  | some v => exact if_neg fun k => h v ⟨unitOfNumber_eq_some.1 hu, k⟩

/-- What a block adds to a scan (R111). -/
theorem State.addBlock_added (s : State) (scan : OpenScan) (unit : BitVec 8) (entries : List Entry) :
    (s.addBlock scan unit entries).number = scan.number ∧ (s.addBlock scan unit entries).sheet = scan.sheet
      ∧ (s.addBlock scan unit entries).sum = scan.sum + checkSum (unitBlockWords unit entries)
      ∧ ∀ u : UnitNo, (s.addBlock scan unit entries).blocks[u]
        = if unit.toNat = u.number ∧ (s.unit u).config.isSome = true then some entries else scan.blocks[u] := by
  by_cases h : ∃ v : UnitNo, unit.toNat = v.number ∧ (s.unit v).config.isSome = true
  · obtain ⟨v, hv, hd⟩ := h
    rw [State.addBlock_stored hv hd]
    refine ⟨rfl, rfl, rfl, fun u => ?_⟩
    rcases eq_or_ne v u with rfl | huv
    · rw [if_pos ⟨hv, hd⟩]
      simp
    · have hne : v.val ≠ u.val := fun k => huv (Fin.ext k)
      rw [if_neg fun k => hne (Nat.succ.inj (hv.symm.trans k.1))]
      simp [hne]
  · have h' := not_exists.1 h
    rw [State.addBlock_dropped h']
    exact ⟨rfl, rfl, rfl, fun u => (if_neg (h' u)).symm⟩

/-! ### The commands -/

/-- What a frame that owes nothing has come to: the intake and the notices are the event's, and the rest of the machine is as it was. -/
structure State.FrameTaken (s t : State) (e : Ev) : Prop where
  intake : t.intake = e.intake
  notices : ∀ n, t.noticePending n = e.noticePending n
  units : t.units = s.units
  lines : t.lines = s.lines
  curves : t.curves = s.curves
  timing : t.timing = s.timing
  check : t.check = s.check

theorem Ev.Recorded.taken (h : (s.landed host).Recorded e) : s.FrameTaken e.settle.toState e :=
  have hw := Ev.settle_still (h.arbiterDue.trans rfl) (h.testDue.trans rfl)
  ⟨hw.intake, hw.noticePending, hw.units.trans h.units, hw.lines.trans h.lines, hw.curves.trans h.curves, hw.timing.trans h.timing,
    hw.check.trans h.check⟩

theorem exec_scanOpen (h : s.regionsInMemory = true) (host : List HostWrite) (number : BitVec 16) (sheet : Sheet) :
    ∃ t, exec (.scanOpen host number sheet) s = .next t ∧ s.FrameTaken t ((s.landed host).scanOpen number sheet) :=
  have hx : exec (.scanOpen host number sheet) s = .next ((s.landed host).scanOpen number sheet).settle.toState :=
    act_of_regionsInMemory h fun e => (e.hostWrites host).scanOpen number sheet
  ⟨_, hx, ((s.landed host).scanOpen_recorded number sheet).taken⟩

theorem exec_unitBlock (h : s.regionsInMemory = true) (hr : readableBlock entries = true) (unit : BitVec 8) :
    ∃ t, exec (.unitBlock unit entries) s = .next t ∧ s.FrameTaken t ((s.landed []).unitBlock unit entries) :=
  have hx : exec (.unitBlock unit entries) s = .next ((s.landed []).unitBlock unit entries).settle.toState :=
    act_landed h fun e => e.unitBlock unit entries
  ⟨_, hx, ((s.landed []).unitBlock_recorded hr).taken⟩

/-- Settles O41, by the intake setting and the scan state. -/
theorem scanFramesAssemble : Obligations.ScanFramesAssemble := by
  unfold Obligations.ScanFramesAssemble
  intro host s number sheet unit entries hmem h1 h64
  have hr := readableBlock_of_length h1 h64
  have hi : (s.landed host).intake = s.intake := rfl
  have hi' : (s.landed []).intake = s.intake := rfl
  obtain ⟨t, ho, wo⟩ := exec_scanOpen hmem host number sheet
  obtain ⟨t', hb, wb⟩ := exec_unitBlock hmem hr unit
  refine ⟨t, t', ho, hb, fun h => ⟨?_, ?_⟩, fun h => ?_, fun h => ?_, fun h k => ?_, fun scan h k => ⟨?_, ?_⟩,
    wo.units, wo.lines, wo.curves, wo.timing, wo.check, wb.units, wb.lines, wb.curves, wb.timing, wb.check⟩
  · rw [wo.intake, Ev.scanOpen_off (hi ▸ h), hi]
  · rw [wb.intake, Ev.unitBlock_ignored hr (.inl (hi' ▸ h)), hi']
  · rw [wb.intake, Ev.unitBlock_ignored hr (.inr (hi' ▸ h)), hi']
  · rw [wo.intake, Ev.scanOpen_opens (hi ▸ h), Ev.openScan_intake, hi]
    exact ⟨rfl, rfl, rfl, rfl, rfl, _, rfl, rfl, rfl, scanOpened_sum, scanOpened_blocks⟩
  · rw [wb.intake, Ev.unitBlock_idle hr (hi' ▸ h) (hi' ▸ k)]
    rfl
  · rw [wb.intake, Ev.unitBlock_added hr (hi' ▸ h) (hi' ▸ k)]
    obtain ⟨a1, a2, a3, a4⟩ := (s.landed []).addBlock_added scan unit entries
    exact ⟨_, rfl, a1, a2, a3, a4⟩
  · have hfault := Ev.faultScan_raises (s.landed host) scan .secondOpen
    rw [wo.intake, wo.notices, Ev.scanOpen_second (hi ▸ h) (hi ▸ k), Ev.openScan_intake, Ev.faultScan_intake, hi]
    exact ⟨rfl, rfl, hfault, _, rfl, rfl⟩

end Sys2Proof.Machine
end

