-- ==== Sys2Proof/Proofs/Completions.lean ====
section
/-! PROOFS. What the end of an event leaves of the order it has started: the arbiter makes zones MOVING alone, and a completion test leaves
the slot of an order that is not complete (R12, R176). -/

namespace Sys2Proof.Machine

variable {U : UnitNo → Prop} {K : Nat → Prop} {d e f : Ev} {s t : State} {u v : UnitNo} {n : LineNo} {z y : ZoneNo} {a : Anchor}
  {o : OrderRecord} {k x : Nat} {st : Status} {w : Detail}

/-! ### The arbiter -/

/-- Zones have moved on: on a line in service one may have become MOVING. -/
def State.MovedOn (s t : State) : Prop :=
  ∀ v y, t.zone v y = s.zone v y ∨ ((s.line v).inService = true ∧ (t.zone v y).state = .moving)

theorem State.MovedOn.refl (s : State) : s.MovedOn s := fun _ _ => .inl rfl

theorem Line.SameService.inService {l l' : Line} (h : l.SameService l') : l'.inService = l.inService := by
  unfold Line.inService
  rw [h.power, h.stopTaken]

theorem State.MovedOn.trans {r : State} (h : r.MovedOn s) (k : s.MovedOn t) (hs : ∀ n, (r.line n).SameService (s.line n)) : r.MovedOn t :=
  fun v y => by
    rcases k v y with j | ⟨j1, j2⟩
    · rw [j]
      exact h v y
    · exact .inr ⟨(hs v).inService ▸ j1, j2⟩

theorem Ev.grant_movedOn (h : (e.line n).inService = true) : e.toState.MovedOn (e.grant n).toState := fun v y => by
  cases hl : (e.line n).pendingList with
  | nil =>
    have hg : e.grant n = e := by unfold Ev.grant; rw [hl]
    exact .inl (by rw [hg])
  | cons p l =>
    by_cases j : n = v ∧ p.zone = y
    · obtain ⟨rfl, rfl⟩ := j
      refine .inr ⟨h, ?_⟩
      have hstate : ((e.counted n p.zone).zone n p.zone).state = .moving := by
        rw [Ev.counted_zone]
        exact Ev.changeState_self _ _ _ _
      rw [Ev.grant_eq hl]
      cases p.kind with
      | position =>
        dsimp only
        rw [Ev.sendMove_zone, if_pos ⟨rfl, rfl⟩]
        exact hstate
      | zero =>
        dsimp only
        rw [Ev.sendZero_zone, if_pos ⟨rfl, rfl⟩]
        exact hstate
    · exact .inl ((Ev.grant_granted hl).otherZone v y j)

theorem State.eligible_inService (h : s.eligible n = true) : (s.line n).inService = true := by
  simp only [State.eligible, Bool.and_eq_true] at h
  obtain ⟨⟨⟨⟨_, hserve⟩, _⟩, _⟩, _⟩ := h
  exact hserve

theorem Ev.grantRounds_movedOn (k : Nat) : e.toState.MovedOn (Ev.grantRounds k e).toState := by
  induction k generalizing e with
  | zero => exact .refl _
  | succ k ih =>
    unfold Ev.grantRounds
    split
    · next n hn =>
      exact (Ev.grant_movedOn (State.eligible_inService (List.find?_some hn))).trans ih (Ev.grantsOnly_grant n).line
    · exact .refl _

theorem Ev.settleArbiter_movedOn : e.toState.MovedOn e.settleArbiter.toState := by
  unfold Ev.settleArbiter
  split
  · exact Ev.grantRounds_movedOn e.waitingZones
  · exact .refl _

theorem Ev.settle_movedOn : e.toState.MovedOn e.settle.toState := fun v y => by
  have h : e.settleArbiter.EndsOnly e.settle := (Ev.EndsOnly.refl _).runTests.flush
  rw [h.zone]
  exact Ev.settleArbiter_movedOn v y

/-- An event that owes no arbiter run leaves the zones. -/
theorem Ev.settle_zone (h : e.arbiterDue = false) (v : UnitNo) (y : ZoneNo) : e.settle.zone v y = e.zone v y := by
  have hs : e.settleArbiter = e := by rw [Ev.settleArbiter, h]; rfl
  have hend : e.settleArbiter.EndsOnly e.settle := (Ev.EndsOnly.refl _).runTests.flush
  rw [hend.zone, hs]

/-- A line that is not in service is given nothing. -/
theorem Ev.settle_zone_of_not_inService (h : (e.line v).inService = false) (y : ZoneNo) : e.settle.zone v y = e.zone v y := by
  rcases e.settle_movedOn v y with j | ⟨j, _⟩
  · exact j
  · rw [h] at j
    cases j

/-! ### The completion tests -/

/-- The unit's tracked order is complete. -/
def UnitRec.completes (r : UnitRec) : Bool := r.tracked.any fun o => o.complete r

theorem Ev.testOrder_eq : e.testOrder u = if (e.unit u).completes then
    e.endTracked u (((e.unit u).tracked.map fun o => o.doneStatus (e.unit u)).getD .done) .none else e := by
  unfold Ev.testOrder UnitRec.completes
  cases (e.unit u).tracked <;> rfl

theorem Ev.testOrder_unit : (e.testOrder u).unit v
    = if u = v ∧ (e.unit u).completes = true then { e.unit v with tracked := none } else e.unit v := by
  rw [Ev.testOrder_eq]
  split
  · next h =>
    rw [(Ev.endTracked_clearing _ _ _ _).unit]
    simp [h]
  · next h => rw [if_neg fun k => h k.2]

theorem Ev.writeStatus_leaves (hw : Memory.wf e.mem = true) (hc : e.port.anchor = some a) (hx : x ≠ a.slotWord k 14 ∧ x ≠ a.slotWord k 15) :
    Memory.wf (e.writeStatus k st w).mem = true ∧ Memory.read (e.writeStatus k st w).mem x = Memory.read e.mem x := by
  unfold Ev.writeStatus
  split
  · next b _ hb =>
    obtain rfl : a = b := Option.some.inj (hc.symm.trans hb)
    have h1 := Memory.write_wf e.mem (a.slotWord k 15) [detailWord w] hw
    refine ⟨Memory.write_wf _ _ _ h1, (Memory.read_write_outside _ _ _ _ h1 ?_).trans (Memory.read_write_outside _ _ _ _ hw ?_)⟩
    · simp only [List.length_singleton]; omega
    · simp only [List.length_singleton]; omega
  · exact ⟨hw, rfl⟩

/-- A test leaves the slots of orders that are not complete. -/
theorem Ev.testOrder_leaves (hw : Memory.wf e.mem = true) (hc : e.port.anchor = some a)
    (hk : ∀ o, (e.unit u).tracked = some o → o.complete (e.unit u) = true → o.slot ≠ k) (h15 : x ≠ 15)
    (hx : x = a.slotWord k 14 ∨ x = a.slotWord k 15) :
    Memory.wf (e.testOrder u).mem = true ∧ (e.testOrder u).port.anchor = some a ∧ Memory.read (e.testOrder u).mem x = Memory.read e.mem x := by
  unfold Ev.testOrder
  split
  · next o ho =>
    split
    · next hcomplete =>
      rw [Ev.endTracked_some ho]
      have hanchor := ((e.clearTracked u).endSlot_ended o (o.doneStatus (e.unit u)) (o.finalDetail (e.unit u) .none)).port.anchor
      obtain ⟨h1, h2⟩ := Ev.writeStatus_leaves (e := e.clearTracked u) (st := o.doneStatus (e.unit u)) (w := o.finalDetail (e.unit u) .none)
        hw hc (Anchor.slotWords_apart (hk o ho hcomplete) hx)
      obtain ⟨h3, _, h4⟩ := Ev.slotFinal_words o.slot o.notify h1
      exact ⟨h3, hanchor.trans hc, (h4 x h15).trans h2⟩
    · exact ⟨hw, hc, rfl⟩
  · exact ⟨hw, hc, rfl⟩

/-- The tests leave the slots, and the orders, that are not complete. -/
theorem Ev.runTests_leaves (hl : e.toState.Linked a) (hk : k < a.ringLength)
    (hfree : ∀ v o, (e.unit v).tracked = some o → o.complete (e.unit v) = true → o.slot ≠ k)
    (hx : x = a.slotWord k 14 ∨ x = a.slotWord k 15) : Memory.read e.runTests.mem x = Memory.read e.mem x := by
  have h15 : x ≠ 15 := by
    obtain ⟨p1, _, _⟩ := hl.slot_apart hk
    have h : a.slotWord k 15 = a.slotWord k 14 + 1 := rfl
    omega
  have htests (l : List UnitNo) : ∀ g : Ev, Memory.wf g.mem = true → g.port.anchor = some a →
      (∀ v o, (g.unit v).tracked = some o → o.complete (g.unit v) = true → o.slot ≠ k) →
      Memory.read (l.foldl (fun e u => e.testOrder u) g).mem x = Memory.read g.mem x := by
    induction l with
    | nil => exact fun _ _ _ _ => rfl
    | cons u l ih =>
      intro g hw hc hg
      obtain ⟨h1, h2, h3⟩ := Ev.testOrder_leaves hw hc (hg u) h15 hx
      rw [List.foldl_cons]
      refine (ih _ h1 h2 fun v o ho hcomplete => ?_).trans h3
      rw [Ev.testOrder_unit] at ho hcomplete
      split at ho
      · cases ho
      · next j =>
        rw [if_neg j] at hcomplete
        exact hg v o ho hcomplete
  exact htests _ e hl.wf hl.anchor hfree

theorem Ev.runTests_unit (h : (e.unit v).completes = false) : e.runTests.unit v = e.unit v := by
  have htests (l : List UnitNo) : ∀ g : Ev, g.unit v = e.unit v → (l.foldl (fun e u => e.testOrder u) g).unit v = e.unit v := by
    induction l with
    | nil => exact fun _ hg => hg
    | cons u l ih =>
      intro g hg
      rw [List.foldl_cons]
      refine ih _ ?_
      rw [Ev.testOrder_unit, if_neg, hg]
      rintro ⟨rfl, j⟩
      rw [hg, h] at j
      cases j
  exact htests _ e rfl

end Sys2Proof.Machine
end

