-- ==== Sys2Proof/Proofs/StaleEntries.lean ====
section
/-! PROOFS. Two statements fail in a state outside the law of 3.1. A TRIM that drives a zone away from its position and back again has left
it REST, and has owed the arbiter a run on the way. The run grants the front of the pending list: where the list still holds an entry of a
zone that is REST, and that zone is named by the TRIM, the order is DONE with a zone of its own MOVING. -/

namespace Sys2Proof.Machine

open Decode

variable {s t : State} {u : UnitNo} {z : ZoneNo} {k : Nat} {zones : List ZoneNo} {waits : Bool} {counts : Counts} {openStatus st : Status} {x : Detail}

/-- On a line in service, an order with a zone MOVING is tracked. -/
theorem State.StartShows.tracked_of_moving (h : t.StartShows u k zones waits counts openStatus st x) (hs : (t.line u).inService = true)
    (hz : z ∈ zones) (hm : (t.zone u z).state = .moving) : ∃ o, (t.unit u).tracked = some o := by
  unfold State.StartShows at h
  have hnot : ¬((∀ z ∈ zones, (t.zone u z).state = .rest ∨ (t.zone u z).state = .held ∨ (t.zone u z).state = .faulted) ∧ waits = false) := by
    rintro ⟨k, _⟩
    have := k z hz
    rw [hm] at this
    rcases this with j | j | j <;> cases j
  rw [if_neg (by rw [hs]; decide), if_neg hnot] at h
  obtain ⟨_, _, o, ho, _⟩ := h
  exact ⟨o, ho⟩

/-! ### The state -/

/-- An anchor whose ring stands behind the anchor's own words. -/
def staleAnchor : Anchor where
  ringBase := 16
  ringLength := 16
  mirrorBase := 272
  statusBase := 60000
  storeBase := 2416
  segments := 2
  segmentSize := 1100
  scanInterval := 10
  driveBudget := 8
  noticeMask := 1023

/-- A unit of two zones. -/
def staleConfig : UnitConfig where
  zoneCount := 2
  pitch := 200
  curve := 0
  spread := 200
  sweepMode := .fixed
  fixedSweep := 400
  sMin := 300
  oCap := 700
  oMin := 30
  oMax := 900
  idleThreshold := 300
  idleOpening := 20
  tolerance := 5
  lineBudget := 2
  moveTimeout := 4000

/-- A zone that rests at its target. -/
def zoneAtTarget : Zone := { Zone.reset with state := .rest, plan := some 300, target := some 300, position := some 300 }

/-- Both zones rest at their targets. -/
def staleUnit : UnitRec :=
  { UnitRec.reset with
    config := some staleConfig
    zones := Vector.ofFn fun z : ZoneNo => if z.val < 2 then zoneAtTarget else Zone.reset }

/-- The line is in service, and lists zone 2, which rests. -/
def staleLine : Line := { Line.reset with power := .on, pendingList := [⟨1, .position⟩] }

/-- Zone 1 by +100 and by −100, and zone 2 by 1. -/
def stalePairs : List (ZoneNo × Int) := [(0, 100), (0, -100), (1, 1)]

/-- The order of these pairs, in slot 5. -/
def staleOrder : OrderRecord where
  slot := 5
  notify := false
  kind := .trim stalePairs
  zones := [0, 1]
  fountainWait := false
  counts := Counts.zero

/-- An ATTACHED part with unit 7 so. -/
def stale : State :=
  { State.reset with
    units := State.reset.units.set 6 staleUnit
    lines := State.reset.lines.set 6 staleLine
    port := { Port.reset with state := .attached, anchor := some staleAnchor, putValid := 1 } }

/-- With the TRIM in slot 0, due to be taken. -/
def staleTaking : State := { stale with mem := Memory.write stale.mem 16 [0x70E, 0, 0, 0x00640001, 0xFF9C0001, 0x00010002] }

/-- With the TRIM waiting, and released. -/
def staleWaiting : State :=
  { stale with
    units := State.reset.units.set 6 { staleUnit with waiting := some { order := staleOrder, atSheet := 100, released := true } } }

/-! ### What the model does -/

/-- The outcome is a next state of which this holds. -/
def nextShows (c : Instr) (s : State) (p : State → Bool) : Bool :=
  match exec c s with
  | .next t => p t
  | .fault _ => false
  | .refused _ => false

theorem nextShows_next {c : Instr} {p : State → Bool} (h : nextShows c s p = true) (ht : exec c s = .next t) : p t = true := by
  unfold nextShows at h
  rwa [ht] at h

/-- The order has gone, while zone 2 is MOVING on a line in service. -/
def gone (t : State) : Bool := (t.unit 6).tracked.isNone && ((t.zone 6 1).state == .moving && (t.line 6).inService)

theorem gone_iff : gone t = true ↔ (t.unit 6).tracked = none ∧ (t.zone 6 1).state = .moving ∧ (t.line 6).inService = true := by
  simp [gone]

theorem not_startShows_of_gone (h : gone t = true) (hz : 1 ∈ zones) : ¬t.StartShows 6 k zones waits counts openStatus st x := fun j => by
  obtain ⟨h1, h2, h3⟩ := gone_iff.1 h
  obtain ⟨o, ho⟩ := j.tracked_of_moving h3 hz h2
  rw [h1] at ho
  cases ho

theorem staleTaking_gone : nextShows (.trim []) staleTaking gone = true := by decide +kernel

theorem staleWaiting_gone : nextShows (.waitingOrderStart 6) staleWaiting gone = true := by decide +kernel

theorem staleTaking_due : staleTaking.Due [] staleAnchor (staleTaking.dueSlot [] staleAnchor) where
  attached := rfl
  anchor := rfl
  inMemory := by decide
  disjoint := by decide
  wf := by decide
  inRing := by decide
  free := by decide +kernel
  due := by decide
  holds := rfl

/-- Refutes O26: zone 2 has an entry in the pending list, but is REST. The TRIM drives zone 1 away and back, for which the arbiter runs and
grants to zone 2; the order is DONE, while zone 2, which it names, is MOVING. -/
theorem not_trimMovesTheOffsets : ¬Obligations.TrimMovesTheOffsets := by
  intro h
  obtain ⟨_, hpairs⟩ := h [] staleTaking staleAnchor (staleTaking.dueSlot [] staleAnchor) 6 staleConfig staleTaking_due (by decide +kernel)
    (by decide +kernel) (by decide +kernel)
  obtain ⟨_, _, hstarts⟩ := hpairs stalePairs (by decide +kernel)
  obtain ⟨t, ht, _, ⟨st, x, _, hshows, _⟩, _⟩ := hstarts (by decide +kernel) (by decide +kernel)
  exact not_startShows_of_gone (nextShows_next staleTaking_gone ht) (by decide) hshows

/-- Refutes O32, with the same TRIM as a waiting order. -/
theorem not_waitingOrderStarts : ¬Obligations.WaitingOrderStarts := by
  intro h
  have hlinked : staleWaiting.Linked staleAnchor := ⟨rfl, rfl, by decide, by decide, by decide⟩
  obtain ⟨t, ht, _, _, htrim, _⟩ := h staleWaiting 6 { order := staleOrder, atSheet := 100, released := true } staleConfig (by decide +kernel)
    (by decide +kernel) rfl (by decide +kernel)
  obtain ⟨_, hstarted⟩ := htrim stalePairs rfl
  obtain ⟨st, x, _, hshows⟩ := hstarted staleAnchor hlinked (by decide) (by decide +kernel)
  exact not_startShows_of_gone (nextShows_next staleWaiting_gone ht) (by decide) hshows

end Sys2Proof.Machine
end

