-- ==== Sys2Proof/Proofs/StartedOrders.lean ====
section
/-! PROOFS. An order that starts at its take: the pass that it makes, the status that its slot shows, and what the end of the event leaves
of both (R170, R171, R176, R177). -/

namespace Sys2Proof.Machine

open Decode

variable {U : UnitNo → Prop} {K : Nat → Prop} {d e f g : Ev} {s t : State} {u v : UnitNo} {y z : ZoneNo} {a : Anchor} {o p : OrderRecord}
  {host : List HostWrite} {slot : Slot} {k : Nat} {st openStatus : Status} {x : Detail}

/-! ### The event of a start -/

/-- The event once the order has made its pass. -/
def Ev.passed (e : Ev) (u : UnitNo) (o : OrderRecord) : Ev :=
  (({ e with raised := 0, lowered := 0, saturated := 0 } : Ev).updUnit u fun r => { r with waiting := none }).startPass u o.kind

/-- The order as the unit follows it from its start. -/
def OrderRecord.started (o : OrderRecord) (e : Ev) (u : UnitNo) : OrderRecord :=
  { o.counted e with fountainWait := e.fountainWaits u o.kind }

/-- An event that follows an order, or has ended it. -/
def Ev.follow (e : Ev) (u : UnitNo) (o : Option OrderRecord) : Ev := e.updUnit u fun r => { r with tracked := o }

theorem Ev.startOrder_eq (e : Ev) (u : UnitNo) (o : OrderRecord) : e.startOrder u o = (e.passed u o).follow u (some (o.started (e.passed u o) u)) :=
  rfl

theorem Ev.follow_unit (e : Ev) (u v : UnitNo) (o : Option OrderRecord) :
    (e.follow u o).unit v = if u = v then { e.unit v with tracked := o } else e.unit v := Ev.updUnit_unit _ _ _ _

theorem Ev.follow_zone (e : Ev) (u v : UnitNo) (o : Option OrderRecord) (y : ZoneNo) : (e.follow u o).zone v y = e.zone v y := by
  show ((e.follow u o).unit v).zones[y] = (e.unit v).zones[y]
  rw [Ev.follow_unit]
  split <;> rfl

theorem Ev.closeStart_follow (e : Ev) (u : UnitNo) (o : OrderRecord) (st : Status) :
    (e.follow u (some o)).closeStart u st = if st.final then (e.follow u (some o)).follow u none else e.follow u (some o) := rfl

/-- The status that an order with this record shows after its start (R170, R176, R177). -/
theorem Ev.startOutcome_follow (e : Ev) (u : UnitNo) (o q : OrderRecord) (openStatus : Status) :
    (e.follow u (some q)).toState.startOutcome u o openStatus = e.toState.startOutcome u o openStatus := by
  have hunit : (e.follow u (some q)).unit u = { e.unit u with tracked := some q } := by rw [Ev.follow_unit, if_pos rfl]
  unfold State.startOutcome
  rw [hunit]
  rfl

theorem Ev.startNow_eq (e : Ev) (u : UnitNo) (slot : Slot) (o : OrderRecord) :
    let q := o.started (e.passed u o) u
    let r := (e.passed u o).toState.startOutcome u q .accepted
    e.startNow u slot o = (((e.passed u o).follow u (some q)).closeStart u r.1).finish slot r.1 r.2 := by
  intro q r
  have htracked : ((e.startOrder u o).unit u).tracked = some q := by
    rw [Ev.startOrder_eq, Ev.follow_unit, if_pos rfl]
  unfold Ev.startNow
  dsimp only
  rw [htracked]
  dsimp only
  rw [Ev.startOrder_eq, Ev.startOutcome_follow]

/-! ### The status shown -/

theorem UnitRec.faultedAmong_pos (r : UnitRec) (zones : List ZoneNo) : 0 < r.faultedAmong zones ↔ ∃ z ∈ zones, (r.zones[z]).state = .faulted := by
  simp [UnitRec.faultedAmong, List.countP_pos_iff]

theorem ZoneState.settled_iff (q : ZoneState) : q.settled = true ↔ q = .rest ∨ q = .held ∨ q = .faulted := by cases q <;> decide

theorem OrderRecord.doneStatus_eq (o : OrderRecord) (r : UnitRec) : o.doneStatus r
    = if (∃ z ∈ o.zones, (r.zones[z]).state = .faulted) ∨ r.sweepFault = true then .doneWithFaults else .done := by
  unfold OrderRecord.doneStatus
  simp only [UnitRec.faultedAmong_pos]

theorem OrderRecord.doneStatus_final (o : OrderRecord) (r : UnitRec) : (o.doneStatus r).final = true := by
  unfold OrderRecord.doneStatus
  split <;> rfl

theorem OrderRecord.deferredCause_eq (o : OrderRecord) (r : UnitRec) :
    o.deferredCause r = if ∃ z ∈ o.zones, (r.zones[z]).state = .pending then .movesDeferred else .none := by
  unfold OrderRecord.deferredCause
  simp only [List.any_eq_true, beq_iff_eq]

theorem OrderRecord.complete_iff (hw : o.kind.isWork = true) (r : UnitRec) : o.complete r = true
    ↔ (∀ z ∈ o.zones, (r.zones[z]).state = .rest ∨ (r.zones[z]).state = .held ∨ (r.zones[z]).state = .faulted) ∧ o.fountainWait = false := by
  simp only [OrderRecord.complete, hw, Bool.true_and, Bool.and_eq_true, List.all_eq_true, ZoneState.settled_iff, Bool.not_eq_true']

/-- Completeness is lost with a zone that is MOVING, and depends on no order. -/
theorem OrderRecord.complete_of_movedOn {r r' : UnitRec} (h : o.complete r = false)
    (hz : ∀ z ∈ o.zones, (r'.zones[z]).state = (r.zones[z]).state ∨ (r'.zones[z]).state = .moving) : o.complete r' = false := by
  by_contra j
  rw [Bool.not_eq_false, OrderRecord.complete, Bool.and_eq_true, Bool.and_eq_true, List.all_eq_true] at j
  obtain ⟨⟨j1, j2⟩, j3⟩ := j
  have hr : o.complete r = true := by
    rw [OrderRecord.complete, j1, j3, Bool.true_and, Bool.and_true, List.all_eq_true]
    intro z hz'
    have h2 := j2 z hz'
    rcases hz z hz' with k | k
    · rwa [k] at h2
    · rw [k] at h2
      cases h2
  rw [hr] at h
  cases h

/-- What the end of an event has left of a unit, its zones having moved on. -/
structure Ev.EndsIn (e : Ev) (u : UnitNo) (t : State) : Prop where
  movedOn : e.toState.MovedOn t
  still : e.arbiterDue = false → ∀ v y, t.zone v y = e.zone v y
  service : ∀ n, (e.line n).SameService (t.line n)
  settings : ∀ v, (e.unit v).SameSettings (t.unit v)
  aims : ∀ v y, (e.zone v y).SameAims (t.zone v y)
  arbitrated : e.toState.pendingLawful → e.toState.Arbitrated t

/-- The order shows how it stands, in the state in which the event has ended. -/
theorem Ev.EndsIn.startShows (h : e.EndsIn u t) (hw : o.kind.isWork = true) (hopen : openStatus.final = false)
    (hpend : e.arbiterDue = true → ∃ z ∈ o.zones, (e.zone u z).state = .pending)
    (htracked : (t.unit u).tracked = if (e.toState.startOutcome u o openStatus).1.final then none else some o) :
    t.StartShows u o.slot o.zones o.fountainWait o.counts openStatus (e.toState.startOutcome u o openStatus).1
      (e.toState.startOutcome u o openStatus).2 := by
  have hserve : (t.line u).inService = (e.line u).inService := (h.service u).inService
  have hfault : (t.unit u).sweepFault = (e.unit u).sweepFault := (h.settings u).sweepFault
  have hcounted : ∀ cause : Cause, o.finalDetail (e.unit u) cause = { o.openDetail with
      code := cause.code, zonesFaulted := (e.unit u).faultedAmong o.zones, sweepFault := (e.unit u).sweepFault } := fun cause => if_pos hw
  unfold State.startOutcome at htracked ⊢
  unfold State.StartShows
  dsimp only at htracked ⊢
  rw [hserve, hfault]
  cases hs : (e.line u).inService with
  | false =>
    have hz : ∀ y, t.zone u y = e.zone u y := fun y => by
      rcases h.movedOn u y with j | ⟨j, _⟩
      · exact j
      · rw [hs] at j
        cases j
    rw [hs] at htracked
    simp only [Bool.not_false, if_true, OrderRecord.doneStatus_final] at htracked ⊢
    simp only [hz]
    exact ⟨o.doneStatus_eq _, by rw [hcounted, OrderRecord.deferredCause_eq]; rfl, htracked⟩
  | true =>
    rw [hs] at htracked
    simp only [Bool.not_true, Bool.false_eq_true, if_false, Bool.true_eq_false] at htracked ⊢
    cases hc : o.complete (e.unit u) with
    | true =>
      obtain ⟨hsettled, hwait⟩ := (OrderRecord.complete_iff hw _).1 hc
      have hdue : e.arbiterDue = false := by
        by_contra j
        obtain ⟨z, hz, hp⟩ := hpend (by simpa using j)
        have hz' := hsettled z hz
        change (e.zone u z).state = _ ∨ (e.zone u z).state = _ ∨ (e.zone u z).state = _ at hz'
        rw [hp] at hz'
        rcases hz' with i | i | i <;> cases i
      have hz := h.still hdue u
      rw [hc] at htracked
      simp only [if_true, OrderRecord.doneStatus_final] at htracked ⊢
      simp only [hz]
      rw [if_pos ⟨hsettled, hwait⟩]
      exact ⟨o.doneStatus_eq _, hcounted .none, htracked⟩
    | false =>
      rw [hc] at htracked
      simp only [Bool.false_eq_true, if_false, hopen] at htracked ⊢
      have hnot : o.complete (t.unit u) = false := OrderRecord.complete_of_movedOn hc fun z _ => by
        rcases h.movedOn u z with j | ⟨_, j⟩
        · exact .inl (congrArg Zone.state j)
        · exact .inr j
      rw [if_neg fun j => by rw [(OrderRecord.complete_iff hw (t.unit u)).2 j] at hnot; cases hnot]
      exact ⟨trivial, rfl, o, htracked, rfl⟩

/-! ### The end of the event -/

/-- An event that has changed nothing but the order that the unit follows. -/
structure Ev.Following (u : UnitNo) (q : Option OrderRecord) (e f : Ev) : Prop where
  unit : ∀ v, f.unit v = if u = v then { e.unit v with tracked := q } else e.unit v
  lines : f.lines = e.lines
  arbiter : f.arbiterDue = e.arbiterDue

namespace Ev.Following

variable {q : Option OrderRecord}

theorem zone (h : e.Following u q f) (v : UnitNo) (y : ZoneNo) : f.zone v y = e.zone v y := by
  show (f.unit v).zones[y] = (e.unit v).zones[y]
  rw [h.unit]
  split <;> rfl

theorem line (h : e.Following u q f) (n : LineNo) : f.line n = e.line n := congrArg (fun ls : Vector Line 16 => ls[n]) h.lines

theorem settings (h : e.Following u q f) (v : UnitNo) : (e.unit v).SameSettings (f.unit v) := by
  rw [h.unit]
  split
  · exact ⟨rfl, rfl, rfl, rfl, rfl, rfl, rfl⟩
  · exact .refl _

theorem pendingLawful (h : e.Following u q f) (k : e.toState.pendingLawful) : f.toState.pendingLawful := fun v y => by
  rw [h.line, h.zone]
  exact k v y

theorem endsIn (h : e.Following u q f) : e.EndsIn u f.settle.toState where
  movedOn v y := by
    rcases f.settle_movedOn v y with j | ⟨j1, j2⟩
    · exact .inl (j.trans (h.zone v y))
    · exact .inr ⟨by rwa [h.line] at j1, j2⟩
  still hd v y := (Ev.settle_zone (h.arbiter.trans hd) v y).trans (h.zone v y)
  service n := by
    have hs := f.settle_settled.line n
    rwa [h.line] at hs
  settings v := by
    have hs := f.settle_settled
    exact (h.settings v).trans ⟨hs.config v, hs.currentSweep v, hs.loopOn v, hs.loopParams v, hs.waiting v, hs.staged v, hs.sweepFault v⟩
  aims v y := by
    have hs := f.settle_settled.zone v y
    rwa [h.zone] at hs
  arbitrated hp v y := (State.ArbitratedAt.of_same (h.zone v y) (by rw [h.line])).trans (Ev.settle_arbitrated (h.pendingLawful hp) v y)

/-- The order that the unit follows stays, where it is not complete. -/
theorem tracked (h : e.Following u q f) (hq : ∀ o, q = some o → o.complete (e.unit u) = false) : (f.settle.unit u).tracked = q := by
  have hself : f.unit u = { e.unit u with tracked := q } := by rw [h.unit, if_pos rfl]
  have hA : (f.settleArbiter.unit u).tracked = q := by rw [((Ev.grantsOnly_settleArbiter).unit u).tracked, hself]
  have hC : (f.settleArbiter.unit u).completes = false := by
    unfold UnitRec.completes
    rw [hA]
    cases q with
    | none => rfl
    | some o =>
      refine OrderRecord.complete_of_movedOn (hq o rfl) fun z _ => ?_
      rcases f.settleArbiter_movedOn u z with j | ⟨_, j⟩
      · exact .inl (congrArg Zone.state (j.trans (h.zone u z)))
      · exact .inr j
  have hflush := (f.settleArbiter.runTests).flush_blocks.units
  show (f.settle.units[u]).tracked = q
  rw [Ev.settle, hflush]
  show (f.settleArbiter.runTests.unit u).tracked = q
  rw [Ev.runTests_unit hC, hA]

end Ev.Following

/-! ### The take of an order that starts -/

theorem State.startOutcome_open (h : (s.startOutcome u o openStatus).1.final = false) :
    o.complete (s.unit u) = false := by
  unfold State.startOutcome at h
  dsimp only at h
  split at h
  · rw [OrderRecord.doneStatus_final] at h
    cases h
  · split at h
    · rw [OrderRecord.doneStatus_final] at h
      cases h
    · next hc => simpa using hc

/-- The event that follows the order that has started, or has ended it already. -/
def Ev.opened (e : Ev) (u : UnitNo) (o : OrderRecord) (openStatus : Status) : Ev :=
  (e.follow u (some o)).closeStart u (e.toState.startOutcome u o openStatus).1

/-- The order that the unit follows after the start. -/
def State.opens (s : State) (u : UnitNo) (o : OrderRecord) (openStatus : Status) : Option OrderRecord :=
  if (s.startOutcome u o openStatus).1.final then none else some o

theorem Ev.opened_following (e : Ev) (u : UnitNo) (o : OrderRecord) (openStatus : Status) :
    e.Following u (e.toState.opens u o openStatus) (e.opened u o openStatus) := by
  unfold Ev.opened State.opens
  rw [Ev.closeStart_follow]
  split
  · refine ⟨fun v => ?_, rfl, rfl⟩
    rw [Ev.follow_unit, Ev.follow_unit]
    split <;> rfl
  · exact ⟨fun v => Ev.follow_unit e u v _, rfl, rfl⟩

theorem Ev.Following.ended {q : Option OrderRecord} (h : e.Following u q f) (k : f.TakeEnded g) : e.Following u q g :=
  ⟨fun v => (k.unit v).trans (h.unit v), k.lines.trans h.lines, k.arbiterDue.trans h.arbiter⟩

theorem Ev.opened_goes (h : d.Goes (· = u) K e) (ho : K o.slot) (openStatus : Status) : d.Goes (· = u) K (e.opened u o openStatus) := by
  have hfollow : d.Goes (· = u) K (e.follow u (some o)) := by
    refine h.updUnit u _ (fun k => absurd rfl k) (fun _ => rfl) rfl fun k hk => ?_
    rcases List.mem_append.1 hk with j | j
    · simp only [Option.map_some, Option.toList_some, List.mem_singleton] at j
      exact .inr (j ▸ ho)
    · exact .inl (List.mem_append_right _ j)
  unfold Ev.opened
  rw [Ev.closeStart_follow]
  split
  · exact hfollow.clearTracked u
  · exact hfollow

theorem Ev.opened_mem (e : Ev) (u : UnitNo) (o : OrderRecord) (openStatus : Status) :
    (e.opened u o openStatus).mem = e.mem ∧ (e.opened u o openStatus).mirrorDue = e.mirrorDue ∧ (e.opened u o openStatus).port = e.port := by
  unfold Ev.opened
  rw [Ev.closeStart_follow]
  split <;> exact ⟨rfl, rfl, rfl⟩

/-- The order that the unit follows from its start is not complete. -/
theorem State.opens_incomplete (h : s.opens u o openStatus = some p) : p.complete (s.unit u) = false := by
  unfold State.opens at h
  split at h
  · cases h
  · next k =>
    obtain rfl := Option.some.inj h
    exact State.startOutcome_open (by simpa using k)

/-- What the take of an order that starts leaves. -/
structure State.StartTaken (s : State) (host : List HostWrite) (a : Anchor) (u : UnitNo) (e : Ev) (o : OrderRecord) (t : State) : Prop where
  taken : TakenWith s t host a (e.toState.startOutcome u o .accepted).1 (e.toState.startOutcome u o .accepted).2 (s.reportWord a)
  reported : State.Reported (· = u) s t
  written : ∀ v ∈ e.mirrorDue, s.MirrorWritten t a v
  endsIn : e.EndsIn u t
  event : ∃ f : Ev, e.Following u (e.toState.opens u o .accepted) f ∧ t = f.settle.toState
  tracked : (t.unit u).tracked = e.toState.opens u o .accepted
  slots : ∀ k < a.ringLength, k ≠ s.port.take → (∀ v, k ∉ (e.unit v).slots) → ∀ st x, e.toState.SlotShows a k st x → t.SlotShows a k st x

/-- The end of the event leaves the slots of the unit's orders that are not complete. -/
theorem Ev.Following.leaves {q : Option OrderRecord} (h : e.Following u q f) (hl : f.toState.Linked a) (hk : k < a.ringLength)
    (hq : ∀ o, q = some o → o.complete (e.unit u) = false) (hfree : ∀ v o, v ≠ u → (e.unit v).tracked = some o → o.slot ≠ k) {y : Nat}
    (hy : y = a.slotWord k 14 ∨ y = a.slotWord k 15) : Memory.read f.settleArbiter.runTests.mem y = Memory.read f.mem y := by
  have hA : f.GrantsOnly f.settleArbiter := Ev.grantsOnly_settleArbiter
  have hlA : f.settleArbiter.toState.Linked a := ⟨by rw [hA.port]; exact hl.attached, by rw [hA.port]; exact hl.anchor, hl.inMemory, hl.disjoint,
    by rw [hA.mem]; exact hl.wf⟩
  refine (Ev.runTests_leaves hlA hk (fun v o ho hc => ?_) hy).trans (by rw [hA.mem])
  rw [(hA.unit v).tracked, h.unit] at ho
  split at ho
  · next huv =>
    subst huv
    have hno : o.complete (f.settleArbiter.unit u) = false := by
      refine OrderRecord.complete_of_movedOn (hq o ho) fun z _ => ?_
      rcases f.settleArbiter_movedOn u z with j | ⟨_, j⟩
      · exact .inl (congrArg Zone.state (j.trans (h.zone u z)))
      · exact .inr j
    rw [hno] at hc
    cases hc
  · next huv => exact hfree v o (Ne.symm huv) ho

theorem State.Due.starts (h : s.Due host a slot) (hg : (s.landed host).Goes (· = u) (· ∈ s.heldSlots) e) (ho : o.slot = s.port.take) :
    s.StartTaken host a u e o ((e.opened u o .accepted).finish slot (e.toState.startOutcome u o .accepted).1
      (e.toState.startOutcome u o .accepted).2).settle.toState := by
  generalize hr : e.toState.startOutcome u o .accepted = r
  have hG : (s.landed host).Goes (· = u) (fun k => k ∈ s.heldSlots ∨ k = s.port.take) (e.opened u o .accepted) :=
    Ev.opened_goes (hg.mono fun _ => .inl) (.inr ho) _
  have hended : (e.opened u o .accepted).TakeEnded ((e.opened u o .accepted).finish slot r.1 r.2) := Ev.finishTake_ended _ _ _ _
  have hF := (e.opened_following u o .accepted).ended hended
  have hq : ∀ p, e.toState.opens u o .accepted = some p → p.complete (e.unit u) = false := fun p hp => State.opens_incomplete hp
  obtain ⟨hmem, hdue, hport⟩ := e.opened_mem u o .accepted
  have hlG := hG.linked h.linked_landed
  obtain ⟨p1, p2, _⟩ := h.slot_apart h.inRing
  have htake : (e.opened u o .accepted).port.take = s.port.take := hG.course.take
  obtain ⟨w1, _, _, _, _, w6⟩ := Ev.finishTake_words (e := e.opened u o .accepted) a (e.opened u o .accepted).port.take slot.notify r.1 r.2
    (decide_eq_true hlG.attached) hlG.anchor hlG.wf (by rw [htake]; exact p1) (by rw [htake]; exact p2)
  have hlf : ((e.opened u o .accepted).finish slot r.1 r.2).toState.Linked a :=
    ⟨hended.port.state.trans hlG.attached, hended.port.anchor.trans hlG.anchor, hlG.inMemory, hlG.disjoint, w1⟩
  have hheld : ∀ v p, (e.unit v).tracked = some p → p.slot ∈ s.heldSlots := fun v p hp => hg.tracked_slot hp
  obtain ⟨h1, h2, h3⟩ := h.goes_taken (st := r.1) (x := r.2) hG (fun _ => id) fun y hy =>
    hF.leaves hlf h.inRing hq (fun v p _ hp k => h.free (k ▸ hheld v p hp)) hy
  refine ⟨by rw [hr]; exact h1, h2, fun v hv => h3 v (hdue ▸ hv), hF.endsIn, ⟨_, hF, rfl⟩, hF.tracked hq, fun k hk hkt hfree st x hs => ?_⟩
  obtain ⟨q1, q2, _⟩ := h.slot_apart hk
  have h15 : a.slotWord k 15 = a.slotWord k 14 + 1 := rfl
  have hread : ∀ y, y = a.slotWord k 14 ∨ y = a.slotWord k 15 →
      Memory.read ((e.opened u o .accepted).finish slot r.1 r.2).mem y = Memory.read e.mem y := fun y hy => by
    obtain ⟨y1, y2⟩ := Anchor.slotWords_apart (Ne.symm hkt) hy
    refine (w6 y (by omega) (by omega) (by rw [htake]; exact y1) (by rw [htake]; exact y2)).trans (by rw [hmem])
  refine Ev.settle_shows hlf hk (fun v hv => ?_) ⟨(hread _ (.inl rfl)).trans hs.status, (hread _ (.inr rfl)).trans hs.detail⟩
  rw [hF.unit] at hv
  split at hv
  · next huv =>
    subst huv
    rcases List.mem_append.1 hv with j | j
    · unfold State.opens at j
      split at j
      · simp at j
      · simp only [Option.map_some, Option.toList_some, List.mem_singleton] at j
        exact hkt (j.trans ho)
    · exact hfree u (List.mem_append_right _ j)
  · exact hfree v hv

end Sys2Proof.Machine
end

