-- ==== Sys2Proof/Proofs/Passes.lean ====
section
/-! PROOFS. The pass of an order, which treats zones one after another: what it leaves of a zone but for the zone's own treatment, and the
frames of a zone's key in its line's queue (R13, R66). ZERO. -/

namespace Sys2Proof.Machine

open Decode

variable {d e f : Ev} {s t : State} {u v : UnitNo} {y z : ZoneNo} {n : LineNo} {k : MoveKind} {l : List ZoneNo}

/-! ### The frames of a key -/

/-- The MOVE and ZERO frames of a zone's key in its line's queue (R82). -/
def State.keyFrames (s : State) (v : UnitNo) (y : ZoneNo) : List MotionFrame := (s.line v).queue.motion.filter (MotionFrame.forKey y)

theorem State.frameQueued_eq (s : State) (v : UnitNo) (y : ZoneNo) : s.frameQueued v y = !(s.keyFrames v y).isEmpty := by
  unfold State.frameQueued State.keyFrames
  rw [Bool.eq_iff_iff]
  simp [List.filter_eq_nil_iff]

/-- A frame that is queued for the key. -/
theorem State.mem_keyFrames {f : MotionFrame} : f ∈ s.keyFrames v y ↔ f ∈ (s.line v).queue.motion ∧ f.forKey y = true := List.mem_filter

theorem MotionFrame.forKey_other {f : MotionFrame} (h : f.forKey z = true) (hne : z ≠ y) : f.forKey y = false := by
  cases f <;> simp_all [MotionFrame.forKey]

/-- The frames of the keys of other zones stand as they stood. -/
def Ev.OnlyFrames (u : UnitNo) (z : ZoneNo) (d e : Ev) : Prop := ∀ v y, ¬(u = v ∧ z = y) → e.keyFrames v y = d.keyFrames v y

namespace Ev.OnlyFrames

theorem refl (u : UnitNo) (z : ZoneNo) (e : Ev) : e.OnlyFrames u z e := fun _ _ _ => rfl

theorem trans (h : d.OnlyFrames u z e) (k : e.OnlyFrames u z f) : d.OnlyFrames u z f := fun v y j => (k v y j).trans (h v y j)

/-- The queues are the same. -/
theorem of_same (h : ∀ n, (e.line n).queue = (d.line n).queue) : d.OnlyFrames u z e := fun v y _ => by
  unfold State.keyFrames
  rw [h]

theorem updLine (h : d.OnlyFrames u z e) (n : LineNo) (g : Line → Line) (hg : ∀ l, (g l).queue = l.queue) : d.OnlyFrames u z (e.updLine n g) :=
  h.trans (of_same fun m => by rw [Ev.updLine_line]; split <;> simp [hg])

/-- The queue of the zone's line changes in the frames of its key. -/
theorem updQueue (h : d.OnlyFrames u z e) (g : CommandQueue → CommandQueue)
    (hg : ∀ y, z ≠ y → (g (e.line u).queue).motion.filter (MotionFrame.forKey y) = (e.line u).queue.motion.filter (MotionFrame.forKey y)) :
    d.OnlyFrames u z (e.updQueue u g) := h.trans fun v y j => by
  unfold State.keyFrames
  rw [Ev.updQueue, Ev.updLine_line]
  split
  · next huv =>
    subst huv
    exact hg y fun k => j ⟨rfl, k⟩
  · rfl

theorem queueKeyFrame (h : d.OnlyFrames u z e) {g : MotionFrame} (hg : g.forKey z = true) : d.OnlyFrames u z (e.queueKeyFrame u z g) :=
  h.updQueue _ fun y hy => by
    dsimp only
    rw [List.filter_append, List.filter_singleton, MotionFrame.forKey_other hg hy]
    exact List.append_nil _

/-- Frames of the key are rewritten in their places. -/
theorem rewrite (h : d.OnlyFrames u z e) (g : MotionFrame → MotionFrame) (hz : ∀ f, (g f).forKey z = f.forKey z)
    (hg : ∀ f : MotionFrame, f.forKey z = false → g f = f) : d.OnlyFrames u z (e.updQueue u fun q => { q with motion := q.motion.map g }) :=
  h.updQueue _ fun y hy => by
    dsimp only
    induction (e.line u).queue.motion with
    | nil => rfl
    | cons f fs ih =>
      rw [List.map_cons, List.filter_cons, List.filter_cons, ih]
      cases hf : f.forKey z with
      | false => rw [hg f hf]
      | true => rw [MotionFrame.forKey_other hf hy, MotionFrame.forKey_other ((hz f).trans hf) hy]; rfl

theorem changeState (h : d.OnlyFrames u z e) (new : ZoneState) : d.OnlyFrames u z (e.changeState u z new) := by
  by_cases hs : (e.zone u z).state = new
  · rw [Ev.changeState_of_same hs]
    exact h
  · refine h.trans (of_same fun n => ?_)
    rw [Ev.changeState_line hs]
    split <;> rfl

theorem enterPending (h : d.OnlyFrames u z e) (k : MoveKind) : d.OnlyFrames u z (e.enterPending u z k) := by
  unfold Ev.enterPending
  split
  · exact h
  · exact ((h.changeState .pending).updLine u (fun l => { l with pendingList := l.pendingList ++ [⟨z, k⟩] }) fun _ => rfl).trans
      (of_same fun _ => rfl)

theorem enterFaulted (h : d.OnlyFrames u z e) (c : FaultCause) : d.OnlyFrames u z (e.enterFaulted u z c) :=
  (h.changeState .faulted).trans (of_same fun _ => rfl)

theorem place (h : d.OnlyFrames u z e) : d.OnlyFrames u z (e.place u z) := by
  unfold Ev.place
  split
  · exact h.enterPending _
  · exact h.changeState _
  · split
    · exact h.trans (of_same fun _ => rfl)
    · exact h.enterFaulted _

theorem sendMove (h : d.OnlyFrames u z e) (x k : Nat) : d.OnlyFrames u z (e.sendMove u z x k) := by
  unfold Ev.sendMove
  exact ((h.updLine u _ (by exact fun _ => rfl)).queueKeyFrame (by simp [MotionFrame.forKey])).trans (of_same fun _ => rfl)

theorem sendZero (h : d.OnlyFrames u z e) : d.OnlyFrames u z (e.sendZero u z) := by
  unfold Ev.sendZero
  exact ((h.updLine u _ (by exact fun _ => rfl)).queueKeyFrame (by simp [MotionFrame.forKey])).trans (of_same fun _ => rfl)

end Ev.OnlyFrames

/-! ### One zone, one treatment -/

/-- A zone, its entry and the frames of its key stand as they stood. -/
structure State.SameAt (s t : State) (v : UnitNo) (y : ZoneNo) : Prop where
  zone : t.zone v y = s.zone v y
  waits : ∀ k, t.waitsFor v y k ↔ s.waitsFor v y k
  frames : t.keyFrames v y = s.keyFrames v y

theorem State.SameAt.refl (s : State) (v : UnitNo) (y : ZoneNo) : s.SameAt s v y := ⟨rfl, fun _ => .rfl, rfl⟩

theorem State.SameAt.trans {r : State} (h : r.SameAt s v y) (k : s.SameAt t v y) : r.SameAt t v y :=
  ⟨k.zone.trans h.zone, fun i => (k.waits i).trans (h.waits i), k.frames.trans h.frames⟩

theorem State.SameAt.arbitratedAt (h : s.SameAt t v y) : s.ArbitratedAt t v y := .inl ⟨h.zone, h.waits⟩

/-- Units keep their settings, and lines their service. -/
structure Ev.Serves (d e : Ev) : Prop where
  settings : ∀ v, (d.unit v).SameSettings (e.unit v)
  service : ∀ n, (d.line n).SameService (e.line n)

theorem Ev.Serves.refl (e : Ev) : e.Serves e := ⟨fun _ => .refl _, fun _ => .refl _⟩

theorem Ev.Serves.trans (h : d.Serves e) (k : e.Serves f) : d.Serves f :=
  ⟨fun v => (h.settings v).trans (k.settings v), fun n => (h.service n).trans (k.service n)⟩

/-- What has gone on without a unit of its own. -/
theorem Ev.Goes.serves {K : Nat → Prop} (h : d.Goes noUnit K e) : d.Serves e :=
  ⟨fun v => (h.others v not_false).settings, fun n => (h.others n not_false).service⟩

/-- An operation that treats one zone of unit u alone. -/
structure TreatsAlone (u : UnitNo) (f : Ev → ZoneNo → Ev) : Prop where
  only : ∀ (e : Ev) z, e.OnlyZone u z (f e z)
  frames : ∀ (e : Ev) z, e.OnlyFrames u z (f e z)
  serves : ∀ (e : Ev) z, e.Serves (f e z)
  lists : ∀ (e : Ev) z, Ev.Is State.pendingLawful e → Ev.Is State.pendingLawful (f e z)

/-- One that owes the arbiter a run for a zone that it leaves PENDING alone. -/
structure TreatsZone (u : UnitNo) (f : Ev → ZoneNo → Ev) : Prop extends TreatsAlone u f where
  due : ∀ (e : Ev) z, (f e z).arbiterDue = true → e.arbiterDue = true ∨ ((f e z).zone u z).state = .pending

namespace TreatsAlone

variable {g : Ev → ZoneNo → Ev}

theorem sameAt (hg : TreatsAlone u g) (e : Ev) (h : ¬(u = v ∧ z = y)) : e.toState.SameAt (g e z).toState v y :=
  ⟨(hg.only e z v y h).1, (hg.only e z v y h).2, hg.frames e z v y h⟩

/-- What the pass leaves of a zone that it does not treat. -/
theorem beyond (hg : TreatsAlone u g) (l : List ZoneNo) (e : Ev) (h : ¬(u = v ∧ y ∈ l)) : e.toState.SameAt (l.foldl g e).toState v y := by
  induction l generalizing e with
  | nil => exact .refl _ _ _
  | cons z l ih =>
    rw [List.foldl_cons]
    exact (hg.sameAt e fun j => h ⟨j.1, List.mem_cons.2 (.inl j.2.symm)⟩).trans (ih _ fun j => h ⟨j.1, List.mem_cons_of_mem _ j.2⟩)

theorem served (hg : TreatsAlone u g) (l : List ZoneNo) (e : Ev) : e.Serves (l.foldl g e) := by
  induction l generalizing e with
  | nil => exact .refl _
  | cons z l ih => exact (hg.serves e z).trans (ih _)

theorem pendingLawful (hg : TreatsAlone u g) (l : List ZoneNo) (h : Ev.Is State.pendingLawful e) : Ev.Is State.pendingLawful (l.foldl g e) := by
  induction l generalizing e with
  | nil => exact h
  | cons z l ih => exact ih (hg.lists e z h)

/-- A zone is treated as the pass has found it, and stays as its treatment has left it. -/
theorem inside (hg : TreatsAlone u g) (hn : l.Nodup) (e : Ev) (hz : z ∈ l) : ∃ e1 : Ev, e.toState.SameAt e1.toState u z ∧ e.Serves e1
    ∧ (Ev.Is State.pendingLawful e → Ev.Is State.pendingLawful e1) ∧ (g e1 z).toState.SameAt (l.foldl g e).toState u z := by
  induction l generalizing e with
  | nil => cases hz
  | cons y l ih =>
    obtain ⟨hy, hn⟩ := List.nodup_cons.1 hn
    rcases eq_or_ne z y with rfl | hne
    · exact ⟨e, .refl _ _ _, .refl _, id, hg.beyond l _ fun j => hy j.2⟩
    · obtain ⟨e1, h1, h2, h3, h4⟩ := ih hn (g e y) ((List.mem_cons.1 hz).resolve_left hne)
      exact ⟨e1, (hg.sameAt e fun j => hne j.2.symm).trans h1, (hg.serves e y).trans h2, fun k => h3 (hg.lists e y k), h4⟩

end TreatsAlone

/-- The arbiter is owed a run by a zone that is left PENDING. -/
theorem TreatsZone.pending_of_due {g : Ev → ZoneNo → Ev} (hg : TreatsZone u g) (hn : l.Nodup) (e : Ev) (h : (l.foldl g e).arbiterDue = true) :
    e.arbiterDue = true ∨ ∃ z ∈ l, ((l.foldl g e).zone u z).state = .pending := by
  induction l generalizing e with
  | nil => exact .inl h
  | cons y l ih =>
    obtain ⟨hy, hn⟩ := List.nodup_cons.1 hn
    rw [List.foldl_cons] at h ⊢
    rcases ih hn (g e y) h with j | ⟨z, hz, j⟩
    · rcases hg.due e y j with i | i
      · exact .inl i
      · refine .inr ⟨y, List.mem_cons_self, ?_⟩
        rw [(hg.beyond (v := u) (y := y) l (g e y) fun k => hy k.2).zone]
        exact i
    · exact .inr ⟨z, List.mem_cons_of_mem _ hz, j⟩

/-! ### What a pass counts -/

/-- What stage 7 and the pairs of a TRIM have counted so far. -/
def Ev.tally (e : Ev) : Nat × Nat × Nat := (e.raised, e.lowered, e.saturated)

theorem Ev.changeState_tally (new : ZoneState) : (e.changeState u z new).tally = e.tally := by
  unfold Ev.changeState
  dsimp only
  split
  · rfl
  · split <;> split <;> rfl

theorem Ev.enterPending_tally (k : MoveKind) : (e.enterPending u z k).tally = e.tally := by
  unfold Ev.enterPending
  split
  · rfl
  · exact Ev.changeState_tally .pending

theorem Ev.enterFaulted_tally (c : FaultCause) : (e.enterFaulted u z c).tally = e.tally := Ev.changeState_tally .faulted

theorem Ev.place_tally : (e.place u z).tally = e.tally := by
  unfold Ev.place
  split
  · exact Ev.enterPending_tally _
  · exact Ev.changeState_tally _
  · split
    · rfl
    · exact Ev.enterFaulted_tally _

theorem foldl_tally {α : Type} {g : Ev → α → Ev} (hg : ∀ (e : Ev) x, (g e x).tally = e.tally) (l : List α) (e : Ev) :
    (l.foldl g e).tally = e.tally := by
  induction l generalizing e with
  | nil => rfl
  | cons x l ih => exact (ih _).trans (hg e x)

/-! ### ZERO -/

theorem zeroEntry_iff : s.zeroEntry v y = true ↔ s.waitsFor v y .zero := by
  unfold State.zeroEntry State.waitsFor
  simp only [List.any_eq_true, Bool.and_eq_true, beq_iff_eq]
  constructor
  · rintro ⟨⟨p, q⟩, hp, rfl, rfl⟩
    exact hp
  · exact fun h => ⟨_, h, rfl, rfl⟩

/-- A zone has one entry at most (R45). -/
theorem State.pendingLawful.waits_unique (h : s.pendingLawful) {k k' : MoveKind} (h1 : s.waitsFor v y k) (h2 : s.waitsFor v y k') : k = k' := by
  by_contra hne
  have hcount : (s.line v).entriesOf y ≤ 1 := by
    rw [h v y]
    split <;> omega
  have hsub : [(⟨y, k⟩ : PendingEntry), ⟨y, k'⟩].Subperm (s.line v).pendingList := by
    refine List.subperm_of_subset ?_ ?_
    · simp [hne]
    · intro p hp
      rcases List.mem_pair.1 hp with rfl | rfl
      · exact h1
      · exact h2
  have htwo := hsub.countP_le fun p : PendingEntry => p.zone == y
  simp only [List.countP_cons, List.countP_nil, beq_self_eq_true, if_true] at htwo
  unfold Line.entriesOf at hcount
  omega

/-- A PENDING zone has an entry (R45). -/
theorem State.pendingLawful.waits (h : s.pendingLawful) (hz : (s.zone v y).state = .pending) : ∃ k, s.waitsFor v y k := by
  have hc := h v y
  rw [if_pos hz, Line.entriesOf] at hc
  obtain ⟨⟨p, k⟩, hp, hk⟩ := List.countP_pos_iff.1 (Nat.lt_of_lt_of_eq Nat.one_pos hc.symm)
  obtain rfl : p = y := by simpa using hk
  exact ⟨k, hp⟩

theorem Ev.redirectToZero_zone (v : UnitNo) (y : ZoneNo) : ¬(u = v ∧ z = y) → (e.redirectToZero u z).zone v y = e.zone v y := fun h => by
  unfold Ev.redirectToZero
  split
  · rw [Ev.updZone_zone, if_neg h]
    rfl
  · rw [Ev.sendZero_zone, if_neg h]

theorem Ev.redirectToZero_self : ((e.redirectToZero u z).zone u z).state = (e.zone u z).state
    ∧ ((e.redirectToZero u z).zone u z).moveKind = some .zero := by
  unfold Ev.redirectToZero
  split
  · rw [Ev.updZone_zone, if_pos ⟨rfl, rfl⟩]
    exact ⟨rfl, rfl⟩
  · rw [Ev.sendZero_zone, if_pos ⟨rfl, rfl⟩]
    exact ⟨rfl, rfl⟩

theorem forKey_moveToZero (f : MotionFrame) : (moveToZero z f).forKey z = f.forKey z := by
  cases f <;> simp only [moveToZero]
  split <;> simp_all [MotionFrame.forKey]

theorem moveToZero_other {f : MotionFrame} (h : f.forKey z = false) : moveToZero z f = f := by
  cases f with
  | move y p t => exact if_neg fun k => by simp [MotionFrame.forKey, k] at h
  | zero y t => rfl
  | sweep x t => rfl

theorem Ev.redirectToZero_pendingList (n : LineNo) : ((e.redirectToZero u z).line n).pendingList = (e.line n).pendingList := by
  unfold Ev.redirectToZero
  split
  · refine (congrArg Line.pendingList (Ev.updLine_line e u n fun l =>
      { l with queue := { l.queue with motion := l.queue.motion.map (moveToZero z) } })).trans ?_
    split <;> rfl
  · exact (Ev.sendZero_line n).1

/-- The entry of a PENDING zone becomes one of kind ZERO (R66). -/
def Line.zeroed (l : Line) (z : ZoneNo) : Line :=
  { l with pendingList := l.pendingList.map fun p => if p.zone = z then { p with kind := .zero } else p }

theorem Ev.zeroZone_pending (h : (e.zone u z).state = .pending) : e.zeroZone u z = e.updLine u fun l => l.zeroed z := by
  unfold Ev.zeroZone
  rw [h]
  rfl

theorem Ev.zeroZone_rest (h : (e.zone u z).state = .rest) : e.zeroZone u z = e.enterPending u z .zero := by
  unfold Ev.zeroZone
  rw [h]

theorem Ev.zeroZone_moving (h : (e.zone u z).state = .moving) :
    e.zeroZone u z = if (e.zone u z).moveKind = some .zero then e else e.redirectToZero u z := by
  unfold Ev.zeroZone
  rw [h]

theorem Ev.zeroZone_other (h : (e.zone u z).state = .held ∨ (e.zone u z).state = .faulted ∨ (e.zone u z).state = .off) : e.zeroZone u z = e := by
  unfold Ev.zeroZone
  rcases h with h | h | h <;> rw [h]

theorem ZoneState.cases_zero (q : ZoneState) : q = .rest ∨ q = .pending ∨ q = .moving ∨ (q = .held ∨ q = .faulted ∨ q = .off) := by
  cases q <;> decide

theorem treatsZone_zero (u : UnitNo) : TreatsZone u fun e z => e.zeroZone u z where
  only e z := by
    rcases (e.zone u z).state.cases_zero with h | h | h | h
    · rw [Ev.zeroZone_rest h]
      exact (Ev.OnlyZone.refl u z e).enterPending _
    · rw [Ev.zeroZone_pending h]
      intro v y j
      refine ⟨rfl, fun k => ?_⟩
      unfold State.waitsFor
      rw [Ev.updLine_line]
      split
      · next huv =>
        have hzy : z ≠ y := fun i => j ⟨huv, i⟩
        simp only [Line.zeroed, List.mem_map]
        constructor
        · rintro ⟨p, hp, hpy⟩
          split at hpy
          · next i =>
            have hy : p.zone = y := congrArg PendingEntry.zone hpy
            exact absurd (i.symm.trans hy) hzy
          · exact hpy ▸ hp
        · exact fun hp => ⟨_, hp, if_neg (Ne.symm hzy)⟩
      · exact .rfl
    · rw [Ev.zeroZone_moving h]
      split
      · exact .refl u z e
      · intro v y j
        exact ⟨Ev.redirectToZero_zone v y j, fun k => by rw [State.waitsFor, Ev.redirectToZero_pendingList]; rfl⟩
    · rw [Ev.zeroZone_other h]
      exact .refl u z e
  frames e z := by
    rcases (e.zone u z).state.cases_zero with h | h | h | h
    · rw [Ev.zeroZone_rest h]
      exact (Ev.OnlyFrames.refl u z e).enterPending _
    · rw [Ev.zeroZone_pending h]
      exact (Ev.OnlyFrames.refl u z e).updLine u _ fun _ => rfl
    · rw [Ev.zeroZone_moving h]
      split
      · exact .refl u z e
      · unfold Ev.redirectToZero
        split
        · exact ((Ev.OnlyFrames.refl u z e).rewrite (moveToZero z) forKey_moveToZero fun _ => moveToZero_other).trans (.of_same fun _ => rfl)
        · exact (Ev.OnlyFrames.refl u z e).sendZero
    · rw [Ev.zeroZone_other h]
      exact .refl u z e
  serves e z := ((Ev.Goes.refl (U := noUnit) (K := fun _ => True) fun _ _ _ => trivial).zeroZone u z).serves
  lists e z h := Ev.keeps_pendingLawful.zeroZone tableLaw_pending.entry u z h
  due e z h := by
    rcases (e.zone u z).state.cases_zero with hs | hs | hs | hs
    · right
      rw [Ev.zeroZone_rest hs, Ev.enterPending_zone (by rw [hs]; decide), if_pos ⟨rfl, rfl⟩]
      rfl
    · rw [Ev.zeroZone_pending hs] at h
      exact .inl h
    · rw [Ev.zeroZone_moving hs] at h
      split at h
      · exact .inl h
      · unfold Ev.redirectToZero at h
        split at h
        · exact .inl h
        · exact .inl h
    · rw [Ev.zeroZone_other hs] at h
      exact .inl h

theorem Ev.zeroZone_tally (e : Ev) (z : ZoneNo) : (e.zeroZone u z).tally = e.tally := by
  rcases (e.zone u z).state.cases_zero with h | h | h | h
  · rw [Ev.zeroZone_rest h]
    exact Ev.enterPending_tally _
  · rw [Ev.zeroZone_pending h]
    rfl
  · rw [Ev.zeroZone_moving h]
    split
    · rfl
    · unfold Ev.redirectToZero
      split <;> rfl
  · rw [Ev.zeroZone_other h]

end Sys2Proof.Machine
end

