-- ==== Sys2Proof/Proofs/ZeroOrders.lean ====
section
/-! PROOFS. ZERO (R66, R184): the order starts at its take, and its pass treats the zones of its range by their states. -/

namespace Sys2Proof.Machine

open Decode

variable {U : UnitNo → Prop} {K : Nat → Prop} {d e f : Ev} {s t : State} {u v : UnitNo} {y z : ZoneNo} {a : Anchor} {o : OrderRecord}
  {host : List HostWrite} {slot : Slot} {k : MoveKind} {first last : Nat}

/-! ### The pass of an order -/

/-- The event at which the pass of an order begins: nothing is counted, and the unit has no waiting order. -/
def Ev.cleared (e : Ev) (u : UnitNo) : Ev :=
  ({ e with raised := 0, lowered := 0, saturated := 0 } : Ev).updUnit u fun r => { r with waiting := none }

theorem Ev.passed_eq (e : Ev) (u : UnitNo) (o : OrderRecord) : e.passed u o = (e.cleared u).startPass u o.kind := rfl

theorem Ev.cleared_unit (e : Ev) (u v : UnitNo) : (e.cleared u).unit v = if u = v then { e.unit v with waiting := none } else e.unit v :=
  Ev.updUnit_unit _ _ _ _

theorem Ev.cleared_zone (e : Ev) (u v : UnitNo) (y : ZoneNo) : (e.cleared u).zone v y = e.zone v y := by
  show ((e.cleared u).unit v).zones[y] = (e.unit v).zones[y]
  rw [Ev.cleared_unit]
  split <;> rfl

theorem Ev.cleared_sameAt (e : Ev) (u v : UnitNo) (y : ZoneNo) : e.toState.SameAt (e.cleared u).toState v y :=
  ⟨Ev.cleared_zone e u v y, fun _ => .rfl, rfl⟩

theorem Ev.cleared_pendingLawful (h : e.toState.pendingLawful) (u : UnitNo) : Ev.Is State.pendingLawful (e.cleared u) := fun v y => by
  rw [Ev.cleared_zone]
  exact h v y

theorem Ev.Goes.cleared (h : d.Goes U K e) (u : UnitNo) (hk : U u ∨ (e.unit u).waiting = none) : d.Goes U K (e.cleared u) := by
  refine (h.counting 0 0 0).updUnit u _ (fun j => ?_) (fun _ => rfl) rfl fun k hk => ?_
  · have hw := hk.resolve_left j
    refine ⟨⟨rfl, rfl, rfl, rfl, hw.symm, rfl, rfl⟩, .inl rfl, fun _ => .refl _⟩
  · rcases List.mem_append.1 hk with j | j
    · exact .inl (List.mem_append_left _ j)
    · simp at j

/-- The pass of an order has gone on. -/
theorem Ev.Goes.passed (h : d.Goes U K e) (hu : U u) (o : OrderRecord) : d.Goes U K (e.passed u o) := by
  rw [Ev.passed_eq]
  have hc := h.cleared u (.inl hu)
  cases o.kind with
  | preset policy => exact hc.presetPass hu policy
  | trim pairs => exact hc.trimPass hu pairs
  | sweep value => exact hc.sweepPass hu value
  | zero first last => exact hc.zeroPass u first last
  | linePower on => exact hc
  | checkLines b c => exact hc

/-! ### The pass of a ZERO -/

/-- How a ZERO leaves a zone, by the state in which it has found it (R66). -/
def State.ZeroedAt (s t : State) (u : UnitNo) (z : ZoneNo) : Prop :=
  ((s.zone u z).state = .rest ∨ (s.zone u z).state = .pending → (t.zone u z).state = .pending ∧ t.waitsFor u z .zero)
    ∧ ((s.zone u z).state = .moving → (t.zone u z).state = .moving ∧ (t.zone u z).moveKind = some .zero)
    ∧ ((s.zone u z).state = .held ∨ (s.zone u z).state = .faulted ∨ (s.zone u z).state = .off → t.zone u z = s.zone u z)

theorem Ev.zeroZone_zeroed (hl : e.toState.pendingLawful) : e.toState.ZeroedAt (e.zeroZone u z).toState u z := by
  refine ⟨fun h => ?_, fun h => ?_, fun h => by rw [Ev.zeroZone_other h]⟩
  · rcases h with h | h
    · have hp : (e.zone u z).state ≠ .pending := by rw [h]; decide
      rw [Ev.zeroZone_rest h, Ev.enterPending_zone hp, if_pos ⟨rfl, rfl⟩, State.waitsFor, Ev.enterPending_line hp, if_pos rfl]
      exact ⟨rfl, List.mem_append_right _ List.mem_cons_self⟩
    · obtain ⟨k, hk⟩ := hl.waits h
      rw [Ev.zeroZone_pending h]
      refine ⟨h, ?_⟩
      rw [State.waitsFor, Ev.updLine_line, if_pos rfl]
      exact List.mem_map.2 ⟨_, hk, if_pos rfl⟩
  · rw [Ev.zeroZone_moving h]
    split
    · next hk => exact ⟨h, hk⟩
    · obtain ⟨h1, h2⟩ := e.redirectToZero_self (u := u) (z := z)
      exact ⟨h1.trans h, h2⟩

theorem State.ZeroedAt.of_sameAt {r r' : State} (h : s.ZeroedAt t u z) (h1 : r.SameAt s u z) (h2 : t.SameAt r' u z) : r.ZeroedAt r' u z := by
  obtain ⟨k1, k2, k3⟩ := h
  rw [h1.zone] at k1 k2 k3
  unfold State.ZeroedAt
  rw [h2.zone, h2.waits]
  exact ⟨k1, k2, k3⟩

theorem zoneRange_nodup (first last : Nat) : (zoneRange first last).Nodup := (List.nodup_finRange _).filter _

/-- The zones of the range after the pass. -/
theorem Ev.zeroPass_zeroed (hl : e.toState.pendingLawful) (hz : z ∈ zoneRange first last) :
    e.toState.ZeroedAt (e.zeroPass u first last).toState u z := by
  obtain ⟨e1, h1, _, h3, h4⟩ := (treatsZone_zero u).inside (zoneRange_nodup first last) e hz
  exact (Ev.zeroZone_zeroed (h3 hl)).of_sameAt h1 h4

/-- A zone that waits for a zero move keeps its entry or is granted that move. -/
theorem State.ArbitratedAt.zeroing (h : s.ArbitratedAt t u z) (hl : s.pendingLawful) (hp : (s.zone u z).state = .pending)
    (hw : s.waitsFor u z .zero) : ((t.zone u z).state = .pending ∧ t.zeroEntry u z = true)
      ∨ ((t.zone u z).state = .moving ∧ (t.zone u z).moveKind = some .zero) := by
  rcases h with ⟨h1, h2⟩ | ⟨_, k, h2, h3⟩
  · exact .inl ⟨by rw [h1, hp], zeroEntry_iff.2 ((h2 _).2 hw)⟩
  · obtain rfl := hl.waits_unique h2 hw
    exact .inr ⟨h3.state, h3.moveKind⟩

/-! ### The order -/

/-- The order of a ZERO at its take. -/
def State.zeroOrder (s : State) (slot : Slot) (first last : Nat) : OrderRecord where
  slot := s.port.take
  notify := slot.notify
  kind := .zero first last
  zones := zoneRange first last
  fountainWait := false
  counts := Counts.zero

theorem State.Due.zero_row (h : s.Due host a slot) {c : UnitConfig} (hk : slot.kind = some .zero) (hu : slot.unit? = some u)
    (hc : (s.unit u).config = some c) : (rangeOperands slot c.zoneCount = none → RefusedWith s (.zero host) host a .badArgument)
      ∧ ∀ first last, rangeOperands slot c.zoneCount = some (first, last) →
        (((s.unit u).hasOrder || (s.line u).power == .check) = true → RefusedWith s (.zero host) host a .busy)
        ∧ (((s.unit u).hasOrder || (s.line u).power == .check) = false →
          exec (.zero host) s = .next ((s.landed host).startNow u slot (s.zeroOrder slot first last)).settle.toState) := by
  refine ⟨fun hr => h.refused (execZero host) rfl rfl (ofKind_eq.2 hk) ?_, fun first last hr => ⟨fun hb =>
    h.refused (execZero host) rfl rfl (ofKind_eq.2 hk) ?_, fun hb => h.taken_by (execZero host) rfl rfl (ofKind_eq.2 hk) ?_⟩⟩
  · refine (Ev.onDefined_some (e := s.landed host) hu hc).trans ?_
    rw [hr]
  · refine (Ev.onDefined_some (e := s.landed host) hu hc).trans ?_
    rw [hr]
    exact if_pos hb
  · refine (Ev.onDefined_some (e := s.landed host) hu hc).trans ?_
    rw [hr]
    exact if_neg (by rw [Bool.not_eq_true]; exact hb)

theorem State.busyZero (h : (s.unit u).tracked.isSome = true ∨ (s.unit u).waiting.isSome = true ∨ (s.line u).power = .check) :
    ((s.unit u).hasOrder || (s.line u).power == .check) = true := by
  unfold UnitRec.hasOrder
  rcases h with h | h | h <;> simp [h]

theorem State.freeZero (h1 : (s.unit u).tracked = none) (h2 : (s.unit u).waiting = none) (h3 : (s.line u).power ≠ .check) :
    ((s.unit u).hasOrder || (s.line u).power == .check) = false := by simp [UnitRec.hasOrder, h1, h2, h3]

/-- What a ZERO that starts leaves. -/
structure State.ZeroTaken (s t : State) (host : List HostWrite) (a : Anchor) (u : UnitNo) (first last : Nat) : Prop where
  started : s.StartedOrder t u host a (zoneRange first last) false Counts.zero
  mirrors : s.MirrorsChanges t a
  zeroed : ∀ z ∈ zoneRange first last, ∃ e : Ev, e.toState.pendingLawful ∧ s.ZeroedAt e.toState u z ∧ e.toState.ArbitratedAt t u z
  aims : ∀ v z, (s.zone v z).SameAims (t.zone v z)
  settings : ∀ v, (s.unit v).SameSettings (t.unit v)
  service : ∀ n, (s.line n).SameService (t.line n)

theorem State.Due.zero_taken (h : s.Due host a slot) (hl : s.pendingLawful) (ht : (s.unit u).tracked = none) (hw : (s.unit u).waiting = none) :
    s.ZeroTaken ((s.landed host).startNow u slot (s.zeroOrder slot first last)).settle.toState host a u first last := by
  generalize ho : s.zeroOrder slot first last = o
  have hkind : o.kind = .zero first last := by rw [← ho]; rfl
  have hslot : o.slot = s.port.take := by rw [← ho]; rfl
  have hzones : o.zones = zoneRange first last := by rw [← ho]; rfl
  have hcounts : o.counts = Counts.zero := by rw [← ho]; rfl
  have hpass : (s.landed host).passed u o = ((s.landed host).cleared u).zeroPass u first last := by rw [Ev.passed_eq, hkind]; rfl
  have hN : (s.landed host).Goes noUnit (· ∈ s.heldSlots) ((s.landed host).passed u o) :=
    hpass ▸ ((s.landed_goes host noUnit).cleared u (.inr hw)).zeroPass u first last
  have hG := (s.landed_goes host (· = u)).passed rfl o
  have hlists : Ev.Is State.pendingLawful ((s.landed host).passed u o) :=
    hpass ▸ (treatsZone_zero u).pendingLawful _ (Ev.cleared_pendingLawful (e := s.landed host) hl u)
  have hsame : ∀ z, s.SameAt ((s.landed host).cleared u).toState u z := fun z =>
    have hc := (s.landed host).cleared_sameAt u u z
    ⟨hc.zone, hc.waits, hc.frames⟩
  have hzeroed : ∀ z ∈ zoneRange first last, s.ZeroedAt ((s.landed host).passed u o).toState u z := fun z hz => by
    rw [hpass]
    exact (Ev.zeroPass_zeroed (Ev.cleared_pendingLawful (e := s.landed host) hl u) hz).of_sameAt (hsame z) (.refl _ _ _)
  have htally : ((s.landed host).passed u o).tally = (0, 0, 0) := by
    rw [hpass]
    exact foldl_tally (fun e z => e.zeroZone_tally z) (zoneRange first last) ((s.landed host).cleared u)
  have hdue : ((s.landed host).passed u o).arbiterDue = true →
      ∃ z ∈ zoneRange first last, (((s.landed host).passed u o).zone u z).state = .pending := fun hd => by
    rw [hpass] at hd ⊢
    exact ((treatsZone_zero u).pending_of_due (zoneRange_nodup first last) ((s.landed host).cleared u) hd).resolve_left nofun
  rw [Ev.startNow_eq]
  generalize (s.landed host).passed u o = e at *
  have hq : o.started e u = o := by
    simp only [Ev.tally, Prod.mk.injEq] at htally
    obtain ⟨t1, t2, t3⟩ := htally
    rw [OrderRecord.started, OrderRecord.counted, t1, t2, t3, ← ho]
    rfl
  have hS := h.starts (o := o.started e u) hG (by rw [hq, hslot])
  rw [hq] at hS ⊢
  refine ⟨⟨_, _, hS.taken, ?_, fun p hp => ?_⟩, hS.reported.mirrors a h.toLinked, fun z hz => ⟨e, hlists, hzeroed z hz, hS.endsIn.arbitrated hlists u z⟩,
    fun v z => ((hN.others v not_false).aims z).trans (hS.endsIn.aims v z), fun v => (hN.others v not_false).settings.trans (hS.endsIn.settings v),
    fun n => (hN.others n not_false).service.trans (hS.endsIn.service n)⟩
  · have hshow := hS.endsIn.startShows (o := o) (openStatus := .accepted) (by rw [hkind]; rfl) rfl (hzones ▸ hdue) hS.tracked
    rw [hslot, hzones, hcounts] at hshow
    have hwait : o.fountainWait = false := by rw [← ho]; rfl
    rwa [hwait] at hshow
  · rw [ht, hw] at hp
    rcases hp with hp | ⟨_, hp⟩ <;> cases hp

/-- Settles O28, from the pass and what the end of the event leaves of it. -/
theorem zeroAsksForZeroMoves : Obligations.ZeroAsksForZeroMoves := by
  intro host s a slot u c h hk hu hc hl
  obtain ⟨hbad, hrow⟩ := h.zero_row hk hu hc
  refine ⟨hbad, fun first last hr => ⟨fun hb => (hrow first last hr).1 (State.busyZero hb), fun ht hw hp => ?_⟩⟩
  have hexec := (hrow first last hr).2 (State.freeZero ht hw hp)
  have hZ := h.zero_taken (first := first) (last := last) hl ht hw
  refine ⟨_, hexec, hZ.started, hZ.mirrors, fun z h1 h2 => ?_, hZ.aims, hZ.settings, hZ.service, ?_⟩
  · obtain ⟨e, hle, ⟨k1, k2, k3⟩, hA⟩ := hZ.zeroed z (mem_zoneRange.2 ⟨h1, h2⟩)
    have hheld := fun j : (s.zone u z).state = .held ∨ (s.zone u z).state = .faulted ∨ (s.zone u z).state = .off => by
      have hsame := k3 j
      have hne : (e.zone u z).state ≠ .pending := by rw [hsame]; rcases j with j | j | j <;> rw [j] <;> decide
      exact (hA.zone hne).trans hsame
    cases hst : (s.zone u z).state with
    | rest =>
      obtain ⟨j1, j2⟩ := k1 (.inl hst)
      exact hA.zeroing hle j1 j2
    | pending =>
      obtain ⟨j1, j2⟩ := k1 (.inr hst)
      exact hA.zeroing hle j1 j2
    | moving =>
      obtain ⟨j1, j2⟩ := k2 hst
      have hzone := hA.zone (by rw [j1]; decide)
      exact ⟨by rw [hzone, j1], by rw [hzone, j2]⟩
    | held => exact (congrArg Zone.state (hheld (.inl hst))).trans hst
    | faulted => exact (congrArg Zone.state (hheld (.inr (.inl hst)))).trans hst
    | off => exact (congrArg Zone.state (hheld (.inr (.inr hst)))).trans hst
  · have hS := stable_sameOutside s
    have hland : (s.landed host).Has s.SameOutside := ⟨rfl, rfl, rfl, rfl, rfl, rfl⟩
    exact Ev.has_settle hS (Ev.has_startNow hS hland (decide_eq_true h.attached) _ _ _)

end Sys2Proof.Machine
end

