-- ==== Sys2Proof/Proofs/Reactions.lean ====
section
/-! PROOFS. How a zone acts on a target that stage 7 has written (R13): the placement test, the retarget of a MOVING zone (R55, R56), and
what the rest of the event leaves of both. -/

namespace Sys2Proof.Machine

open Decode

variable {d e f g : Ev} {s t : State} {u v : UnitNo} {y z : ZoneNo} {n : LineNo} {k : MoveKind} {c : UnitConfig} {x p : Nat}

/-! ### Tags -/

/-- The tag of a frame is neither the reported nor the sent tag of its key (R54). -/
theorem nextTag_fresh (counter : Tag) (q : TagPair) : nextTag counter q ≠ q.reported ∧ nextTag counter q ≠ q.sent := by
  obtain ⟨r, w⟩ := q
  unfold nextTag
  dsimp only
  by_cases h1 : counter = r ∨ counter = w
  · simp only [if_pos h1]
    split <;> constructor <;> bv_omega
  · simp only [if_neg h1]
    exact not_or.1 h1

/-! ### The frames of the other keys through the arbiter -/

theorem Ev.grant_frames {q : PendingEntry} {l : List PendingEntry} (h : (e.line n).pendingList = q :: l) : e.OnlyFrames n q.zone (e.grant n) := by
  have hc : e.OnlyFrames n q.zone (e.counted n q.zone) :=
    (((Ev.OnlyFrames.refl n q.zone e).changeState .moving).updLine n (fun l => { l with grants := l.grants + 1 }) fun _ => rfl).trans
      (.of_same fun _ => rfl)
  rw [Ev.grant_eq h]
  cases q.kind with
  | position => exact hc.sendMove _ _
  | zero => exact hc.sendZero

/-- The frames of a key whose zone is not PENDING stand as they stood. -/
theorem Ev.grantRounds_frames (k : Nat) (hp : e.toState.pendingLawful) (hz : (e.zone v y).state ≠ .pending) :
    (Ev.grantRounds k e).keyFrames v y = e.keyFrames v y := by
  induction k generalizing e with
  | zero => rfl
  | succ k ih =>
    unfold Ev.grantRounds
    split
    · next n hn =>
      have hkept := tableLaw_pending.law.grant (List.find?_some hn) hp
      have hzone := (Ev.grant_arbitrated (n := n) hp v y).zone hz
      refine (ih hkept (by rw [hzone]; exact hz)).trans ?_
      cases hl : (e.line n).pendingList with
      | nil =>
        have hg : e.grant n = e := by unfold Ev.grant; rw [hl]
        rw [hg]
      | cons q l =>
        refine Ev.grant_frames hl v y fun j => hz ?_
        obtain ⟨rfl, rfl⟩ := j
        exact hp.front hl
    · rfl

theorem Ev.settle_frames (hp : e.toState.pendingLawful) (hz : (e.zone v y).state ≠ .pending) : e.settle.keyFrames v y = e.keyFrames v y := by
  have h : e.settleArbiter.EndsOnly e.settle := (Ev.EndsOnly.refl _).runTests.flush
  have hA : e.settleArbiter.keyFrames v y = e.keyFrames v y := by
    unfold Ev.settleArbiter
    split
    · exact Ev.grantRounds_frames e.waitingZones hp hz
    · rfl
  rw [← hA, State.keyFrames, State.line, h.lines]
  rfl

/-! ### The samples of a zone through the arbiter -/

theorem Ev.changeState_samples (new : ZoneState) (h : (e.zone v y).samples = []) : ((e.changeState u z new).zone v y).samples = [] := by
  by_cases hs : (e.zone u z).state = new
  · rwa [Ev.changeState_of_same hs]
  · rw [Ev.changeState_zone hs]
    split
    · simp [Zone.entering, h]
    · exact h

theorem Ev.grant_samples (h : (e.zone v y).samples = []) : ((e.grant n).zone v y).samples = [] := by
  cases hl : (e.line n).pendingList with
  | nil =>
    have hg : e.grant n = e := by unfold Ev.grant; rw [hl]
    rwa [hg]
  | cons q l =>
    have hG := Ev.grant_granted hl
    by_cases j : n = v ∧ q.zone = y
    · obtain ⟨rfl, rfl⟩ := j
      rw [hG.zone.samples]
      exact Ev.changeState_samples .moving h
    · rwa [hG.otherZone v y j]

theorem Ev.settle_samples (h : (e.zone v y).samples = []) : (e.settle.zone v y).samples = [] := by
  have hend : e.settleArbiter.EndsOnly e.settle := (Ev.EndsOnly.refl _).runTests.flush
  rw [hend.zone]
  unfold Ev.settleArbiter
  split
  · have hrounds (k : Nat) : ∀ f : Ev, (f.zone v y).samples = [] → ((Ev.grantRounds k f).zone v y).samples = [] := by
      induction k with
      | zero => exact fun _ hf => hf
      | succ k ih =>
        intro f hf
        unfold Ev.grantRounds
        split
        · exact ih _ (Ev.grant_samples hf)
        · exact hf
    exact hrounds e.waitingZones e h
  · exact h

/-! ### The treatment of a target -/

theorem forKey_rewriteMove (f : MotionFrame) : (rewriteMove z x f).forKey z = f.forKey z := by
  cases f <;> simp only [rewriteMove]
  split <;> simp_all [MotionFrame.forKey]

theorem rewriteMove_other {f : MotionFrame} (h : f.forKey z = false) : rewriteMove z x f = f := by
  cases f with
  | move y p t => exact if_neg fun k => by simp [MotionFrame.forKey, k] at h
  | zero y t => rfl
  | sweep v t => rfl

theorem Ev.OnlyZone.sendMove (h : d.OnlyZone u z e) (x k : Nat) : d.OnlyZone u z (e.sendMove u z x k) := by
  unfold Ev.sendMove
  exact ((h.updLine u _ (by exact fun _ => rfl)).updQueue u _).updZone _

theorem Ev.OnlyZone.retarget (h : d.OnlyZone u z e) (x : Nat) : d.OnlyZone u z (e.retarget u z x) := by
  unfold Ev.retarget
  dsimp only
  split
  · exact h
  · split
    · exact h
    · split
      · exact (h.updQueue u _).updZone _
      · exact h.sendMove _ _

theorem Ev.OnlyFrames.retarget (h : d.OnlyFrames u z e) (x : Nat) : d.OnlyFrames u z (e.retarget u z x) := by
  unfold Ev.retarget
  dsimp only
  split
  · exact h
  · split
    · exact h
    · split
      · exact (h.rewrite (rewriteMove z x) forKey_rewriteMove fun _ => rewriteMove_other).trans (.of_same fun _ => rfl)
      · exact h.sendMove _ _

/-- A zone that meters is placed, a MOVING one is retargeted, and any other is left (R13). -/
theorem Ev.actOnTarget_place (h : (e.zone u z).state = .rest ∨ (e.zone u z).state = .pending) : e.actOnTarget u z x = e.place u z := by
  unfold Ev.actOnTarget
  rcases h with h | h <;> rw [h]

theorem Ev.actOnTarget_moving (h : (e.zone u z).state = .moving) : e.actOnTarget u z x = e.retarget u z x := by
  unfold Ev.actOnTarget
  rw [h]

theorem Ev.actOnTarget_other (h : (e.zone u z).state = .held ∨ (e.zone u z).state = .faulted ∨ (e.zone u z).state = .off) :
    e.actOnTarget u z x = e := by
  unfold Ev.actOnTarget
  rcases h with h | h | h <;> rw [h]

/-- The three ways in which a zone acts on a target. -/
theorem ZoneState.cases_target (q : ZoneState) : (q = .rest ∨ q = .pending) ∨ q = .moving ∨ (q = .held ∨ q = .faulted ∨ q = .off) := by
  cases q <;> decide

theorem Ev.OnlyZone.actOnTarget (h : d.OnlyZone u z e) (x : Nat) : d.OnlyZone u z (e.actOnTarget u z x) := by
  rcases (e.zone u z).state.cases_target with j | j | j
  · rw [Ev.actOnTarget_place j]
    exact h.place
  · rw [Ev.actOnTarget_moving j]
    exact h.retarget x
  · rwa [Ev.actOnTarget_other j]

theorem Ev.OnlyFrames.actOnTarget (h : d.OnlyFrames u z e) (x : Nat) : d.OnlyFrames u z (e.actOnTarget u z x) := by
  rcases (e.zone u z).state.cases_target with j | j | j
  · rw [Ev.actOnTarget_place j]
    exact h.place
  · rw [Ev.actOnTarget_moving j]
    exact h.retarget x
  · rwa [Ev.actOnTarget_other j]

theorem Ev.changeState_due (h : (e.zone u z).state ≠ .moving) (new : ZoneState) : (e.changeState u z new).arbiterDue = e.arbiterDue := by
  unfold Ev.changeState
  dsimp only
  split
  · rfl
  · split <;> rfl

theorem Ev.place_due (h : (e.zone u z).state ≠ .moving) (hd : (e.place u z).arbiterDue = true) :
    e.arbiterDue = true ∨ ((e.place u z).zone u z).state = .pending := by
  unfold Ev.place at hd ⊢
  split at hd
  · right
    by_cases hp : (e.zone u z).state = .pending
    · rwa [Ev.enterPending_of_pending hp]
    · rw [Ev.enterPending_zone hp, if_pos ⟨rfl, rfl⟩]
      rfl
  · left
    rwa [Ev.changeState_due h] at hd
  · left
    split at hd
    · exact hd
    · exact (Ev.changeState_due h .faulted).symm.trans hd

theorem Ev.retarget_due : (e.retarget u z x).arbiterDue = e.arbiterDue := by
  unfold Ev.retarget
  dsimp only
  split
  · rfl
  · split
    · rfl
    · split <;> rfl

theorem Ev.actOnTarget_due (hd : (e.actOnTarget u z x).arbiterDue = true) :
    e.arbiterDue = true ∨ ((e.actOnTarget u z x).zone u z).state = .pending := by
  rcases (e.zone u z).state.cases_target with j | j | j
  · rw [Ev.actOnTarget_place j] at hd ⊢
    exact Ev.place_due (by rcases j with j | j <;> rw [j] <;> decide) hd
  · rw [Ev.actOnTarget_moving j, Ev.retarget_due] at hd
    exact .inl hd
  · rw [Ev.actOnTarget_other j] at hd
    exact .inl hd

theorem Ev.actOnTarget_tally : (e.actOnTarget u z x).tally = e.tally := by
  rcases (e.zone u z).state.cases_target with j | j | j
  · rw [Ev.actOnTarget_place j]
    exact Ev.place_tally
  · rw [Ev.actOnTarget_moving j]
    unfold Ev.retarget
    dsimp only
    split
    · rfl
    · split
      · rfl
      · split <;> rfl
  · rw [Ev.actOnTarget_other j]

/-! ### Stage 7 for one zone -/

/-- The event with the sum of a zone's plan and offset counted, and its target written (R38, R39). -/
def Ev.targeted (e : Ev) (u : UnitNo) (z : ZoneNo) (c : UnitConfig) (p : Nat) : Ev :=
  ({ e with raised := e.raised + flag (decide ((p : Int) + (e.zone u z).offset < c.oMin)),
            lowered := e.lowered + flag (decide ((c.oMax : Int) < p + (e.zone u z).offset)) } : Ev).updZone u z fun r =>
    { r with target := some (targetValue c p (e.zone u z).offset) }

theorem Ev.stage7_some (hp : (e.zone u z).plan = some p) (hc : (e.unit u).config = some c) :
    e.stage7 u z = (e.targeted u z c p).actOnTarget u z (targetValue c p (e.zone u z).offset) := by
  unfold Ev.stage7
  rw [hp, hc]
  rfl

theorem Ev.stage7_none (h : (e.zone u z).plan = none ∨ (e.unit u).config = none) : e.stage7 u z = e := by
  unfold Ev.stage7
  rcases h with h | h
  · rw [h]
  · rw [h]
    cases (e.zone u z).plan <;> rfl

theorem Ev.targeted_zone : (e.targeted u z c p).zone v y
    = if u = v ∧ z = y then { e.zone v y with target := some (targetValue c p (e.zone u z).offset) } else e.zone v y := Ev.updZone_zone _ u v z y _

theorem Ev.Serves.updZone (h : d.Serves e) (u : UnitNo) (z : ZoneNo) (f : Zone → Zone) : d.Serves (e.updZone u z f) :=
  h.trans ⟨fun v => by
    rw [Ev.updZone, Ev.updUnit_unit]
    split
    · exact ⟨rfl, rfl, rfl, rfl, rfl, rfl, rfl⟩
    · exact .refl _, fun _ => .refl _⟩

theorem Ev.actOnTarget_serves (e : Ev) (u : UnitNo) (z : ZoneNo) (x : Nat) : e.Serves (e.actOnTarget u z x) :=
  ((Ev.Goes.refl (U := noUnit) (K := fun _ => True) fun _ _ _ => trivial).actOnTarget u z x).serves

theorem treatsZone_stage7 (u : UnitNo) : TreatsZone u fun e z => e.stage7 u z where
  only e z := by
    cases hp : (e.zone u z).plan with
    | none => rw [Ev.stage7_none (.inl hp)]; exact .refl u z e
    | some p =>
      cases hc : (e.unit u).config with
      | none => rw [Ev.stage7_none (.inr hc)]; exact .refl u z e
      | some c =>
        rw [Ev.stage7_some hp hc]
        refine Ev.OnlyZone.actOnTarget ?_ _
        exact (Ev.OnlyZone.of_same (fun _ _ => rfl) fun _ => rfl).updZone _
  frames e z := by
    cases hp : (e.zone u z).plan with
    | none => rw [Ev.stage7_none (.inl hp)]; exact .refl u z e
    | some p =>
      cases hc : (e.unit u).config with
      | none => rw [Ev.stage7_none (.inr hc)]; exact .refl u z e
      | some c =>
        rw [Ev.stage7_some hp hc]
        exact Ev.OnlyFrames.actOnTarget (.of_same fun _ => rfl) _
  serves e z := by
    cases hp : (e.zone u z).plan with
    | none => rw [Ev.stage7_none (.inl hp)]; exact .refl e
    | some p =>
      cases hc : (e.unit u).config with
      | none => rw [Ev.stage7_none (.inr hc)]; exact .refl e
      | some c =>
        rw [Ev.stage7_some hp hc]
        have hcount : e.Serves { e with raised := e.raised + flag (decide ((p : Int) + (e.zone u z).offset < c.oMin)),
                                        lowered := e.lowered + flag (decide ((c.oMax : Int) < p + (e.zone u z).offset)) } :=
          ⟨fun _ => .refl _, fun _ => .refl _⟩
        exact (hcount.updZone u z _).trans (Ev.actOnTarget_serves _ u z _)
  lists e z h := Ev.keeps_pendingLawful.stage7 u z h
  due e z h := by
    cases hp : (e.zone u z).plan with
    | none => rw [Ev.stage7_none (.inl hp)] at h; exact .inl h
    | some p =>
      cases hc : (e.unit u).config with
      | none => rw [Ev.stage7_none (.inr hc)] at h; exact .inl h
      | some c =>
        rw [Ev.stage7_some hp hc] at h ⊢
        exact (Ev.actOnTarget_due h).imp_left fun j => j

end Sys2Proof.Machine
end

