-- ==== Sys2Proof/Proofs/Reacting.lean ====
section
/-! PROOFS. A zone that acts on a new target has taken the outcome of R13, and keeps it through the rest of the pass and the arbiter's run. -/

namespace Sys2Proof.Machine

open Decode

variable {d e f g : Ev} {r s t : State} {u v : UnitNo} {y z : ZoneNo} {n : LineNo} {k : MoveKind} {c : UnitConfig} {x p : Nat} {l : List ZoneNo}

/-! ### Zones that act alike -/

/-- The fields of a zone that its moves use. -/
structure Zone.SameMoves (r r' : Zone) : Prop where
  state : r'.state = r.state
  position : r'.position = r.position
  commanded : r'.commanded = r.commanded
  moveKind : r'.moveKind = r.moveKind
  moveTag : r'.moveTag = r.moveTag
  attempts : r'.attempts = r.attempts
  moveTimer : r'.moveTimer = r.moveTimer
  faultCause : r'.faultCause = r.faultCause

theorem Zone.SameMoves.of_eq {r r' : Zone} (h : r' = r) : r.SameMoves r' := by
  subst h
  exact ⟨rfl, rfl, rfl, rfl, rfl, rfl, rfl, rfl⟩

/-- A zone acts on a target in both states alike. -/
structure State.ActsAlike (s t : State) (u : UnitNo) (z : ZoneNo) : Prop where
  moves : (s.zone u z).SameMoves (t.zone u z)
  waits : ∀ k, t.waitsFor u z k ↔ s.waitsFor u z k
  frames : t.keyFrames u z = s.keyFrames u z
  module : t.moduleState u z = s.moduleState u z
  tags : (t.line u).keyTags[z] = (s.line u).keyTags[z]

theorem State.ActsAlike.trans (h : r.ActsAlike s u z) (k : s.ActsAlike t u z) : r.ActsAlike t u z :=
  ⟨⟨k.moves.state.trans h.moves.state, k.moves.position.trans h.moves.position, k.moves.commanded.trans h.moves.commanded,
      k.moves.moveKind.trans h.moves.moveKind, k.moves.moveTag.trans h.moves.moveTag, k.moves.attempts.trans h.moves.attempts,
      k.moves.moveTimer.trans h.moves.moveTimer, k.moves.faultCause.trans h.moves.faultCause⟩,
    fun i => (k.waits i).trans (h.waits i), k.frames.trans h.frames, k.module.trans h.module, k.tags.trans h.tags⟩

theorem State.SameAt.actsAlike (h : s.SameAt t u z) (hl : (s.line u).SameService (t.line u)) : s.ActsAlike t u z where
  moves := .of_eq h.zone
  waits := h.waits
  frames := h.frames
  module := by rw [State.moduleState, hl.modules]; rfl
  tags := by rw [hl.keyTags]

theorem State.zeroEntry_congr (h : ∀ k, t.waitsFor u z k ↔ s.waitsFor u z k) : t.zeroEntry u z = s.zeroEntry u z := by
  rw [Bool.eq_iff_iff, zeroEntry_iff, zeroEntry_iff, h]

theorem State.ActsAlike.reacted (h : s.ActsAlike r u z) (k : r.Reacted t u z c x) : s.Reacted t u z c x := by
  have hq : r.frameQueued u z = s.frameQueued u z := by rw [State.frameQueued_eq, State.frameQueued_eq, h.frames]
  obtain ⟨h1, h2, h3, h4, h5, h6, h7, h8⟩ := h.moves
  unfold State.Reacted State.PlacedFor State.Redirected at k ⊢
  rw [h1, h2, h3, h4, h5, h6, h7, h8, State.zeroEntry_congr h.waits, h.module, h.tags, hq] at k
  exact k

/-! ### What the zone shows -/

/-- The frames of a key after a retarget, among those of the key. -/
theorem State.moves_to_iff : (∀ f ∈ (t.line u).queue.motion, ∀ y g, f = .move z y g → y = x) ↔ ∀ y g, .move z y g ∈ t.keyFrames u z → y = x := by
  simp only [State.mem_keyFrames, MotionFrame.forKey, beq_self_eq_true, and_true]
  exact ⟨fun h y g k => h _ k y g rfl, fun h f hf y g k => h y g (k ▸ hf)⟩

theorem State.move_queued_iff {q : Tag} : .move z x q ∈ (t.line u).queue.motion ↔ .move z x q ∈ t.keyFrames u z := by
  simp [State.mem_keyFrames, MotionFrame.forKey]

theorem State.Redirected.shown (h : s.Redirected r u z c x) (hz : t.zone u z = r.zone u z) (hf : t.keyFrames u z = r.keyFrames u z) :
    s.Redirected t u z c x := by
  unfold State.Redirected at h ⊢
  rw [hz]
  simp only [State.moves_to_iff, State.move_queued_iff, hf] at h ⊢
  exact h

theorem State.PlacedFor.shown {tolerance : Nat} (h : s.PlacedFor r u z tolerance x) (hz : t.zone u z = r.zone u z) : s.PlacedFor t u z tolerance x := by
  unfold State.PlacedFor State.Driven at h ⊢
  rwa [hz]

theorem State.Reacted.shown (h : s.Reacted r u z c x) (hr : r.SameAt t u z) : s.Reacted t u z c x := by
  have hw := State.zeroEntry_congr hr.waits
  unfold State.Reacted at h ⊢
  cases hs : (s.zone u z).state <;> rw [hs] at h <;> dsimp only at h ⊢
  case rest => exact h.shown hr.zone
  case pending =>
    split at h
    · rw [if_pos ‹_›, hr.zone, hw]
      exact h
    · rw [if_neg ‹_›]
      exact h.shown hr.zone
  case moving => exact h.shown hr.zone hr.frames
  all_goals
    rw [hr.zone]
    exact h

/-! ### Through the arbiter's run -/

/-- A zone that has acted on the target x. -/
structure State.ActedOn (s r : State) (u : UnitNo) (z : ZoneNo) (c : UnitConfig) (x : Nat) : Prop where
  reacted : s.Reacted r u z c x
  target : (r.zone u z).target = some x
  waits : (r.zone u z).state = .pending → r.waitsFor u z .position ∨ ((s.zone u z).state = .pending ∧ s.zeroEntry u z = true)

theorem State.PlacedFor.granted {tolerance : Nat} (h : s.PlacedFor r u z tolerance x) (hp : (r.zone u z).state = .pending)
    (hd : t.Driven u z x) : s.PlacedFor t u z tolerance x := by
  unfold State.PlacedFor at h ⊢
  split
  · rw [if_pos ‹_›, hp] at h
    cases h.1
  · rw [if_neg ‹_›] at h
    cases hpos : (s.zone u z).position with
    | none => exact hd
    | some q =>
      rw [hpos] at h
      dsimp only at h ⊢
      split
      · exact hd
      · rw [if_neg ‹_›, hp] at h
        cases h

theorem State.ActedOn.granted (h : s.ActedOn r u z c x) (hl : r.pendingLawful) (hp : (r.zone u z).state = .pending) (hw : r.waitsFor u z k)
    (hg : (r.zone u z).GrantedAs (t.zone u z) k) : s.Reacted t u z c x := by
  have hd (hpos : r.waitsFor u z .position) : t.Driven u z x := by
    obtain rfl := hl.waits_unique hw hpos
    exact .inr ⟨hg.state, hg.moveKind, by rw [hg.commanded, h.target]; rfl⟩
  have hR := h.reacted
  have hW := h.waits hp
  unfold State.Reacted at hR ⊢
  cases hs : (s.zone u z).state <;> rw [hs] at hR hW <;> dsimp only at hR ⊢
  case rest => exact hR.granted hp (hd (hW.resolve_right fun j => by cases j.1))
  case pending =>
    split at hR
    · rw [if_pos ‹_›]
      split at hR
      · rw [hp] at hR
        cases hR.1
      · rw [if_neg ‹_›]
        rcases hR with ⟨_, j⟩ | ⟨j, _⟩
        · obtain rfl := hl.waits_unique hw (zeroEntry_iff.1 j)
          exact .inr ⟨hg.state, hg.moveKind⟩
        · rw [hp] at j
          cases j
    · next hne =>
      rw [if_neg hne]
      exact hR.granted hp (hd (hW.resolve_right fun j => hne j.2))
  case moving =>
    have j := hR.1
    rw [hp] at j
    cases j
  case faulted =>
    rw [hp] at hR
    cases hR.1
  all_goals
    rw [hp] at hR
    cases hR

/-- The arbiter leaves what the zone shows, or grants the move that the zone waits for. -/
theorem State.ActedOn.settled (h : s.ActedOn r u z c x) (hl : r.pendingLawful) (hA : r.ArbitratedAt t u z)
    (hf : (r.zone u z).state ≠ .pending → t.keyFrames u z = r.keyFrames u z) : s.Reacted t u z c x := by
  rcases hA with ⟨h1, h2⟩ | ⟨hp, k, h2, h3⟩
  · by_cases hp : (r.zone u z).state = .pending
    · have hR := h.reacted
      unfold State.Reacted at hR ⊢
      cases hs : (s.zone u z).state <;> rw [hs] at hR <;> dsimp only at hR ⊢
      case rest => exact hR.shown h1
      case pending =>
        split at hR
        · rw [if_pos ‹_›, h1, State.zeroEntry_congr h2]
          exact hR
        · rw [if_neg ‹_›]
          exact hR.shown h1
      case moving =>
        have j := hR.1
        rw [hp] at j
        cases j
      all_goals
        rw [h1]
        exact hR
    · exact h.reacted.shown ⟨h1, h2, hf hp⟩
  · exact h.granted hl hp h2 h3

theorem State.ActedOn.of_alike (h : r.ActedOn t u z c x) (k : s.ActsAlike r u z) : s.ActedOn t u z c x :=
  ⟨k.reacted h.reacted, h.target, fun j => by rw [← State.zeroEntry_congr k.waits, ← k.moves.state]; exact h.waits j⟩

theorem State.ActedOn.shown (h : s.ActedOn r u z c x) (k : r.SameAt t u z) : s.ActedOn t u z c x :=
  ⟨h.reacted.shown k, by rw [k.zone, h.target], fun j => by rw [k.waits]; exact h.waits (by rwa [← k.zone])⟩

/-! ### The reaction -/

theorem State.PlacedFor.of_placed {tolerance : Nat}
    (h : (t.zone u z).Placed (placementOf (decide (s.moduleState u z = .missing)) tolerance (some x) (s.zone u z).position)) :
    s.PlacedFor t u z tolerance x := by
  unfold State.PlacedFor
  unfold placementOf at h
  split
  · rw [if_pos (decide_eq_true ‹_›)] at h
    exact h
  · rw [if_neg (by simpa using ‹¬_›)] at h
    cases hpos : (s.zone u z).position with
    | none => rw [hpos] at h; exact .inl h
    | some q =>
      rw [hpos] at h
      dsimp only at h ⊢
      split
      · rw [if_pos ‹_›] at h; exact .inl h
      · rw [if_neg ‹_›] at h; exact h

theorem Ev.place_aims (e : Ev) (u : UnitNo) (z : ZoneNo) : (e.zone u z).SameAims ((e.place u z).zone u z) :=
  (((Ev.Goes.refl (U := noUnit) (K := fun _ => True) fun _ _ _ => trivial).place u z).others u not_false).aims z

theorem Ev.place_acted (hl : e.toState.pendingLawful) (hc : (e.unit u).config = some c) (hx : (e.zone u z).target = some x)
    (hs : (e.zone u z).state = .rest ∨ (e.zone u z).state = .pending) : e.toState.ActedOn (e.place u z).toState u z c x := by
  have htarget : ((e.place u z).zone u z).target = some x := ((e.place_aims u z).target).trans hx
  have hplaced := e.place_placed u z
  by_cases hzero : (e.zone u z).state = .pending ∧ e.zeroEntry u z = true
  · refine ⟨?_, htarget, fun _ => .inr hzero⟩
    unfold State.Reacted
    rw [hzero.1]
    dsimp only
    rw [if_pos hzero.2]
    unfold State.placement at hplaced
    split
    · rw [if_pos ‹_›] at hplaced
      exact hplaced
    · next hm =>
      have hsame : e.place u z = e := by
        unfold Ev.place State.placement
        rw [if_neg hm, if_pos hzero]
        exact Ev.enterPending_of_pending hzero.1
      rw [hsame]
      exact .inl hzero
  · have hfor : e.toState.PlacedFor (e.place u z).toState u z c.tolerance x := by
      rw [State.placement_eq hzero, hx] at hplaced
      have htol : (e.unit u).tolerance = c.tolerance := by rw [UnitRec.tolerance, hc]; rfl
      rw [htol] at hplaced
      exact .of_placed hplaced
    refine ⟨?_, htarget, fun hp => .inl ?_⟩
    · unfold State.Reacted
      rcases hs with hs | hs
      · rw [hs]
        exact hfor
      · rw [hs]
        dsimp only
        rw [if_neg fun j => hzero ⟨hs, j⟩]
        exact hfor
    · have hpend : e.placement u z = .pending := by
        cases hpl : e.placement u z with
        | pending => rfl
        | rest => rw [hpl] at hplaced; cases hp.symm.trans hplaced
        | faulted => rw [hpl] at hplaced; cases hp.symm.trans hplaced.1
      have heq : e.place u z = e.enterPending u z .position := by rw [Ev.place, hpend]
      rcases hs with hs | hs
      · rw [heq, State.waitsFor, Ev.enterPending_line (by rw [hs]; decide), if_pos rfl]
        exact List.mem_append_right _ List.mem_cons_self
      · rw [heq, Ev.enterPending_of_pending hs]
        obtain ⟨k, hk⟩ := hl.waits hs
        cases k with
        | position => exact hk
        | zero => exact absurd ⟨hs, zeroEntry_iff.2 hk⟩ hzero

theorem Ev.sendMove_queue (k : Nat) : ((e.sendMove u z x k).line u).queue.motion = (e.line u).queue.motion ++ [.move z x (e.nextKeyTag u z)] := by
  unfold Ev.sendMove
  show (((e.tagTaken u (e.nextKeyTag u z)).queueKeyFrame u z _).line u).queue.motion = _
  rw [Ev.queueKeyFrame, Ev.updQueue, Ev.updLine_line, if_pos rfl, Ev.tagTaken, Ev.updLine_line, if_pos rfl]

/-- The MOVE that a retarget sends anew (R55). -/
theorem Ev.sendMove_redirected (hm : (e.zone u z).state = .moving) :
    ((e.sendMove u z x 0).zone u z).state = .moving ∧ ((e.sendMove u z x 0).zone u z).commanded = some x
      ∧ ((e.sendMove u z x 0).zone u z).attempts = 0 ∧ ((e.sendMove u z x 0).zone u z).moveTimer = some (e.unit u).moveTimeout
      ∧ ∃ q, ((e.sendMove u z x 0).zone u z).moveTag = some q ∧ .move z x q ∈ ((e.sendMove u z x 0).line u).queue.motion
        ∧ q ≠ (e.line u).keyTags[z].reported ∧ q ≠ (e.line u).keyTags[z].sent := by
  rw [Ev.sendMove_zone, if_pos ⟨rfl, rfl⟩, Ev.sendMove_queue]
  exact ⟨hm, rfl, rfl, rfl, _, rfl, List.mem_append_right _ List.mem_cons_self, nextTag_fresh _ _⟩

/-- The event that gives a queued MOVE its new position in its place (R55). -/
def Ev.rewritten (e : Ev) (u : UnitNo) (z : ZoneNo) (x : Nat) : Ev :=
  (e.updQueue u fun q => { q with motion := q.motion.map (rewriteMove z x) }).updZone u z fun r =>
    { r with commanded := some x, attempts := 0, moveTimer := some (e.unit u).moveTimeout }

theorem Ev.retarget_eq (e : Ev) (u : UnitNo) (z : ZoneNo) (x : Nat) : e.retarget u z x
    = if (e.zone u z).moveKind = some .zero then e
      else if distance x ((e.zone u z).commanded.getD 0) ≤ (e.unit u).tolerance then e
      else if e.frameQueued u z then e.rewritten u z x else e.sendMove u z x 0 := rfl

theorem Ev.rewritten_queue : ((e.rewritten u z x).line u).queue.motion = (e.line u).queue.motion.map (rewriteMove z x) := by
  show ((e.updQueue u fun q => { q with motion := q.motion.map (rewriteMove z x) }).line u).queue.motion = _
  rw [Ev.updQueue, Ev.updLine_line, if_pos rfl]

theorem rewriteMove_move {f : MotionFrame} {w : Nat} {q : Tag} (h : rewriteMove z x f = .move z w q) : w = x := by
  cases f with
  | move y' p' t' =>
    simp only [rewriteMove] at h
    split at h
    · simp only [MotionFrame.move.injEq] at h
      exact h.2.1.symm
    · simp only [MotionFrame.move.injEq] at h
      exact absurd h.1 ‹_›
  | zero y' t' => cases h
  | sweep v' t' => cases h

/-- A MOVING zone has been given its new target (R55, R56). -/
theorem Ev.retarget_redirected (hm : (e.zone u z).state = .moving) (hc : (e.unit u).config = some c) :
    e.toState.Redirected (e.retarget u z x).toState u z c x := by
  have htol : (e.unit u).tolerance = c.tolerance := by rw [UnitRec.tolerance, hc]; rfl
  have htime : (e.unit u).moveTimeout = c.moveTimeout := by rw [UnitRec.moveTimeout, hc]; rfl
  have hstate : ((e.retarget u z x).zone u z).state = .moving := by
    rw [Ev.retarget_eq]
    split
    · exact hm
    · split
      · exact hm
      · split
        · rw [Ev.rewritten, Ev.updZone_zone, if_pos ⟨rfl, rfl⟩]
          exact hm
        · exact Ev.sendMove_redirected hm |>.1
  refine ⟨hstate, ?_⟩
  split
  · next y hk hy =>
    have hne : ¬(e.zone u z).moveKind = some .zero := by rw [hk]; decide
    by_cases hd : distance x y ≤ c.tolerance
    · have heq : e.retarget u z x = e := by rw [Ev.retarget_eq, if_neg hne, hy, Option.getD_some, htol, if_pos hd]
      rw [heq, if_pos hd]
      exact ⟨hy, rfl, rfl, rfl⟩
    · rw [if_neg hd]
      by_cases hq : e.frameQueued u z = true
      · have heq : e.retarget u z x = e.rewritten u z x := by
          rw [Ev.retarget_eq, if_neg hne, hy, Option.getD_some, htol, if_neg hd, if_pos hq]
        have hz : (e.rewritten u z x).zone u z = { e.zone u z with
            commanded := some x, attempts := 0, moveTimer := some (e.unit u).moveTimeout } := (Ev.updZone_zone _ _ _ _ _ _).trans (if_pos ⟨rfl, rfl⟩)
        rw [heq, if_pos hq, hz, Ev.rewritten_queue]
        refine ⟨rfl, rfl, congrArg some htime, rfl, fun f hf w q h => ?_⟩
        obtain ⟨f', _, rfl⟩ := List.mem_map.1 hf
        exact rewriteMove_move h
      · have heq : e.retarget u z x = e.sendMove u z x 0 := by
          rw [Ev.retarget_eq, if_neg hne, hy, Option.getD_some, htol, if_neg hd, if_neg hq]
        obtain ⟨_, h2, h3, h4, h5⟩ := Ev.sendMove_redirected (x := x) hm
        rw [heq, if_neg hq]
        exact ⟨h2, h3, htime ▸ h4, h5⟩
  · next hk =>
    rw [Ev.retarget_eq, if_pos hk]
    exact ⟨hk, rfl, rfl, rfl, rfl⟩
  · trivial

theorem Ev.retarget_target : ((e.retarget u z x).zone u z).target = (e.zone u z).target := by
  rw [Ev.retarget_eq]
  split
  · rfl
  · split
    · rfl
    · split
      · rw [Ev.rewritten, Ev.updZone_zone, if_pos ⟨rfl, rfl⟩]
        rfl
      · rw [Ev.sendMove_zone, if_pos ⟨rfl, rfl⟩]

/-- Where a zone acts on its target (R13). -/
theorem Ev.actOnTarget_acted (hl : e.toState.pendingLawful) (hc : (e.unit u).config = some c) (hx : (e.zone u z).target = some x) :
    e.toState.ActedOn (e.actOnTarget u z x).toState u z c x := by
  rcases (e.zone u z).state.cases_target with j | j | j
  · rw [Ev.actOnTarget_place j]
    exact Ev.place_acted hl hc hx j
  · rw [Ev.actOnTarget_moving j]
    have hR := Ev.retarget_redirected (x := x) j hc
    refine ⟨?_, Ev.retarget_target.trans hx, fun h => ?_⟩
    · unfold State.Reacted
      rw [j]
      exact hR
    · rw [hR.1] at h
      cases h
  · rw [Ev.actOnTarget_other j]
    refine ⟨?_, hx, fun h => ?_⟩
    · unfold State.Reacted
      cases hs : (e.zone u z).state <;> rw [hs] at j <;> simp_all
    · rw [h] at j
      simp at j

/-! ### Stage 7 -/

theorem Ev.targeted_alike (e : Ev) (u : UnitNo) (z : ZoneNo) (c : UnitConfig) (p : Nat) : e.toState.ActsAlike (e.targeted u z c p).toState u z where
  moves := by
    rw [Ev.targeted_zone, if_pos ⟨rfl, rfl⟩]
    exact ⟨rfl, rfl, rfl, rfl, rfl, rfl, rfl, rfl⟩
  waits _ := .rfl
  frames := rfl
  module := rfl
  tags := rfl

theorem Ev.targeted_pendingLawful (hl : e.toState.pendingLawful) : (e.targeted u z c p).toState.pendingLawful := fun v y => by
  have h := hl v y
  rw [Ev.targeted_zone]
  split
  · exact h
  · exact h

theorem Ev.targeted_config (hc : (e.unit u).config = some c) : ((e.targeted u z c p).unit u).config = some c := by
  rw [Ev.targeted, Ev.updZone, Ev.updUnit_unit_self]
  exact hc

/-- Stage 7 has treated a zone of this plan: its target is written, and it acts on it. -/
theorem Ev.stage7_acted (hl : e.toState.pendingLawful) (hp : (e.zone u z).plan = some p) (hc : (e.unit u).config = some c) :
    e.toState.ActedOn (e.stage7 u z).toState u z c (targetValue c p (e.zone u z).offset) := by
  rw [Ev.stage7_some hp hc]
  refine (Ev.actOnTarget_acted (e := e.targeted u z c p) (Ev.targeted_pendingLawful hl) (Ev.targeted_config hc) ?_).of_alike
    (Ev.targeted_alike e u z c p)
  rw [Ev.targeted_zone, if_pos ⟨rfl, rfl⟩]

/-- Stage 7 writes the target, and leaves the other fields of the zone that no move touches. -/
theorem Ev.stage7_aims (hp : (e.zone u z).plan = some p) (hc : (e.unit u).config = some c) :
    { e.zone u z with target := some (targetValue c p (e.zone u z).offset) }.SameAims ((e.stage7 u z).zone u z) := by
  have h := (((Ev.Goes.refl (e := e.targeted u z c p) (U := noUnit) (K := fun _ => True) fun _ _ _ => trivial).actOnTarget u z
    (targetValue c p (e.zone u z).offset)).others u not_false).aims z
  rw [Ev.stage7_some hp hc]
  have hz : (e.targeted u z c p).zone u z = _ := Ev.targeted_zone.trans (if_pos ⟨rfl, rfl⟩)
  rw [← hz]
  exact h

theorem Ev.place_samples (h : (e.zone v y).samples = []) : ((e.place u z).zone v y).samples = [] := by
  unfold Ev.place
  split
  · unfold Ev.enterPending
    split
    · exact h
    · exact Ev.changeState_samples .pending h
  · exact Ev.changeState_samples .rest h
  · split
    · rw [Ev.updZone_zone]
      split <;> exact h
    · have hc := Ev.changeState_samples (u := u) (z := z) .faulted h
      have hz := Ev.updZone_zone (e.changeState u z .faulted) u v z y fun r => { r with faultCause := some .noFeedback }
      refine (congrArg Zone.samples hz).trans ?_
      split <;> exact hc

theorem Ev.actOnTarget_samples (h : (e.zone v y).samples = []) : ((e.actOnTarget u z x).zone v y).samples = [] := by
  rcases (e.zone u z).state.cases_target with j | j | j
  · rw [Ev.actOnTarget_place j]
    exact Ev.place_samples h
  · rw [Ev.actOnTarget_moving j, Ev.retarget_eq]
    split
    · exact h
    · split
      · exact h
      · split
        · rw [Ev.rewritten, Ev.updZone_zone]
          split <;> exact h
        · rw [Ev.sendMove_zone]
          split <;> exact h
  · rwa [Ev.actOnTarget_other j]

theorem Ev.stage7_samples (h : (e.zone v y).samples = []) : ((e.stage7 u z).zone v y).samples = [] := by
  cases hp : (e.zone u z).plan with
  | none => rwa [Ev.stage7_none (.inl hp)]
  | some p =>
    cases hc : (e.unit u).config with
    | none => rwa [Ev.stage7_none (.inr hc)]
    | some c =>
      rw [Ev.stage7_some hp hc]
      refine Ev.actOnTarget_samples ?_
      rw [Ev.targeted_zone]
      split <;> exact h

end Sys2Proof.Machine
end

