-- ==== Sys2Proof/Proofs/Openings.lean ====
section
/-! PROOFS. The passes of PRESET and SWEEP: the hand-over of the sweep to the fountain (R35), and stage 7 for the unit's zones (R38 to
R41). -/

namespace Sys2Proof.Machine

open Decode

variable {d e f g : Ev} {r s t : State} {u v : UnitNo} {y z : ZoneNo} {n m : LineNo} {k : MoveKind} {c : UnitConfig} {x p : Nat} {l : List ZoneNo}

/-! ### The fountain's pursuit -/

/-- What the fountain's pursuit leaves: the zones with their entries and frames, the units' settings but for a sweep fault, and the counts. -/
structure Ev.Pursuing (d e : Ev) : Prop where
  zone : ∀ v y, e.zone v y = d.zone v y
  config : ∀ v, (e.unit v).config = (d.unit v).config
  currentSweep : ∀ v, (e.unit v).currentSweep = (d.unit v).currentSweep
  waiting : ∀ v, (e.unit v).waiting = (d.unit v).waiting
  staged : ∀ v, (e.unit v).staged = (d.unit v).staged
  pendingList : ∀ m, (e.line m).pendingList = (d.line m).pendingList
  frames : ∀ v y, e.keyFrames v y = d.keyFrames v y
  modules : ∀ m, (e.line m).modules = (d.line m).modules
  keyTags : ∀ m, (e.line m).keyTags = (d.line m).keyTags
  wanted : ∀ m, (e.line m).fountain.wanted = (d.line m).fountain.wanted
  fountainTags : ∀ m, (e.line m).fountainTags = (d.line m).fountainTags
  port : e.port = d.port
  tally : e.tally = d.tally
  arbiterDue : e.arbiterDue = d.arbiterDue

namespace Ev.Pursuing

theorem refl (e : Ev) : e.Pursuing e :=
  ⟨fun _ _ => rfl, fun _ => rfl, fun _ => rfl, fun _ => rfl, fun _ => rfl, fun _ => rfl, fun _ _ => rfl, fun _ => rfl, fun _ => rfl, fun _ => rfl,
    fun _ => rfl, rfl, rfl, rfl⟩

theorem trans (h : d.Pursuing e) (k : e.Pursuing f) : d.Pursuing f :=
  ⟨fun v y => (k.zone v y).trans (h.zone v y), fun v => (k.config v).trans (h.config v),
    fun v => (k.currentSweep v).trans (h.currentSweep v), fun v => (k.waiting v).trans (h.waiting v), fun v => (k.staged v).trans (h.staged v),
    fun m => (k.pendingList m).trans (h.pendingList m), fun v y => (k.frames v y).trans (h.frames v y),
    fun m => (k.modules m).trans (h.modules m), fun m => (k.keyTags m).trans (h.keyTags m), fun m => (k.wanted m).trans (h.wanted m),
    fun m => (k.fountainTags m).trans (h.fountainTags m), k.port.trans h.port, k.tally.trans h.tally, k.arbiterDue.trans h.arbiterDue⟩

/-- A line changes beside its pending list, the frames of its keys, its modules, its key tags and its wanted sweep. -/
theorem updLine (h : d.Pursuing e) (n : LineNo) (g : Line → Line) (h1 : ∀ l, (g l).pendingList = l.pendingList)
    (h2 : ∀ y l, (g l).queue.motion.filter (MotionFrame.forKey y) = l.queue.motion.filter (MotionFrame.forKey y))
    (h3 : ∀ l, (g l).modules = l.modules) (h4 : ∀ l, (g l).keyTags = l.keyTags) (h5 : ∀ l, (g l).fountain.wanted = l.fountain.wanted)
    (h6 : ∀ l, (g l).fountainTags = l.fountainTags) : d.Pursuing (e.updLine n g) := by
  refine h.trans ⟨fun _ _ => rfl, fun _ => rfl, fun _ => rfl, fun _ => rfl, fun _ => rfl, fun m => ?_, fun v y => ?_, fun m => ?_, fun m => ?_,
    fun m => ?_, fun m => ?_, rfl, rfl, rfl⟩
  · rw [Ev.updLine_line]; split <;> simp only [h1]
  · unfold State.keyFrames; rw [Ev.updLine_line]; split <;> simp only [h2]
  · rw [Ev.updLine_line]; split <;> simp only [h3]
  · rw [Ev.updLine_line]; split <;> simp only [h4]
  · rw [Ev.updLine_line]; split <;> simp only [h5]
  · rw [Ev.updLine_line]; split <;> simp only [h6]

theorem updFountain (h : d.Pursuing e) (n : LineNo) (g : Fountain → Fountain) (hg : ∀ r, (g r).wanted = r.wanted) :
    d.Pursuing (e.updFountain n g) :=
  h.updLine n _ (fun _ => rfl) (fun _ _ => rfl) (fun _ => rfl) (fun _ => rfl) (fun _ => hg _) fun _ => rfl

/-- A queue changes beside the frames of the keys. -/
theorem updQueue (h : d.Pursuing e) (n : LineNo) (g : CommandQueue → CommandQueue)
    (hg : ∀ y q, (g q).motion.filter (MotionFrame.forKey y) = q.motion.filter (MotionFrame.forKey y)) : d.Pursuing (e.updQueue n g) :=
  h.updLine n _ (by exact fun _ => rfl) (by exact fun y _ => hg y _) (by exact fun _ => rfl) (by exact fun _ => rfl) (by exact fun _ => rfl)
    (by exact fun _ => rfl)

theorem updUnit (h : d.Pursuing e) (u : UnitNo) (g : UnitRec → UnitRec) (h1 : ∀ r, (g r).zones = r.zones) (h2 : ∀ r, (g r).config = r.config)
    (h3 : ∀ r, (g r).currentSweep = r.currentSweep) (h4 : ∀ r, (g r).waiting = r.waiting) (h5 : ∀ r, (g r).staged = r.staged) :
    d.Pursuing (e.updUnit u g) := by
  refine h.trans ⟨fun v y => ?_, fun v => ?_, fun v => ?_, fun v => ?_, fun v => ?_, fun _ => rfl, fun _ _ => rfl, fun _ => rfl, fun _ => rfl,
    fun _ => rfl, fun _ => rfl, rfl, rfl, rfl⟩
  · show ((e.updUnit u g).unit v).zones[y] = (e.unit v).zones[y]
    rw [Ev.updUnit_unit]; split <;> simp only [h1]
  · rw [Ev.updUnit_unit]; split <;> simp only [h2]
  · rw [Ev.updUnit_unit]; split <;> simp only [h3]
  · rw [Ev.updUnit_unit]; split <;> simp only [h4]
  · rw [Ev.updUnit_unit]; split <;> simp only [h5]

theorem setSweepFault (h : d.Pursuing e) (u : UnitNo) (on : Bool) : d.Pursuing (e.setSweepFault u on) := by
  unfold Ev.setSweepFault
  split
  · exact h
  · have hset := h.updUnit u (fun r => { r with sweepFault := on }) (by exact fun _ => rfl) (by exact fun _ => rfl) (by exact fun _ => rfl)
      (by exact fun _ => rfl) (by exact fun _ => rfl)
    exact hset.trans ⟨fun _ _ => rfl, fun _ => rfl, fun _ => rfl, fun _ => rfl, fun _ => rfl, fun _ => rfl, fun _ _ => rfl, fun _ => rfl,
      fun _ => rfl, fun _ => rfl, fun _ => rfl, rfl, rfl, rfl⟩

theorem sendSweep (h : d.Pursuing e) (n : LineNo) (x : Nat) : d.Pursuing (e.sendSweep n x) := by
  unfold Ev.sendSweep
  have htag := h.updLine n (fun l => { l with tagCounter := e.nextSweepTag n + 1 }) (by exact fun _ => rfl) (by exact fun _ _ => rfl)
    (by exact fun _ => rfl) (by exact fun _ => rfl) (by exact fun _ => rfl) (by exact fun _ => rfl)
  refine updFountain (htag.updQueue n _ ?_) n _ (by exact fun _ => rfl)
  exact fun y q => by simp [List.filter_append, MotionFrame.forKey]

theorem forKey_rewriteSweep (y : ZoneNo) (x : Nat) (ms : List MotionFrame) :
    (ms.map (rewriteSweep x)).filter (MotionFrame.forKey y) = ms.filter (MotionFrame.forKey y) := by
  induction ms with
  | nil => rfl
  | cons f fs ih =>
    rw [List.map_cons, List.filter_cons, List.filter_cons, ih]
    cases f <;> rfl

theorem pursueTo (h : d.Pursuing e) (n : LineNo) (x : Nat) : d.Pursuing (e.pursueTo n x) := by
  unfold Ev.pursueTo
  split
  · split
    · exact h
    · split
      · exact h.sendSweep n x
      · exact (h.updFountain n _ (by exact fun _ => rfl)).setSweepFault n true
      · exact h
  · split
    · exact h
    · split
      · exact (h.updQueue n _ (by exact fun y _ => forKey_rewriteSweep y x _)).updFountain n _ (by exact fun _ => rfl)
      · exact h.sendSweep n x

theorem pursue (h : d.Pursuing e) (n : LineNo) : d.Pursuing (e.pursue n) := by
  unfold Ev.pursue
  split
  · split
    · exact h.pursueTo n _
    · exact h
  · exact h

theorem pursueAfresh (h : d.Pursuing e) (n : LineNo) : d.Pursuing (e.pursueAfresh n) :=
  (h.updFountain n _ (by exact fun _ => rfl)).pursue n

end Ev.Pursuing

/-! ### The hand-over -/

/-- An event that hands a sweep to the fountain, before the fountain is pursued (R35). -/
def Ev.handing (e : Ev) (u : UnitNo) (x : Nat) : Ev :=
  (e.updUnit u fun r => { r with currentSweep := some x }).updFountain u fun f => { f with wanted := some x }

/-- What the hand-over leaves of a unit's zones, and what it sets. -/
structure Ev.HandedOver (u : UnitNo) (x : Nat) (d e : Ev) : Prop where
  zone : ∀ v y, e.zone v y = d.zone v y
  config : (e.unit u).config = (d.unit u).config
  waiting : (e.unit u).waiting = (d.unit u).waiting
  staged : (e.unit u).staged = (d.unit u).staged
  pendingList : ∀ m, (e.line m).pendingList = (d.line m).pendingList
  frames : ∀ v y, e.keyFrames v y = d.keyFrames v y
  modules : ∀ m, (e.line m).modules = (d.line m).modules
  keyTags : ∀ m, (e.line m).keyTags = (d.line m).keyTags
  tally : e.tally = d.tally
  arbiterDue : e.arbiterDue = d.arbiterDue
  currentSweep : (e.unit u).currentSweep = some x
  wanted : (e.line u).fountain.wanted = some x

theorem Ev.handOver_handed (e : Ev) (u : UnitNo) (x : Nat) : e.HandedOver u x (e.handOver u x) := by
  have h : (e.handing u x).Pursuing (e.handOver u x) := (Ev.Pursuing.refl _).pursueAfresh u
  have hunit (v : UnitNo) : (e.handing u x).unit v = if u = v then { e.unit v with currentSweep := some x } else e.unit v :=
    Ev.updUnit_unit e u v fun r => { r with currentSweep := some x }
  have hline (m : LineNo) : (e.handing u x).line m
      = if u = m then { e.line m with fountain := { (e.line m).fountain with wanted := some x } } else e.line m := Ev.updLine_line _ _ _ _
  refine ⟨fun v y => (h.zone v y).trans ?_, (h.config u).trans ?_, (h.waiting u).trans ?_, (h.staged u).trans ?_, fun m => (h.pendingList m).trans ?_,
    fun v y => (h.frames v y).trans ?_, fun m => (h.modules m).trans ?_, fun m => (h.keyTags m).trans ?_, h.tally, h.arbiterDue,
    (h.currentSweep u).trans ?_, (h.wanted u).trans ?_⟩
  · show ((e.handing u x).unit v).zones[y] = (e.unit v).zones[y]
    rw [hunit]; split <;> rfl
  · rw [hunit, if_pos rfl]
  · rw [hunit, if_pos rfl]
  · rw [hunit, if_pos rfl]
  · rw [hline]; split <;> rfl
  · unfold State.keyFrames; rw [hline]; split <;> rfl
  · rw [hline]; split <;> rfl
  · rw [hline]; split <;> rfl
  · rw [hunit, if_pos rfl]
  · rw [hline, if_pos rfl]

/-! ### Stage 7 for the zones of a pass -/

theorem Ev.stage7_tally (hp : (e.zone u z).plan = some p) (hc : (e.unit u).config = some c) :
    (e.stage7 u z).tally = (e.raised + flag (decide ((p : Int) + (e.zone u z).offset < c.oMin)),
      e.lowered + flag (decide ((c.oMax : Int) < p + (e.zone u z).offset)), e.saturated) := by
  rw [Ev.stage7_some hp hc, Ev.actOnTarget_tally]
  rfl

/-- The sums of plan and offset that stage 7 treats. -/
def State.sumsOf (s : State) (u : UnitNo) (l : List ZoneNo) : List Int :=
  l.filterMap fun z => (s.zone u z).plan.map fun p => (p : Int) + (s.zone u z).offset

theorem State.sumsOf_congr (h : ∀ z ∈ l, (t.zone u z).plan = (s.zone u z).plan ∧ (t.zone u z).offset = (s.zone u z).offset) :
    t.sumsOf u l = s.sumsOf u l := by
  refine List.filterMap_congr fun z hz => ?_
  obtain ⟨h1, h2⟩ := h z hz
  rw [h1, h2]

theorem clampCounts_cons (c : UnitConfig) (x : Int) (xs : List Int) :
    (clampCounts c (x :: xs)).raised = (clampCounts c xs).raised + flag (decide (x < c.oMin))
      ∧ (clampCounts c (x :: xs)).lowered = (clampCounts c xs).lowered + flag (decide ((c.oMax : Int) < x)) := by
  constructor <;> simp only [clampCounts, List.countP_cons, flag]

theorem Ev.stage7All_tally (hn : l.Nodup) (hc : (e.unit u).config = some c) : (e.stage7All u l).tally
    = (e.raised + (clampCounts c (e.sumsOf u l)).raised, e.lowered + (clampCounts c (e.sumsOf u l)).lowered, e.saturated) := by
  induction l generalizing e with
  | nil => rfl
  | cons z l ih =>
    obtain ⟨hz, hn⟩ := List.nodup_cons.1 hn
    have hc' : ((e.stage7 u z).unit u).config = some c := by rw [(((treatsZone_stage7 u).serves e z).settings u).config, hc]
    have hsums : (e.stage7 u z).sumsOf u l = e.sumsOf u l := State.sumsOf_congr fun y hy => by
      have hsame := ((treatsZone_stage7 u).sameAt (v := u) (y := y) e (z := z) fun j => hz (j.2 ▸ hy)).zone
      rw [hsame]
      exact ⟨rfl, rfl⟩
    refine (ih (e := e.stage7 u z) hn hc').trans ?_
    rw [hsums]
    cases hp : (e.zone u z).plan with
    | none =>
      have hcons : e.sumsOf u (z :: l) = e.sumsOf u l := by rw [State.sumsOf, List.filterMap_cons, hp]; rfl
      rw [Ev.stage7_none (.inl hp), hcons]
    | some p =>
      have hcons : e.sumsOf u (z :: l) = ((p : Int) + (e.zone u z).offset) :: e.sumsOf u l := by
        rw [State.sumsOf, List.filterMap_cons, hp]; rfl
      have ht := Ev.stage7_tally hp hc
      simp only [Ev.tally, Prod.mk.injEq] at ht
      obtain ⟨t1, t2, t3⟩ := ht
      obtain ⟨k1, k2⟩ := clampCounts_cons c ((p : Int) + (e.zone u z).offset) (e.sumsOf u l)
      rw [t1, t2, t3, hcons, k1, k2]
      simp only [Prod.mk.injEq, and_true]
      omega

/-- A zone that stage 7 has treated in its pass. -/
structure Ev.Opened (e f : Ev) (u : UnitNo) (z : ZoneNo) (c : UnitConfig) (x : Nat) : Prop where
  aims : { e.zone u z with target := some x }.SameAims (f.zone u z)
  samples : (e.zone u z).samples = [] → (f.zone u z).samples = []
  acted : e.toState.pendingLawful → e.toState.ActedOn f.toState u z c x

theorem Ev.stage7All_opened (hn : l.Nodup) (hz : z ∈ l) (hp : (e.zone u z).plan = some p) (hc : (e.unit u).config = some c) :
    e.Opened (e.stage7All u l) u z c (targetValue c p (e.zone u z).offset) := by
  obtain ⟨e1, h1, h2, h3, h4⟩ := (treatsZone_stage7 u).inside hn e hz
  have hp1 : (e1.zone u z).plan = some p := by rw [h1.zone, hp]
  have hc1 : (e1.unit u).config = some c := by rw [(h2.settings u).config, hc]
  have haims := Ev.stage7_aims hp1 hc1
  rw [← h4.zone, h1.zone] at haims
  refine ⟨haims, fun k => ?_, fun hl => ?_⟩
  · rw [show (e.stage7All u l).zone u z = _ from h4.zone]
    exact Ev.stage7_samples (by rwa [h1.zone])
  · have hacted := Ev.stage7_acted (h3 hl) hp1 hc1
    rw [h1.zone] at hacted
    exact (hacted.of_alike (h1.actsAlike (h2.service u))).shown h4

theorem Ev.stage7All_beyond (e : Ev) (hz : z ∉ l) : e.toState.SameAt (e.stage7All u l).toState u z :=
  (treatsZone_stage7 u).beyond l e fun j => hz j.2

end Sys2Proof.Machine
end

