-- ==== Sys2Proof/Proofs/OpenedOrders.lean ====
section
/-! PROOFS. A PRESET or SWEEP that starts at its take: what its pass and the end of the event leave of the unit (R35, R40, R41, R176). -/

namespace Sys2Proof.Machine

open Decode

variable {d e g : Ev} {s t : State} {u v : UnitNo} {y z : ZoneNo} {a : Anchor} {o : OrderRecord} {host : List HostWrite} {slot : Slot}
  {c : UnitConfig} {x p n : Nat} {l : List ZoneNo} {f : ZoneNo → Zone → Zone} {kind : TrackedKind} {zones : List ZoneNo}

/-! ### Before stage 7 -/

/-- The pass has written the openings of the unit's zones and handed its sweep over, and has yet to treat the targets. -/
structure Ev.Readied (u : UnitNo) (c : UnitConfig) (x : Nat) (f : ZoneNo → Zone → Zone) (d e : Ev) : Prop where
  zone : ∀ z, e.zone u z = f z (d.zone u z)
  moves : ∀ z (r : Zone), r.SameMoves (f z r)
  pendingList : (e.line u).pendingList = (d.line u).pendingList
  frames : ∀ z, e.keyFrames u z = d.keyFrames u z
  modules : (e.line u).modules = (d.line u).modules
  keyTags : (e.line u).keyTags = (d.line u).keyTags
  config : (e.unit u).config = some c
  waiting : (e.unit u).waiting = none
  currentSweep : (e.unit u).currentSweep = some x
  wanted : (e.line u).fountain.wanted = some x
  tally : e.tally = (0, 0, 0)
  arbiterDue : e.arbiterDue = d.arbiterDue
  lists : d.toState.pendingLawful → e.toState.pendingLawful

theorem Ev.Readied.alike (h : d.Readied u c x f e) (z : ZoneNo) : d.toState.ActsAlike e.toState u z where
  moves := by rw [h.zone]; exact h.moves z _
  waits k := by rw [State.waitsFor, h.pendingList]; rfl
  frames := h.frames z
  module := by rw [State.moduleState, h.modules]; rfl
  tags := by rw [h.keyTags]

/-- The event once the pass has treated the targets of these zones. -/
def Ev.openingPass (e : Ev) (u : UnitNo) (l : List ZoneNo) : Ev := (e.stage7All u l).oweMirror u

/-- What stage 7 makes of a unit that the pass has readied. -/
structure Ev.OpeningMade (u : UnitNo) (c : UnitConfig) (l : List ZoneNo) (e g : Ev) : Prop where
  beyond : ∀ z, z ∉ l → e.toState.SameAt g.toState u z
  opened : ∀ z ∈ l, ∀ p, (e.zone u z).plan = some p → e.Opened g u z c (targetValue c p (e.zone u z).offset)
  serves : e.Serves g
  lists : e.toState.pendingLawful → g.toState.pendingLawful
  raised : g.raised = e.raised + (clampCounts c (e.sumsOf u l)).raised
  lowered : g.lowered = e.lowered + (clampCounts c (e.sumsOf u l)).lowered
  saturated : g.saturated = e.saturated
  due : e.arbiterDue = false → g.arbiterDue = true → ∃ z ∈ l, (g.zone u z).state = .pending
  mirror : u ∈ g.mirrorDue

theorem Ev.openingPass_made (hn : l.Nodup) (hc : (e.unit u).config = some c) : e.OpeningMade u c l (e.openingPass u l) := by
  have ht := Ev.stage7All_tally hn hc
  simp only [Ev.tally, Prod.mk.injEq] at ht
  obtain ⟨h1, h2, h3⟩ := ht
  refine ⟨fun z hz => ?_, fun z hz p hp => ?_, ?_, fun k => (treatsZone_stage7 u).pendingLawful l (e := e) k, h1, h2, h3, fun j k => ?_,
    List.mem_cons_self⟩
  · have h := e.stage7All_beyond (u := u) hz
    exact ⟨h.zone, h.waits, h.frames⟩
  · have h := Ev.stage7All_opened hn hz hp hc
    exact ⟨h.aims, h.samples, fun k => ⟨(h.acted k).reacted.shown ⟨rfl, fun _ => .rfl, rfl⟩, (h.acted k).target, (h.acted k).waits⟩⟩
  · have h := (treatsZone_stage7 u).served l e
    exact ⟨h.settings, h.service⟩
  · exact ((treatsZone_stage7 u).pending_of_due hn e k).resolve_left (by rw [j]; decide)

/-! ### The end of the event -/

/-- What a PRESET or SWEEP that starts leaves, its pass having readied the unit in `e`. -/
structure State.OpenedOrder (s : State) (host : List HostWrite) (a : Anchor) (u : UnitNo) (c : UnitConfig) (f : ZoneNo → Zone → Zone)
    (l zones : List ZoneNo) (n : Nat) (e : Ev) (t : State) : Prop where
  started : s.StartedOrder t u host a zones (t.fountainMoves u) { clampCounts c (e.sumsOf u l) with bandsClamped := n }
  mirror : s.MirrorWritten t a u
  settings : (e.unit u).SameSettings (t.unit u)
  wanted : (t.line u).fountain.wanted = (e.line u).fountain.wanted
  others : s.OtherUnits t u
  outside : s.SameOutside t
  beyond : ∀ z, z ∉ l → (f z (s.zone u z)).SameAims (t.zone u z)
  opened : ∀ z ∈ l, ∀ p, (f z (s.zone u z)).plan = some p →
    { f z (s.zone u z) with target := some (targetValue c p (f z (s.zone u z)).offset) }.SameAims (t.zone u z)
      ∧ ((f z (s.zone u z)).samples = [] → (t.zone u z).samples = [])
      ∧ (s.pendingLawful → s.Reacted t u z c (targetValue c p (f z (s.zone u z)).offset))

theorem State.Reported.otherUnits (h : State.Reported (· = u) s t) : s.OtherUnits t u := fun v hv =>
  have k := h.others v hv
  ⟨k.settings, k.tracked, k.aims, k.service⟩

/-- The older order's slot still shows that it is superseded once the newer order has started. -/
theorem State.Due.superseded (h : s.Due host a slot) (hS : d.Succeeds s host a u) {q : OrderRecord}
    (hT : s.StartTaken host a u (d.passed u o) q t) : s.Superseded t u a := fun b hb hr hc => by
  have hheld : b.slot ∈ s.heldSlots := List.count_pos_iff.1 (by omega)
  obtain ⟨h1, h2⟩ := hS.shows b hb hr hc
  have hl := hS.goes.linked h.linked_landed
  have hg : d.Goes (· = u) (· ≠ b.slot) (d.passed u o) := 
    (Ev.Goes.refl (U := (· = u)) (K := (· ≠ b.slot)) fun v k hk (j : k = b.slot) => h2 v (j ▸ hk)).passed rfl o
  exact hT.slots b.slot hr (fun j => h.free (by rwa [← j])) (fun v hv => hg.slots v _ hv rfl) _ _ (hg.shows hl hr (fun j => j rfl) h1)

theorem Ev.Succeeds.zone (h : d.Succeeds s host a u) (z : ZoneNo) : d.zone u z = s.zone u z := by
  show (d.unit u).zones[z] = (s.unit u).zones[z]
  rw [h.superseding.unit]
  rfl

theorem Ev.Succeeds.alike (h : d.Succeeds s host a u) (z : ZoneNo) : s.ActsAlike d.toState u z := by
  have hl : d.line u = s.line u := congrArg (fun ls : Vector Line 16 => ls[u]) h.superseding.machine.lines
  exact ⟨.of_eq (h.zone z), fun k => by rw [State.waitsFor, hl]; rfl, by unfold State.keyFrames; rw [hl], by unfold State.moduleState; rw [hl],
    by rw [hl]⟩

theorem Ev.Succeeds.pendingLawful (h : d.Succeeds s host a u) (hl : s.pendingLawful) : d.toState.pendingLawful := fun v y => by
  have hline : d.line v = s.line v := congrArg (fun ls : Vector Line 16 => ls[v]) h.superseding.machine.lines
  have hzone : d.zone v y = s.zone v y := by
    by_cases hv : v = u
    · subst hv
      exact h.zone y
    · exact congrArg (fun r : UnitRec => r.zones[y]) (h.superseding.others v hv)
  rw [hline, hzone]
  exact hl v y

/-- What the event shows of the frames of a zone that is not PENDING after its pass. -/
theorem State.StartTaken.frames {q : OrderRecord} (h : s.StartTaken host a u e q t) (hl : e.toState.pendingLawful)
    (hz : (e.zone u z).state ≠ .pending) : t.keyFrames u z = e.keyFrames u z := by
  obtain ⟨g, hg, rfl⟩ := h.event
  rw [Ev.settle_frames (hg.pendingLawful hl) (by rwa [hg.zone]), State.keyFrames, hg.line]
  rfl

theorem State.StartTaken.samples {q : OrderRecord} (h : s.StartTaken host a u e q t) (hz : (e.zone u z).samples = []) : (t.zone u z).samples = [] := by
  obtain ⟨g, hg, rfl⟩ := h.event
  exact Ev.settle_samples (by rwa [hg.zone])

/-- The order starts, its pass having readied the unit. -/
theorem State.Due.openedOrder (h : s.Due host a slot) (hS : d.Succeeds s host a u) (ho : o = (s.landed host).newRecord slot kind zones n)
    (hk : ∀ q : State, q.fountainWaits u kind = q.fountainMoves u) (hw : kind.isWork = true) (hR : d.Readied u c x f e)
    (hp : d.passed u o = e.openingPass u l) (hn : l.Nodup) (hl : ∀ z ∈ l, z ∈ zones) :
    s.OpenedOrder host a u c f l zones n e (d.startNow u slot o).settle.toState := by
  have hslot : o.slot = s.port.take := by rw [ho]; rfl
  have hkind : o.kind = kind := by rw [ho]; rfl
  have hzones : o.zones = zones := by rw [ho]; rfl
  have hcounts : o.counts = { Counts.zero with bandsClamped := n } := by rw [ho]; rfl
  have hT := h.starts (o := o.started (d.passed u o) u) (hS.goes.passed rfl o) hslot
  have hsup := h.superseded hS hT
  have hM : e.OpeningMade u c l (d.passed u o) := hp ▸ Ev.openingPass_made hn hR.config
  have hout : s.SameOutside (d.startNow u slot o).settle.toState := by
    have hM := hS.superseding.machine
    have hd : d.Has s.SameOutside := ⟨hM.curves, hM.check, hM.intake, hM.timing, hM.scanPulses, hM.pending⟩
    exact Ev.has_settle (stable_sameOutside s) (Ev.has_startNow (stable_sameOutside s) hd
      (decide_eq_true (hS.goes.linked h.linked_landed).attached) _ _ _)
  rw [Ev.startNow_eq] at hout ⊢
  rw [Ev.opened] at hT hsup
  generalize d.passed u o = g at *
  generalize hq : o.started g u = q at *
  generalize (((g.follow u (some q)).closeStart u (g.startOutcome u q .accepted).1).finish slot (g.startOutcome u q .accepted).1
    (g.startOutcome u q .accepted).2).settle.toState = t at *
  have hqcounts : q.counts = { clampCounts c (e.sumsOf u l) with bandsClamped := n } := by
    have h0 := hR.tally
    simp only [Ev.tally, Prod.mk.injEq] at h0
    obtain ⟨h1, h2, h3⟩ := h0
    rw [← hq, OrderRecord.started, OrderRecord.counted, hcounts, hM.raised, hM.lowered, hM.saturated, h1, h2, h3]
    simp [Counts.zero, clampCounts]
  have hqwait : q.fountainWait = t.fountainMoves u := by
    rw [← hq, OrderRecord.started, hkind]
    refine (hk _).trans ?_
    unfold State.fountainMoves
    rw [(hT.endsIn.service u).fountain, (hT.endsIn.settings u).currentSweep]
  have hqzones : q.zones = zones := by rw [← hq]; exact hzones
  have hqslot : q.slot = s.port.take := by rw [← hq]; exact hslot
  have hzone : ∀ z, e.zone u z = f z (s.zone u z) := fun z => by rw [hR.zone, hS.zone]
  have hdue : e.arbiterDue = false := hR.arbiterDue.trans (hS.superseding.unowing (s.landed_unowing host)).arbiter
  refine ⟨⟨_, _, hT.taken, ?_, hsup⟩, hT.written u hM.mirror, (hM.serves.settings u).trans (hT.endsIn.settings u), ?_, hT.reported.otherUnits, hout,
    fun z hz => ?_, fun z hz p hplan => ?_⟩
  · have hshow := hT.endsIn.startShows (o := q) (openStatus := .accepted) (by rw [← hq]; exact hkind ▸ hw) rfl
      (fun k => by
        obtain ⟨z, hz, hpend⟩ := hM.due hdue k
        exact ⟨z, hqzones ▸ hl z hz, hpend⟩) hT.tracked
    rwa [hqslot, hqzones, hqcounts, hqwait] at hshow
  · rw [(hT.endsIn.service u).fountain, (hM.serves.service u).fountain]
  · rw [← hzone, ← (hM.beyond z hz).zone]
    exact hT.endsIn.aims u z
  · rw [← hzone] at hplan ⊢
    have hO := hM.opened z hz p hplan
    refine ⟨hO.aims.trans (hT.endsIn.aims u z), fun k => hT.samples (hO.samples k), fun k => ?_⟩
    have hle := hR.lists (hS.pendingLawful k)
    have hlg := hM.lists hle
    refine ((hO.acted hle).of_alike ((hS.alike z).trans (hR.alike z))).settled hlg (hT.endsIn.arbitrated hlg u z) fun j => hT.frames hlg j

end Sys2Proof.Machine
end

