-- ==== Sys2Proof/Proofs/PresetOrders.lean ====
section
/-! PROOFS. PRESET and SWEEP (R40, R41, R181, R183). -/

namespace Sys2Proof.Machine

open Decode

variable {d e g : Ev} {s t : State} {u v : UnitNo} {y z : ZoneNo} {a : Anchor} {o : OrderRecord} {host : List HostWrite} {slot : Slot}
  {c : UnitConfig} {x p n : Nat} {l : List ZoneNo} {f : ZoneNo → Zone → Zone} {policy : OffsetPolicy} {coverage : Vector Nat 64} {kind : TrackedKind}

/-! ### The unit is readied -/

/-- The pass has come to the hand-over of its sweep. -/
structure Ev.Poised (u : UnitNo) (c : UnitConfig) (f : ZoneNo → Zone → Zone) (d e : Ev) : Prop where
  zone : ∀ v y, e.zone v y = if u = v then f y (d.zone v y) else d.zone v y
  lines : e.lines = d.lines
  config : (e.unit u).config = some c
  waiting : (e.unit u).waiting = none
  tally : e.tally = (0, 0, 0)
  arbiterDue : e.arbiterDue = d.arbiterDue

theorem State.pendingLawful.of_same (h : s.pendingLawful) (hz : ∀ v y, (t.zone v y).state = (s.zone v y).state)
    (hl : ∀ m, (t.line m).pendingList = (s.line m).pendingList) : t.pendingLawful := fun v y => by
  have k := h v y
  unfold Line.entriesOf at k ⊢
  rwa [hz, hl]

/-- The sweep is handed over, and the plans of the unit's zones are written. -/
theorem Ev.Poised.readied (h : d.Poised u c f e) (x : Nat) {f' : ZoneNo → Zone → Zone}
    (hm : ∀ z (r : Zone), r.SameMoves (f' z (f z r))) : d.Readied u c x (fun z r => f' z (f z r)) ((e.handOver u x).updZones u f') := by
  have hH := e.handOver_handed u x
  have hunit : ((e.handOver u x).updZones u f').unit u
      = { (e.handOver u x).unit u with zones := Vector.ofFn fun z : ZoneNo => f' z ((e.handOver u x).unit u).zones[z] } := Ev.updUnit_unit_self _ _ _
  have hline (m : LineNo) : e.line m = d.line m := congrArg (fun ls : Vector Line 16 => ls[m]) h.lines
  have hzone (v : UnitNo) (y : ZoneNo) : ((e.handOver u x).updZones u f').zone v y
      = if u = v then f' y (f y (d.zone v y)) else d.zone v y := by
    rw [Ev.updZones_zone, hH.zone, h.zone]
    split <;> rfl
  refine ⟨fun z => ?_, hm, ?_, fun z => ?_, ?_, ?_, ?_, ?_, ?_, hH.wanted, hH.tally.trans h.tally, hH.arbiterDue.trans h.arbiterDue, fun k => ?_⟩
  · rw [hzone, if_pos rfl]
  · exact (hH.pendingList u).trans (by rw [hline])
  · exact (hH.frames u z).trans (by rw [State.keyFrames, hline]; rfl)
  · exact (hH.modules u).trans (by rw [hline])
  · exact (hH.keyTags u).trans (by rw [hline])
  · rw [hunit]; exact hH.config.trans h.config
  · rw [hunit]; exact hH.waiting.trans h.waiting
  · rw [hunit]; exact hH.currentSweep
  · refine k.of_same (fun v y => ?_) fun m => (hH.pendingList m).trans (by rw [hline])
    rw [hzone]
    split
    · exact (hm y _).state
    · rfl

/-! ### PRESET -/

/-- A zone with the opening of a PRESET (R30, R32). -/
def opening (c : UnitConfig) (coverage bases : Vector Nat 64) (z : ZoneNo) (r : Zone) : Zone :=
  if z.val < c.zoneCount then { r with coverage := some coverage[z], base := some bases[z] } else r

/-- A zone with the plan of a PRESET, its offset by the policy (R36, R37, R139). -/
def planned (c : UnitConfig) (coverage bases : Vector Nat 64) (x : Nat) (policy : OffsetPolicy) (z : ZoneNo) (r : Zone) : Zone :=
  if z.val < c.zoneCount then applyPolicy policy { r with plan := some (planValue c coverage[z] bases[z] x) } else r

theorem applyPolicy_sameMoves (policy : OffsetPolicy) (r : Zone) : r.SameMoves (applyPolicy policy r) := by
  cases policy <;> exact ⟨rfl, rfl, rfl, rfl, rfl, rfl, rfl, rfl⟩

theorem planned_sameMoves (c : UnitConfig) (coverage bases : Vector Nat 64) (x : Nat) (policy : OffsetPolicy) (z : ZoneNo) (r : Zone) :
    r.SameMoves (planned c coverage bases x policy z (opening c coverage bases z r)) := by
  unfold planned opening
  by_cases h : z.val < c.zoneCount
  · rw [if_pos h, if_pos h]
    obtain ⟨h1, h2, h3, h4, h5, h6, h7, h8⟩ := applyPolicy_sameMoves policy
      { r with coverage := some coverage[z], base := some bases[z], plan := some (planValue c coverage[z] bases[z] x) }
    exact ⟨h1, h2, h3, h4, h5, h6, h7, h8⟩
  · rw [if_neg h, if_neg h]
    exact .of_eq rfl

/-- The event at which a PRESET hands its sweep over. -/
def Ev.presetPoised (d : Ev) (u : UnitNo) (c : UnitConfig) (coverage : Vector Nat 64) : Ev :=
  ((d.cleared u).updUnit u fun r => { r with staged := none }).updZones u (opening c coverage (d.basesOf c coverage))

theorem Ev.presetPoised_poised (d : Ev) (hc : (d.unit u).config = some c) (coverage : Vector Nat 64) :
    d.Poised u c (opening c coverage (d.basesOf c coverage)) (d.presetPoised u c coverage) where
  zone v y := by
    rw [Ev.presetPoised, Ev.updZones_zone]
    have hz : ((d.cleared u).updUnit u fun r => { r with staged := none }).zone v y = d.zone v y := by
      refine Eq.trans ?_ (Ev.cleared_zone d u v y)
      show (((d.cleared u).updUnit u fun r => { r with staged := none }).unit v).zones[y] = ((d.cleared u).unit v).zones[y]
      rw [Ev.updUnit_unit]
      split <;> rfl
    rw [hz]
  lines := rfl
  config := by
    rw [Ev.presetPoised, Ev.updZones, Ev.updUnit_unit_self, Ev.updUnit_unit_self, Ev.cleared_unit, if_pos rfl]
    exact hc
  waiting := by rw [Ev.presetPoised, Ev.updZones, Ev.updUnit_unit_self, Ev.updUnit_unit_self, Ev.cleared_unit, if_pos rfl]
  tally := rfl
  arbiterDue := rfl

theorem Ev.passed_preset (hk : o.kind = .preset policy) (hc : (d.unit u).config = some c) (hs : (d.unit u).staged = some coverage) :
    let x := chooseSweep c coverage (d.basesOf c coverage)
    d.passed u o = (((d.presetPoised u c coverage).handOver u x).updZones u (planned c coverage (d.basesOf c coverage) x policy)).openingPass u
      (zonesBelow c.zoneCount) := by
  have h1 : ((d.cleared u).unit u).config = some c := by rw [Ev.cleared_unit, if_pos rfl]; exact hc
  have h2 : ((d.cleared u).unit u).staged = some coverage := by rw [Ev.cleared_unit, if_pos rfl]; exact hs
  rw [Ev.passed_eq, hk]
  show (d.cleared u).presetPass u policy = _
  unfold Ev.presetPass
  rw [h1, h2]
  rfl

theorem zonesBelow_nodup (k : Nat) : (zonesBelow k).Nodup := (List.nodup_finRange _).filter _

/-! ### SWEEP -/

/-- A zone with the plan of a SWEEP (R41). -/
def replanned (c : UnitConfig) (x : Nat) (z : ZoneNo) (r : Zone) : Zone := if z.val < c.zoneCount then replan c x r else r

theorem replanned_sameMoves (c : UnitConfig) (x : Nat) (z : ZoneNo) (r : Zone) : r.SameMoves (replanned c x z r) := by
  unfold replanned replan
  split
  · split <;> exact ⟨rfl, rfl, rfl, rfl, rfl, rfl, rfl, rfl⟩
  · exact .of_eq rfl

/-- The event at which a SWEEP hands its value over. -/
def Ev.sweepPoised (d : Ev) (u : UnitNo) (c : UnitConfig) (x : Nat) : Ev :=
  (d.cleared u).updUnit u fun r => { r with config := some { c with sweepMode := .fixed, fixedSweep := x } }

theorem Ev.sweepPoised_poised (d : Ev) (u : UnitNo) (c : UnitConfig) (x : Nat) :
    d.Poised u { c with sweepMode := .fixed, fixedSweep := x } (fun _ r => r) (d.sweepPoised u c x) where
  zone v y := by
    have hz : (d.sweepPoised u c x).zone v y = d.zone v y := by
      refine Eq.trans ?_ (Ev.cleared_zone d u v y)
      show ((d.sweepPoised u c x).unit v).zones[y] = ((d.cleared u).unit v).zones[y]
      rw [Ev.sweepPoised, Ev.updUnit_unit]
      split <;> rfl
    rw [hz]
    split <;> rfl
  lines := rfl
  config := by rw [Ev.sweepPoised, Ev.updUnit_unit_self]
  waiting := by rw [Ev.sweepPoised, Ev.updUnit_unit_self, Ev.cleared_unit, if_pos rfl]
  tally := rfl
  arbiterDue := rfl

/-- The zones 1 to Z that have a base. -/
def State.based (s : State) (u : UnitNo) (k : Nat) : List ZoneNo := (zonesBelow k).filter fun z => (s.zone u z).base.isSome

theorem Ev.passed_sweep (hk : o.kind = .sweep x) (hc : (d.unit u).config = some c) :
    d.passed u o = (((d.sweepPoised u c x).handOver u x).updZones u (replanned c x)).openingPass u (d.based u c.zoneCount) := by
  have h1 : ((d.cleared u).unit u).config = some c := by rw [Ev.cleared_unit, if_pos rfl]; exact hc
  have hR := (d.sweepPoised_poised u c x).readied x (f' := replanned c x) (replanned_sameMoves c x)
  have hbased : ((((d.sweepPoised u c x).handOver u x).updZones u (replanned c x)).unit u).basedZones = d.based u c.zoneCount := by
    rw [UnitRec.basedZones, State.based, UnitRec.zoneCount, hR.config]
    refine List.filter_congr fun z _ => ?_
    have hz : (((((d.sweepPoised u c x).handOver u x).updZones u (replanned c x)).unit u).zones[z]) = replanned c x z (d.zone u z) := hR.zone z
    rw [hz]
    unfold replanned replan
    split
    · split <;> rfl
    · rfl
  rw [Ev.passed_eq, hk]
  show (d.cleared u).sweepPass u x = _
  unfold Ev.sweepPass
  rw [h1, ← hbased]
  rfl

/-! ### The rows -/

/-- A PRESET or SWEEP waits for a sweep move to the unit's sweep (R35, R176). -/
theorem State.fountainWaits_eq (q : State) (u : UnitNo) (h : (∃ policy, kind = .preset policy) ∨ ∃ x, kind = .sweep x) :
    q.fountainWaits u kind = q.fountainMoves u := by
  have hw : q.fountainWaits u kind = ((q.unit u).currentSweep.map fun v => q.sweepInFlight u v).getD false := by
    rcases h with ⟨_, rfl⟩ | ⟨_, rfl⟩ <;> rfl
  rw [hw]
  unfold State.fountainMoves State.sweepInFlight
  cases (q.unit u).currentSweep <;> cases (q.line u).fountain.move <;> simp [eq_comm]

theorem State.Due.preset_row (h : s.Due host a slot) (hk : slot.kind = some .preset) (hu : slot.unit? = some u) (hc : (s.unit u).config = some c) :
    (presetOperands slot = none → RefusedWith s (.preset host) host a .badArgument)
    ∧ ∀ o : PresetOperands, presetOperands slot = some o →
      (profileAllowed o a = false → RefusedWith s (.preset host) host a .profileRegion)
      ∧ (profileAllowed o a = true → s.workBusy u = true → RefusedWith s (.preset host) host a .busy)
      ∧ (profileAllowed o a = true → s.workBusy u = false →
        exec (.preset host) s = .next ((s.landed host).takePreset u c slot o).settle.toState) := by
  have hdefined := fun f => Ev.onDefined_some (e := s.landed host) (f := f) hu hc
  refine ⟨fun hr => h.refused (execPreset host) rfl rfl (ofKind_eq.2 hk) ?_, fun o hr => ⟨fun hp =>
    h.refused (execPreset host) rfl rfl (ofKind_eq.2 hk) ?_, fun hp hb => h.refused (execPreset host) rfl rfl (ofKind_eq.2 hk) ?_,
    fun hp hb => h.taken_by (execPreset host) rfl rfl (ofKind_eq.2 hk) ?_⟩⟩
  · exact (hdefined _).trans (by rw [hr])
  · exact (hdefined _).trans (by rw [hr]; dsimp only; rw [hp]; rfl)
  · have hb' : (s.landed host).workBusy u = true := hb
    exact (hdefined _).trans (by rw [hr]; dsimp only; rw [hp, hb']; rfl)
  · have hb' : (s.landed host).workBusy u = false := hb
    exact (hdefined _).trans (by rw [hr]; dsimp only; rw [hp, hb']; rfl)

theorem State.Due.sweep_row (h : s.Due host a slot) (hk : slot.kind = some .sweep) (hu : slot.unit? = some u) (hc : (s.unit u).config = some c) :
    (sweepOperand slot = none → RefusedWith s (.sweep host) host a .badArgument)
    ∧ ∀ x, sweepOperand slot = some x → (s.workBusy u = true → RefusedWith s (.sweep host) host a .busy)
      ∧ (s.workBusy u = false → exec (.sweep host) s = .next (((s.landed host).supersede u).startOrWait u slot
          ((s.landed host).newRecord slot (.sweep x) (zonesBelow c.zoneCount) 0)).settle.toState) := by
  have hdefined := fun f => Ev.onDefined_some (e := s.landed host) (f := f) hu hc
  refine ⟨fun hr => h.refused (execSweep host) rfl rfl (ofKind_eq.2 hk) ?_, fun x hr => ⟨fun hb =>
    h.refused (execSweep host) rfl rfl (ofKind_eq.2 hk) ?_, fun hb => h.taken_by (execSweep host) rfl rfl (ofKind_eq.2 hk) ?_⟩⟩
  · exact (hdefined _).trans (by rw [hr])
  · exact (hdefined _).trans (by rw [hr]; exact if_pos hb)
  · exact (hdefined _).trans (by rw [hr]; exact if_neg (by rw [Bool.not_eq_true]; exact hb))

theorem Ev.Succeeds.timing (h : d.Succeeds s host a u) : d.timing = s.timing := h.superseding.machine.timing

theorem Ev.Succeeds.config (h : d.Succeeds s host a u) : (d.unit u).config = (s.unit u).config := by
  rw [h.superseding.unit]
  rfl

theorem Ev.Succeeds.starts (h : d.Succeeds s host a u) (k : slot.atSheetFlag = true → 0 ≤ (s.timing.counter - slot.atSheet).toInt) :
    d.startOrWait u slot o = d.startNow u slot o := Ev.startOrWait_starts (by rwa [h.timing])

theorem Ev.Succeeds.holds (h : d.Succeeds s host a u) (hf : slot.atSheetFlag = true) (ht : ¬0 ≤ (s.timing.counter - slot.atSheet).toInt) :
    d.startOrWait u slot o = d.holdBack u slot o := Ev.startOrWait_waits hf (by rwa [h.timing])

/-! ### The PRESET that starts -/

theorem planned_opening {bases : Vector Nat 64} {r : Zone} (h : z.val < c.zoneCount) :
    planned c coverage bases x policy z (opening c coverage bases z r)
      = applyPolicy policy { r with
          coverage := some coverage[z], base := some bases[z], plan := some (planValue c coverage[z] bases[z] x) } := by
  unfold planned opening
  rw [if_pos h, if_pos h]

theorem applyPolicy_fields (policy : OffsetPolicy) (r : Zone) : (applyPolicy policy r).coverage = r.coverage
    ∧ (applyPolicy policy r).base = r.base ∧ (applyPolicy policy r).plan = r.plan ∧ (applyPolicy policy r).position = r.position
    ∧ (applyPolicy policy r).settleSheet = r.settleSheet ∧ (applyPolicy policy r).offset = (match policy with | .clear => 0 | .keep => r.offset)
    ∧ (policy = .clear → (applyPolicy policy r).samples = []) := by
  cases policy with
  | clear => exact ⟨rfl, rfl, rfl, rfl, rfl, rfl, fun _ => rfl⟩
  | keep => exact ⟨rfl, rfl, rfl, rfl, rfl, rfl, nofun⟩

/-- A PRESET that starts. -/
theorem State.Due.presetStarts (h : s.Due host a slot) (hS : d.Succeeds s host a u) (hc : (s.unit u).config = some c)
    (hs : (d.unit u).staged = some coverage) :
    let t := (d.startNow u slot ((s.landed host).newRecord slot (.preset policy) (zonesBelow c.zoneCount) n)).settle.toState
    PresetMade s t u c coverage policy
      ∧ s.StartedOrder t u host a (zonesBelow c.zoneCount) (t.fountainMoves u) (t.planCounts u c n)
      ∧ s.MirrorWritten t a u ∧ (t.unit u).waiting = none ∧ s.OtherUnits t u ∧ s.SameOutside t := by
  have hcd : (d.unit u).config = some c := hS.config.trans hc
  have hbases : d.basesOf c coverage = s.basesOf c coverage := by
    unfold State.basesOf State.curveOf
    rw [show d.curves = s.curves from hS.superseding.machine.curves]
  have hP := d.presetPoised_poised hcd coverage
  have hpass := Ev.passed_preset (o := (s.landed host).newRecord slot (.preset policy) (zonesBelow c.zoneCount) n) rfl hcd hs
  rw [hbases] at hP hpass
  generalize hx : chooseSweep c coverage (s.basesOf c coverage) = x at hpass
  generalize hb : s.basesOf c coverage = bases at *
  have hR := hP.readied x (planned_sameMoves c coverage bases x policy)
  have hO := h.openedOrder hS rfl (fun q => q.fountainWaits_eq u (.inl ⟨_, rfl⟩)) rfl hR hpass (zonesBelow_nodup _) fun z hz => hz
  have hstaged : ((((d.presetPoised u c coverage).handOver u x).updZones u (planned c coverage bases x policy)).unit u).staged = none := by
    rw [Ev.updZones, Ev.updUnit_unit_self]
    refine ((d.presetPoised u c coverage).handOver_handed u x).staged.trans ?_
    rw [Ev.presetPoised, Ev.updZones, Ev.updUnit_unit_self, Ev.updUnit_unit_self]
  generalize (((d.presetPoised u c coverage).handOver u x).updZones u (planned c coverage bases x policy)) = e at *
  dsimp only
  generalize (d.startNow u slot ((s.landed host).newRecord slot (.preset policy) (zonesBelow c.zoneCount) n)).settle.toState = t at *
  have hplan : ∀ z : ZoneNo, z.val < c.zoneCount →
      (planned c coverage bases x policy z (opening c coverage bases z (s.zone u z))).plan = some (planValue c coverage[z] bases[z] x) := fun z hz => by
    rw [planned_opening hz]
    exact (applyPolicy_fields policy _).2.2.1
  have hzones : ∀ z : ZoneNo, z.val < c.zoneCount → (s.zone u z).Preset (t.zone u z) c coverage[z] bases[z] x policy := fun z hz => by
    obtain ⟨haims, hsamples, _⟩ := hO.opened z (by simpa using hz) _ (hplan z hz)
    rw [planned_opening hz] at haims hsamples
    obtain ⟨f1, f2, f3, f4, f5, f6, f7⟩ := applyPolicy_fields policy { s.zone u z with
      coverage := some coverage[z], base := some bases[z], plan := some (planValue c coverage[z] bases[z] x) }
    exact ⟨haims.coverage.trans f1, haims.base.trans f2, haims.plan.trans f3, haims.offset.trans f6,
      haims.target.trans (by rw [haims.offset]), haims.position.trans f4, haims.settleSheet.trans f5, fun k => hsamples (f7 k)⟩
  have hsums : t.planCounts u c n = { clampCounts c (e.sumsOf u (zonesBelow c.zoneCount)) with bandsClamped := n } := by
    have hlist : ((zonesBelow c.zoneCount).filterMap fun z => if (t.zone u z).base.isSome then
        (t.zone u z).plan.map fun p => (p : Int) + (t.zone u z).offset else none) = e.sumsOf u (zonesBelow c.zoneCount) := by
      refine List.filterMap_congr fun z hz => ?_
      have hz' : z.val < c.zoneCount := by simpa using hz
      have hk := hzones z hz'
      have he : e.zone u z = _ := (hR.zone z).trans (by rw [hS.zone])
      obtain ⟨haims, _, _⟩ := hO.opened z hz _ (hplan z hz')
      rw [hk.base, Option.isSome_some, if_pos rfl, he, hk.plan, hplan z hz', haims.offset]
    unfold State.planCounts
    rw [hlist]
  refine ⟨⟨?_, ?_, ?_, ?_, ?_, fun z hz => ?_, fun hl z hz => ?_⟩, ?_, hO.mirror, ?_, hO.others, hO.outside⟩
  · rw [hb, hx, hO.settings.currentSweep, hR.currentSweep]
  · rw [hb, hx, hO.wanted, hR.wanted]
  · rw [hO.settings.staged, hstaged]
  · rw [hO.settings.config, hR.config]
  · rw [hb, hx]
    exact hzones
  · have hz' := hO.beyond z (by simpa using hz)
    have hsame : planned c coverage bases x policy z (opening c coverage bases z (s.zone u z)) = s.zone u z := by
      unfold planned opening
      rw [if_neg hz, if_neg hz]
    rwa [hsame] at hz'
  · obtain ⟨haims, _, hreact⟩ := hO.opened z (by simpa using hz) _ (hplan z hz)
    rw [hb, hx, haims.offset]
    exact hreact hl
  · rw [hsums]
    exact hO.started
  · rw [hO.settings.waiting, hR.waiting]

/-- Settles O25: a PRESET is refused, or supersedes the older order and makes its pass at once. -/
theorem presetSetsEveryZone : Obligations.PresetSetsEveryZone := by
  intro host s a slot u c h hk hu hc
  obtain ⟨hbad, hrow⟩ := h.preset_row hk hu hc
  refine ⟨hbad, fun o hp => ?_⟩
  obtain ⟨h1, h2, h3⟩ := hrow o hp
  refine ⟨h1, h2, fun hprofile hbusy hsheet => ⟨_, h3 hprofile hbusy, ?_⟩⟩
  have hS := (h.supersede u).stage (stagedCoverage c o (readBands (Memory.hostWrites s.mem host) o.base o.bandCount))
  have hnow : (s.landed host).takePreset u c slot o = (((s.landed host).supersede u).stage u
      (stagedCoverage c o (readBands (Memory.hostWrites s.mem host) o.base o.bandCount))).startNow u slot
        ((s.landed host).newRecord slot (.preset o.policy) (zonesBelow c.zoneCount)
          (bandsClamped (readBands (Memory.hostWrites s.mem host) o.base o.bandCount))) :=
    hS.starts hsheet
  rw [hnow]
  exact h.presetStarts hS hc (by rw [Ev.stage, Ev.updUnit_unit_self])

/-! ### The SWEEP that starts -/

theorem Ev.Succeeds.based (h : d.Succeeds s host a u) : z ∈ d.based u n ↔ z.val < n ∧ (s.zone u z).base.isSome = true := by
  rw [State.based, List.mem_filter, mem_zonesBelow, h.zone]

theorem replanned_fields (c : UnitConfig) (x : Nat) (z : ZoneNo) (r : Zone) : (replanned c x z r).coverage = r.coverage
    ∧ (replanned c x z r).base = r.base ∧ (replanned c x z r).offset = r.offset ∧ (replanned c x z r).target = r.target
    ∧ (replanned c x z r).position = r.position ∧ (replanned c x z r).settleSheet = r.settleSheet := by
  unfold replanned replan
  split
  · split <;> exact ⟨rfl, rfl, rfl, rfl, rfl, rfl⟩
  · exact ⟨rfl, rfl, rfl, rfl, rfl, rfl⟩

theorem replanned_based {b : Nat} {r : Zone} (h : z.val < c.zoneCount) (hb : r.base = some b) :
    (replanned c x z r).plan = some (planValue c (r.coverage.getD 0) b x) := by
  unfold replanned replan
  rw [if_pos h, hb]

theorem replanned_plan {r : Zone} (h : ¬(z.val < c.zoneCount ∧ r.base.isSome = true)) : (replanned c x z r).plan = r.plan := by
  unfold replanned replan
  by_cases hz : z.val < c.zoneCount
  · rw [if_pos hz]
    cases hb : r.base with
    | none => rfl
    | some b => exact absurd ⟨hz, by rw [hb]; rfl⟩ h
  · rw [if_neg hz]

/-- A SWEEP that starts. -/
theorem State.Due.sweepStarts (h : s.Due host a slot) (hS : d.Succeeds s host a u) (hc : (s.unit u).config = some c) :
    let t := (d.startNow u slot ((s.landed host).newRecord slot (.sweep x) (zonesBelow c.zoneCount) 0)).settle.toState
    SweepMade s t u c x ∧ s.StartedOrder t u host a (zonesBelow c.zoneCount) (t.fountainMoves u) (t.planCounts u c 0)
      ∧ s.MirrorWritten t a u ∧ (t.unit u).waiting = none ∧ s.OtherUnits t u ∧ s.SameOutside t := by
  have hR := (d.sweepPoised_poised u c x).readied x (f' := replanned c x) (replanned_sameMoves c x)
  have hpass := Ev.passed_sweep (o := (s.landed host).newRecord slot (.sweep x) (zonesBelow c.zoneCount) 0) rfl (hS.config.trans hc)
  have hO := h.openedOrder hS rfl (fun q => q.fountainWaits_eq u (.inr ⟨_, rfl⟩)) rfl hR hpass ((zonesBelow_nodup _).filter _)
    fun z hz => (List.mem_filter.1 hz).1
  generalize (((d.sweepPoised u c x).handOver u x).updZones u (replanned c x)) = e at *
  dsimp only
  generalize (d.startNow u slot ((s.landed host).newRecord slot (.sweep x) (zonesBelow c.zoneCount) 0)).settle.toState = t at *
  have hopened : ∀ z b, z.val < c.zoneCount → (s.zone u z).base = some b → _ := fun z b hz hb =>
    hO.opened z (hS.based.2 ⟨hz, by rw [hb]; rfl⟩) _ (replanned_based hz hb)
  have hbeyond : ∀ z : ZoneNo, ¬(z.val < c.zoneCount ∧ (s.zone u z).base.isSome = true) → (replanned c x z (s.zone u z)).SameAims (t.zone u z) :=
    fun z hz => hO.beyond z fun j => hz (hS.based.1 j)
  have haims : ∀ z : ZoneNo, (t.zone u z).coverage = (s.zone u z).coverage ∧ (t.zone u z).base = (s.zone u z).base
      ∧ (t.zone u z).offset = (s.zone u z).offset ∧ (t.zone u z).position = (s.zone u z).position
      ∧ (t.zone u z).settleSheet = (s.zone u z).settleSheet ∧ (t.zone u z).plan = (replanned c x z (s.zone u z)).plan := fun z => by
    obtain ⟨f1, f2, f3, _, f5, f6⟩ := replanned_fields c x z (s.zone u z)
    by_cases hz : z.val < c.zoneCount ∧ (s.zone u z).base.isSome = true
    · obtain ⟨b, hb⟩ := Option.isSome_iff_exists.1 hz.2
      have k := (hopened z b hz.1 hb).1
      exact ⟨k.coverage.trans f1, k.base.trans f2, k.offset.trans f3, k.position.trans f5, k.settleSheet.trans f6, k.plan⟩
    · have k := hbeyond z hz
      exact ⟨k.coverage.trans f1, k.base.trans f2, k.offset.trans f3, k.position.trans f5, k.settleSheet.trans f6, k.plan⟩
  have hsums : t.planCounts u c 0 = { clampCounts { c with sweepMode := .fixed, fixedSweep := x } (e.sumsOf u (d.based u c.zoneCount)) with
      bandsClamped := 0 } := by
    have hlist : ((zonesBelow c.zoneCount).filterMap fun z => if (t.zone u z).base.isSome then
        (t.zone u z).plan.map fun p => (p : Int) + (t.zone u z).offset else none) = e.sumsOf u (d.based u c.zoneCount) := by
      rw [State.sumsOf, State.based, List.filterMap_filter]
      refine List.filterMap_congr fun z _ => ?_
      obtain ⟨_, k2, k3, _, _, k6⟩ := haims z
      have he : e.zone u z = replanned c x z (s.zone u z) := (hR.zone z).trans (by rw [hS.zone])
      obtain ⟨_, _, f3, _⟩ := replanned_fields c x z (s.zone u z)
      rw [k2, k3, k6, he, hS.zone, f3]
    unfold State.planCounts
    rw [hlist]
    rfl
  refine ⟨⟨?_, ?_, ?_, fun z => ?_⟩, ?_, hO.mirror, ?_, hO.others, hO.outside⟩
  · rw [hO.settings.config, hR.config]
  · rw [hO.settings.currentSweep, hR.currentSweep]
  · rw [hO.wanted, hR.wanted]
  · obtain ⟨k1, k2, k3, k4, k5, k6⟩ := haims z
    refine ⟨k3, k1, k2, k4, k5, ?_⟩
    cases hb : (s.zone u z).base with
    | none =>
      have hno : ¬(z.val < c.zoneCount ∧ (s.zone u z).base.isSome = true) := by simp [hb]
      exact ⟨k6.trans (replanned_plan hno), (hbeyond z hno).target.trans (replanned_fields c x z _).2.2.2.1⟩
    | some b =>
      dsimp only
      split
      · next hz =>
        obtain ⟨j1, _, j2⟩ := hopened z b hz hb
        have hoff : (replanned c x z (s.zone u z)).offset = (s.zone u z).offset := (replanned_fields c x z _).2.2.1
        rw [hoff] at j1 j2
        exact ⟨k6.trans (replanned_based hz hb), j1.target, j2⟩
      · next hz =>
        have hno : ¬(z.val < c.zoneCount ∧ (s.zone u z).base.isSome = true) := fun j => hz j.1
        exact ⟨k6.trans (replanned_plan hno), (hbeyond z hno).target.trans (replanned_fields c x z _).2.2.2.1⟩
  · rw [hsums]
    exact hO.started
  · rw [hO.settings.waiting, hR.waiting]

/-- Settles O27: a SWEEP is refused, waits for its sheet, or makes its pass at once. -/
theorem sweepRescalesTheUnit : Obligations.SweepRescalesTheUnit := by
  intro host s a slot u c h hk hu hc
  obtain ⟨hbad, hrow⟩ := h.sweep_row hk hu hc
  have hx (h1 : 100 ≤ wholeWord slot 3) (h2 : wholeWord slot 3 ≤ 1000) : sweepOperand slot = some (wholeWord slot 3) := by
    unfold sweepOperand
    rw [if_pos (by simp [within, h1, h2])]
  have hS := h.supersede u
  refine ⟨fun hr => hbad ?_, fun h1 h2 hb => (hrow _ (hx h1 h2)).1 hb, fun h1 h2 hb hf ht => ⟨_, (hrow _ (hx h1 h2)).2 hb, ?_⟩,
    fun h1 h2 hb hsheet => ⟨_, (hrow _ (hx h1 h2)).2 hb, ?_⟩⟩
  · unfold sweepOperand
    rw [if_neg (by simpa [within] using hr)]
  · rw [hS.holds hf ht]
    exact (h.waits hS (.sweep (wholeWord slot 3)) (zonesBelow c.zoneCount) 0).1
  · rw [hS.starts hsheet]
    exact h.sweepStarts hS hc

end Sys2Proof.Machine
end

