-- ==== Sys2Proof/Proofs/ReplySlots.lean ====
section
/-! PROOFS. The close of a reply slot (R85, R87, R90, R91): a reply that is heard, a slot that is missed, and the cycle that moves on. -/

namespace Sys2Proof.Machine

open Decode

variable {d e f : Ev} {s t : State} {n m : LineNo} {u v : UnitNo} {z y : ZoneNo} {k : Cycle} {w : Word} {r : Reply} {slot : Fin 9} {x : Nat}

theorem Ev.updLine_twice (e : Ev) (n : LineNo) (f g : Line → Line) : (e.updLine n f).updLine n g = e.updLine n fun l => g (f l) := by
  simp [Ev.updLine, Vector.set_set]

/-! ### A reply that is heard -/

/-- A module that has answered (R87, R90, R91). -/
def ModuleRec.heard (m : ModuleRec) : ModuleRec :=
  match m.state with
  | .notExpected => { m with lastOutcome := .valid }
  | .present | .missing => { state := .present, lastOutcome := .valid, missed := 0 }

/-- A line to whose key or fountain drive a tag has been reported (R54). -/
def Line.noted (l : Line) (slot : Fin 9) (r : Reply) : Line :=
  if slot = 0 then { l with fountainTags := { l.fountainTags with reported := r.tag } }
  else match zoneOfReply slot r.key with
    | some z => { l with keyTags := l.keyTags.set z { l.keyTags[z] with reported := r.tag } }
    | none => l

/-- A line on which a reply has been heard. -/
def Line.heard (l : Line) (slot : Fin 9) (r : Reply) : Line :=
  { l with modules := l.modules.set slot (l.modules[slot]).heard }.noted slot r

/-- The event that has heard the reply, and has yet to hand it on. -/
def Ev.heard (e : Ev) (n : LineNo) (slot : Fin 9) (r : Reply) : Ev := e.updLine n fun l => l.heard slot r

/-- The return of a MISSING module that has answered (R91). -/
def Ev.returned (e : Ev) (n : LineNo) (slot : Fin 9) : Ev :=
  let e' := (e.raise .lineEvent).oweLine n
  if slot = 0 then e'.pursueAfresh n else e'

/-- The event that hears and hands on a VALID reply (R87, R91). -/
def Ev.answered (e : Ev) (n : LineNo) (slot : Fin 9) (r : Reply) : Ev :=
  if ((e.line n).modules[slot]).state = .missing then ((e.heard n slot r).handOn n slot r).returned n slot else (e.heard n slot r).handOn n slot r

theorem Ev.updLine_self (e : Ev) (n : LineNo) : (e.updLine n fun l => l) = e := by simp [Ev.updLine]

theorem Ev.updLine_congr {f g : Line → Line} (h : f (e.line n) = g (e.line n)) : e.updLine n f = e.updLine n g := by
  have h' : f e.lines[n] = g e.lines[n] := h
  unfold Ev.updLine
  rw [h']

theorem Ev.noteReported_eq (e : Ev) (n : LineNo) (slot : Fin 9) (r : Reply) : e.noteReported n slot r = e.updLine n fun l => l.noted slot r := by
  unfold Ev.noteReported Line.noted
  by_cases h : slot = 0
  · rw [if_pos h]
    simp only [if_pos h]
  · rw [if_neg h]
    simp only [if_neg h]
    cases zoneOfReply slot r.key with
    | some z => rfl
    | none => exact (e.updLine_self n).symm

/-- A module record that is changed, and then the reply noted. -/
theorem Ev.updModule_noted (e : Ev) (n : LineNo) (slot : Fin 9) (r : Reply) (g : ModuleRec → ModuleRec)
    (h : g ((e.line n).modules[slot]) = ((e.line n).modules[slot]).heard) : (e.updModule n slot g).noteReported n slot r = e.heard n slot r := by
  rw [Ev.noteReported_eq, Ev.updModule, Ev.updLine_twice, Ev.heard]
  refine Ev.updLine_congr ?_
  unfold Line.heard
  rw [h]

theorem Ev.updModule_twice (e : Ev) (n : LineNo) (slot : Fin 9) (f g : ModuleRec → ModuleRec) :
    (e.updModule n slot f).updModule n slot g = e.updModule n slot fun m => g (f m) := by
  unfold Ev.updModule
  rw [Ev.updLine_twice]
  refine Ev.updLine_congr ?_
  simp [Vector.set_set]

theorem Ev.updModule_line (e : Ev) (n m : LineNo) (slot : Fin 9) (f : ModuleRec → ModuleRec) : (e.updModule n slot f).line m
    = if n = m then { e.line m with modules := (e.line m).modules.set slot (f ((e.line m).modules[slot])) } else e.line m :=
  Ev.updLine_line _ _ _ _

theorem Ev.judge_valid (e : Ev) (n : LineNo) (h : judgeSlot k.slot (.reply w false) = .valid) :
    e.judge n k (.reply w false) = (e.answered n k.slot (replyOfWord w)).advanceCycle n k := by
  unfold Ev.judge
  rw [h]
  dsimp only
  congr 1
  have hstate : (((e.updModule n k.slot fun m => { m with lastOutcome := .valid }).line n).modules[k.slot]).state
      = ((e.line n).modules[k.slot]).state := by
    rw [Ev.updModule_line, if_pos rfl]
    simp
  unfold Ev.slotValid Ev.answered
  rw [hstate]
  cases hs : ((e.line n).modules[k.slot]).state with
  | present =>
    dsimp only
    rw [if_neg (by decide), Ev.updModule_twice, Ev.updModule_noted]
    unfold ModuleRec.heard
    rw [hs]
  | notExpected =>
    dsimp only
    rw [if_neg (by decide), Ev.updModule_noted]
    unfold ModuleRec.heard
    rw [hs]
  | missing =>
    dsimp only
    rw [if_pos rfl, Ev.updModule_twice, Ev.updModule_noted]
    · rfl
    · unfold ModuleRec.heard
      rw [hs]

/-- The event of a reply slot whose cycle is in progress. -/
theorem exec_replySlot (h : s.regionsInMemory = true) (hk : (s.line n).cycle = some k) (input : Reception) :
    exec (.replySlot n input) s = .next ((s.landed []).judge n k input).settle.toState := by
  have hx : exec (.replySlot n input) s = act s fun e => match (e.line n).cycle with
    | some c => e.judge n c input
    | none => e := rfl
  rw [hx, act_landed h]
  have hk' : ((s.landed []).line n).cycle = some k := hk
  rw [hk']

/-! ### The line -/

theorem Ev.heard_line (e : Ev) (n m : LineNo) (slot : Fin 9) (r : Reply) :
    (e.heard n slot r).line m = if n = m then (e.line m).heard slot r else e.line m := Ev.updLine_line _ _ _ _

/-- What a reply that is heard leaves of its line. -/
structure Line.HeardSame (l l' : Line) : Prop where
  power : l'.power = l.power
  stopTaken : l'.stopTaken = l.stopTaken
  pendingList : l'.pendingList = l.pendingList
  queue : l'.queue = l.queue
  tagCounter : l'.tagCounter = l.tagCounter
  fountain : l'.fountain = l.fountain
  grants : l'.grants = l.grants

theorem Line.heard_same (l : Line) (slot : Fin 9) (r : Reply) : l.HeardSame (l.heard slot r) := by
  unfold Line.heard Line.noted
  split
  · exact ⟨rfl, rfl, rfl, rfl, rfl, rfl, rfl⟩
  · split <;> exact ⟨rfl, rfl, rfl, rfl, rfl, rfl, rfl⟩

theorem Line.heard_module (l : Line) (slot : Fin 9) (r : Reply) : (l.heard slot r).modules[slot] = (l.modules[slot]).heard := by
  unfold Line.heard Line.noted
  split
  · simp
  · split <;> simp

theorem Ev.heard_same (e : Ev) (n m : LineNo) (slot : Fin 9) (r : Reply) : (e.line m).HeardSame ((e.heard n slot r).line m) := by
  rw [Ev.heard_line]
  split
  · exact Line.heard_same _ _ _
  · exact ⟨rfl, rfl, rfl, rfl, rfl, rfl, rfl⟩

theorem Ev.advanceCycle_next (h : k.slot.val < 8) : e.advanceCycle n k
    = e.updLine n fun l => { l with cycle := some { k with slot := ⟨k.slot.val + 1, by omega⟩ } } := dif_pos h

/-! ### What the slot leaves -/

namespace Ev.Goes

variable {U : UnitNo → Prop} {K : Nat → Prop}

theorem heard (h : d.Goes U K e) (hn : U n) (slot : Fin 9) (r : Reply) : d.Goes U K (e.heard n slot r) := h.updLine n _ fun j => absurd hn j

theorem handOn (h : d.Goes U K e) (hn : U n) (slot : Fin 9) (r : Reply) : d.Goes U K (e.handOn n slot r) := by
  unfold Ev.handOn
  split
  · split
    · split
      · exact h.fountainReply hn _ _ _
      · exact h
    · unfold Ev.handOnKey
      split
      · split
        · exact (h.updZone n _ _ (by exact rfl) fun j => absurd hn j).keyReply hn _ _ _ _
        · exact h
      · exact h
  · exact h

theorem returned (h : d.Goes U K e) (hn : U n) (slot : Fin 9) : d.Goes U K (e.returned n slot) := by
  unfold Ev.returned
  dsimp only
  split
  · exact ((h.raise _).oweLine n).pursueAfresh hn
  · exact (h.raise _).oweLine n

theorem answered (h : d.Goes U K e) (hn : U n) (slot : Fin 9) (r : Reply) : d.Goes U K (e.answered n slot r) := by
  unfold Ev.answered
  split
  · exact ((h.heard hn slot r).handOn hn slot r).returned hn slot
  · exact (h.heard hn slot r).handOn hn slot r

theorem lastCycleEnd (h : d.Goes U K e) (hn : U n) : d.Goes U K (e.lastCycleEnd n) :=
  (((h.updLine n _ fun j => absurd hn j).updModules hn _).endLinePower n false).oweLine n

theorem advanceCycle (h : d.Goes U K e) (hn : U n) (k : Cycle) : d.Goes U K (e.advanceCycle n k) := by
  unfold Ev.advanceCycle
  split
  · exact h.updLine n _ fun j => absurd hn j
  · split
    · exact h.lastCycleEnd hn
    · exact h.updLine n _ fun j => absurd hn j

theorem loseModule (h : d.Goes U K e) (n : LineNo) (slot : Fin 9) : d.Goes U K (e.loseModule n slot) :=
  .foldl (fun _ z k => k.loseZone n z) _ h

theorem loseFountain (h : d.Goes U K e) (hn : U n) : d.Goes U K (e.loseFountain n) := by
  unfold Ev.loseFountain
  split
  · exact h.endSweepFault hn
  · exact h.setSweepFault hn true

theorem moduleMissing (h : d.Goes U K e) (hn : U n) (slot : Fin 9) : d.Goes U K (e.moduleMissing n slot) := by
  unfold Ev.moduleMissing
  refine Ev.Goes.oweLine (Ev.Goes.raise ?_ _) n
  split
  · exact h.loseFountain hn
  · exact h.loseModule n slot

theorem slotMissed (h : d.Goes U K e) (hn : U n) (slot : Fin 9) : d.Goes U K (e.slotMissed n slot) := by
  unfold Ev.slotMissed
  dsimp only
  split
  · split
    · exact (h.updModule hn slot _).moduleMissing hn slot
    · exact h.updModule hn slot _
  · exact h

end Ev.Goes

end Sys2Proof.Machine
end

