-- ==== Sys2Proof/Proofs/SweepMoves.lean ====
section
/-! PROOFS. The ends of a sweep move (R93, R94), and the return of a fountain drive (R91). -/

namespace Sys2Proof.Machine

open Decode

variable {d e f : Ev} {s t : State} {n m : LineNo} {u v : UnitNo} {z y : ZoneNo} {k : Cycle} {w : Word} {r : Reply} {slot : Fin 9} {x : Nat}
  {a : Anchor} {q : Motion} {g : Tag}

/-! ### The ends -/

theorem Ev.setSweepFault_unit (e : Ev) (u v : UnitNo) (on : Bool) :
    (e.setSweepFault u on).unit v = if u = v then { e.unit v with sweepFault := on } else e.unit v := by
  unfold Ev.setSweepFault
  split
  · next h =>
    split
    · next j => subst j; rw [← h]
    · rfl
  · exact Ev.updUnit_unit e u v fun r => { r with sweepFault := on }

theorem Ev.setSweepFault_lines (e : Ev) (u : UnitNo) (on : Bool) : (e.setSweepFault u on).lines = e.lines
    ∧ (e.setSweepFault u on).arbiterDue = e.arbiterDue ∧ (e.setSweepFault u on).port = e.port := by
  unfold Ev.setSweepFault
  split <;> exact ⟨rfl, rfl, rfl⟩

/-- An order that waits for the fountain no more. -/
def OrderRecord.unfountained (o : OrderRecord) : OrderRecord := { o with fountainWait := false }

/-- A unit whose sweep move has ended. -/
def UnitRec.swept (r : UnitRec) (fault : Bool) : UnitRec := { r with sweepFault := fault, tracked := r.tracked.map OrderRecord.unfountained }

/-- A line whose sweep move has ended with a fault (R94). -/
def Line.sweepFaulted (l : Line) : Line :=
  { l with fountain := { l.fountain with move := none, moveTimer := none, reached := none, pursuit := false }
           queue := { l.queue with motion := l.queue.motion.filter fun f => !f.isSweep } }

/-- A line whose sweep move has arrived (R93). -/
def Line.sweepArrived (l : Line) (x : Nat) : Line := { l with fountain := { l.fountain with reached := some x, move := none, moveTimer := none } }

/-- The end of a sweep move: the line, the unit, and what the event owes. -/
structure Ev.SweepEnds (n : LineNo) (g : Line → Line) (fault : Bool) (d e : Ev) : Prop where
  line : ∀ m, e.line m = if n = m then g (d.line m) else d.line m
  unit : ∀ v, e.unit v = if n = v then (d.unit v).swept fault else d.unit v
  arbiterDue : e.arbiterDue = d.arbiterDue

theorem Ev.endFountainWait_unit (e : Ev) (u v : UnitNo) : (e.endFountainWait u).unit v
    = if u = v then { e.unit v with tracked := (e.unit v).tracked.map OrderRecord.unfountained } else e.unit v :=
  Ev.updUnit_unit e u v fun r => { r with tracked := r.tracked.map OrderRecord.unfountained }

theorem Ev.endSweepFault_ends (e : Ev) (n : LineNo) : e.SweepEnds n Line.sweepFaulted true (e.endSweepFault n) := by
  have hline : e.endSweepFault n = (((((e.updLine n Line.sweepFaulted).setSweepFault n true).oweMirror n).raise .lineEvent).endFountainWait n) := by
    unfold Ev.endSweepFault
    dsimp only
    congr 4
    exact Ev.updLine_twice _ _ _ _
  obtain ⟨h1, h2, _⟩ := (e.updLine n Line.sweepFaulted).setSweepFault_lines n true
  rw [hline]
  refine ⟨fun m => ?_, fun v => ?_, h2⟩
  · rw [← Ev.updLine_line]
    exact congrArg (fun ls : Vector Line 16 => ls[m]) h1
  · rw [Ev.endFountainWait_unit]
    have hu : ((((e.updLine n Line.sweepFaulted).setSweepFault n true).oweMirror n).raise .lineEvent).unit v
        = if n = v then { e.unit v with sweepFault := true } else e.unit v := Ev.setSweepFault_unit _ _ _ _
    rw [hu]
    split <;> rfl

theorem Ev.sweepArrives_ends (e : Ev) (n : LineNo) (x : Nat) : e.SweepEnds n (fun l => l.sweepArrived x) false (e.sweepArrives n x) := by
  obtain ⟨h1, h2, _⟩ := (e.updLine n fun l => l.sweepArrived x).setSweepFault_lines n false
  refine ⟨fun m => ?_, fun v => ?_, h2⟩
  · exact (congrArg (fun ls : Vector Line 16 => ls[m]) h1).trans (Ev.updLine_line e n m fun l => l.sweepArrived x)
  · refine (Ev.endFountainWait_unit _ n v).trans ?_
    have hu : ((e.updLine n fun l => l.sweepArrived x).setSweepFault n false).unit v
        = if n = v then { e.unit v with sweepFault := false } else e.unit v := Ev.setSweepFault_unit _ _ _ _
    have hf : (e.updFountain n fun f => { f with reached := some x, move := none, moveTimer := none }) = e.updLine n fun l => l.sweepArrived x := rfl
    rw [hf, hu]
    split <;> rfl

/-! ### The end of an event that gives no grant -/

/-- What stays of an event that has owed no arbiter run. -/
structure Ev.EndsStill (e : Ev) (t : State) : Prop where
  lines : t.lines = e.lines
  settings : ∀ v, (e.unit v).SameSettings (t.unit v)
  tracked : ∀ v, (t.unit v).tracked = (e.unit v).tracked ∨ (t.unit v).tracked = none
  zone : ∀ v y, t.zone v y = e.zone v y
  notice : ∀ c, e.noticePending c = true → t.noticePending c = true

theorem noticePending_of_and {p : Port} (h : s.port = p) (hn : p.notices &&& t.port.notices = p.notices) (c : Notice)
    (hc : s.noticePending c = true) : t.noticePending c = true := by
  subst h
  unfold State.noticePending at hc ⊢
  rw [← hn, BitVec.getLsbD_and, Bool.and_eq_true] at hc
  exact hc.2

theorem Ev.settle_notice (e : Ev) (c : Notice) (hc : e.noticePending c = true) : e.settle.noticePending c = true :=
  noticePending_of_and rfl e.settle_settled.notices c hc

theorem Ev.settle_endsStill (h : e.arbiterDue = false) : e.EndsStill e.settle.toState := by
  have hend : e.settleArbiter.EndsOnly e.settle := (Ev.EndsOnly.refl _).runTests.flush
  have hA : e.settleArbiter = e := by rw [Ev.settleArbiter, h]; rfl
  have hs := e.settle_settled
  refine ⟨hend.lines.trans (by rw [hA]), fun v => ⟨hs.config v, hs.currentSweep v, hs.loopOn v, hs.loopParams v, hs.waiting v, hs.staged v,
    hs.sweepFault v⟩, hs.tracked, Ev.settle_zone h, e.settle_notice⟩

theorem UnitRec.swept_tracked {r : UnitRec} {fault : Bool} {o : Option OrderRecord} (h : o = (r.swept fault).tracked ∨ o = none) :
    ∀ p, o = some p → p.fountainWait = false := by
  rintro p rfl
  rcases h with h | h
  · obtain ⟨p', _, rfl⟩ := Option.map_eq_some_iff.1 h.symm
    rfl
  · cases h

/-! ### The timer -/

theorem sweepTimeout_faults (h : s.regionsInMemory = true) (hm : (s.line n).fountain.move.isSome = true)
    (ht : (s.line n).fountain.moveTimer.isSome = true) : exec (.sweepTimeout n) s = .next ((s.landed []).endSweepFault n).settle.toState := by
  have hx : exec (.sweepTimeout n) s = act s fun e =>
    if (e.line n).fountain.move.isSome ∧ (e.line n).fountain.moveTimer.isSome then e.endSweepFault n else e := rfl
  rw [hx, act_landed h]
  exact congrArg (fun g : Ev => Host.Outcome.next g.settle.toState) (if_pos ⟨hm, ht⟩)

theorem Ev.SweepEnds.zone {g : Line → Line} {fault : Bool} (h : d.SweepEnds n g fault e) (v : UnitNo) (y : ZoneNo) : e.zone v y = d.zone v y := by
  show (e.unit v).zones[y] = (d.unit v).zones[y]
  rw [h.unit]
  split <;> rfl

theorem Line.sweepFaulted_queue (l : Line) : l.sweepFaulted.queue.motion.any MotionFrame.isSweep = false := by
  simp [Line.sweepFaulted]

/-- What the end of the event leaves of the line and the unit whose sweep move has ended. -/
structure State.SweepEnded (s t : State) (n : LineNo) (g : Line → Line) (fault : Bool) : Prop where
  line : t.line n = g (s.line n)
  others : ∀ m, m ≠ n → t.line m = s.line m
  sweepFault : (t.unit n).sweepFault = fault
  tracked : ∀ o, (t.unit n).tracked = some o → o.fountainWait = false
  zone : ∀ v z, t.zone v z = s.zone v z

theorem Ev.SweepEnds.settled {g : Line → Line} {fault : Bool} (h : d.SweepEnds n g fault e) (hd : d.arbiterDue = false) :
    d.toState.SweepEnded e.settle.toState n g fault := by
  have hE := Ev.settle_endsStill (h.arbiterDue.trans hd)
  have hline (m : LineNo) : e.settle.line m = e.line m := congrArg (fun ls : Vector Line 16 => ls[m]) hE.lines
  have hself := h.unit n
  rw [if_pos rfl] at hself
  refine ⟨?_, fun m hm => ?_, ?_, UnitRec.swept_tracked (r := d.unit n) (fault := fault) ?_, fun v y => (hE.zone v y).trans (h.zone v y)⟩
  · rw [hline, h.line, if_pos rfl]
  · rw [hline, h.line, if_neg (Ne.symm hm)]
  · rw [(hE.settings n).sweepFault, hself]
    rfl
  · rw [← hself]
    exact hE.tracked n

theorem Ev.endSweepFault_notice (e : Ev) (n : LineNo) : (e.endSweepFault n).noticePending .lineEvent = true := by
  show (Ev.raise _ .lineEvent).noticePending .lineEvent = true
  rw [Ev.noticePending_raise]
  exact Bool.or_true _

/-- The expiry of a sweep move's timer. -/
theorem sweepTimeout_ends (h : s.regionsInMemory = true) (hm : (s.line n).fountain.move.isSome = true)
    (ht : (s.line n).fountain.moveTimer.isSome = true) : ∃ t, exec (.sweepTimeout n) s = .next t
      ∧ (t.line n).fountain.move = none ∧ (t.line n).fountain.moveTimer = none ∧ (t.line n).fountain.reached = none
      ∧ (t.line n).fountain.pursuit = false ∧ (t.line n).fountain.wanted = (s.line n).fountain.wanted
      ∧ t.sweepQueued n = false ∧ (t.unit n).sweepFault = true ∧ t.noticePending .lineEvent = true
      ∧ (∀ o, (t.unit n).tracked = some o → o.fountainWait = false)
      ∧ (∀ a, s.Linked a → s.MirrorWritten t a n)
      ∧ (∀ v z, t.zone v z = s.zone v z) ∧ (∀ m, m ≠ n → t.line m = s.line m) ∧ s.SameOutside t := by
  have hG := ((s.landed_goes [] (· = n)).endSweepFault rfl : (s.landed []).Goes _ _ ((s.landed []).endSweepFault n))
  have hE := ((s.landed []).endSweepFault_ends n).settled rfl
  have hnotice := Ev.settle_notice _ _ ((s.landed []).endSweepFault_notice n)
  have hmirror := fun a (hl : s.Linked a) => hG.settled_mirror (u := n) hl List.mem_cons_self
  have hout : s.SameOutside ((s.landed []).endSweepFault n).settle.toState :=
    Ev.has_settle (stable_sameOutside s) (Ev.has_endSweepFault (stable_sameOutside s) ⟨rfl, rfl, rfl, rfl, rfl, rfl⟩ n)
  refine ⟨_, sweepTimeout_faults h hm ht, ?_⟩
  generalize ((s.landed []).endSweepFault n).settle.toState = t at *
  refine ⟨?_, ?_, ?_, ?_, ?_, ?_, hE.sweepFault, hnotice, hE.tracked, hmirror, hE.zone, hE.others, hout⟩
  case refine_6 =>
    unfold State.sweepQueued
    rw [hE.line]
    exact Line.sweepFaulted_queue _
  all_goals
    rw [hE.line]
    rfl

/-! ### Replies of the fountain drive -/

theorem judgeSlot_motion {late : Bool} (h : judgeSlot slot (.reply w late) = .valid) : ∃ q, (replyOfWord w).motion = some q := by
  unfold judgeSlot at h
  dsimp only at h
  split at h
  · cases h
  · split at h
    · cases h
    · next hm =>
      rw [← Option.isSome_iff_exists, Option.isSome_iff_ne_none]
      intro hn
      simp [replyMalformed, hn] at hm

theorem Ev.handOn_fountain (hq : r.motion = some q) (hd : (e.unit n).config.isSome = true) :
    e.handOn n 0 r = e.fountainReply n r.position q r.tag := by
  unfold Ev.handOn
  rw [hq]
  dsimp only
  rw [if_pos rfl]
  exact if_pos hd

theorem Ev.fountainReply_passed (h : (e.line n).fountain.move = none ∨ e.sweepQueued n = true
    ∨ ∃ m, (e.line n).fountain.move = some m ∧ m.tag ≠ g) : e.fountainReply n x q g = e := by
  unfold Ev.fountainReply
  rcases h with h | h | ⟨m, h, hg⟩
  · rw [h]
  · cases hm : (e.line n).fountain.move with
    | none => rfl
    | some m => exact if_pos (by rw [h]; rfl)
  · rw [h]
    exact if_pos (by simp [hg])

/-- The reply answers the sweep move in flight, whose frame is sent (R93). -/
structure State.SweepAnswered (s : State) (n : LineNo) (m : SweepMove) (g : Tag) : Prop where
  move : (s.line n).fountain.move = some m
  sent : s.sweepQueued n = false
  tag : m.tag = g

theorem Ev.fountainReply_matched {m : SweepMove} (h : e.SweepAnswered n m g) :
    (q = .moving → e.fountainReply n x q g = e)
      ∧ (q = .atRest → distance x m.value ≤ 5 → e.fountainReply n x q g = e.sweepArrives n m.value)
      ∧ (q = .blocked ∨ (q = .atRest ∧ 5 < distance x m.value) → e.fountainReply n x q g = e.endSweepFault n) := by
  have hnot : ¬(e.sweepQueued n || m.tag != g) = true := by simp [h.sent, h.tag]
  unfold Ev.fountainReply
  rw [h.move]
  refine ⟨?_, ?_, ?_⟩
  · rintro rfl
    exact if_neg hnot
  · rintro rfl hnear
    exact (if_neg hnot).trans (if_pos hnear)
  · rintro (rfl | ⟨rfl, hfar⟩)
    · exact if_neg hnot
    · exact (if_neg hnot).trans (if_neg (by omega))

/-- The event that sets pursuit (R91). -/
def Ev.pursuing (e : Ev) (n : LineNo) : Ev := e.updFountain n fun f => { f with pursuit := true }

/-- The pursuit of a PRESENT drive with no move in flight (R92). -/
theorem Ev.pursueAfresh_present (hm : (e.line n).fountain.move = none) (hp : e.fountainModule n = .present) :
    e.pursueAfresh n = match (e.line n).fountain.wanted with
      | some v => if e.attached = true ∧ (e.line n).inService = true ∧ (e.line n).fountain.reached ≠ some v then (e.pursuing n).sendSweep n v
        else e.pursuing n
      | none => e.pursuing n := by
  have hline : (e.pursuing n).line n = { e.line n with fountain := { (e.line n).fountain with pursuit := true } } := Ev.updLine_line_self _ _ _
  have hserve : ((e.pursuing n).line n).inService = (e.line n).inService := by rw [hline]; rfl
  have hmodule : (e.pursuing n).fountainModule n = .present := by
    unfold State.fountainModule
    rw [hline]
    exact hp
  have hpur : e.pursueAfresh n = (e.pursuing n).pursue n := rfl
  have hatt : (e.pursuing n).attached = e.attached := rfl
  rw [hpur]
  unfold Ev.pursue
  rw [hatt, hserve, hline]
  by_cases hs : e.attached = true ∧ (e.line n).inService = true
  · rw [if_pos (by simp [hs])]
    cases hw : (e.line n).fountain.wanted with
    | none => rfl
    | some v =>
      dsimp only
      unfold Ev.pursueTo
      rw [hline]
      dsimp only
      rw [hm]
      dsimp only
      by_cases hr : (e.line n).fountain.reached = some v
      · rw [if_pos hr, if_neg fun j => j.2.2 hr]
      · rw [if_neg hr, hmodule, if_pos ⟨hs.1, hs.2, hr⟩]
  · rw [if_neg (by simpa using hs)]
    cases hw : (e.line n).fountain.wanted with
    | none => rfl
    | some v => exact (if_neg fun j => hs ⟨j.1, j.2.1⟩).symm

theorem Ev.sendSweep_line (e : Ev) (n : LineNo) (x : Nat) : (e.sendSweep n x).line n = { e.line n with
    tagCounter := e.nextSweepTag n + 1
    queue := { (e.line n).queue with motion := (e.line n).queue.motion ++ [.sweep x (e.nextSweepTag n)] }
    fountain := { (e.line n).fountain with
      move := some { value := x, tag := e.nextSweepTag n }, moveTimer := some (e.unit n).moveTimeout } } := by
  unfold Ev.sendSweep Ev.queueSweep Ev.updFountain Ev.updQueue Ev.tagTaken
  rw [Ev.updLine_line_self, Ev.updLine_line_self, Ev.updLine_line_self]

theorem Ev.fountainReply_cases (e : Ev) (n : LineNo) (x : Nat) (q : Motion) (g : Tag) :
    e.fountainReply n x q g = e ∨ e.fountainReply n x q g = e.endSweepFault n ∨ ∃ y, e.fountainReply n x q g = e.sweepArrives n y := by
  unfold Ev.fountainReply
  split
  · exact .inl rfl
  · split
    · exact .inl rfl
    · split
      · exact .inl rfl
      · exact .inr (.inl rfl)
      · split
        · exact .inr (.inr ⟨_, rfl⟩)
        · exact .inr (.inl rfl)

/-- A reply leaves the tags of the drive as it has been heard, and owes no arbiter run. -/
theorem Ev.fountainReply_tags (e : Ev) (n : LineNo) (x : Nat) (q : Motion) (g : Tag) :
    ((e.fountainReply n x q g).line n).fountainTags = (e.line n).fountainTags ∧ (e.fountainReply n x q g).arbiterDue = e.arbiterDue := by
  rcases e.fountainReply_cases n x q g with h | h | ⟨y, h⟩
  · rw [h]
    exact ⟨rfl, rfl⟩
  · have hE := e.endSweepFault_ends n
    rw [h, hE.line, if_pos rfl]
    exact ⟨rfl, hE.arbiterDue⟩
  · have hE := e.sweepArrives_ends n y
    rw [h, hE.line, if_pos rfl]
    exact ⟨rfl, hE.arbiterDue⟩

theorem Ev.fountainReply_zone (e : Ev) (n : LineNo) (x : Nat) (q : Motion) (g : Tag) (v : UnitNo) (y : ZoneNo) :
    (e.fountainReply n x q g).zone v y = e.zone v y := by
  rcases e.fountainReply_cases n x q g with h | h | ⟨x', h⟩
  · rw [h]
  · rw [h, (e.endSweepFault_ends n).zone]
  · rw [h, (e.sweepArrives_ends n x').zone]

theorem Ev.fountainReply_other (e : Ev) (x : Nat) (q : Motion) (g : Tag) (hm : m ≠ n) : (e.fountainReply n x q g).line m = e.line m := by
  rcases e.fountainReply_cases n x q g with h | h | ⟨x', h⟩
  · rw [h]
  · rw [h, (e.endSweepFault_ends n).line, if_neg (Ne.symm hm)]
  · rw [h, (e.sweepArrives_ends n x').line, if_neg (Ne.symm hm)]

theorem Ev.updLine_other (e : Ev) (f : Line → Line) (hm : m ≠ n) : (e.updLine n f).line m = e.line m := by
  rw [Ev.updLine_line, if_neg (Ne.symm hm)]

/-- The pursuit leaves the other lines. -/
theorem Ev.pursueAfresh_other (e : Ev) (hm : m ≠ n) : (e.pursueAfresh n).line m = e.line m := by
  have hsend (f : Ev) (x : Nat) : (f.sendSweep n x).line m = f.line m := by
    unfold Ev.sendSweep Ev.queueSweep Ev.updFountain Ev.updQueue Ev.tagTaken
    rw [Ev.updLine_other _ _ hm, Ev.updLine_other _ _ hm, Ev.updLine_other _ _ hm]
  have hto (f : Ev) (x : Nat) : (f.pursueTo n x).line m = f.line m := by
    unfold Ev.pursueTo
    split
    · split
      · rfl
      · split
        · exact hsend f x
        · have h := ((f.updFountain n fun r => { r with pursuit := false }).setSweepFault_lines n true).1
          exact (congrArg (fun ls : Vector Line 16 => ls[m]) h).trans (Ev.updLine_other _ _ hm)
        · rfl
    · split
      · rfl
      · split
        · unfold Ev.updFountain Ev.updQueue
          rw [Ev.updLine_other _ _ hm, Ev.updLine_other _ _ hm]
        · exact hsend f x
  have h0 : (e.pursuing n).line m = e.line m := Ev.updLine_other _ _ hm
  show ((e.pursuing n).pursue n).line m = e.line m
  unfold Ev.pursue
  split
  · split
    · exact (hto _ _).trans h0
    · exact h0
  · exact h0

theorem Ev.returned_pursuing (e : Ev) (n : LineNo) : ((e.raise .lineEvent).oweLine n).Pursuing (e.returned n 0) :=
  (Ev.Pursuing.refl _).pursueAfresh n

/-- A drive that has returned is pursued (R91, R92). -/
structure Ev.Returning (e f : Ev) (n : LineNo) : Prop where
  units : f.units = e.units
  notice : f.noticePending .lineEvent = true
  pursuit : (f.line n).fountain.pursuit = true
  module : f.fountainModule n = .present
  pursued : ∀ v, (e.line n).fountain.wanted = some v →
    if e.attached = true ∧ (e.line n).inService = true ∧ (e.line n).fountain.reached ≠ some v then
      ∃ g, (f.line n).fountain.move = some { value := v, tag := g } ∧ (f.line n).fountain.moveTimer = some (e.unit n).moveTimeout
        ∧ .sweep v g ∈ (f.line n).queue.motion ∧ g ≠ (e.line n).fountainTags.reported ∧ g ≠ (e.line n).fountainTags.sent
    else (f.line n).fountain.move = none

theorem Ev.returned_returning (hm : (e.line n).fountain.move = none) (hp : e.fountainModule n = .present) : e.Returning (e.returned n 0) n := by
  have hP := e.returned_pursuing n
  have hnotice : (e.returned n 0).noticePending .lineEvent = true := by
    unfold State.noticePending
    rw [hP.port]
    show (e.raise .lineEvent).noticePending .lineEvent = true
    rw [Ev.noticePending_raise]
    exact Bool.or_true _
  have hmodule : (e.returned n 0).fountainModule n = .present := by
    unfold State.fountainModule
    rw [hP.modules]
    exact hp
  have hcase : e.returned n 0 = _ := Ev.pursueAfresh_present (e := (e.raise .lineEvent).oweLine n) hm hp
  have hidle : (((e.raise .lineEvent).oweLine n).pursuing n).line n = { e.line n with fountain := { (e.line n).fountain with pursuit := true } } :=
    Ev.updLine_line_self _ _ _
  have hsent := fun v => (((e.raise .lineEvent).oweLine n).pursuing n).sendSweep_line n v
  have hsentUnits : ∀ v, ((((e.raise .lineEvent).oweLine n).pursuing n).sendSweep n v).units = e.units := fun _ => rfl
  have hidleUnits : (((e.raise .lineEvent).oweLine n).pursuing n).units = e.units := rfl
  have hwanted : (((e.raise .lineEvent).oweLine n).line n).fountain.wanted = (e.line n).fountain.wanted := rfl
  rw [hwanted] at hcase
  cases hw : (e.line n).fountain.wanted with
  | none =>
    rw [hw] at hcase
    rw [hcase] at hnotice hmodule ⊢
    exact ⟨hidleUnits, hnotice, by rw [hidle], hmodule, fun v hv => by rw [hw] at hv; cases hv⟩
  | some v =>
    rw [hw] at hcase
    by_cases hc : e.attached = true ∧ (e.line n).inService = true ∧ (e.line n).fountain.reached ≠ some v
    · have hcase' := hcase.trans (if_pos hc)
      rw [hcase'] at hnotice hmodule ⊢
      refine ⟨hsentUnits v, hnotice, ?_, hmodule, fun v' hv' => ?_⟩
      · rw [hsent, hidle]
      · obtain rfl := Option.some.inj (hw.symm.trans hv')
        have hfresh := nextTag_fresh (e.line n).tagCounter (e.line n).fountainTags
        have htag : (((e.raise .lineEvent).oweLine n).pursuing n).nextSweepTag n = nextTag (e.line n).tagCounter (e.line n).fountainTags := by
          unfold State.nextSweepTag
          rw [hidle]
        rw [if_pos hc, hsent, htag]
        exact ⟨_, rfl, rfl, List.mem_append_right _ List.mem_cons_self, hfresh⟩
    · have hcase' := hcase.trans (if_neg hc)
      rw [hcase'] at hnotice hmodule ⊢
      refine ⟨hidleUnits, hnotice, by rw [hidle], hmodule, fun v' hv' => ?_⟩
      obtain rfl := Option.some.inj (hw.symm.trans hv')
      rw [if_neg hc, hidle]
      exact hm

/-- The line of a reply slot that is not the last, once the event has ended. -/
theorem Ev.settle_advanced (hd : e.arbiterDue = false) (h : k.slot.val < 8) :
    (e.advanceCycle n k).EndsStill (e.advanceCycle n k).settle.toState
      ∧ (e.advanceCycle n k).settle.line n = { e.line n with cycle := some { k with slot := ⟨k.slot.val + 1, by omega⟩ } } := by
  have hE : (e.advanceCycle n k).EndsStill (e.advanceCycle n k).settle.toState := Ev.settle_endsStill (by rw [Ev.advanceCycle_next h]; exact hd)
  refine ⟨hE, ?_⟩
  refine (congrArg (fun ls : Vector Line 16 => ls[n]) hE.lines).trans ?_
  show (e.advanceCycle n k).line n = _
  rw [Ev.advanceCycle_next h, Ev.updLine_line_self]

theorem Line.heard_fountain (l : Line) (r : Reply) : (l.heard 0 r).fountainTags = { l.fountainTags with reported := r.tag } := rfl

/-- What a VALID reply of the drive leaves when it ends the sweep move. -/
theorem Ev.SweepEnds.advanced {g : Line → Line} {fault : Bool} (h : d.SweepEnds n g fault e) (hd : d.arbiterDue = false) (hk : k.slot.val < 8) :
    ((e.advanceCycle n k).settle.line n).fountain = (g (d.line n)).fountain ∧ ((e.advanceCycle n k).settle.unit n).sweepFault = fault
      ∧ ∀ o, ((e.advanceCycle n k).settle.unit n).tracked = some o → o.fountainWait = false := by
  obtain ⟨hE, hline⟩ := Ev.settle_advanced (n := n) (h.arbiterDue.trans hd) hk
  have hunit : (e.advanceCycle n k).unit n = (d.unit n).swept fault := by
    rw [Ev.advanceCycle_next hk]
    exact (h.unit n).trans (if_pos rfl)
  refine ⟨?_, ?_, UnitRec.swept_tracked (r := d.unit n) (fault := fault) ?_⟩
  · rw [hline, h.line, if_pos rfl]
  · rw [(hE.settings n).sweepFault, hunit]
    rfl
  · rw [← hunit]
    exact hE.tracked n

/-- Settles O38: a sweep move ends by its timer or by a reply of the drive, and a drive that returns is pursued. -/
theorem sweepTimeoutFaultsTheFountain : Obligations.SweepTimeoutFaultsTheFountain := by
  intro s n h
  refine ⟨fun hm ht => sweepTimeout_ends h hm ht, fun k w hk h0 hv hd => ?_⟩
  obtain ⟨q, hq⟩ := judgeSlot_motion hv
  obtain ⟨slot, last⟩ := k
  obtain rfl : slot = 0 := h0
  refine ⟨_, exec_replySlot h hk _, ?_⟩
  rw [Ev.judge_valid _ _ hv]
  have hsame := (s.landed []).heard_same n n 0 (replyOfWord w)
  have hheard : ((s.landed []).heard n 0 (replyOfWord w)).line n = (s.line n).heard 0 (replyOfWord w) := ((s.landed []).heard_line n n 0 _).trans (if_pos rfl)
  have hans : (s.landed []).answered n 0 (replyOfWord w) = if s.fountainModule n = .missing
      then (((s.landed []).heard n 0 (replyOfWord w)).fountainReply n (replyOfWord w).position q (replyOfWord w).tag).returned n 0
      else ((s.landed []).heard n 0 (replyOfWord w)).fountainReply n (replyOfWord w).position q (replyOfWord w).tag := by
    rw [← Ev.handOn_fountain (e := (s.landed []).heard n 0 (replyOfWord w)) hq hd]
    rfl
  have hunit : ((s.landed []).heard n 0 (replyOfWord w)).units = s.units := rfl
  have hdue : ((s.landed []).heard n 0 (replyOfWord w)).arbiterDue = false := rfl
  have htests : ((s.landed []).heard n 0 (replyOfWord w)).testDue = [] := rfl
  have hport : ((s.landed []).heard n 0 (replyOfWord w)).port = s.port := rfl
  have hothers : ∀ m, m ≠ n → ((s.landed []).heard n 0 (replyOfWord w)).line m = s.line m := fun m hm => Ev.updLine_other _ _ hm
  generalize (s.landed []).heard n 0 (replyOfWord w) = e at *
  have hqueued : e.sweepQueued n = s.sweepQueued n := by
    unfold State.sweepQueued
    rw [hsame.queue]
    rfl
  have hfountain : (e.line n).fountain = (s.line n).fountain := hsame.fountain
  have htags : (e.line n).fountainTags = { (s.line n).fountainTags with reported := (replyOfWord w).tag } := by rw [hheard]; rfl
  have hG := (((s.landed_goes [] (· = n)).answered rfl 0 (replyOfWord w) : (s.landed []).Goes _ _ ((s.landed []).answered n 0 (replyOfWord w))).advanceCycle
    rfl { slot := 0, last := last }).settled
  have hout : s.SameOutside (((s.landed []).answered n 0 (replyOfWord w)).advanceCycle n { slot := 0, last := last }).settle.toState := by
    rw [← Ev.judge_valid (k := { slot := 0, last := last }) (w := w) _ _ hv]
    exact Ev.has_settle (stable_sameOutside s) (Ev.has_judge (stable_sameOutside s) (e := s.landed []) ⟨rfl, rfl, rfl, rfl, rfl, rfl⟩ n _ _)
  rw [hans] at hG hout ⊢
  have hstands : (e.line n).fountain.move = (s.line n).fountain.move := by rw [hfountain]
  have hkept : ∀ c : Cycle, c.slot.val < 8 → ((e.advanceCycle n c).settle.line n).fountain = (s.line n).fountain
      ∧ (e.advanceCycle n c).settle.units = s.units := fun c hc => by
    obtain ⟨_, hline⟩ := Ev.settle_advanced (n := n) hdue hc
    have hw : (e.advanceCycle n c).Wrote (e.advanceCycle n c).settle fun _ => True := by
      rw [Ev.advanceCycle_next hc]
      exact Ev.settle_still hdue htests
    refine ⟨by rw [hline]; exact hfountain, hw.units.trans ?_⟩
    rw [Ev.advanceCycle_next hc]
    exact hunit
  have h8 : (0 : Fin 9).val < 8 := Nat.succ_pos 7
  have hdue' : ∀ e' : Ev, (e' = e.fountainReply n (replyOfWord w).position q (replyOfWord w).tag ∨
      e' = (e.fountainReply n (replyOfWord w).position q (replyOfWord w).tag).returned n 0) → e'.arbiterDue = false
        ∧ (e'.line n).fountainTags = { (s.line n).fountainTags with reported := (replyOfWord w).tag }
        ∧ (∀ v z, e'.zone v z = s.zone v z) ∧ ∀ m, m ≠ n → e'.line m = s.line m := fun e' he => by
    obtain ⟨h1, h2⟩ := e.fountainReply_tags n (replyOfWord w).position q (replyOfWord w).tag
    have hz : ∀ v z, (e.fountainReply n (replyOfWord w).position q (replyOfWord w).tag).zone v z = s.zone v z := fun v z =>
      (e.fountainReply_zone n _ q _ v z).trans (congrArg (fun us : Vector UnitRec 16 => (us[v]).zones[z]) hunit)
    have ho : ∀ m, m ≠ n → (e.fountainReply n (replyOfWord w).position q (replyOfWord w).tag).line m = s.line m := fun m hm =>
      (e.fountainReply_other _ q _ hm).trans (hothers m hm)
    rcases he with rfl | rfl
    · exact ⟨h2.trans hdue, h1.trans htags, hz, ho⟩
    · have hP := (e.fountainReply n (replyOfWord w).position q (replyOfWord w).tag).returned_pursuing n
      exact ⟨hP.arbiterDue.trans (h2.trans hdue), (hP.fountainTags n).trans (h1.trans htags), fun v z => (hP.zone v z).trans (hz v z),
        fun m hm => (Ev.pursueAfresh_other _ hm).trans (ho m hm)⟩
  have hevent := hdue' (if s.fountainModule n = .missing then _ else _) (by split; exact .inr rfl; exact .inl rfl)
  refine ⟨fun m hne hm hs hg => ?_, fun hne hpass => ?_, fun hmiss hnone => ?_, ?_, ?_, fun a hl hf => hG.faults a hl n hf, fun v z => ?_, fun m hm => ?_, hout⟩
  · obtain ⟨r1, r2, r3⟩ := Ev.fountainReply_matched (x := (replyOfWord w).position) (q := q) (e := e) (n := n) ⟨hstands.trans hm, hqueued.trans hs, hg⟩
    rw [if_neg hne]
    refine ⟨fun hmov => ?_, fun hrest hnear => ?_, fun hbad => ?_⟩
    · rw [r1 (Option.some.inj (hq.symm.trans hmov))]
      obtain ⟨h1, h2⟩ := hkept { slot := 0, last := last } h8
      exact ⟨h1, congrArg (fun us : Vector UnitRec 16 => (us[n]).sweepFault) h2⟩
    · rw [r2 (Option.some.inj (hq.symm.trans hrest)) hnear]
      obtain ⟨h1, h2, h3⟩ := (e.sweepArrives_ends n m.value).advanced hdue (k := { slot := 0, last := last }) h8
      exact ⟨by rw [h1, Line.sweepArrived, hfountain], h2, h3⟩
    · rw [r3 (hbad.imp (fun j => Option.some.inj (hq.symm.trans j)) fun j => ⟨Option.some.inj (hq.symm.trans j.1), j.2⟩)]
      obtain ⟨h1, h2, h3⟩ := (e.endSweepFault_ends n).advanced hdue (k := { slot := 0, last := last }) h8
      refine ⟨by rw [h1, Line.sweepFaulted, hfountain], h2, Ev.settle_notice _ _ ?_, h3⟩
      rw [Ev.advanceCycle_next h8]
      exact e.endSweepFault_notice n
  · rw [if_neg hne, Ev.fountainReply_passed (by rw [hstands, hqueued]; exact hpass)]
    exact hkept { slot := 0, last := last } h8
  · obtain ⟨j1, _⟩ := hdue' _ (.inr rfl)
    rw [if_pos hmiss]
    rw [Ev.fountainReply_passed (.inl (hstands.trans hnone))] at j1 ⊢
    have hpresent : e.fountainModule n = .present := by
      have hmod : ((s.line n).heard 0 (replyOfWord w)).modules[(0 : Fin 9)] = _ := Line.heard_module _ _ _
      unfold State.fountainModule at hmiss ⊢
      rw [hheard, hmod, ModuleRec.heard, hmiss]
    obtain ⟨hE, hline⟩ := Ev.settle_advanced (k := { slot := 0, last := last }) (n := n) j1 h8
    have hR := Ev.returned_returning (hstands.trans hnone) hpresent
    have hattached : e.attached = true ↔ s.port.state = .attached := by
      unfold State.attached
      rw [hport]
      exact beq_iff_eq
    have hserve : (e.line n).inService = (s.line n).inService := by
      unfold Line.inService
      rw [hsame.power, hsame.stopTaken]
      rfl
    have hadvUnits : ((e.returned n 0).advanceCycle n { slot := 0, last := last }).units = e.units := by
      rw [Ev.advanceCycle_next h8]
      exact hR.units
    refine ⟨?_, hE.notice _ ?_, ?_, ?_, fun v hv => ?_⟩
    · unfold State.fountainModule
      rw [hline]
      exact hR.module
    · rw [Ev.advanceCycle_next h8]
      exact hR.notice
    · rw [hline]
      exact hR.pursuit
    · rw [(hE.settings n).sweepFault]
      exact congrArg (fun us : Vector UnitRec 16 => (us[n]).sweepFault) (hadvUnits.trans hunit)
    · have hgoal := hR.pursued v (by rw [hfountain]; exact hv)
      have htime : (e.unit n).moveTimeout = (s.unit n).moveTimeout := congrArg (fun us : Vector UnitRec 16 => (us[n]).moveTimeout) hunit
      rw [htags, hserve, hfountain, htime] at hgoal
      simp only [hattached] at hgoal
      rw [hline]
      exact hgoal
  · rw [(Ev.settle_advanced (k := { slot := 0, last := last }) (n := n) hevent.1 h8).2]
    exact hevent.2.1
  · rw [(Ev.settle_advanced (k := { slot := 0, last := last }) (n := n) hevent.1 h8).2]
    rfl
  · rw [(Ev.settle_advanced (k := { slot := 0, last := last }) (n := n) hevent.1 h8).1.zone, Ev.advanceCycle_next h8]
    exact hevent.2.2.1 v z
  · refine (congrArg (fun ls : Vector Line 16 => ls[m]) (Ev.settle_advanced (k := { slot := 0, last := last }) (n := n) hevent.1 h8).1.lines).trans ?_
    rw [Ev.advanceCycle_next h8]
    exact (Ev.updLine_other _ _ hm).trans (hevent.2.2.2 m hm)

end Sys2Proof.Machine
end

