-- ==== Sys2Proof/Proofs/EndedOrders.lean ====
section
/-! PROOFS. The order of a unit that an event of its line ends: what the event has left of it until then, and what its slot shows. -/

namespace Sys2Proof.Machine

open Decode

variable {U : UnitNo → Prop} {K : Nat → Prop} {d e f : Ev} {s t : State} {n m : LineNo} {u v : UnitNo} {z y : ZoneNo} {a : Anchor} {o : OrderRecord}
  {st : Status} {x : Detail} {host : List HostWrite}

/-- The units follow and await the orders that they did. -/
def Ev.SameOrders (d e : Ev) : Prop := ∀ v, (e.unit v).tracked = (d.unit v).tracked ∧ (e.unit v).waiting = (d.unit v).waiting

namespace Ev.SameOrders

theorem refl (e : Ev) : e.SameOrders e := fun _ => ⟨rfl, rfl⟩

theorem trans (h : d.SameOrders e) (k : e.SameOrders f) : d.SameOrders f := fun v => ⟨(k v).1.trans (h v).1, (k v).2.trans (h v).2⟩

theorem of_units (h : e.units = d.units) : d.SameOrders e := fun v => by
  have hv : e.unit v = d.unit v := congrArg (fun us : Vector UnitRec 16 => us[v]) h
  rw [hv]
  exact ⟨rfl, rfl⟩

theorem updUnit (h : d.SameOrders e) (u : UnitNo) (g : UnitRec → UnitRec) (hg : ∀ r, (g r).tracked = r.tracked ∧ (g r).waiting = r.waiting) :
    d.SameOrders (e.updUnit u g) := h.trans fun v => by
  rw [Ev.updUnit_unit]
  split
  · exact hg _
  · exact ⟨rfl, rfl⟩

theorem updZone (h : d.SameOrders e) (u : UnitNo) (z : ZoneNo) (g : Zone → Zone) : d.SameOrders (e.updZone u z g) :=
  h.updUnit u _ fun _ => ⟨rfl, rfl⟩

theorem same (h : d.SameOrders e) (hu : f.units = e.units) : d.SameOrders f := h.trans (of_units hu)

theorem oweTest (h : d.SameOrders e) (u : UnitNo) : d.SameOrders (e.oweTest u) := h.same rfl

theorem oweMirror (h : d.SameOrders e) (u : UnitNo) : d.SameOrders (e.oweMirror u) := h.same rfl

theorem raise (h : d.SameOrders e) (c : Notice) : d.SameOrders (e.raise c) := h.same rfl

theorem releaseGrant (h : d.SameOrders e) (u : UnitNo) (z : ZoneNo) : d.SameOrders (e.releaseGrant u z) := by
  have hz := h.updZone u z fun r => { r with commanded := none, moveKind := none, moveTag := none, moveTimer := none }
  exact hz.same rfl

theorem changeState (h : d.SameOrders e) (u : UnitNo) (z : ZoneNo) (new : ZoneState) : d.SameOrders (e.changeState u z new) := by
  unfold Ev.changeState
  dsimp only
  split
  · exact h
  · refine oweTest (oweMirror (updZone ?_ u z _) u) u
    have h1 : d.SameOrders (if (e.zone u z).state = .moving then e.releaseGrant u z else e) := by
      split
      · exact h.releaseGrant u z
      · exact h
    split
    · exact h1.same rfl
    · exact h1

theorem enterPending (h : d.SameOrders e) (u : UnitNo) (z : ZoneNo) (k : MoveKind) : d.SameOrders (e.enterPending u z k) := by
  unfold Ev.enterPending
  split
  · exact h
  · exact (h.changeState u z .pending).same rfl

theorem enterFaulted (h : d.SameOrders e) (u : UnitNo) (z : ZoneNo) (c : FaultCause) : d.SameOrders (e.enterFaulted u z c) :=
  ((h.changeState u z .faulted).updZone u z _).raise _

theorem foldl {α : Type} {g : Ev → α → Ev} (hg : ∀ (e : Ev) x, e.SameOrders (g e x)) (l : List α) (h : d.SameOrders e) : d.SameOrders (l.foldl g e) := by
  induction l generalizing e with
  | nil => exact h
  | cons x l ih => exact ih (h.trans (hg e x))

theorem loseZone (h : d.SameOrders e) (u : UnitNo) (z : ZoneNo) : d.SameOrders (e.loseZone u z) := by
  unfold Ev.loseZone
  split
  · refine enterFaulted (h.same ?_) u z _
    unfold Ev.haltKey
    split <;> rfl
  · exact h.enterFaulted u z _
  · exact h.enterFaulted u z _
  all_goals exact h

theorem loseModule (h : d.SameOrders e) (n : LineNo) (slot : Fin 9) : d.SameOrders (e.loseModule n slot) :=
  h.foldl (fun e z => (refl e).loseZone n z) _

theorem returnZone (h : d.SameOrders e) (u : UnitNo) (z : ZoneNo) : d.SameOrders (e.returnZone u z) := by
  unfold Ev.returnZone
  split
  · exact (h.enterPending u z _).updZone u z _
  · exact h

theorem returnMoving (h : d.SameOrders e) (u : UnitNo) : d.SameOrders (e.returnMoving u) := h.foldl (fun e z => (refl e).returnZone u z) _

theorem endSweepQuietly (h : d.SameOrders e) (n : LineNo) : d.SameOrders (e.endSweepQuietly n) := by
  unfold Ev.endSweepQuietly
  split
  · exact h.same rfl
  · exact h

end Ev.SameOrders

/-! ### The slot -/

/-- Once the unit follows it no more, no unit holds the slot of an order that alone stood in it. -/
theorem Ev.SameOrders.free (h : (s.landed host).SameOrders e) (ho : (s.unit u).tracked = some o) (hc : s.heldSlots.count o.slot = 1) :
    ∀ v, o.slot ∉ ((e.clearTracked u).unit v).slots := fun v => by
  have hmem : o.slot ∈ (s.unit u).slots := List.mem_append_left _ (by simp [ho])
  obtain ⟨hone, hothers⟩ := State.held_once hc hmem
  obtain ⟨h1, h2⟩ := h v
  have h1' : (e.unit v).tracked = (s.unit v).tracked := h1
  have h2' : (e.unit v).waiting = (s.unit v).waiting := h2
  rw [Ev.clearTracked, Ev.updUnit_unit]
  split
  · next huv =>
    subst huv
    intro hk
    simp only [UnitRec.slots, Option.map_none, Option.toList_none, List.nil_append] at hk
    rw [UnitRec.slots, ho, List.count_append] at hone
    rw [h2'] at hk
    have hpos := List.count_pos_iff.2 hk
    simp only [Option.map_some, Option.toList_some, List.count_singleton_self] at hone
    omega
  · next huv =>
    rw [UnitRec.slots, h1', h2']
    exact hothers v (Ne.symm huv)

/-- The order that an event ends shows how it has ended, and no unit holds its slot. -/
theorem Ev.SameOrders.endTracked (h : (s.landed host).SameOrders e) (hl : e.toState.Linked a) (ho : (s.unit u).tracked = some o)
    (hr : o.slot < a.ringLength) (hc : s.heldSlots.count o.slot = 1) (st : Status) (c : Cause) :
    (e.endTracked u st c).toState.Linked a ∧ (e.endTracked u st c).toState.SlotShows a o.slot st (o.finalDetail (e.unit u) c)
      ∧ ∀ v, o.slot ∉ ((e.endTracked u st c).unit v).slots := by
  have ho' : (e.unit u).tracked = some o := (h u).1.trans ho
  have hl' : (e.clearTracked u).toState.Linked a := ⟨hl.attached, hl.anchor, hl.inMemory, hl.disjoint, hl.wf⟩
  have hfree := h.free ho hc
  rw [Ev.endTracked_some ho']
  have hg : (e.clearTracked u).Goes (fun _ => True) (fun _ => True) ((e.clearTracked u).endSlot o st (o.finalDetail (e.unit u) c)) :=
    (Ev.Goes.refl fun _ _ _ => trivial).endSlot trivial st _
  refine ⟨hg.linked hl', Ev.endSlot_shows hl' hr st _, fun v => ?_⟩
  rw [(Ev.endSlot_ended _ o st _).unit]
  exact hfree v

/-- It still shows so at the end of the event, what lies between holding the slot no more either. -/
theorem Ev.ended_shows {k : Nat} (hl : d.toState.Linked a) (hk : k < a.ringLength) (hs : d.toState.SlotShows a k st x)
    (hg : d.Goes U (· ≠ k) e) : e.settle.toState.SlotShows a k st x :=
  Ev.settle_shows (hg.linked hl) hk (fun v hv => hg.slots v k hv rfl) (hg.shows hl hk (fun j => j rfl) hs)

theorem Ev.settle_untracked (h : (e.unit u).tracked = none) : (e.settle.unit u).tracked = none := by
  rcases e.settle_settled.tracked u with j | j
  · exact j.trans h
  · exact j

/-! ### LINE POWER -/

/-- A LINE POWER that has come about is DONE (R75, R77). -/
structure State.PowerEnded (s t : State) (n : LineNo) (on : Bool) : Prop where
  tracked : ∀ o, (s.unit n).tracked = some o → o.kind = .linePower on → (t.unit n).tracked = none
  shows : ∀ o, (s.unit n).tracked = some o → o.kind = .linePower on → ∀ a, s.Linked a → o.slot < a.ringLength → s.heldSlots.count o.slot = 1 →
    t.SlotShows a o.slot .done (Detail.only 0)

theorem Ev.SameOrders.endLinePower (h : (s.landed host).SameOrders e) (hg : (s.landed host).Goes U K e) {on : Bool} :
    s.PowerEnded ((e.endLinePower n on).oweLine n).settle.toState n on := by
  have heq : ∀ o, (s.unit n).tracked = some o → o.kind = .linePower on → e.endLinePower n on = e.endTracked n .done .none := fun o ho hk => by
    have ho' : (e.unit n).tracked = some o := (h n).1.trans ho
    unfold Ev.endLinePower
    rw [ho']
    exact if_pos hk
  refine ⟨fun o ho hk => Ev.settle_untracked ?_, fun o ho hk a hl hr hc => ?_⟩
  · rw [heq o ho hk]
    show ((e.endTracked n .done .none).unit n).tracked = none
    rw [(Ev.endTracked_clearing e n .done .none).unit, if_pos rfl]
  · rw [heq o ho hk]
    obtain ⟨h1, h2, h3⟩ := h.endTracked (hg.linked (hl.landed host)) ho hr hc .done .none
    have hdetail : o.finalDetail (e.unit n) .none = Detail.only 0 := by
      unfold OrderRecord.finalDetail
      rw [hk]
      rfl
    rw [hdetail] at h2
    refine Ev.ended_shows (U := fun _ => True) h1 hr h2 ((Ev.Goes.refl fun v k hk (j : k = o.slot) => h3 v (j ▸ hk)).oweLine n)

end Sys2Proof.Machine
end

