-- ==== Sys2Proof/Proofs/MissedSlots.lean ====
section
/-! PROOFS. A reply slot that is not VALID (R86, R90): the missed cycle, a module that goes MISSING with its zones or the fountain (R21, R22),
and the end of the cycle (R77, R80). -/

namespace Sys2Proof.Machine

open Decode

variable {U : UnitNo → Prop} {K : Nat → Prop} {d e f : Ev} {s t : State} {n m : LineNo} {u v : UnitNo} {z y : ZoneNo} {k : Cycle} {slot : Fin 9}
  {input : Reception} {o : SlotOutcome}

/-! ### The slot -/

/-- A module whose slot was not VALID (R86, R90). -/
def ModuleRec.missedOnce (m : ModuleRec) (o : SlotOutcome) : ModuleRec :=
  if m.state = .present then
    if 16 ≤ m.missed + 1 then { state := .missing, lastOutcome := o, missed := 16 } else { m with lastOutcome := o, missed := m.missed + 1 }
  else { m with lastOutcome := o }

/-- The event that has counted the miss. -/
def Ev.counts (e : Ev) (n : LineNo) (slot : Fin 9) (o : SlotOutcome) : Ev := e.updModule n slot fun m => m.missedOnce o

/-- The miss makes the module MISSING (R90). -/
def State.loses (s : State) (n : LineNo) (slot : Fin 9) : Prop :=
  ((s.line n).modules[slot]).state = .present ∧ 15 ≤ ((s.line n).modules[slot]).missed

/-- The event of a slot that is not VALID, before the cycle moves on. -/
def Ev.silent (e : Ev) (n : LineNo) (slot : Fin 9) (o : SlotOutcome) : Ev :=
  if ((e.line n).modules[slot]).state = .present ∧ 15 ≤ ((e.line n).modules[slot]).missed then (e.counts n slot o).moduleMissing n slot
  else e.counts n slot o

theorem Ev.updModule_congr {f g : ModuleRec → ModuleRec} (h : f ((e.line n).modules[slot]) = g ((e.line n).modules[slot])) :
    e.updModule n slot f = e.updModule n slot g := Ev.updLine_congr (by rw [h])

theorem Ev.slotMissed_eq (e : Ev) (n : LineNo) (slot : Fin 9) (o : SlotOutcome) :
    (e.updModule n slot fun m => { m with lastOutcome := o }).slotMissed n slot = e.silent n slot o := by
  have hmod : ((e.updModule n slot fun m => { m with lastOutcome := o }).line n).modules[slot]
      = { (e.line n).modules[slot] with lastOutcome := o } := by
    rw [Ev.updModule_line, if_pos rfl]
    simp
  unfold Ev.slotMissed Ev.silent Ev.counts
  rw [hmod]
  dsimp only
  by_cases hp : ((e.line n).modules[slot]).state = .present
  · rw [if_pos hp]
    by_cases hm : 16 ≤ ((e.line n).modules[slot]).missed + 1
    · rw [if_pos hm, if_pos ⟨hp, by omega⟩, Ev.updModule_twice]
      congr 1
      refine Ev.updModule_congr ?_
      rw [ModuleRec.missedOnce, if_pos hp, if_pos hm]
    · rw [if_neg hm, if_neg fun j => hm (by omega), Ev.updModule_twice]
      refine Ev.updModule_congr ?_
      rw [ModuleRec.missedOnce, if_pos hp, if_neg hm]
  · rw [if_neg hp, if_neg fun j => hp j.1]
    refine Ev.updModule_congr ?_
    rw [ModuleRec.missedOnce, if_neg hp]

theorem Ev.judge_missed (e : Ev) (n : LineNo) (h : judgeSlot k.slot input ≠ .valid) :
    e.judge n k input = (e.silent n k.slot (judgeSlot k.slot input)).advanceCycle n k := by
  rw [← Ev.slotMissed_eq]
  unfold Ev.judge
  dsimp only
  congr 1
  split
  · next hv => exact absurd hv h
  · rfl

/-! ### The zones of a module that goes MISSING -/

theorem Ev.OnlyFrames.haltKey (h : d.OnlyFrames u z e) : d.OnlyFrames u z (e.haltKey u z) := by
  unfold Ev.haltKey
  split
  · refine h.updQueue _ fun y hy => ?_
    rw [List.filter_filter]
    refine List.filter_congr fun f _ => ?_
    cases hf : f.forKey y with
    | false => simp
    | true => simp [MotionFrame.forKey_other hf (Ne.symm hy)]
  · exact h.updQueue _ fun _ _ => rfl

theorem Ev.loseZone_place (e : Ev) (u : UnitNo) (z : ZoneNo) : e.loseZone u z = match (e.zone u z).state with
    | .moving => (e.haltKey u z).enterFaulted u z .noFeedback
    | .pending | .rest => e.enterFaulted u z .noFeedback
    | .held | .faulted | .off => e := rfl

theorem treatsAlone_loseZone (u : UnitNo) : TreatsAlone u fun e z => e.loseZone u z where
  only e z := by
    rw [Ev.loseZone_place]
    split
    · exact ((Ev.OnlyZone.refl u z e).haltKey u z).enterFaulted _
    · exact (Ev.OnlyZone.refl u z e).enterFaulted _
    · exact (Ev.OnlyZone.refl u z e).enterFaulted _
    all_goals exact .refl u z e
  frames e z := by
    rw [Ev.loseZone_place]
    split
    · exact ((Ev.OnlyFrames.refl u z e).haltKey).enterFaulted _
    · exact (Ev.OnlyFrames.refl u z e).enterFaulted _
    · exact (Ev.OnlyFrames.refl u z e).enterFaulted _
    all_goals exact .refl u z e
  serves e z := ((Ev.Goes.refl (U := noUnit) (K := fun _ => True) fun _ _ _ => trivial).loseZone u z).serves
  lists e z h := Ev.keeps_pendingLawful.loseZone u z h

/-- A zone of a module that has gone MISSING: out of metering, or as it stood (R21). -/
def Zone.Lost (r r' : Zone) : Prop :=
  match r.state with
  | .rest | .pending | .moving => r'.state = .faulted ∧ r'.faultCause = some .noFeedback
  | .held | .faulted | .off => r' = r

theorem Ev.enterFaulted_self (h : (e.zone u z).state ≠ .faulted) (c : FaultCause) : ((e.enterFaulted u z c).zone u z).state = .faulted
    ∧ ((e.enterFaulted u z c).zone u z).faultCause = some c := by
  rw [Ev.enterFaulted_zone h, if_pos ⟨rfl, rfl⟩]
  exact ⟨rfl, rfl⟩

theorem Ev.loseZone_lost (e : Ev) (u : UnitNo) (z : ZoneNo) : (e.zone u z).Lost ((e.loseZone u z).zone u z) := by
  unfold Zone.Lost
  rw [Ev.loseZone_place]
  cases h : (e.zone u z).state <;> dsimp only
  case moving =>
    refine Ev.enterFaulted_self ?_ _
    rw [Ev.haltKey_zone, h]
    decide
  case pending => exact Ev.enterFaulted_self (by rw [h]; decide) _
  case rest => exact Ev.enterFaulted_self (by rw [h]; decide) _

theorem Ev.loseModule_lost (e : Ev) (n : LineNo) (h : moduleOf z = slot) : (e.zone n z).Lost ((e.loseModule n slot).zone n z) := by
  have hz : z ∈ zonesOfModule slot := List.mem_filter.2 ⟨List.mem_finRange _, by simpa using h⟩
  obtain ⟨e1, h1, _, _, h4⟩ := (treatsAlone_loseZone n).inside ((List.nodup_finRange _).filter _) e hz
  have hl := e1.loseZone_lost n z
  rw [h1.zone] at hl
  rw [show (e.loseModule n slot).zone n z = _ from h4.zone]
  exact hl

theorem Zone.Lost.notPending {r r' : Zone} (h : r.Lost r') : r'.state ≠ .pending := by
  unfold Zone.Lost at h
  cases hs : r.state <;> rw [hs] at h <;> dsimp only at h
  case held => rw [h, hs]; decide
  case faulted => rw [h, hs]; decide
  case off => rw [h, hs]; decide
  all_goals
    rw [h.1]
    decide

/-! ### What the slot leaves -/

theorem Ev.counts_module (e : Ev) (n : LineNo) (slot : Fin 9) (o : SlotOutcome) :
    ((e.counts n slot o).line n).modules[slot] = ((e.line n).modules[slot]).missedOnce o := by
  rw [Ev.counts, Ev.updModule_line, if_pos rfl]
  simp

/-- A module going MISSING leaves its line's standing, the aims of the zones, and the lists in agreement. -/
structure Ev.Passes (n : LineNo) (d e : Ev) : Prop where
  modules : (e.line n).modules = (d.line n).modules
  power : (e.line n).power = (d.line n).power
  aims : ∀ v y, (d.zone v y).SameAims (e.zone v y)
  lists : d.toState.pendingLawful → e.toState.pendingLawful

theorem Ev.Passes.refl (n : LineNo) (e : Ev) : e.Passes n e := ⟨rfl, rfl, fun _ _ => .refl _, id⟩

theorem Ev.Passes.trans (h : d.Passes n e) (k : e.Passes n f) : d.Passes n f :=
  ⟨k.modules.trans h.modules, k.power.trans h.power, fun v y => (h.aims v y).trans (k.aims v y), k.lists ∘ h.lists⟩

theorem Ev.loseFountain_passes (e : Ev) (n : LineNo) : e.Passes n (e.loseFountain n) ∧ ((e.loseFountain n).unit n).sweepFault = true := by
  have hlists : e.toState.pendingLawful → (e.loseFountain n).toState.pendingLawful := fun h =>
    Ev.keeps_pendingLawful.quiet (e := e) h (.loseFountain (.refl e) n)
  unfold Ev.loseFountain at hlists ⊢
  split at hlists
  · next hm =>
    have hE := e.endSweepFault_ends n
    rw [if_pos hm]
    refine ⟨⟨?_, ?_, fun v y => by rw [hE.zone]; exact .refl _, hlists⟩, ?_⟩
    · rw [hE.line, if_pos rfl]; rfl
    · rw [hE.line, if_pos rfl]; rfl
    · rw [hE.unit, if_pos rfl]; rfl
  · next hm =>
    obtain ⟨h1, _, _⟩ := e.setSweepFault_lines n true
    have hl : (e.setSweepFault n true).line n = e.line n := congrArg (fun ls : Vector Line 16 => ls[n]) h1
    have hP := (Ev.Pursuing.refl e).setSweepFault n true
    rw [if_neg hm]
    refine ⟨⟨by rw [hl], by rw [hl], fun v y => by rw [hP.zone]; exact .refl _, hlists⟩, ?_⟩
    rw [Ev.setSweepFault_unit, if_pos rfl]

theorem Ev.loseModule_passes (e : Ev) (n : LineNo) (slot : Fin 9) : e.Passes n (e.loseModule n slot) := by
  have hg : e.Goes noUnit (fun _ => True) (e.loseModule n slot) := (Ev.Goes.refl fun _ _ _ => trivial).loseModule n slot
  have hs := hg.serves.service n
  exact ⟨hs.modules, hs.power, fun v => (hg.others v not_false).aims, fun h => Ev.keeps_pendingLawful.loseModule n slot (e := e) h⟩

/-- What a slot that is not VALID leaves, before the cycle moves on. -/
structure Ev.Silenced (n : LineNo) (slot : Fin 9) (o : SlotOutcome) (d e : Ev) : Prop where
  module : (e.line n).modules[slot] = ((d.line n).modules[slot]).missedOnce o
  power : (e.line n).power = (d.line n).power
  aims : ∀ v y, (d.zone v y).SameAims (e.zone v y)
  lists : d.toState.pendingLawful → e.toState.pendingLawful
  orders : slot ≠ 0 → d.SameOrders e
  missing : d.loses n slot → e.noticePending .lineEvent = true ∧ (slot = 0 → (e.unit n).sweepFault = true)
    ∧ ∀ z, slot ≠ 0 → moduleOf z = slot → (d.zone n z).Lost (e.zone n z)

theorem Ev.silent_silenced (e : Ev) (n : LineNo) (slot : Fin 9) (o : SlotOutcome) : e.Silenced n slot o (e.silent n slot o) := by
  have hpower : ((e.counts n slot o).line n).power = (e.line n).power := by rw [Ev.counts, Ev.updModule_line, if_pos rfl]
  have hlists : e.toState.pendingLawful → (e.counts n slot o).toState.pendingLawful := fun h =>
    Ev.keeps_pendingLawful.quiet (e := e) h (.updModule (.refl e) n slot _)
  have hmod := e.counts_module n slot o
  have horders : e.SameOrders (e.counts n slot o) := .of_units rfl
  unfold Ev.silent
  by_cases h : ((e.line n).modules[slot]).state = .present ∧ 15 ≤ ((e.line n).modules[slot]).missed
  · rw [if_pos h]
    have hnotice : ((e.counts n slot o).moduleMissing n slot).noticePending .lineEvent = true := by
      show (Ev.raise _ .lineEvent).noticePending .lineEvent = true
      rw [Ev.noticePending_raise]
      exact Bool.or_true _
    by_cases h0 : slot = 0
    · obtain ⟨hp, hf⟩ := (e.counts n slot o).loseFountain_passes n
      have heq : (e.counts n slot o).moduleMissing n slot = (((e.counts n slot o).loseFountain n).raise .lineEvent).oweLine n := by
        rw [Ev.moduleMissing, if_pos h0]
      rw [heq] at hnotice ⊢
      refine ⟨?_, hp.power.trans hpower, hp.aims, fun k => hp.lists (hlists k), fun k => absurd h0 k, fun _ => ⟨hnotice, fun _ => hf,
        fun z k => absurd h0 k⟩⟩
      rw [← hmod]
      exact congrArg (fun ms : Vector ModuleRec 9 => ms[slot]) hp.modules
    · have hp := (e.counts n slot o).loseModule_passes n slot
      have heq : (e.counts n slot o).moduleMissing n slot = (((e.counts n slot o).loseModule n slot).raise .lineEvent).oweLine n := by
        rw [Ev.moduleMissing, if_neg h0]
      rw [heq] at hnotice ⊢
      refine ⟨?_, hp.power.trans hpower, hp.aims, fun k => hp.lists (hlists k), fun _ => ?_, fun _ => ⟨hnotice, fun k => absurd k h0,
        fun z _ hz => (e.counts n slot o).loseModule_lost n hz⟩⟩
      · rw [← hmod]
        exact congrArg (fun ms : Vector ModuleRec 9 => ms[slot]) hp.modules
      · exact ((horders.loseModule n slot).raise _).same rfl
  · rw [if_neg h]
    exact ⟨hmod, hpower, fun _ _ => .refl _, hlists, fun _ => horders, fun k => absurd k h⟩

theorem Ev.Goes.silent (h : d.Goes U K e) (hn : U n) (slot : Fin 9) (o : SlotOutcome) : d.Goes U K (e.silent n slot o) := by
  unfold Ev.silent
  have hc : d.Goes U K (e.counts n slot o) := h.updModule hn slot _
  split
  · exact hc.moduleMissing hn slot
  · exact hc

/-! ### A line that is not in service -/

theorem Ev.changeState_other (e : Ev) (z : ZoneNo) (new : ZoneState) (h : m ≠ n) : (e.changeState n z new).line m = e.line m := by
  by_cases hs : (e.zone n z).state = new
  · rw [Ev.changeState_of_same hs]
  · rw [Ev.changeState_line hs, if_neg (Ne.symm h)]

theorem Ev.grant_other (e : Ev) (h : m ≠ n) : (e.grant n).line m = e.line m := by
  cases hl : (e.line n).pendingList with
  | nil =>
    have hg : e.grant n = e := by unfold Ev.grant; rw [hl]
    rw [hg]
  | cons p l =>
    have hc : (e.counted n p.zone).line m = e.line m :=
      (Ev.updLine_other (e.changeState n p.zone .moving) (fun l => { l with grants := l.grants + 1 }) h).trans (Ev.changeState_other e p.zone .moving h)
    have hsend (f : Ev) (x k : Nat) : (f.sendMove n p.zone x k).line m = f.line m := by
      show ((f.tagTaken n (f.nextKeyTag n p.zone)).queueKeyFrame n p.zone (.move p.zone x (f.nextKeyTag n p.zone))).line m = f.line m
      unfold Ev.queueKeyFrame Ev.updQueue Ev.tagTaken
      rw [Ev.updLine_other _ _ h, Ev.updLine_other _ _ h]
    have hzero (f : Ev) : (f.sendZero n p.zone).line m = f.line m := by
      show ((f.tagTaken n (f.nextKeyTag n p.zone)).queueKeyFrame n p.zone (.zero p.zone (f.nextKeyTag n p.zone))).line m = f.line m
      unfold Ev.queueKeyFrame Ev.updQueue Ev.tagTaken
      rw [Ev.updLine_other _ _ h, Ev.updLine_other _ _ h]
    rw [Ev.grant_eq hl]
    cases p.kind with
    | position => exact (hsend _ _ _).trans hc
    | zero => exact (hzero _).trans hc

theorem Ev.grantRounds_line_of_not_inService (k : Nat) (h : (e.line m).inService = false) : (Ev.grantRounds k e).line m = e.line m := by
  induction k generalizing e with
  | zero => rfl
  | succ k ih =>
    unfold Ev.grantRounds
    split
    · next n hn =>
      have hne : m ≠ n := by
        rintro rfl
        have hserve := State.eligible_inService (List.find?_some hn)
        rw [h] at hserve
        cases hserve
      have hsame := e.grant_other hne
      exact (ih (by rw [hsame]; exact h)).trans hsame
    · rfl

/-- The arbiter leaves a line that is not in service. -/
theorem Ev.settle_line_of_not_inService (e : Ev) (h : (e.line m).inService = false) : e.settle.line m = e.line m := by
  have hend : e.settleArbiter.EndsOnly e.settle := (Ev.EndsOnly.refl _).runTests.flush
  refine (congrArg (fun ls : Vector Line 16 => ls[m]) hend.lines).trans ?_
  show e.settleArbiter.line m = e.line m
  unfold Ev.settleArbiter
  split
  · exact Ev.grantRounds_line_of_not_inService e.waitingZones h
  · rfl

/-! ### The cycle moves on -/

theorem Ev.endLinePower_lines (e : Ev) (n : LineNo) (on : Bool) : (e.endLinePower n on).lines = e.lines := by
  unfold Ev.endLinePower
  split
  · split
    · exact (Ev.endTracked_clearing e n .done .none).machine.lines
    · rfl
  · rfl

theorem Ev.endLinePower_unit (e : Ev) (n : LineNo) (on : Bool) (v : UnitNo) :
    (e.endLinePower n on).unit v = e.unit v ∨ (e.endLinePower n on).unit v = { e.unit v with tracked := none } := by
  unfold Ev.endLinePower
  split
  · split
    · rw [(Ev.endTracked_clearing e n .done .none).unit]
      split
      · exact .inr rfl
      · exact .inl rfl
    · exact .inl rfl
  · exact .inl rfl

/-- A line after its last cycle (R77). -/
def Line.lastEnded (l : Line) : Line :=
  { l with power := .off, stopTaken := false, queue := CommandQueue.empty, cycle := none
           modules := Vector.ofFn fun a : Fin 9 => { l.modules[a] with lastOutcome := .lineNotOn } }

/-- The cycle of a line has moved on from its slot. -/
def Line.advanced (l : Line) (k : Cycle) : Line :=
  if h : k.slot.val < 8 then { l with cycle := some { k with slot := ⟨k.slot.val + 1, by omega⟩ } }
  else if k.last then l.lastEnded else { l with cycle := none }

theorem Ev.lastCycleEnd_eq (e : Ev) (n : LineNo) : e.lastCycleEnd n = ((e.updLine n Line.lastEnded).endLinePower n false).oweLine n := by
  unfold Ev.lastCycleEnd
  dsimp only
  rw [Ev.updModules, Ev.updLine_twice]
  rfl

theorem Ev.advanceCycle_line (e : Ev) (n : LineNo) (k : Cycle) : (e.advanceCycle n k).line n = (e.line n).advanced k := by
  unfold Ev.advanceCycle Line.advanced
  split
  · rw [Ev.updLine_line_self]
  · split
    · rw [Ev.lastCycleEnd_eq]
      refine (congrArg (fun ls : Vector Line 16 => ls[n]) (Ev.endLinePower_lines (e.updLine n Line.lastEnded) n false)).trans ?_
      exact Ev.updLine_line_self _ _ _
    · rw [Ev.updLine_line_self]

theorem Ev.advanceCycle_unit (e : Ev) (n : LineNo) (k : Cycle) (v : UnitNo) :
    (e.advanceCycle n k).unit v = e.unit v ∨ (e.advanceCycle n k).unit v = { e.unit v with tracked := none } := by
  unfold Ev.advanceCycle
  split
  · exact .inl rfl
  · split
    · rw [Ev.lastCycleEnd_eq]
      exact Ev.endLinePower_unit (e.updLine n Line.lastEnded) n false v
    · exact .inl rfl

theorem Ev.advanceCycle_zone (e : Ev) (n : LineNo) (k : Cycle) (v : UnitNo) (y : ZoneNo) : (e.advanceCycle n k).zone v y = e.zone v y := by
  show ((e.advanceCycle n k).unit v).zones[y] = (e.unit v).zones[y]
  rcases e.advanceCycle_unit n k v with h | h <;> rw [h]

/-! ### The slots of a cycle -/

theorem judgeSlot_reply (slot : Fin 9) (w : Word) (late : Bool) : judgeSlot slot (.reply w late)
    = if (replyOfWord w).address ≠ slot.val then .wrongModule
      else if replyCheckAgrees w = false ∨ (slot = 0 ∧ (replyOfWord w).key ≠ 0)
          ∨ (slot ≠ 0 ∧ ¬(1 ≤ (replyOfWord w).key ∧ (replyOfWord w).key ≤ 8)) ∨ 1000 < (replyOfWord w).position
          ∨ (replyOfWord w).motion = none then .checkError
      else if late then .late else .valid := by
  have hbad : (!replyCheckAgrees w || replyMalformed slot (replyOfWord w)) = true ↔ (replyCheckAgrees w = false
      ∨ (slot = 0 ∧ (replyOfWord w).key ≠ 0) ∨ (slot ≠ 0 ∧ ¬(1 ≤ (replyOfWord w).key ∧ (replyOfWord w).key ≤ 8))
      ∨ 1000 < (replyOfWord w).position ∨ (replyOfWord w).motion = none) := by
    unfold replyMalformed
    by_cases h0 : slot = 0
    · simp [h0, or_assoc]
    · simp [h0, within, or_assoc, imp_iff_not_or]
  unfold judgeSlot
  dsimp only
  simp only [hbad]

theorem ModuleRec.missedOnce_lost {r : ModuleRec} (h : r.state = .present) (hm : 15 ≤ r.missed) :
    r.missedOnce o = { state := .missing, lastOutcome := o, missed := 16 } := by
  rw [ModuleRec.missedOnce, if_pos h, if_pos (by omega)]

theorem ModuleRec.missedOnce_present {r : ModuleRec} (h : r.state = .present) (hm : r.missed < 15) :
    r.missedOnce o = { r with lastOutcome := o, missed := r.missed + 1 } := by
  rw [ModuleRec.missedOnce, if_pos h, if_neg (by omega)]

theorem ModuleRec.missedOnce_other {r : ModuleRec} (h : r.state ≠ .present) : r.missedOnce o = { r with lastOutcome := o } := if_neg h

theorem ModuleRec.missedOnce_outcome (r : ModuleRec) (o : SlotOutcome) : (r.missedOnce o).lastOutcome = o := by
  unfold ModuleRec.missedOnce
  split
  · split <;> rfl
  · rfl

/-- The module of the slot keeps its standing and its count as the cycle moves on. -/
theorem Line.advanced_module (l : Line) (k : Cycle) (slot : Fin 9) : ((l.advanced k).modules[slot]).state = (l.modules[slot]).state
    ∧ ((l.advanced k).modules[slot]).missed = (l.modules[slot]).missed := by
  unfold Line.advanced
  split
  · exact ⟨rfl, rfl⟩
  · split
    · simp [Line.lastEnded]
    · exact ⟨rfl, rfl⟩

/-- Settles O36: the miss is counted, a module that goes MISSING takes its zones or the fountain with it, and the cycle moves on. -/
theorem silentSlotCountsAMissedCycle : Obligations.SilentSlotCountsAMissedCycle := by
  intro s n k input h hl hk hv m
  refine ⟨_, exec_replySlot h hk input, ?_⟩
  have hout : s.SameOutside ((s.landed []).judge n k input).settle.toState :=
    Ev.has_settle (stable_sameOutside s) (Ev.has_judge (stable_sameOutside s) (e := s.landed []) ⟨rfl, rfl, rfl, rfl, rfl, rfl⟩ n _ _)
  rw [Ev.judge_missed _ _ hv] at hout ⊢
  generalize judgeSlot k.slot input = o at hout ⊢
  have hS := (s.landed []).silent_silenced n k.slot o
  have hG := (s.landed_goes [] (· = n)).silent rfl k.slot o
  have hGA := hG.advanceCycle rfl k
  have hlist : ((((s.landed []).silent n k.slot o).advanceCycle n k)).toState.pendingLawful :=
    Keeps.advanceCycle Ev.keeps_pendingLawful.toCalm tableLaw_pending.law.power n k (e := (s.landed []).silent n k.slot o) (hS.lists hl)
  have hline := (s.landed []).silent n k.slot o |>.advanceCycle_line n k
  have hpow : k.slot = 8 → k.last = true → s.PowerEnded (((s.landed []).silent n k.slot o).advanceCycle n k).settle.toState n false := fun h8 hlast => by
    have horders : (s.landed []).SameOrders (((s.landed []).silent n k.slot o).updLine n Line.lastEnded) := (hS.orders (by rw [h8]; decide)).same rfl
    have heq : ((s.landed []).silent n k.slot o).advanceCycle n k
        = ((((s.landed []).silent n k.slot o).updLine n Line.lastEnded).endLinePower n false).oweLine n := by
      rw [← Ev.lastCycleEnd_eq, Ev.advanceCycle, dif_neg (by rw [h8]; decide), if_pos hlast]
    rw [heq]
    exact horders.endLinePower (hG.updLine n Line.lastEnded fun j => absurd rfl j)
  have hzone := ((s.landed []).silent n k.slot o).advanceCycle_zone n k
  have hunit := ((s.landed []).silent n k.slot o).advanceCycle_unit n k
  have hnotice : ((s.landed []).silent n k.slot o).noticePending .lineEvent = true →
      (((s.landed []).silent n k.slot o).advanceCycle n k).settle.noticePending .lineEvent = true := fun j =>
    Ev.settle_notice _ _ (noticePending_of_and rfl (hG.here.advanceCycle rfl k).notices _ j)
  generalize (s.landed []).silent n k.slot o = e at *
  generalize e.advanceCycle n k = g at *
  have hs := g.settle_settled
  have hl' : (g.line n).SameService (g.settle.line n) := hs.line n
  have hmod : ((g.settle.line n).modules[k.slot]).state = (m.missedOnce o).state ∧ ((g.settle.line n).modules[k.slot]).missed = (m.missedOnce o).missed := by
    obtain ⟨j1, j2⟩ := Line.advanced_module (e.line n) k k.slot
    rw [hl'.modules, hline, j1, j2, hS.module]
    exact ⟨rfl, rfl⟩
  have hstays : ∀ z, (e.zone n z).state ≠ .pending → g.settle.zone n z = e.zone n z := fun z hz =>
    ((Ev.settle_arbitrated hlist n z).zone (by rw [hzone]; exact hz)).trans (hzone n z)
  refine ⟨rfl, judgeSlot_reply k.slot, fun hp => ?_, fun hp hm => ?_, fun hp hm => ?_, fun h8 => ?_, fun h8 => ?_, hGA.settled.mirrors, fun v z => ?_, hout⟩
  · rw [ModuleRec.missedOnce_other hp] at hmod
    exact hmod
  · rw [ModuleRec.missedOnce_present hp hm] at hmod
    exact ⟨hmod.1.trans hp, hmod.2⟩
  · rw [ModuleRec.missedOnce_lost hp hm] at hmod
    obtain ⟨k1, k2, k3⟩ := hS.missing ⟨hp, hm⟩
    refine ⟨hmod.1, hmod.2, hnotice k1, fun h0 => ?_, fun z h0 hz => ?_⟩
    · rw [hs.sweepFault n]
      rcases hunit n with j | j <;> rw [j]
      · exact k2 h0
      · exact k2 h0
    · have hlost := k3 z h0 hz
      have hsame := hstays z hlost.notPending
      unfold Zone.Lost at hlost
      rw [hsame]
      have hst : ((s.landed []).zone n z).state = (s.zone n z).state := rfl
      rw [hst] at hlost
      cases hz' : (s.zone n z).state <;> rw [hz'] at hlost <;> dsimp only at hlost ⊢
      case held => exact (congrArg Zone.state hlost).trans hz'
      case faulted => exact ⟨(congrArg Zone.state hlost).trans hz', congrArg Zone.faultCause hlost⟩
      case off => exact (congrArg Zone.state hlost).trans hz'
      all_goals exact hlost
  · have hadv : (e.line n).advanced k = { e.line n with cycle := some { k with slot := ⟨k.slot.val + 1, by omega⟩ } } := dif_pos h8
    rw [hl'.cycle, hl'.modules, hl'.power, hline, hadv]
    refine ⟨rfl, ?_, hS.power⟩
    rw [hS.module, ModuleRec.missedOnce_outcome]
  · have hge : ¬k.slot.val < 8 := by rw [h8]; decide
    have hadv : (e.line n).advanced k = if k.last then (e.line n).lastEnded else { e.line n with cycle := none } := dif_neg hge
    refine ⟨?_, fun hlast => ?_, fun hlast => ?_⟩
    · rw [hl'.cycle, hline, hadv]
      split <;> rfl
    · rw [hl'.modules, hl'.power, hline, hadv, hlast]
      refine ⟨?_, hS.power⟩
      have hm : (e.line n).modules[k.slot].lastOutcome = o := by rw [hS.module, ModuleRec.missedOnce_outcome]
      exact hm
    · have hadv' : g.line n = (e.line n).lastEnded := by rw [hline, hadv, hlast]; rfl
      obtain ⟨p1, p2⟩ := hpow h8 hlast
      have hoff : (g.line n).inService = false := by rw [hadv']; rfl
      rw [hl'.power, hl'.stopTaken, hl'.modules, g.settle_line_of_not_inService hoff, hadv']
      exact ⟨rfl, rfl, rfl, fun b => by simp [Line.lastEnded], fun p hp hk => ⟨p1 p hp hk, p2 p hp hk⟩⟩
  · have hz := hs.zone v z
    rw [hzone] at hz
    exact (hS.aims v z).trans hz

end Sys2Proof.Machine
end

