-- ==== Sys2Proof/Proofs/KeyReplies.lean ====
section
/-! PROOFS. A VALID reply of a key (R58 to R62, R65, R87): what it makes of the move that it matches. -/

namespace Sys2Proof.Machine

open Decode

variable {U : UnitNo → Prop} {K : Nat → Prop} {d e f : Ev} {s t r : State} {n m : LineNo} {u v : UnitNo} {z y : ZoneNo} {k : Cycle} {slot : Fin 9}
  {w : Word} {q : Motion} {g : Tag} {x p : Nat} {c : UnitConfig} {rep : Reply}

/-! ### The move that a reply matches -/

/-- A reply that matches no move, or reports it under way, leaves it (R58). -/
theorem Ev.keyReply_passed (h : e.replyMatches u z g = false ∨ q = .moving) : e.keyReply u z p q g = e := by
  unfold Ev.keyReply
  rcases h with h | rfl
  · rw [h]
    rfl
  · split <;> rfl

theorem Ev.keyReply_blocked (h : e.replyMatches u z g = true) : e.keyReply u z p .blocked g = e.enterFaulted u z .blocked := if_pos h

theorem Ev.keyReply_zero (h : e.replyMatches u z g = true) (hk : (e.zone u z).moveKind = some .zero) :
    e.keyReply u z p .atRest g = if p = 0 then (e.setSettle u z).place u z else e.enterFaulted u z .missed := (if_pos h).trans (if_pos hk)

theorem Ev.keyReply_position (h : e.replyMatches u z g = true) (hk : (e.zone u z).moveKind = some .position)
    (hx : (e.zone u z).commanded = some x) (hc : (e.unit u).config = some c) : e.keyReply u z p .atRest g
      = if distance p x ≤ c.tolerance then (e.setSettle u z).changeState u z .rest
        else if (e.zone u z).attempts < 2 then e.sendMove u z x ((e.zone u z).attempts + 1) else e.enterFaulted u z .missed := by
  have htol : (e.unit u).tolerance = c.tolerance := by rw [UnitRec.tolerance, hc]; rfl
  refine (if_pos h).trans ((if_neg (by rw [hk]; decide)).trans ?_)
  unfold Ev.positionAtRest
  dsimp only
  rw [hx, htol]
  rfl

/-- The outcomes of a reply (R58 to R65). -/
theorem Ev.keyReply_cases (e : Ev) (u : UnitNo) (z : ZoneNo) (p : Nat) (q : Motion) (g : Tag) : e.keyReply u z p q g = e
    ∨ (∃ c, e.keyReply u z p q g = e.enterFaulted u z c) ∨ (p = 0 ∧ e.keyReply u z p q g = (e.setSettle u z).place u z)
    ∨ e.keyReply u z p q g = (e.setSettle u z).changeState u z .rest ∨ ∃ x k, e.keyReply u z p q g = e.sendMove u z x k := by
  unfold Ev.keyReply
  split
  · split
    · exact .inl rfl
    · exact .inr (.inl ⟨_, rfl⟩)
    · split
      · unfold Ev.zeroAtRest
        split
        · next h => exact .inr (.inr (.inl ⟨h, rfl⟩))
        · exact .inr (.inl ⟨_, rfl⟩)
      · unfold Ev.positionAtRest
        dsimp only
        split
        · exact .inr (.inr (.inr (.inl rfl)))
        · split
          · exact .inr (.inr (.inr (.inr ⟨_, _, rfl⟩)))
          · exact .inr (.inl ⟨_, rfl⟩)
  · exact .inl rfl

theorem Ev.keyReply_only (e : Ev) (u : UnitNo) (z : ZoneNo) (p : Nat) (q : Motion) (g : Tag) : e.OnlyZone u z (e.keyReply u z p q g) := by
  rcases e.keyReply_cases u z p q g with h | ⟨c, h⟩ | ⟨_, h⟩ | h | ⟨x, k, h⟩ <;> rw [h]
  · exact .refl u z e
  · exact (Ev.OnlyZone.refl u z e).enterFaulted c
  · exact ((Ev.OnlyZone.refl u z e).updZone _).place
  · exact ((Ev.OnlyZone.refl u z e).updZone _).changeState .rest
  · exact (Ev.OnlyZone.refl u z e).sendMove x k

theorem Ev.keyReply_serves (e : Ev) (u : UnitNo) (z : ZoneNo) (p : Nat) (q : Motion) (g : Tag) : e.Serves (e.keyReply u z p q g) := by
  have hgoes : ∀ f : Ev, f.Goes noUnit (fun _ => True) f := fun f => .refl fun _ _ _ => trivial
  have hset : e.Serves (e.setSettle u z) := (Ev.Serves.refl e).updZone u z fun r => { r with settleSheet := some (e.arrivalSettle u) }
  rcases e.keyReply_cases u z p q g with h | ⟨c, h⟩ | ⟨_, h⟩ | h | ⟨x, k, h⟩ <;> rw [h]
  · exact .refl e
  · exact ((hgoes e).enterFaulted u z c).serves
  · exact hset.trans ((hgoes (e.setSettle u z)).place u z).serves
  · exact hset.trans ((hgoes (e.setSettle u z)).changeState u z .rest).serves
  · exact ((hgoes e).sendMove u z x k).serves

/-! ### The event of a reply -/

/-- The event that has heard a key's reply, with the position that it reports (R5). -/
def Ev.keyHeard (e : Ev) (n : LineNo) (slot : Fin 9) (r : Reply) (z : ZoneNo) : Ev :=
  (e.heard n slot r).updZone n z fun q => { q with position := some r.position }

theorem zoneOfReply_slot (h : zoneOfReply slot x = some z) : slot ≠ 0 := by
  rintro rfl
  cases h

theorem zoneOfReply_module (h : zoneOfReply slot x = some z) (hx : 1 ≤ x ∧ x ≤ 8) : moduleOf z = slot := by
  have h0 := zoneOfReply_slot h
  have hpos : slot.val ≠ 0 := fun j => h0 (Fin.ext j)
  unfold zoneOfReply at h
  rw [if_neg h0] at h
  unfold zoneOfNumber at h
  split at h
  · simp only [Option.some.injEq] at h
    subst h
    refine Fin.ext ?_
    show (8 * (slot.val - 1) + x - 1) / 8 + 1 = slot.val
    omega
  · cases h

theorem judgeSlot_key (h : judgeSlot slot (.reply w false) = .valid) (h0 : slot ≠ 0) : 1 ≤ (replyOfWord w).key ∧ (replyOfWord w).key ≤ 8 := by
  rw [judgeSlot_reply] at h
  split at h
  · cases h
  · split at h
    · cases h
    · next hm =>
      by_contra hk
      exact hm (.inr (.inr (.inl ⟨h0, hk⟩)))

theorem Ev.handOn_key (hq : rep.motion = some q) (hz : zoneOfReply slot rep.key = some z) (hd : z.val < (e.unit n).zoneCount) :
    e.handOn n slot rep = (e.updZone n z fun q => { q with position := some rep.position }).keyReply n z rep.position q rep.tag := by
  unfold Ev.handOn
  rw [hq]
  dsimp only
  rw [if_neg (zoneOfReply_slot hz)]
  unfold Ev.handOnKey
  rw [hz]
  exact if_pos hd

/-- A key module that was MISSING has returned (R91). -/
def Ev.keyReturned (e : Ev) (n : LineNo) : Ev := (e.raise .lineEvent).oweLine n

theorem Ev.answered_key (hq : rep.motion = some q) (hz : zoneOfReply slot rep.key = some z) (hd : z.val < (e.unit n).zoneCount) :
    e.answered n slot rep = if ((e.line n).modules[slot]).state = .missing
      then ((e.keyHeard n slot rep z).keyReply n z rep.position q rep.tag).keyReturned n
      else (e.keyHeard n slot rep z).keyReply n z rep.position q rep.tag := by
  have hK := Ev.handOn_key (e := e.heard n slot rep) hq hz hd
  unfold Ev.answered
  rw [hK]
  split
  · unfold Ev.returned
    dsimp only
    rw [if_neg (zoneOfReply_slot hz)]
    rfl
  · rfl

theorem Ev.advanceCycle_due (e : Ev) (n : LineNo) (k : Cycle) : (e.advanceCycle n k).arbiterDue = e.arbiterDue := by
  unfold Ev.advanceCycle
  split
  · rfl
  · split
    · rw [Ev.lastCycleEnd_eq]
      exact (Ev.Quiet.endLinePower (.refl (e.updLine n Line.lastEnded)) n false).arbiterDue
    · rfl

/-- An event that goes on from another with the same machine: what a returned module's event leaves of a reply's. -/
structure Ev.GoesOnAs (d e : Ev) : Prop where
  units : e.units = d.units
  lines : e.lines = d.lines
  due : e.arbiterDue = d.arbiterDue
  notice : ∀ c, d.noticePending c = true → e.noticePending c = true

/-- What a reply's event leaves once its slot has closed. -/
structure Ev.Closes (n : LineNo) (k : Cycle) (z : ZoneNo) (d : Ev) (t : State) : Prop where
  still : d.arbiterDue = false → t.zone n z = d.zone n z ∧ t.line n = (d.line n).advanced k
  arbitrated : d.toState.ArbitratedAt t n z
  service : ((d.line n).advanced k).SameService (t.line n)
  aims : ∀ v y, (d.zone v y).SameAims (t.zone v y)
  notice : ∀ c, d.noticePending c = true → t.noticePending c = true

theorem Line.advanced_pendingList (l : Line) (k : Cycle) : (l.advanced k).pendingList = l.pendingList := by
  unfold Line.advanced
  split
  · rfl
  · split <;> rfl

theorem Line.advanced_keyTags (l : Line) (k : Cycle) : (l.advanced k).keyTags = l.keyTags := by
  unfold Line.advanced
  split
  · rfl
  · split <;> rfl

theorem Ev.GoesOnAs.closes (h : d.GoesOnAs e) (hl : d.toState.pendingLawful) (k : Cycle) :
    d.Closes n k z (e.advanceCycle n k).settle.toState := by
  have hzone (v : UnitNo) (y : ZoneNo) : (e.advanceCycle n k).zone v y = d.zone v y :=
    (e.advanceCycle_zone n k v y).trans (congrArg (fun us : Vector UnitRec 16 => (us[v]).zones[y]) h.units)
  have hed : e.line n = d.line n := congrArg (fun ls : Vector Line 16 => ls[n]) h.lines
  have hline : (e.advanceCycle n k).line n = (d.line n).advanced k := by rw [Ev.advanceCycle_line, hed]
  have hle : e.toState.pendingLawful := hl.of_same (fun v y => congrArg (fun us : Vector UnitRec 16 => ((us[v]).zones[y]).state) h.units)
    fun m => congrArg (fun ls : Vector Line 16 => (ls[m]).pendingList) h.lines
  have hla := Keeps.advanceCycle Ev.keeps_pendingLawful.toCalm tableLaw_pending.law.power n k (e := e) hle
  have hdue : (e.advanceCycle n k).arbiterDue = d.arbiterDue := (e.advanceCycle_due n k).trans h.due
  have hnotice : ∀ c, d.noticePending c = true → (e.advanceCycle n k).noticePending c = true := fun c hc =>
    noticePending_of_and rfl ((Ev.Goes.refl (U := (· = n)) (K := fun _ => True) (fun _ _ _ => trivial) : e.Goes _ _ e).here.advanceCycle rfl k).notices c
      (h.notice c hc)
  generalize e.advanceCycle n k = f at *
  have hs := f.settle_settled
  refine ⟨fun hd => ?_, ?_, ?_, fun v y => ?_, fun c hc => f.settle_notice c (hnotice c hc)⟩
  · have hE := Ev.settle_endsStill (hdue.trans hd)
    exact ⟨(hE.zone n z).trans (hzone n z), (congrArg (fun ls : Vector Line 16 => ls[n]) hE.lines).trans hline⟩
  · refine (State.ArbitratedAt.of_same (hzone n z) ?_).trans (Ev.settle_arbitrated hla n z)
    rw [hline, Line.advanced_pendingList]
  · rw [← hline]
    exact hs.line n
  · rw [← hzone]
    exact hs.zone v y

/-! ### The ends of a move -/

theorem Ev.Closes.faulted {c : FaultCause} (h : (e.enterFaulted n z c).Closes n k z t) (hm : (e.zone n z).state = .moving) :
    t.zone n z = { (e.zone n z).entering .faulted with faultCause := some c } ∧ t.noticePending .zoneFault = true := by
  have hz : (e.enterFaulted n z c).zone n z = { (e.zone n z).entering .faulted with faultCause := some c } :=
    (Ev.enterFaulted_zone (by rw [hm]; decide) n z).trans (if_pos ⟨rfl, rfl⟩)
  refine ⟨(h.arbitrated.zone ?_).trans hz, h.notice _ ?_⟩
  · rw [hz]
    exact ZoneState.noConfusion
  · unfold Ev.enterFaulted
    rw [Ev.noticePending_raise]
    exact Bool.or_true _

theorem Ev.setSettle_zone (e : Ev) (u : UnitNo) (z : ZoneNo) :
    (e.setSettle u z).zone u z = { e.zone u z with settleSheet := some (e.arrivalSettle u) } := Ev.updZone_zone_self _ _ _ _

theorem Ev.Closes.arrived (h : ((e.setSettle n z).changeState n z .rest).Closes n k z t) (hm : (e.zone n z).state = .moving) :
    t.zone n z = ({ e.zone n z with settleSheet := some (e.arrivalSettle n) } : Zone).entering .rest := by
  have hset := e.setSettle_zone n z
  have hne : ((e.setSettle n z).zone n z).state ≠ .rest := by
    rw [hset, hm]
    decide
  have hz : ((e.setSettle n z).changeState n z .rest).zone n z = ({ e.zone n z with settleSheet := some (e.arrivalSettle n) } : Zone).entering .rest :=
    ((Ev.changeState_zone hne n z).trans (if_pos ⟨rfl, rfl⟩)).trans (congrArg (Zone.entering · .rest) hset)
  refine (h.arbitrated.zone ?_).trans hz
  rw [hz]
  exact ZoneState.noConfusion

/-- A zone whose ZERO move has arrived is placed (R65). -/
structure State.ZeroArrived (s t : State) (n : LineNo) (z : ZoneNo) (c : UnitConfig) : Prop where
  untargeted : (s.zone n z).target = none → (t.zone n z).state = .rest
  near : ∀ x, (s.zone n z).target = some x → ¬c.tolerance < x → (t.zone n z).state = .rest
  far : ∀ x, (s.zone n z).target = some x → c.tolerance < x → t.Driven n z x
  healthy : (t.zone n z).state ≠ .faulted

theorem Ev.setSettle_placement (hm : (e.zone n z).state = .moving) (hc : (e.unit n).config = some c) (hp : (e.zone n z).position = some 0)
    (hmod : e.moduleState n z ≠ .missing) :
    (e.setSettle n z).placement n z = placementOf false c.tolerance (e.zone n z).target (some 0) := by
  have hset := e.setSettle_zone n z
  have hcfg : ((e.setSettle n z).unit n).config = some c := by
    rw [Ev.setSettle, Ev.updZone, Ev.updUnit_unit_self]
    exact hc
  have htol : ((e.setSettle n z).unit n).tolerance = c.tolerance := by rw [UnitRec.tolerance, hcfg]; rfl
  have hmod' : ¬(e.setSettle n z).moduleState n z = .missing := hmod
  rw [State.placement_eq (by rw [hset, hm]; simp), htol, hset, hp, decide_eq_false hmod']

theorem Ev.Closes.zeroArrived (h : ((e.setSettle n z).place n z).Closes n k z t) (hl : ((e.setSettle n z).place n z).toState.pendingLawful)
    (hm : (e.zone n z).state = .moving) (hc : (e.unit n).config = some c) (hp : (e.zone n z).position = some 0)
    (hmod : e.moduleState n z ≠ .missing) : e.toState.ZeroArrived t n z c := by
  have hset := e.setSettle_zone n z
  have hpl := Ev.setSettle_placement hm hc hp hmod
  have hplaced := (e.setSettle n z).place_placed n z
  have hne : ((e.setSettle n z).zone n z).state ≠ .pending := by
    rw [hset, hm]
    decide
  have htarget : (((e.setSettle n z).place n z).zone n z).target = (e.zone n z).target := by
    rw [((e.setSettle n z).place_aims n z).target, hset]
  have hrest : (e.setSettle n z).placement n z = .rest → (t.zone n z).state = .rest := fun hr => by
    rw [hr] at hplaced
    have hs : (((e.setSettle n z).place n z).zone n z).state = .rest := hplaced
    rw [h.arbitrated.zone (by rw [hs]; decide)]
    exact hs
  have hdriven : ∀ x, (e.zone n z).target = some x → (e.setSettle n z).placement n z = .pending → t.Driven n z x := fun x hx hr => by
    rw [hr] at hplaced
    rcases h.arbitrated with ⟨j, _⟩ | ⟨_, k', hw, hg⟩
    · exact .inl ((congrArg Zone.state j).trans hplaced)
    · have heq : (e.setSettle n z).place n z = (e.setSettle n z).enterPending n z .position := by rw [Ev.place, hr]
      have hpos : ((e.setSettle n z).place n z).toState.waitsFor n z .position := by
        rw [heq, State.waitsFor, Ev.enterPending_line hne, if_pos rfl]
        exact List.mem_append_right _ List.mem_cons_self
      obtain rfl := hl.waits_unique hw hpos
      exact .inr ⟨hg.state, hg.moveKind, by rw [hg.commanded, htarget, hx]; rfl⟩
  rw [hpl] at hrest hdriven
  cases htg : (e.zone n z).target with
  | none =>
    rw [htg] at hrest
    have hr := hrest rfl
    have hno (x : Nat) : (e.zone n z).target ≠ some x := by
      rw [htg]
      exact fun j => by cases j
    exact ⟨fun _ => hr, fun x j => absurd j (hno x), fun x j => absurd j (hno x), by rw [hr]; decide⟩
  | some x =>
    rw [htg] at hrest
    have hdist : distance x 0 = x := by
      unfold distance
      split <;> omega
    have hpl' : placementOf false c.tolerance (some x) (some 0) = if c.tolerance < x then .pending else .rest := by
      show (if c.tolerance < distance x 0 then Placement.pending else .rest) = _
      rw [hdist]
    rw [htg] at hdriven
    rw [hpl'] at hrest hdriven
    refine ⟨fun j => (by rw [htg] at j; cases j), fun y hy hn => ?_, fun y hy hn => ?_, ?_⟩
    · obtain rfl := Option.some.inj (htg.symm.trans hy)
      exact hrest (if_neg hn)
    · obtain rfl := Option.some.inj (htg.symm.trans hy)
      exact hdriven x rfl (if_pos hn)
    · by_cases hn : c.tolerance < x
      · rcases hdriven x rfl (if_pos hn) with j | j
        · rw [j]; decide
        · rw [j.1]; decide
      · rw [hrest (if_neg hn)]
        decide

theorem Ev.sendMove_still (e : Ev) (u : UnitNo) (z : ZoneNo) (x k : Nat) : (e.sendMove u z x k).arbiterDue = e.arbiterDue := rfl

/-- A move that has missed is sent again with another tag (R60). -/
theorem Ev.Closes.resent {a : Nat} (h : (e.sendMove n z x a).Closes n k z t) (hd : e.arbiterDue = false) (hlast : k.last = false) :
    t.zone n z = { e.zone n z with
        moveKind := some .position, commanded := some x, moveTag := some (e.nextKeyTag n z), attempts := a
        moveTimer := some (e.unit n).moveTimeout }
      ∧ (t.line n).tagCounter = e.nextKeyTag n z + 1
      ∧ (t.line n).queue.motion = (e.line n).queue.motion ++ [.move z x (e.nextKeyTag n z)] := by
  obtain ⟨hz, hline⟩ := h.still hd
  have hcounter : ((e.sendMove n z x a).line n).tagCounter = e.nextKeyTag n z + 1 := by
    show (((e.tagTaken n (e.nextKeyTag n z)).queueKeyFrame n z _).line n).tagCounter = _
    rw [Ev.queueKeyFrame, Ev.updQueue, Ev.updLine_line, if_pos rfl, Ev.tagTaken, Ev.updLine_line, if_pos rfl]
  have hadv : ∀ l : Line, (l.advanced k).tagCounter = l.tagCounter ∧ (l.advanced k).queue = l.queue := fun l => by
    unfold Line.advanced
    split
    · exact ⟨rfl, rfl⟩
    · rw [hlast]
      exact ⟨rfl, rfl⟩
  refine ⟨hz.trans ((Ev.sendMove_zone x a).trans (if_pos ⟨rfl, rfl⟩)), ?_, ?_⟩
  · rw [hline, (hadv _).1, hcounter]
  · rw [hline, (hadv _).2, Ev.sendMove_queue]

/-! ### The obligation -/

/-- The event that has heard the reply of a key: the zone's position is the reply's, and the line stands as it stood but for the module and
the reported tag. -/
structure State.KeyHeard (s : State) (n : LineNo) (slot : Fin 9) (rep : Reply) (z : ZoneNo) (c : UnitConfig) (e : Ev) : Prop where
  zone : e.zone n z = { s.zone n z with position := some rep.position }
  others : ∀ v y, ¬(v = n ∧ y = z) → e.zone v y = s.zone v y
  line : e.line n = (s.line n).heard slot rep
  config : (e.unit n).config = some c
  sheet : e.arrivalSettle n = s.timing.counter + BitVec.ofNat 32 (((s.unit n).loopParams.map (·.settleW)).getD 0)
  due : e.arbiterDue = false
  lists : s.pendingLawful → e.toState.pendingLawful

theorem State.landed_keyHeard (s : State) (hc : (s.unit n).config = some c) : s.KeyHeard n slot rep z c ((s.landed []).keyHeard n slot rep z) where
  zone := by
    rw [Ev.keyHeard, Ev.updZone_zone_self]
    rfl
  others v y h := (Ev.updZone_zone _ n v z y _).trans (if_neg fun j => h ⟨j.1.symm, j.2.symm⟩)
  line := ((s.landed []).heard_line n n slot rep).trans (if_pos rfl)
  config := by
    rw [Ev.keyHeard, Ev.updZone, Ev.updUnit_unit_self]
    exact hc
  sheet := by
    show sheetPlus s.timing.counter (((((s.landed []).keyHeard n slot rep z).unit n).loopParams.map (·.settleW)).getD 0) = _
    rw [Ev.keyHeard, Ev.updZone, Ev.updUnit_unit_self]
    rfl
  due := rfl
  lists h := h.of_same (fun v y => by
    rw [Ev.keyHeard, Ev.updZone_zone]
    split <;> rfl) fun m => ((s.landed []).heard_same n m slot rep).pendingList

theorem Line.heard_keyTags (l : Line) (h : zoneOfReply slot rep.key = some z) :
    (l.heard slot rep).keyTags[z] = { l.keyTags[z] with reported := rep.tag } := by
  unfold Line.heard Line.noted
  rw [if_neg (zoneOfReply_slot h), h]
  simp

theorem ModuleRec.heard_expected {r : ModuleRec} (h : r.state ≠ .notExpected) : r.heard = { state := .present, lastOutcome := .valid, missed := 0 } := by
  unfold ModuleRec.heard
  cases hs : r.state with
  | notExpected => exact absurd hs h
  | present => rfl
  | missing => rfl

theorem ModuleRec.heard_state (r : ModuleRec) : r.heard.state ≠ .missing := by
  unfold ModuleRec.heard
  split
  · next h =>
    rw [h]
    decide
  all_goals decide

theorem State.KeyHeard.module (h : s.KeyHeard n slot rep z c e) (hm : moduleOf z = slot) : e.moduleState n z ≠ .missing := by
  subst hm
  unfold State.moduleState
  rw [h.line]
  have hheard := Line.heard_module (s.line n) (moduleOf z) rep
  rw [show ((s.line n).heard (moduleOf z) rep).modules[moduleOf z] = _ from hheard]
  exact ModuleRec.heard_state _

theorem State.KeyHeard.matches_iff (h : s.KeyHeard n slot rep z c e) : e.replyMatches n z g = true
    ↔ (s.zone n z).state = .moving ∧ s.frameQueued n z = false ∧ (s.zone n z).moveTag = some g := by
  have hq : e.frameQueued n z = s.frameQueued n z := by
    unfold State.frameQueued
    rw [h.line, (Line.heard_same _ _ _).queue]
  unfold State.replyMatches
  rw [h.zone, hq]
  simp [and_assoc]

/-- Settles O35: a VALID reply of a key sets the zone's position, and ends or continues the move that it matches. -/
theorem replyWithinToleranceArrives : Obligations.ReplyWithinToleranceArrives := by
  intro s n k w z c h hl hk hv hz hc hzc matched settled p
  refine ⟨_, exec_replySlot h hk _, ?_⟩
  obtain ⟨q, hq⟩ := judgeSlot_motion hv
  have h0 := zoneOfReply_slot hz
  have hmodule := zoneOfReply_module hz (judgeSlot_key hv h0)
  have hout : s.SameOutside ((s.landed []).judge n k (.reply w false)).settle.toState :=
    Ev.has_settle (stable_sameOutside s) (Ev.has_judge (stable_sameOutside s) (e := s.landed []) ⟨rfl, rfl, rfl, rfl, rfl, rfl⟩ n _ _)
  rw [Ev.judge_valid _ _ hv] at hout ⊢
  have hmirrors := (((s.landed_goes [] (· = n)).answered rfl k.slot (replyOfWord w)).advanceCycle rfl k).settled.mirrors
  have hcount : z.val < ((s.landed []).unit n).zoneCount := by
    have hcfg : ((s.landed []).unit n).config = some c := hc
    rw [UnitRec.zoneCount, hcfg]
    exact hzc
  have hans := Ev.answered_key (e := s.landed []) hq hz hcount
  have hP := s.landed_keyHeard (slot := k.slot) (rep := replyOfWord w) (z := z) hc
  generalize (s.landed []).keyHeard n k.slot (replyOfWord w) z = e at *
  have hserves := e.keyReply_serves n z p q (replyOfWord w).tag
  have honly := e.keyReply_only n z p q (replyOfWord w).tag
  have hcases := e.keyReply_cases n z p q (replyOfWord w).tag
  have hlK : (e.keyReply n z p q (replyOfWord w).tag).toState.pendingLawful :=
    Keeps.keyReply Ev.keeps_pendingLawful n z p q (replyOfWord w).tag (e := e) (hP.lists hl)
  have hon : (e.keyReply n z p q (replyOfWord w).tag).GoesOnAs ((s.landed []).answered n k.slot (replyOfWord w))
      ∧ (((s.line n).modules[k.slot]).state = .missing → ((s.landed []).answered n k.slot (replyOfWord w)).noticePending .lineEvent = true) := by
    rw [hans]
    split
    · refine ⟨⟨rfl, rfl, rfl, fun d hd => ?_⟩, fun _ => ?_⟩
      · show (Ev.raise _ .lineEvent).noticePending d = true
        rw [Ev.noticePending_raise, hd]
        rfl
      · show (Ev.raise _ .lineEvent).noticePending .lineEvent = true
        rw [Ev.noticePending_raise]
        exact Bool.or_true _
    · next hne => exact ⟨⟨rfl, rfl, rfl, fun _ hd => hd⟩, fun j => absurd j hne⟩
  obtain ⟨hon, hreturn⟩ := hon
  have hC := hon.closes (n := n) (z := z) hlK k
  have hnotice : ((s.line n).modules[k.slot]).state = .missing → (((s.landed []).answered n k.slot (replyOfWord w)).advanceCycle n k).settle.noticePending .lineEvent
      = true := fun j => Ev.settle_notice _ _ (noticePending_of_and rfl
    ((Ev.Goes.refl (U := (· = n)) (K := fun _ => True) (fun _ _ _ => trivial) : ((s.landed []).answered n k.slot (replyOfWord w)).Goes _ _ _).here.advanceCycle
      rfl k).notices _ (hreturn j))
  generalize (((s.landed []).answered n k.slot (replyOfWord w)).advanceCycle n k).settle.toState = t at *
  clear hon hreturn hans
  have hmodules : (t.line n).modules = (((e.keyReply n z p q (replyOfWord w).tag).line n).advanced k).modules := hC.service.modules
  have hmod : ((t.line n).modules[k.slot]).state = (((s.line n).modules[k.slot]).heard).state
      ∧ ((t.line n).modules[k.slot]).missed = (((s.line n).modules[k.slot]).heard).missed := by
    obtain ⟨j1, j2⟩ := Line.advanced_module ((e.keyReply n z p q (replyOfWord w).tag).line n) k k.slot
    rw [hmodules, j1, j2, (hserves.service n).modules, hP.line, Line.heard_module]
    exact ⟨rfl, rfl⟩
  have hpresent := hP.module hmodule
  have hmoving : matched → (e.zone n z).state = .moving := fun j => by
    rw [hP.zone]
    exact j.1
  have hmatch : matched → e.replyMatches n z (replyOfWord w).tag = true := hP.matches_iff.2
  have hqueue : (e.line n).queue = (s.line n).queue := by rw [hP.line, (Line.heard_same _ _ _).queue]
  have htags : (e.line n).keyTags[z] = { (s.line n).keyTags[z] with reported := (replyOfWord w).tag } := by rw [hP.line, Line.heard_keyTags _ hz]
  have hexpected : ((s.line n).modules[k.slot]).state ≠ .notExpected → ((t.line n).modules[k.slot]).state = .present
      ∧ ((t.line n).modules[k.slot]).missed = 0 := fun j => by
    rw [hmod.1, hmod.2, ModuleRec.heard_expected j]
    exact ⟨rfl, rfl⟩
  refine ⟨fun x hm hr hkind hx hd => ?_, fun x hm hr hkind hx hd hlast => ?_, fun hm hr hkind hp0 => ?_, fun hm hr hkind hp0 => ?_, fun hm hr => ?_,
    fun hm hfault => ?_, fun hno => ?_, fun j => (hexpected j).1, fun j => (hexpected j).2, hnotice, ?_, hmirrors, fun v y hvy => ?_, hout⟩
  · obtain rfl := Option.some.inj (hq.symm.trans hr)
    rw [Ev.keyReply_position (hmatch hm) (by rw [hP.zone]; exact hkind) (by rw [hP.zone]; exact hx) hP.config, if_pos hd] at hC
    rw [hC.arrived (hmoving hm), hP.zone, hP.sheet]
    simp [Zone.entering, hm.1, p, settled]
  · obtain rfl := Option.some.inj (hq.symm.trans hr)
    rw [Ev.keyReply_position (hmatch hm) (by rw [hP.zone]; exact hkind) (by rw [hP.zone]; exact hx) hP.config, if_neg (by omega), hP.zone] at hC
    dsimp only at hC
    split
    · next ha =>
      rw [if_pos ha] at hC
      obtain ⟨j1, j2, j3⟩ := hC.resent hP.due hlast
      have hfresh := nextTag_fresh (e.line n).tagCounter (e.line n).keyTags[z]
      have htimeout : (e.unit n).moveTimeout = c.moveTimeout := by rw [UnitRec.moveTimeout, hP.config]; rfl
      rw [htags] at hfresh
      refine ⟨e.nextKeyTag n z, ?_, ?_, ?_, j2, ?_⟩
      · rw [j1, hP.zone, htimeout, ← hx, ← hkind]
      · unfold State.nextKeyTag
        rw [htags]
        exact hfresh.1
      · unfold State.nextKeyTag
        rw [htags]
        exact hfresh.2
      · rw [j3, hqueue]
    · next ha =>
      rw [if_neg ha] at hC
      rw [(hC.faulted (hmoving hm)).1, hP.zone]
      exact ⟨rfl, rfl, rfl⟩
  · obtain rfl := Option.some.inj (hq.symm.trans hr)
    rw [Ev.keyReply_zero (hmatch hm) (by rw [hP.zone]; exact hkind), if_neg hp0] at hC
    rw [(hC.faulted (hmoving hm)).1, hP.zone]
    exact ⟨rfl, rfl, rfl⟩
  · obtain rfl := Option.some.inj (hq.symm.trans hr)
    rw [Ev.keyReply_zero (hmatch hm) (by rw [hP.zone]; exact hkind), if_pos hp0] at hC hlK
    have hpos : (e.zone n z).position = some 0 := by
      rw [hP.zone]
      exact congrArg some hp0
    have hA := hC.zeroArrived hlK (hmoving hm) hP.config hpos hpresent
    have haims := ((e.setSettle n z).place_aims n z).trans (hC.aims n z)
    rw [e.setSettle_zone n z] at haims
    have htarget : (e.zone n z).target = (s.zone n z).target := by rw [hP.zone]
    refine ⟨haims.position.trans hpos, haims.settleSheet.trans (congrArg some hP.sheet), ?_⟩
    cases htg : (s.zone n z).target with
    | none => exact hA.untargeted (htarget.trans htg)
    | some x =>
      dsimp only
      split
      · exact hA.far x (htarget.trans htg) ‹_›
      · exact hA.near x (htarget.trans htg) ‹_›
  · obtain rfl := Option.some.inj (hq.symm.trans hr)
    rw [Ev.keyReply_blocked (hmatch hm)] at hC
    rw [(hC.faulted (hmoving hm)).1, hP.zone]
    exact ⟨rfl, rfl, rfl⟩
  · have hstay : ∀ r : Zone, (e.keyReply n z p q (replyOfWord w).tag).zone n z = r → r.state = .moving → False := fun r hr hmv => by
      have j := hC.arbitrated.zone (by rw [hr, hmv]; decide)
      rw [j, hr, hmv] at hfault
      cases hfault
    rcases hcases with j | ⟨d, j⟩ | ⟨hp0, j⟩ | j | ⟨x, a, j⟩
    · exact absurd (hmoving hm) fun i => hstay _ (by rw [j]) i
    · rw [j] at hC
      obtain ⟨j1, j2⟩ := hC.faulted (hmoving hm)
      rw [j1, hP.zone]
      refine ⟨j2, ?_⟩
      simp [Zone.entering, hm.1]
    · rw [j] at hC hlK
      have hpos : (e.zone n z).position = some 0 := by
        rw [hP.zone]
        exact congrArg some hp0
      exact absurd hfault (hC.zeroArrived hlK (hmoving hm) hP.config hpos hpresent).healthy
    · rw [j] at hC
      rw [hC.arrived (hmoving hm)] at hfault
      cases hfault
    · have hz' := (congrArg (fun f : Ev => f.zone n z) j).trans ((Ev.sendMove_zone x a).trans (if_pos ⟨rfl, rfl⟩))
      exact (hstay _ hz' (hmoving hm)).elim
  · have hsame : e.keyReply n z p q (replyOfWord w).tag = e := by
      refine Ev.keyReply_passed ?_
      rcases hno with j | j
      · exact .inl (Bool.eq_false_iff.2 fun i => j (hP.matches_iff.1 i))
      · exact .inr (Option.some.inj (hq.symm.trans j))
    rw [hsame] at hC
    rw [(hC.still hP.due).1, hP.zone]
  · rw [hC.service.keyTags, Line.advanced_keyTags, (hserves.service n).keyTags, htags]
  · rw [← hP.others v y hvy, ← (honly v y fun j => hvy ⟨j.1.symm, j.2.symm⟩).1]
    exact hC.aims v y

end Sys2Proof.Machine
end

