-- ==== Sys2Proof/Proofs/ArbiterRuns.lean ====
section
/-! PROOFS. A whole run of the arbiter (R50 to R54): what each grant gives its line and zone, the order of the grants, and that the run ends
when no line can take one. -/

namespace Sys2Proof.Machine

open Decode

variable {d e f : Ev} {r s t : State} {n m : LineNo} {u v : UnitNo} {z y : ZoneNo} {q p : PendingEntry} {l : List PendingEntry} {x k : Nat}
  {gs : List LineNo} {start : LineNo → Tag}

/-! ### One grant -/

/-- The frame that a grant of this entry queues (R53). -/
def PendingEntry.frame (q : PendingEntry) (x : Nat) (g : Tag) : MotionFrame :=
  match q.kind with
  | .position => .move q.zone x g
  | .zero => .zero q.zone g

/-- The position that a granted move of this kind drives a zone to (R53). -/
def Zone.driveTo (r : Zone) : MoveKind → Nat
  | .position => r.target.getD 0
  | .zero => 0

/-- A line whose front entry has been granted (R53, R54). -/
def Line.given (l : Line) (q : PendingEntry) (x : Nat) : Line :=
  { l with
    pendingList := l.pendingList.tail
    grants := l.grants + 1
    tagCounter := nextTag l.tagCounter l.keyTags[q.zone] + 1
    queue := { l.queue with
      halts := l.queue.halts.filter (· != q.zone)
      motion := l.queue.motion ++ [q.frame x (nextTag l.tagCounter l.keyTags[q.zone])] } }

/-- A zone that has been granted its move (R53). -/
def Zone.given (r : Zone) (k : MoveKind) (g : Tag) (timeout : Nat) : Zone :=
  { r.entering .moving with
    moveKind := some k, commanded := some (r.driveTo k), moveTag := some g, attempts := 0, moveTimer := some timeout }

/-- The front entry of a line's list names no zone behind it. -/
theorem State.pendingLawful.filter_front (h : s.pendingLawful) (hl : (s.line n).pendingList = q :: l) :
    ((s.line n).pendingList.filter fun p => p.zone != q.zone) = l := by
  have hc := h n q.zone
  rw [Line.entriesOf, hl, List.countP_cons] at hc
  have h0 : l.countP (fun p => p.zone == q.zone) = 0 := by
    simp only [beq_self_eq_true, if_true] at hc
    split at hc <;> omega
  rw [hl, List.filter_cons]
  simp only [bne_self_eq_false, Bool.false_eq_true, if_false]
  refine List.filter_eq_self.2 fun p hp => ?_
  simpa using List.countP_eq_zero.1 h0 p hp

/-- What a grant gives (R53). -/
structure Ev.Gives (n : LineNo) (q : PendingEntry) (d e : Ev) : Prop where
  line : ∀ m, e.line m = if n = m then (d.line m).given q ((d.zone n q.zone).driveTo q.kind) else d.line m
  zone : ∀ v y, e.zone v y = if n = v ∧ q.zone = y
    then (d.zone v y).given q.kind (d.nextKeyTag n q.zone) (d.unit n).moveTimeout else d.zone v y
  partGrants : e.partGrants = d.partGrants + 1
  pointer : e.pointer = n
  port : e.port = d.port
  config : ∀ v, (e.unit v).config = (d.unit v).config

theorem Ev.counted_given (h : (e.line n).pendingList = q :: l) (hp : e.toState.pendingLawful) (m : LineNo) :
    (e.counted n q.zone).line m = if n = m then { e.line m with
      pendingList := (e.line m).pendingList.tail
      grants := (e.line m).grants + 1 } else e.line m := by
  have hz := hp.front h
  have hne : (e.zone n q.zone).state ≠ .moving := by rw [hz]; decide
  show ((e.changeState n q.zone .moving).updLine n fun l => { l with grants := l.grants + 1 }).line m = _
  rw [Ev.updLine_line, Ev.changeState_line hne]
  split
  · next j =>
    subst j
    have hleave : (e.line n).leaving .pending q.zone = { e.line n with pendingList := (e.line n).pendingList.filter fun p => p.zone != q.zone } := rfl
    rw [hz, hleave, hp.filter_front h, h]
    rfl
  · rfl

theorem Ev.grant_gives (h : (e.line n).pendingList = q :: l) (hp : e.toState.pendingLawful) : e.Gives n q (e.grant n) := by
  have hG := Ev.grant_granted h
  have hz := hp.front h
  have hne : (e.zone n q.zone).state ≠ .moving := by rw [hz]; decide
  have hcz : (e.counted n q.zone).zone n q.zone = (e.zone n q.zone).entering .moving := by
    rw [Ev.counted_zone, Ev.changeState_zone hne, if_pos ⟨rfl, rfl⟩]
  have hpart : (e.changeState n q.zone .moving).partGrants = e.partGrants := by
    rw [Ev.changeState_partGrants hne, if_neg hne]
  have htag : (e.counted n q.zone).nextKeyTag n q.zone = e.nextKeyTag n q.zone := by
    unfold State.nextKeyTag
    rw [Ev.counted_given h hp, if_pos rfl]
  have htime : ((e.counted n q.zone).unit n).moveTimeout = (e.unit n).moveTimeout := by
    unfold UnitRec.moveTimeout
    rw [show ((e.counted n q.zone).unit n).config = _ from Ev.changeState_config]
  have hqueue (f : MotionFrame) (g : Tag) (m : LineNo) : (((e.counted n q.zone).tagTaken n g).queueKeyFrame n q.zone f).line m
      = if n = m then { e.line m with
          pendingList := (e.line m).pendingList.tail
          grants := (e.line m).grants + 1
          tagCounter := g + 1
          queue := { (e.line m).queue with
            halts := (e.line m).queue.halts.filter (· != q.zone), motion := (e.line m).queue.motion ++ [f] } } else e.line m := by
    rw [Ev.queueKeyFrame, Ev.updQueue, Ev.updLine_line, Ev.tagTaken, Ev.updLine_line, Ev.counted_given h hp]
    split <;> rfl
  have hgrant := Ev.grant_eq h
  refine ⟨fun m => ?_, fun v y => ?_, hG.partGrants.trans (congrArg (· + 1) hpart), ?_, hG.port, hG.config⟩
  · rw [hgrant]
    unfold Line.given PendingEntry.frame Zone.driveTo
    cases hk : q.kind with
    | position =>
      dsimp only
      refine (hqueue (.move q.zone ((e.zone n q.zone).target.getD 0) ((e.counted n q.zone).nextKeyTag n q.zone)) _ m).trans ?_
      rw [htag]
      split
      · next j => subst j; rfl
      · rfl
    | zero =>
      dsimp only
      refine (hqueue (.zero q.zone ((e.counted n q.zone).nextKeyTag n q.zone)) _ m).trans ?_
      rw [htag]
      split
      · next j => subst j; rfl
      · rfl
  · by_cases j : n = v ∧ q.zone = y
    · obtain ⟨rfl, rfl⟩ := j
      rw [if_pos ⟨rfl, rfl⟩, hgrant]
      unfold Zone.given Zone.driveTo
      cases hk : q.kind with
      | position =>
        refine (Ev.sendMove_zone _ 0).trans ((if_pos ⟨rfl, rfl⟩).trans ?_)
        rw [hcz, htag, htime]
      | zero =>
        refine Ev.sendZero_zone.trans ((if_pos ⟨rfl, rfl⟩).trans ?_)
        rw [hcz, htag, htime]
    · rw [if_neg j, hG.otherZone v y j]
  · rw [hgrant]
    cases q.kind <;> rfl

/-! ### The first line that can take a grant -/

theorem firstEligible_least (h : s.firstEligible = some n) (hm : s.eligible m = true) : (n - (s.pointer + 1)).val ≤ (m - (s.pointer + 1)).val := by
  obtain ⟨_, i, hi, hn, hbefore⟩ := List.find?_eq_some_iff_getElem.1 h
  have hlen : ((ascending 16).map fun i => s.pointer + 1 + i).length = 16 := by simp [ascending]
  have hget (j : Nat) (hj : j < ((ascending 16).map fun i => s.pointer + 1 + i).length) :
      ((ascending 16).map fun i => s.pointer + 1 + i)[j] = s.pointer + 1 + (⟨j, hlen ▸ hj⟩ : Fin 16) := by simp [ascending]
  rw [hget i hi] at hn
  subst hn
  have hsub (a b : Fin 16) : a + b - a = b := by omega
  rw [hsub]
  by_contra hlt
  have hlt' : (m - (s.pointer + 1)).val < i := by
    show (m - (s.pointer + 1)).val < (⟨i, hlen ▸ hi⟩ : Fin 16).val
    omega
  have hno := hbefore (m - (s.pointer + 1)).val hlt'
  rw [hget _ (by omega)] at hno
  have hback : s.pointer + 1 + (⟨(m - (s.pointer + 1)).val, by omega⟩ : Fin 16) = m := add_sub_cancel (s.pointer + 1) m
  rw [hback, hm] at hno
  cases hno

theorem firstEligible_none (h : s.firstEligible = none) (m : LineNo) : s.eligible m = false := by
  have hno := List.find?_eq_none.1 h m (List.mem_map.2 ⟨m - (s.pointer + 1), List.mem_finRange _, add_sub_cancel (s.pointer + 1) m⟩)
  simpa using hno

/-! ### The rounds -/

/-- A run of the arbiter has granted so far to these lines, in this order (R52). -/
structure Ev.Runs (d e : Ev) (gs : List LineNo) : Prop where
  each : ∀ i n, gs[i]? = some n → d.Grantable d.toState (gs.take i) n
    ∧ ∀ m, d.Grantable d.toState (gs.take i) m →
      (n - ((gs.take i).getLastD d.pointer + 1)).val ≤ (m - ((gs.take i).getLastD d.pointer + 1)).val
  pointer : e.pointer = gs.getLastD d.pointer
  partGrants : e.partGrants = d.partGrants + gs.length
  grants : ∀ m, (e.line m).grants = (d.line m).grants + gs.count m
  lists : ∀ m, (e.line m).pendingList = (d.line m).pendingList.drop (gs.count m)
  counters : ∀ m, (e.line m).tagCounter = (d.line m).tagAfter (d.line m).tagCounter (gs.count m)
  granted : ∀ m i p, i < gs.count m → (d.line m).pendingList[i]? = some p →
    d.toState.Granted e.toState m p (nextTag ((d.line m).tagAfter (d.line m).tagCounter i) (d.line m).keyTags[p.zone])
  service : ∀ m, (d.line m).SameService (e.line m)
  config : ∀ v, (e.unit v).config = (d.unit v).config
  port : e.port = d.port
  waiting : ∀ m, ∀ p ∈ (e.line m).pendingList, e.zone m p.zone = d.zone m p.zone
  lawful : e.toState.pendingLawful
  motion : ∀ m, (d.line m).queue.motion <+: (e.line m).queue.motion
  halts : ∀ m y, y ∈ (d.line m).queue.halts → (d.zone m y).state ≠ .pending → y ∈ (e.line m).queue.halts

theorem Ev.Runs.refl (h : e.toState.pendingLawful) : e.Runs e [] where
  each i n h := by cases h
  pointer := rfl
  partGrants := rfl
  grants m := rfl
  lists m := rfl
  counters m := rfl
  granted m i p h := by cases h
  service m := .refl _
  config v := rfl
  port := rfl
  waiting m p _ := rfl
  lawful := h
  motion m := List.prefix_rfl
  halts m y h _ := h

theorem Ev.Runs.eligible_iff (h : d.Runs e gs) (m : LineNo) : e.eligible m = true ↔ d.Grantable d.toState gs m := by
  have hbudget : (e.unit m).lineBudget = (d.unit m).lineBudget := by rw [UnitRec.lineBudget, UnitRec.lineBudget, h.config]
  have hservice : (e.line m).inService = (d.line m).inService := by
    unfold Line.inService
    rw [(h.service m).power, (h.service m).stopTaken]
  have hdrive : e.driveBudget = d.driveBudget := by rw [State.driveBudget, State.driveBudget, h.port]
  have hattached : e.attached = d.attached := by rw [State.attached, State.attached, h.port]
  have hempty : (!(e.line m).pendingList.isEmpty) = true ↔ gs.count m < (d.line m).pendingList.length := by
    rw [h.lists, Bool.not_eq_true', List.isEmpty_eq_false_iff, ne_eq, List.drop_eq_nil_iff, not_le]
  unfold State.eligible State.Grantable
  rw [Bool.and_eq_true, Bool.and_eq_true, Bool.and_eq_true, Bool.and_eq_true, hempty, hattached, hservice, hbudget, hdrive, h.grants, h.partGrants]
  simp [State.attached, and_assoc]

/-- The next entry's tag, which is the counter's after the entries in front of it (R54). -/
theorem Line.tagAfter_succ (l : Line) (g : Tag) {i : Nat} (h : l.pendingList[i]? = some p) :
    l.tagAfter g (i + 1) = nextTag (l.tagAfter g i) l.keyTags[p.zone] + 1 := by
  unfold Line.tagAfter
  rw [List.take_add_one, h, List.foldl_append]
  rfl

theorem Zone.given_granted (h : e.Gives n q f) {g : Tag} (hg : g = e.nextKeyTag n q.zone) (hz : e.zone n q.zone = d.zone n q.zone)
    (hk : (e.line n).keyTags = (d.line n).keyTags) (hc : (e.unit n).config = (d.unit n).config) : d.toState.Granted f.toState n q g := by
  subst hg
  have hline := h.line n
  have hzone := h.zone n q.zone
  rw [if_pos rfl] at hline
  rw [if_pos ⟨rfl, rfl⟩] at hzone
  have hfresh := nextTag_fresh (e.line n).tagCounter (e.line n).keyTags[q.zone]
  have htime : (e.unit n).moveTimeout = (d.unit n).moveTimeout := by rw [UnitRec.moveTimeout, UnitRec.moveTimeout, hc]
  rw [hz] at hzone hline
  refine ⟨by rw [hzone]; rfl, by rw [hzone]; rfl, by rw [hzone]; rfl, by rw [hzone, ← htime]; rfl, ?_, by rw [hzone]; rfl, ?_, ?_⟩
  · rw [hline]
    simp [Line.given]
  · rw [← hk]
    exact hfresh
  · rw [hzone, hline]
    unfold Zone.given Line.given PendingEntry.frame Zone.driveTo
    cases q.kind with
    | position => exact ⟨rfl, List.mem_append_right _ List.mem_cons_self⟩
    | zero => exact ⟨rfl, List.mem_append_right _ List.mem_cons_self⟩

/-- What has been granted stays granted while the arbiter goes on. -/
theorem State.Granted.kept {g : Tag} (h : s.Granted e.toState m p g) (k : e.Gives n q f) (hz : ¬(n = m ∧ q.zone = p.zone)) :
    s.Granted f.toState m p g := by
  have hzone := k.zone m p.zone
  rw [if_neg hz] at hzone
  have hmotion : ∀ x, x ∈ (e.line m).queue.motion → x ∈ (f.line m).queue.motion := fun x hx => by
    rw [k.line]
    split
    · exact List.mem_append_left _ hx
    · exact hx
  have hhalt : p.zone ∉ (f.line m).queue.halts := fun j => by
    rw [k.line] at j
    split at j
    · exact h.halt (List.mem_of_mem_filter j)
    · exact h.halt j
  have hframe := h.frame
  refine ⟨by rw [hzone]; exact h.state, by rw [hzone]; exact h.kind, by rw [hzone]; exact h.attempts, by rw [hzone]; exact h.timer, hhalt,
    by rw [hzone]; exact h.tag, h.fresh, ?_⟩
  rw [hzone]
  cases hk : p.kind with
  | position =>
    rw [hk] at hframe
    exact ⟨hframe.1, hmotion _ hframe.2⟩
  | zero =>
    rw [hk] at hframe
    exact ⟨hframe.1, hmotion _ hframe.2⟩

theorem Ev.Gives.service (h : e.Gives n q f) (m : LineNo) : (e.line m).SameService (f.line m) := by
  rw [h.line]
  split
  · exact ⟨rfl, rfl, rfl, rfl, rfl, rfl, rfl, rfl, rfl, rfl⟩
  · exact .refl _

theorem Ev.Runs.step (h : d.Runs e gs) (hn : e.firstEligible = some n) : d.Runs (e.grant n) (gs ++ [n]) := by
  have hel : e.eligible n = true := List.find?_some hn
  have hG := (h.eligible_iff n).1 hel
  have hlen := hG.2.2.1
  obtain ⟨q, hq⟩ : ∃ q, (d.line n).pendingList[gs.count n]? = some q := ⟨_, List.getElem?_eq_getElem hlen⟩
  have hlist : (e.line n).pendingList = q :: (d.line n).pendingList.drop (gs.count n + 1) := by
    rw [h.lists, List.drop_eq_getElem_cons hlen]
    congr 1
    exact Option.some.inj ((List.getElem?_eq_getElem hlen).symm.trans hq)
  have hgives := Ev.grant_gives hlist h.lawful
  have hlaw : (e.grant n).toState.pendingLawful := tableLaw_pending.law.grant hel h.lawful
  have hpend : (e.zone n q.zone).state = .pending := h.lawful.front hlist
  have hsame : e.zone n q.zone = d.zone n q.zone := h.waiting n q (by rw [hlist]; exact List.mem_cons_self)
  have htag : nextTag ((d.line n).tagAfter (d.line n).tagCounter (gs.count n)) (d.line n).keyTags[q.zone] = e.nextKeyTag n q.zone := by
    rw [State.nextKeyTag, h.counters, (h.service n).keyTags]
  have hcount (m : LineNo) : (gs ++ [n]).count m = gs.count m + if n = m then 1 else 0 := by
    rw [List.count_append, List.count_singleton]
    simp
  refine ⟨fun i m hi => ?_, ?_, ?_, fun m => ?_, fun m => ?_, fun m => ?_, fun m i p hi hp => ?_, fun m => (h.service m).trans (hgives.service m), fun v => (hgives.config v).trans (h.config v),
    hgives.port.trans h.port, fun m p hp => ?_, hlaw, fun m => (h.motion m).trans ?_, fun m y hy hz => ?_⟩
  · by_cases hlt : i < gs.length
    · rw [List.getElem?_append_left hlt] at hi
      rw [List.take_append_of_le_length hlt.le]
      exact h.each i m hi
    · have hle : gs.length ≤ i := by omega
      rw [List.getElem?_append_right hle, List.getElem?_singleton] at hi
      split at hi
      · next hz =>
        obtain rfl := Option.some.inj hi
        have hi' : i = gs.length := by omega
        rw [hi', List.take_left, ← h.pointer]
        exact ⟨hG, fun m hm => firstEligible_least hn ((h.eligible_iff m).2 hm)⟩
      · cases hi
  · rw [hgives.pointer, List.getLastD_concat]
  · rw [hgives.partGrants, h.partGrants, List.length_append]
    rfl
  · rw [hgives.line, hcount]
    split
    · next j => exact congrArg (· + 1) (h.grants m)
    · exact h.grants m
  · rw [hgives.line, hcount]
    split
    · next j =>
      subst j
      show (e.line n).pendingList.tail = _
      rw [hlist]
      rfl
    · exact h.lists m
  · rw [hgives.line, hcount]
    split
    · next j =>
      subst j
      show nextTag (e.line n).tagCounter (e.line n).keyTags[q.zone] + 1 = _
      rw [Line.tagAfter_succ _ _ hq, htag]
      rfl
    · exact h.counters m
  · rw [hcount] at hi
    by_cases hold : i < gs.count m
    · have hg := h.granted m i p hold hp
      refine hg.kept hgives fun j => ?_
      obtain ⟨rfl, j⟩ := j
      have hmv := hg.state
      rw [← j, hpend] at hmv
      cases hmv
    · split at hi
      · next j =>
        subst j
        obtain rfl : i = gs.count n := by omega
        obtain rfl := Option.some.inj (hq.symm.trans hp)
        exact Zone.given_granted hgives htag hsame (h.service n).keyTags (h.config n)
      · exact absurd hi hold
  · have hin : p ∈ (e.line m).pendingList := by
      rw [hgives.line] at hp
      split at hp
      · exact List.mem_of_mem_tail hp
      · exact hp
    refine (hgives.zone m p.zone).trans ((if_neg fun j => ?_).trans (h.waiting m p hin))
    obtain ⟨rfl, j⟩ := j
    have hmv := hgives.zone n q.zone
    rw [if_pos ⟨rfl, rfl⟩] at hmv
    have hc := hlaw n q.zone
    rw [hmv, if_neg (by exact ZoneState.noConfusion), Line.entriesOf, List.countP_eq_zero] at hc
    exact hc p hp (by rw [j]; exact beq_self_eq_true p.zone)
  · rw [hgives.line]
    split
    · exact List.prefix_append _ _
    · exact List.prefix_rfl
  · have hin := h.halts m y hy hz
    rw [hgives.line]
    split
    · next j =>
      subst j
      refine List.mem_filter.2 ⟨hin, ?_⟩
      simp only [bne_iff_ne, ne_eq]
      rintro rfl
      exact hz (by rw [← hsame]; exact hpend)
    · exact hin

/-- The zones that wait on all the lines. -/
theorem State.waitingZones_eq (s : State) : s.waitingZones = ((ascending 16).map fun n => (s.line n).pendingList.length).sum := by
  rw [State.waitingZones, List.sum_eq_foldl, List.foldl_map]

theorem Ev.Gives.waitingZones (h : e.Gives n q f) (hl : (e.line n).pendingList ≠ []) : f.waitingZones < e.waitingZones := by
  rw [State.waitingZones_eq, State.waitingZones_eq]
  refine List.sum_lt_sum _ _ (fun m _ => ?_) ⟨n, List.mem_finRange n, ?_⟩
  · rw [h.line]
    split
    · show (e.line m).pendingList.tail.length ≤ _
      rw [List.length_tail]
      exact Nat.sub_le _ _
    · exact le_rfl
  · rw [h.line, if_pos rfl]
    show (e.line n).pendingList.tail.length < _
    rw [List.length_tail]
    have := List.length_pos_of_ne_nil hl
    omega

theorem State.eligible_pendingList (h : s.eligible n = true) : (s.line n).pendingList ≠ [] := by
  rintro j
  unfold State.eligible at h
  rw [j] at h
  simp at h

/-- The run ends when no line can take a grant (R52). -/
theorem Ev.Runs.rounds (h : d.Runs e gs) (hk : e.waitingZones ≤ k) :
    ∃ gs', d.Runs (Ev.grantRounds k e) gs' ∧ (Ev.grantRounds k e).firstEligible = none := by
  induction k generalizing e gs with
  | zero =>
    refine ⟨gs, h, List.find?_eq_none.2 fun n _ hn => ?_⟩
    have hzero : (e.line n).pendingList.length = 0 := by
      rw [State.waitingZones_eq, Nat.le_zero, List.sum_eq_zero_iff] at hk
      exact hk _ (List.mem_map.2 ⟨n, List.mem_finRange n, rfl⟩)
    exact State.eligible_pendingList hn (List.length_eq_zero_iff.1 hzero)
  | succ k ih =>
    unfold Ev.grantRounds
    split
    · next n hn =>
      have hne := State.eligible_pendingList (List.find?_some hn)
      obtain ⟨q, l, hl⟩ := List.exists_cons_of_ne_nil hne
      have hless := (Ev.grant_gives hl h.lawful).waitingZones hne
      exact ih (h.step hn) (by omega)
    · next hn => exact ⟨gs, h, hn⟩

theorem Ev.runArbiter_runs (h : e.toState.pendingLawful) : ∃ gs, e.Runs e.runArbiter gs ∧ ∀ m, ¬e.Grantable e.toState gs m := by
  obtain ⟨gs, h1, h2⟩ := (Ev.Runs.refl h).rounds (k := e.waitingZones) le_rfl
  refine ⟨gs, ⟨h1.each, h1.pointer, h1.partGrants, h1.grants, h1.lists, h1.counters, h1.granted, h1.service, h1.config, h1.port, h1.waiting,
    h1.lawful, h1.motion, h1.halts⟩, fun m hm => ?_⟩
  have hno := firstEligible_none h2 m
  rw [(h1.eligible_iff m).2 hm] at hno
  cases hno

/-! ### The run as another state finds it -/

/-- The arbiter finds the same in both states. -/
structure State.SameForArbiter (s r : State) : Prop where
  attached : s.port.state = .attached ↔ r.port.state = .attached
  lists : ∀ m, (r.line m).pendingList = (s.line m).pendingList
  grants : ∀ m, (r.line m).grants = (s.line m).grants
  keyTags : ∀ m, (r.line m).keyTags = (s.line m).keyTags
  config : ∀ v, (r.unit v).config = (s.unit v).config
  target : ∀ m, ∀ p ∈ (s.line m).pendingList, (r.zone m p.zone).target = (s.zone m p.zone).target
  partGrants : r.partGrants = s.partGrants
  pointer : r.pointer = s.pointer
  driveBudget : r.driveBudget = s.driveBudget

theorem State.SameForArbiter.grantable (h : s.SameForArbiter r) (hs : ∀ m, (t.line m).inService = (r.line m).inService) (gs : List LineNo) (m : LineNo) :
    s.Grantable t gs m ↔ r.Grantable r gs m := by
  have hbudget : (r.unit m).lineBudget = (s.unit m).lineBudget := by rw [UnitRec.lineBudget, UnitRec.lineBudget, h.config]
  unfold State.Grantable
  rw [h.attached, hs, h.lists, h.grants, hbudget, h.partGrants, h.driveBudget]

theorem Line.tagAfter_congr {l l' : Line} (hp : l'.pendingList = l.pendingList) (hk : l'.keyTags = l.keyTags) (g : Tag) (i : Nat) :
    l'.tagAfter g i = l.tagAfter g i := by
  unfold Line.tagAfter
  rw [hp, hk]

/-- The run, from a state in which the arbiter finds the same, to one that shows what it gave. -/
theorem Ev.Runs.arbiterRan (h : d.Runs e gs) (hw : ∀ m, ¬d.Grantable d.toState gs m) (hs : s.SameForArbiter d.toState)
    (hl : t.lines = e.lines) (hz : ∀ v y, t.zone v y = e.zone v y) (hp : t.pointer = e.pointer) (hg : t.partGrants = e.partGrants) :
    s.ArbiterRan t gs fun m => (d.line m).tagCounter := by
  have hline (m : LineNo) : t.line m = e.line m := congrArg (fun ls : Vector Line 16 => ls[m]) hl
  have hserve (m : LineNo) : (t.line m).inService = (d.line m).inService := by
    unfold Line.inService
    rw [hline, (h.service m).power, (h.service m).stopTaken]
  have hcan := hs.grantable hserve
  have htag (m : LineNo) (g : Tag) (i : Nat) : (d.line m).tagAfter g i = (s.line m).tagAfter g i :=
    Line.tagAfter_congr (hs.lists m) (hs.keyTags m) g i
  refine ⟨fun i n hi => ?_, fun m hm => hw m ((hcan gs m).1 hm), ?_, ?_, fun m => ?_, fun m => ?_, fun m i p hi hq => ?_, fun m => ?_⟩
  · obtain ⟨h1, h2⟩ := h.each i n hi
    rw [← hs.pointer]
    exact ⟨(hcan _ n).2 h1, fun m hm => h2 m ((hcan _ m).1 hm)⟩
  · rw [hp, h.pointer, hs.pointer]
  · rw [hg, h.partGrants, hs.partGrants]
  · rw [hline, h.grants, hs.grants]
  · rw [hline, h.lists, hs.lists]
  · have hgr := h.granted m i p hi (by rw [hs.lists]; exact hq)
    have htime : (d.unit m).moveTimeout = (s.unit m).moveTimeout := by rw [UnitRec.moveTimeout, UnitRec.moveTimeout, hs.config]
    have hfresh := hgr.fresh
    have hframe := hgr.frame
    have htarget := hs.target m p (List.mem_of_getElem? hq)
    rw [← htag, ← hs.keyTags]
    refine ⟨by rw [hz]; exact hgr.state, by rw [hz]; exact hgr.kind, by rw [hz]; exact hgr.attempts, by rw [hz, ← htime]; exact hgr.timer,
      by rw [hline]; exact hgr.halt, by rw [hz]; exact hgr.tag, by rw [← hs.keyTags]; exact hfresh, ?_⟩
    rw [hz, hline, ← htarget]
    cases hk : p.kind with
    | position =>
      rw [hk] at hframe
      exact hframe
    | zero =>
      rw [hk] at hframe
      exact hframe
  · rw [hline, h.counters, htag]

end Sys2Proof.Machine
end

