-- ==== Sys2Proof/Proofs/MoveTimers.lean ====
section
/-! PROOFS. The expiry of a move timer (R64): the zone is STALLED, its key halted, and its grant free for the arbiter to give again. -/

namespace Sys2Proof.Machine

open Decode

variable {d e f : Ev} {s t : State} {n m : LineNo} {u v : UnitNo} {z y : ZoneNo}

/-! ### The arbiter's run at the end of an event -/

/-- What the end of an event leaves of a run of the arbiter. -/
structure Ev.EndsRun (d : Ev) (t : State) (gs : List LineNo) (e : Ev) : Prop where
  runs : d.Runs e gs
  whole : ∀ m, ¬d.Grantable d.toState gs m
  lines : t.lines = e.lines
  zone : ∀ v y, t.zone v y = e.zone v y
  pointer : t.pointer = e.pointer
  partGrants : t.partGrants = e.partGrants

theorem Ev.settle_run (h : e.toState.pendingLawful) (hd : e.arbiterDue = true) : ∃ gs f, e.EndsRun e.settle.toState gs f := by
  obtain ⟨gs, h1, h2⟩ := Ev.runArbiter_runs h
  have hend : e.settleArbiter.EndsOnly e.settle := (Ev.EndsOnly.refl _).runTests.flush
  have hA : e.settleArbiter = e.runArbiter := if_pos hd
  rw [hA] at hend
  exact ⟨gs, e.runArbiter, h1, h2, hend.lines, hend.zone, hend.pointer, hend.partGrants⟩

theorem Ev.EndsRun.arbiterRan {gs : List LineNo} (h : d.EndsRun t gs e) (hs : s.SameForArbiter d.toState) :
    s.ArbiterRan t gs fun m => (d.line m).tagCounter :=
  h.runs.arbiterRan h.whole hs h.lines h.zone h.pointer h.partGrants

/-- Where the part is not ATTACHED the arbiter grants nothing. -/
theorem Ev.EndsRun.none {gs : List LineNo} (h : d.EndsRun t gs e) (ha : d.port.state ≠ .attached) : gs = [] := by
  cases gs with
  | nil => rfl
  | cons n l => exact absurd (h.runs.each 0 n rfl).1.1 ha

theorem Ev.EndsRun.line {gs : List LineNo} (h : d.EndsRun t gs e) (m : LineNo) : t.line m = e.line m :=
  congrArg (fun ls : Vector Line 16 => ls[m]) h.lines

/-! ### The expiry -/

theorem exec_moveTimeout (h : s.regionsInMemory = true) (hm : (s.zone u z).state = .moving) (ht : (s.zone u z).moveTimer.isSome = true) :
    exec (.moveTimeout u z) s = .next ((s.landed []).stallZone u z).settle.toState := by
  have hx : exec (.moveTimeout u z) s = act s fun e =>
    if (e.zone u z).state = .moving ∧ (e.zone u z).moveTimer.isSome then e.stallZone u z else e := rfl
  rw [hx, act_landed h]
  exact congrArg (fun g : Ev => Host.Outcome.next g.settle.toState) (if_pos ⟨hm, ht⟩)

/-- A line with a key halted (R67). -/
theorem Ev.haltKey_line (e : Ev) (n m : LineNo) (z : ZoneNo) : ∃ q : CommandQueue, (e.haltKey n z).line m = if n = m then
    { e.line m with queue := q } else e.line m := by
  unfold Ev.haltKey Ev.updQueue
  split
  · exact ⟨_, Ev.updLine_line _ _ _ _⟩
  · exact ⟨_, Ev.updLine_line _ _ _ _⟩

theorem Ev.haltKey_frames (e : Ev) (n : LineNo) (z : ZoneNo) : (e.haltKey n z).frameQueued n z = false := by
  unfold Ev.haltKey
  split
  · unfold State.frameQueued Ev.updQueue
    rw [Ev.updLine_line, if_pos rfl]
    simp
  · next h =>
    have hq : (e.updQueue n fun q => { q with halts := q.halts ++ [z] }).frameQueued n z = e.frameQueued n z := by
      unfold State.frameQueued Ev.updQueue
      rw [Ev.updLine_line, if_pos rfl]
    exact hq.trans (Bool.eq_false_iff.2 h)

theorem Ev.haltKey_halts (h : e.frameQueued n z = false) : z ∈ ((e.haltKey n z).line n).queue.halts := by
  unfold Ev.haltKey Ev.updQueue
  rw [h, if_neg (by decide), Ev.updLine_line, if_pos rfl]
  exact List.mem_append_right _ List.mem_cons_self

/-- A MOVING zone whose timer has expired (R64). -/
structure Ev.Stalls (u : UnitNo) (z : ZoneNo) (d e : Ev) : Prop where
  zone : e.zone u z = { (d.zone u z).entering .faulted with faultCause := some .stalled }
  others : ∀ v y, ¬(u = v ∧ z = y) → e.zone v y = d.zone v y
  line : ∀ m, ∃ q : CommandQueue, e.line m = if u = m then { (d.line m).leaving .moving z with queue := q } else d.line m
  frames : e.frameQueued u z = false
  halts : d.frameQueued u z = false → z ∈ (e.line u).queue.halts
  partGrants : e.partGrants = d.partGrants - 1
  pointer : e.pointer = d.pointer
  port : e.port.state = d.port.state ∧ e.port.anchor = d.port.anchor
  due : e.arbiterDue = true
  notice : e.noticePending .zoneFault = true

theorem Ev.changeState_releases {new : ZoneState} (hm : (e.zone u z).state = .moving) (hn : new ≠ .moving) : (e.changeState u z new).arbiterDue = true := by
  have hne : ¬(e.zone u z).state = new := fun j => hn (j.symm.trans hm)
  unfold Ev.changeState
  dsimp only
  rw [if_neg hne, if_pos hm, if_neg (by rw [hm]; decide)]
  rfl

theorem Ev.changeState_pointer (e : Ev) (u : UnitNo) (z : ZoneNo) (new : ZoneState) : (e.changeState u z new).pointer = e.pointer := by
  unfold Ev.changeState
  dsimp only
  split
  · rfl
  · split
    · split <;> rfl
    · split <;> rfl

theorem Ev.haltKey_rest (e : Ev) (n : LineNo) (z : ZoneNo) : (e.haltKey n z).partGrants = e.partGrants ∧ (e.haltKey n z).pointer = e.pointer
    ∧ (e.haltKey n z).port = e.port := by
  unfold Ev.haltKey
  split <;> exact ⟨rfl, rfl, rfl⟩

theorem Ev.enterFaulted_due {c : FaultCause} (hm : (e.zone u z).state = .moving) : (e.enterFaulted u z c).arbiterDue = true :=
  Ev.changeState_releases (new := .faulted) hm (by decide)

theorem Ev.enterFaulted_pointer (e : Ev) (u : UnitNo) (z : ZoneNo) (c : FaultCause) : (e.enterFaulted u z c).pointer = e.pointer :=
  Ev.changeState_pointer e u z .faulted

theorem Ev.enterFaulted_port (e : Ev) (u : UnitNo) (z : ZoneNo) (c : FaultCause) : (e.enterFaulted u z c).port.state = e.port.state
    ∧ (e.enterFaulted u z c).port.anchor = e.port.anchor := by
  have h := Ev.changeState_port (e := e) (u := u) (z := z) (new := .faulted)
  have hf : (e.enterFaulted u z c).port = { (e.changeState u z .faulted).port with notices := (e.enterFaulted u z c).port.notices } := rfl
  rw [hf, h]
  exact ⟨rfl, rfl⟩

theorem Ev.enterFaulted_notice (e : Ev) (u : UnitNo) (z : ZoneNo) (c : FaultCause) : (e.enterFaulted u z c).noticePending .zoneFault = true := by
  unfold Ev.enterFaulted
  rw [Ev.noticePending_raise]
  exact Bool.or_true _

/-- A MOVING zone that is faulted. -/
theorem Ev.stalls_enterFaulted (hm : (e.zone u z).state = .moving) (hq : e.frameQueued u z = false) (hd : d.zone u z = e.zone u z)
    (hz : ∀ v y, e.zone v y = d.zone v y) (hl : ∀ m, ∃ q : CommandQueue, e.line m = if u = m then { d.line m with queue := q } else d.line m)
    (hh : d.frameQueued u z = false → z ∈ (e.line u).queue.halts) (hg : e.partGrants = d.partGrants) (hp : e.pointer = d.pointer)
    (hport : e.port = d.port) : d.Stalls u z (e.enterFaulted u z .stalled) := by
  have hne : (e.zone u z).state ≠ .faulted := by rw [hm]; decide
  have hline (m : LineNo) := Ev.enterFaulted_line (c := .stalled) hne m
  have hself : ((e.enterFaulted u z .stalled).line u).queue = (e.line u).queue := by rw [hline, if_pos rfl]; rfl
  refine ⟨?_, fun v y j => ?_, fun m => ?_, ?_, fun k => ?_, ?_, (e.enterFaulted_pointer u z _).trans hp, ?_, Ev.enterFaulted_due hm,
    e.enterFaulted_notice u z _⟩
  · rw [Ev.enterFaulted_zone hne, if_pos ⟨rfl, rfl⟩, hd]
  · rw [Ev.enterFaulted_zone hne, if_neg j, hz]
  · obtain ⟨q, hq⟩ := hl m
    refine ⟨q, ?_⟩
    rw [hline, hq, hm]
    split <;> rfl
  · unfold State.frameQueued at hq ⊢
    rwa [hself]
  · rw [hself]
    exact hh k
  · rw [Ev.enterFaulted_partGrants hne, if_pos hm, hg]
  · rw [(e.enterFaulted_port u z _).1, (e.enterFaulted_port u z _).2, hport]
    exact ⟨rfl, rfl⟩

theorem Ev.stallZone_stalls (hm : (e.zone u z).state = .moving) : e.Stalls u z (e.stallZone u z) := by
  have hzone (v : UnitNo) (y : ZoneNo) : (e.haltKey u z).zone v y = e.zone v y := Ev.haltKey_zone u z
  obtain ⟨hpart, hpointer, hport⟩ := e.haltKey_rest u z
  exact Ev.stalls_enterFaulted (by rw [hzone]; exact hm) (e.haltKey_frames u z) (hzone u z).symm hzone (fun m => e.haltKey_line u m z) Ev.haltKey_halts hpart
    hpointer hport

/-- The arbiter finds what the expiry left as it finds the state with the grant released. -/
theorem Ev.Stalls.forArbiter (h : (s.landed []).Stalls u z e) (hserves : (s.landed []).Serves e) (haims : ∀ v y, (s.zone v y).SameAims (e.zone v y)) :
    (s.withGrantReleased u).SameForArbiter e.toState := by
  have hreleased (m : LineNo) : (s.withGrantReleased u).line m = if u = m then { s.line m with grants := (s.line m).grants - 1 } else s.line m :=
    Ev.updLine_line (s.landed []) u m fun l => { l with grants := l.grants - 1 }
  have hlists (m : LineNo) : (e.line m).pendingList = ((s.withGrantReleased u).line m).pendingList := by
    obtain ⟨q, hq⟩ := h.line m
    rw [hq, hreleased]
    split <;> rfl
  refine ⟨by rw [h.port.1]; rfl, hlists, fun m => ?_, fun m => ?_, fun v => (hserves.settings v).config, fun m p _ => (haims m p.zone).target, h.partGrants,
    h.pointer, by rw [State.driveBudget, h.port.2]; rfl⟩
  · obtain ⟨q, hq⟩ := h.line m
    rw [hq, hreleased]
    split <;> rfl
  · rw [(hserves.service m).keyTags, hreleased]
    split <;> rfl

theorem Ev.Stalls.tagCounter (h : d.Stalls u z e) (m : LineNo) : (e.line m).tagCounter = (d.line m).tagCounter := by
  obtain ⟨q, hq⟩ := h.line m
  rw [hq]
  split <;> rfl

theorem Ev.Stalls.grants (h : d.Stalls u z e) (m : LineNo) : (e.line m).grants = if m = u then (d.line u).grants - 1 else (d.line m).grants := by
  obtain ⟨q, hq⟩ := h.line m
  rw [hq]
  by_cases j : u = m
  · subst j
    rw [if_pos rfl, if_pos rfl]
    rfl
  · rw [if_neg j, if_neg (Ne.symm j)]

/-- Settles O37: the zone is STALLED and its key halted, and the arbiter runs on the grants left. -/
theorem moveTimeoutStallsTheZone : Obligations.MoveTimeoutStallsTheZone := by
  intro s u z h hl hm ht
  refine ⟨_, exec_moveTimeout h hm ht, ?_⟩
  have hG : (s.landed []).Goes noUnit (· ∈ s.heldSlots) ((s.landed []).stallZone u z) := (s.landed_goes [] noUnit).stallZone u z
  have hS : (s.landed []).Stalls u z ((s.landed []).stallZone u z) := Ev.stallZone_stalls (e := s.landed []) hm
  have hout : s.SameOutside ((s.landed []).stallZone u z).settle.toState :=
    Ev.has_settle (stable_sameOutside s) (Ev.has_stallZone (stable_sameOutside s) (e := s.landed []) ⟨rfl, rfl, rfl, rfl, rfl, rfl⟩ u z)
  have hlaw : ((s.landed []).stallZone u z).toState.pendingLawful := Keeps.stallZone Ev.keeps_pendingLawful u z (e := s.landed []) hl
  generalize (s.landed []).stallZone u z = e at *
  obtain ⟨gs, f, hE⟩ := Ev.settle_run hlaw hS.due
  have hne : (e.zone u z).state ≠ .pending := by
    rw [hS.zone]
    exact ZoneState.noConfusion
  have hzone : e.settle.zone u z = e.zone u z := (Ev.settle_arbitrated hlaw u z).zone hne
  have hframes : e.settle.frameQueued u z = false := by
    rw [State.frameQueued_eq, Ev.settle_frames hlaw hne, ← State.frameQueued_eq]
    exact hS.frames
  have hnotice := e.settle_notice .zoneFault hS.notice
  have hserves := hG.serves
  have haims : ∀ v y, (s.zone v y).SameAims (e.zone v y) := fun v => (hG.others v not_false).aims
  have hlines := e.settle_settled.line
  have hsettings : ∀ v, (e.unit v).SameSettings (e.settle.unit v) := fun v =>
    have hs := e.settle_settled
    ⟨hs.config v, hs.currentSweep v, hs.loopOn v, hs.loopParams v, hs.waiting v, hs.staged v, hs.sweepFault v⟩
  have haims' := e.settle_settled.zone
  have hmirrors := hG.settled.mirrors
  have hstate : ((s.landed []).zone u z).state = .moving := hm
  have hleft : ((s.landed []).zone u z).entering .faulted = { (s.landed []).zone u z with
      state := .faulted, faultCause := none, samples := ((s.landed []).zone u z).samples, commanded := none, moveKind := none, moveTag := none, moveTimer := none } := by
    rw [Zone.entering, hstate]
    rfl
  have hstalled : e.settle.zone u z = _ := hzone.trans (hS.zone.trans (congrArg (fun r : Zone => { r with faultCause := some .stalled }) hleft))
  generalize e.settle.toState = t at *
  refine ⟨by rw [hstalled], by rw [hstalled], by rw [hstalled], by rw [hstalled], by rw [hstalled], by rw [hstalled], hnotice, hframes, fun hq => ?_, fun ha => ?_, fun ha => ⟨gs, ?_⟩,
    hmirrors, fun v y => (haims v y).trans (haims' v y), fun v => (hserves.settings v).trans (hsettings v), fun m => (hserves.service m).trans (hlines m), hout⟩
  · rw [hE.line]
    exact hE.runs.halts u z (hS.halts hq) hne
  · obtain rfl := hE.none (by rw [hS.port.1]; exact ha)
    refine ⟨hE.partGrants.trans (hE.runs.partGrants.trans hS.partGrants), fun n => ?_⟩
    rw [hE.line, hE.runs.grants]
    exact hS.grants n
  · have hR := hE.arbiterRan (hS.forArbiter hserves haims)
    rwa [show (fun m => (e.line m).tagCounter) = fun m => (s.line m).tagCounter from funext hS.tagCounter] at hR

end Sys2Proof.Machine
end

