-- ==== Sys2Proof/Proofs/StartTimers.lean ====
section
/-! PROOFS. The start timer's expiry (R75, R77): the line is brought into service, the fountain pursued, the arbiter run, and the first cycle
begins. -/

namespace Sys2Proof.Machine

open Decode

variable {U : UnitNo → Prop} {K : Nat → Prop} {d e f : Ev} {s t : State} {n m : LineNo} {u v : UnitNo} {z y : ZoneNo} {x : Nat}

/-! ### The pursuit of a fountain with no move in flight -/

/-- The line of a pursuit: its queue, its tag counter and its fountain alone change (R92). -/
structure Line.Pursued (l l' : Line) : Prop where
  power : l'.power = l.power
  stopTaken : l'.stopTaken = l.stopTaken
  startTimer : l'.startTimer = l.startTimer
  grants : l'.grants = l.grants

theorem Line.Pursued.refl (l : Line) : l.Pursued l := ⟨rfl, rfl, rfl, rfl⟩

theorem Line.Pursued.trans {l l' l'' : Line} (h : l.Pursued l') (k : l'.Pursued l'') : l.Pursued l'' :=
  ⟨k.power.trans h.power, k.stopTaken.trans h.stopTaken, k.startTimer.trans h.startTimer, k.grants.trans h.grants⟩

/-- What a pursuit leaves of the machine beside the zones (R92). -/
structure Ev.PursuedOn (n : LineNo) (d e : Ev) : Prop where
  line : ∀ m, (d.line m).Pursued (e.line m)
  orders : d.SameOrders e
  partGrants : e.partGrants = d.partGrants
  pointer : e.pointer = d.pointer

namespace Ev.PursuedOn

theorem refl (n : LineNo) (e : Ev) : e.PursuedOn n e := ⟨fun _ => .refl _, .refl e, rfl, rfl⟩

theorem trans (h : d.PursuedOn n e) (k : e.PursuedOn n f) : d.PursuedOn n f :=
  ⟨fun m => (h.line m).trans (k.line m), h.orders.trans k.orders, k.partGrants.trans h.partGrants, k.pointer.trans h.pointer⟩

theorem updLine (h : d.PursuedOn n e) (g : Line → Line) (hg : ∀ l : Line, l.Pursued (g l)) : d.PursuedOn n (e.updLine n g) :=
  h.trans ⟨fun m => by
    rw [Ev.updLine_line]
    split
    · exact hg _
    · exact .refl _, .of_units rfl, rfl, rfl⟩

theorem updFountain (h : d.PursuedOn n e) (g : Fountain → Fountain) : d.PursuedOn n (e.updFountain n g) :=
  h.updLine _ (by exact fun _ => ⟨rfl, rfl, rfl, rfl⟩)

theorem updQueue (h : d.PursuedOn n e) (g : CommandQueue → CommandQueue) : d.PursuedOn n (e.updQueue n g) :=
  h.updLine _ (by exact fun _ => ⟨rfl, rfl, rfl, rfl⟩)

theorem sendSweep (h : d.PursuedOn n e) (x : Nat) : d.PursuedOn n (e.sendSweep n x) := by
  unfold Ev.sendSweep
  have htag := h.updLine (fun l => { l with tagCounter := e.nextSweepTag n + 1 }) (by exact fun _ => ⟨rfl, rfl, rfl, rfl⟩)
  exact (htag.updQueue _).updFountain _

theorem setSweepFault (h : d.PursuedOn n e) (on : Bool) : d.PursuedOn n (e.setSweepFault n on) := by
  unfold Ev.setSweepFault
  split
  · exact h
  · exact h.trans ⟨fun _ => .refl _, ((Ev.SameOrders.refl e).updUnit n (fun r => { r with sweepFault := on }) (by exact fun _ => ⟨rfl, rfl⟩)).oweMirror n, rfl, rfl⟩

theorem pursueTo (h : d.PursuedOn n e) (x : Nat) : d.PursuedOn n (e.pursueTo n x) := by
  unfold Ev.pursueTo
  split
  · split
    · exact h
    · split
      · exact h.sendSweep x
      · exact (h.updFountain _).setSweepFault true
      · exact h
  · split
    · exact h
    · split
      · exact (h.updQueue _).updFountain _
      · exact h.sendSweep x

theorem pursueAfresh (h : d.PursuedOn n e) : d.PursuedOn n (e.pursueAfresh n) := by
  have h0 := h.updFountain fun f => { f with pursuit := true }
  unfold Ev.pursueAfresh Ev.pursue
  split
  · split
    · exact h0.pursueTo _
    · exact h0
  · exact h0

end Ev.PursuedOn

/-- The pursuit sends nothing, or one SWEEP (R92). -/
def Line.Sweeps (l l' : Line) : Prop :=
  match l'.fountain.move with
  | none => l'.tagCounter = l.tagCounter ∧ l'.queue = l.queue
  | some f => l'.tagCounter = f.tag + 1 ∧ f.tag = nextTag l.tagCounter l.fountainTags
    ∧ l'.queue.motion = l.queue.motion ++ [.sweep f.value f.tag]

theorem Ev.pursueTo_sweeps (hm : (e.line n).fountain.move = none) : (e.line n).Sweeps ((e.pursueTo n x).line n) := by
  have hsame : (e.line n).Sweeps (e.line n) := by
    unfold Line.Sweeps
    rw [hm]
    exact ⟨rfl, rfl⟩
  unfold Ev.pursueTo
  rw [hm]
  dsimp only
  split
  · exact hsame
  · split
    · rw [Ev.sendSweep_line]
      exact ⟨rfl, rfl, rfl⟩
    · have hl := ((e.updFountain n fun r => { r with pursuit := false }).setSweepFault_lines n true).1
      have hn : (e.faultHandOver n).line n = { e.line n with fountain := { (e.line n).fountain with pursuit := false } } :=
        (congrArg (fun ls : Vector Line 16 => ls[n]) hl).trans (Ev.updLine_line_self _ _ _)
      rw [hn]
      unfold Line.Sweeps
      dsimp only
      rw [hm]
      exact ⟨rfl, rfl⟩
    · exact hsame

theorem Ev.pursueAfresh_sweeps (hm : (e.line n).fountain.move = none) : (e.line n).Sweeps ((e.pursueAfresh n).line n) := by
  have hline : (e.pursuing n).line n = { e.line n with fountain := { (e.line n).fountain with pursuit := true } } := Ev.updLine_line_self _ _ _
  have hm' : ((e.pursuing n).line n).fountain.move = none := by rw [hline]; exact hm
  have hback : ∀ l', ((e.pursuing n).line n).Sweeps l' → (e.line n).Sweeps l' := fun l' h => by
    rw [hline] at h
    exact h
  have hsame : ((e.pursuing n).line n).Sweeps ((e.pursuing n).line n) := by
    unfold Line.Sweeps
    rw [hm']
    exact ⟨rfl, rfl⟩
  refine hback _ ?_
  show ((e.pursuing n).line n).Sweeps (((e.pursuing n).pursue n).line n)
  unfold Ev.pursue
  split
  · split
    · exact Ev.pursueTo_sweeps hm'
    · exact hsame
  · exact hsame

/-! ### Into service -/

/-- A line whose power is on, its missed cycles 0 (R75). -/
def Line.poweredOn (l : Line) : Line :=
  { l with startTimer := none, power := .on, modules := Vector.ofFn fun a : Fin 9 => { l.modules[a] with missed := 0 } }

/-- The fountain is pursued and the arbiter runs, while the part is ATTACHED (R75). -/
def Ev.serving (e : Ev) (n : LineNo) : Ev := if e.attached then (e.pursueAfresh n).runArbiter else e

theorem Ev.bringIntoService_eq (e : Ev) (n : LineNo) :
    e.bringIntoService n = ((((e.updLine n Line.poweredOn).serving n).updLine n Line.beginCycle).endLinePower n true).oweLine n := by
  unfold Ev.bringIntoService
  dsimp only
  rw [Ev.updModules, Ev.updLine_twice]
  rfl

/-- What the pursuit and the arbiter leave (R75). -/
structure Ev.Serving (n : LineNo) (d e : Ev) : Prop where
  due : e.arbiterDue = false
  orders : d.SameOrders e
  aims : ∀ v y, (d.zone v y).SameAims (e.zone v y)
  standing : ∀ m, (e.line m).power = (d.line m).power ∧ (e.line m).stopTaken = (d.line m).stopTaken ∧ (e.line m).startTimer = (d.line m).startTimer
    ∧ (e.line m).modules = (d.line m).modules
  unattached : d.port.state ≠ .attached → e = d

theorem Ev.serving_serves (hd : e.arbiterDue = false) (n : LineNo) : e.Serving n (e.serving n) := by
  unfold Ev.serving
  by_cases ha : e.attached = true
  · rw [if_pos ha]
    have hP := (Ev.PursuedOn.refl n e).pursueAfresh
    have hQ := (Ev.Pursuing.refl e).pursueAfresh n
    have hG : (e.pursueAfresh n).GrantsOnly (e.pursueAfresh n).runArbiter := Ev.grantsOnly_runArbiter
    refine ⟨rfl, hP.orders.trans fun v => ⟨(hG.unit v).tracked, (hG.unit v).waiting⟩, fun v y => ?_, fun m => ?_, fun j => absurd (of_decide_eq_true ha) j⟩
    · rw [← hQ.zone]
      exact hG.zone v y
    · rw [(hG.line m).power, (hG.line m).stopTaken, (hG.line m).startTimer, (hG.line m).modules, (hP.line m).power, (hP.line m).stopTaken,
        (hP.line m).startTimer, hQ.modules]
      exact ⟨rfl, rfl, rfl, rfl⟩
  · rw [if_neg ha]
    exact ⟨hd, .refl e, fun _ _ => .refl _, fun _ => ⟨rfl, rfl, rfl, rfl⟩, fun _ => rfl⟩

/-- The event in which the line's power is on. -/
def State.poweredOn (s : State) (n : LineNo) : Ev := (s.landed []).updLine n Line.poweredOn

theorem State.poweredOn_line (s : State) (n m : LineNo) : (s.poweredOn n).line m = if n = m then (s.line m).poweredOn else s.line m :=
  Ev.updLine_line _ _ _ _

theorem State.poweredOn_pursued (s : State) (n : LineNo) : s.SameForArbiter ((s.poweredOn n).pursueAfresh n).toState := by
  have hP := (Ev.PursuedOn.refl n (s.poweredOn n)).pursueAfresh
  have hQ := (Ev.Pursuing.refl (s.poweredOn n)).pursueAfresh n
  have hline := s.poweredOn_line n
  refine ⟨by rw [hQ.port]; rfl, fun m => ?_, fun m => ?_, fun m => ?_, hQ.config, fun m p _ => by rw [hQ.zone]; rfl, hP.partGrants, hP.pointer,
    by rw [State.driveBudget, hQ.port]; rfl⟩
  · rw [hQ.pendingList, hline]
    split <;> rfl
  · rw [(hP.line m).grants, hline]
    split <;> rfl
  · rw [hQ.keyTags, hline]
    split <;> rfl

/-- The run of the arbiter as the line comes into service, and where its tags begin (R54, R75). -/
structure State.RanOn (s mid : State) (n : LineNo) (d : Ev) (gs : List LineNo) : Prop where
  ran : s.ArbiterRan mid gs fun m => (d.line m).tagCounter
  others : ∀ m, m ≠ n → (d.line m).tagCounter = (s.line m).tagCounter
  sweeps : (s.line n).fountain.move = none → (s.line n).Sweeps (d.line n)
  fountain : (mid.line n).fountain = (d.line n).fountain
  motion : (d.line n).queue.motion <+: (mid.line n).queue.motion

theorem State.poweredOn_ran (hl : s.pendingLawful) (ha : s.port.state = .attached) (n : LineNo) :
    ∃ d gs, s.RanOn ((s.poweredOn n).serving n).toState n d gs := by
  have hline := s.poweredOn_line n
  have hlaw : ((s.poweredOn n).pursueAfresh n).toState.pendingLawful :=
    Ev.keeps_pendingLawful.quiet (e := s.poweredOn n) (hl.of_same (fun _ _ => rfl) fun m => by
      rw [hline]
      split <;> rfl) (.pursueAfresh (.refl _) n)
  obtain ⟨gs, hR, hw⟩ := Ev.runArbiter_runs hlaw
  have hserve : (s.poweredOn n).serving n = ((s.poweredOn n).pursueAfresh n).runArbiter := if_pos (decide_eq_true ha)
  have hself : (s.poweredOn n).line n = (s.line n).poweredOn := (hline n).trans (if_pos rfl)
  rw [hserve]
  refine ⟨(s.poweredOn n).pursueAfresh n, gs, hR.arbiterRan hw (s.poweredOn_pursued n) rfl (fun _ _ => rfl) rfl rfl, fun m hm => ?_, fun hm => ?_,
    (hR.service n).fountain, hR.motion n⟩
  · rw [Ev.pursueAfresh_other _ hm, hline, if_neg (Ne.symm hm)]
  · have h := Ev.pursueAfresh_sweeps (e := s.poweredOn n) (n := n) (by rw [hself]; exact hm)
    rw [hself] at h
    exact h

theorem Ev.Goes.serving (h : d.Goes U K e) (hn : U n) : d.Goes U K (e.serving n) := by
  unfold Ev.serving
  split
  · exact (h.pursueAfresh hn).runArbiter
  · exact h

theorem exec_startTimerExpiry (h : s.regionsInMemory = true) (ht : (s.line n).startTimer.isSome = true) :
    exec (.startTimerExpiry n) s = .next ((s.landed []).startTimerExpiry n).settle.toState := by
  have hx : exec (.startTimerExpiry n) s = act s fun e => if (e.line n).startTimer.isSome then e.startTimerExpiry n else e := rfl
  rw [hx, act_landed h]
  exact congrArg (fun g : Ev => Host.Outcome.next g.settle.toState) (if_pos ht)

theorem Line.beginCycle_rest (l : Line) : l.beginCycle.startTimer = l.startTimer ∧ l.beginCycle.power = l.power ∧ l.beginCycle.modules = l.modules :=
  ⟨l.beginCycle_began.startTimer, l.beginCycle_began.power, l.beginCycle_began.modules⟩

/-- The expiry for a line whose stop is taken (R77). -/
theorem startTimerExpiry_stops (hs : (s.line n).stopTaken = true) :
    Line.CycleBegan { s.line n with startTimer := none } (((s.landed []).startTimerExpiry n).settle.line n)
      ∧ (∀ m, m ≠ n → ((s.landed []).startTimerExpiry n).settle.line m = s.line m)
      ∧ ((s.landed []).startTimerExpiry n).settle.units = s.units ∧ ((s.landed []).startTimerExpiry n).settle.partGrants = s.partGrants
      ∧ ((s.landed []).startTimerExpiry n).settle.pointer = s.pointer ∧ ((s.landed []).startTimerExpiry n).settle.mem = s.mem := by
  have heq : (s.landed []).startTimerExpiry n = (s.landed []).updLine n fun l => Line.beginCycle { l with startTimer := none } := if_pos hs
  obtain ⟨k, hk⟩ := (Ev.idle_updLine s.writesDone n fun l => Line.beginCycle { l with startTimer := none }).settle
  have hsettle : ((s.landed []).startTimerExpiry n).settle.toState = _ := (congrArg (fun g : Ev => g.settle.toState) heq).trans hk
  have hline (m : LineNo) := (s.landed []).updLine_line n (m := m) (f := fun l => Line.beginCycle { l with startTimer := none })
  rw [hsettle]
  refine ⟨?_, fun m hm => (hline m).trans (if_neg (Ne.symm hm)), rfl, rfl, rfl, rfl⟩
  have hn := (hline n).trans (if_pos rfl)
  exact hn ▸ Line.beginCycle_began _

theorem Ev.Goes.startTimerExpiry (h : d.Goes U K e) (hn : U n) : d.Goes U K (e.startTimerExpiry n) := by
  unfold Ev.startTimerExpiry
  split
  · exact h.updLine n _ fun j => absurd hn j
  · rw [Ev.bringIntoService_eq]
    exact ((((h.updLine n Line.poweredOn fun j => absurd hn j).serving hn).updLine n Line.beginCycle fun j => absurd hn j).endLinePower n true).oweLine n

theorem Ev.EndsOnly.endLinePower (h : d.EndsOnly e) (n : LineNo) (on : Bool) : d.EndsOnly (e.endLinePower n on) := by
  unfold Ev.endLinePower
  split
  · split
    · exact h.endTracked n _ _
    · exact h
  · exact h

/-- The end of an event that owes the arbiter no run. -/
theorem Ev.EndsOnly.settled (h : d.EndsOnly e) (hd : e.arbiterDue = false) : d.EndsOnly e.settle := by
  have hA : e.settleArbiter = e := by rw [Ev.settleArbiter, hd]; rfl
  have hs : e.settle = e.runTests.flush := congrArg (fun g : Ev => g.runTests.flush) hA
  rw [hs]
  exact h.runTests.flush

/-- What the expiry leaves of a line that comes into service: `mid` is the machine as the first cycle begins. -/
structure State.CameOn (s mid t : State) (n : LineNo) : Prop where
  began : (mid.line n).CycleBegan (t.line n)
  others : ∀ m, m ≠ n → mid.line m = t.line m
  zone : ∀ v z, mid.zone v z = t.zone v z
  pointer : mid.pointer = t.pointer
  partGrants : mid.partGrants = t.partGrants
  ended : s.PowerEnded t n true

theorem startTimerExpiry_comesOn (hs : (s.line n).stopTaken = false) :
    s.CameOn ((s.poweredOn n).serving n).toState ((s.landed []).startTimerExpiry n).settle.toState n := by
  have heq : (s.landed []).startTimerExpiry n = ((((s.poweredOn n).serving n).updLine n Line.beginCycle).endLinePower n true).oweLine n := by
    have hstop : ¬((s.landed []).line n).stopTaken = true := by
      show ¬(s.line n).stopTaken = true
      rw [hs]
      decide
    exact (if_neg hstop).trans (Ev.bringIntoService_eq _ n)
  have hS := Ev.serving_serves (e := s.poweredOn n) rfl n
  have horders : (s.landed []).SameOrders (((s.poweredOn n).serving n).updLine n Line.beginCycle) :=
    (((Ev.SameOrders.refl (s.landed [])).same (f := s.poweredOn n) rfl).trans hS.orders).same rfl
  have hgoes : (s.landed []).Goes (· = n) (· ∈ s.heldSlots) (((s.poweredOn n).serving n).updLine n Line.beginCycle) :=
    ((((s.landed_goes [] (· = n)).updLine n Line.poweredOn fun j => absurd rfl j : (s.landed []).Goes _ _ (s.poweredOn n)).serving rfl).updLine n
      Line.beginCycle fun j => absurd rfl j)
  have hended : s.PowerEnded ((s.landed []).startTimerExpiry n).settle.toState n true := by
    rw [heq]
    exact horders.endLinePower hgoes
  generalize (s.poweredOn n).serving n = e at *
  rw [heq] at hended ⊢
  have hend : (e.updLine n Line.beginCycle).EndsOnly (((e.updLine n Line.beginCycle).endLinePower n true).oweLine n).settle :=
    Ev.EndsOnly.settled (((Ev.EndsOnly.refl _).endLinePower n true).congr rfl)
      ((Ev.Quiet.endLinePower (.refl (e.updLine n Line.beginCycle)) n true).arbiterDue.trans hS.due)
  have hline (m : LineNo) := (congrArg (fun ls : Vector Line 16 => ls[m]) hend.lines).trans (Ev.updLine_line e n m Line.beginCycle)
  have hn : (((e.updLine n Line.beginCycle).endLinePower n true).oweLine n).settle.line n = (e.line n).beginCycle := (hline n).trans (if_pos rfl)
  refine ⟨?_, fun m hm => ((hline m).trans (if_neg (Ne.symm hm))).symm, fun v z => (hend.zone v z).symm, hend.pointer.symm, hend.partGrants.symm, hended⟩
  rw [hn]
  exact Line.beginCycle_began _

/-- Settles O33: the start timer's expiry brings a line into service, or begins its last cycle. -/
theorem startTimerBringsALineOn : Obligations.StartTimerBringsALineOn := by
  intro s n h ht
  refine ⟨_, exec_startTimerExpiry h ht, ?_⟩
  have hG := (s.landed_goes [] (· = n)).startTimerExpiry (n := n) rfl
  have hout : s.SameOutside ((s.landed []).startTimerExpiry n).settle.toState :=
    Ev.has_settle (stable_sameOutside s) (Ev.has_startTimerExpiry (stable_sameOutside s) (e := s.landed []) ⟨rfl, rfl, rfl, rfl, rfl, rfl⟩ n)
  have hmirrors := hG.settled.mirrors
  have hothers : ∀ m, m ≠ n → (s.line m).SameService (((s.landed []).startTimerExpiry n).settle.line m)
      ∧ (s.unit m).SameSettings (((s.landed []).startTimerExpiry n).settle.unit m) := fun m hm => by
    have hm' := hG.settled.others m hm
    exact ⟨hm'.service, hm'.settings⟩
  by_cases hstop : (s.line n).stopTaken = true
  · have hS := startTimerExpiry_stops hstop
    have haims : ∀ v z, (s.zone v z).SameAims (((s.landed []).startTimerExpiry n).settle.zone v z) := fun v z => by
      have hz : ((s.landed []).startTimerExpiry n).settle.zone v z = s.zone v z :=
        congrArg (fun us : Vector UnitRec 16 => (us[v]).zones[z]) hS.2.2.1
      rw [hz]
      exact .refl _
    refine ⟨hS.1.startTimer, ?_, hmirrors, haims, hothers, hout⟩
    rw [if_pos hstop]
    exact hS
  · have hC := startTimerExpiry_comesOn (s := s) (Bool.eq_false_iff.2 hstop)
    have hS := Ev.serving_serves (e := s.poweredOn n) rfl n
    have hran := fun (ha : s.port.state = .attached) (hl : s.pendingLawful) => s.poweredOn_ran hl ha n
    generalize ((s.landed []).startTimerExpiry n).settle.toState = t at *
    generalize (s.poweredOn n).serving n = e at *
    obtain ⟨h1, h2, h3, h4⟩ := hS.standing n
    rw [s.poweredOn_line n n, if_pos rfl] at h1 h2 h3 h4
    have haims : ∀ v z, (s.zone v z).SameAims (t.zone v z) := fun v z => by
      rw [← hC.zone]
      exact hS.aims v z
    refine ⟨hC.began.startTimer.trans h3, ?_, hmirrors, haims, hothers, hout⟩
    rw [if_neg hstop]
    refine ⟨hC.began.power.trans h1, fun m => ?_, fun o ho hk => ⟨hC.ended.tracked o ho hk, hC.ended.shows o ho hk⟩, e.toState, hC.began, h1, h2.trans (Bool.eq_false_iff.2 hstop),
      hC.others, hC.zone, hC.pointer, hC.partGrants, fun ha => ?_, fun ha hl => ?_⟩
    · rw [hC.began.modules, h4]
      simp [Line.poweredOn]
    · have he : e = s.poweredOn n := hS.unattached ha
      subst he
      refine ⟨by rw [s.poweredOn_line n n, if_pos rfl]; rfl, fun v z => (hC.zone v z).symm, fun m hm => ?_, hC.partGrants.symm⟩
      rw [← hC.others m hm, s.poweredOn_line n m, if_neg (Ne.symm hm)]
    · obtain ⟨d, gs, hR⟩ := hran ha hl
      refine ⟨gs, _, hR.ran, hR.others, fun hm => ?_⟩
      have hw := hR.sweeps hm
      unfold Line.Sweeps at hw
      rw [← hR.fountain] at hw
      cases hf : (e.line n).fountain.move with
      | none =>
        rw [hf] at hw
        exact ⟨hw.1, by rw [← hw.2]; exact hR.motion⟩
      | some f =>
        rw [hf] at hw
        exact ⟨hw.1, hw.2.1, by rw [← hw.2.2]; exact hR.motion⟩

end Sys2Proof.Machine
end

