-- ==== Sys2Proof/Proofs/StoppedLines.lean ====
section
/-! PROOFS. What a line that stops or trips takes with it (R68 to R70, R94, R177): its MOVING zones, its sweep move and its unit's order. -/

namespace Sys2Proof.Machine

open Decode

variable {U : UnitNo → Prop} {K : Nat → Prop} {d e f : Ev} {s t : State} {n m : LineNo} {u v : UnitNo} {z y : ZoneNo} {a : Anchor} {o : OrderRecord}
  {c : Cause} {host : List HostWrite}

/-! ### The moves that return -/

/-- A zone whose move is returned (R68): PENDING if it was MOVING, and else as it stood. -/
structure Zone.Returned (r r' : Zone) : Prop where
  moving : r.state = .moving → r'.state = .pending
  other : r.state ≠ .moving → r' = r

theorem Ev.returnZone_returned (e : Ev) (u : UnitNo) (z : ZoneNo) : (e.zone u z).Returned ((e.returnZone u z).zone u z) := by
  unfold Ev.returnZone
  by_cases hm : (e.zone u z).state = .moving
  · have hp : (e.zone u z).state ≠ .pending := by rw [hm]; decide
    rw [if_pos hm, Ev.updZone_zone_self, Ev.enterPending_zone hp, if_pos ⟨rfl, rfl⟩]
    exact ⟨fun _ => rfl, fun j => absurd hm j⟩
  · rw [if_neg hm]
    exact ⟨fun j => absurd j hm, fun _ => rfl⟩

theorem treatsAlone_returnZone (u : UnitNo) : TreatsAlone u fun e z => e.returnZone u z where
  only e z := by
    unfold Ev.returnZone
    split
    · exact ((Ev.OnlyZone.refl u z e).enterPending _).updZone _
    · exact .refl u z e
  frames e z := by
    unfold Ev.returnZone
    split
    · exact ((Ev.OnlyFrames.refl u z e).enterPending _).trans (.of_same fun _ => rfl)
    · exact .refl u z e
  serves e z := ((Ev.Goes.refl (U := noUnit) (K := fun _ => True) fun _ _ _ => trivial).returnZone u z).serves
  lists e z h := Ev.keeps_pendingLawful.returnZone u z h

theorem Ev.returnMoving_returned (e : Ev) (u : UnitNo) (z : ZoneNo) : (e.zone u z).Returned ((e.returnMoving u).zone u z) := by
  obtain ⟨e1, h1, _, _, h4⟩ := (treatsAlone_returnZone u).inside (l := ascending 64) (List.nodup_finRange _) e (List.mem_finRange z)
  have hr := e1.returnZone_returned u z
  rw [h1.zone] at hr
  rw [show (e.returnMoving u).zone u z = _ from h4.zone]
  exact hr

theorem Ev.enterPending_queue (e : Ev) (u : UnitNo) (z : ZoneNo) (k : MoveKind) (m : LineNo) : ((e.enterPending u z k).line m).queue = (e.line m).queue := by
  by_cases hp : (e.zone u z).state = .pending
  · rw [Ev.enterPending_of_pending hp]
  · rw [Ev.enterPending_line hp]
    split <;> rfl

theorem Ev.returnMoving_queue (e : Ev) (u : UnitNo) (m : LineNo) : ((e.returnMoving u).line m).queue = (e.line m).queue := by
  have hstep (f : Ev) (z : ZoneNo) : ((f.returnZone u z).line m).queue = (f.line m).queue := by
    unfold Ev.returnZone
    split
    · exact f.enterPending_queue u z _ m
    · rfl
  have hall (l : List ZoneNo) : ∀ f : Ev, ((l.foldl (fun e z => e.returnZone u z) f).line m).queue = (f.line m).queue := by
    induction l with
    | nil => exact fun _ => rfl
    | cons z l ih => exact fun f => (ih _).trans (hstep f z)
  exact hall _ e

/-! ### The line -/

/-- What a stop or a trip takes with it beside the order: MOVING zones are returned, and the sweep move ends (R68, R94). -/
def Ev.withdrawn (e : Ev) (n : LineNo) : Ev := (e.returnMoving n).endSweepQuietly n

/-- What the withdrawal of its moves leaves of a line and of its unit. -/
structure State.Withdrew (s t : State) (n : LineNo) : Prop where
  returned : ∀ z, (s.zone n z).Returned (t.zone n z)
  aims : ∀ v y, (s.zone v y).SameAims (t.zone v y)
  settings : ∀ v, (s.unit v).SameSettings (t.unit v)
  queue : (t.line n).queue = (s.line n).queue
  power : (t.line n).power = (s.line n).power
  stopTaken : (t.line n).stopTaken = (s.line n).stopTaken
  startTimer : (t.line n).startTimer = (s.line n).startTimer
  cycle : (t.line n).cycle = (s.line n).cycle
  modules : (t.line n).modules = (s.line n).modules
  move : (t.line n).fountain.move = none

/-- The fountain of a line whose sweep move has ended quietly (R94). -/
def Fountain.quieted (f : Fountain) : Fountain := if f.move.isSome then { f with move := none, moveTimer := none, reached := none } else f

theorem Fountain.quieted_move (f : Fountain) : f.quieted.move = none := by
  unfold Fountain.quieted
  split
  · rfl
  · next h => exact Option.not_isSome_iff_eq_none.1 h

theorem Ev.endSweepQuietly_line (e : Ev) (n : LineNo) :
    (e.endSweepQuietly n).line n = { e.line n with fountain := (e.line n).fountain.quieted } := by
  unfold Ev.endSweepQuietly Fountain.quieted
  by_cases h : (e.line n).fountain.move.isSome = true
  · rw [if_pos h, if_pos h]
    exact Ev.updLine_line_self _ _ _
  · rw [if_neg h, if_neg h]

theorem Ev.endSweepQuietly_units (e : Ev) (n : LineNo) : (e.endSweepQuietly n).units = e.units := by
  unfold Ev.endSweepQuietly
  split <;> rfl

theorem Ev.endSweepQuietly_unit (e : Ev) (n : LineNo) (v : UnitNo) : (e.endSweepQuietly n).unit v = e.unit v :=
  congrArg (fun us : Vector UnitRec 16 => us[v]) (e.endSweepQuietly_units n)

theorem Ev.endSweepQuietly_zone (e : Ev) (n : LineNo) (v : UnitNo) (y : ZoneNo) : (e.endSweepQuietly n).zone v y = e.zone v y :=
  congrArg (fun us : Vector UnitRec 16 => (us[v]).zones[y]) (e.endSweepQuietly_units n)

theorem Ev.withdrawn_orders (e : Ev) (n : LineNo) : e.SameOrders (e.withdrawn n) := ((Ev.SameOrders.refl e).returnMoving n).endSweepQuietly n

theorem Ev.withdrawn_withdrew (e : Ev) (n : LineNo) : e.toState.Withdrew (e.withdrawn n).toState n := by
  have hG : e.Goes noUnit (fun _ => True) (e.returnMoving n) := (Ev.Goes.refl fun _ _ _ => trivial).returnMoving n
  have hS := hG.serves
  have hl := hS.service n
  unfold Ev.withdrawn
  refine ⟨fun z => ?_, fun v y => ?_, fun v => ?_, ?_, ?_, ?_, ?_, ?_, ?_, ?_⟩
  · rw [Ev.endSweepQuietly_zone]
    exact e.returnMoving_returned n z
  · rw [Ev.endSweepQuietly_zone]
    exact (hG.others v not_false).aims y
  · rw [Ev.endSweepQuietly_unit]
    exact hS.settings v
  all_goals
    rw [Ev.endSweepQuietly_line]
    dsimp only
  · exact e.returnMoving_queue n n
  · exact hl.power
  · exact hl.stopTaken
  · exact hl.startTimer
  · exact hl.cycle
  · exact hl.modules
  · exact Fountain.quieted_move _

/-- The line and the zones where the orders that units follow alone have changed. -/
theorem State.Withdrew.following {r : State} (h : s.Withdrew r n) (hu : ∀ v, ∃ q, t.unit v = { r.unit v with tracked := q }) (hl : t.lines = r.lines) :
    s.Withdrew t n := by
  have hline : t.line n = r.line n := congrArg (fun ls : Vector Line 16 => ls[n]) hl
  have hzone (v : UnitNo) (y : ZoneNo) : t.zone v y = r.zone v y := by
    obtain ⟨q, hq⟩ := hu v
    show (t.unit v).zones[y] = (r.unit v).zones[y]
    rw [hq]
  refine ⟨fun z => by rw [hzone]; exact h.returned z, fun v y => by rw [hzone]; exact h.aims v y, fun v => ?_, ?_, ?_, ?_, ?_, ?_, ?_, ?_⟩
  · obtain ⟨q, hq⟩ := hu v
    obtain ⟨h1, h2, h3, h4, h5, h6, h7⟩ := h.settings v
    rw [hq]
    exact ⟨h1, h2, h3, h4, h5, h6, h7⟩
  all_goals rw [hline]
  · exact h.queue
  · exact h.power
  · exact h.stopTaken
  · exact h.startTimer
  · exact h.cycle
  · exact h.modules
  · exact h.move

theorem State.Withdrew.same {r : State} (h : s.Withdrew r n) (hu : t.units = r.units) (hl : t.lines = r.lines) : s.Withdrew t n :=
  h.following (fun v => ⟨(r.unit v).tracked, congrArg (fun us : Vector UnitRec 16 => us[v]) hu⟩) hl

theorem State.Withdrew.endTracked (h : s.Withdrew e.toState n) (st : Status) (c : Cause) : s.Withdrew (e.endTracked n st c).toState n := by
  have hC := Ev.endTracked_clearing e n st c
  refine h.following (fun v => ?_) hC.machine.lines
  rw [hC.unit]
  split
  · exact ⟨none, rfl⟩
  · exact ⟨(e.unit v).tracked, rfl⟩

/-- The end of the event gives nothing to a line that is out of service. -/
theorem State.Withdrew.settled (h : s.Withdrew e.toState n) (hs : (e.line n).inService = false) : s.Withdrew e.settle.toState n := by
  have hline := e.settle_line_of_not_inService hs
  have hS := e.settle_settled
  refine ⟨fun z => by rw [Ev.settle_zone_of_not_inService hs]; exact h.returned z, fun v y => (h.aims v y).trans (hS.zone v y), fun v => (h.settings v).trans
    ⟨hS.config v, hS.currentSweep v, hS.loopOn v, hS.loopParams v, hS.waiting v, hS.staged v, hS.sweepFault v⟩, ?_, ?_, ?_, ?_, ?_, ?_, ?_⟩
  all_goals rw [hline]
  · exact h.queue
  · exact h.power
  · exact h.stopTaken
  · exact h.startTimer
  · exact h.cycle
  · exact h.modules
  · exact h.move

/-- The details of an order are those of a unit that reports its zones alike. -/
theorem OrderRecord.finalDetail_congr {r r' : UnitRec} (o : OrderRecord) (hz : ∀ z : ZoneNo, (r'.zones[z]).state = .faulted ↔ (r.zones[z]).state = .faulted)
    (hs : r'.sweepFault = r.sweepFault) (c : Cause) : o.finalDetail r' c = o.finalDetail r c := by
  have hcount : r'.faultedAmong o.zones = r.faultedAmong o.zones := by
    unfold UnitRec.faultedAmong
    congr 1
    funext z
    rw [Bool.eq_iff_iff, beq_iff_eq, beq_iff_eq]
    exact hz z
  unfold OrderRecord.finalDetail
  rw [hcount, hs]

theorem Zone.Returned.faulted {r r' : Zone} (h : r.Returned r') : r'.state = .faulted ↔ r.state = .faulted := by
  by_cases hm : r.state = .moving
  · rw [h.moving hm, hm]
    decide
  · rw [h.other hm]

theorem Zone.Returned.state {r r' : Zone} (h : r.Returned r') : r'.state = if r.state = .moving then .pending else r.state := by
  split
  · exact h.moving ‹_›
  · rw [h.other ‹_›]

theorem State.Withdrew.finalDetail (h : s.Withdrew t n) (o : OrderRecord) (c : Cause) : o.finalDetail (t.unit n) c = o.finalDetail (s.unit n) c :=
  o.finalDetail_congr (fun z => (h.returned z).faulted) (h.settings n).sweepFault c

/-! ### The trip -/

/-- A line that has tripped (R78). -/
def Line.tripped (l : Line) : Line :=
  { l.takeBackMisses with
    power := .tripped, startTimer := none, stopTaken := false, cycle := none, queue := CommandQueue.empty
    modules := Vector.ofFn fun a : Fin 9 => { l.takeBackMisses.modules[a] with lastOutcome := .lineTripped } }

theorem Ev.trip_eq (e : Ev) (n : LineNo) :
    e.trip n = ((((e.updLine n Line.tripped).withdrawn n).raise .lineEvent).endByLine n .lineTripped).oweLine n := by
  unfold Ev.trip
  dsimp only
  rw [Ev.updModules, Ev.updLine_twice, Ev.updLine_twice]
  rfl

theorem Line.takeBackMisses_module (l : Line) (a : Fin 9) : (l.takeBackMisses.modules[a]).state = (l.modules[a]).state
    ∧ (l.takeBackMisses.modules[a]).missed = match l.cycle with
      | some k => if a < k.slot ∧ (l.modules[a]).state = .present ∧ (l.modules[a]).lastOutcome ≠ .valid then (l.modules[a]).missed - 1 else (l.modules[a]).missed
      | none => (l.modules[a]).missed := by
  unfold Line.takeBackMisses
  cases l.cycle with
  | none => exact ⟨rfl, rfl⟩
  | some k =>
    simp only [Fin.getElem_fin, Vector.getElem_ofFn, Fin.eta]
    split <;> exact ⟨rfl, rfl⟩

theorem Line.tripped_module (l : Line) (a : Fin 9) : (l.tripped.modules[a]).lastOutcome = .lineTripped
    ∧ (l.tripped.modules[a]).state = (l.takeBackMisses.modules[a]).state ∧ (l.tripped.modules[a]).missed = (l.takeBackMisses.modules[a]).missed := by
  simp [Line.tripped]

/-- The event that trips a line, before its order is ended. -/
def Ev.tripping (e : Ev) (n : LineNo) : Ev := ((e.updLine n Line.tripped).withdrawn n).raise .lineEvent

theorem Ev.trip_tripping (e : Ev) (n : LineNo) : e.trip n = ((e.tripping n).endTracked n .doneWithFaults .lineTripped).oweLine n := by
  rw [Ev.trip_eq]
  unfold Ev.endByLine Ev.tripping
  with_reducible rfl

theorem Ev.tripping_withdrew (e : Ev) (n : LineNo) : (e.updLine n Line.tripped).toState.Withdrew (e.tripping n).toState n := by
  have hW := (e.updLine n Line.tripped).withdrawn_withdrew n
  unfold Ev.tripping
  generalize (e.updLine n Line.tripped).withdrawn n = w at *
  exact hW.same rfl rfl

/-- Where a line that trips leaves the machine as its event ends (R78). -/
theorem Ev.trip_withdrew (e : Ev) (n : LineNo) : (e.updLine n Line.tripped).toState.Withdrew (e.trip n).settle.toState n := by
  have h := e.tripping_withdrew n
  rw [Ev.trip_tripping]
  generalize e.tripping n = f at *
  have hE : (e.updLine n Line.tripped).toState.Withdrew ((f.endTracked n .doneWithFaults .lineTripped).oweLine n).toState n :=
    (h.endTracked .doneWithFaults .lineTripped).same rfl rfl
  refine hE.settled ?_
  unfold Line.inService
  rw [hE.power, Ev.updLine_line_self]
  rfl

theorem exec_overcurrentSense (h : s.regionsInMemory = true) (n : LineNo) :
    exec (.overcurrentSense n) s = .next ((s.landed []).overcurrent n).settle.toState := by
  have hx : exec (.overcurrentSense n) s = act s fun e => e.overcurrent n := rfl
  rw [hx, act_landed h]

theorem Ev.Goes.tripping (h : d.Goes U K e) (hn : U n) : d.Goes U K (e.tripping n) := by
  unfold Ev.tripping Ev.withdrawn
  exact (((h.updLine n Line.tripped fun j => absurd hn j).returnMoving n).endSweepQuietly hn).raise _

theorem Ev.tripping_orders (e : Ev) (n : LineNo) : e.SameOrders (e.tripping n) := by
  have hW := (e.updLine n Line.tripped).withdrawn_orders n
  unfold Ev.tripping
  exact (((Ev.SameOrders.refl e).same (f := e.updLine n Line.tripped) rfl).trans hW).raise _

theorem Ev.tripping_notice (e : Ev) (n : LineNo) : (e.tripping n).noticePending .lineEvent = true := by
  unfold Ev.tripping
  rw [Ev.noticePending_raise]
  exact Bool.or_true _

/-- What becomes of the order of a line that trips (R78). -/
structure State.TripEnded (s t : State) (n : LineNo) : Prop where
  tracked : (t.unit n).tracked = none
  shows : ∀ a, s.Linked a → ∀ o, (s.unit n).tracked = some o → o.slot < a.ringLength → s.heldSlots.count o.slot = 1 →
    t.SlotShows a o.slot .doneWithFaults (o.finalDetail (s.unit n) .lineTripped)
  notice : t.noticePending .lineEvent = true
  mirrors : ∀ a, s.Linked a → s.MirrorsChanges t a

theorem State.trip_ended (s : State) (n : LineNo) : s.TripEnded ((s.landed []).trip n).settle.toState n := by
  have hG := (s.landed_goes [] (· = n)).tripping (n := n) rfl
  have horders := (s.landed []).tripping_orders n
  have hnotice := (s.landed []).tripping_notice n
  have hdetail : ∀ o : OrderRecord, o.finalDetail (((s.landed []).tripping n).unit n) .lineTripped = o.finalDetail (s.unit n) .lineTripped := fun o =>
    ((s.landed []).tripping_withdrew n).finalDetail o .lineTripped
  rw [Ev.trip_tripping]
  generalize (s.landed []).tripping n = e at *
  refine ⟨Ev.settle_untracked ?_, fun a hl o ho hr hc => ?_, Ev.settle_notice _ _ (noticePending_of_and rfl ?_ _ hnotice),
    ((hG.endTracked n .doneWithFaults .lineTripped).oweLine n).settled.mirrors⟩
  · show ((e.endTracked n .doneWithFaults .lineTripped).unit n).tracked = none
    rw [(Ev.endTracked_clearing e n .doneWithFaults .lineTripped).unit, if_pos rfl]
  · obtain ⟨h1, h2, h3⟩ := horders.endTracked (hG.linked (hl.landed [])) ho hr hc .doneWithFaults .lineTripped
    rw [hdetail] at h2
    exact Ev.ended_shows (U := fun _ => True) h1 hr h2 ((Ev.Goes.refl fun v k hk (j : k = o.slot) => h3 v (j ▸ hk)).oweLine n)
  · exact ((hG.here.endTracked n .doneWithFaults .lineTripped).oweLine n).notices

/-- A line that is OFF or TRIPPED ignores the sense (R79). -/
theorem State.overcurrent_ignored (h : (s.line n).power = .off ∨ (s.line n).power = .tripped) :
    ∃ k, ((s.landed []).overcurrent n).settle.toState = { s.writesDone with freeDraws := k } := by
  have heq : (s.landed []).overcurrent n = s.landed [] := by
    unfold Ev.overcurrent
    have hp : ((s.landed []).line n).power = (s.line n).power := rfl
    rw [hp]
    rcases h with h | h <;> rw [h]
  rw [heq]
  exact (Ev.idle_ofState s.writesDone).settle

/-- A line in CHECK hands the sense to the check (R102). -/
theorem State.overcurrent_checked (h : (s.line n).power = .check) :
    ∃ k, ((s.landed []).overcurrent n).settle.toState = { s.writesDone with check := s.check.map fun c => c.overcurrent n, freeDraws := k } := by
  have heq : (s.landed []).overcurrent n = (s.landed []).setCheck (s.check.map fun c => c.overcurrent n) := by
    unfold Ev.overcurrent
    have hp : ((s.landed []).line n).power = (s.line n).power := rfl
    rw [hp, h]
    rfl
  have hidle : ((s.landed []).setCheck (s.check.map fun c => c.overcurrent n)).Idle := ⟨rfl, rfl, rfl, rfl, rfl, rfl, rfl, fun _ => rfl⟩
  rw [heq]
  exact hidle.settle

/-- Settles O39: the sense trips a line that is STARTING or ON, is the check's in CHECK, and is ignored otherwise. -/
theorem overcurrentTripsTheLine : Obligations.OvercurrentTripsTheLine := by
  intro s n h
  refine ⟨_, exec_overcurrentSense h n, ?_⟩
  have htrip : (s.line n).power = .starting ∨ (s.line n).power = .on → (s.landed []).overcurrent n = (s.landed []).trip n := fun hp => by
    have hp' : ((s.landed []).line n).power = (s.line n).power := rfl
    unfold Ev.overcurrent
    rw [hp']
    rcases hp with hp | hp <;> rw [hp]
  by_cases hp : (s.line n).power = .starting ∨ (s.line n).power = .on
  · have hout : s.SameOutside ((s.landed []).overcurrent n).settle.toState := by
      rw [htrip hp]
      exact Ev.has_settle (stable_sameOutside s) (Ev.has_trip (stable_sameOutside s) (e := s.landed []) ⟨rfl, rfl, rfl, rfl, rfl, rfl⟩ n)
    have hW := (s.landed []).trip_withdrew n
    have hE := s.trip_ended n
    rw [← htrip hp] at hW hE
    generalize ((s.landed []).overcurrent n).settle.toState = t at *
    have hline : ((s.landed []).updLine n Line.tripped).line n = (s.line n).tripped := Ev.updLine_line_self _ _ _
    have hmodules := hW.modules
    rw [hline] at hmodules
    refine ⟨fun _ => ⟨by rw [hW.power, hline]; rfl, by rw [hW.stopTaken, hline]; rfl, by rw [hW.startTimer, hline]; rfl, by rw [hW.cycle, hline]; rfl,
      by rw [hW.queue, hline]; rfl, hW.move, fun m => ?_, hE.tracked, fun a hl => ⟨hE.mirrors a hl, hE.shows a hl⟩, fun z => (hW.returned z).state, hE.notice, hout.check⟩,
      fun j => ?_, fun j => ?_, hW.aims, hW.settings, hout.curves, hout.intake, hout.timing, hout.pending⟩
    · obtain ⟨h1, h2, h3⟩ := (s.line n).tripped_module m
      obtain ⟨h4, h5⟩ := (s.line n).takeBackMisses_module m
      rw [hmodules]
      refine ⟨h1, h2.trans h4, h3.trans (h5.trans ?_)⟩
      cases (s.line n).cycle <;> rfl
    · rcases hp with hp | hp <;> rcases j with j | j <;> cases hp.symm.trans j
    · rcases hp with hp | hp <;> cases hp.symm.trans j
  · by_cases hc : (s.line n).power = .check
    · obtain ⟨k, hk⟩ := State.overcurrent_checked hc
      rw [hk]
      refine ⟨fun j => absurd j hp, fun j => ?_, fun _ => ⟨rfl, rfl, rfl⟩, fun _ _ => .refl _, fun _ => .refl _, rfl, rfl, rfl, rfl⟩
      rcases j with j | j <;> cases hc.symm.trans j
    · have hi : (s.line n).power = .off ∨ (s.line n).power = .tripped := by
        cases hs : (s.line n).power <;> simp_all
      obtain ⟨k, hk⟩ := State.overcurrent_ignored hi
      rw [hk]
      exact ⟨fun j => absurd j hp, fun _ => ⟨⟨⟨rfl, rfl, rfl, rfl, rfl, rfl, rfl, rfl, rfl⟩, rfl⟩, rfl⟩, fun j => absurd j hc, fun _ _ => .refl _,
        fun _ => .refl _, rfl, rfl, rfl, rfl⟩

end Sys2Proof.Machine
end

