-- ==== Sys2Proof/Proofs/PowerOffs.lean ====
section
/-! PROOFS. LINE POWER OFF (R76): by the power state of the line. -/

namespace Sys2Proof.Machine

open Decode

variable {U : UnitNo → Prop} {K : Nat → Prop} {d e f : Ev} {s t : State} {n m : LineNo} {u v : UnitNo} {z y : ZoneNo} {a : Anchor} {o p : OrderRecord}
  {host : List HostWrite} {slot : Slot} {k : Nat}

/-! ### An order that is followed from its take -/

/-- What the take of an order that its unit follows leaves (R172, R185). -/
structure State.FollowTaken (s : State) (host : List HostWrite) (a : Anchor) (u : UnitNo) (e : Ev) (o : OrderRecord) (t : State) : Prop where
  taken : TakenWith s t host a .accepted o.openDetail (s.reportWord a)
  reported : State.Reported (· = u) s t
  event : ∃ f : Ev, e.Following u (some o) f ∧ t = f.settle.toState
  tracked : (t.unit u).tracked = some o
  slots : ∀ k < a.ringLength, k ≠ s.port.take → (∀ v, k ∉ (e.unit v).slots) → ∀ st x, e.toState.SlotShows a k st x → t.SlotShows a k st x

theorem Ev.follow_following (e : Ev) (u : UnitNo) (q : Option OrderRecord) : e.Following u q (e.follow u q) :=
  ⟨fun v => Ev.follow_unit e u v _, rfl, rfl⟩

theorem Ev.Goes.follow (h : d.Goes (· = u) K e) (ho : K o.slot) : d.Goes (· = u) K (e.follow u (some o)) := by
  refine h.updUnit u _ (fun k => absurd rfl k) (fun _ => rfl) rfl fun k hk => ?_
  rcases List.mem_append.1 hk with j | j
  · simp only [Option.map_some, Option.toList_some, List.mem_singleton] at j
    exact .inr (j ▸ ho)
  · exact .inl (List.mem_append_right _ j)

theorem State.Due.follows (h : s.Due host a slot) (hg : (s.landed host).Goes (· = u) (· ∈ s.heldSlots) e) (ho : o.slot = s.port.take)
    (hw : o.kind.isWork = false) : s.FollowTaken host a u e o ((e.follow u (some o)).finish slot .accepted o.openDetail).settle.toState := by
  have hG : (s.landed host).Goes (· = u) (fun k => k ∈ s.heldSlots ∨ k = s.port.take) (e.follow u (some o)) := (hg.mono fun _ => .inl).follow (.inr ho)
  have hended : (e.follow u (some o)).TakeEnded ((e.follow u (some o)).finish slot .accepted o.openDetail) := Ev.finishTake_ended _ _ _ _
  have hF := (e.follow_following u (some o)).ended hended
  have hq : ∀ p, some o = some p → p.complete (e.unit u) = false := fun p hp => by
    obtain rfl := Option.some.inj hp
    unfold OrderRecord.complete
    rw [hw]
    rfl
  have hlG := hG.linked h.linked_landed
  obtain ⟨p1, p2, _⟩ := h.slot_apart h.inRing
  have htake : (e.follow u (some o)).port.take = s.port.take := hG.course.take
  obtain ⟨w1, _, _, _, _, w6⟩ := Ev.finishTake_words (e := e.follow u (some o)) a (e.follow u (some o)).port.take slot.notify .accepted o.openDetail
    (decide_eq_true hlG.attached) hlG.anchor hlG.wf (by rw [htake]; exact p1) (by rw [htake]; exact p2)
  have hlf : ((e.follow u (some o)).finish slot .accepted o.openDetail).toState.Linked a :=
    ⟨hended.port.state.trans hlG.attached, hended.port.anchor.trans hlG.anchor, hlG.inMemory, hlG.disjoint, w1⟩
  obtain ⟨h1, h2, h3⟩ := h.goes_taken (st := .accepted) (x := o.openDetail) hG (fun _ => id) fun y hy =>
    hF.leaves hlf h.inRing hq (fun v p _ hp k => h.free (k ▸ hg.tracked_slot hp)) hy
  refine ⟨h1, h2, ⟨_, hF, rfl⟩, hF.tracked hq, fun k hk hkt hfree st x hs => ?_⟩
  obtain ⟨q1, q2, _⟩ := h.slot_apart hk
  have h15 : a.slotWord k 15 = a.slotWord k 14 + 1 := rfl
  have hread : ∀ y, y = a.slotWord k 14 ∨ y = a.slotWord k 15 →
      Memory.read ((e.follow u (some o)).finish slot .accepted o.openDetail).mem y = Memory.read e.mem y := fun y hy => by
    obtain ⟨y1, y2⟩ := Anchor.slotWords_apart (Ne.symm hkt) hy
    exact w6 y (by omega) (by omega) (by rw [htake]; exact y1) (by rw [htake]; exact y2)
  refine Ev.settle_shows hlf hk (fun v hv => ?_) ⟨(hread _ (.inl rfl)).trans hs.status, (hread _ (.inr rfl)).trans hs.detail⟩
  rw [hF.unit] at hv
  split at hv
  · next huv =>
    subst huv
    rcases List.mem_append.1 hv with j | j
    · simp only [Option.map_some, Option.toList_some, List.mem_singleton] at j
      exact hkt (j.trans ho)
    · exact hfree u (List.mem_append_right _ j)
  · exact hfree v hv

/-! ### A line that stops -/

/-- A line whose stop is taken, HALT ALL alone in its queue (R76). -/
def Line.stopping (l : Line) : Line := { l with stopTaken := true, queue := { haltAll := true, halts := [], motion := [] } }

theorem Ev.stopLine_eq (e : Ev) (n : LineNo) : e.stopLine n = ((e.updLine n Line.stopping).withdrawn n).endTracked n .doneWithFaults .lineOff := by
  have hstop : (e.updLine n fun l => { l with stopTaken := true }).queueHaltAll n = e.updLine n Line.stopping := by
    unfold Ev.queueHaltAll Ev.updQueue
    rw [Ev.updLine_twice]
    rfl
  unfold Ev.stopLine Ev.endByLine Ev.withdrawn
  dsimp only
  rw [hstop]

theorem Ev.Goes.stopLine (h : d.Goes U K e) (hn : U n) : d.Goes U K (e.stopLine n) := by
  rw [Ev.stopLine_eq]
  unfold Ev.withdrawn
  exact (((h.updLine n Line.stopping fun j => absurd hn j).returnMoving n).endSweepQuietly hn).endTracked n _ _

/-- A line that has stopped, at the end of the event that stopped it (R76). -/
structure State.Stopped (s t : State) (host : List HostWrite) (a : Anchor) (n : LineNo) (o : OrderRecord) : Prop where
  taken : TakenWith s t host a .accepted o.openDetail (s.reportWord a)
  withdrew : ((s.landed host).updLine n Line.stopping).toState.Withdrew t n
  shows : ∀ p, (s.unit n).tracked = some p → p.slot < a.ringLength → s.heldSlots.count p.slot = 1 →
    t.SlotShows a p.slot .doneWithFaults (p.finalDetail (s.unit n) .lineOff)
  tracked : (t.unit n).tracked = some o
  reported : State.Reported (· = n) s t

theorem State.Due.stops (h : s.Due host a slot) (ho : o.slot = s.port.take) (hw : o.kind.isWork = false) :
    s.Stopped (((s.landed host).stopLine n).track n slot o).settle.toState host a n o := by
  have hG := (s.landed_goes host (· = n)).stopLine (n := n) rfl
  have hF := h.follows hG ho hw
  have hW := ((s.landed host).updLine n Line.stopping).withdrawn_withdrew n
  have horders := ((s.landed host).updLine n Line.stopping).withdrawn_orders n
  have hgo : (s.landed host).Goes (· = n) (· ∈ s.heldSlots) (((s.landed host).updLine n Line.stopping).withdrawn n) := by
    unfold Ev.withdrawn
    exact (((s.landed_goes host (· = n)).updLine n Line.stopping fun j => absurd rfl j).returnMoving n).endSweepQuietly rfl
  have htrack : ((s.landed host).stopLine n).track n slot o = (((s.landed host).stopLine n).follow n (some o)).finish slot .accepted o.openDetail := rfl
  rw [htrack]
  rw [Ev.stopLine_eq] at hF ⊢
  have hend : ∀ p, (s.unit n).tracked = some p → p.slot < a.ringLength → s.heldSlots.count p.slot = 1 →
      ((((s.landed host).updLine n Line.stopping).withdrawn n).endTracked n .doneWithFaults .lineOff).toState.SlotShows a p.slot .doneWithFaults
        (p.finalDetail (s.unit n) .lineOff)
      ∧ ∀ v, p.slot ∉ ((((s.landed host).updLine n Line.stopping).withdrawn n).endTracked n .doneWithFaults .lineOff |>.unit v).slots := fun p hp hr hc => by
    have hsame : (s.landed host).SameOrders (((s.landed host).updLine n Line.stopping).withdrawn n) :=
      ((Ev.SameOrders.refl (s.landed host)).same (f := (s.landed host).updLine n Line.stopping) rfl).trans horders
    obtain ⟨_, h2, h3⟩ := hsame.endTracked (hgo.linked h.linked_landed) hp hr hc .doneWithFaults .lineOff
    rw [hW.finalDetail p .lineOff] at h2
    exact ⟨h2, h3⟩
  have hE := hW.endTracked .doneWithFaults .lineOff
  generalize (((s.landed host).updLine n Line.stopping).withdrawn n).endTracked n .doneWithFaults .lineOff = e at *
  obtain ⟨f, hf, heq⟩ := hF.event
  have hfollow : ((s.landed host).updLine n Line.stopping).toState.Withdrew f.toState n := by
    refine hE.following (fun v => ?_) hf.lines
    rw [hf.unit]
    split
    · exact ⟨some o, rfl⟩
    · exact ⟨(e.unit v).tracked, rfl⟩
  refine ⟨hF.taken, ?_, fun p hp hr hc => ?_, hF.tracked, hF.reported⟩
  · rw [heq]
    refine hfollow.settled ?_
    unfold Line.inService
    rw [hfollow.stopTaken, Ev.updLine_line_self]
    exact Bool.and_false _
  · obtain ⟨h2, h3⟩ := hend p hp hr hc
    have hheld : p.slot ∈ s.heldSlots := State.mem_heldSlots.2 ⟨n, List.mem_append_left _ (by simp [hp])⟩
    exact hF.slots p.slot hr (fun k => h.free (k ▸ hheld)) h3 _ _ h2

/-! ### The other power states -/

/-- A line whose trip is cleared (R76). -/
def Line.untripped (l : Line) : Line :=
  { l with power := .off, modules := Vector.ofFn fun a : Fin 9 => { l.modules[a] with lastOutcome := .lineNotOn } }

theorem Ev.clearTrip_eq (e : Ev) (n : LineNo) : e.clearTrip n = (e.updLine n Line.untripped).oweLine n := by
  unfold Ev.clearTrip Ev.updModules
  rw [Ev.updLine_twice]
  rfl

theorem Ev.waitingStop_eq (e : Ev) (n : LineNo) : (e.updLine n fun l => { l with stopTaken := true }).queueHaltAll n = e.updLine n Line.stopping := by
  unfold Ev.queueHaltAll Ev.updQueue
  rw [Ev.updLine_twice]
  rfl

/-- What a LINE POWER OFF leaves that moves no zone. -/
structure State.MovesNone (s t : State) (n : LineNo) : Prop where
  zone : ∀ v z, t.zone v z = s.zone v z
  settings : ∀ v, (s.unit v).SameSettings (t.unit v)
  others : ∀ m, m ≠ n → t.line m = s.line m

theorem State.MovesNone.rest (h : s.MovesNone t n) (hout : s.SameOutside t) : s.MirrorsChanges t a ∧ (∀ v z, (s.zone v z).SameAims (t.zone v z))
    ∧ (∀ v, (s.unit v).SameSettings (t.unit v)) ∧ (∀ m, m ≠ n → (s.line m).SameService (t.line m)) ∧ s.SameOutside t := by
  refine ⟨fun u k => ?_, fun v z => ?_, h.settings, fun m hm => ?_, hout⟩
  · obtain ⟨z, hz⟩ := k
    exact absurd (congrArg Zone.state (h.zone u z)) hz
  · rw [h.zone]
    exact .refl _
  · rw [h.others m hm]
    exact .refl _

/-- Settles O30: by the power state of the line. -/
theorem linePowerOffStops : Obligations.LinePowerOffStops := by
  intro host s a slot n h hk hu hs
  obtain ⟨h1, h2⟩ := h.linePowerOff hk hu hs
  refine ⟨h1, fun hr => ⟨_, h2 hr, ?_⟩⟩
  obtain ⟨o, ho⟩ : ∃ o, (s.landed host).newRecord slot (.linePower false) [] 0 = o := ⟨_, rfl⟩
  have hslot : o.slot = s.port.take := by rw [← ho]; rfl
  have hkind : o.kind = .linePower false := by rw [← ho]; rfl
  have hdetail : o.openDetail = Detail.only 0 := by rw [← ho]; rfl
  have hland := Ev.LineWork.landed s host
  have hout : s.SameOutside (s.landed host).toState := ⟨rfl, rfl, rfl, rfl, rfl, rfl⟩
  have hend : s.SameOutside ((s.landed host).powerOff n slot).settle.toState :=
    Ev.has_settle (stable_sameOutside s) (Ev.has_powerOff (stable_sameOutside s) (e := s.landed host) hout (decide_eq_true h.attached) n slot)
  have hline : (s.landed host).line n = s.line n := rfl
  cases hp : (s.line n).power with
  | on =>
    have hpow : (s.landed host).powerOff n slot = ((s.landed host).stopLine n).track n slot o := by
      rw [Ev.powerOff, hline, hp, ho]
    rw [hpow] at hend ⊢
    have hS := h.stops (n := n) (o := o) hslot (by rw [hkind]; rfl)
    rw [← hdetail]
    generalize (((s.landed host).stopLine n).track n slot o).settle.toState = t at *
    have hW := hS.withdrew
    have hself : ((s.landed host).updLine n Line.stopping).line n = (s.line n).stopping := Ev.updLine_line_self _ _ _
    refine ⟨⟨hS.taken, by rw [hW.power, hself]; exact hp, by rw [hW.stopTaken, hself]; rfl, by rw [hW.queue, hself]; rfl, hW.move, fun z => (hW.returned z).state,
      hS.shows, o, hS.tracked, hslot, hkind⟩, hS.reported.mirrors a h.toLinked, hW.aims, hW.settings, fun m hm => (hS.reported.others m hm).service, hend⟩
  | starting =>
    have hpow : (s.landed host).powerOff n slot = ((s.landed host).updLine n Line.stopping).track n slot o := by
      rw [Ev.powerOff, hline, hp, ho]
      dsimp only
      rw [Ev.waitingStop_eq]
    rw [hpow] at hend ⊢
    have hF := h.finished (((hland.updLine n Line.stopping).setTracked n o).acted_unseen h rfl) .accepted o.openDetail
    have hA := State.FollowsAlone.blocks (Ev.followsAlone (n := n) s Line.stopping (s.landed host) rfl rfl hout o) hF.blocks
    rw [hdetail] at hF hA
    rw [Ev.track, hdetail] at hend ⊢
    exact ⟨⟨hF.taken, by rw [hA.line]; exact hp, by rw [hA.line]; rfl, by rw [hA.line]; rfl, fun z => hA.zone n z, o, by rw [hA.unit], hslot, hkind⟩,
      State.MovesNone.rest (n := n) ⟨hA.zone, hA.settings, fun m hm => (hA.others m hm).1⟩ hend⟩
  | tripped =>
    have hpow : (s.landed host).powerOff n slot = (((s.landed host).updLine n Line.untripped).oweLine n).done slot := by
      rw [Ev.powerOff, hline, hp]
      dsimp only
      rw [Ev.clearTrip_eq]
    rw [hpow] at hend ⊢
    have hF := h.finished (((hland.updLine n Line.untripped).oweLine n).acted h) .done (Detail.only 0)
    have hB := hF.blocks
    have hunits := hB.units
    have hl (m : LineNo) := (hB.line m).trans (Ev.updLine_line (s.landed host) n m Line.untripped)
    have hself := (hl n).trans (if_pos rfl)
    have hdone : ((((s.landed host).updLine n Line.untripped).oweLine n).done slot).settle.units = s.units := hunits
    have hunit (v : UnitNo) : ((((s.landed host).updLine n Line.untripped).oweLine n).done slot).settle.unit v = s.unit v :=
      congrArg (fun us : Vector UnitRec 16 => us[v]) hdone
    refine ⟨⟨hF.taken, by exact congrArg Line.power hself, fun m => ?_, hdone⟩, State.MovesNone.rest (n := n) ⟨fun v z => State.zone_of_unit (hunit v) z,
      fun v => by rw [hunit]; exact .refl _, fun m hm => (hl m).trans (if_neg (Ne.symm hm))⟩ hend⟩
    rw [show ((((s.landed host).updLine n Line.untripped).oweLine n).done slot).settle.toState.line n = _ from hself]
    simp [Line.untripped, hline]
  | off | check =>
    have hpow : (s.landed host).powerOff n slot = (s.landed host).done slot := by
      rw [Ev.powerOff, hline, hp]
    have hF := h.finished h.landed_acted .done (Detail.only 0)
    have hB := hF.blocks.of_landed
    rw [hpow] at hend ⊢
    exact ⟨⟨hF.taken, hB⟩, State.MovesNone.rest (n := n) ⟨fun v z => State.zone_of_unit (hB.unit v) z, fun v => hB.unit v ▸ .refl _, fun m _ => hB.line m⟩ hend⟩

end Sys2Proof.Machine
end

