-- ==== Sys2Proof/Proofs/OrderEnds.lean ====
section
/-! PROOFS. The orders that a detach ends (R160, R179): what their ends leave of the units, the slots they show, and the ring, over which R
then stands at T (R164). -/

namespace Sys2Proof.Machine

open Decode

variable {U : UnitNo → Prop} {K : Nat → Prop} {P : Ev → Prop} {d e f : Ev} {s t : State} {u v : UnitNo} {a : Anchor} {o : OrderRecord} {w : WaitingOrder}
  {c : CheckRun} {st : Status} {x : Detail} {k : Nat}

/-! ### The course of the ends -/

/-- A check as a detach leaves it: aborted, unless its ABORT DRAIN runs (R104). -/
def CheckRun.detached (c : CheckRun) : CheckRun := if c.phase = .abortDrain then c else c.abort

/-- The event with the order scan ended and a running check aborted, before any order has ended (R160). -/
def Ev.relieved (e : Ev) : Ev :=
  (e.updPort fun p => { p with scanTimer := none, handedMarks := 0 }).setCheck (e.check.map CheckRun.detached)

/-- The order of a check that a detach aborts ends. -/
def Ev.endAborted (e : Ev) (c : CheckRun) : Ev :=
  e.endCheckOrder c.lineA c.lineB .aborted .detached (linesFailed (resultOf c.abort.findingA) (resultOf c.abort.findingB))

theorem Ev.abortCheck_relieved (e : Ev) :
    (e.updPort fun p => { p with scanTimer := none, handedMarks := 0 }).abortCheck .detached
      = match e.check with
        | some c => if c.phase = .abortDrain then e.relieved else e.relieved.endAborted c
        | none => e.relieved := by
  have hcheck : (e.updPort fun p => { p with scanTimer := none, handedMarks := 0 }).check = e.check := rfl
  have hset : ∀ r : Option CheckRun, e.check = r → (e.updPort fun p => { p with scanTimer := none, handedMarks := 0 }).setCheck r
      = e.updPort fun p => { p with scanTimer := none, handedMarks := 0 } := by
    rintro _ rfl
    rfl
  unfold Ev.abortCheck Ev.relieved
  rw [hcheck]
  cases h : e.check with
  | none => exact (hset _ h).symm
  | some c =>
    simp only [Option.map_some, CheckRun.detached]
    split
    · exact (hset _ h).symm
    · rfl

/-- What the ends of orders keep holds when they have all ended. -/
theorem Ev.endOrders_has (h : P d.relieved) (hcheck : ∀ c, d.check = some c → c.phase ≠ .abortDrain → P (d.relieved.endAborted c))
    (htracked : ∀ e u, P e → P (e.endTracked u .aborted .detached)) (hwaiting : ∀ e u, P e → P (e.endWaiting u .aborted .detached)) (a : Anchor) :
    P (d.endOrders a) := by
  have hfold (l : List (Nat × UnitNo)) : ∀ e, P e → P (l.foldl (fun e o => e.detachOrder o.2) e) := by
    induction l with
    | nil => exact fun _ k => k
    | cons y l ih => exact fun e k => ih _ (hwaiting _ _ (htracked _ _ k))
  unfold Ev.endOrders
  refine hfold _ _ ?_
  rw [Ev.abortCheck_relieved]
  cases hc : d.check with
  | none => exact h
  | some c =>
    dsimp only
    split
    · exact h
    · next hp => exact hcheck c hc hp

/-! ### The units -/

/-- A unit's record where orders may have ended: a WAITING one that has takes the staged coverage along (R29). -/
structure UnitRec.Dropped (r r' : UnitRec) : Prop where
  same : ∃ p q g, r' = { r with tracked := p, waiting := q, staged := g }
  waiting : (r'.waiting = r.waiting ∧ r'.staged = r.staged) ∨ (r'.waiting = none ∧ r'.staged = none)

theorem UnitRec.Dropped.refl (r : UnitRec) : r.Dropped r := ⟨⟨r.tracked, r.waiting, r.staged, rfl⟩, .inl ⟨rfl, rfl⟩⟩

theorem UnitRec.Dropped.trans {r r' r'' : UnitRec} (h : r.Dropped r') (k : r'.Dropped r'') : r.Dropped r'' := by
  obtain ⟨p, q, g, hr⟩ := h.same
  obtain ⟨p', q', g', hr'⟩ := k.same
  refine ⟨⟨p', q', g', by rw [hr', hr]⟩, ?_⟩
  rcases k.waiting with ⟨k1, k2⟩ | k
  · rcases h.waiting with ⟨h1, h2⟩ | ⟨h1, h2⟩
    · exact .inl ⟨k1.trans h1, k2.trans h2⟩
    · exact .inr ⟨k1.trans h1, k2.trans h2⟩
  · exact .inr k

theorem UnitRec.Dropped.finalDetail {r r' : UnitRec} (h : r.Dropped r') (o : OrderRecord) (c : Cause) : o.finalDetail r' c = o.finalDetail r c := by
  obtain ⟨p, q, g, hr⟩ := h.same
  rw [hr]
  exact o.finalDetail_congr (fun _ => .rfl) rfl c

/-- Orders have ended, and beside the unit records of theirs the exchange port and the slots alone have changed. -/
structure Ev.Drops (d e : Ev) : Prop where
  machine : d.toState.SameMachine e.toState
  unit : ∀ v, (d.unit v).Dropped (e.unit v)

theorem Ev.Drops.refl (e : Ev) : e.Drops e := ⟨⟨rfl, rfl, rfl, rfl, rfl, rfl, rfl, rfl, rfl⟩, fun _ => .refl _⟩

theorem Ev.Drops.trans (h : d.Drops e) (k : e.Drops f) : d.Drops f := ⟨h.machine.trans k.machine, fun v => (h.unit v).trans (k.unit v)⟩

theorem Ev.Drops.endTracked (h : d.Drops e) (u : UnitNo) (st : Status) (c : Cause) : d.Drops (e.endTracked u st c) := by
  have hC := Ev.endTracked_clearing e u st c
  refine h.trans ⟨hC.machine, fun v => ?_⟩
  rw [hC.unit]
  split
  · exact ⟨⟨none, _, _, rfl⟩, .inl ⟨rfl, rfl⟩⟩
  · exact .refl _

theorem Ev.Drops.endWaiting (h : d.Drops e) (u : UnitNo) (st : Status) (c : Cause) : d.Drops (e.endWaiting u st c) := by
  have hC := Ev.endWaiting_clearing e u st c
  refine h.trans ⟨hC.machine, fun v => ?_⟩
  rw [hC.unit]
  split
  · refine ⟨⟨_, none, _, rfl⟩, ?_⟩
    cases hw : (e.unit v).waiting with
    | none => exact .inl ⟨rfl, rfl⟩
    | some w => exact .inr ⟨rfl, rfl⟩
  · exact .refl _

theorem Ev.endAborted_none (h : (e.unit c.lineA).tracked = none) : e.endAborted c = e := by
  rw [Ev.endAborted, Ev.endCheckOrder, h]

/-- How the detail of a check that a detach has aborted reads (R160, log entry 20). -/
def CheckRun.detachDetail (c : CheckRun) : Detail :=
  { Detail.only Cause.detached.code with linesFailed := linesFailed (resultOf c.abort.findingA) (resultOf c.abort.findingB) }

theorem Ev.endAborted_some (h : (e.unit c.lineA).tracked = some o) :
    e.endAborted c = ((e.clearTracked c.lineA).clearTracked c.lineB).endSlot o .aborted c.detachDetail := by
  rw [Ev.endAborted, Ev.endCheckOrder, h]
  rfl

/-- The record of a unit that the check of these lines leaves. -/
theorem Ev.clearBoth_unit (e : Ev) (m n : LineNo) (v : UnitNo) :
    ((e.clearTracked m).clearTracked n).unit v = if v = m ∨ v = n then { e.unit v with tracked := none } else e.unit v := by
  rw [Ev.clearTracked, Ev.updUnit_unit, Ev.clearTracked, Ev.updUnit_unit]
  by_cases h1 : m = v <;> by_cases h2 : n = v <;> simp [h1, h2, eq_comm (a := v)]

theorem Ev.Drops.endAborted (h : d.Drops e) (c : CheckRun) : d.Drops (e.endAborted c) := by
  cases ho : (e.unit c.lineA).tracked with
  | none => rwa [Ev.endAborted_none ho]
  | some o =>
    rw [Ev.endAborted_some ho]
    have hE := Ev.endSlot_ended ((e.clearTracked c.lineA).clearTracked c.lineB) o .aborted c.detachDetail
    refine h.trans ⟨State.SameMachine.trans (b := ((e.clearTracked c.lineA).clearTracked c.lineB).toState) ⟨rfl, rfl, rfl, rfl, rfl, rfl, rfl, rfl, rfl⟩ hE.machine,
      fun v => ?_⟩
    rw [hE.unit, Ev.clearBoth_unit]
    split
    · exact ⟨⟨none, _, _, rfl⟩, .inl ⟨rfl, rfl⟩⟩
    · exact .refl _

theorem Ev.endOrders_drops (d : Ev) (a : Anchor) : d.relieved.Drops (d.endOrders a) :=
  Ev.endOrders_has (P := d.relieved.Drops) (.refl _) (fun c _ _ => (Ev.Drops.refl _).endAborted c) (fun _ u h => h.endTracked u _ _) (fun _ u h => h.endWaiting u _ _) a

/-- Every unit may change beside its zones. -/
def anyUnit (_ : UnitNo) : Prop := True

theorem Ev.endOrders_goes (hK : ∀ u, ∀ k ∈ (d.unit u).slots, K k) (a : Anchor) : d.relieved.Goes anyUnit K (d.endOrders a) := by
  have h0 : d.relieved.Goes anyUnit K d.relieved := .refl hK
  refine Ev.endOrders_has (P := d.relieved.Goes anyUnit K) h0 (fun _ _ _ => h0.endCheckOrder _ _ _ _ _) (fun _ u h => ?_) (fun _ u h => ?_) a
  · exact h.endTracked u _ _
  · exact h.endWaiting trivial _ _

/-! ### The slots -/

/-- Ring slot k shows how its order has ended, and no unit holds it. -/
structure Ev.Closed (e : Ev) (a : Anchor) (k : Nat) (st : Status) (x : Detail) : Prop where
  linked : e.toState.Linked a
  shows : e.toState.SlotShows a k st x
  free : ∀ v, k ∉ (e.unit v).slots

theorem Ev.Closed.goes (h : d.Closed a k st x) (hk : k < a.ringLength) (hg : d.Goes U (· ≠ k) e) : e.Closed a k st x :=
  ⟨hg.linked h.linked, hg.shows h.linked hk (fun j => j rfl) h.shows, fun v hv => hg.slots v k hv rfl⟩

/-- What does not hold the slot goes on. -/
theorem Ev.Closed.here (h : e.Closed a k st x) : e.Goes U (· ≠ k) e := .refl fun v _ hj r => h.free v (r ▸ hj)

theorem Ev.Closed.endTracked (h : e.Closed a k st x) (hk : k < a.ringLength) (u : UnitNo) (st' : Status) (c : Cause) :
    (e.endTracked u st' c).Closed a k st x := h.goes hk ((h.here (U := anyUnit)).endTracked u st' c)

theorem Ev.Closed.endWaiting (h : e.Closed a k st x) (hk : k < a.ringLength) (u : UnitNo) (st' : Status) (c : Cause) :
    (e.endWaiting u st' c).Closed a k st x := h.goes hk ((h.here (U := anyUnit)).endWaiting trivial st' c)

/-- The order's slot is unit u's alone. -/
structure Ev.Holds (e : Ev) (a : Anchor) (u : UnitNo) (k : Nat) : Prop where
  linked : e.toState.Linked a
  once : (e.unit u).slots.count k = 1
  others : ∀ v, v ≠ u → k ∉ (e.unit v).slots

/-- Unit u follows or awaits the order. -/
def UnitRec.HasOrder (r : UnitRec) (o : OrderRecord) : Prop := r.tracked = some o ∨ r.waiting.map (·.order) = some o

/-- An order that stands alone in its slot has ended so, or is still its unit's. -/
def Ev.Ending (d : Ev) (a : Anchor) (u : UnitNo) (o : OrderRecord) (e : Ev) : Prop :=
  e.Closed a o.slot .aborted (o.finalDetail (d.unit u) .detached)
    ∨ (e.Holds a u o.slot ∧ (e.unit u).HasOrder o ∧ (d.unit u).Dropped (e.unit u))

theorem Ev.Ending.endTracked (h : d.Ending a u o e) (hk : o.slot < a.ringLength) (v : UnitNo) :
    d.Ending a u o (e.endTracked v .aborted .detached) := by
  rcases h with h | ⟨hh, ho, hd⟩
  · exact .inl (h.endTracked hk v _ _)
  have hC := Ev.endTracked_clearing e v .aborted .detached
  have hG : e.Goes anyUnit (fun _ => True) (e.endTracked v .aborted .detached) := (Ev.Goes.refl fun _ _ _ => trivial).endTracked v _ _
  have hshrunk : ∀ w, w ≠ u → o.slot ∉ ((e.endTracked v .aborted .detached).unit w).slots := fun w hw hj => by
    rw [hC.unit] at hj
    split at hj
    · exact hh.others w hw (List.mem_append_right _ hj)
    · exact hh.others w hw hj
  by_cases hv : v = u
  · subst hv
    rcases ho with ht | hw
    · refine .inl ⟨hG.linked hh.linked, ?_, fun w => ?_⟩
      · rw [Ev.endTracked_some ht, hd.finalDetail]
        have hl : (e.clearTracked v).toState.Linked a := ⟨hh.linked.attached, hh.linked.anchor, hh.linked.inMemory, hh.linked.disjoint, hh.linked.wf⟩
        exact Ev.endSlot_shows hl hk _ _
      · by_cases hw : w = v
        · subst hw
          have hone := hh.once
          rw [hC.unit, if_pos rfl]
          rw [UnitRec.slots, ht, List.count_append] at hone
          simp only [Option.map_some, Option.toList_some, List.count_singleton_self] at hone
          intro hj
          simp only [UnitRec.slots, Option.map_none, Option.toList_none, List.nil_append] at hj
          have := List.count_pos_iff.2 hj
          omega
        · exact hshrunk w hw
    · refine .inr ⟨⟨hG.linked hh.linked, ?_, hshrunk⟩, .inr ?_, hd.trans (((Ev.Drops.refl e).endTracked v _ _).unit v)⟩
      · obtain ⟨p, hp, rfl⟩ := Option.map_eq_some_iff.1 hw
        rw [hC.unit, if_pos rfl]
        simp only [UnitRec.slots, hp, Option.map_some, Option.toList_some, List.count_singleton_self, Option.map_none, Option.toList_none,
          List.nil_append]
      · rw [hC.unit, if_pos rfl]
        exact hw
  · have hunit : (e.endTracked v .aborted .detached).unit u = e.unit u := (hC.unit u).trans (if_neg hv)
    refine .inr ⟨⟨hG.linked hh.linked, ?_, hshrunk⟩, ?_, ?_⟩ <;> rw [hunit]
    · exact hh.once
    · exact ho
    · exact hd

theorem Ev.Ending.endWaiting (h : d.Ending a u o e) (hk : o.slot < a.ringLength) (v : UnitNo) :
    d.Ending a u o (e.endWaiting v .aborted .detached) := by
  rcases h with h | ⟨hh, ho, hd⟩
  · exact .inl (h.endWaiting hk v _ _)
  have hC := Ev.endWaiting_clearing e v .aborted .detached
  have hG : e.Goes anyUnit (fun _ => True) (e.endWaiting v .aborted .detached) := (Ev.Goes.refl fun _ _ _ => trivial).endWaiting trivial _ _
  have hshrunk : ∀ w, w ≠ u → o.slot ∉ ((e.endWaiting v .aborted .detached).unit w).slots := fun w hw hj => by
    rw [hC.unit] at hj
    split at hj
    · simp only [UnitRec.slots, Option.map_none, Option.toList_none, List.append_nil] at hj
      exact hh.others w hw (List.mem_append_left _ hj)
    · exact hh.others w hw hj
  by_cases hv : v = u
  · subst hv
    rcases ho with ht | hw
    · refine .inr ⟨⟨hG.linked hh.linked, ?_, hshrunk⟩, .inl ?_, hd.trans (((Ev.Drops.refl e).endWaiting v _ _).unit v)⟩
      · rw [hC.unit, if_pos rfl]
        simp only [UnitRec.slots, ht, Option.map_some, Option.toList_some, List.count_singleton_self, Option.map_none, Option.toList_none,
          List.append_nil]
      · rw [hC.unit, if_pos rfl]
        exact ht
    · obtain ⟨p, hp, rfl⟩ := Option.map_eq_some_iff.1 hw
      refine .inl ⟨hG.linked hh.linked, ?_, fun w => ?_⟩
      · rw [Ev.endWaiting_some hp, hd.finalDetail]
        have hl : (e.clearWaiting v).toState.Linked a := ⟨hh.linked.attached, hh.linked.anchor, hh.linked.inMemory, hh.linked.disjoint, hh.linked.wf⟩
        exact Ev.endSlot_shows hl hk _ _
      · by_cases hw : w = v
        · subst hw
          have hone := hh.once
          rw [hC.unit, if_pos rfl]
          rw [UnitRec.slots, hp, List.count_append] at hone
          simp only [Option.map_some, Option.toList_some, List.count_singleton_self] at hone
          intro hj
          simp only [UnitRec.slots, Option.map_none, Option.toList_none, List.append_nil] at hj
          have := List.count_pos_iff.2 hj
          omega
        · exact hshrunk w hw
  · have hunit : (e.endWaiting v .aborted .detached).unit u = e.unit u := (hC.unit u).trans (if_neg hv)
    refine .inr ⟨⟨hG.linked hh.linked, ?_, hshrunk⟩, ?_, ?_⟩ <;> rw [hunit]
    · exact hh.once
    · exact ho
    · exact hd

theorem State.Linked.relieved (h : d.toState.Linked a) : d.relieved.toState.Linked a := ⟨h.attached, h.anchor, h.inMemory, h.disjoint, h.wf⟩

theorem Ev.linked_endAborted (h : e.toState.Linked a) (c : CheckRun) : (e.endAborted c).toState.Linked a := by
  have hG : e.Goes anyUnit (fun _ => True) (e.endAborted c) := (Ev.Goes.refl fun _ _ _ => trivial).endCheckOrder _ _ _ _ _
  exact hG.linked h

/-- The order of a unit that no aborted check concerns shows ABORTED when all orders have ended (R160). -/
theorem Ev.endOrders_shows (hl : d.toState.Linked a) (ho : (d.unit u).HasOrder o)
    (hfree : ∀ c, d.check = some c → c.phase ≠ .abortDrain → u ≠ c.lineA ∧ u ≠ c.lineB) (hk : o.slot < a.ringLength)
    (hc : d.heldSlots.count o.slot = 1) : (d.endOrders a).Closed a o.slot .aborted (o.finalDetail (d.unit u) .detached) := by
  have hmem : o.slot ∈ (d.unit u).slots := by
    rcases ho with h | h
    · exact List.mem_append_left _ (by simp [h])
    · obtain ⟨w, hw, rfl⟩ := Option.map_eq_some_iff.1 h
      exact List.mem_append_right _ (by simp [hw])
  obtain ⟨hone, hothers⟩ := State.held_once hc hmem
  have h0 : d.relieved.Holds a u o.slot := ⟨hl.relieved, hone, hothers⟩
  have hend : d.Ending a u o (d.endOrders a) := by
    refine Ev.endOrders_has (P := d.Ending a u o) (.inr ⟨h0, ho, .refl _⟩) (fun c hcheck hp => ?_) (fun e v h => h.endTracked hk v)
      (fun e v h => h.endWaiting hk v) a
    obtain ⟨hA, hB⟩ := hfree c hcheck hp
    cases ht : (d.relieved.unit c.lineA).tracked with
    | none =>
      rw [Ev.endAborted_none ht]
      exact .inr ⟨h0, ho, .refl _⟩
    | some p =>
      have hl' := Ev.linked_endAborted hl.relieved c
      rw [Ev.endAborted_some ht] at hl' ⊢
      have hE := Ev.endSlot_ended ((d.relieved.clearTracked c.lineA).clearTracked c.lineB) p .aborted c.detachDetail
      have hunit : ∀ v, (((d.relieved.clearTracked c.lineA).clearTracked c.lineB).endSlot p .aborted c.detachDetail).unit v
          = if v = c.lineA ∨ v = c.lineB then { d.unit v with tracked := none } else d.unit v := fun v =>
        (hE.unit v).trans (Ev.clearBoth_unit _ _ _ v)
      have hu : (((d.relieved.clearTracked c.lineA).clearTracked c.lineB).endSlot p .aborted c.detachDetail).unit u = d.unit u :=
        (hunit u).trans (if_neg (by simp [hA, hB]))
      refine .inr ⟨⟨hl', ?_, fun v hv => ?_⟩, ?_, ?_⟩
      · rw [hu]
        exact hone
      · rw [hunit]
        split
        · exact fun hj => hothers v hv (List.mem_append_right _ hj)
        · exact hothers v hv
      · rw [hu]
        exact ho
      · rw [hu]
        exact .refl _
  rcases hend with h | ⟨_, h, _⟩
  · exact h
  · obtain ⟨h1, h2⟩ := Ev.endOrders_orderless d a u
    rcases h with h | h
    · rw [h1] at h
      cases h
    · rw [h2] at h
      cases h

/-- The order of the check that the detach has aborted shows so (R104, R160). -/
theorem Ev.endOrders_check (hl : d.toState.Linked a) (hcheck : d.check = some c) (hp : c.phase ≠ .abortDrain) (hne : c.lineA ≠ c.lineB)
    (hA : (d.unit c.lineA).tracked = some o) (hB : (d.unit c.lineB).tracked = some o) (hk : o.slot < a.ringLength)
    (hc : d.heldSlots.count o.slot = 2) : (d.endOrders a).Closed a o.slot .aborted c.detachDetail := by
  have hclosed : (d.relieved.endAborted c).Closed a o.slot .aborted c.detachDetail := by
    have hA' : (d.relieved.unit c.lineA).tracked = some o := hA
    have hlc : ((d.relieved.clearTracked c.lineA).clearTracked c.lineB).toState.Linked a := ⟨hl.attached, hl.anchor, hl.inMemory, hl.disjoint, hl.wf⟩
    have hl' := Ev.linked_endAborted hl.relieved c
    rw [Ev.endAborted_some hA'] at hl' ⊢
    refine ⟨hl', Ev.endSlot_shows hlc hk _ _, fun v hv => ?_⟩
    rw [(Ev.endSlot_ended _ o _ _).unit, Ev.clearBoth_unit] at hv
    have hvd : o.slot ∈ (if v = c.lineA ∨ v = c.lineB then { d.unit v with tracked := none } else d.unit v : UnitRec).slots := hv
    have hcount := State.count_heldSlots d.toState o.slot
    rw [hc] at hcount
    have hle : ∀ w, (if w = c.lineA ∨ w = c.lineB then 1 else 0)
        + (if w = c.lineA ∨ w = c.lineB then { d.unit w with tracked := none } else d.unit w : UnitRec).slots.count o.slot
        = (d.unit w).slots.count o.slot := fun w => by
      split
      · next hw =>
        have ht : (d.unit w).tracked = some o := by
          rcases hw with rfl | rfl
          · exact hA
          · exact hB
        simp [UnitRec.slots, ht, Nat.add_comm]
      · exact Nat.zero_add _
    have hsum : ∑ w : UnitNo, (if w = c.lineA ∨ w = c.lineB then 1 else 0) = 2 := by
      rw [Finset.sum_ite, Finset.sum_const_zero, Nat.add_zero, Finset.sum_const, smul_eq_mul, Nat.mul_one]
      have : Finset.univ.filter (fun w : UnitNo => w = c.lineA ∨ w = c.lineB) = {c.lineA, c.lineB} := by
        ext w
        simp
      rw [this, Finset.card_pair hne]
    have hsplit := Finset.sum_congr rfl fun w (_ : w ∈ (Finset.univ : Finset UnitNo)) => hle w
    rw [Finset.sum_add_distrib, hsum] at hsplit
    have hpos := Finset.single_le_sum (f := fun w : UnitNo => (if w = c.lineA ∨ w = c.lineB then { d.unit w with tracked := none } else d.unit w : UnitRec).slots.count o.slot)
      (fun _ _ => Nat.zero_le _) (Finset.mem_univ v)
    have hv1 := List.count_pos_iff.2 hvd
    have hgoal : ∑ w : UnitNo, (d.unit w).slots.count o.slot = 2 := hcount.symm
    omega
  unfold Ev.endOrders
  have hbase : (d.updPort fun p => { p with scanTimer := none, handedMarks := 0 }).abortCheck .detached = d.relieved.endAborted c := by
    rw [Ev.abortCheck_relieved, hcheck]
    exact if_neg hp
  dsimp only
  rw [hbase]
  have hfold (l : List (Nat × UnitNo)) : ∀ e : Ev, e.Closed a o.slot .aborted c.detachDetail →
      (l.foldl (fun e o => e.detachOrder o.2) e).Closed a o.slot .aborted c.detachDetail := by
    induction l with
    | nil => exact fun _ h => h
    | cons y l ih => exact fun e h => ih _ ((h.endTracked hk _ _ _).endWaiting hk _ _ _)
  exact hfold _ _ hclosed

end Sys2Proof.Machine
end

