-- ==== Sys2Proof/Proofs/RingEnds.lean ====
section
/-! PROOFS. R at a detach (R160, R164): each order that ends takes R on over the final slots in front of it, and when none is left R stands
at T. -/

namespace Sys2Proof.Machine

open Decode

variable {d e f : Ev} {s t : State} {u v : UnitNo} {a : Anchor} {o : OrderRecord} {c : CheckRun} {st : Status} {x : Detail} {w : WaitingOrder} {i j k L R T : Nat}
  {F F' H H' : List Nat}

/-! ### The ring -/

theorem ringNext_iterate (h : R < L) (i : Nat) : (ringNext L)^[i] R = (R + i) % L := by
  induction i with
  | zero => exact (Nat.mod_eq_of_lt h).symm
  | succ i ih =>
    rw [Function.iterate_succ_apply', ih, ringNext, ← Nat.add_assoc]
    have hlt : (R + i) % L < L := Nat.mod_lt _ (by omega)
    rw [Nat.add_mod (R + i) 1]
    by_cases hone : L = 1
    · subst hone
      simp [Nat.mod_one]
    · rw [Nat.mod_eq_of_lt (show 1 < L by omega)]
      split
      · next hl => exact (Nat.mod_eq_of_lt hl).symm
      · next hl =>
        have he : (R + i) % L + 1 = L := by omega
        rw [he, Nat.mod_self]

theorem add_mod_ring (h : R < L) (hi : i < L) : (R + i) % L = if R + i < L then R + i else R + i - L := by
  split
  · next hl => exact Nat.mod_eq_of_lt hl
  · next hl =>
    rw [Nat.mod_eq_sub_mod (by omega)]
    exact Nat.mod_eq_of_lt (by omega)

theorem ringDistance_lt (hR : R < L) (hT : T < L) : ringDistance L R T < L := by
  unfold ringDistance
  split <;> omega

theorem add_ringDistance (hR : R < L) (hT : T < L) : (R + ringDistance L R T) % L = T := by
  rw [add_mod_ring hR (ringDistance_lt hR hT)]
  unfold ringDistance
  split <;> split <;> omega

/-- A step on the way brings the end nearer. -/
theorem ringDistance_after (hR : R < L) (hT : T < L) (hj : j ≤ ringDistance L R T) :
    ringDistance L ((R + j) % L) T = ringDistance L R T - j := by
  have hd := ringDistance_lt hR hT
  rw [add_mod_ring hR (by omega)]
  unfold ringDistance at hd hj ⊢
  split at hj <;> split <;> split <;> omega

/-- From R to T every slot is final or held, the one at T being neither (R164). -/
structure Spanned (L R T : Nat) (F H : List Nat) : Prop where
  retire : R < L
  take : T < L
  accounted : ∀ i < ringDistance L R T, (R + i) % L ∈ F ∨ (R + i) % L ∈ H
  open_ : T ∉ F ∧ T ∉ H

/-- One slot of those held becomes final, and R passes j slots. -/
theorem Spanned.advance (h : Spanned L R T F H) (hk : k ∈ H) (hH : ∀ y ∈ H, y = k ∨ y ∈ H') (hsub : ∀ y ∈ H', y ∈ H)
    (hF : ((List.range j).map (fun i => (R + i) % L) ++ F').Perm (if k ∈ F then F else F ++ [k])) : Spanned L ((R + j) % L) T F' H' := by
  obtain ⟨hR, hT, hacc, hTF, hTH⟩ := h
  have hmem : ∀ y, (y ∈ (List.range j).map (fun i => (R + i) % L) ∨ y ∈ F') ↔ y ∈ F ∨ y = k := fun y => by
    rw [← List.mem_append, hF.mem_iff]
    split
    · next hkF => exact ⟨.inl, fun h => h.elim id (by rintro rfl; exact hkF)⟩
    · simp
  have hTk : ¬(T ∈ F ∨ T = k) := by
    rintro (h | rfl)
    · exact hTF h
    · exact hTH hk
  have hd := ringDistance_lt hR hT
  have hj : j ≤ ringDistance L R T := by
    by_contra hlt
    refine hTk ((hmem T).1 (.inl (List.mem_map.2 ⟨ringDistance L R T, List.mem_range.2 (by omega), add_ringDistance hR hT⟩)))
  refine ⟨Nat.mod_lt _ (by omega), hT, fun i hi => ?_, fun h => hTk ((hmem T).1 (.inr h)), fun h => hTH (hsub _ h)⟩
  rw [ringDistance_after hR hT hj] at hi
  have hstep : ((R + j) % L + i) % L = (R + (j + i)) % L := by rw [Nat.mod_add_mod, Nat.add_assoc]
  rw [hstep]
  have hfin : (R + (j + i)) % L ∈ F ∨ (R + (j + i)) % L = k → (R + (j + i)) % L ∈ F' := fun h => by
    refine ((hmem _).2 h).resolve_left fun hpast => ?_
    obtain ⟨i', hi', heq⟩ := List.mem_map.1 hpast
    have hlt := List.mem_range.1 hi'
    rw [add_mod_ring hR (by omega), add_mod_ring hR (by omega)] at heq
    split at heq <;> split at heq <;> omega
  rcases hacc (j + i) (by omega) with h | h
  · exact .inl (hfin (.inl h))
  · rcases hH _ h with h | h
    · exact .inl (hfin (.inr h))
    · exact .inr h

/-- Where nothing is held and the slot at R is not final, R stands at T. -/
theorem Spanned.closed (h : Spanned L R T F []) (hR : R ∉ F) : R = T := by
  have hd := add_ringDistance h.retire h.take
  by_cases h0 : ringDistance L R T = 0
  · rwa [h0, Nat.add_zero, Nat.mod_eq_of_lt h.retire] at hd
  · have hacc := h.accounted 0 (by omega)
    rw [Nat.add_zero, Nat.mod_eq_of_lt h.retire] at hacc
    exact (hacc.elim hR (fun j => nomatch j)).elim

/-! ### The ends of orders -/

/-- The ring of an event that ends orders, R having stood at `from_`. -/
structure Ev.RingKept (a : Anchor) (from_ T : Nat) (e : Ev) : Prop where
  linked : e.toState.Linked a
  take : e.port.take = T
  span : Spanned a.ringLength e.port.retire T e.port.finished e.heldSlots
  retireOpen : e.port.retire ∉ e.port.finished
  word : e.port.retire = from_ ∨ Memory.read e.mem 15 = wordOf e.port.retire

/-- Word 15 shows R, or neither has changed. -/
def Ev.RetireShown (d e : Ev) : Prop :=
  Memory.read e.mem 15 = wordOf e.port.retire ∨ (e.port.retire = d.port.retire ∧ Memory.read e.mem 15 = Memory.read d.mem 15)

theorem Ev.advanceRetire_shown (hw : Memory.wf e.mem = true) (a : Anchor) : e.RetireShown (e.advanceRetire a) := by
  unfold Ev.advanceRetire Ev.RetireShown
  dsimp only
  generalize retireWalk a.ringLength e.port.noticeOffset e.port.finished.length e.port.retire e.port.finished false = w
  split
  · have hread : Memory.read (Memory.write e.mem 15 [wordOf w.1]) 15 = wordOf w.1 := by
      rw [Memory.read_write _ _ _ _ hw, if_pos (by simp [Config.memoryWords])]
      rfl
    split <;> exact .inl hread
  · exact .inr ⟨rfl, rfl⟩

theorem Ev.slotFinal_shown (hw : Memory.wf e.mem = true) (slot : Nat) (notify : Bool) : e.RetireShown (e.slotFinal slot notify) := by
  unfold Ev.slotFinal
  split
  · dsimp only
    split
    · exact Ev.advanceRetire_shown (e := Ev.raise (Ev.updPort e _) _) hw _
    · exact Ev.advanceRetire_shown (e := Ev.updPort e _) hw _
  · exact .inr ⟨rfl, rfl⟩

/-- A slot that no unit holds any more becomes final. -/
theorem Ev.RingKept.endSlot (h : d.RingKept a R T) (hport : e.port = d.port) (hmem : e.mem = d.mem) (hk : o.slot ∈ d.heldSlots)
    (hH : ∀ y ∈ d.heldSlots, y = o.slot ∨ y ∈ e.heldSlots) (hsub : ∀ y ∈ e.heldSlots, y ∈ d.heldSlots) (st : Status) (x : Detail) :
    (e.endSlot o st x).RingKept a R T := by
  obtain ⟨hl, htake, hspan, _, hword⟩ := h
  have h0 : 0 < a.ringLength := by have := hspan.take; omega
  have hle : e.toState.Linked a := ⟨by rw [hport]; exact hl.attached, by rw [hport]; exact hl.anchor, hl.inMemory, hl.disjoint, by rw [hmem]; exact hl.wf⟩
  have hG : e.Goes anyUnit (fun _ => True) (e.endSlot o st x) := (Ev.Goes.refl fun _ _ _ => trivial).endSlot trivial st x
  have hE := Ev.endSlot_ended e o st x
  obtain ⟨hw1, h15⟩ := Ev.writeStatus_leaves (k := o.slot) (st := st) (w := x) hle.wf hle.anchor
    (Anchor.offset_ne_slotWord hl.disjoint hl.inMemory h0 (y := 15) (by omega) o.slot)
  have hwport := Ev.writeStatus_port e o.slot st x
  have hheld : (e.endSlot o st x).heldSlots = e.heldSlots := by
    unfold State.heldSlots
    simp only [hE.unit]
  have hret : (e.writeStatus o.slot st x).toState.Retires (e.endSlot o st x).toState a o.slot o.notify :=
    Ev.slotFinal_retires (by rw [State.attached, hwport]; exact decide_eq_true hle.attached) (by rw [hwport]; exact hle.anchor) hw1 o.slot o.notify
  obtain ⟨j, h1, h2, h3, _⟩ := hret
  have hbase : (e.writeStatus o.slot st x).port = d.port := hwport.trans hport
  have hiter : ∀ i, (ringNext a.ringLength)^[i] (e.writeStatus o.slot st x).port.retire = (d.port.retire + i) % a.ringLength := fun i => by
    rw [hbase]
    exact ringNext_iterate hspan.retire i
  simp only [hiter] at h1 h2 h3
  rw [hbase] at h3
  refine ⟨hG.linked hle, hG.course.take.trans (by rw [hport]; exact htake), ?_, by rw [h1]; exact h2, ?_⟩
  · rw [h1, hheld]
    exact hspan.advance hk hH hsub h3
  · rcases Ev.slotFinal_shown (e := e.writeStatus o.slot st x) hw1 o.slot o.notify with hs | ⟨hr, hm⟩
    · exact .inr hs
    · have hr' : (e.endSlot o st x).port.retire = d.port.retire := hr.trans (congrArg Port.retire hbase)
      have hm' : Memory.read (e.endSlot o st x).mem 15 = Memory.read d.mem 15 := hm.trans (h15.trans (by rw [hmem]))
      rw [hr', hm']
      exact hword

theorem State.heldSlots_of_slots (h : ∀ v, ∀ y ∈ (t.unit v).slots, y ∈ (s.unit v).slots) : ∀ y ∈ t.heldSlots, y ∈ s.heldSlots := fun y hy => by
  obtain ⟨v, hv⟩ := State.mem_heldSlots.1 hy
  exact State.mem_heldSlots.2 ⟨v, h v y hv⟩

theorem Ev.RingKept.endTracked (h : e.RingKept a R T) (u : UnitNo) (st : Status) (c : Cause) : (e.endTracked u st c).RingKept a R T := by
  cases ho : (e.unit u).tracked with
  | none => rwa [Ev.endTracked_none ho]
  | some o =>
    rw [Ev.endTracked_some ho]
    have hunit : ∀ v, (e.clearTracked u).unit v = if u = v then { e.unit v with tracked := none } else e.unit v := fun v => Ev.updUnit_unit e u v _
    refine h.endSlot (e := e.clearTracked u) rfl rfl (State.tracked_held ho) (fun y hy => ?_) (State.heldSlots_of_slots fun v y hy => ?_) _ _
    · obtain ⟨v, hv⟩ := State.mem_heldSlots.1 hy
      by_cases huv : u = v
      · subst huv
        rw [UnitRec.slots, ho, List.mem_append] at hv
        rcases hv with hv | hv
        · exact .inl (by simpa using hv)
        · refine .inr (State.mem_heldSlots.2 ⟨u, ?_⟩)
          rw [hunit, if_pos rfl]
          exact List.mem_append_right _ hv
      · refine .inr (State.mem_heldSlots.2 ⟨v, ?_⟩)
        rw [hunit, if_neg huv]
        exact hv
    · rw [hunit] at hy
      split at hy
      · exact List.mem_append_right _ hy
      · exact hy

theorem Ev.RingKept.endWaiting (h : e.RingKept a R T) (u : UnitNo) (st : Status) (c : Cause) : (e.endWaiting u st c).RingKept a R T := by
  cases hw : (e.unit u).waiting with
  | none => rwa [Ev.endWaiting_none hw]
  | some w =>
    rw [Ev.endWaiting_some hw]
    have hunit : ∀ v, (e.clearWaiting u).unit v = if u = v then { e.unit v with waiting := none, staged := none } else e.unit v := fun v =>
      Ev.updUnit_unit e u v _
    refine h.endSlot (e := e.clearWaiting u) rfl rfl (State.waiting_held hw) (fun y hy => ?_) (State.heldSlots_of_slots fun v y hy => ?_) _ _
    · obtain ⟨v, hv⟩ := State.mem_heldSlots.1 hy
      by_cases huv : u = v
      · subst huv
        rw [UnitRec.slots, hw, List.mem_append] at hv
        rcases hv with hv | hv
        · refine .inr (State.mem_heldSlots.2 ⟨u, ?_⟩)
          rw [hunit, if_pos rfl]
          exact List.mem_append_left _ hv
        · exact .inl (by simpa using hv)
      · refine .inr (State.mem_heldSlots.2 ⟨v, ?_⟩)
        rw [hunit, if_neg huv]
        exact hv
    · rw [hunit] at hy
      split at hy
      · simp only [UnitRec.slots, Option.map_none, Option.toList_none, List.append_nil] at hy
        exact List.mem_append_left _ hy
      · exact hy

/-- The order of an aborted check, which both its units follow, ends (R104). -/
theorem Ev.RingKept.endAborted (h : e.RingKept a R T) (hc : (e.unit c.lineA).tracked = (e.unit c.lineB).tracked) : (e.endAborted c).RingKept a R T := by
  cases ho : (e.unit c.lineA).tracked with
  | none => rwa [Ev.endAborted_none ho]
  | some o =>
    rw [Ev.endAborted_some ho]
    refine h.endSlot (e := (e.clearTracked c.lineA).clearTracked c.lineB) rfl rfl (State.tracked_held ho) (fun y hy => ?_) (State.heldSlots_of_slots fun v y hy => ?_) _ _
    · obtain ⟨v, hv⟩ := State.mem_heldSlots.1 hy
      by_cases hm : v = c.lineA ∨ v = c.lineB
      · have ht : (e.unit v).tracked = some o := by
          rcases hm with rfl | rfl
          · exact ho
          · exact hc.symm.trans ho
        rw [UnitRec.slots, ht, List.mem_append] at hv
        rcases hv with hv | hv
        · exact .inl (by simpa using hv)
        · refine .inr (State.mem_heldSlots.2 ⟨v, ?_⟩)
          rw [Ev.clearBoth_unit, if_pos hm]
          exact List.mem_append_right _ hv
      · refine .inr (State.mem_heldSlots.2 ⟨v, ?_⟩)
        rw [Ev.clearBoth_unit, if_neg hm]
        exact hv
    · rw [Ev.clearBoth_unit] at hy
      split at hy
      · exact List.mem_append_right _ hy
      · exact hy

theorem State.RingAccounted.kept (h : d.toState.RingAccounted a) (hl : d.toState.Linked a) : d.relieved.RingKept a d.port.retire d.port.take := by
  refine ⟨hl.relieved, rfl, ⟨h.retire, h.take, fun i hi => ?_, h.takeOpen⟩, h.retireOpen, .inl rfl⟩
  have hacc := h.accounted i hi
  dsimp only at hacc
  rw [ringNext_iterate h.retire] at hacc
  exact hacc

/-- When all orders have ended, R stands at T, and word 15 shows it if R has moved. -/
theorem Ev.endOrders_ring (h : d.toState.RingAccounted a) (hl : d.toState.Linked a) :
    (d.endOrders a).port.retire = d.port.take
      ∧ (d.port.retire ≠ d.port.take → Memory.read (d.endOrders a).mem 15 = wordOf d.port.take) := by
  have hR : (d.endOrders a).RingKept a d.port.retire d.port.take := by
    refine Ev.endOrders_has (P := fun e => e.RingKept a d.port.retire d.port.take) (h.kept hl) (fun c hc _ => ?_) (fun e u k => k.endTracked u _ _)
      (fun e u k => k.endWaiting u _ _) a
    exact (h.kept hl).endAborted (h.shared c hc)
  have hnone : (d.endOrders a).heldSlots = [] := by
    refine List.eq_nil_iff_forall_not_mem.2 fun y hy => ?_
    obtain ⟨v, hv⟩ := State.mem_heldSlots.1 hy
    obtain ⟨h1, h2⟩ := Ev.endOrders_orderless d a v
    simp [UnitRec.slots, h1, h2] at hv
  have hspan := hR.span
  rw [hnone] at hspan
  have heq := hspan.closed hR.retireOpen
  refine ⟨heq, fun hne => ?_⟩
  rcases hR.word with hw | hw
  · exact absurd (hw.symm.trans heq) hne
  · rw [hw, heq]

end Sys2Proof.Machine
end

