-- ==== Sys2Proof/Proofs/CutMoves.lean ====
section
/-! PROOFS. What a detach does to the zones and the lines (R70, R83, R94): every MOVING zone returns, every line that is ON is halted, and
every sweep move ends. -/

namespace Sys2Proof.Machine

open Decode

variable {U : UnitNo → Prop} {K : Nat → Prop} {d e f : Ev} {s t : State} {u v : UnitNo} {n m : LineNo} {z y : ZoneNo} {a : Anchor} {o : OrderRecord}
  {c : CheckRun} {host : List HostWrite}

/-! ### Returns -/

theorem Zone.Returned.refl_of {r : Zone} (h : r.state ≠ .moving) : r.Returned r := ⟨fun j => absurd j h, fun _ => rfl⟩

theorem Ev.grantsOnly_returnZone (e : Ev) (u : UnitNo) (z : ZoneNo) : e.GrantsOnly (e.returnZone u z) := by
  unfold Ev.returnZone
  split
  · next hm =>
    have hp : (e.zone u z).state ≠ .pending := by rw [hm]; decide
    have h1 := (Ev.grantsOnly_changeState (e := e) u z .pending).trans (Ev.grantsOnly_updLine u (fun l =>
      { l with pendingList := l.pendingList ++ [⟨z, (e.zone u z).moveKind.getD .position⟩] }) fun _ => ⟨rfl, rfl, rfl, rfl, rfl, rfl, rfl, rfl, rfl, rfl⟩)
    have h2 : e.GrantsOnly (e.enterPending u z ((e.zone u z).moveKind.getD .position)) := by
      rw [Ev.enterPending, if_neg hp]
      exact h1.congr rfl rfl
    exact h2.trans (Ev.grantsOnly_updZone u z _ fun _ => ⟨rfl, rfl, rfl, rfl, rfl, rfl, rfl⟩)
  · exact .refl e

theorem Ev.grantsOnly_returnMoving (e : Ev) (u : UnitNo) : e.GrantsOnly (e.returnMoving u) :=
  Calm.foldl (P := e.GrantsOnly) (fun f z h => h.trans (f.grantsOnly_returnZone u z)) _ (.refl e)

/-- Every MOVING zone returns to PENDING (R70). -/
def Ev.returnAll (e : Ev) : Ev := (ascending 16).foldl (fun e u => e.returnMoving u) e

theorem Ev.returnAll_grantsOnly (e : Ev) : e.GrantsOnly e.returnAll :=
  Calm.foldl (P := e.GrantsOnly) (fun f u h => h.trans (f.grantsOnly_returnMoving u)) _ (.refl e)

theorem Ev.returnAll_queue (e : Ev) (m : LineNo) : (e.returnAll.line m).queue = (e.line m).queue :=
  Calm.foldl (P := fun f => (f.line m).queue = (e.line m).queue) (fun f u h => (f.returnMoving_queue u m).trans h) _ rfl

theorem Ev.returnMoving_other (e : Ev) (h : u ≠ v) : (e.returnMoving u).zone v y = e.zone v y :=
  ((treatsAlone_returnZone u).beyond (ascending 64) e fun j => h j.1).zone

theorem Ev.returnAll_returned (e : Ev) (v : UnitNo) (y : ZoneNo) : (e.zone v y).Returned (e.returnAll.zone v y) := by
  have hbeyond (l : List UnitNo) : ∀ f : Ev, v ∉ l → (l.foldl (fun e u => e.returnMoving u) f).zone v y = f.zone v y := by
    induction l with
    | nil => exact fun _ _ => rfl
    | cons u l ih =>
      intro f hv
      rw [List.foldl_cons, ih _ fun j => hv (List.mem_cons_of_mem _ j)]
      exact f.returnMoving_other fun j => hv (j ▸ List.mem_cons_self)
  have hin (l : List UnitNo) (hn : l.Nodup) : ∀ f : Ev, v ∈ l → (f.zone v y).Returned ((l.foldl (fun e u => e.returnMoving u) f).zone v y) := by
    induction l with
    | nil => exact fun _ j => nomatch j
    | cons u l ih =>
      obtain ⟨hu, hn⟩ := List.nodup_cons.1 hn
      intro f hv
      rw [List.foldl_cons]
      rcases eq_or_ne u v with rfl | hne
      · rw [hbeyond l _ hu]
        exact f.returnMoving_returned u y
      · have h1 := ih hn (f.returnMoving u) ((List.mem_cons.1 hv).resolve_left hne.symm)
        rwa [f.returnMoving_other hne] at h1
  exact hin _ (List.nodup_finRange _) e (List.mem_finRange v)

/-! ### The grants -/

theorem Ev.grantsLawful_returnZone (h : e.grantsLawful) (u : UnitNo) (z : ZoneNo) : (e.returnZone u z).grantsLawful := by
  by_cases hm : (e.zone u z).state = .moving
  · have hp : (e.zone u z).state ≠ .pending := by rw [hm]; decide
    have hzone : ∀ v y, ¬(u = v ∧ z = y) → (e.returnZone u z).zone v y = e.zone v y := fun v y hvy => ((treatsAlone_returnZone u).sameAt e hvy).zone
    have hnew : ((e.returnZone u z).zone u z).state = .pending := (e.returnZone_returned u z).moving hm
    obtain ⟨h1, h2⟩ := h.pos hm
    have heq : e.returnZone u z = (e.enterPending u z ((e.zone u z).moveKind.getD .position)).updZone u z fun r => { r with attempts := 0 } := by
      rw [Ev.returnZone, if_pos hm]
    have hline : ∀ n, ((e.returnZone u z).line n).grants = if u = n then (e.line n).grants - 1 else (e.line n).grants := fun n => by
      rw [heq]
      show ((e.enterPending u z ((e.zone u z).moveKind.getD .position)).line n).grants = _
      rw [Ev.enterPending_line hp]
      split
      · simp [Line.leaving, hm]
      · rfl
    have hpart : (e.returnZone u z).partGrants = e.partGrants - 1 := by
      rw [heq]
      show (e.enterPending u z ((e.zone u z).moveKind.getD .position)).partGrants = _
      rw [Ev.enterPending_partGrants hp, if_pos hm]
    refine h.change (u := u) (z := z) (fun v y hvy => by rw [hzone v y hvy]) (fun k hk => by rw [hline, if_neg hk.symm]) ?_ ?_
    · rw [hline, if_pos rfl, Zone.moves, Zone.moves, if_pos hm, if_neg (by rw [hnew]; decide)]
      omega
    · rw [hpart, Zone.moves, Zone.moves, if_pos hm, if_neg (by rw [hnew]; decide)]
      omega
  · rwa [Ev.returnZone, if_neg hm]

theorem Ev.grantsLawful_returnAll (h : e.grantsLawful) : e.returnAll.grantsLawful :=
  Calm.foldl (P := fun f => f.grantsLawful) (fun _ u k => Calm.foldl (P := fun f => f.grantsLawful) (fun _ z j => Ev.grantsLawful_returnZone j u z) _ k) _ h

/-! ### Halts -/

/-- A line that a detach halts (R83, R94). -/
def Line.halted (l : Line) : Line :=
  { l with
    queue := if l.power = .on then { haltAll := true, halts := [], motion := [] } else l.queue
    fountain := l.fountain.quieted }

/-- The halt of one line. -/
def Ev.haltLine (e : Ev) (n : LineNo) : Ev := (if (e.line n).power = .on then e.queueHaltAll n else e).endSweepQuietly n

theorem Ev.endSweepQuietly_other (e : Ev) (h : n ≠ m) : (e.endSweepQuietly n).line m = e.line m := by
  unfold Ev.endSweepQuietly
  split
  · exact (Ev.updLine_line _ _ _ _).trans (if_neg h)
  · rfl

theorem Ev.haltLine_line (e : Ev) (n m : LineNo) : (e.haltLine n).line m = if n = m then (e.line m).halted else e.line m := by
  have hqueue : (if (e.line n).power = .on then e.queueHaltAll n else e).line m = if n = m ∧ (e.line n).power = .on
      then { e.line m with queue := { haltAll := true, halts := [], motion := [] } } else e.line m := by
    by_cases hp : (e.line n).power = .on
    · rw [if_pos hp, Ev.queueHaltAll, Ev.updQueue, Ev.updLine_line]
      simp only [hp, and_true]
    · rw [if_neg hp, if_neg fun j => hp j.2]
  unfold Ev.haltLine
  rcases eq_or_ne n m with rfl | hne
  · rw [Ev.endSweepQuietly_line, hqueue, if_pos rfl]
    unfold Line.halted
    by_cases hp : (e.line n).power = .on
    · simp [hp]
    · simp [hp]
  · rw [Ev.endSweepQuietly_other _ hne, hqueue, if_neg fun j => hne j.1, if_neg hne]

theorem Ev.haltLine_eq (e : Ev) (n : LineNo) : ∃ ls, e.haltLine n = { e with lines := ls } := by
  unfold Ev.haltLine Ev.endSweepQuietly
  split <;> split
  · exact ⟨_, rfl⟩
  · exact ⟨_, rfl⟩
  · exact ⟨_, rfl⟩
  · exact ⟨_, rfl⟩

theorem Ev.haltLines_eq (e : Ev) : ∃ ls, e.haltLines = { e with lines := ls } := by
  have hall (l : List LineNo) : ∀ f : Ev, (∃ ls, f = { e with lines := ls }) → ∃ ls, l.foldl Ev.haltLine f = { e with lines := ls } := by
    induction l with
    | nil => exact fun _ h => h
    | cons n l ih =>
      rintro _ ⟨ls, rfl⟩
      obtain ⟨ls', h⟩ := Ev.haltLine_eq { e with lines := ls } n
      exact ih _ ⟨ls', h⟩
  exact hall _ e ⟨e.lines, rfl⟩

theorem Ev.haltLines_line (e : Ev) (m : LineNo) : e.haltLines.line m = (e.line m).halted := by
  have hall (l : List LineNo) (hn : l.Nodup) : ∀ f : Ev, (l.foldl Ev.haltLine f).line m = if m ∈ l then (f.line m).halted else f.line m := by
    induction l with
    | nil => exact fun _ => rfl
    | cons n l ih =>
      obtain ⟨hnl, hn⟩ := List.nodup_cons.1 hn
      intro f
      rw [List.foldl_cons, ih hn, Ev.haltLine_line]
      rcases eq_or_ne n m with rfl | hne
      · simp [hnl]
      · simp [hne, hne.symm]
  exact (hall _ (List.nodup_finRange _) e).trans (if_pos (List.mem_finRange m))

end Sys2Proof.Machine
end

