-- ==== Sys2Proof/Proofs/Detaches.lean ====
section
/-! PROOFS. DETACH (R160). What an ATTACHED part leaves of the machine as it detaches, and the register command by the part's state. -/

namespace Sys2Proof.Machine

open Decode

variable {U : UnitNo → Prop} {K : Nat → Prop} {d e f : Ev} {s t : State} {u v : UnitNo} {n m : LineNo} {z y : ZoneNo} {a : Anchor} {o : OrderRecord}
  {c : CheckRun} {st : Status} {x : Detail} {k : Nat}

/-! ### The machine -/

theorem Ev.cutMoves_eq (e : Ev) : e.cutMoves = e.haltLines.returnAll := by
  unfold Ev.cutMoves Ev.returnAll
  with_reducible rfl

/-- Where a detach leaves the machine: no order is left, every MOVING zone has returned, every line that is ON is halted, every sweep move has
ended, and a running check is aborted. -/
structure State.CutOff (s t : State) : Prop where
  zone : ∀ u z, (s.zone u z).Returned (t.zone u z)
  aims : ∀ u z, (s.zone u z).SameAims (t.zone u z)
  orders : ∀ u, (t.unit u).tracked = none ∧ (t.unit u).waiting = none
  config : ∀ u, (t.unit u).config = (s.unit u).config
  currentSweep : ∀ u, (t.unit u).currentSweep = (s.unit u).currentSweep
  loopOn : ∀ u, (t.unit u).loopOn = (s.unit u).loopOn
  loopParams : ∀ u, (t.unit u).loopParams = (s.unit u).loopParams
  sweepFault : ∀ u, (t.unit u).sweepFault = (s.unit u).sweepFault
  staged : ∀ u, (s.unit u).waiting.isSome = true → (t.unit u).staged = none
  power : ∀ n, (t.line n).power = (s.line n).power
  modules : ∀ n, (t.line n).modules = (s.line n).modules
  checkResult : ∀ n, (t.line n).checkResult = (s.line n).checkResult
  fountain : ∀ n, (t.line n).fountain = (s.line n).fountain.quieted
  queue : ∀ n, (s.line n).power = .on → (t.line n).queue = { haltAll := true, halts := [], motion := [] }
  grants : s.grantsLawful → t.partGrants = 0
  check : t.check = s.check.map CheckRun.detached
  curves : t.curves = s.curves
  intake : t.intake = s.intake
  timing : t.timing = s.timing
  scanPulses : t.scanPulses = s.scanPulses
  pending : t.pending = s.pending

theorem Ev.cutMoves_cutOff (d : Ev) (a : Anchor) : d.toState.CutOff (d.endOrders a).cutMoves.toState := by
  have hD := Ev.endOrders_drops d a
  have hO := keeps_orderless.cutMoves (Ev.endOrders_orderless d a)
  have hNone := (d.endOrders a).cutMoves_not_moving
  generalize d.endOrders a = e at *
  rw [Ev.cutMoves_eq] at hO hNone ⊢
  have hline := e.haltLines_line
  obtain ⟨ls, hls⟩ := e.haltLines_eq
  have hunit : ∀ v, e.haltLines.unit v = e.unit v := fun v => by rw [hls]; rfl
  have hcheck : e.haltLines.check = e.check := by rw [hls]
  have hzone : ∀ v y, e.haltLines.zone v y = d.zone v y := fun v y => by
    obtain ⟨p, q, g, hr⟩ := (hD.unit v).same
    show (e.haltLines.unit v).zones[y] = _
    rw [hunit, hr]
    rfl
  have hgrants : d.toState.grantsLawful → e.haltLines.grantsLawful := fun h =>
    h.congr (t := e.haltLines.toState) (fun v y => by rw [hzone]) (fun m => by
      rw [hline]
      show (e.line m).grants = _
      rw [State.line, hD.machine.lines]
      rfl) (by rw [hls]; exact hD.machine.partGrants)
  have hcurves : e.haltLines.curves = e.curves := by rw [hls]
  have hintake : e.haltLines.intake = e.intake := by rw [hls]
  have htiming : e.haltLines.timing = e.timing := by rw [hls]
  have hpulses : e.haltLines.scanPulses = e.scanPulses := by rw [hls]
  have hpending : e.haltLines.pending = e.pending := by rw [hls]
  clear hls
  generalize e.haltLines = f at *
  have hdline : ∀ n, e.line n = d.line n := fun n => congrArg (fun ls : Vector Line 16 => ls[n]) hD.machine.lines
  have hG := f.returnAll_grantsOnly
  have hsame : ∀ v, (f.unit v).SameOrder (f.returnAll.unit v) := hG.unit
  have hreturned := f.returnAll_returned
  have hqueue := f.returnAll_queue
  have hlaw : d.toState.grantsLawful → f.returnAll.partGrants = 0 := fun h =>
    State.grantsLawful.partGrants_eq_zero (Ev.grantsLawful_returnAll (hgrants h)) hNone
  generalize f.returnAll = g at *
  have hrec : ∀ v, ∃ p q r, f.unit v = { d.unit v with tracked := p, waiting := q, staged := r } := fun v => by
    rw [hunit]
    exact (hD.unit v).same
  refine ⟨fun u z => by rw [← hzone]; exact hreturned u z, fun u z => by rw [← hzone]; exact hG.zone u z, hO, fun u => ?_, fun u => ?_, fun u => ?_,
    fun u => ?_, fun u => ?_, fun u hw => ?_, fun n => ?_, fun n => ?_, fun n => ?_, fun n => ?_, fun n hp => ?_, hlaw, hG.check.trans (hcheck.trans hD.machine.check),
    hG.curves.trans (hcurves.trans hD.machine.curves), hG.intake.trans (hintake.trans hD.machine.intake),
    hG.timing.trans (htiming.trans hD.machine.timing), hG.scanPulses.trans (hpulses.trans hD.machine.scanPulses),
    hG.pending.trans (hpending.trans hD.machine.pending)⟩
  · obtain ⟨p, q, r, hr⟩ := hrec u
    rw [(hsame u).config, hr]
  · obtain ⟨p, q, r, hr⟩ := hrec u
    rw [(hsame u).currentSweep, hr]
  · obtain ⟨p, q, r, hr⟩ := hrec u
    rw [(hsame u).loopOn, hr]
  · obtain ⟨p, q, r, hr⟩ := hrec u
    rw [(hsame u).loopParams, hr]
  · obtain ⟨p, q, r, hr⟩ := hrec u
    rw [(hsame u).sweepFault, hr]
  · have hnone : (e.unit u).waiting = none := by
      rw [← hunit, ← (hsame u).waiting]
      exact (hO u).2
    rw [(hsame u).staged, hunit]
    rcases (hD.unit u).waiting with ⟨h1, _⟩ | ⟨_, h2⟩
    · have hw' : (d.relieved.unit u).waiting.isSome = true := hw
      rw [← h1, hnone] at hw'
      cases hw'
    · exact h2
  · rw [(hG.line n).power, hline, hdline]
    rfl
  · rw [(hG.line n).modules, hline, hdline]
    rfl
  · rw [(hG.line n).checkResult, hline, hdline]
    rfl
  · rw [(hG.line n).fountain, hline, hdline]
    rfl
  · rw [hqueue, hline, hdline]
    exact if_pos hp

/-- The orders' ends and the mirrors apart, nothing else changes. -/
theorem State.CutOff.same {r : State} (h : s.CutOff r) (k : r.SameBlocks t) : s.CutOff t := by
  have hu : ∀ v, t.unit v = r.unit v := fun v => congrArg (fun us : Vector UnitRec 16 => us[v]) k.units
  have hl : ∀ n, t.line n = r.line n := fun n => congrArg (fun ls : Vector Line 16 => ls[n]) k.lines
  have hz : ∀ v y, t.zone v y = r.zone v y := fun v y => congrArg (fun r : UnitRec => r.zones[y]) (hu v)
  exact ⟨fun u z => hz u z ▸ h.zone u z, fun u z => hz u z ▸ h.aims u z, fun u => hu u ▸ h.orders u, fun u => hu u ▸ h.config u,
    fun u => hu u ▸ h.currentSweep u, fun u => hu u ▸ h.loopOn u, fun u => hu u ▸ h.loopParams u, fun u => hu u ▸ h.sweepFault u,
    fun u => hu u ▸ h.staged u, fun n => hl n ▸ h.power n, fun n => hl n ▸ h.modules n,
    fun n => hl n ▸ h.checkResult n, fun n => hl n ▸ h.fountain n, fun n => hl n ▸ h.queue n,
    fun j => k.partGrants.trans (h.grants j), k.check.trans h.check, k.curves.trans h.curves, k.intake.trans h.intake, k.timing.trans h.timing,
    k.scanPulses.trans h.scanPulses, k.pending.trans h.pending⟩

theorem Fountain.quieted_wanted (f : Fountain) : f.quieted.wanted = f.wanted := by
  unfold Fountain.quieted
  split <;> rfl

/-! ### The detach -/

/-- The event of a detach before what is owed is written (R160). -/
def Ev.cutOff (d : Ev) (a : Anchor) : Ev := (d.endOrders a).cutMoves.owing d.unitsWithOrders

theorem Ev.detach_cutOff (h : d.port.anchor = some a) : d.detach = (d.cutOff a).flush.updPort Port.leave := Ev.detach_of_anchor h

theorem Ev.Goes.owing (h : d.Goes U K e) (owed : List UnitNo) : d.Goes U K (e.owing owed) :=
  h.same rfl rfl rfl rfl rfl rfl (List.subset_append_right _ _)

theorem State.CutOff.owing (h : s.CutOff e.toState) (owed : List UnitNo) : s.CutOff (e.owing owed).toState :=
  h.same ⟨⟨rfl, rfl, rfl, rfl, rfl, rfl, rfl, rfl, rfl⟩, rfl⟩

theorem Ev.owing_port (e : Ev) (owed : List UnitNo) : (e.owing owed).port = e.port ∧ (e.owing owed).mem = e.mem := ⟨rfl, rfl⟩

theorem Ev.owing_due (e : Ev) (owed : List UnitNo) : (e.owing owed).arbiterDue = false := rfl

theorem Ev.mem_owing (e : Ev) {owed : List UnitNo} (h : u ∈ owed) : u ∈ (e.owing owed).mirrorDue := List.mem_append_left _ h

theorem Ev.cutOff_goes (d : Ev) (a : Anchor) : d.relieved.Goes anyUnit (fun _ => True) (d.cutOff a) := by
  have h1 : d.relieved.Goes anyUnit (fun _ => True) (d.endOrders a) := Ev.endOrders_goes (fun _ _ _ => trivial) a
  have hhalt : d.relieved.Goes anyUnit (fun _ => True) (d.endOrders a).haltLines := by
    unfold Ev.haltLines
    refine Ev.Goes.foldl (fun f n h => ?_) _ h1
    split
    · exact (h.updQueue n _).endSweepQuietly trivial
    · exact h.endSweepQuietly trivial
  have hreturn : d.relieved.Goes anyUnit (fun _ => True) (d.endOrders a).cutMoves := by
    rw [Ev.cutMoves_eq]
    exact Ev.Goes.foldl (fun f u h => h.returnMoving u) _ hhalt
  exact hreturn.owing _

theorem Ev.cutMoves_port (e : Ev) : e.cutMoves.port = e.port ∧ e.cutMoves.mem = e.mem := by
  rw [Ev.cutMoves_eq]
  have hG := e.haltLines.returnAll_grantsOnly
  obtain ⟨ls, hls⟩ := e.haltLines_eq
  rw [hG.port, hG.mem, hls]
  exact ⟨rfl, rfl⟩

theorem Ev.cutOff_port (d : Ev) (a : Anchor) : (d.cutOff a).port = (d.endOrders a).port ∧ (d.cutOff a).mem = (d.endOrders a).mem := by
  obtain ⟨h1, h2⟩ := (d.endOrders a).cutMoves_port
  obtain ⟨h3, h4⟩ := (d.endOrders a).cutMoves.owing_port d.unitsWithOrders
  exact ⟨h3.trans h1, h4.trans h2⟩

theorem Ev.cutOff_cutOff (d : Ev) (a : Anchor) : d.toState.CutOff (d.cutOff a).toState := (Ev.cutMoves_cutOff d a).owing _

theorem Ev.cutOff_due (d : Ev) (a : Anchor) : (d.cutOff a).arbiterDue = false := (d.endOrders a).cutMoves.owing_due _

/-- A part with no order ends its event as it has detached. -/
theorem Ev.settle_orderless (h : e.Orderless) (ha : e.attached = false) (hd : e.arbiterDue = false) : e.settle.toState = e.toState := by
  have hfold (l : List UnitNo) : l.foldl (fun e u => e.testOrder u) e = e := by
    induction l with
    | nil => rfl
    | cons u l ih =>
      rw [List.foldl_cons, Ev.testOrder, (h u).1]
      exact ih
  have h1 : e.settleArbiter = e := by simp [Ev.settleArbiter, hd]
  have h2 : e.runTests = { e with testDue := [] } := by rw [Ev.runTests, hfold]
  have ha' : ({ e with testDue := [] } : Ev).attached = false := ha
  rw [Ev.settle, h1, h2, Ev.flush, ha']

/-- How a detach leaves the state of an event. -/
structure Ev.DetachedAs (d : Ev) (a : Anchor) (t : State) : Prop where
  cut : d.toState.CutOff t
  course : ({ d.port with scanTimer := none, handedMarks := 0 } : Port).leave.SameCourse t.port
  notices : d.port.notices &&& t.port.notices = d.port.notices
  retire : t.port.retire = (d.endOrders a).port.retire
  finished : t.port.finished = (d.endOrders a).port.finished
  counts : t.port.updateCounts = (d.cutOff a).flush.port.updateCounts
  mem : t.mem = (d.cutOff a).flush.mem
  units : t.units = (d.cutOff a).flush.units

/-- The part leaves, what it owes being written. -/
theorem Ev.flush_leave (hG : d.relieved.Goes anyUnit (fun _ => True) e) (hC : d.toState.CutOff e.toState) :
    d.toState.CutOff (e.flush.updPort Port.leave).toState
      ∧ ({ d.port with scanTimer := none, handedMarks := 0 } : Port).leave.SameCourse (e.flush.updPort Port.leave).port
      ∧ d.port.notices &&& (e.flush.updPort Port.leave).port.notices = d.port.notices
      ∧ (e.flush.updPort Port.leave).port.retire = e.port.retire ∧ (e.flush.updPort Port.leave).port.finished = e.port.finished := by
  have hF := e.flush_blocks
  have hn := hG.notices
  generalize e.flush = w at *
  refine ⟨hC.same ⟨⟨hF.curves, hF.lines, hF.partGrants, hF.pointer, hF.check, hF.intake, hF.timing, hF.scanPulses, hF.pending⟩, hF.units⟩, ?_, ?_, ?_, ?_⟩
  · obtain ⟨h1, h2, h3, h4, h5, h6, h7, h8, h9, h10, h11, h12, h13, h14, h15, h16, h17, h18⟩ := hG.course
    show Port.SameCourse _ w.port.leave
    rw [hF.port]
    exact ⟨rfl, h2, rfl, h4, h5, h6, h7, h8, h9, h10, rfl, h12, h13, h14, h15, h16, h17, h18⟩
  · show _ &&& w.port.notices = _
    rw [hF.port]
    exact hn
  · show w.port.retire = _
    rw [hF.port]
  · show w.port.finished = _
    rw [hF.port]

theorem Ev.leave_settle (hO : e.Orderless) (hd : e.arbiterDue = false) :
    (e.flush.updPort Port.leave).settle.toState = (e.flush.updPort Port.leave).toState :=
  Ev.settle_orderless (e := e.flush.updPort Port.leave) (keeps_orderless.flush hO) (State.attached_eq_false (by exact fun j => nomatch j))
    (e.flush_kept.2.trans hd)

theorem Ev.leave_mem (e : Ev) : (e.updPort Port.leave).port.updateCounts = e.port.updateCounts ∧ (e.updPort Port.leave).mem = e.mem
    ∧ (e.updPort Port.leave).units = e.units := ⟨rfl, rfl, rfl⟩

theorem Ev.detach_settled (h : d.port.anchor = some a) : d.DetachedAs a d.detach.settle.toState := by
  have hC := Ev.cutOff_cutOff d a
  obtain ⟨h1, h2, h3, h4, h5⟩ := Ev.flush_leave (Ev.cutOff_goes d a) hC
  obtain ⟨h6, h7, h8⟩ := (d.cutOff a).flush.leave_mem
  obtain ⟨hp, _⟩ := Ev.cutOff_port d a
  rw [Ev.detach_cutOff h, Ev.leave_settle (fun u => hC.orders u) (d.cutOff_due a)]
  exact ⟨h1, h2, h3, h4.trans (by rw [hp]), h5.trans (by rw [hp]), h6, h7, h8⟩

/-- The slots, word 15 and the mirror at the end of a detach. -/
theorem Ev.DetachedAs.slot (h : d.DetachedAs a t) (hk : k < a.ringLength) (hc : (d.endOrders a).Closed a k st x) : t.SlotShows a k st x := by
  obtain ⟨hport, hmem⟩ := Ev.cutOff_port d a
  have hl : (d.cutOff a).toState.Linked a :=
    ⟨by rw [hport]; exact hc.linked.attached, by rw [hport]; exact hc.linked.anchor, hc.linked.inMemory, hc.linked.disjoint, by rw [hmem]; exact hc.linked.wf⟩
  obtain ⟨h1, h2⟩ := Ev.flush_shows (e := d.cutOff a) hl hk ⟨by rw [hmem]; exact hc.shows.status, by rw [hmem]; exact hc.shows.detail⟩
  exact ⟨by rw [h.mem]; exact h1, by rw [h.mem]; exact h2⟩

theorem Ev.DetachedAs.word15 (h : d.DetachedAs a t) (hl : d.toState.Linked a) :
    Memory.read t.mem 15 = Memory.read (d.endOrders a).mem 15 := by
  have hG := Ev.cutOff_goes d a
  obtain ⟨_, hmem⟩ := Ev.cutOff_port d a
  have hW := (d.cutOff a).flush_wroteRegions (hG.course.anchor.trans hl.anchor)
  rw [h.mem, (hW.mem (hG.wf hl.wf)).2 15 (not_or.2 (Anchor.offsets_apart hl.disjoint (by omega))), hmem]

theorem Ev.DetachedAs.unit (h : d.DetachedAs a t) (v : UnitNo) : t.unit v = (d.cutOff a).flush.unit v :=
  congrArg (fun us : Vector UnitRec 16 => us[v]) h.units

/-- The blocks that a detach owes (R160). -/
theorem Ev.cutOff_owes (a : Anchor)
    (hu : (d.unit u).tracked.isSome = true ∨ (d.unit u).waiting.isSome = true ∨ ∃ z, (d.zone u z).state = .moving) : u ∈ (d.cutOff a).mirrorDue := by
  by_cases ho : (d.unit u).tracked.isSome = true ∨ (d.unit u).waiting.isSome = true
  · have hmem : u ∈ d.unitsWithOrders := by simpa [State.unitsWithOrders, ascending] using ho
    exact (d.endOrders a).cutMoves.mem_owing hmem
  · obtain ⟨z, hz⟩ := (hu.resolve_left fun j => ho (.inl j)).resolve_left fun j => ho (.inr j)
    refine (Ev.cutOff_goes d a).changed u z fun j => ?_
    have hz' : (d.relieved.zone u z).state = .moving := hz
    rw [((Ev.cutOff_cutOff d a).zone u z).moving hz, hz'] at j
    cases j

theorem Ev.DetachedAs.mirror (h : d.DetachedAs a t) (hl : d.toState.Linked a)
    (hu : (d.unit u).tracked.isSome = true ∨ (d.unit u).waiting.isSome = true ∨ ∃ z, (d.zone u z).state = .moving) :
    d.toState.MirrorWritten t a u := by
  have hG := Ev.cutOff_goes d a
  obtain ⟨h1, h2⟩ := (hG.came).written hl.relieved (hG.wf hl.wf) (Ev.cutOff_owes a hu)
  exact ⟨by rw [h.counts]; exact h1, by rw [h.mem, h.counts, h.unit]; exact h2⟩

/-! ### The register command -/

theorem State.detach_unattached (hs : s.port.state ≠ .attached) (p : Port) (hp : p.state ≠ .attached)
    (h : (Ev.ofState s.writesDone).detachCommand 2 = (Ev.ofState s.writesDone).updPort fun _ => p) :
    exec .detach s = .next { s with unfinished := [], port := p } := by
  have hx : exec .detach s = act s fun e => e.detachCommand 2 := rfl
  have hatt : ((Ev.ofState s.writesDone).detachCommand 2).attached = false := by
    rw [h]
    exact State.attached_eq_false (s := ((Ev.ofState s.writesDone).updPort fun _ => p).toState) hp
  rw [hx, act_of_not_attached (State.attached_eq_false hs) hatt (by rw [h]; rfl) (by rw [h]; rfl), h]
  rfl

/-- The event of an ATTACHED part's DETACH, as the register command has it. -/
def State.detaching (s : State) : Ev := (s.landed []).updPort fun p => { p with commandWord := 2 }

theorem State.exec_detach (hs : s.port.state = .attached) (h : s.regionsInMemory = true) :
    exec .detach s = .next s.detaching.detach.settle.toState := by
  have hx : exec .detach s = act s fun e => e.detachCommand 2 := rfl
  have hcmd : (s.landed []).detachCommand 2 = s.detaching.detach := by
    have hst : ((s.landed []).updPort fun p => { p with commandWord := 2 }).port.state = .attached := hs
    unfold Ev.detachCommand State.detaching
    dsimp only
    rw [hst]
  rw [hx, act_landed h, hcmd]

theorem State.anchor_of_regions (hs : s.port.state = .attached) (h : s.regionsInMemory = true) : ∃ a, s.port.anchor = some a := by
  unfold State.regionsInMemory State.attached at h
  rw [hs] at h
  cases ha : s.port.anchor with
  | none =>
    rw [ha] at h
    cases h
  | some a => exact ⟨a, rfl⟩

theorem CheckRun.map_detached (hc : s.check = some c) (hp : c.phase ≠ .abortDrain) : s.check.map CheckRun.detached = some c.abort := by
  rw [hc, Option.map_some, CheckRun.detached, if_neg hp]

/-- Settles O10: in ATTACHED the orders end, the moves are cut, and what is owed is written before the part leaves. -/
theorem detachActsByPartState : Obligations.DetachActsByPartState := by
  intro s
  refine ⟨fun hs => ?_, fun hs => ?_, fun hs h => ?_⟩
  · refine State.detach_unattached (by rw [hs]; decide) _ (by exact fun j => nomatch hs.symm.trans j) ?_
    have hst : ((Ev.ofState s.writesDone).updPort fun p => { p with commandWord := 2 }).port.state = .detached := hs
    unfold Ev.detachCommand
    dsimp only
    rw [hst]
    rfl
  · refine State.detach_unattached (by rw [hs]; decide) _ (by exact fun j => nomatch hs.symm.trans j) ?_
    have hst : ((Ev.ofState s.writesDone).updPort fun p => { p with commandWord := 2 }).port.state = .attaching := hs
    unfold Ev.detachCommand
    dsimp only
    rw [hst]
    rfl
  obtain ⟨b, hb⟩ := State.anchor_of_regions hs h
  refine ⟨_, State.exec_detach hs h, ?_⟩
  have hD : s.detaching.DetachedAs b s.detaching.detach.settle.toState := Ev.detach_settled hb
  generalize s.detaching.detach.settle.toState = t at *
  have hC : s.CutOff t := { hD.cut with grants := hD.cut.grants }
  have hcourse := hD.course
  have hanchor : ∀ a, s.Linked a → b = a := fun a hl => Option.some.inj (hb.symm.trans hl.anchor)
  have hlink : ∀ a, s.Linked a → s.detaching.toState.Linked a := fun a hl => ⟨hl.attached, hl.anchor, hl.inMemory, hl.disjoint, hl.wf⟩
  refine ⟨hcourse.state, hcourse.lastOutcome, hcourse.commandWord, hcourse.detachDeferred, hcourse.scanTimer, hcourse.handedMarks, hcourse.mask,
    hD.notices, hcourse.segment, hcourse.openSegment, fun u => ⟨(hC.orders u).1, (hC.orders u).2, hC.config u, hC.loopOn u, hC.sweepFault u⟩,
    fun u z => ⟨(hC.zone u z).state, hC.aims u z⟩, fun n => ⟨hC.power n, by rw [hC.fountain, Fountain.quieted_move], by rw [hC.fountain, Fountain.quieted_wanted], hC.queue n⟩,
    fun c hc hp => by rw [hC.check, CheckRun.map_detached hc hp], hC.grants, hC.staged, fun a hl => ?_, hC.curves, hC.intake, hC.timing⟩
  obtain rfl := hanchor a hl
  refine ⟨fun u o ho hfree _ hk hc => ?_, fun c o hc hp hne hA hB hk hcount => ?_, fun u hu => ?_, fun hr => ?_⟩
  · exact hD.slot hk (Ev.endOrders_shows (d := s.detaching) (hlink _ hl) ho hfree hk hc)
  · exact hD.slot hk (Ev.endOrders_check (d := s.detaching) (hlink _ hl) hc hp hne hA hB hk hcount)
  · obtain ⟨h1, h2⟩ := hD.mirror (hlink _ hl) hu
    exact ⟨h1, h2⟩
  · have hr' : s.detaching.toState.RingAccounted b := ⟨hr.retire, hr.take, hr.accounted, hr.retireOpen, hr.takeOpen, hr.shared⟩
    obtain ⟨h1, h2⟩ := Ev.endOrders_ring hr' (hlink _ hl)
    exact ⟨hD.retire.trans h1, fun hne => (hD.word15 (hlink _ hl)).trans (h2 hne)⟩

end Sys2Proof.Machine
end

