-- ==== Sys2Proof/Proofs/WholeReports.lean ====
section
/-! PROOFS. The exchange memory that shows the whole machine (R158, R165, R166): every mirror block its unit, and the status area the
part. What the end of an event writes keeps it so. -/

namespace Sys2Proof.Machine

open Decode

variable {d e f : Ev} {s t : State} {u v : UnitNo} {n m : LineNo} {a : Anchor} {k : Nat}

/-! ### The status area -/

/-- The part shows the same in the status area, the sweep faults apart (R166). -/
structure State.ReportsAs (s t : State) : Prop where
  snapshotSheet : t.port.snapshotSheet = s.port.snapshotSheet
  lostScans : t.port.lostScans = s.port.lostScans
  fault : t.port.fault = s.port.fault
  intake : t.intake = s.intake
  entry : ∀ n, lineEntry (t.line n) = lineEntry (s.line n)

theorem State.ReportsAs.refl (s : State) : s.ReportsAs s := ⟨rfl, rfl, rfl, rfl, fun _ => rfl⟩

theorem State.ReportsAs.trans {r : State} (h : r.ReportsAs s) (k : s.ReportsAs t) : r.ReportsAs t :=
  ⟨k.1.trans h.1, k.2.trans h.2, k.3.trans h.3, k.4.trans h.4, fun n => (k.5 n).trans (h.5 n)⟩

theorem State.ReportsAs.area (h : s.ReportsAs t) (k : Nat) :
    statusArea { t with freeDraws := k } = (statusArea { s with freeDraws := k }).set 3 (statusWord3 t) := by
  have hentries : t.lines.toList.flatMap lineEntry = s.lines.toList.flatMap lineEntry := by
    rw [List.flatMap_def, List.flatMap_def]
    congr 1
    refine List.ext_getElem (by simp) fun i h1 h2 => ?_
    have hi : i < 16 := by simpa using h1
    simpa [State.line] using h.entry ⟨i, hi⟩
  have h1 : statusWord1 { t with freeDraws := k } = statusWord1 { s with freeDraws := k } := by
    simp only [statusWord1, h.lostScans, h.intake]
  have h2 : statusWord2 { t with freeDraws := k } = statusWord2 { s with freeDraws := k } := by
    simp only [statusWord2, h.fault, h.intake]
  have h3 : statusWord3 { t with freeDraws := k } = statusWord3 t := rfl
  unfold statusArea
  rw [h1, h2, h3]
  dsimp only
  rw [hentries, h.intake, h.snapshotSheet]
  rfl

theorem statusArea_length (s : State) : (statusArea s).length = Config.statusWords := by
  have hwatch : (s.intake.watches.toList.flatMap fun w => watchEntry w s.freeDraws).length = 12 := by
    rw [List.length_flatMap]
    simp [watchEntry]
  have hlines : (s.lines.toList.flatMap lineEntry).length = 32 := by
    rw [List.length_flatMap]
    simp [lineEntry]
  unfold statusArea
  simp only [List.length_append, hwatch, hlines, List.length_replicate, List.length_cons, List.length_nil]
  rfl

theorem statusArea_three (s : State) : (statusArea s)[3]? = some (statusWord3 s) := rfl

/-- Words read again, one of them written. -/
theorem Memory.readWords_set {m m' : Memory} {base n i : Nat}
    (h : ∀ x, base ≤ x → x < base + n → x ≠ base + i → Memory.read m' x = Memory.read m x) :
    Memory.readWords m' base n = (Memory.readWords m base n).set i (Memory.read m' (base + i)) := by
  rw [Memory.readWords_eq_map, Memory.readWords_eq_map]
  refine List.ext_getElem (by simp) fun j h1 h2 => ?_
  have hj : j < n := by simpa using h1
  rw [List.getElem_set]
  split
  · next hij =>
    subst hij
    simp
  · next hij =>
    simp only [List.getElem_map, List.getElem_range]
    exact h _ (by omega) (by omega) (by omega)

/-! ### The whole -/

/-- Every mirror block shows the unit of `r`, and the status area shows `r`, its free fields as drawn (log entry 4). -/
structure Ev.ShowsAll (e : Ev) (a : Anchor) (k : Nat) (r : State) : Prop where
  blocks : ∀ u : UnitNo, Memory.readWords e.mem (a.blockBase u) Config.blockWords = mirrorBlock e.port.updateCounts[u] (r.unit u)
  area : Memory.readWords e.mem a.statusBase Config.statusWords = statusArea { r with freeDraws := k }

/-- The blocks that an event does not owe show their units as they stand. -/
structure Ev.OwesAll (r : State) (e : Ev) : Prop where
  start : e.start.intake = r.intake ∧ e.start.port.lostScans = r.port.lostScans ∧ e.start.port.fault = r.port.fault
    ∧ ∀ u, (e.start.unit u).sweepFault = (r.unit u).sweepFault
  reports : r.ReportsAs e.toState
  lines : e.lineDue = []
  blocks : ∀ u, u ∈ e.mirrorDue ∨ blockWords (e.unit u) = blockWords (r.unit u)

/-- Of the status area the sweep faults alone are written (R166). -/
theorem Ev.writeChangedStatus_same (hi : e.intake = e.start.intake) (hl : e.port.lostScans = e.start.port.lostScans)
    (hf : e.port.fault = e.start.port.fault) (a : Anchor) :
    (e.writeChangedStatus a).mem = (e.writeIf (statusWord3 e.start != statusWord3 e.toState) (a.statusBase + 3) (statusWord3 e.toState)).mem := by
  have h1 : statusWord1 e.start = statusWord1 e.toState := by rw [statusWord1, statusWord1, hi, hl]
  have h2 : e.start.intake.lastScan = e.intake.lastScan ∧ e.start.intake.setting = e.intake.setting ∧ e.start.port.fault = e.port.fault :=
    ⟨by rw [hi], by rw [hi], hf.symm⟩
  have hno : ∀ (x : Nat) (w : Word), e.writeIf false x w = e := fun _ _ => rfl
  unfold Ev.writeChangedStatus
  dsimp only
  rw [h1, bne_self_eq_false, hno, decide_eq_false (not_not.2 h2), hno]
  generalize hg : e.writeIf (statusWord3 e.start != statusWord3 e.toState) (a.statusBase + 3) (statusWord3 e.toState) = g
  have hgi : g.intake = g.start.intake := by
    rw [← hg, Ev.writeIf_intake', Ev.writeIf_start, hi]
  rw [Ev.foldl_writeWatch_of_same_intake hgi]

theorem Ev.Wrote.trans {W : Nat → Prop} (h : d.Wrote e W) (k : e.Wrote f W) : d.Wrote f W := by
  refine ⟨k.units.trans h.units, k.curves.trans h.curves, k.lines.trans h.lines, k.partGrants.trans h.partGrants, k.pointer.trans h.pointer,
    k.check.trans h.check, k.intake.trans h.intake, k.timing.trans h.timing, k.scanPulses.trans h.scanPulses, k.pending.trans h.pending,
    k.port.trans (by rw [h.port]), fun hw => ?_⟩
  obtain ⟨h1, h2⟩ := h.mem hw
  obtain ⟨k1, k2⟩ := k.mem h1
  exact ⟨k1, fun x hx => (k2 x hx).trans (h2 x hx)⟩

theorem Ev.writeMirrors_wrote (a : Anchor) (l : List UnitNo) (e : Ev) :
    e.Wrote (l.foldl (fun e u => e.writeMirror a u) e) a.inMirror ∧ (l.foldl (fun e u => e.writeMirror a u) e).start = e.start := by
  induction l generalizing e with
  | nil => exact ⟨.refl e, rfl⟩
  | cons u l ih =>
    obtain ⟨h1, h2⟩ := ih (e.writeMirror a u)
    exact ⟨((Ev.Wrote.refl e).writeMirror a u fun _ => Anchor.inMirror_of_inBlock).trans h1, h2⟩

/-- What the end of an event writes to a unit's block and to the status area, when it owes no line entry. -/
theorem Ev.flush_words (ha : e.attached = true) (hc : e.port.anchor = some a) (hs : a.Sound) (hw : Memory.wf e.mem = true) (hl : e.lineDue = [])
    (hi : e.intake = e.start.intake) (hlost : e.port.lostScans = e.start.port.lostScans) (hf : e.port.fault = e.start.port.fault) :
    (∀ u, u ∈ e.mirrorDue → e.toState.MirrorWritten e.flush.toState a u)
      ∧ (∀ u, u ∉ e.mirrorDue → e.flush.port.updateCounts[u] = e.port.updateCounts[u]
        ∧ Memory.readWords e.flush.mem (a.blockBase u) Config.blockWords = Memory.readWords e.mem (a.blockBase u) Config.blockWords)
      ∧ (Memory.read e.mem (a.statusBase + 3) = statusWord3 e.start → Memory.read e.flush.mem (a.statusBase + 3) = statusWord3 e.toState)
      ∧ ∀ x, a.inStatus x → x ≠ a.statusBase + 3 → Memory.read e.flush.mem x = Memory.read e.mem x := by
  refine ⟨fun u hu => Ev.flush_mirror ha hc hs hw hu, ?_⟩
  obtain ⟨hw1, _, _, hout⟩ := Ev.writeMirrors hs (inOrder_nodup e.mirrorDue) hw
  obtain ⟨hwrote, hstart⟩ := e.writeMirrors_wrote a (inOrder e.mirrorDue)
  generalize hd : (inOrder e.mirrorDue).foldl (fun e u => e.writeMirror a u) e = d at *
  have hflush : e.flush.port = d.port ∧ e.flush.mem = (d.writeChangedStatus a).mem := by
    have hport := Ev.writeChangedStatus_port d a
    unfold Ev.flush
    rw [ha, hc, hl]
    dsimp only
    rw [hd]
    exact ⟨hport, rfl⟩
  have hword3 : statusWord3 d.toState = statusWord3 e.toState := statusWord3_congr fun u => by rw [State.unit, hwrote.units]; rfl
  have hmem : e.flush.mem = (d.writeIf (statusWord3 e.start != statusWord3 e.toState) (a.statusBase + 3) (statusWord3 e.toState)).mem := by
    rw [hflush.2, Ev.writeChangedStatus_same (by rw [hwrote.intake, hstart, hi]) (by rw [hwrote.port, hstart]; exact hlost)
      (by rw [hwrote.port, hstart]; exact hf), hstart, hword3]
  have hin : ∀ x, a.inStatus x → ¬a.inMirror x := fun x hx hm => by
    have hdis := hs.disjoint
    simp [Anchor.regions, disjointRegions, anchorRegion, Region.shares, Config.anchorWords, Config.slotWords, Config.mirrorWords,
      Config.statusWords] at hdis
    simp only [Anchor.inMirror, Anchor.inStatus, Config.statusWords, Config.mirrorWords] at hx hm
    omega
  have hread : ∀ x, a.inStatus x → Memory.read d.mem x = Memory.read e.mem x := fun x hx => (hwrote.mem hw).2 x (hin x hx)
  have hsize : a.statusBase + 3 < Config.memoryWords := by
    have hm := hs.inMemory
    simp [Anchor.regions, Region.inMemory, Config.slotWords, Config.mirrorWords, Config.statusWords, Config.memoryWords] at hm
    simp only [Config.memoryWords]
    omega
  have hother : ∀ x, x ≠ a.statusBase + 3 → Memory.read e.flush.mem x = Memory.read d.mem x := fun x hx => by
    rw [hmem]
    unfold Ev.writeIf
    split
    · exact Memory.read_write_outside _ _ _ _ hw1 (by simp only [List.length_singleton]; omega)
    · rfl
  have h3 : a.inStatus (a.statusBase + 3) := ⟨by omega, by simp only [Config.statusWords]; omega⟩
  refine ⟨fun u hu => ?_, fun hold => ?_, fun x hx hne => (hother x hne).trans (hread x hx)⟩
  · obtain ⟨h1, h2⟩ := hout u fun j => hu (mem_inOrder.1 j)
    refine ⟨by rw [hflush.1, h1], (Memory.readWords_congr fun x h4 h5 => hother x ?_).trans h2⟩
    rintro rfl
    exact hs.block_apart_status (u := u) ⟨h4, h5⟩ h3
  · rw [hmem]
    unfold Ev.writeIf
    split
    · refine (Memory.read_write _ _ _ _ hw1).trans ?_
      rw [if_pos (by simp; omega)]
      simp
    · next hsame =>
      rw [hread _ h3, hold]
      simpa using hsame

/-- What the end of an event leaves of a memory that shows the whole machine. -/
theorem Ev.ShowsAll.flush (h : e.ShowsAll a k s) (ho : e.OwesAll s) (ha : e.attached = true) (hc : e.port.anchor = some a) (hs : a.Sound)
    (hw : Memory.wf e.mem = true) : e.flush.ShowsAll a k e.toState := by
  obtain ⟨h1, h2, h3, h4⟩ := ho.start
  have hR := ho.reports
  obtain ⟨f1, f2, f3, f4⟩ := Ev.flush_words ha hc hs hw ho.lines (by rw [h1, hR.intake]) (by rw [h2, hR.lostScans]) (by rw [h3, hR.fault])
  refine ⟨fun u => ?_, ?_⟩
  · by_cases hu : u ∈ e.mirrorDue
    · have hunit : e.flush.unit u = e.unit u := congrArg (fun us : Vector UnitRec 16 => us[u]) e.flush_blocks.units
      have hb := (f1 u hu).block
      rw [hunit] at hb
      exact hb
    · obtain ⟨c1, c2⟩ := f2 u hu
      rw [c2, c1, h.blocks u, mirrorBlock, mirrorBlock, (ho.blocks u).resolve_left hu]
  · have hword : Memory.read e.mem (a.statusBase + 3) = statusWord3 s := by
      have hget := congrArg (fun l : List Word => l[3]?) h.area
      simp only [statusArea_three, Memory.readWords_eq_map] at hget
      refine Eq.trans ?_ (rfl : statusWord3 { s with freeDraws := k } = statusWord3 s)
      simpa [Config.statusWords] using hget
    have hw3 : statusWord3 e.start = statusWord3 s := statusWord3_congr h4
    rw [Memory.readWords_set (i := 3) fun x x1 x2 x3 => f4 x ⟨x1, x2⟩ x3, h.area, f3 (hword.trans hw3.symm)]
    exact (hR.area k).symm

end Sys2Proof.Machine
end

