-- ==== Sys2Proof/Proofs/Resumptions.lean ====
section
/-! PROOFS. The moves that an attach resumes (R158): the arbiter's grants and the fountains' pursuit. A unit owes its mirror block exactly
when a zone of it has changed its state or its sweep fault has been set. -/

namespace Sys2Proof.Machine

open Decode

variable {d e f : Ev} {s t : State} {u v : UnitNo} {n m : LineNo} {z y : ZoneNo} {a : Anchor} {k x : Nat}

/-- The unit's mirror block shows the same. -/
structure UnitRec.ShownAs (r r' : UnitRec) : Prop where
  config : r'.config = r.config
  currentSweep : r'.currentSweep = r.currentSweep
  loopOn : r'.loopOn = r.loopOn
  sweepFault : r'.sweepFault = r.sweepFault
  zone : ∀ z : ZoneNo, (r'.zones[z]).state = (r.zones[z]).state ∧ (r'.zones[z]).faultCause = (r.zones[z]).faultCause
    ∧ (r.zones[z]).SameAims r'.zones[z]

theorem UnitRec.ShownAs.blockWords {r r' : UnitRec} (h : r.ShownAs r') : blockWords r' = blockWords r := by
  have hsum : summaryWord r' = summaryWord r := by
    unfold summaryWord UnitRec.zoneCount UnitRec.defined
    rw [h.config, h.currentSweep, h.loopOn, h.sweepFault]
  have hentries : zoneEntries r' = zoneEntries r := by
    unfold zoneEntries
    rw [List.flatMap_def, List.flatMap_def]
    congr 1
    refine List.ext_getElem (by simp) fun i h1 h2 => ?_
    have hi : i < 64 := by simpa using h1
    obtain ⟨hs, hc, hA⟩ := h.zone ⟨i, hi⟩
    have hw1 : zoneWord1 (r'.zones[(⟨i, hi⟩ : ZoneNo)]) = zoneWord1 (r.zones[(⟨i, hi⟩ : ZoneNo)]) := by
      unfold zoneWord1
      rw [hs, hc, hA.coverage, hA.plan]
    have hw2 : zoneWord2 (r'.zones[(⟨i, hi⟩ : ZoneNo)]) = zoneWord2 (r.zones[(⟨i, hi⟩ : ZoneNo)]) := by
      unfold zoneWord2
      rw [hA.offset, hA.target, hA.position]
    simpa using ⟨hw1, hw2⟩
  unfold Machine.blockWords
  rw [hsum, hentries]

/-- What a line entry of the status area shows stays. -/
structure Line.EntryKept (l l' : Line) : Prop where
  power : l'.power = l.power
  checkResult : l'.checkResult = l.checkResult
  modules : l'.modules = l.modules

theorem Line.EntryKept.entry {l l' : Line} (h : l.EntryKept l') : lineEntry l' = lineEntry l := by
  unfold lineEntry perAddress
  rw [h.power, h.checkResult, h.modules]

/-- A zone's state stays, or the zone has been granted its move. -/
def Zone.Started (r r' : Zone) : Prop := r'.state = r.state ∨ (r.state ≠ .moving ∧ r'.state = .moving)

/-- What the resumption of moves leaves. -/
structure Ev.Resumes (d e : Ev) : Prop where
  config : ∀ u, (e.unit u).config = (d.unit u).config
  currentSweep : ∀ u, (e.unit u).currentSweep = (d.unit u).currentSweep
  loopOn : ∀ u, (e.unit u).loopOn = (d.unit u).loopOn
  loopParams : ∀ u, (e.unit u).loopParams = (d.unit u).loopParams
  orders : d.SameOrders e
  aims : ∀ u z, (d.zone u z).SameAims (e.zone u z)
  line : ∀ n, (d.line n).EntryKept (e.line n)
  port : e.port = d.port
  mem : e.mem = d.mem
  check : e.check = d.check
  curves : e.curves = d.curves
  intake : e.intake = d.intake
  timing : e.timing = d.timing
  scanPulses : e.scanPulses = d.scanPulses
  pending : e.pending = d.pending
  start : e.start = d.start
  lineDue : e.lineDue = d.lineDue
  owed : d.mirrorDue ⊆ e.mirrorDue
  started : ∀ u z, (d.zone u z).Started (e.zone u z)
  fault : ∀ u, (e.unit u).sweepFault = (d.unit u).sweepFault ∨ ((d.unit u).sweepFault = false ∧ (e.unit u).sweepFault = true)
  due : ∀ u ∈ e.mirrorDue, u ∈ d.mirrorDue ∨ (∃ z, (e.zone u z).state ≠ (d.zone u z).state) ∨ (e.unit u).sweepFault ≠ (d.unit u).sweepFault
  shown : ∀ u, u ∈ e.mirrorDue ∨ ((e.unit u).sweepFault = (d.unit u).sweepFault
    ∧ ∀ z, (e.zone u z).state = (d.zone u z).state ∧ (e.zone u z).faultCause = (d.zone u z).faultCause)

namespace Ev.Resumes

theorem refl (e : Ev) : e.Resumes e :=
  ⟨fun _ => rfl, fun _ => rfl, fun _ => rfl, fun _ => rfl, .refl e, fun _ _ => .refl _, fun _ => ⟨rfl, rfl, rfl⟩, rfl, rfl, rfl, rfl, rfl, rfl, rfl, rfl,
    rfl, rfl, List.Subset.refl _, fun _ _ => .inl rfl, fun _ => .inl rfl, fun _ h => .inl h, fun _ => .inr ⟨rfl, fun _ => ⟨rfl, rfl⟩⟩⟩

theorem trans (h : d.Resumes e) (k : e.Resumes f) : d.Resumes f where
  config u := (k.config u).trans (h.config u)
  currentSweep u := (k.currentSweep u).trans (h.currentSweep u)
  loopOn u := (k.loopOn u).trans (h.loopOn u)
  loopParams u := (k.loopParams u).trans (h.loopParams u)
  orders := h.orders.trans k.orders
  aims u z := (h.aims u z).trans (k.aims u z)
  line n := ⟨(k.line n).1.trans (h.line n).1, (k.line n).2.trans (h.line n).2, (k.line n).3.trans (h.line n).3⟩
  port := k.port.trans h.port
  mem := k.mem.trans h.mem
  check := k.check.trans h.check
  curves := k.curves.trans h.curves
  intake := k.intake.trans h.intake
  timing := k.timing.trans h.timing
  scanPulses := k.scanPulses.trans h.scanPulses
  pending := k.pending.trans h.pending
  start := k.start.trans h.start
  lineDue := k.lineDue.trans h.lineDue
  owed := List.Subset.trans h.owed k.owed
  started u z := by
    rcases k.started u z with k1 | ⟨k1, k2⟩
    · exact (h.started u z).imp k1.trans fun j => ⟨j.1, k1.trans j.2⟩
    · exact .inr ⟨(h.started u z).elim (fun j i => k1 (j.trans i)) And.left, k2⟩
  fault u := by
    rcases k.fault u with k1 | ⟨k1, k2⟩
    · exact (h.fault u).imp k1.trans fun j => ⟨j.1, k1.trans j.2⟩
    · exact .inr ⟨(h.fault u).elim (fun j => j.symm.trans k1) And.left, k2⟩
  due u hu := by
    rcases k.due u hu with k1 | ⟨z, hz⟩ | hs
    · rcases h.due u k1 with h1 | ⟨z, hz⟩ | hs
      · exact .inl h1
      · obtain ⟨h1, h2⟩ := (h.started u z).resolve_left hz
        refine .inr (.inl ⟨z, fun j => ?_⟩)
        rcases k.started u z with k1 | ⟨k1, _⟩
        · exact hz (k1.symm.trans j)
        · exact k1 h2
      · obtain ⟨h1, h2⟩ := (h.fault u).resolve_left hs
        refine .inr (.inr fun j => ?_)
        rcases k.fault u with k1 | ⟨k1, _⟩
        · exact hs (k1.symm.trans j)
        · exact absurd (k1.symm.trans h2) (by decide)
    · obtain ⟨k1, k2⟩ := (k.started u z).resolve_left hz
      refine .inr (.inl ⟨z, fun j => ?_⟩)
      rcases h.started u z with h1 | ⟨_, h2⟩
      · exact hz (j.trans h1.symm)
      · exact k1 h2
    · obtain ⟨k1, k2⟩ := (k.fault u).resolve_left hs
      refine .inr (.inr fun j => ?_)
      rcases h.fault u with h1 | ⟨_, h2⟩
      · exact hs (j.trans h1.symm)
      · exact absurd (k1.symm.trans h2) (by decide)
  shown u := by
    rcases k.shown u with k1 | ⟨k1, k2⟩
    · exact .inl k1
    · rcases h.shown u with h1 | ⟨h1, h2⟩
      · exact .inl (k.owed h1)
      · exact .inr ⟨k1.trans h1, fun z => ⟨(k2 z).1.trans (h2 z).1, (k2 z).2.trans (h2 z).2⟩⟩

/-- Lines and counts change, and no unit does. -/
theorem same (h : d.Resumes e) (hu : f.units = e.units) (hl : ∀ n, (e.line n).EntryKept (f.line n)) (hport : f.port = e.port) (hmem : f.mem = e.mem)
    (hrest : f.check = e.check ∧ f.curves = e.curves ∧ f.intake = e.intake ∧ f.timing = e.timing ∧ f.scanPulses = e.scanPulses
      ∧ f.pending = e.pending ∧ f.start = e.start ∧ f.lineDue = e.lineDue ∧ f.mirrorDue = e.mirrorDue) : d.Resumes f := by
  have hunit : ∀ v, f.unit v = e.unit v := fun v => congrArg (fun us : Vector UnitRec 16 => us[v]) hu
  have hzone : ∀ v y, f.zone v y = e.zone v y := fun v y => congrArg (fun us : Vector UnitRec 16 => (us[v]).zones[y]) hu
  obtain ⟨h1, h2, h3, h4, h5, h6, h7, h8, h9⟩ := hrest
  refine h.trans { refl e with
    config := fun u => by rw [hunit], currentSweep := fun u => by rw [hunit], loopOn := fun u => by rw [hunit], loopParams := fun u => by rw [hunit]
    orders := .of_units hu, aims := fun u z => by rw [hzone]; exact .refl _
    line := hl, port := hport, mem := hmem, check := h1, curves := h2, intake := h3, timing := h4, scanPulses := h5, pending := h6, start := h7
    lineDue := h8, owed := by rw [h9]; exact List.Subset.refl _
    started := fun u z => .inl (by rw [hzone]), fault := fun u => .inl (by rw [hunit])
    due := fun u hu => .inl (h9 ▸ hu), shown := fun u => .inr ⟨by rw [hunit], fun z => by rw [hzone]; exact ⟨rfl, rfl⟩⟩ }

theorem updLine (h : d.Resumes e) (n : LineNo) (g : Line → Line) (hg : ∀ l : Line, l.EntryKept (g l)) : d.Resumes (e.updLine n g) := by
  refine h.same rfl (fun m => ?_) rfl rfl ⟨rfl, rfl, rfl, rfl, rfl, rfl, rfl, rfl, rfl⟩
  rw [Ev.updLine_line]
  split
  · exact hg _
  · exact ⟨rfl, rfl, rfl⟩

theorem updQueue (h : d.Resumes e) (n : LineNo) (g : CommandQueue → CommandQueue) : d.Resumes (e.updQueue n g) :=
  h.updLine n _ (by exact fun _ => ⟨rfl, rfl, rfl⟩)

theorem updFountain (h : d.Resumes e) (n : LineNo) (g : Fountain → Fountain) : d.Resumes (e.updFountain n g) :=
  h.updLine n _ (by exact fun _ => ⟨rfl, rfl, rfl⟩)

/-- A zone's move fields change. -/
theorem updMove (h : d.Resumes e) (u : UnitNo) (z : ZoneNo) (g : Zone → Zone)
    (hg : ∀ r : Zone, (g r).state = r.state ∧ (g r).faultCause = r.faultCause ∧ r.SameAims (g r)) : d.Resumes (e.updZone u z g) := by
  have hzone : ∀ v y, ((e.updZone u z g).zone v y).state = (e.zone v y).state ∧ ((e.updZone u z g).zone v y).faultCause = (e.zone v y).faultCause
      ∧ (e.zone v y).SameAims ((e.updZone u z g).zone v y) := fun v y => by
    rw [Ev.updZone_zone]
    split
    · exact hg _
    · exact ⟨rfl, rfl, .refl _⟩
  have hunit : ∀ v, ∃ zs, (e.updZone u z g).unit v = { e.unit v with zones := zs } := fun v => by
    have h1 := Ev.updUnit_unit e u v fun r => { r with zones := r.zones.set z (g r.zones[z]) }
    by_cases hv : u = v
    · rw [if_pos hv] at h1
      exact ⟨_, h1⟩
    · rw [if_neg hv] at h1
      exact ⟨_, h1⟩
  have hsweep : ∀ v, ((e.updZone u z g).unit v).sweepFault = (e.unit v).sweepFault := fun v => by
    obtain ⟨zs, hz⟩ := hunit v
    rw [hz]
  refine h.trans { refl e with
    config := fun v => by obtain ⟨zs, hz⟩ := hunit v; rw [hz]
    currentSweep := fun v => by obtain ⟨zs, hz⟩ := hunit v; rw [hz]
    loopOn := fun v => by obtain ⟨zs, hz⟩ := hunit v; rw [hz]
    loopParams := fun v => by obtain ⟨zs, hz⟩ := hunit v; rw [hz]
    orders := (SameOrders.refl e).updZone u z g
    aims := fun v y => (hzone v y).2.2
    started := fun v y => .inl (hzone v y).1
    fault := fun v => .inl (hsweep v)
    due := fun v hv => .inl hv
    shown := fun v => .inr ⟨hsweep v, fun y => ⟨(hzone v y).1, (hzone v y).2.1⟩⟩ }

end Ev.Resumes

theorem Ev.changeState_dues (h : (e.zone u z).state ≠ .moving) :
    (e.changeState u z .moving).mirrorDue = u :: e.mirrorDue ∧ (e.changeState u z .moving).lineDue = e.lineDue := by
  unfold Ev.changeState
  rw [if_neg h]
  dsimp only
  rw [if_neg h]
  split <;> exact ⟨rfl, rfl⟩

namespace Ev.Resumes

theorem setMoving (h : d.Resumes e) (u : UnitNo) (z : ZoneNo) : d.Resumes (e.changeState u z .moving) := by
  by_cases hm : (e.zone u z).state = .moving
  · rwa [Ev.changeState_of_same hm]
  · have hG := Ev.grantsOnly_changeState (e := e) u z .moving
    have hzone := Ev.changeState_zone hm
    obtain ⟨h1, h2⟩ := Ev.changeState_dues hm
    have hself : ((e.changeState u z .moving).zone u z).state = .moving := by
      rw [hzone, if_pos ⟨rfl, rfl⟩]
      rfl
    generalize e.changeState u z .moving = g at *
    refine h.trans ⟨fun v => (hG.unit v).config, fun v => (hG.unit v).currentSweep, fun v => (hG.unit v).loopOn, fun v => (hG.unit v).loopParams,
      fun v => ⟨(hG.unit v).tracked, (hG.unit v).waiting⟩, hG.zone, fun n => ⟨(hG.line n).power, (hG.line n).checkResult, (hG.line n).modules⟩, hG.port,
      hG.mem, hG.check, hG.curves, hG.intake, hG.timing, hG.scanPulses, hG.pending, hG.start, h2, by rw [h1]; exact List.subset_cons_self _ _,
      fun v y => ?_, fun v => .inl (hG.unit v).sweepFault, fun v hv => ?_, fun v => ?_⟩
    · rw [hzone]
      split
      · next j => obtain ⟨rfl, rfl⟩ := j; exact .inr ⟨hm, rfl⟩
      · exact .inl rfl
    · rw [h1] at hv
      rcases List.mem_cons.1 hv with rfl | hv
      · exact .inr (.inl ⟨z, fun j => hm (j.symm.trans hself)⟩)
      · exact .inl hv
    · by_cases huv : u = v
      · rw [h1, huv]
        exact .inl List.mem_cons_self
      · refine .inr ⟨(hG.unit v).sweepFault, fun y => ?_⟩
        rw [hzone, if_neg fun j => huv j.1]
        exact ⟨rfl, rfl⟩

theorem tagTaken (h : d.Resumes e) (n : LineNo) (g : Tag) : d.Resumes (e.tagTaken n g) := h.updLine n _ (by exact fun _ => ⟨rfl, rfl, rfl⟩)

theorem sendMove (h : d.Resumes e) (u : UnitNo) (z : ZoneNo) (x k : Nat) : d.Resumes (e.sendMove u z x k) := by
  unfold Ev.sendMove
  exact ((h.tagTaken u _).updQueue u _).updMove u z _ (by exact fun _ => ⟨rfl, rfl, rfl, rfl, rfl, rfl, rfl, rfl, rfl⟩)

theorem sendZero (h : d.Resumes e) (u : UnitNo) (z : ZoneNo) : d.Resumes (e.sendZero u z) := by
  unfold Ev.sendZero
  exact ((h.tagTaken u _).updQueue u _).updMove u z _ (by exact fun _ => ⟨rfl, rfl, rfl, rfl, rfl, rfl, rfl, rfl, rfl⟩)

theorem grant (h : d.Resumes e) (n : LineNo) : d.Resumes (e.grant n) := by
  unfold Ev.grant
  split
  · exact h
  · next p _ _ =>
    have h1 := (h.setMoving n p.zone).updLine n (fun l => { l with grants := l.grants + 1 }) (by exact fun _ => ⟨rfl, rfl, rfl⟩)
    generalize (e.changeState n p.zone .moving).updLine n _ = g at h1
    have h2 : d.Resumes { g with partGrants := g.partGrants + 1, pointer := n } :=
      h1.same rfl (fun _ => ⟨rfl, rfl, rfl⟩) rfl rfl ⟨rfl, rfl, rfl, rfl, rfl, rfl, rfl, rfl, rfl⟩
    dsimp only
    split
    · exact h2.sendMove n p.zone _ 0
    · exact h2.sendZero n p.zone

theorem runArbiter (h : d.Resumes e) : d.Resumes e.runArbiter := by
  have hrounds (k : Nat) : ∀ e, d.Resumes e → d.Resumes (Ev.grantRounds k e) := by
    induction k with
    | zero => exact fun _ h => h
    | succ k ih =>
      intro e h
      unfold Ev.grantRounds
      split
      · exact ih _ (h.grant _)
      · exact h
  exact (hrounds _ e h).same rfl (fun _ => ⟨rfl, rfl, rfl⟩) rfl rfl ⟨rfl, rfl, rfl, rfl, rfl, rfl, rfl, rfl, rfl⟩

theorem settleArbiter (h : d.Resumes e) : d.Resumes e.settleArbiter := by
  unfold Ev.settleArbiter
  split
  · exact h.runArbiter
  · exact h

/-! ### The fountain -/

theorem setSweepFault (h : d.Resumes e) (u : UnitNo) : d.Resumes (e.setSweepFault u true) := by
  unfold Ev.setSweepFault
  split
  · exact h
  · next hne =>
    have hfalse : (e.unit u).sweepFault = false := Bool.eq_false_iff.2 hne
    have hunit : ∀ v, ((e.updUnit u fun r => { r with sweepFault := true }).oweMirror u).unit v
        = if u = v then { e.unit v with sweepFault := true } else e.unit v := fun v => Ev.updUnit_unit e u v fun r => { r with sweepFault := true }
    have hzone : ∀ v y, ((e.updUnit u fun r => { r with sweepFault := true }).oweMirror u).zone v y = e.zone v y := fun v y => by
      show (((e.updUnit u fun r => { r with sweepFault := true }).oweMirror u).unit v).zones[y] = (e.unit v).zones[y]
      rw [hunit]
      split <;> rfl
    refine h.trans { refl e with
      config := fun v => by rw [hunit]; split <;> rfl
      currentSweep := fun v => by rw [hunit]; split <;> rfl
      loopOn := fun v => by rw [hunit]; split <;> rfl
      loopParams := fun v => by rw [hunit]; split <;> rfl
      orders := ((SameOrders.refl e).updUnit u (fun r => { r with sweepFault := true }) (by exact fun _ => ⟨rfl, rfl⟩)).oweMirror u
      aims := fun v y => by rw [hzone]; exact .refl _
      owed := List.subset_cons_self _ _
      started := fun v y => .inl (by rw [hzone])
      fault := fun v => ?_
      due := fun v hv => ?_
      shown := fun v => ?_ }
    · rw [hunit]
      split
      · next j => subst j; exact .inr ⟨hfalse, rfl⟩
      · exact .inl rfl
    · rcases List.mem_cons.1 hv with rfl | hv
      · refine .inr (.inr ?_)
        rw [hunit, if_pos rfl, hfalse]
        exact (by decide : true ≠ false)
      · exact .inl hv
    · by_cases huv : u = v
      · exact .inl (huv ▸ List.mem_cons_self)
      · refine .inr ⟨by rw [hunit, if_neg huv], fun y => ?_⟩
        rw [hzone]
        exact ⟨rfl, rfl⟩

theorem sendSweep (h : d.Resumes e) (n : LineNo) (x : Nat) : d.Resumes (e.sendSweep n x) := by
  unfold Ev.sendSweep
  exact ((h.tagTaken n _).updQueue n _).updFountain n _

theorem pursueTo (h : d.Resumes e) (n : LineNo) (x : Nat) : d.Resumes (e.pursueTo n x) := by
  unfold Ev.pursueTo
  split
  · split
    · exact h
    · split
      · exact h.sendSweep n x
      · exact (h.updFountain n _).setSweepFault n
      · exact h
  · split
    · exact h
    · split
      · exact (h.updQueue n _).updFountain n _
      · exact h.sendSweep n x

theorem pursueAfresh (h : d.Resumes e) (n : LineNo) : d.Resumes (e.pursueAfresh n) := by
  have h0 := h.updFountain n fun f => { f with pursuit := true }
  unfold Ev.pursueAfresh Ev.pursue
  split
  · split
    · exact h0.pursueTo n _
    · exact h0
  · exact h0

theorem resumeMoves (h : d.Resumes e) : d.Resumes e.resumeMoves := by
  unfold Ev.resumeMoves
  refine Calm.foldl (P := d.Resumes) (fun g n k => ?_) _ h.runArbiter
  split
  · exact k.pursueAfresh n
  · exact k

end Ev.Resumes

theorem Ev.setSweepFault_zone (e : Ev) (u : UnitNo) (b : Bool) (v : UnitNo) (y : ZoneNo) : (e.setSweepFault u b).zone v y = e.zone v y := by
  unfold Ev.setSweepFault
  split
  · rfl
  · have hunit := Ev.updUnit_unit e u v fun r => { r with sweepFault := b }
    show ((e.updUnit u fun r => { r with sweepFault := b }).unit v).zones[y] = (e.unit v).zones[y]
    rw [hunit]
    split <;> rfl

/-- A pursuit moves no zone. -/
theorem Ev.pursueAfresh_zone (e : Ev) (n : LineNo) (v : UnitNo) (y : ZoneNo) : (e.pursueAfresh n).zone v y = e.zone v y := by
  unfold Ev.pursueAfresh Ev.pursue
  split
  · split
    · unfold Ev.pursueTo
      split
      · split
        · rfl
        · split
          · rfl
          · exact Ev.setSweepFault_zone _ n true v y
          · rfl
      · split
        · rfl
        · split <;> rfl
    · rfl
  · rfl

/-! ### Under the laws of the lists and the grants -/

/-- Only PENDING zones have started, and the grants held are still those of the MOVING zones (R45, R48). -/
structure Ev.ResumesLawfully (d e : Ev) : Prop where
  pending : e.toState.pendingLawful
  grants : d.toState.grantsLawful → e.toState.grantsLawful
  zone : ∀ u z, (e.zone u z).state = (d.zone u z).state ∨ ((d.zone u z).state = .pending ∧ (e.zone u z).state = .moving)

namespace Ev.ResumesLawfully

variable {q : PendingEntry} {l : List PendingEntry}

theorem refl (h : e.toState.pendingLawful) : e.ResumesLawfully e := ⟨h, id, fun _ _ => .inl rfl⟩

theorem grant (h : d.ResumesLawfully e) (hel : e.eligible n = true) : d.ResumesLawfully (e.grant n) := by
  obtain ⟨q, l, hl⟩ := List.exists_cons_of_ne_nil (State.eligible_pendingList hel)
  have hG := Ev.grant_gives hl h.pending
  have hz := h.pending.front hl
  have hmv : ((e.grant n).zone n q.zone).state = .moving := by
    rw [hG.zone, if_pos ⟨rfl, rfl⟩]
    rfl
  have hother : ∀ v y, ¬(n = v ∧ q.zone = y) → (e.grant n).zone v y = e.zone v y := fun v y hvy => (hG.zone v y).trans (if_neg hvy)
  refine ⟨tableLaw_pending.law.grant hel h.pending, fun j => ?_, fun v y => ?_⟩
  · refine (h.grants j).change (u := n) (z := q.zone) (fun v y hvy => by rw [hother v y hvy]) (fun m hm => ?_) ?_ ?_
    · rw [hG.line, if_neg hm.symm]
    · rw [hG.line, if_pos rfl, Zone.moves, Zone.moves, if_neg (by rw [hz]; decide), if_pos hmv]
      rfl
    · rw [hG.partGrants, Zone.moves, Zone.moves, if_neg (by rw [hz]; decide), if_pos hmv]
  · by_cases hvy : n = v ∧ q.zone = y
    · obtain ⟨rfl, rfl⟩ := hvy
      rcases h.zone n q.zone with k | ⟨_, k⟩
      · exact .inr ⟨k.symm.trans hz, hmv⟩
      · rw [hz] at k
        cases k
    · rw [hother v y hvy]
      exact h.zone v y

/-- Zones, lists and grants stay. -/
theorem same (h : d.ResumesLawfully e) (hp : f.toState.pendingLawful) (hzone : ∀ v y, f.zone v y = e.zone v y)
    (hline : ∀ n, (f.line n).grants = (e.line n).grants) (hpart : f.partGrants = e.partGrants) : d.ResumesLawfully f :=
  ⟨hp, fun j => (h.grants j).congr (fun v y => by rw [hzone]) hline hpart, fun v y => by rw [hzone]; exact h.zone v y⟩

theorem runArbiter (h : d.ResumesLawfully e) : d.ResumesLawfully e.runArbiter := by
  have hrounds (k : Nat) : ∀ e, d.ResumesLawfully e → d.ResumesLawfully (Ev.grantRounds k e) := by
    induction k with
    | zero => exact fun _ h => h
    | succ k ih =>
      intro e h
      unfold Ev.grantRounds
      split
      · next n hn => exact ih _ (h.grant (List.find?_some hn))
      · exact h
  have hr := hrounds e.waitingZones e h
  exact hr.same hr.pending (fun _ _ => rfl) (fun _ => rfl) rfl

theorem settleArbiter (h : d.ResumesLawfully e) : d.ResumesLawfully e.settleArbiter := by
  unfold Ev.settleArbiter
  split
  · exact h.runArbiter
  · exact h

theorem pursueAfresh (h : d.ResumesLawfully e) (n : LineNo) : d.ResumesLawfully (e.pursueAfresh n) := by
  have hP := (Ev.PursuedOn.refl n e).pursueAfresh
  have hp : (e.pursueAfresh n).toState.pendingLawful := Ev.keeps_pendingLawful.quiet h.pending ((Ev.Quiet.refl e).pursueAfresh n)
  exact h.same hp (fun v y => Ev.pursueAfresh_zone e n v y) (fun m => (hP.line m).grants) hP.partGrants

theorem resumeMoves (h : d.ResumesLawfully e) : d.ResumesLawfully e.resumeMoves := by
  unfold Ev.resumeMoves
  refine Calm.foldl (P := d.ResumesLawfully) (fun g n k => ?_) _ h.runArbiter
  split
  · exact k.pursueAfresh n
  · exact k

end Ev.ResumesLawfully

end Sys2Proof.Machine
end

