-- ==== Sys2Proof/Proofs/Attaches.lean ====
section
/-! PROOFS. A successful attach (R158, R159): the anchor adopted, the memory that shows the whole machine, the moves resumed, and the DETACH
that it has deferred. -/

namespace Sys2Proof.Machine

open Decode

variable {d e f w : Ev} {s t : State} {u v : UnitNo} {n m : LineNo} {z y : ZoneNo} {a : Anchor} {k x : Nat} {host : List HostWrite}

/-! ### The anchor -/

theorem Anchor.sound_of_judge {m : Memory} (h : judgeAnchor m = none) : (anchorOfMemory m).Sound := by
  unfold judgeAnchor at h
  dsimp only at h
  split_ifs at h with _ _ _ _ h5 h6
  exact ⟨by simpa using h5, by simpa using h6⟩

/-- The port of a part that has adopted an anchor (R158). -/
def Port.adopting (p : Port) (a : Anchor) : Port :=
  { p with
    anchor := some a, mask := a.noticeMask, take := 0, retire := 0, putValid := 0, handedMarks := 0, finished := [], fault := .none
    noticeOffset := none, segment := 0, openSegment := none, lastFailure := none, state := .attached, scanTimer := some a.scanInterval }

theorem Ev.adoptAnchor_eq (e : Ev) (a : Anchor) : e.adoptAnchor a = (e.updPort fun p => p.adopting a).writeWords 14 [0, 0] := rfl

theorem Ev.adoptAnchor_words (hw : Memory.wf e.mem = true) (a : Anchor) : Memory.wf (e.adoptAnchor a).mem = true
    ∧ Memory.read (e.adoptAnchor a).mem 14 = 0 ∧ Memory.read (e.adoptAnchor a).mem 15 = 0
    ∧ ∀ x, x ≠ 14 → x ≠ 15 → Memory.read (e.adoptAnchor a).mem x = Memory.read e.mem x := by
  have hr := fun x => Memory.read_write e.mem 14 [0, 0] x hw
  refine ⟨Memory.write_wf _ _ _ hw, ?_, ?_, fun x h1 h2 => ?_⟩
  · refine (hr 14).trans ?_
    rw [if_pos (by simp [Config.memoryWords])]
    rfl
  · refine (hr 15).trans ?_
    rw [if_pos (by simp [Config.memoryWords])]
    rfl
  · exact Memory.read_write_outside _ _ _ _ hw (by simp only [List.length_cons, List.length_nil]; omega)

/-! ### The whole memory -/

theorem Ev.writeMirrors_draws (a : Anchor) (l : List UnitNo) (e : Ev) :
    (l.foldl (fun e u => e.writeMirror a u) e).freeDraws = e.freeDraws
      ∧ (l.foldl (fun e u => e.writeMirror a u) e).mirrorDue = e.mirrorDue ∧ (l.foldl (fun e u => e.writeMirror a u) e).lineDue = e.lineDue
      ∧ (l.foldl (fun e u => e.writeMirror a u) e).arbiterDue = e.arbiterDue := by
  induction l generalizing e with
  | nil => exact ⟨rfl, rfl, rfl, rfl⟩
  | cons u l ih => exact ih (e.writeMirror a u)

/-- The area of a part that reports the same, its sweep faults too. -/
theorem State.ReportsAs.same_area (h : s.ReportsAs t) (hf : ∀ u, (t.unit u).sweepFault = (s.unit u).sweepFault) (k : Nat) :
    statusArea { t with freeDraws := k } = statusArea { s with freeDraws := k } := by
  rw [h.area, statusWord3_congr hf]
  exact List.set_getElem_self (by rw [statusArea_length]; decide)

/-- What the first writes of an attach leave (R158): every block and the whole status area show the machine. -/
structure Ev.WroteAll (a : Anchor) (d e : Ev) : Prop where
  wrote : d.Wrote e fun x => a.inMirror x ∨ a.inStatus x
  shows : e.ShowsAll a d.freeDraws e.toState
  start : e.start = e.toState
  counts : ∀ u : UnitNo, e.port.updateCounts[u] = d.port.updateCounts[u] + 2
  mirrorDue : e.mirrorDue = d.mirrorDue
  lineDue : e.lineDue = d.lineDue

/-- The whole status area is written, and the event goes on as if it began here (R158). -/
def Ev.writeArea (e : Ev) (a : Anchor) : Ev :=
  let e2 := e.writeWords a.statusBase (statusArea e.toState)
  { e2 with freeDraws := e2.freeDraws + 1, start := { e2.toState with freeDraws := e2.freeDraws + 1 } }

theorem Ev.writeArea_wrote (hs : a.Sound) (h : d.Wrote e a.inMirror) (hw : Memory.wf e.mem = true) (hm : ∀ u, d.toState.MirrorWritten e.toState a u)
    (hdraws : e.freeDraws = d.freeDraws) (hmirror : e.mirrorDue = d.mirrorDue) (hline : e.lineDue = d.lineDue) : d.WroteAll a (e.writeArea a) := by
  have hlen := statusArea_length e.toState
  have hsize : a.statusBase + Config.statusWords ≤ Config.memoryWords := by
    have hm := hs.inMemory
    simp [Anchor.regions, Region.inMemory, Config.slotWords, Config.mirrorWords, Config.statusWords, Config.memoryWords] at hm
    simp only [Config.statusWords, Config.memoryWords]
    omega
  have hG : d.Wrote e fun x => a.inMirror x ∨ a.inStatus x :=
    ⟨h.units, h.curves, h.lines, h.partGrants, h.pointer, h.check, h.intake, h.timing, h.scanPulses, h.pending, h.port,
      fun j => ⟨(h.mem j).1, fun x hx => (h.mem j).2 x fun i => hx (.inl i)⟩⟩
  have hW := (hG.writeWords a.statusBase (statusArea e.toState) fun x x1 x2 => .inr ⟨x1, by rw [hlen] at x2; exact x2⟩).draws (e.freeDraws + 1)
  refine ⟨hW.congr rfl, ⟨fun u => ?_, ?_⟩, rfl, fun u => (hm u).count, hmirror, hline⟩
  · refine (Memory.readWords_congr fun x x1 x2 => ?_).trans (hm u).block
    refine Memory.read_write_outside _ _ _ _ hw ?_
    have hap := hs.block_apart_status (u := u) ⟨x1, x2⟩
    rw [hlen]
    simp only [Anchor.inStatus] at hap
    omega
  · have hback := Memory.readWords_write hw (base := a.statusBase) (ws := statusArea e.toState) (by rw [hlen]; exact hsize)
    rw [hlen] at hback
    refine hback.trans ?_
    rw [← hdraws]
    exact (State.ReportsAs.same_area (s := e.toState) ⟨rfl, rfl, rfl, rfl, fun _ => rfl⟩ (fun _ => rfl) e.freeDraws).symm

theorem Ev.writeEverything_eq (e : Ev) (a : Anchor) :
    e.writeEverything a = ((ascending 16).foldl (fun e u => e.writeMirror a u) e).writeArea a := by
  unfold Ev.writeEverything Ev.writeArea
  with_reducible rfl

theorem Ev.writeMirrors_area (hs : a.Sound) {l : List UnitNo} (hl : l.Nodup) (hall : ∀ u, u ∈ l) (hw : Memory.wf e.mem = true) :
    e.WroteAll a ((l.foldl (fun e u => e.writeMirror a u) e).writeArea a) := by
  obtain ⟨hw1, _, hin, _⟩ := Ev.writeMirrors hs hl hw
  obtain ⟨hwrote, _⟩ := e.writeMirrors_wrote a l
  obtain ⟨hdraws, hmirror, hline, _⟩ := e.writeMirrors_draws a l
  exact Ev.writeArea_wrote hs hwrote hw1 (fun u => hin u (hall u)) hdraws hmirror hline

theorem Ev.writeEverything_wrote (hs : a.Sound) (hw : Memory.wf e.mem = true) : e.WroteAll a (e.writeEverything a) := by
  rw [Ev.writeEverything_eq]
  exact Ev.writeMirrors_area hs (List.nodup_finRange 16) List.mem_finRange hw

/-- The memory is the same, and the machine that it shows. -/
theorem Ev.ShowsAll.congr (h : e.ShowsAll a k s) (hm : f.mem = e.mem) (hc : f.port.updateCounts = e.port.updateCounts) (hu : t.units = s.units)
    (hr : s.ReportsAs t) : f.ShowsAll a k t := by
  have hunit : ∀ u, t.unit u = s.unit u := fun u => congrArg (fun us : Vector UnitRec 16 => us[u]) hu
  exact ⟨fun u => by rw [hm, hc, hunit]; exact h.blocks u, by rw [hm, hr.same_area (fun u => by rw [hunit])]; exact h.area⟩

end Sys2Proof.Machine
end

