-- ==== Sys2Proof/Proofs/AttachResults.lean ====
section
/-! PROOFS. Where a successful attach leaves the part and the machine, with and without a deferred DETACH (R158, R159). -/

namespace Sys2Proof.Machine

open Decode

variable {d e f w : Ev} {s t : State} {u v : UnitNo} {n m : LineNo} {z y : ZoneNo} {a : Anchor} {k x : Nat} {host : List HostWrite}

/-! ### The moves resumed -/

/-- The event when its tests have been made. -/
def Ev.tested (e : Ev) : Ev := { e with testDue := [] }

/-- The event of an attach when its moves have been resumed and its tests, of which none finds an order, have been made. -/
def Ev.resumed (w : Ev) : Ev := w.resumeMoves.settleArbiter.tested

theorem Ev.Resumes.tested (h : d.Resumes e) : d.Resumes e.tested :=
  h.same rfl (fun _ => ⟨rfl, rfl, rfl⟩) rfl rfl ⟨rfl, rfl, rfl, rfl, rfl, rfl, rfl, rfl, rfl⟩

theorem Ev.ResumesLawfully.tested (h : d.ResumesLawfully e) : d.ResumesLawfully e.tested :=
  h.same h.pending (fun _ _ => rfl) (fun _ => rfl) rfl

theorem Ev.resumed_resumes (w : Ev) : w.Resumes w.resumed := (Ev.Resumes.refl w).resumeMoves.settleArbiter.tested

theorem Ev.resumed_lawfully (h : w.toState.pendingLawful) : w.ResumesLawfully w.resumed :=
  (Ev.ResumesLawfully.refl h).resumeMoves.settleArbiter.tested

theorem Ev.settleArbiter_due (e : Ev) : e.settleArbiter.arbiterDue = false := by
  unfold Ev.settleArbiter
  split
  · rfl
  · next h => exact Bool.eq_false_iff.2 h

theorem Ev.tested_due (e : Ev) : e.tested.arbiterDue = e.arbiterDue := rfl

theorem Ev.resumed_due (w : Ev) : w.resumed.arbiterDue = false :=
  w.resumeMoves.settleArbiter.tested_due.trans w.resumeMoves.settleArbiter_due

theorem Ev.SameOrders.orderless (h : d.SameOrders e) (ho : d.Orderless) : e.Orderless := fun u =>
  ⟨(h u).1.trans (ho u).1, (h u).2.trans (ho u).2⟩

theorem Ev.runTests_orderless (h : e.Orderless) : e.runTests = e.tested := by
  have hfold (l : List UnitNo) : l.foldl (fun e u => e.testOrder u) e = e := by
    induction l with
    | nil => rfl
    | cons u l ih =>
      rw [List.foldl_cons, Ev.testOrder, (h u).1]
      exact ih
  rw [Ev.runTests, hfold]
  rfl

theorem Ev.resume_settle (h : w.Orderless) : w.resumeMoves.settle = w.resumed.flush := by
  have ho := (Ev.Resumes.refl w).resumeMoves.settleArbiter.orders.orderless h
  rw [Ev.settle, Ev.runTests_orderless ho, Ev.resumed]

/-! ### The whole memory after the resumption -/

theorem UnitRec.ShownAs.of_resumed (h : d.Resumes e) (hs : (e.unit u).sweepFault = (d.unit u).sweepFault)
    (hz : ∀ z, (e.zone u z).state = (d.zone u z).state ∧ (e.zone u z).faultCause = (d.zone u z).faultCause) : (d.unit u).ShownAs (e.unit u) :=
  ⟨h.config u, h.currentSweep u, h.loopOn u, hs, fun z => ⟨(hz z).1, (hz z).2, h.aims u z⟩⟩

theorem Ev.Resumes.reports (h : d.Resumes e) : d.toState.ReportsAs e.toState :=
  ⟨by rw [h.port], by rw [h.port], by rw [h.port], h.intake, fun n => (h.line n).entry⟩

theorem Ev.Resumes.owesAll (h : d.Resumes e) (hs : d.start = d.toState) (hl : d.lineDue = []) : e.OwesAll d.toState := by
  have hst : e.start = d.toState := h.start.trans hs
  refine ⟨by rw [hst]; exact ⟨rfl, rfl, rfl, fun _ => rfl⟩, h.reports, h.lineDue.trans hl, fun u => (h.shown u).imp id fun j => ?_⟩
  exact (UnitRec.ShownAs.of_resumed h j.1 j.2).blockWords

theorem Ev.flush_reports (e : Ev) : e.toState.ReportsAs e.flush.toState := by
  have hF := e.flush_blocks
  refine ⟨?_, ?_, ?_, hF.intake, fun n => congrArg (fun ls : Vector Line 16 => lineEntry ls[n]) hF.lines⟩ <;> rw [hF.port]

theorem Ev.flush_dues (e : Ev) : e.flush.mirrorDue = [] ∧ e.flush.lineDue = [] ∧ e.flush.start = e.flush.toState := ⟨rfl, rfl, rfl⟩

/-- What the event of an attach has come to from the adoption of the anchor, before a deferred DETACH acts. -/
structure Ev.AttachedAs (d : Ev) (a : Anchor) (e : Ev) : Prop where
  shows : e.ShowsAll a d.freeDraws e.toState
  mem : Memory.wf e.mem = true ∧ ∀ x, ¬(a.inMirror x ∨ a.inStatus x) → Memory.read e.mem x = Memory.read d.mem x
  port : e.port = { d.port with updateCounts := e.port.updateCounts }
  config : ∀ u, (e.unit u).config = (d.unit u).config
  currentSweep : ∀ u, (e.unit u).currentSweep = (d.unit u).currentSweep
  loopOn : ∀ u, (e.unit u).loopOn = (d.unit u).loopOn
  loopParams : ∀ u, (e.unit u).loopParams = (d.unit u).loopParams
  orderless : e.Orderless
  aims : ∀ u z, (d.zone u z).SameAims (e.zone u z)
  power : ∀ n, (e.line n).power = (d.line n).power
  lawful : d.toState.pendingLawful → (d.toState.grantsLawful → e.toState.grantsLawful)
    ∧ ∀ u z, (e.zone u z).state = (d.zone u z).state ∨ ((d.zone u z).state = .pending ∧ (e.zone u z).state = .moving)
  counts : ∀ u, (∀ z, (e.zone u z).state = (d.zone u z).state) → (e.unit u).sweepFault = (d.unit u).sweepFault →
    e.port.updateCounts[u] = d.port.updateCounts[u] + 2
  idle : e.tested.Idle
  start : e.start = e.toState
  check : e.check = d.check
  curves : e.curves = d.curves
  intake : e.intake = d.intake
  timing : e.timing = d.timing
  scanPulses : e.scanPulses = d.scanPulses
  pending : e.pending = d.pending

theorem Ev.attached_as (ha : d.attached = true) (hc : d.port.anchor = some a) (hs : a.Sound) (hw : Memory.wf d.mem = true) (ho : d.Orderless)
    (hm : d.mirrorDue = []) (hl : d.lineDue = []) : d.AttachedAs a (d.writeEverything a).resumeMoves.settle := by
  obtain ⟨hW, hshow, hstart, hcount, hmirror, hline⟩ := Ev.writeEverything_wrote (e := d) hs hw
  generalize d.writeEverything a = w at *
  have hwu : ∀ u, w.unit u = d.unit u := fun u => congrArg (fun us : Vector UnitRec 16 => us[u]) hW.units
  have hwz : ∀ u z, w.zone u z = d.zone u z := fun u z => congrArg (fun us : Vector UnitRec 16 => (us[u]).zones[z]) hW.units
  have hwl : ∀ n, w.line n = d.line n := fun n => congrArg (fun ls : Vector Line 16 => ls[n]) hW.lines
  have hwo : w.Orderless := fun u => by rw [hwu]; exact ho u
  have hR := w.resumed_resumes
  have hL : w.toState.pendingLawful → w.ResumesLawfully w.resumed := Ev.resumed_lawfully
  have hdue := w.resumed_due
  rw [Ev.resume_settle hwo]
  generalize w.resumed = r at *
  have hra : r.attached = true := by rw [State.attached, hR.port, hW.port]; exact ha
  have hrc : r.port.anchor = some a := by rw [hR.port, hW.port]; exact hc
  have hwf : Memory.wf w.mem = true := (hW.mem hw).1
  have hrw : Memory.wf r.mem = true := by rw [hR.mem]; exact hwf
  have hshow' : r.ShowsAll a d.freeDraws w.toState := ⟨fun u => by rw [hR.mem, hR.port]; exact hshow.blocks u, by rw [hR.mem]; exact hshow.area⟩
  have hflush := hshow'.flush (hR.owesAll hstart (hline.trans hl)) hra hrc hs hrw
  obtain ⟨_, hkeep, _, _⟩ := Ev.flush_words hra hrc hs hrw (hR.lineDue.trans (hline.trans hl)) (by rw [hR.start, hstart]; exact hR.intake)
    (by rw [hR.start, hstart, hR.port]) (by rw [hR.start, hstart, hR.port])
  have hF := r.flush_wroteRegions hrc
  have hrep := r.flush_reports
  have hfd := r.flush_kept.2.trans hdue
  obtain ⟨hfm, hfl, hfs⟩ := r.flush_dues
  generalize r.flush = t at *
  have htu : ∀ u, t.unit u = r.unit u := fun u => congrArg (fun us : Vector UnitRec 16 => us[u]) hF.units
  have htz : ∀ u z, t.zone u z = r.zone u z := fun u z => congrArg (fun us : Vector UnitRec 16 => (us[u]).zones[z]) hF.units
  have htl : ∀ n, t.line n = r.line n := fun n => congrArg (fun ls : Vector Line 16 => ls[n]) hF.lines
  have hro := hR.orders.orderless hwo
  refine ⟨hflush.congr rfl rfl hF.units hrep, ⟨(hF.mem hrw).1, fun x hx => ?_⟩, ?_, fun u => ?_, fun u => ?_, fun u => ?_, fun u => ?_,
    fun u => by rw [htu]; exact hro u, fun u z => ?_, fun n => ?_, fun hp => ?_, fun u hz hf => ?_, ⟨hfd, rfl, hfm, hfl, ?_⟩, hfs,
    hF.check.trans (hR.check.trans hW.check), hF.curves.trans (hR.curves.trans hW.curves), hF.intake.trans (hR.intake.trans hW.intake),
    hF.timing.trans (hR.timing.trans hW.timing), hF.scanPulses.trans (hR.scanPulses.trans hW.scanPulses), hF.pending.trans (hR.pending.trans hW.pending)⟩
  · rw [(hF.mem hrw).2 x hx, hR.mem, (hW.mem hw).2 x hx]
  · rw [hF.port, hR.port, hW.port]
  · rw [htu, hR.config, hwu]
  · rw [htu, hR.currentSweep, hwu]
  · rw [htu, hR.loopOn, hwu]
  · rw [htu, hR.loopParams, hwu]
  · rw [htz, ← hwz]
    exact hR.aims u z
  · rw [htl, (hR.line n).power, hwl]
  · have hp' : w.toState.pendingLawful := fun n z => by
      rw [hwl, hwz]
      exact hp n z
    have hlaw := hL hp'
    refine ⟨fun hg => ?_, fun u z => ?_⟩
    · have hg' : w.toState.grantsLawful := hg.congr (t := w.toState) (fun v y => by rw [hwz]) (fun m => by rw [hwl]) hW.partGrants
      exact (hlaw.grants hg').congr (t := t.toState) (fun v y => by rw [htz]) (fun m => by rw [htl]) hF.partGrants
    · rw [htz, ← hwz]
      exact hlaw.zone u z
  · have hnot : u ∉ r.mirrorDue := fun hu => by
      rcases hR.due u hu with j | ⟨z, j⟩ | j
      · rw [hmirror, hm] at j
        cases j
      · exact j (by rw [← htz, hz, hwz])
      · exact j (by rw [← htu, hf, hwu])
    rw [(hkeep u hnot).1, hR.port, hcount]
  · have hst : t.tested.start = t.toState := hfs
    exact ⟨by rw [hst]; rfl, by rw [hst]; rfl, by rw [hst]; rfl, fun u => by rw [hst]; rfl⟩

/-! ### The deferred DETACH -/

theorem Ev.endOrders_of_orderless (h : d.Orderless) (a : Anchor) : d.endOrders a = d.relieved := by
  have ho : d.relieved.Orderless := h
  refine Ev.endOrders_has (P := fun e => e = d.relieved) rfl (fun c _ _ => Ev.endAborted_none (ho c.lineA).1) (fun e u he => ?_) (fun e u he => ?_) a
  · subst he
    exact Ev.endTracked_none (ho u).1 _ _
  · subst he
    exact Ev.endWaiting_none (ho u).2 _ _

theorem Ev.changeState_lineDue (e : Ev) (u : UnitNo) (z : ZoneNo) (new : ZoneState) : (e.changeState u z new).lineDue = e.lineDue := by
  unfold Ev.changeState
  dsimp only
  split
  · rfl
  · split <;> split <;> rfl

theorem Ev.returnZone_lineDue (e : Ev) (u : UnitNo) (z : ZoneNo) : (e.returnZone u z).lineDue = e.lineDue := by
  unfold Ev.returnZone Ev.enterPending
  split
  · split
    · rfl
    · exact e.changeState_lineDue u z .pending
  · rfl

theorem Ev.returnAll_lineDue (e : Ev) : e.returnAll.lineDue = e.lineDue :=
  Calm.foldl (P := fun f => f.lineDue = e.lineDue) (fun _ u h => Calm.foldl (P := fun f => f.lineDue = e.lineDue)
    (fun f z k => (f.returnZone_lineDue u z).trans k) _ h) _ rfl

theorem Ev.owing_lineDue (e : Ev) (owed : List UnitNo) : (e.owing owed).lineDue = e.lineDue := rfl

theorem Ev.cutOff_lineDue (h : d.Orderless) (a : Anchor) : (d.cutOff a).lineDue = d.lineDue := by
  have hhalt : (d.endOrders a).haltLines.lineDue = d.lineDue := by
    obtain ⟨ls, hls⟩ := (d.endOrders a).haltLines_eq
    rw [hls, Ev.endOrders_of_orderless h]
    rfl
  rw [Ev.cutOff, Ev.owing_lineDue, Ev.cutMoves_eq, Ev.returnAll_lineDue, hhalt]

theorem State.CutOff.entry (h : s.CutOff t) (n : LineNo) : lineEntry (t.line n) = lineEntry (s.line n) :=
  Line.EntryKept.entry ⟨h.power n, h.checkResult n, h.modules n⟩

theorem State.CutOff.shown (h : s.CutOff t) (hz : ∀ z, (s.zone u z).state ≠ .moving) : (s.unit u).ShownAs (t.unit u) := by
  refine ⟨h.config u, h.currentSweep u, h.loopOn u, h.sweepFault u, fun z => ?_⟩
  have hsame : t.zone u z = s.zone u z := (h.zone u z).other (hz z)
  have hsame' : (t.unit u).zones[z] = (s.unit u).zones[z] := hsame
  rw [hsame']
  exact ⟨rfl, rfl, .refl _⟩

theorem Ev.cutOff_owesAll (ho : d.Orderless) (hs : d.start = d.toState) (hl : d.lineDue = []) (a : Anchor) : (d.cutOff a).OwesAll d.toState := by
  have hG := Ev.cutOff_goes d a
  have hC := Ev.cutOff_cutOff d a
  obtain ⟨hp, _⟩ := Ev.cutOff_port d a
  rw [Ev.endOrders_of_orderless ho] at hp
  have hst : (d.cutOff a).start = d.toState := hG.start.trans hs
  refine ⟨by rw [hst]; exact ⟨rfl, rfl, rfl, fun _ => rfl⟩, ⟨?_, ?_, ?_, hC.intake, hC.entry⟩, (Ev.cutOff_lineDue ho a).trans hl, fun u => ?_⟩
  · rw [hp]; rfl
  · rw [hp]; rfl
  · rw [hp]; rfl
  · by_cases hu : ∃ z, (d.zone u z).state = .moving
    · exact .inl (Ev.cutOff_owes a (.inr (.inr hu)))
    · exact .inr (hC.shown fun z hz => hu ⟨z, hz⟩).blockWords

/-- A detach of a part with no order leaves a memory that shows the whole machine (R160, R165, R166). -/
theorem Ev.ShowsAll.detached (h : d.ShowsAll a k d.toState) (hD : d.DetachedAs a t) (ho : d.Orderless) (hs : d.start = d.toState) (hl : d.lineDue = [])
    (hlink : d.toState.Linked a) : Memory.readWords t.mem a.statusBase Config.statusWords = statusArea { t with freeDraws := k }
      ∧ (∀ u : UnitNo, Memory.readWords t.mem (a.blockBase u) Config.blockWords = mirrorBlock t.port.updateCounts[u] (t.unit u))
      ∧ ∀ x, ¬(a.inMirror x ∨ a.inStatus x) → Memory.read t.mem x = Memory.read d.mem x := by
  have hO := Ev.cutOff_owesAll ho hs hl a
  have hG := Ev.cutOff_goes d a
  obtain ⟨hp, hm⟩ := Ev.cutOff_port d a
  rw [Ev.endOrders_of_orderless ho] at hp hm
  have hunits := hD.units
  have hmem := hD.mem
  have hcounts := hD.counts
  have hcourse := hD.course
  have hcut := hD.cut
  generalize d.cutOff a = b at *
  have hshow : b.ShowsAll a k d.toState := ⟨fun u => by rw [hm, hp]; exact h.blocks u, by rw [hm]; exact h.area⟩
  have hba : b.attached = true := by rw [State.attached, hp]; exact decide_eq_true hlink.attached
  have hbc : b.port.anchor = some a := by rw [hp]; exact hlink.anchor
  have hbw : Memory.wf b.mem = true := by rw [hm]; exact hlink.wf
  have hflush := hshow.flush hO hba hbc hlink.sound hbw
  have hF := b.flush_wroteRegions hbc
  have hrep : b.toState.ReportsAs t := by
    obtain ⟨h1, h2, h3, h4, h5⟩ := hO.reports
    exact ⟨hcourse.snapshotSheet.trans h1.symm, hcourse.lostScans.trans h2.symm, hcourse.fault.trans h3.symm, hcut.intake.trans h4.symm,
      fun n => (hcut.entry n).trans (h5 n).symm⟩
  have hun : t.units = b.units := hunits.trans hF.units
  refine ⟨?_, fun u => ?_, fun x hx => ?_⟩
  · rw [hrep.same_area (fun u => congrArg (fun us : Vector UnitRec 16 => us[u].sweepFault) hun), hmem]
    exact hflush.area
  · rw [hmem, hcounts]
    exact (hflush.blocks u).trans (congrArg (fun us : Vector UnitRec 16 => mirrorBlock b.flush.port.updateCounts[u] us[u]) hun).symm
  · rw [hmem, (hF.mem hbw).2 x hx, hm]
    rfl

/-! ### The attach -/

/-- The event of an attach with its anchor adopted (R158). -/
def State.attaching (s : State) (host : List HostWrite) (a : Anchor) : Ev := (s.landed host).adoptAnchor a

theorem State.attaching_orderless (h : s.heldSlots = []) (host : List HostWrite) (a : Anchor) : (s.attaching host a).Orderless := fun u => by
  have hslots : (s.unit u).slots = [] := List.eq_nil_iff_forall_not_mem.2 fun x hx => by
    have hmem := State.mem_heldSlots.2 ⟨u, hx⟩
    rw [h] at hmem
    cases hmem
  have ht : (s.unit u).tracked = none ∧ (s.unit u).waiting = none := by simpa [UnitRec.slots] using hslots
  exact ht

/-- The event of an attach before a deferred DETACH acts (R158). -/
def State.attachedEv (s : State) (host : List HostWrite) (a : Anchor) : Ev := ((s.attaching host a).writeEverything a).resumeMoves.settle

theorem State.exec_attachSuccess (hst : s.port.state = .attaching) (hj : judgeAnchor (Memory.hostWrites s.mem host) = none)
    (ha : a = anchorOfMemory (Memory.hostWrites s.mem host)) :
    exec (.attachSuccess host) s = .next (if (s.attachedEv host a).port.detachDeferred then (s.attachedEv host a).detach
      else s.attachedEv host a).settle.toState := by
  have hx : exec (.attachSuccess host) s = act s fun e =>
      let e1 := e.hostWrites host
      if e1.port.state = .attaching ∧ judgeAnchor e1.mem = none then e1.attachSuccess else e1 := rfl
  have hcond : (s.landed host).port.state = .attaching ∧ judgeAnchor (s.landed host).mem = none := ⟨hst, hj⟩
  have hadopted : (s.landed host).adopted = s.attachedEv host a := by
    have hm : anchorOfMemory (s.landed host).mem = a := ha.symm
    unfold Ev.adopted State.attachedEv State.attaching
    rw [hm]
  have hreg : s.regionsInMemory = true := State.regionsInMemory_of_not_attached (State.attached_eq_false (by rw [hst]; decide))
  rw [hx, act_of_regionsInMemory hreg]
  dsimp only
  have hland : (Ev.ofState s.writesDone).hostWrites host = s.landed host := rfl
  rw [hland, if_pos hcond, Ev.attachSuccess_eq, hadopted]

theorem State.attachedEv_attached (hj : judgeAnchor (Memory.hostWrites s.mem host) = none) (ha : a = anchorOfMemory (Memory.hostWrites s.mem host))
    (hh : s.heldSlots = []) (hw : Memory.wf s.mem = true) : ((s.landed host).adoptAnchor a).AttachedAs a (s.attachedEv host a) := by
  have hs : a.Sound := ha ▸ Anchor.sound_of_judge hj
  exact Ev.attached_as (d := s.attaching host a) rfl rfl hs (Ev.adoptAnchor_words (e := s.landed host) (Memory.hostWrites_wf _ _ hw) a).1
    (State.attaching_orderless hh host a) rfl rfl

theorem Ev.settle_tested (ho : e.Orderless) (hd : e.arbiterDue = false) : e.settle = e.tested.settle := by
  have h1 : e.settleArbiter = e := by simp [Ev.settleArbiter, hd]
  have h2 : e.tested.settleArbiter = e.tested := by simp [Ev.settleArbiter, Ev.tested, hd]
  rw [Ev.settle, h1, Ev.runTests_orderless ho, Ev.settle, h2, Ev.runTests_orderless (e := e.tested) ho]
  rfl

/-- An attach that has deferred no DETACH ends as it stands. -/
theorem Ev.AttachedAs.settled (h : d.AttachedAs a e) : ∃ k, e.settle.toState = { e.toState with freeDraws := k } := by
  obtain ⟨k, hk⟩ := h.idle.settle
  exact ⟨k, by rw [Ev.settle_tested h.orderless h.idle.arbiter, hk]; rfl⟩

/-- A zone that may have been granted its move, and has lost it again. -/
theorem Zone.Returned.of_started {r r' r'' : Zone} (h : r'.Returned r'') (hs : r'.state = r.state ∨ (r.state = .pending ∧ r'.state = .moving)) :
    r''.state = if r.state = .moving then .pending else r.state := by
  rcases hs with hs | ⟨h1, h2⟩
  · rw [h.state, hs]
  · rw [h.moving h2, h1]
    rfl

theorem Ev.adoptAnchor_blocks (e : Ev) (a : Anchor) : e.toState.SameBlocks (e.adoptAnchor a).toState :=
  ⟨⟨rfl, rfl, rfl, rfl, rfl, rfl, rfl, rfl, rfl⟩, rfl⟩

/-- What the event of an attach has come to, as the state before it shows it. -/
structure State.AttachedBy (s : State) (host : List HostWrite) (a : Anchor) (e : Ev) : Prop where
  shows : e.ShowsAll a s.freeDraws e.toState
  word14 : Memory.read e.mem 14 = 0
  word15 : Memory.read e.mem 15 = 0
  others : ∀ x, x ≠ 14 → x ≠ 15 → ¬a.inMirror x → ¬a.inStatus x → Memory.read e.mem x = Memory.read (Memory.hostWrites s.mem host) x
  port : e.port = { s.port.adopting a with updateCounts := e.port.updateCounts }
  unit : ∀ u, (e.unit u).config = (s.unit u).config ∧ (e.unit u).currentSweep = (s.unit u).currentSweep ∧ (e.unit u).loopOn = (s.unit u).loopOn
    ∧ (e.unit u).loopParams = (s.unit u).loopParams
  aims : ∀ u z, (s.zone u z).SameAims (e.zone u z)
  power : ∀ n, (e.line n).power = (s.line n).power
  lawful : s.pendingLawful → (s.grantsLawful → e.toState.grantsLawful)
    ∧ ∀ u z, (e.zone u z).state = (s.zone u z).state ∨ ((s.zone u z).state = .pending ∧ (e.zone u z).state = .moving)
  counts : ∀ u, (∀ z, (e.zone u z).state = (s.zone u z).state) → (e.unit u).sweepFault = (s.unit u).sweepFault →
    e.port.updateCounts[u] = s.port.updateCounts[u] + 2
  check : e.check = s.check
  curves : e.curves = s.curves
  intake : e.intake = s.intake
  timing : e.timing = s.timing
  scanPulses : e.scanPulses = s.scanPulses
  pending : e.pending = s.pending

theorem Ev.AttachedAs.by (h : ((s.landed host).adoptAnchor a).AttachedAs a e) (hs : a.Sound) (hw : Memory.wf s.mem = true) : s.AttachedBy host a e := by
  obtain ⟨_, hw14, hw15, hwords⟩ := Ev.adoptAnchor_words (e := s.landed host) (Memory.hostWrites_wf _ _ hw) a
  have hB := Ev.adoptAnchor_blocks (s.landed host) a
  have hport : ((s.landed host).adoptAnchor a).port = s.port.adopting a := rfl
  have hdraws : ((s.landed host).adoptAnchor a).freeDraws = s.freeDraws := rfl
  have hland : s.SameBlocks (s.landed host).toState := ⟨⟨rfl, rfl, rfl, rfl, rfl, rfl, rfl, rfl, rfl⟩, rfl⟩
  generalize (s.landed host).adoptAnchor a = d at *
  have hu : ∀ u, d.unit u = s.unit u := fun u => congrArg (fun us : Vector UnitRec 16 => us[u]) (hB.units.trans hland.units)
  have hz : ∀ u z, d.zone u z = s.zone u z := fun u z => congrArg (fun us : Vector UnitRec 16 => (us[u]).zones[z]) (hB.units.trans hland.units)
  have hl : ∀ n, d.line n = s.line n := fun n => congrArg (fun ls : Vector Line 16 => ls[n]) (hB.lines.trans hland.lines)
  have h0 : ∀ x, x < 16 → ¬(a.inMirror x ∨ a.inStatus x) := fun x hx => not_or.2 (Anchor.offsets_apart hs.disjoint hx)
  refine ⟨hdraws ▸ h.shows, (h.mem.2 14 (h0 14 (by decide))).trans hw14, (h.mem.2 15 (h0 15 (by decide))).trans hw15, fun x x14 x15 xm xs => ?_, ?_,
    fun u => ?_, fun u z => by rw [← hz]; exact h.aims u z, fun n => by rw [h.power, hl], fun hp => ?_, fun u hs hf => ?_,
    h.check.trans (hB.check.trans hland.check), h.curves.trans (hB.curves.trans hland.curves), h.intake.trans (hB.intake.trans hland.intake),
    h.timing.trans (hB.timing.trans hland.timing), h.scanPulses.trans (hB.scanPulses.trans hland.scanPulses), h.pending.trans (hB.pending.trans hland.pending)⟩
  · exact (h.mem.2 x (not_or.2 ⟨xm, xs⟩)).trans (hwords x x14 x15)
  · rw [← hport]
    exact h.port
  · rw [← hu]
    exact ⟨h.config u, h.currentSweep u, h.loopOn u, h.loopParams u⟩
  · have hp' : d.toState.pendingLawful := fun n z => by
      rw [hl, hz]
      exact hp n z
    obtain ⟨h1, h2⟩ := h.lawful hp'
    refine ⟨fun hg => h1 ?_, fun u z => by rw [← hz]; exact h2 u z⟩
    exact hg.congr (t := d.toState) (fun v y => by rw [hz]) (fun m => by rw [hl]) (hB.partGrants.trans hland.partGrants)
  · rw [h.counts u (fun z => by rw [hz]; exact hs z) (by rw [hu]; exact hf), hport]
    rfl

/-- Settles O9: the whole memory is written at the adoption, and what the moves resumed and a deferred DETACH change is written again. -/
theorem attachSuccessAdoptsTheAnchor : Obligations.AttachSuccessAdoptsTheAnchor := by
  intro host s a hst hj ha hh hw
  refine ⟨_, State.exec_attachSuccess hst hj ha, ?_⟩
  have hA := State.attachedEv_attached hj ha hh hw
  have hs : a.Sound := ha ▸ Anchor.sound_of_judge hj
  have hB : s.AttachedBy host a (s.attachedEv host a) := hA.by hs hw
  have hkept := hA.settled
  have hwf := hA.mem.1
  have hstart := hA.start
  have hlines := hA.idle.lines
  have horders := hA.orderless
  clear hA
  generalize s.attachedEv host a = e at *
  have hport := hB.port
  have hdef : e.port.detachDeferred = s.port.detachDeferred := (congrArg Port.detachDeferred hport).trans rfl
  have h0 : ∀ x, x < 16 → ¬(a.inMirror x ∨ a.inStatus x) := fun x hx => not_or.2 (Anchor.offsets_apart hs.disjoint hx)
  rw [hdef]
  by_cases hd : s.port.detachDeferred = true
  · rw [if_pos hd, if_pos hd]
    have hanchor : e.port.anchor = some a := congrArg Port.anchor hport
    have hstate : e.port.state = .attached := congrArg Port.state hport
    have hD := Ev.detach_settled hanchor
    have hretire : (e.endOrders a).port = e.relieved.port := by rw [Ev.endOrders_of_orderless horders]
    generalize e.detach.settle.toState = t at *
    obtain ⟨hshow, hblocks, hkeep⟩ := hB.shows.detached hD horders hstart hlines ⟨hstate, hanchor, hs.inMemory, hs.disjoint, hwf⟩
    have hC := hD.cut
    obtain ⟨c1, c2, c3, c4, c5, c6, c7, c8, c9, c10, c11, c12, c13, c14, c15, c16, c17, c18⟩ := hD.course
    have hret : t.port.retire = e.port.retire := (hD.retire.trans (congrArg Port.retire hretire)).trans rfl
    have hfin : t.port.finished = e.port.finished := (hD.finished.trans (congrArg Port.finished hretire)).trans rfl
    rw [hport] at c2 c4 c6 c8 c9 c10 c13 c14 c15 c16 hret hfin
    refine ⟨⟨c1, c11, c7, fun n => ⟨?_, fun hp => hC.queue n ((hB.power n).trans hp)⟩, fun hp u z => ?_, fun hp hg => ?_, ?_⟩,
      c2, c9, c4, hret, c3, hfin, c8, c6, c13, c14, c10, c15, c16, (hkeep 14 (h0 14 (by decide))).trans hB.word14,
      (hkeep 15 (h0 15 (by decide))).trans hB.word15, hblocks, hshow,
      fun x x14 x15 xm xs => (hkeep x (not_or.2 ⟨xm, xs⟩)).trans (hB.others x x14 x15 xm xs), fun u => ?_, fun u z => (hB.aims u z).trans (hC.aims u z),
      hC.curves.trans hB.curves, hC.intake.trans hB.intake, hC.timing.trans hB.timing, hC.scanPulses.trans hB.scanPulses, hC.pending.trans hB.pending⟩
    · rw [hC.fountain, Fountain.quieted_move]
    · exact (hC.zone u z).of_started ((hB.lawful hp).2 u z)
    · exact hC.grants ((hB.lawful hp).1 hg)
    · rw [hC.check, hB.check]
      rfl
    · obtain ⟨h1, h2, h3, h4⟩ := hB.unit u
      exact ⟨(hC.config u).trans h1, (hC.currentSweep u).trans h2, (hC.loopOn u).trans h3, (hC.loopParams u).trans h4⟩
  · rw [if_neg hd, if_neg hd]
    obtain ⟨k, hk⟩ := hkept
    rw [hk]
    exact ⟨⟨congrArg Port.state hport, (congrArg Port.lastOutcome hport).trans rfl, congrArg Port.scanTimer hport, hB.counts, hB.check⟩,
      congrArg Port.anchor hport, congrArg Port.mask hport, congrArg Port.take hport, congrArg Port.retire hport, hdef.trans (Bool.eq_false_iff.2 hd),
      congrArg Port.finished hport, congrArg Port.fault hport, congrArg Port.noticeOffset hport, congrArg Port.segment hport,
      congrArg Port.openSegment hport, congrArg Port.lastFailure hport, (congrArg Port.fillSequence hport).trans rfl, (congrArg Port.lostScans hport).trans rfl, hB.word14, hB.word15,
      hB.shows.blocks, hB.shows.area, hB.others, hB.unit, hB.aims, hB.curves, hB.intake, hB.timing, hB.scanPulses, hB.pending⟩

end Sys2Proof.Machine
end

