-- ==== Sys2Proof/Proofs/ReadingCodes.lean ====
section
/-! PROOFS. The codes of a COMPLETE scan's readings (R115, R116): a zone that the arbiter alone has come to is coded as it stood before. And
what a density leaves of the rest of the machine (R117, R118, R130 to R133). -/

namespace Sys2Proof.Machine

open Decode

variable {d e f : Ev} {s t : State} {u v : UnitNo} {y z : ZoneNo} {n : LineNo} {a : Anchor} {scan : OpenScan} {x : Entry} {m : Sheet} {k : Nat}
  {b : Bool}

/-! ### Codes -/

/-- A measured sheet is stale unless it is the counter's own or one of the 1,000 before (R115, log entry 38). -/
theorem stale_iff (a b : Sheet) : (!atOrAfter a b || moreThanBefore 1000 b a) = true ↔ 1000 < (a - b).toNat := by
  have h := (a - b).isLt
  unfold atOrAfter moreThanBefore
  generalize a - b = x at h ⊢
  simp only [Bool.or_eq_true, Bool.not_eq_true', decide_eq_false_iff_not, decide_eq_true_eq, BitVec.toInt_eq_toNat_cond]
  split <;> omega

theorem printing_iff (t : Timing) : (!t.printing) = true ↔ ¬(t.run = .running ∧ t.impression = true) := by
  rw [Timing.printing, Bool.not_eq_true', Bool.and_eq_false_iff, not_and_or, Bool.not_eq_true, ← Bool.not_eq_true, beq_iff_eq]

/-- The model's code of a reading is the first of R116's list. -/
theorem readingCode_eq (s : State) (u : UnitNo) (z : ZoneNo) (m : Sheet) (x : Entry) :
    readingCode (s.judgeScan m) (s.zone u z) m x = s.codeOf u z m x := by
  unfold readingCode State.codeOf State.judgeScan
  simp only [stale_iff, printing_iff]
  split
  · rfl
  · split
    · rfl
    · cases x with
      | outOfRange => rfl
      | patchAbsent => rfl
      | density w =>
        simp only [zoneCode]
        split
        · rfl
        · cases (s.zone u z).state with
          | rest =>
            cases (s.zone u z).settleSheet with
            | none => rfl
            | some b => simp [atOrAfter]
          | off | pending | moving | held | faulted => rfl

/-- A zone that is granted a move stays SETTLING. -/
theorem readingCode_arbitrated (h : s.ArbitratedAt t u z) (j : ScanJudgement) :
    readingCode j (t.zone u z) m x = readingCode j (s.zone u z) m x := by
  rcases h with ⟨hz, _⟩ | ⟨hp, i, _, hg⟩
  · rw [hz]
  · have hcode : zoneCode (t.zone u z) m x = zoneCode (s.zone u z) m x := by
      cases x with
      | density w => simp only [zoneCode, hp, hg.state]
      | patchAbsent => rfl
      | outOfRange => rfl
    unfold readingCode
    rw [hcode]

theorem State.codeOf_rest (h : s.codeOf u z m x = .validDensity) : (s.zone u z).state = .rest := by
  rw [← readingCode_eq] at h
  exact readingCode_validDensity h

/-- The VALID DENSITY readings among the entries of a unit's zones. -/
def State.validIn (s : State) (scan : OpenScan) (u : UnitNo) (l : List (ZoneNo × Entry)) : List (UnitNo × ZoneNo × Nat) :=
  l.filterMap fun p => match p.2 with
    | .density d => if s.codeOf u p.1 scan.sheet p.2 = .validDensity then some (u, p.1, d.toNat) else none
    | .patchAbsent | .outOfRange => none

/-- The readings of a unit's zones with their codes. -/
def State.codedIn (s : State) (scan : OpenScan) (u : UnitNo) (l : List (ZoneNo × Entry)) : List (Entry × ReadingCode) :=
  l.map fun p => (p.2, s.codeOf u p.1 scan.sheet p.2)

/-- The VALID DENSITY readings of a unit. -/
def State.validOf (s : State) (scan : OpenScan) (u : UnitNo) : List (UnitNo × ZoneNo × Nat) :=
  match scan.blocks[u] with
  | none => []
  | some entries => s.validIn scan u (zonedEntries (s.unit u).zoneCount entries)

/-- The group of a unit's readings. -/
def State.codedOf (s : State) (scan : OpenScan) (u : UnitNo) : Option (UnitNo × List (Entry × ReadingCode)) :=
  (scan.blocks[u]).map fun entries => (u, s.codedIn scan u (zonedEntries (s.unit u).zoneCount entries))

theorem State.validReadings_eq (s : State) (scan : OpenScan) : s.validReadings scan = (ascending 16).flatMap (s.validOf scan) := rfl

theorem State.codedGroups_eq (s : State) (scan : OpenScan) : s.codedGroups scan = (ascending 16).filterMap (s.codedOf scan) := rfl

theorem State.mem_validIn {l : List (ZoneNo × Entry)} {r : UnitNo × ZoneNo × Nat} (h : r ∈ s.validIn scan u l) :
    r.1 = u ∧ r.2.1 ∈ l.map (·.1) ∧ (s.zone r.1 r.2.1).state = .rest := by
  obtain ⟨⟨y, x⟩, hp, hr⟩ := List.mem_filterMap.1 h
  cases x with
  | density w =>
    dsimp only at hr
    split at hr
    · next hc =>
      obtain rfl := Option.some.inj hr
      exact ⟨rfl, List.mem_map.2 ⟨_, hp, rfl⟩, State.codeOf_rest hc⟩
    · cases hr
  | patchAbsent => cases hr
  | outOfRange => cases hr

theorem State.mem_validOf {r : UnitNo × ZoneNo × Nat} (h : r ∈ s.validOf scan u) : r.1 = u ∧ (s.zone r.1 r.2.1).state = .rest := by
  unfold State.validOf at h
  split at h
  · cases h
  · exact ⟨(State.mem_validIn h).1, (State.mem_validIn h).2.2⟩

/-! ### One density -/

/-- What a zone keeps while it is sampled: its moves, and what its opening has made of its plan. -/
structure Zone.Sampling (r r' : Zone) : Prop extends r.SameMoves r' where
  coverage : r'.coverage = r.coverage
  plan : r'.plan = r.plan

/-- The zone with a step of size x applied to its offset (R133). -/
def Zone.stepped (x : Int) (sheet : Sheet) (r : Zone) : Zone :=
  { r with offset := saturateOffset (r.offset + x), samples := [], settleSheet := some sheet }

/-- The zone with a density at the front of its samples (R118). -/
def Zone.sampled (k : Nat) (r : Zone) : Zone := { r with samples := addSample k r.samples }

/-- A density is sampled, and stage 7 is run for the zone when a step is due. -/
theorem Ev.takeDensity_cases (e : Ev) (u : UnitNo) (z : ZoneNo) (k : Nat) (n : BitVec 16) : ∃ f : Zone → Zone, (∀ r : Zone, r.Sampling (f r))
    ∧ (e.takeDensity u z k n = (e.updZone u z f).testWatches u z k n
      ∨ e.takeDensity u z k n = ((e.updZone u z f).stage7 u z).testWatches u z k n) := by
  have hmoves (r r' : Zone) (h : r' = { r with offset := r'.offset, samples := r'.samples, settleSheet := r'.settleSheet }) : r.Sampling r' := by
    rw [h]
    exact ⟨⟨rfl, rfl, rfl, rfl, rfl, rfl, rfl, rfl⟩, rfl, rfl⟩
  unfold Ev.takeDensity Ev.examine
  dsimp only
  split
  · split
    · split
      · exact ⟨_, fun r => hmoves r { r.sampled k with samples := [] } rfl, .inl (congrArg (Ev.testWatches · u z k n) (Ev.updZone_updZone ..))⟩
      · next p _ _ _ _ =>
        refine ⟨_, fun r => hmoves r ((r.sampled k).stepped _ (sheetPlus e.timing.counter p.settleW)) rfl,
          .inr (congrArg (fun e : Ev => (e.stage7 u z).testWatches u z k n) (Ev.updZone_updZone ..))⟩
    · exact ⟨_, fun r => hmoves r (r.sampled k) rfl, .inl rfl⟩
  · exact ⟨_, fun r => hmoves r (r.sampled k) rfl, .inl rfl⟩

end Sys2Proof.Machine
end

