-- ==== Sys2Proof/Proofs/Densities.lean ====
section
/-! PROOFS. What a density leaves of the rest of the machine (R117, R124, R133), and that DENSITY WATCH is raised by no shared operation. -/

namespace Sys2Proof.Machine

open Decode

variable {K : Nat → Prop} {d e f : Ev} {s t : State} {u v : UnitNo} {y z : ZoneNo} {n : LineNo} {a : Anchor} {o : OrderRecord} {k : Nat}
  {b : Bool} {g : BitVec 16} {new : ZoneState} {c : FaultCause} {record : List Word}

/-! ### DENSITY WATCH -/

/-- DENSITY WATCH is pending, or not. -/
def Ev.Watching (b : Bool) (e : Ev) : Prop := e.noticePending .densityWatch = b

namespace Ev.Watching

theorem congr (h : e.Watching b) (k : f.port.notices = e.port.notices) : f.Watching b := by
  unfold Ev.Watching State.noticePending at h ⊢
  rw [k, h]

theorem raise (h : e.Watching b) {i : Notice} (hi : i ≠ .densityWatch) : (e.raise i).Watching b := by
  unfold Ev.Watching at h ⊢
  rw [Ev.noticePending_raise, h, decide_eq_false hi, Bool.or_false]

theorem updPort (h : e.Watching b) (p : Port → Port) (hp : (p e.port).notices = e.port.notices) : (e.updPort p).Watching b := h.congr hp

theorem writeWords (h : e.Watching b) (x : Nat) (ws : List Word) : (e.writeWords x ws).Watching b := h.congr rfl

theorem grants (h : e.Watching b) (k : e.GrantsOnly f) : f.Watching b := h.congr (congrArg Port.notices k.port)

theorem enterPending (h : e.Watching b) (u : UnitNo) (z : ZoneNo) (k : MoveKind) : (e.enterPending u z k).Watching b := by
  unfold Ev.enterPending
  split
  · exact h
  · exact (h.grants (Ev.grantsOnly_changeState u z .pending)).congr rfl

theorem enterFaulted (h : e.Watching b) (u : UnitNo) (z : ZoneNo) (c : FaultCause) : (e.enterFaulted u z c).Watching b := by
  unfold Ev.enterFaulted
  exact ((h.grants (Ev.grantsOnly_changeState u z .faulted)).congr rfl).raise (by decide)

theorem place (h : e.Watching b) (u : UnitNo) (z : ZoneNo) : (e.place u z).Watching b := by
  unfold Ev.place
  split
  · exact h.enterPending u z _
  · exact h.grants (Ev.grantsOnly_changeState u z .rest)
  · split
    · exact h.congr rfl
    · exact h.enterFaulted u z _

theorem retarget (h : e.Watching b) (u : UnitNo) (z : ZoneNo) (x : Nat) : (e.retarget u z x).Watching b := by
  rw [Ev.retarget_eq]
  split
  · exact h
  · split
    · exact h
    · split
      · exact h.congr rfl
      · exact h.grants (Ev.grantsOnly_sendMove u z x 0)

theorem actOnTarget (h : e.Watching b) (u : UnitNo) (z : ZoneNo) (x : Nat) : (e.actOnTarget u z x).Watching b := by
  rcases (e.zone u z).state.cases_target with j | j | j
  · rw [Ev.actOnTarget_place j]
    exact h.place u z
  · rw [Ev.actOnTarget_moving j]
    exact h.retarget u z x
  · rwa [Ev.actOnTarget_other j]

theorem stage7 (h : e.Watching b) (u : UnitNo) (z : ZoneNo) : (e.stage7 u z).Watching b := by
  cases hp : (e.zone u z).plan with
  | none => rwa [Ev.stage7_none (.inl hp)]
  | some p =>
    cases hc : (e.unit u).config with
    | none => rwa [Ev.stage7_none (.inr hc)]
    | some c =>
      rw [Ev.stage7_some hp hc]
      exact (h.congr (f := e.targeted u z c p) rfl).actOnTarget u z _

theorem advanceRetire (h : e.Watching b) (a : Anchor) : (e.advanceRetire a).Watching b := by
  unfold Ev.advanceRetire
  dsimp only
  split
  · split
    · exact ((h.updPort _ rfl).writeWords _ _).raise (by decide)
    · exact (h.updPort _ rfl).writeWords _ _
  · exact h

theorem slotFinal (h : e.Watching b) (slot : Nat) (notify : Bool) : (e.slotFinal slot notify).Watching b := by
  unfold Ev.slotFinal
  split
  · dsimp only
    split
    · exact ((h.updPort _ rfl).raise (by decide)).advanceRetire _
    · exact (h.updPort _ rfl).advanceRetire _
  · exact h

theorem writeStatus (h : e.Watching b) (slot : Nat) (st : Status) (x : Detail) : (e.writeStatus slot st x).Watching b := by
  unfold Ev.writeStatus
  split
  · exact (h.writeWords _ _).writeWords _ _
  · exact h

theorem endTracked (h : e.Watching b) (u : UnitNo) (st : Status) (c : Cause) : (e.endTracked u st c).Watching b := by
  unfold Ev.endTracked
  split
  · exact ((h.congr (f := e.clearTracked u) rfl).writeStatus _ _ _).slotFinal _ _
  · exact h

theorem testOrder (h : e.Watching b) (u : UnitNo) : (e.testOrder u).Watching b := by
  unfold Ev.testOrder
  split
  · split
    · exact h.endTracked u _ _
    · exact h
  · exact h

theorem runTests (h : e.Watching b) : e.runTests.Watching b :=
  (Calm.foldl (P := Ev.Watching b) (fun _ u k => k.testOrder u) (inOrder e.testDue) h).congr rfl

theorem settle (h : e.Watching b) : e.settle.Watching b :=
  have hr : e.settleArbiter.runTests.Watching b := (h.grants Ev.grantsOnly_settleArbiter).runTests
  (e.settleArbiter.runTests.flush_blocks.noticePending .densityWatch).trans hr

theorem appendRecord (h : e.Watching b) (a : Anchor) (o : OpenSegment) (record : List Word) : (e.appendRecord a o record).Watching b := by
  unfold Ev.appendRecord
  exact ((h.writeWords _ _).writeWords _ _).updPort _ rfl

theorem openAndPlace (h : e.Watching b) (a : Anchor) (record : List Word) : (e.openAndPlace a record).Watching b := by
  unfold Ev.openAndPlace
  split
  · unfold Ev.openSegment
    exact ((h.writeWords _ _).updPort _ rfl).appendRecord a _ record
  · exact (h.updPort _ rfl).raise (by decide)

theorem storeRecord (h : e.Watching b) (record : List Word) : (e.storeRecord record).Watching b := by
  unfold Ev.storeRecord
  split
  · split
    · exact h.openAndPlace _ record
    · split
      · unfold Ev.closeSegment
        exact (((h.writeWords _ _).raise (by decide)).updPort _ rfl).openAndPlace _ record
      · exact h.appendRecord _ _ record
  · exact h

end Ev.Watching

/-! ### What a density leaves -/

theorem Ev.takeDensity_goes (h : d.Goes anyUnit K e) (u : UnitNo) (z : ZoneNo) (k : Nat) (g : BitVec 16) :
    d.Goes anyUnit K (e.takeDensity u z k g) := by
  obtain ⟨f, hf, j⟩ := e.takeDensity_cases u z k g
  have hz : d.Goes anyUnit K (e.updZone u z f) := h.updZone u z f (hf _).state fun i => absurd trivial i
  rcases j with j | j <;> rw [j]
  · exact hz.updIntake _
  · exact (hz.stage7 trivial z).updIntake _

theorem Ev.takeDensity_watching (h : e.Watching b) (u : UnitNo) (z : ZoneNo) (k : Nat) (g : BitVec 16) : (e.takeDensity u z k g).Watching b := by
  obtain ⟨f, _, j⟩ := e.takeDensity_cases u z k g
  have hz : (e.updZone u z f).Watching b := h.congr rfl
  rcases j with j | j <;> rw [j]
  · exact hz.congr rfl
  · exact (hz.stage7 u z).congr rfl

theorem Ev.takeDensity_serves (e : Ev) (u : UnitNo) (z : ZoneNo) (k : Nat) (g : BitVec 16) : e.Serves (e.takeDensity u z k g) := by
  obtain ⟨f, _, j⟩ := e.takeDensity_cases u z k g
  have hz : e.Serves (e.updZone u z f) := (Ev.Serves.refl e).updZone u z f
  rcases j with j | j <;> rw [j]
  · exact hz.trans ⟨fun _ => .refl _, fun _ => .refl _⟩
  · exact (hz.trans ((treatsZone_stage7 u).serves _ z)).trans ⟨fun _ => .refl _, fun _ => .refl _⟩

/-- A density comes to its own zone alone. -/
theorem Ev.takeDensity_only (e : Ev) (u : UnitNo) (z : ZoneNo) (k : Nat) (g : BitVec 16) : e.OnlyZone u z (e.takeDensity u z k g) := by
  obtain ⟨f, _, j⟩ := e.takeDensity_cases u z k g
  have hz : e.OnlyZone u z (e.updZone u z f) := (Ev.OnlyZone.refl u z e).updZone f
  rcases j with j | j <;> rw [j]
  · exact hz.trans (.of_same (fun _ _ => rfl) fun _ => rfl)
  · exact (hz.trans ((treatsZone_stage7 u).only _ z)).trans (.of_same (fun _ _ => rfl) fun _ => rfl)

/-- The intake but for the watch entries, and the press timing unit. -/
theorem Ev.takeDensity_intake (e : Ev) (u : UnitNo) (z : ZoneNo) (k : Nat) (g : BitVec 16) :
    (e.takeDensity u z k g).intake = { e.intake with watches := Vector.ofFn fun i : Fin 4 => (e.intake.watches[i]).tested u z k g }
      ∧ (e.takeDensity u z k g).timing = e.timing := by
  have hQ : Stable fun t => t.intake = e.intake ∧ t.timing = e.timing :=
    ⟨fun _ _ h => h, fun _ _ h => h, fun _ _ h => h, fun _ _ h => h, fun _ _ h => h, fun _ _ h => h, fun _ _ h _ _ => h, fun _ _ _ h _ => h⟩
  have hkeeps : Keeps (Ev.Is fun t => t.intake = e.intake ∧ t.timing = e.timing) :=
    hQ.keeps fun k h => ⟨k.intake.trans h.1, k.timing.trans h.2⟩
  obtain ⟨f, _, j⟩ := e.takeDensity_cases u z k g
  have hz : (e.updZone u z f).intake = e.intake ∧ (e.updZone u z f).timing = e.timing := ⟨rfl, rfl⟩
  rcases j with j | j <;> rw [j]
  · exact ⟨rfl, rfl⟩
  · obtain ⟨hi, ht⟩ := hkeeps.stage7 u z hz
    refine ⟨?_, ht⟩
    rw [← hi]
    rfl

/-- Stage 7 leaves what a zone's opening has made of it, and where its key stands. -/
theorem Ev.stage7_plan (e : Ev) (u : UnitNo) (z : ZoneNo) (v : UnitNo) (y : ZoneNo) :
    ((e.stage7 u z).zone v y).coverage = (e.zone v y).coverage ∧ ((e.stage7 u z).zone v y).plan = (e.zone v y).plan
      ∧ ((e.stage7 u z).zone v y).position = (e.zone v y).position := by
  by_cases hne : u = v ∧ z = y
  · obtain ⟨rfl, rfl⟩ := hne
    cases hp : (e.zone u z).plan with
    | none => rw [Ev.stage7_none (.inl hp)]; exact ⟨rfl, hp, rfl⟩
    | some p =>
      cases hc : (e.unit u).config with
      | none => rw [Ev.stage7_none (.inr hc)]; exact ⟨rfl, hp, rfl⟩
      | some c =>
        have h := Ev.stage7_aims hp hc
        exact ⟨h.coverage, h.plan.trans hp, h.position⟩
  · rw [((treatsZone_stage7 u).only e z v y hne).1]
    exact ⟨rfl, rfl, rfl⟩

theorem Ev.takeDensity_plan (e : Ev) (u : UnitNo) (z : ZoneNo) (k : Nat) (g : BitVec 16) (v : UnitNo) (y : ZoneNo) :
    ((e.takeDensity u z k g).zone v y).coverage = (e.zone v y).coverage ∧ ((e.takeDensity u z k g).zone v y).plan = (e.zone v y).plan
      ∧ ((e.takeDensity u z k g).zone v y).position = (e.zone v y).position := by
  obtain ⟨f, hf, j⟩ := e.takeDensity_cases u z k g
  have hz : ((e.updZone u z f).zone v y).coverage = (e.zone v y).coverage ∧ ((e.updZone u z f).zone v y).plan = (e.zone v y).plan
      ∧ ((e.updZone u z f).zone v y).position = (e.zone v y).position := by
    rw [Ev.updZone_zone]
    split
    · next i =>
      obtain ⟨rfl, rfl⟩ := i
      exact ⟨(hf _).coverage, (hf _).plan, (hf _).position⟩
    · exact ⟨rfl, rfl, rfl⟩
  rcases j with j | j <;> rw [j]
  · exact hz
  · obtain ⟨h1, h2, h3⟩ := (e.updZone u z f).stage7_plan u z v y
    exact ⟨h1.trans hz.1, h2.trans hz.2.1, h3.trans hz.2.2⟩

end Sys2Proof.Machine
end

