-- ==== Sys2Proof/Proofs/Samples.lean ====
section
/-! PROOFS. A zone that has been sampled (R118, R130 to R133): the step that its correction loop makes, and what the rest of the scan leaves of
it. -/

namespace Sys2Proof.Machine

open Decode

variable {d e f : Ev} {r s t : State} {u v : UnitNo} {y z : ZoneNo} {k : Nat} {g : BitVec 16} {c : UnitConfig} {p : LoopParams} {w : Int}

/-! ### The arbiter's run -/

theorem Ev.settleArbiter_samples (h : (e.zone v y).samples = []) : (e.settleArbiter.zone v y).samples = [] := by
  have hend : e.settleArbiter.EndsOnly e.settle := (Ev.EndsOnly.refl _).runTests.flush
  rw [← hend.zone]
  exact Ev.settle_samples h

/-- The arbiter alone may have come to a zone. -/
structure State.GrantedOn (s t : State) (v : UnitNo) (y : ZoneNo) : Prop where
  arbitrated : s.ArbitratedAt t v y
  aims : (s.zone v y).SameAims (t.zone v y)
  samples : (s.zone v y).samples = [] → (t.zone v y).samples = []

theorem State.GrantedOn.refl (s : State) (v : UnitNo) (y : ZoneNo) : s.GrantedOn s v y := ⟨.refl _ _ _, .refl _, id⟩

theorem State.GrantedOn.trans (h : r.GrantedOn s v y) (k : s.GrantedOn t v y) : r.GrantedOn t v y :=
  ⟨h.arbitrated.trans k.arbitrated, h.aims.trans k.aims, fun j => k.samples (h.samples j)⟩

/-- The zone and its entry are the same. -/
theorem State.GrantedOn.of_same (hz : t.zone v y = s.zone v y) (hw : ∀ k, t.waitsFor v y k ↔ s.waitsFor v y k) : s.GrantedOn t v y :=
  ⟨.inl ⟨hz, hw⟩, hz ▸ .refl _, fun h => hz ▸ h⟩

theorem Ev.settleArbiter_grantedOn (hl : e.toState.pendingLawful) (v : UnitNo) (y : ZoneNo) : e.toState.GrantedOn e.settleArbiter.toState v y :=
  ⟨Ev.settleArbiter_arbitrated hl v y, (Ev.grantsOnly_settleArbiter (e := e)).zone v y, Ev.settleArbiter_samples⟩

theorem Ev.settle_grantedOn (hl : e.toState.pendingLawful) (v : UnitNo) (y : ZoneNo) : e.toState.GrantedOn e.settle.toState v y := by
  have hend : e.settleArbiter.EndsOnly e.settle := (Ev.EndsOnly.refl _).runTests.flush
  refine (Ev.settleArbiter_grantedOn hl v y).trans (.of_same (hend.zone v y) fun k => ?_)
  rw [State.waitsFor, State.line, hend.lines]
  rfl

/-! ### A zone that has been sampled -/

/-- A valid density has been sampled by a zone, and one that has been left PENDING waits for its target. -/
structure State.Treated (s t : State) (u : UnitNo) (z : ZoneNo) (k : Nat) : Prop where
  sampled : s.Sampled t u z k
  waits : (t.zone u z).state = .pending → t.waitsFor u z .position

theorem State.Stepped.shown (h : s.Stepped r u z p w) (hz : t.zone u z = r.zone u z) : s.Stepped t u z p w := by
  unfold State.Stepped State.PlacedFor State.Driven at h ⊢
  rwa [hz]

theorem State.Sampled.shown (h : s.Sampled r u z k) (hz : t.zone u z = r.zone u z) : s.Sampled t u z k := by
  unfold State.Sampled at h ⊢
  dsimp only at h ⊢
  split at h
  · split at h
    · rw [if_pos ‹_›, hz, h]
    · rw [if_neg ‹_›]
      split at h
      · rw [if_pos ‹_›, hz, h]
      · rw [if_neg ‹_›]
        exact h.shown hz
  · rw [hz, h]

/-- A zone in REST that a step has left PENDING is granted the move to its target. -/
theorem State.Stepped.granted (h : s.Stepped r u z p w) (hp : (r.zone u z).state = .pending)
    (hg : (r.zone u z).GrantedAs (t.zone u z) .position) (hG : r.GrantedOn t u z) : s.Stepped t u z p w := by
  obtain ⟨h1, h2, h3, h4⟩ := h
  refine ⟨hG.aims.offset.trans h1, hG.samples h2, hG.aims.settleSheet.trans h3, ?_⟩
  split at h4
  · obtain ⟨h5, h6⟩ := h4
    rw [hG.aims.target, hG.aims.offset]
    refine ⟨h5, h6.granted hp (.inr ⟨hg.state, hg.moveKind, ?_⟩)⟩
    rw [hg.commanded, h5]
    rfl
  · rw [hp] at h4
    cases h4.2

theorem State.Sampled.granted (h : s.Sampled r u z k) (hs : (s.zone u z).state = .rest) (hp : (r.zone u z).state = .pending)
    (hg : (r.zone u z).GrantedAs (t.zone u z) .position) (hG : r.GrantedOn t u z) : s.Sampled t u z k := by
  have hrest {q : Zone} (h : r.zone u z = q) (hq : q.state = .rest) : False := by
    rw [h, hq] at hp
    cases hp
  unfold State.Sampled at h ⊢
  dsimp only at h ⊢
  split at h
  · split at h
    · exact (hrest h hs).elim
    · rw [if_neg ‹_›]
      split at h
      · exact (hrest h hs).elim
      · rw [if_neg ‹_›]
        exact h.granted hp hg hG
  · exact (hrest h hs).elim

/-- The rest of the scan grants the move that the zone waits for, and leaves the zone besides. -/
theorem State.Treated.grantedOn (h : s.Treated r u z k) (hs : (s.zone u z).state = .rest) (hl : r.pendingLawful) (hG : r.GrantedOn t u z) :
    s.Treated t u z k := by
  rcases hG.arbitrated with ⟨hz, hw⟩ | ⟨hp, i, hi, hg⟩
  · exact ⟨h.sampled.shown hz, fun j => (hw _).2 (h.waits (by rwa [← hz]))⟩
  · obtain rfl := hl.waits_unique hi (h.waits hp)
    exact ⟨h.sampled.granted hs hp hg hG, fun j => absurd (hg.state.symm.trans j) (by decide)⟩

/-! ### The density -/

/-- A zone in REST that has acted on a target has taken the outcome of its placement. -/
theorem State.ActedOn.placed {x : Nat} (h : s.ActedOn t u z c x) (hr : (s.zone u z).state = .rest) : s.PlacedFor t u z c.tolerance x := by
  have hreacted := h.reacted
  unfold State.Reacted at hreacted
  rwa [hr] at hreacted

/-- The placement looks at the zone's module and position. -/
theorem State.PlacedFor.of_alike {x w : Nat} (h : r.PlacedFor t u z w x) (hm : r.moduleState u z = s.moduleState u z)
    (hp : (r.zone u z).position = (s.zone u z).position) : s.PlacedFor t u z w x := by
  unfold State.PlacedFor at h ⊢
  rwa [hm, hp] at h

theorem saturateOffset_eq (x : Int) : saturateOffset x = max (-300) (min 300 x) := by
  unfold saturateOffset clampInt
  split_ifs <;> omega

/-- A change of a zone that leaves its state keeps the law of R45. -/
theorem Ev.updZone_pendingLawful (hl : e.toState.pendingLawful) {q : Zone → Zone} (hq : (q (e.zone u z)).state = (e.zone u z).state) :
    (e.updZone u z q).toState.pendingLawful := fun v y => by
  have h := hl v y
  rw [Ev.updZone_zone]
  split
  · next j =>
    obtain ⟨rfl, rfl⟩ := j
    rwa [hq]
  · exact h

/-- A step is applied to a zone in REST (R133). -/
theorem Ev.applyStep_stepped (hl : e.toState.pendingLawful) (hr : (e.zone u z).state = .rest) (p : LoopParams) (w : Int) :
    e.toState.Stepped (e.applyStep u z p w).toState u z p w
      ∧ (((e.applyStep u z p w).zone u z).state = .pending → (e.applyStep u z p w).waitsFor u z .position) := by
  have happly : e.applyStep u z p w = (e.updZone u z (Zone.stepped w (sheetPlus e.timing.counter p.settleW))).stage7 u z := rfl
  generalize he1 : e.updZone u z (Zone.stepped w (sheetPlus e.timing.counter p.settleW)) = e1 at happly
  have hz : e1.zone u z = (e.zone u z).stepped w (sheetPlus e.timing.counter p.settleW) := by
    rw [← he1, Ev.updZone_zone, if_pos ⟨rfl, rfl⟩]
  have hl1 : e1.toState.pendingLawful := he1 ▸ Ev.updZone_pendingLawful hl rfl
  have hconfig : (e1.unit u).config = (e.unit u).config := by rw [← he1, Ev.updZone, Ev.updUnit_unit_self]
  have hmodule : e1.moduleState u z = e.moduleState u z := by rw [← he1]; rfl
  have hplan : (e1.zone u z).plan = (e.zone u z).plan := by rw [hz]; rfl
  have hsamples := Ev.stage7_samples (e := e1) (u := u) (z := z) (v := u) (y := z) (by rw [hz]; rfl)
  have hoffset : (e1.zone u z).offset = max (-300) (min 300 ((e.zone u z).offset + w)) := by
    rw [hz]
    exact saturateOffset_eq _
  have hrest1 : (e1.zone u z).state = .rest := by rw [hz]; exact hr
  rw [happly]
  unfold State.Stepped
  cases hp : (e.zone u z).plan with
  | none =>
    rw [Ev.stage7_none (.inl (hplan.trans hp))]
    refine ⟨⟨hoffset, by rw [hz]; rfl, by rw [hz]; rfl, by rw [hz]; rfl, hrest1⟩, fun j => absurd (hrest1.symm.trans j) (by decide)⟩
  | some x =>
    cases hc : (e.unit u).config with
    | none =>
      rw [Ev.stage7_none (.inr (hconfig.trans hc))]
      refine ⟨⟨hoffset, by rw [hz]; rfl, by rw [hz]; rfl, by rw [hz]; rfl, hrest1⟩, fun j => absurd (hrest1.symm.trans j) (by decide)⟩
    | some c =>
      have hacted := Ev.stage7_acted hl1 (hplan.trans hp) (hconfig.trans hc)
      have haims := Ev.stage7_aims (hplan.trans hp) (hconfig.trans hc)
      have hoff : ((e1.stage7 u z).zone u z).offset = (e1.zone u z).offset := haims.offset
      refine ⟨⟨hoff.trans hoffset, hsamples, ?_, ?_, ?_⟩, fun j => ?_⟩
      · refine haims.settleSheet.trans ?_
        rw [hz]
        rfl
      · rw [hacted.target, hoff]
      · rw [hoff]
        exact (hacted.placed hrest1).of_alike hmodule (by rw [hz]; rfl)
      · exact (hacted.waits j).resolve_right fun i => absurd (hrest1.symm.trans i.1) (by decide)

/-- A step of the zone that another state shows is the step of this one. -/
theorem State.Stepped.of_alike (h : r.Stepped t u z p w) (hz : r.zone u z = { s.zone u z with samples := (r.zone u z).samples })
    (hm : r.moduleState u z = s.moduleState u z) (hc : (r.unit u).config = (s.unit u).config) (ht : r.timing = s.timing) :
    s.Stepped t u z p w := by
  obtain ⟨h1, h2, h3, h4⟩ := h
  have hoffset : (r.zone u z).offset = (s.zone u z).offset := by rw [hz]
  have hplan : (r.zone u z).plan = (s.zone u z).plan := by rw [hz]
  have htarget : (r.zone u z).target = (s.zone u z).target := by rw [hz]
  have hposition : (r.zone u z).position = (s.zone u z).position := by rw [hz]
  rw [hoffset] at h1
  rw [ht] at h3
  rw [hplan, hc, htarget] at h4
  refine ⟨h1, h2, h3, ?_⟩
  split at h4
  · exact ⟨h4.1, h4.2.of_alike hm hposition⟩
  · exact h4

/-- The correction loop of a unit is OFF, or has no parameters (R130). -/
theorem State.sampled_idle (h : (s.unit u).loopOn = false ∨ (s.unit u).loopParams = none) (hz : t.zone u z = (s.zone u z).sampled k) :
    s.Sampled t u z k := by
  unfold State.Sampled
  rcases h with h | h
  · rw [h]
    exact hz
  · rw [h]
    cases (s.unit u).loopOn <;> exact hz

section
variable (ho : (s.unit u).loopOn = true) (hp : (s.unit u).loopParams = some p)
include ho hp

/-- Too few samples have come (R130). -/
theorem State.sampled_few (hlen : (addSample k (s.zone u z).samples).length < p.samplesA) (hz : t.zone u z = (s.zone u z).sampled k) :
    s.Sampled t u z k := by
  unfold State.Sampled
  rw [ho, hp]
  exact (if_pos hlen).mpr hz

/-- The mean lies within the deadband (R131). -/
theorem State.sampled_even (hlen : ¬(addSample k (s.zone u z).samples).length < p.samplesA)
    (hd : (densityError p (sampleMean p.samplesA (addSample k (s.zone u z).samples))).natAbs ≤ p.deadband)
    (hz : t.zone u z = { s.zone u z with samples := [] }) : s.Sampled t u z k := by
  unfold State.Sampled
  rw [ho, hp]
  exact (if_neg hlen).mpr ((if_pos hd).mpr hz)

/-- A step is due (R132, R133). -/
theorem State.sampled_off (hlen : ¬(addSample k (s.zone u z).samples).length < p.samplesA)
    (hd : ¬(densityError p (sampleMean p.samplesA (addSample k (s.zone u z).samples))).natAbs ≤ p.deadband)
    (hz : s.Stepped t u z p (stepSize p (densityError p (sampleMean p.samplesA (addSample k (s.zone u z).samples))))) : s.Sampled t u z k := by
  unfold State.Sampled
  rw [ho, hp]
  exact (if_neg hlen).mpr ((if_neg hd).mpr hz)

end

/-- The event with a density at the front of a zone's samples. -/
def Ev.sampled (e : Ev) (u : UnitNo) (z : ZoneNo) (k : Nat) : Ev := e.updZone u z (Zone.sampled k)

theorem Ev.sampled_zone (e : Ev) (u : UnitNo) (z : ZoneNo) (k : Nat) : (e.sampled u z k).zone u z = (e.zone u z).sampled k := by
  rw [Ev.sampled, Ev.updZone_zone, if_pos ⟨rfl, rfl⟩]

theorem Ev.sampled_unit (e : Ev) (u : UnitNo) (z : ZoneNo) (k : Nat) : ((e.sampled u z k).unit u).config = (e.unit u).config
    ∧ ((e.sampled u z k).unit u).loopOn = (e.unit u).loopOn ∧ ((e.sampled u z k).unit u).loopParams = (e.unit u).loopParams := by
  rw [Ev.sampled, Ev.updZone, Ev.updUnit_unit_self]
  exact ⟨rfl, rfl, rfl⟩

/-- A zone in REST that has a sample more is examined by the correction loop of its unit (R118, R130 to R132). -/
theorem Ev.examine_treated (hl : e.toState.pendingLawful) (hr : (e.zone u z).state = .rest) (k : Nat) :
    e.toState.Treated ((e.sampled u z k).examine u z).toState u z k := by
  have hz := e.sampled_zone u z k
  obtain ⟨hconfig, hon, hparams⟩ := e.sampled_unit u z k
  have hrest : ((e.sampled u z k).zone u z).state = .rest := by rw [hz]; exact hr
  have hidle {f : Ev} (hf : (f.zone u z).state = .rest) : (f.zone u z).state = .pending → f.waitsFor u z .position := fun j =>
    absurd (hf.symm.trans j) (by decide)
  have hsamples : ((e.sampled u z k).zone u z).samples = addSample k (e.zone u z).samples := by rw [hz]; rfl
  unfold Ev.examine
  dsimp only
  rw [hon, hparams, hsamples]
  split
  · next p ho hp =>
    by_cases hlen : (addSample k (e.zone u z).samples).length < p.samplesA
    · rw [if_neg fun j => Nat.not_le_of_lt hlen j.2]
      exact ⟨State.sampled_few ho hp hlen hz, hidle hrest⟩
    · rw [if_pos ⟨hrest, Nat.le_of_not_lt hlen⟩]
      split
      · next hd =>
        have hzone : ((e.sampled u z k).updZone u z fun r => { r with samples := [] }).zone u z = { e.zone u z with samples := [] } := by
          rw [Ev.updZone_zone, if_pos ⟨rfl, rfl⟩, hz]
          rfl
        exact ⟨State.sampled_even ho hp hlen hd hzone, hidle (by rw [hzone]; exact hr)⟩
      · next hd =>
        obtain ⟨h1, h2⟩ := Ev.applyStep_stepped (Ev.updZone_pendingLawful (q := Zone.sampled k) hl rfl) hrest p
          (stepSize p (densityError p (sampleMean p.samplesA (addSample k (e.zone u z).samples))))
        exact ⟨State.sampled_off ho hp hlen hd (h1.of_alike (by exact hz ▸ rfl) rfl hconfig rfl), h2⟩
  · next hno =>
    refine ⟨State.sampled_idle ?_ hz, hidle hrest⟩
    cases ho : (e.unit u).loopOn with
    | false => exact .inl rfl
    | true =>
      cases hp : (e.unit u).loopParams with
      | none => exact .inr rfl
      | some p => exact (hno p ho hp).elim

/-- A zone in REST takes a density (R117). -/
theorem Ev.takeDensity_treated (hl : e.toState.pendingLawful) (hr : (e.zone u z).state = .rest) (k : Nat) (g : BitVec 16) :
    e.toState.Treated (e.takeDensity u z k g).toState u z k := by
  have h := Ev.examine_treated hl hr k
  exact ⟨h.sampled.shown rfl, h.waits⟩

/-- The treatment of a zone that another state shows is the treatment of this one. -/
theorem State.Treated.of_alike (h : r.Treated t u z k) (hz : r.zone u z = s.zone u z) (hu : (s.unit u).SameSettings (r.unit u))
    (hn : (s.line u).SameService (r.line u)) (ht : r.timing = s.timing) : s.Treated t u z k := by
  have hm : r.moduleState u z = s.moduleState u z := by rw [State.moduleState, hn.modules]; rfl
  obtain ⟨h1, h2⟩ := h
  refine ⟨?_, h2⟩
  unfold State.Sampled at h1 ⊢
  rw [hu.loopOn, hu.loopParams, hz] at h1
  dsimp only at h1 ⊢
  split at h1
  · split at h1
    · rwa [if_pos ‹_›]
    · rw [if_neg ‹_›]
      split at h1
      · rwa [if_pos ‹_›]
      · rw [if_neg ‹_›]
        exact h1.of_alike (by rw [hz]) hm hu.config ht
  · exact h1

end Sys2Proof.Machine
end

