-- ==== Sys2Proof/Proofs/Treatments.lean ====
section
/-! PROOFS. The treatment of a COMPLETE scan (R117): the densities that it takes, one after another with the arbiter's runs between them, and
what they leave of each zone, of the intake and of the rest of the machine. -/

namespace Sys2Proof.Machine

open Decode

variable {K : Nat → Prop} {d e f : Ev} {s t : State} {u v : UnitNo} {y z : ZoneNo} {k : Nat} {g : BitVec 16} {b : Bool}
  {l : List (UnitNo × ZoneNo × Nat)} {scan : OpenScan} {j : ScanJudgement} {T : Treatment}

/-! ### Densities in order -/

/-- An event has taken the densities of a list, in its order, from zones that were in REST as each was taken. -/
inductive Ev.Scanned (g : BitVec 16) (d : Ev) : List (UnitNo × ZoneNo × Nat) → Ev → Prop
  | start : Scanned g d [] d
  | take {l : List (UnitNo × ZoneNo × Nat)} {e : Ev} (u : UnitNo) (z : ZoneNo) (k : Nat) :
    Scanned g d l e → (e.zone u z).state = .rest → Scanned g d (l ++ [(u, z, k)]) (e.takeDensity u z k g)
  | run {l : List (UnitNo × ZoneNo × Nat)} {e : Ev} : Scanned g d l e → Scanned g d l e.settleArbiter

namespace Ev.Scanned

theorem goes (h : d.Scanned g l e) (hK : ∀ u, ∀ k ∈ (d.unit u).slots, K k) : d.Goes anyUnit K e := by
  induction h with
  | start => exact .refl hK
  | take u z k _ _ ih => exact Ev.takeDensity_goes ih u z k g
  | run _ ih => exact ih.settleArbiter

theorem serves (h : d.Scanned g l e) : d.Serves e := by
  induction h with
  | start => exact .refl d
  | take u z k _ _ ih => exact ih.trans (Ev.takeDensity_serves _ u z k g)
  | run _ ih => exact ih.trans ((Ev.Goes.refl (U := noUnit) (K := fun _ => True) fun _ _ _ => trivial).settleArbiter).serves

theorem watching (h : d.Scanned g l e) (hd : d.Watching b) : e.Watching b := by
  induction h with
  | start => exact hd
  | take u z k _ _ ih => exact Ev.takeDensity_watching ih u z k g
  | run _ ih => exact ih.grants Ev.grantsOnly_settleArbiter

theorem timing (h : d.Scanned g l e) : e.timing = d.timing := by
  induction h with
  | start => rfl
  | take u z k _ _ ih => exact (Ev.takeDensity_intake _ u z k g).2.trans ih
  | run _ ih => exact Ev.grantsOnly_settleArbiter.timing.trans ih

/-- The watch entries are tested against each density. -/
theorem intake (h : d.Scanned g l e) : e.intake = { d.intake with watches := e.intake.watches }
    ∧ ∀ i : Fin 4, e.intake.watches[i] = l.foldl (fun w r => w.tested r.1 r.2.1 r.2.2 g) d.intake.watches[i] := by
  induction h with
  | start => exact ⟨rfl, fun _ => rfl⟩
  | take u z k _ _ ih =>
    obtain ⟨ih1, ih2⟩ := ih
    rw [(Ev.takeDensity_intake _ u z k g).1]
    refine ⟨by rw [ih1], fun i => ?_⟩
    rw [List.foldl_append, ← ih2 i]
    exact Vector.getElem_ofFn i.isLt
  | run _ ih => rwa [Ev.grantsOnly_settleArbiter.intake]

theorem pendingLawful (h : d.Scanned g l e) (hl : d.toState.pendingLawful) : e.toState.pendingLawful := by
  induction h with
  | start => exact hl
  | take u z k _ hr ih => exact Ev.keeps_pendingLawful.takeDensity (fun _ _ j => j) u z k g hr ih
  | run _ ih => exact Ev.keeps_pendingLawful.settleArbiter ih

/-! ### Zones -/

/-- A zone of which no density is taken. -/
theorem beyond (h : d.Scanned g l e) (hl : d.toState.pendingLawful) (hz : ∀ k, (v, y, k) ∉ l) : d.toState.GrantedOn e.toState v y := by
  induction h with
  | start => exact .refl _ _ _
  | take u z k _ _ ih =>
    have hne : ¬(u = v ∧ z = y) := by
      rintro ⟨rfl, rfl⟩
      exact hz k (List.mem_append_right _ List.mem_cons_self)
    obtain ⟨h1, h2⟩ := Ev.takeDensity_only _ u z k g v y hne
    exact (ih fun i hi => hz i (List.mem_append_left _ hi)).trans (.of_same h1 h2)
  | run h0 ih => exact (ih hz).trans (Ev.settleArbiter_grantedOn (h0.pendingLawful hl) v y)

/-- A zone that has taken its one density is treated, as the scan has found it. -/
theorem treated (h : d.Scanned g l e) (hl : d.toState.pendingLawful) (hn : (l.map fun r => (r.1, r.2.1)).Nodup) (hm : (v, y, k) ∈ l) :
    (d.zone v y).state = .rest ∧ d.toState.Treated e.toState v y k := by
  induction h with
  | start => cases hm
  | @take l e u z i h0 hr ih =>
    rw [List.map_append, List.nodup_append] at hn
    obtain ⟨hn, _, hnew⟩ := hn
    rcases List.mem_append.1 hm with hm | hm
    · have hne : ¬(u = v ∧ z = y) := by
        rintro ⟨rfl, rfl⟩
        exact hnew _ (List.mem_map_of_mem hm) _ List.mem_cons_self rfl
      obtain ⟨h1, h2⟩ := Ev.takeDensity_only e u z i g v y hne
      obtain ⟨hrest, ht⟩ := ih hn hm
      exact ⟨hrest, ht.grantedOn hrest (h0.pendingLawful hl) (.of_same h1 h2)⟩
    · obtain ⟨rfl, rfl, rfl⟩ : v = u ∧ y = z ∧ k = i := by simpa using hm
      have hfresh : ∀ k, (v, y, k) ∉ l := fun i hi => hnew _ (List.mem_map_of_mem hi) _ List.mem_cons_self rfl
      have hzone : e.zone v y = d.zone v y := by
        rcases (h0.beyond hl hfresh).arbitrated with ⟨hz, _⟩ | ⟨_, _, _, hg⟩
        · exact hz
        · exact absurd (hg.state.symm.trans hr) (by decide)
      exact ⟨hzone ▸ hr, (Ev.takeDensity_treated (h0.pendingLawful hl) hr k g).of_alike hzone (h0.serves.settings v) (h0.serves.service v)
        h0.timing⟩
  | run h0 ih =>
    obtain ⟨hrest, ht⟩ := ih hn hm
    exact ⟨hrest, ht.grantedOn hrest (h0.pendingLawful hl) (Ev.settleArbiter_grantedOn (h0.pendingLawful hl) v y)⟩

/-- No zone's plan is touched. -/
theorem plans (h : d.Scanned g l e) (v : UnitNo) (y : ZoneNo) : (e.zone v y).coverage = (d.zone v y).coverage
    ∧ (e.zone v y).plan = (d.zone v y).plan ∧ (e.zone v y).position = (d.zone v y).position := by
  induction h with
  | start => exact ⟨rfl, rfl, rfl⟩
  | @take l e u z i _ _ ih =>
    obtain ⟨h1, h2, h3⟩ := Ev.takeDensity_plan e u z i g v y
    exact ⟨h1.trans ih.1, h2.trans ih.2.1, h3.trans ih.2.2⟩
  | @run l e _ ih =>
    have haims := (Ev.grantsOnly_settleArbiter (e := e)).zone v y
    exact ⟨haims.coverage.trans ih.1, haims.plan.trans ih.2.1, haims.position.trans ih.2.2⟩

end Ev.Scanned

end Sys2Proof.Machine
end

