-- ==== Sys2Proof/Proofs/CodedScans.lean ====
section
/-! PROOFS. The treatment of a COMPLETE scan takes its VALID DENSITY readings, codes every reading as the scan has found its zone, and hits the
watch entries that those readings hit (R116, R117, R124, R125). -/

namespace Sys2Proof.Machine

open Decode

variable {d e f : Ev} {s t : State} {u v : UnitNo} {y z : ZoneNo} {k : Nat} {g : BitVec 16} {x : Entry}
  {l : List (UnitNo × ZoneNo × Nat)} {ps : List (ZoneNo × Entry)} {us : List UnitNo} {scan : OpenScan} {j : ScanJudgement} {T : Treatment}
  {w : Watch}

/-! ### Some densities -/

theorem Treatment.zone_scanned (h : ∃ l, d.Scanned scan.number l T.ev) (j : ScanJudgement) (u : UnitNo) (z : ZoneNo) (x : Entry) :
    ∃ l, d.Scanned scan.number l (T.zone j scan u z x).ev := by
  obtain ⟨l, h⟩ := h
  unfold Treatment.zone
  dsimp only
  split
  · next hcode => exact ⟨_, h.take u z _ (readingCode_validDensity hcode)⟩
  · exact ⟨l, h⟩

theorem Treatment.unit_scanned (h : ∃ l, d.Scanned scan.number l T.ev) (j : ScanJudgement) (u : UnitNo) :
    ∃ l, d.Scanned scan.number l (T.unit j scan u).ev := by
  unfold Treatment.unit
  split
  · exact h
  · obtain ⟨l, hl⟩ := Keeps.treatFoldl (P := fun e => ∃ l, d.Scanned scan.number l e) (fun T (p : ZoneNo × Entry) h => T.zone_scanned h j u p.1 p.2) _
      { T with readings := [] } h
    exact ⟨l, hl.run⟩

/-- The treatment of a whole scan (R117). -/
def Ev.treated (d : Ev) (scan : OpenScan) : Treatment :=
  (ascending 16).foldl (fun T u => T.unit (d.judgeScan scan.sheet) scan u) { ev := d, readings := [], groups := [], hit := false }

theorem Ev.treated_scanned (d : Ev) (scan : OpenScan) : ∃ l, d.Scanned scan.number l (d.treated scan).ev :=
  Keeps.treatFoldl (P := fun e => ∃ l, d.Scanned scan.number l e) (fun T u h => T.unit_scanned h _ u) (ascending 16) _ ⟨[], .start⟩

/-! ### The watch entries -/

theorem Watch.tested_hit (w : Watch) (u : UnitNo) (z : ZoneNo) (k : Nat) (g : BitVec 16) (v : UnitNo) (i : Nat) :
    (w.tested u z k g).hit v i = w.hit v i := by
  unfold Watch.tested
  split <;> rfl

theorem Watch.foldl_hit (l : List (UnitNo × ZoneNo × Nat)) (w : Watch) (v : UnitNo) (i : Nat) :
    (l.foldl (fun w r => w.tested r.1 r.2.1 r.2.2 g) w).hit v i = w.hit v i := by
  induction l generalizing w with
  | nil => rfl
  | cons r l ih => exact (ih _).trans (w.tested_hit r.1 r.2.1 r.2.2 g v i)

theorem Ev.Scanned.anyHit (h : d.Scanned g l e) (v : UnitNo) (i : Nat) : e.intake.anyHit v i = d.intake.anyHit v i := by
  unfold Intake.anyHit
  congr 1
  funext q
  rw [h.intake.2 q, Watch.foldl_hit]

theorem Watch.hits_eq (w : Watch) (l : List (UnitNo × ZoneNo × Nat)) : w.hits l = l.filter fun r => w.hit r.1 r.2.2 := rfl

/-- The last hit among the densities is the entry's last hit (R124). -/
theorem Watch.foldl_tested (l : List (UnitNo × ZoneNo × Nat)) (w : Watch) (g : BitVec 16) :
    l.foldl (fun w r => w.tested r.1 r.2.1 r.2.2 g) w = match (w.hits l).getLast? with
      | some r => { w with lastHit := some { unit := r.1, zone := r.2.1, density := r.2.2, scan := g } }
      | none => w := by
  induction l using List.reverseRecOn with
  | nil => rfl
  | append_singleton l r ih =>
    have hhit : (l.foldl (fun w r => w.tested r.1 r.2.1 r.2.2 g) w).hit r.1 r.2.2 = w.hit r.1 r.2.2 := Watch.foldl_hit l w _ _
    rw [List.foldl_append, List.foldl_cons, List.foldl_nil, Watch.tested, hhit, Watch.hits_eq, List.filter_append, List.filter_singleton]
    by_cases hr : w.hit r.1 r.2.2 = true
    · rw [if_pos hr, hr, cond_true, List.getLast?_concat, ih]
      split <;> rfl
    · rw [if_neg hr, Bool.eq_false_iff.2 hr, cond_false, List.append_nil, ← Watch.hits_eq, ih]

theorem anyHit_iff (i : Intake) (l : List (UnitNo × ZoneNo × Nat)) :
    (l.any fun r => i.anyHit r.1 r.2.2) = true ↔ ∃ q : Fin 4, (i.watches[q]).hits l ≠ [] := by
  simp only [Watch.hits_eq, ne_eq, List.filter_eq_nil_iff, List.any_eq_true, Intake.anyHit, ascending, List.mem_finRange, true_and, not_forall,
    not_not]
  constructor
  · rintro ⟨r, hr, q, hq⟩
    exact ⟨q, r, hr, hq⟩
  · rintro ⟨q, r, hr, hq⟩
    exact ⟨r, hr, q, hq⟩

/-! ### The readings that are taken -/

/-- A treatment has taken these densities. -/
structure Treatment.Taken (d : Ev) (scan : OpenScan) (l : List (UnitNo × ZoneNo × Nat)) (T : Treatment) : Prop where
  scanned : d.Scanned scan.number l T.ev
  hit : T.hit = l.any fun r => d.intake.anyHit r.1 r.2.2

theorem Treatment.zone_valid {p : BitVec 12} (h : readingCode j (T.ev.zone u z) scan.sheet (.density p) = .validDensity) :
    T.zone j scan u z (.density p) = { T with
      readings := (.density p, .validDensity) :: T.readings, ev := T.ev.takeDensity u z p.toNat scan.number,
      hit := T.hit || T.ev.intake.anyHit u p.toNat } := by
  unfold Treatment.zone
  rw [h]

theorem Treatment.zone_invalid (h : readingCode j (T.ev.zone u z) scan.sheet x ≠ .validDensity) :
    T.zone j scan u z x = { T with readings := (x, readingCode j (T.ev.zone u z) scan.sheet x) :: T.readings } := by
  unfold Treatment.zone
  dsimp only
  split
  · exact (h ‹_›).elim
  · rfl

theorem State.validIn_cons (s : State) (scan : OpenScan) (u : UnitNo) (p : ZoneNo × Entry) (ps : List (ZoneNo × Entry)) :
    s.validIn scan u (p :: ps) = s.validIn scan u [p] ++ s.validIn scan u ps :=
  (congrArg (s.validIn scan u) (List.singleton_append (l := ps)).symm).trans (List.filterMap_append ..)

section
variable (hl : d.toState.pendingLawful)
include hl

/-- A zone of which no density has been taken is coded as the scan has found it. -/
theorem Treatment.Taken.zone (h : T.Taken d scan l) (hz : ∀ k, (u, z, k) ∉ l) (x : Entry) :
    (T.zone (d.judgeScan scan.sheet) scan u z x).Taken d scan (l ++ d.validIn scan u [(z, x)])
      ∧ (T.zone (d.judgeScan scan.sheet) scan u z x).readings = (x, d.codeOf u z scan.sheet x) :: T.readings
      ∧ (T.zone (d.judgeScan scan.sheet) scan u z x).groups = T.groups := by
  have hcode : readingCode (d.judgeScan scan.sheet) (T.ev.zone u z) scan.sheet x = d.codeOf u z scan.sheet x :=
    (readingCode_arbitrated (h.scanned.beyond hl hz).arbitrated _).trans (readingCode_eq _ _ _ _ _)
  by_cases hv : d.codeOf u z scan.sheet x = .validDensity
  · cases x with
    | density p =>
      have hvalid : d.validIn scan u [(z, .density p)] = [(u, z, p.toNat)] := by simp [State.validIn, hv]
      rw [Treatment.zone_valid (hcode.trans hv), hvalid, hv]
      refine ⟨⟨h.scanned.take u z p.toNat (readingCode_validDensity (hcode.trans hv)), ?_⟩, rfl, rfl⟩
      rw [List.any_append, ← h.hit, h.scanned.anyHit]
      simp
    | patchAbsent =>
      unfold State.codeOf at hv
      split_ifs at hv
    | outOfRange =>
      unfold State.codeOf at hv
      split_ifs at hv
  · have hvalid : d.validIn scan u [(z, x)] = [] := by
      cases x with
      | density p => simp [State.validIn, hv]
      | patchAbsent => rfl
      | outOfRange => rfl
    rw [Treatment.zone_invalid (by rwa [hcode]), hvalid, List.append_nil, hcode]
    exact ⟨⟨h.scanned, h.hit⟩, rfl, rfl⟩

theorem Treatment.Taken.zones (h : T.Taken d scan l) (hn : (ps.map (·.1)).Nodup) (hz : ∀ p ∈ ps, ∀ k, (u, p.1, k) ∉ l) :
    (ps.foldl (fun T p => T.zone (d.judgeScan scan.sheet) scan u p.1 p.2) T).Taken d scan (l ++ d.validIn scan u ps)
      ∧ (ps.foldl (fun T p => T.zone (d.judgeScan scan.sheet) scan u p.1 p.2) T).readings = (d.codedIn scan u ps).reverse ++ T.readings
      ∧ (ps.foldl (fun T p => T.zone (d.judgeScan scan.sheet) scan u p.1 p.2) T).groups = T.groups := by
  induction ps generalizing T l with
  | nil => exact ⟨by rwa [show d.validIn scan u [] = [] from rfl, List.append_nil], rfl, rfl⟩
  | cons p ps ih =>
    obtain ⟨hp, hn⟩ := List.nodup_cons.1 hn
    obtain ⟨h1, h2, h3⟩ := h.zone hl (hz p List.mem_cons_self) p.2
    obtain ⟨i1, i2, i3⟩ := ih h1 hn fun q hq k hk => by
      rcases List.mem_append.1 hk with hk | hk
      · exact hz q (List.mem_cons_of_mem _ hq) k hk
      · have hmem := (State.mem_validIn hk).2.1
        rw [List.map_singleton, List.mem_singleton] at hmem
        exact hp (List.mem_map.2 ⟨q, hq, hmem⟩)
    rw [List.foldl_cons, State.validIn_cons, ← List.append_assoc]
    refine ⟨i1, ?_, i3.trans h3⟩
    rw [i2, h2, State.codedIn, State.codedIn, List.map_cons, List.reverse_cons, List.append_assoc]
    rfl

end

/-! ### The whole scan -/

theorem zonedEntries_nodup (k : Nat) (entries : List Entry) : ((zonedEntries k entries).map (·.1)).Nodup := by
  have h (zs : List ZoneNo) (xs : List Entry) : ((zs.zip xs).map (·.1)).Sublist zs := by
    induction zs generalizing xs with
    | nil => simp
    | cons z zs ih =>
      cases xs with
      | nil => simp
      | cons x xs => simpa using ih xs
  exact (zonesBelow_nodup k).sublist (h _ _)

section
variable (hl : d.toState.pendingLawful)
include hl

theorem Treatment.Taken.unit (h : T.Taken d scan l) (hu : ∀ r ∈ l, r.1 ≠ u) :
    (T.unit (d.judgeScan scan.sheet) scan u).Taken d scan (l ++ d.validOf scan u)
      ∧ (T.unit (d.judgeScan scan.sheet) scan u).groups = (d.codedOf scan u).toList ++ T.groups := by
  have hcount : (T.ev.unit u).zoneCount = (d.unit u).zoneCount := by
    unfold UnitRec.zoneCount
    rw [(h.scanned.serves.settings u).config]
  unfold Treatment.unit State.validOf State.codedOf
  cases hb : scan.blocks[u] with
  | none => exact ⟨by rwa [List.append_nil], rfl⟩
  | some entries =>
    dsimp only
    have h0 : ({ T with readings := [] } : Treatment).Taken d scan l := ⟨h.scanned, h.hit⟩
    obtain ⟨h1, h2, h3⟩ := h0.zones hl (u := u) (ps := zonedEntries (T.ev.unit u).zoneCount entries) (zonedEntries_nodup _ _)
      fun p _ k hk => hu _ hk rfl
    rw [hcount] at h1 h2 h3 ⊢
    refine ⟨⟨h1.scanned.run, h1.hit⟩, ?_⟩
    rw [h2, h3, List.append_nil, List.reverse_reverse]
    rfl

theorem Treatment.Taken.units (h : T.Taken d scan l) (hn : us.Nodup) (hu : ∀ r ∈ l, r.1 ∉ us) :
    (us.foldl (fun T u => T.unit (d.judgeScan scan.sheet) scan u) T).Taken d scan (l ++ us.flatMap (d.validOf scan))
      ∧ (us.foldl (fun T u => T.unit (d.judgeScan scan.sheet) scan u) T).groups = (us.filterMap (d.codedOf scan)).reverse ++ T.groups := by
  induction us generalizing T l with
  | nil => exact ⟨by rwa [List.flatMap_nil, List.append_nil], rfl⟩
  | cons u us ih =>
    obtain ⟨hnew, hn⟩ := List.nodup_cons.1 hn
    obtain ⟨h1, h2⟩ := h.unit hl fun r hr k => hu r hr (k ▸ List.mem_cons_self)
    obtain ⟨i1, i2⟩ := ih h1 hn fun r hr k => by
      rcases List.mem_append.1 hr with hr | hr
      · exact hu r hr (List.mem_cons_of_mem _ k)
      · exact hnew ((State.mem_validOf hr).1 ▸ k)
    rw [List.foldl_cons, List.flatMap_cons, ← List.append_assoc]
    refine ⟨i1, i2.trans ?_⟩
    rw [h2, List.filterMap_cons]
    cases d.codedOf scan u with
    | none => rfl
    | some q => simp

/-- The treatment takes the scan's VALID DENSITY readings, and its groups are the scan's (R117, R125). -/
theorem Ev.treated_taken (scan : OpenScan) : (d.treated scan).Taken d scan (d.validReadings scan)
    ∧ (d.treated scan).groups.reverse = d.codedGroups scan := by
  have h0 : ({ ev := d, readings := [], groups := [], hit := false } : Treatment).Taken d scan [] := ⟨.start, rfl⟩
  obtain ⟨h1, h2⟩ := h0.units hl (us := ascending 16) (List.nodup_finRange _) fun r hr => by cases hr
  refine ⟨h1, ?_⟩
  rw [Ev.treated, h2, List.append_nil, List.reverse_reverse]
  rfl

end

/-- A zone has one VALID DENSITY reading at most. -/
theorem State.validReadings_once (s : State) (scan : OpenScan) : ((s.validReadings scan).map fun r => (r.1, r.2.1)).Nodup := by
  rw [State.validReadings_eq, List.Nodup, List.pairwise_map, List.pairwise_flatMap]
  refine ⟨fun u _ => ?_, (List.nodup_finRange 16).imp fun hne r hr q hq k => hne ?_⟩
  · unfold State.validOf
    split
    · exact .nil
    · next entries _ =>
      rw [State.validIn, List.pairwise_filterMap]
      refine (List.pairwise_map.1 (zonedEntries_nodup (s.unit u).zoneCount entries)).imp fun {p q} hne r hr r' hr' k => hne ?_
      have h1 := (State.mem_validIn (s := s) (scan := scan) (u := u) (l := [p]) (r := r) (by simpa [State.validIn] using hr)).2.1
      have h2 := (State.mem_validIn (s := s) (scan := scan) (u := u) (l := [q]) (r := r') (by simpa [State.validIn] using hr')).2.1
      rw [List.map_singleton, List.mem_singleton] at h1 h2
      rw [← h1, ← h2, (Prod.mk.inj k).2]
  · rw [← (State.mem_validOf hr).1, ← (State.mem_validOf hq).1, (Prod.mk.inj k).1]

end Sys2Proof.Machine
end

