-- ==== Sys2Proof/Proofs/ScanCloses.lean ====
section
/-! PROOFS. SCAN CLOSE (R112, R113): a COMPLETE scan, from its treatment to the writes at the end of the event, and the other ends. -/

namespace Sys2Proof.Machine

open Decode

variable {K : Nat → Prop} {d e f : Ev} {s t : State} {u v : UnitNo} {y z : ZoneNo} {k : Nat} {a : Anchor} {host : List HostWrite}
  {l : List (UnitNo × ZoneNo × Nat)} {scan : OpenScan} {w : Word} {b : Bool}

/-! ### The end of an event -/

/-- The end of an event keeps every unit: it grants, and ends orders. -/
theorem Ev.settle_unitKept (e : Ev) (v : UnitNo) : e.toState.UnitKept e.settle.toState v :=
  have hgo : e.Goes noUnit (fun _ => True) e.settleArbiter.runTests := ((Ev.Goes.refl fun _ _ _ => trivial).settleArbiter).runTests
  (hgo.came.reported hgo.wf).others v not_false

theorem Ev.settle_intake (e : Ev) : e.settle.intake = e.intake := by
  have hQ : Stable fun t => t.intake = e.intake :=
    ⟨fun _ _ h => h, fun _ _ h => h, fun _ _ h => h, fun _ _ h => h, fun _ _ h => h, fun _ _ h => h, fun _ _ h _ _ => h, fun _ _ _ h _ => h⟩
  have hkeeps : Keeps (Ev.Is fun t => t.intake = e.intake) := hQ.keeps fun k h => k.intake.trans h
  exact hkeeps.settle (e := e) rfl

/-! ### A COMPLETE scan -/

/-- A treated scan, with DENSITY WATCH raised on a hit (R124). -/
def Ev.watched (d : Ev) (scan : OpenScan) : Ev :=
  if (d.treated scan).hit then (d.treated scan).ev.raise .densityWatch else (d.treated scan).ev

/-- The record of a treated scan is handed to the port (R125). -/
def Ev.recorded (d : Ev) (scan : OpenScan) : Ev :=
  (d.watched scan).storeRecord (scanRecord scan (d.watched scan).timing.counter .complete (d.treated scan).groups.reverse)

theorem Ev.completeScan_eq (d : Ev) (scan : OpenScan) : d.completeScan scan = (d.recorded scan).updIntake fun i =>
    { i with scan := none, scanTimer := none, lastScan := some scan.number } := rfl

theorem Ev.completeScan_recorded (d : Ev) (scan : OpenScan) : (d.watched scan).Recorded (d.completeScan scan) := by
  rw [Ev.completeScan_eq]
  exact ((Ev.Recorded.refl _).storeRecord _).updIntake _

/-- DENSITY WATCH apart, the watched scan is the treated one. -/
theorem Ev.watched_of {P : Ev → Prop} (h : P (d.treated scan).ev) (hr : ∀ e, P e → P (e.raise .densityWatch)) : P (d.watched scan) := by
  unfold Ev.watched
  split
  · exact hr _ h
  · exact h

theorem Ev.watched_goes (scan : OpenScan) (hK : ∀ u, ∀ k ∈ (d.unit u).slots, K k) : d.Goes anyUnit K (d.watched scan) := by
  obtain ⟨l, h⟩ := d.treated_scanned scan
  exact Ev.watched_of (P := d.Goes anyUnit K) (h.goes hK) fun e k => k.raise _

theorem Ev.watched_state (d : Ev) (scan : OpenScan) : (d.watched scan).units = (d.treated scan).ev.units
    ∧ (d.watched scan).lines = (d.treated scan).ev.lines ∧ (d.watched scan).intake = (d.treated scan).ev.intake
    ∧ (d.watched scan).timing = (d.treated scan).ev.timing :=
  Ev.watched_of (P := fun e => e.units = (d.treated scan).ev.units ∧ e.lines = (d.treated scan).ev.lines
    ∧ e.intake = (d.treated scan).ev.intake ∧ e.timing = (d.treated scan).ev.timing) ⟨rfl, rfl, rfl, rfl⟩ fun _ h => h

theorem Ev.completeScan_units (d : Ev) (scan : OpenScan) : (d.completeScan scan).units = (d.treated scan).ev.units
    ∧ (d.completeScan scan).lines = (d.treated scan).ev.lines :=
  ⟨(d.completeScan_recorded scan).units.trans (d.watched_state scan).1, (d.completeScan_recorded scan).lines.trans (d.watched_state scan).2.1⟩

theorem Ev.completeScan_zone (d : Ev) (scan : OpenScan) (v : UnitNo) (y : ZoneNo) :
    (d.completeScan scan).zone v y = (d.treated scan).ev.zone v y :=
  congrArg (fun us : Vector UnitRec 16 => (us[v]).zones[y]) (d.completeScan_units scan).1

theorem Ev.completeScan_line (d : Ev) (scan : OpenScan) (n : LineNo) : (d.completeScan scan).line n = (d.treated scan).ev.line n := by
  rw [State.line, (d.completeScan_units scan).2]
  rfl

theorem Ev.completeScan_unit (d : Ev) (scan : OpenScan) (v : UnitNo) : (d.completeScan scan).unit v = (d.treated scan).ev.unit v := by
  rw [State.unit, (d.completeScan_units scan).1]
  rfl

/-- What a COMPLETE scan leaves of every unit and line. -/
structure State.ScanKept (s t : State) : Prop where
  settings : ∀ u, (s.unit u).SameSettings (t.unit u)
  service : ∀ n, (s.line n).SameService (t.line n)
  plans : ∀ u z, (t.zone u z).coverage = (s.zone u z).coverage ∧ (t.zone u z).plan = (s.zone u z).plan
    ∧ (t.zone u z).position = (s.zone u z).position

theorem Ev.completeScan_kept (d : Ev) (scan : OpenScan) : d.toState.ScanKept (d.completeScan scan).settle.toState := by
  obtain ⟨l, h⟩ := d.treated_scanned scan
  refine ⟨fun u => ?_, fun n => ?_, fun u z => ?_⟩
  · have h1 := h.serves.settings u
    rw [← d.completeScan_unit scan u] at h1
    exact h1.trans ((d.completeScan scan).settle_unitKept u).settings
  · have h1 := h.serves.service n
    rw [← d.completeScan_line scan n] at h1
    exact h1.trans ((d.completeScan scan).settle_unitKept n).service
  · obtain ⟨h1, h2, h3⟩ := h.plans u z
    rw [← d.completeScan_zone scan u z] at h1 h2 h3
    have haims := ((d.completeScan scan).settle_unitKept u).aims z
    exact ⟨haims.coverage.trans h1, haims.plan.trans h2, haims.position.trans h3⟩

/-- The intake after a COMPLETE scan: IDLE, with the watch entries that the treatment has tested. -/
theorem Ev.completeScan_intake (d : Ev) (scan : OpenScan) : (d.completeScan scan).settle.intake
    = { d.intake with
      scan := none, scanTimer := none, lastScan := some scan.number, watches := (d.treated scan).ev.intake.watches } := by
  obtain ⟨l, h⟩ := d.treated_scanned scan
  have hi : (d.recorded scan).intake = (d.treated scan).ev.intake :=
    (Ev.storeRecord_intake _ _).trans (d.watched_state scan).2.2.1
  have hupd : (d.completeScan scan).intake = { (d.recorded scan).intake with scan := none, scanTimer := none, lastScan := some scan.number } := rfl
  rw [Ev.settle_intake, hupd, hi, h.intake.1]

section
variable (hl : d.toState.pendingLawful)
include hl

theorem Ev.completeScan_pendingLawful (scan : OpenScan) : (d.completeScan scan).toState.pendingLawful := fun v y => by
  have h := (Ev.treated_taken hl scan).1.scanned.pendingLawful hl v y
  rw [Ev.completeScan_zone, Ev.completeScan_line]
  exact h

/-- From the treatment on, the arbiter alone comes to a zone. -/
theorem Ev.completeScan_grantedOn (scan : OpenScan) (v : UnitNo) (y : ZoneNo) :
    (d.treated scan).ev.toState.GrantedOn (d.completeScan scan).settle.toState v y :=
  (State.GrantedOn.of_same (d.completeScan_zone scan v y) fun k => by rw [State.waitsFor, Ev.completeScan_line]; rfl).trans
    (Ev.settle_grantedOn (Ev.completeScan_pendingLawful hl scan) v y)

theorem Ev.completeScan_sampled (hr : (u, z, k) ∈ d.validReadings scan) : d.toState.Sampled (d.completeScan scan).settle.toState u z k := by
  have hT := (Ev.treated_taken hl scan).1.scanned
  obtain ⟨hrest, ht⟩ := hT.treated hl (d.validReadings_once scan) hr
  exact (ht.grantedOn hrest (hT.pendingLawful hl) (Ev.completeScan_grantedOn hl scan u z)).sampled

theorem Ev.completeScan_untouched (hr : ∀ k, (u, z, k) ∉ d.validReadings scan) (hz : (d.zone u z).state ≠ .pending) :
    (d.completeScan scan).settle.zone u z = d.zone u z :=
  (((Ev.treated_taken hl scan).1.scanned.beyond hl hr).trans (Ev.completeScan_grantedOn hl scan u z)).arbitrated.zone hz

/-- Each watch entry holds its last hit (R124). -/
theorem Ev.completeScan_watches (scan : OpenScan) (q : Fin 4) : (d.completeScan scan).settle.intake.watches[q]
    = match ((d.intake.watches[q]).hits (d.validReadings scan)).getLast? with
      | some r => { d.intake.watches[q] with lastHit := some { unit := r.1, zone := r.2.1, density := r.2.2, scan := scan.number } }
      | none => d.intake.watches[q] := by
  have h := ((Ev.treated_taken hl scan).1.scanned.intake).2 q
  rw [Ev.completeScan_intake]
  exact h.trans (Watch.foldl_tested _ _ _)

/-- DENSITY WATCH is raised when a reading is a hit, and by nothing else (R124). -/
theorem Ev.completeScan_densityWatch (scan : OpenScan) : (d.completeScan scan).settle.noticePending .densityWatch = true
    ↔ d.noticePending .densityWatch = true ∨ ∃ q : Fin 4, (d.intake.watches[q]).hits (d.validReadings scan) ≠ [] := by
  have hT := (Ev.treated_taken hl scan).1
  have hbefore : (d.treated scan).ev.Watching (d.noticePending .densityWatch) := hT.scanned.watching rfl
  have hwatched : (d.watched scan).Watching (d.noticePending .densityWatch || (d.treated scan).hit) := by
    unfold Ev.watched
    split
    · next hh =>
      rw [hh, Bool.or_true]
      exact (Ev.noticePending_raise _ _ _).trans (by simp)
    · next hh =>
      rw [Bool.eq_false_iff.2 hh, Bool.or_false]
      exact hbefore
  have hend : (d.completeScan scan).settle.Watching (d.noticePending .densityWatch || (d.treated scan).hit) := by
    rw [Ev.completeScan_eq]
    exact ((hwatched.storeRecord _).congr (f := (d.recorded scan).updIntake _) rfl).settle
  unfold Ev.Watching at hend
  rw [hend, Bool.or_eq_true, hT.hit, anyHit_iff]

end

/-! ### Mirror and store -/

/-- The mirror block of every unit whose zones the scan has changed is written (R12). -/
theorem Ev.completeScan_mirrors (scan : OpenScan) (hl : d.toState.Linked a) :
    d.toState.MirrorsChanges (d.completeScan scan).settle.toState a := by
  have hd : d.Goes anyUnit (fun _ => True) (d.watched scan) := Ev.watched_goes scan fun _ _ _ => trivial
  have hr := d.completeScan_recorded scan
  have hgo : (d.completeScan scan).Goes anyUnit (fun _ => True) (d.completeScan scan).settleArbiter.runTests :=
    ((Ev.Goes.refl fun _ _ _ => trivial).settleArbiter).runTests
  have hzone (v : UnitNo) (y : ZoneNo) : (d.completeScan scan).zone v y = (d.watched scan).zone v y :=
    congrArg (fun us : Vector UnitRec 16 => (us[v]).zones[y]) hr.units
  have hend : (d.completeScan scan).settle = (d.completeScan scan).settleArbiter.runTests.flush := rfl
  generalize (d.completeScan scan).settleArbiter.runTests = f at hgo hend
  have hflush := f.flush_blocks
  have hwf : Memory.wf f.mem = true := hgo.wf (hr.wf (hd.wf hl.wf))
  have hatt : f.attached = true := decide_eq_true (hgo.course.state.trans (hr.portState.trans (hd.course.state.trans hl.attached)))
  have hanchor : f.port.anchor = some a := hgo.course.anchor.trans (hr.anchor.trans (hd.course.anchor.trans hl.anchor))
  intro u ⟨z, hz⟩
  rw [hend] at hz ⊢
  have hz' : (f.zone u z).state ≠ (d.zone u z).state := by
    rwa [show f.flush.zone u z = f.zone u z from congrArg (fun us : Vector UnitRec 16 => (us[u]).zones[z]) hflush.units] at hz
  have hdue : u ∈ f.mirrorDue := by
    by_cases j : (f.zone u z).state = ((d.completeScan scan).zone u z).state
    · refine hgo.owed ?_
      rw [hr.mirrorDue]
      exact hd.changed u z (by rwa [j, hzone] at hz')
    · exact hgo.changed u z j
  obtain ⟨hcount, hblock⟩ := Ev.flush_mirror hatt hanchor hl.sound hwf hdue
  exact ⟨hcount.trans (by rw [hgo.counts, hr.counts, hd.counts]), hblock⟩

theorem State.SameStore.symm (h : s.SameStore a t) : t.SameStore a s :=
  ⟨h.segment.symm, h.openSegment.symm, h.fillSequence.symm, h.lostScans.symm, fun x hx => (h.words x hx).symm⟩

theorem State.SameStore.lawful (h : s.SameStore a t) (k : s.StoreLawful a) : t.StoreLawful a := by
  unfold State.StoreLawful at k ⊢
  rwa [h.segment, h.openSegment]

theorem codedRecord_length (s : State) (scan : OpenScan) (counter : Sheet) (outcome : ScanOutcome) :
    (scanRecord scan counter outcome (s.codedGroups scan)).length ≤ 1044 := by
  refine scanRecord_length counter outcome ((List.length_filterMap_le _ _).trans (by rw [ascending, List.length_finRange])) fun q hq => ?_
  obtain ⟨u, _, hu⟩ := List.mem_filterMap.1 hq
  obtain ⟨entries, _, rfl⟩ := Option.map_eq_some_iff.1 hu
  rw [List.length_map]
  exact zonedEntries_length _ _

/-- The record of a COMPLETE scan is stored (R125, R167, R168), and stays while the event ends orders whose slots lie in the ring. -/
theorem Ev.completeScan_stores (hp : d.toState.pendingLawful) (scan : OpenScan) (hl : d.toState.Linked a) (hlaw : d.StoreLawful a)
    (hring : ∀ k ∈ d.heldSlots, k < a.ringLength) : d.toState.Stores (d.completeScan scan).settle.toState [] a
      (scanRecord scan d.timing.counter .complete (d.codedGroups scan)) := by
  obtain ⟨hT, hgroups⟩ := Ev.treated_taken hp scan
  have hlen := codedRecord_length d.toState scan d.timing.counter .complete
  obtain ⟨_, h1100, _⟩ := id hlaw
  have hd : d.Goes anyUnit (· ∈ d.heldSlots) (d.watched scan) :=
    Ev.watched_goes scan fun u k hk => State.mem_heldSlots.2 ⟨u, hk⟩
  have hr := d.completeScan_recorded scan
  have hbefore := hd.store hl hring
  have hlw : (d.watched scan).toState.Linked a :=
    ⟨hd.course.state.trans hl.attached, hd.course.anchor.trans hl.anchor, hl.inMemory, hl.disjoint, hd.wf hl.wf⟩
  have hle := hr.linked hlw
  have hrecord : d.recorded scan = (d.watched scan).storeRecord (scanRecord scan d.timing.counter .complete (d.codedGroups scan)) := by
    rw [Ev.recorded, hgroups, (d.watched_state scan).2.2.2, hT.scanned.timing]
  have hstored : (d.watched scan).toState.Stores (d.recorded scan).toState [] a _ :=
    hrecord ▸ Ev.storeRecord_stores hlw (hbefore.toSameStore.lawful hlaw) (by omega)
  have hidle : (d.recorded scan).toState.StoreKept a (d.completeScan scan).toState :=
    ⟨⟨rfl, rfl, rfl, rfl, fun _ _ => rfl⟩, fun _ h => h, List.Subset.refl _⟩
  have hgo : (d.completeScan scan).Goes anyUnit (· ∈ d.heldSlots) (d.completeScan scan).settleArbiter.runTests :=
    ((Ev.Goes.refl fun u k hk => hd.slots u k (by rwa [State.unit, hr.units] at hk)).settleArbiter).runTests
  have hlg : (d.completeScan scan).settleArbiter.runTests.toState.Linked a :=
    ⟨hgo.course.state.trans hle.attached, hgo.course.anchor.trans hle.anchor, hl.inMemory, hl.disjoint, hgo.wf hle.wf⟩
  exact hstored.kept hbefore.toSameStore.symm ((hidle.trans (hgo.store hle hring)).trans (Ev.flush_store hlg)) hlaw (by omega)

end Sys2Proof.Machine
end

