-- ==== Sys2Proof/Proofs/ScanEnds.lean ====
section
/-! PROOFS. SCAN CLOSE (R112, R113, R121, R122), by the intake setting, the scan state and the check word. -/

namespace Sys2Proof.Machine

open Decode

variable {d e : Ev} {s t : State} {host : List HostWrite} {scan : OpenScan} {w : Word}

theorem exec_scanClose (h : s.regionsInMemory = true) (host : List HostWrite) (w : Word) :
    exec (.scanClose host w) s = .next ((s.landed host).scanClose w).settle.toState :=
  act_of_regionsInMemory h fun e => (e.hostWrites host).scanClose w

/-! ### The branches -/

theorem Ev.scanClose_ignored (h : e.intake.setting ≠ .on) : e.scanClose w = e := by
  unfold Ev.scanClose
  cases hs : e.intake.setting with
  | off => rfl
  | armed => rfl
  | on => exact (h hs).elim

theorem Ev.scanClose_idle (h : e.intake.setting = .on) (k : e.intake.scan = none) : e.scanClose w = e.countLinkFault := by
  simp only [Ev.scanClose, h, k]

theorem Ev.scanClose_open (h : e.intake.setting = .on) (k : e.intake.scan = some scan) :
    e.scanClose w = if w = scan.sum then e.completeScan scan else e.faultScan scan .badCheck := by
  simp only [Ev.scanClose, h, k]

/-- Only a COMPLETE scan touches a unit or a line. -/
theorem Ev.scanClose_cases (e : Ev) (w : Word) : e.Recorded (e.scanClose w) ∨ ∃ scan, e.scanClose w = e.completeScan scan := by
  by_cases h : e.intake.setting = .on
  · cases k : e.intake.scan with
    | none =>
      rw [Ev.scanClose_idle h k]
      exact .inl ((Ev.Recorded.refl e).updIntake _)
    | some scan =>
      rw [Ev.scanClose_open h k]
      split
      · exact .inr ⟨scan, rfl⟩
      · exact .inl (e.faultScan_recorded scan .badCheck)
  · rw [Ev.scanClose_ignored h]
    exact .inl (.refl e)

theorem State.ScanKept.of_units (hu : t.units = s.units) (hl : t.lines = s.lines) : s.ScanKept t := by
  have hunit (u : UnitNo) : t.unit u = s.unit u := congrArg (fun us : Vector UnitRec 16 => us[u]) hu
  have hline (n : LineNo) : t.line n = s.line n := congrArg (fun ls : Vector Line 16 => ls[n]) hl
  have hzone (u : UnitNo) (z : ZoneNo) : t.zone u z = s.zone u z := congrArg (fun us : Vector UnitRec 16 => (us[u]).zones[z]) hu
  refine ⟨fun u => ?_, fun n => ?_, fun u z => ?_⟩
  · rw [hunit]
    exact .refl _
  · rw [hline]
    exact .refl _
  · rw [hzone]
    exact ⟨rfl, rfl, rfl⟩

theorem State.scanClose_kept (s : State) (host : List HostWrite) (w : Word) : s.ScanKept ((s.landed host).scanClose w).settle.toState := by
  rcases (s.landed host).scanClose_cases w with h | ⟨scan, h⟩
  · exact .of_units h.taken.units h.taken.lines
  · rw [h]
    obtain ⟨h1, h2, h3⟩ := (s.landed host).completeScan_kept scan
    exact ⟨h1, h2, h3⟩

/-- What a COMPLETE scan has come to (R113, R117, R118, R124, R125). -/
structure State.ScanCompleted (s t : State) (host : List HostWrite) (scan : OpenScan) : Prop where
  sampled : ∀ r ∈ s.validReadings scan, s.Sampled t r.1 r.2.1 r.2.2
  untouched : ∀ u z, (∀ d, (u, z, d) ∉ s.validReadings scan) → (s.zone u z).state ≠ .pending → t.zone u z = s.zone u z
  watches : ∀ k : Fin 4, t.intake.watches[k] = match ((s.intake.watches[k]).hits (s.validReadings scan)).getLast? with
    | some r => { s.intake.watches[k] with lastHit := some { unit := r.1, zone := r.2.1, density := r.2.2, scan := scan.number } }
    | none => s.intake.watches[k]
  densityWatch : t.noticePending .densityWatch = true ↔ s.noticePending .densityWatch = true
    ∨ ∃ k : Fin 4, (s.intake.watches[k]).hits (s.validReadings scan) ≠ []
  mirrors : ∀ a, s.Linked a → s.MirrorsChanges t a
  stored : ∀ a, s.Linked a → s.StoreLawful a → (∀ k ∈ s.heldSlots, k < a.ringLength) →
    s.Stores t host a (scanRecord scan s.timing.counter .complete (s.codedGroups scan))

theorem State.landed_scanCompleted (hl : s.pendingLawful) (host : List HostWrite) (scan : OpenScan) :
    s.ScanCompleted ((s.landed host).completeScan scan).settle.toState host scan where
  sampled _ hr := Ev.completeScan_sampled (d := s.landed host) hl hr
  untouched _ _ hr hz := Ev.completeScan_untouched (d := s.landed host) hl hr hz
  watches k := Ev.completeScan_watches (d := s.landed host) hl scan k
  densityWatch := Ev.completeScan_densityWatch (d := s.landed host) hl scan
  mirrors _ hlink u hu := (Ev.completeScan_mirrors scan (hlink.landed host) u hu).of_landed
  stored _ hlink hlaw hring := (Ev.completeScan_stores (d := s.landed host) hl scan (hlink.landed host) hlaw hring).of_landed

/-- Settles O42: by the intake setting, the scan state and the check word. -/
theorem scanCloseEndsTheScan : Obligations.ScanCloseEndsTheScan := by
  unfold Obligations.ScanCloseEndsTheScan
  intro host s w hmem
  have hx := exec_scanClose hmem host w
  obtain ⟨hsettings, hservice, hplans⟩ := s.scanClose_kept host w
  have hi : (s.landed host).intake = s.intake := rfl
  refine ⟨_, hx, fun h => ?_, fun h k => ?_, fun scan h k => ?_, hsettings, hservice, hplans, (exec_part rfl hx).1, exec_timing rfl hx,
    exec_check rfl hx, exec_pending hx⟩
  · rw [Ev.scanClose_ignored (hi ▸ h)]
    exact (s.landed host).settle_intake
  · rw [Ev.scanClose_idle (hi ▸ h) (hi ▸ k)]
    exact ((s.landed host).countLinkFault).settle_intake
  · rw [Ev.scanClose_open (hi ▸ h) (hi ▸ k)]
    by_cases hw : w = scan.sum
    · rw [if_pos hw]
      have hintake := (s.landed host).completeScan_intake scan
      rw [hintake]
      refine ⟨rfl, rfl, rfl, h, fun _ => rfl, fun j => (j hw).elim, fun _ hl => ?_⟩
      have hc := s.landed_scanCompleted hl host scan
      have hwatches := hc.watches
      rw [hintake] at hwatches
      exact ⟨hc.sampled, hc.untouched, hwatches, hc.densityWatch, fun a hlink => ⟨hc.mirrors a hlink, hc.stored a hlink⟩⟩
    · rw [if_neg hw]
      have hf := s.landed_scanFaulted host scan .badCheck
      rw [hf.intake]
      exact ⟨rfl, rfl, rfl, h, fun j => (hw j).elim, fun _ => ⟨rfl, hf.raised, hf.units, hf.lines, rfl, hf.stored⟩, fun j => (hw j).elim⟩

end Sys2Proof.Machine
end
